-- ==== Sys2Proof/Word.lean ====
section
/-! DEFINITION. Word types of the Forarn KX4 (R3, R154) and their plainest arithmetic. -/

namespace Sys2Proof

/-- A byte of memory (R3). -/
abbrev Byte := BitVec 8
/-- A scalar register, an address, a control register (R154). -/
abbrev Word := BitVec 64
/-- The field that names a scalar register (R141). -/
abbrev SReg := BitVec 5
/-- The field that names a vector register (R141). -/
abbrev VReg := BitVec 5
/-- An element type code (R32). -/
abbrev TypeCode := BitVec 5
/-- A hardware queue number (R378). -/
abbrev QueueNum := BitVec 14
/-- An endpoint of the domain (R2, R179). -/
abbrev Endpoint := BitVec 13
/-- A die of a module: 0 to 3 for CD0 to CD3, 4 for the hub die (R434). -/
abbrev Die := BitVec 3

/-- The word that holds a number, modulo 2^64. -/
abbrev word (n : Nat) : Word := BitVec.ofNat 64 n

/-- The word that holds an integer in two's complement. -/
abbrev wordI (n : Int) : Word := BitVec.ofInt 64 n

/-- Bits [hi:lo] of a word, read as a number (R3). -/
def bits (w : Word) (hi lo : Nat) : Nat := w.toNat / 2 ^ lo % 2 ^ (hi + 1 - lo)

/-- Bit i of a word. -/
def bitOf (w : Word) (i : Nat) : Bool := w.toNat / 2 ^ i % 2 == 1

end Sys2Proof
end

