-- ==== Sys2Proof/Config.lean ====
section
/-! DEFINITION. What an implementation fixes, and the values the spec leaves open. An opaque constant has no body:
no proof can see its value, so a claim holds whatever the value is. -/

namespace Sys2Proof

/-- Domain time in ns that one step takes, by the free-value counter of the state (log 6). -/
opaque Config.elapsed : Nat → Nat

/-- Which line of a full L1 is replaced, by the free-value counter (log 7). -/
opaque Config.l1Victim : Nat → Nat

/-- SHA-512 of a byte string (R427, R428; log 8). -/
opaque Config.sha512 : List Byte → BitVec 512

/-- The Ed25519 public key of a 32-byte seed (R428; log 8). -/
opaque Config.ed25519Public : BitVec 256 → BitVec 256

/-- The Ed25519 signature over a byte string under a 32-byte seed (R428, R429; log 8). -/
opaque Config.ed25519Sign : BitVec 256 → List Byte → BitVec 512

/-- The part number code and silicon revision in an attestation report (R429). -/
opaque Config.partCode : BitVec 64

/-- The fuse security version in an attestation report (R429). -/
opaque Config.fuseVersion : BitVec 64

/-- Which of the free ports of a router a flit takes, by the free-value counter (R396). -/
opaque Config.portChoice : Nat → Nat

/-- The stop of the trellis at which a core stands (R395; log 66). -/
opaque Config.coreStop : Nat → Nat

/-- The leaf switch of an endpoint (R404), and the key and salt that firmware installs as the `n`th (R409). -/
opaque Config.leafOf : Endpoint → Nat
opaque Config.linkKey : Nat → BitVec 256
opaque Config.linkSalt : Nat → BitVec 32

/-- `TVAL` of a wait for a response that reaches its deadline, by its object (R31, R74). -/
opaque Config.responseTval : Nat → BitVec 64

/-- The syndrome of the machine check at the thermal shut-down (R433). -/
opaque Config.thermalSyndrome : BitVec 64

/-- STALL cycles that a step takes, by the free-value counter (R422). -/
opaque Config.idleCycles : Nat → Nat

/-- Cores of a module (R2). -/
abbrev Config.cores : Nat := 384

/-- Harts of a module (R2). -/
abbrev Config.harts : Nat := 1536

/-- Lines of 64 bytes that an L1 of 32 KiB holds (R86). -/
abbrev Config.l1Lines : Nat := 512

/-- Entries of a store buffer (R86). -/
abbrev Config.storeBuffer : Nat := 16

end Sys2Proof
end

