-- ==== Sys2Proof/Syntax.lean ====
section
/-! DEFINITION. The instructions and events of the part: one constructor per row of the table of operations and
events. An encoded instruction carries the operand fields of its format (R140); the convoy bit C plays no part in
its meaning (R139) and is no operand. An event of the part has no encoding; its operands are what an outside
observer must name for the event to be one event. -/

namespace Sys2Proof

/-- Space field of a vector memory instruction: global memory, scratchpad, lane-private SRAM (R55, R146). -/
inductive Space where
  | global | spad | lane
deriving DecidableEq, Repr

/-- Scope of an ordering operation, narrowest first (R93). -/
inductive Scope where
  | hart | core | cluster | device | domain
deriving DecidableEq, Repr

/-- Order field: none, acquire, release, both (R170, R231). -/
inductive Order where
  | none | acq | rel | acqRel
deriving DecidableEq, Repr

/-- Third operand of a VV word: a vector register, a scalar register or an imm5, by kind (R145). -/
inductive VOperand where
  | vec (v : VReg)
  | scal (r : SReg)
  | imm (i : BitVec 5)
deriving DecidableEq, Repr

/-- The three registers of the hardware loop (R173). -/
inductive LoopReg where
  | lcnt | lbeg | lend
deriving DecidableEq, Repr

/-- Where a byte, a cask or a granule lies, as its home sees it: a global physical address (R359), or a module
core number and a scratchpad offset (R327). -/
inductive Loc where
  | glob (pa : Nat)
  | spad (core off : Nat)
deriving DecidableEq, Repr

/-- Who stores to a wake register (R380). -/
inductive WakeSource where
  /-- a hart of the module, by its number -/
  | hart (h : Nat)
  /-- a hart of another endpoint -/
  | peer
  /-- the host, through the function that owns the queue, or through another one -/
  | host (owner : Bool)
deriving DecidableEq, Repr

/-- The activities that are charged to a queue, each with its count of units (R388). -/
inductive Activity where
  | scalar (n : Nat) | pipe (n : Nat) | matrix (n : Nat) | scratch (n : Nat)
  | hbm (n : Nat) | cellar (n : Nat) | fabric (n : Nat) | grant (n : Nat)
deriving DecidableEq, Repr

/-- One part of an element train that reaches its destination: an element with its address and bytes, or the tail
with the element count (R104). -/
inductive TrainPart where
  | element (pa : Nat) (data : List Byte)
  | tail (count : Nat)
deriving DecidableEq, Repr

/-- A frame at the receiving side of a fabric port (R407): the header fields that its acceptance depends on, the
sender's counter, and whether header, payload and tag are as they were sent. -/
structure Frame where
  ks : Bool
  counter : Nat
  marker : Bool
  intact : Bool
deriving DecidableEq, Repr

/-- A command to the memory engine of an endpoint, by its eight doublewords (R366). -/
structure EngineCommand where
  endpt : Endpoint
  dw : Vector Word 8
deriving DecidableEq, Repr

/-- What bring-up finds: which boot slots verify, whether Hjelny verifies, which stacks, packages and ports train,
which endpoint the fabric gives the module, and the time its time base shows (R427). -/
structure BringUp where
  slotA : Bool
  slotB : Bool
  hjelny : Bool
  stacksOut : List Nat
  packagesOut : List Nat
  portsUp : List Nat
  rootPorts : List Nat
  endpoint : Endpoint
  time : Word
  digests : List (BitVec 512)
  fuseSecret : BitVec 512
deriving DecidableEq, Repr

/-- One element of a contribution from another endpoint, which its sender has checked (R128, R136): the slot, the element's
code and the exponent of its block scale, and for a collective round the chunk, the address that takes the result, and how many bytes. -/
structure SlotItem where
  slot : Nat
  code : Nat
  scale : Int
  target : Option (Nat × Nat × Nat)
deriving DecidableEq, Repr

/-- What a request from a hart of another endpoint asks of a cask at its home (R117). -/
inductive CaskVerb where
  | arrive (deadline : Option Nat) | wait (deadline : Nat) | acquire (deadline : Nat) | release (gen : Nat)
  | mendLock (tag : Nat) | join | leave | read | contribute (items : List SlotItem) (deadline : Option Nat)
  | enqueue (data : List Byte) | poll | receive (deadline : Nat)
  | openFarm | claim (deadline : Nat) | finish (strip gen : Nat) | finished (deadline : Nat)
  | commit (target value : Nat) (guard : Word)
deriving DecidableEq, Repr

/-- The groups of the instructions that ask something of a cask, which give the configuration cause (R118): SYNC, QRM, QUE,
FARM, `vrrsq`, and the collective accesses. -/
inductive CaskGroup where
  | sync | qrm | que | farm | sums | collective
deriving DecidableEq, Repr

/-- A cask request of another endpoint's hart: the cask, who asks, its member index and round tag, the group of its
instruction, and what it asks. -/
structure CaskRequest where
  cask : Loc
  source : Nat
  index : Nat
  tag : Nat
  group : CaskGroup
  verb : CaskVerb
deriving DecidableEq, Repr

/-- What an answer to a wait carries beside its status word: the absentee set (R116), and a strip index or a queue entry (R132,
R137). -/
structure Carried where
  absent : Nat := 0
  data : List Byte := []
deriving DecidableEq, Repr

/-- The ten operations of the scalar atomics (R171), which a home performs for any agent (R96). -/
inductive AtomicOp where
  | swap | add | and | or | xor | min | max | minu | maxu | cas
deriving DecidableEq, Repr

/-- An atomic of another endpoint's hart: address, width in bytes, operation, operand, expected value. -/
structure AtomicRequest where
  pa : Nat
  bytes : Nat
  op : AtomicOp
  operand : Word
  expected : Word
deriving DecidableEq, Repr

/-- The instructions, and then the events, in the order of the table of operations and events. -/
inductive Instr where
  /-- R157: Writes the sum of two scalar registers, modulo 2^64. -/
  | add (d : SReg) (a : SReg) (b : SReg)
  /-- R157: Writes the difference of two scalar registers, modulo 2^64. -/
  | sub (d : SReg) (a : SReg) (b : SReg)
  /-- R157: Writes the bitwise AND of two scalar registers. -/
  | and (d : SReg) (a : SReg) (b : SReg)
  /-- R157: Writes the bitwise OR of two scalar registers. -/
  | or (d : SReg) (a : SReg) (b : SReg)
  /-- R157: Writes the bitwise XOR of two scalar registers. -/
  | xor (d : SReg) (a : SReg) (b : SReg)
  /-- R157: Writes x AND NOT y. -/
  | andn (d : SReg) (a : SReg) (b : SReg)
  /-- R157: Writes x OR NOT y. -/
  | orn (d : SReg) (a : SReg) (b : SReg)
  /-- R157: Shifts x left by the unreduced amount in y; the result is 0 when the amount is 64 or more. -/
  | sll (d : SReg) (a : SReg) (b : SReg)
  /-- R157: Shifts x right logically by the unreduced amount in y. -/
  | srl (d : SReg) (a : SReg) (b : SReg)
  /-- R157: Shifts x right arithmetically by the unreduced amount in y. -/
  | sra (d : SReg) (a : SReg) (b : SReg)
  /-- R157: Writes 1 if x is less than y as signed values, else 0. -/
  | slt (d : SReg) (a : SReg) (b : SReg)
  /-- R157: Writes 1 if x is less than y as unsigned values, else 0. -/
  | sltu (d : SReg) (a : SReg) (b : SReg)
  /-- R157: Writes the signed minimum of x and y. -/
  | min (d : SReg) (a : SReg) (b : SReg)
  /-- R157: Writes the signed maximum of x and y. -/
  | max (d : SReg) (a : SReg) (b : SReg)
  /-- R157: Writes the unsigned minimum of x and y. -/
  | minu (d : SReg) (a : SReg) (b : SReg)
  /-- R157: Writes the unsigned maximum of x and y. -/
  | maxu (d : SReg) (a : SReg) (b : SReg)
  /-- R157: Counts the leading zero bits of x. -/
  | clz (d : SReg) (a : SReg)
  /-- R157: Counts the trailing zero bits of x. -/
  | ctz (d : SReg) (a : SReg)
  /-- R157: Counts the one bits of x. -/
  | popc (d : SReg) (a : SReg)
  /-- R157: Reverses the byte order of x. -/
  | bswap (d : SReg) (a : SReg)
  /-- R158: Writes the low 64 bits of the product. -/
  | mul (d : SReg) (a : SReg) (b : SReg)
  /-- R158: Writes the high 64 bits of the signed product. -/
  | mulh (d : SReg) (a : SReg) (b : SReg)
  /-- R158: Writes the high 64 bits of the unsigned product. -/
  | mulhu (d : SReg) (a : SReg) (b : SReg)
  /-- R158: Writes the high 64 bits of the signed-by-unsigned product. -/
  | mulhsu (d : SReg) (a : SReg) (b : SReg)
  /-- R159: Writes the signed quotient, rounded toward zero; division by zero sets DZ or traps. -/
  | div (d : SReg) (a : SReg) (b : SReg)
  /-- R159: Writes the unsigned quotient. -/
  | divu (d : SReg) (a : SReg) (b : SReg)
  /-- R159: Writes the signed remainder, which takes the sign of the dividend. -/
  | rem (d : SReg) (a : SReg) (b : SReg)
  /-- R159: Writes the unsigned remainder. -/
  | remu (d : SReg) (a : SReg) (b : SReg)
  /-- R160: Adds a sign-extended 15-bit immediate. -/
  | addi (d : SReg) (a : SReg) (i : BitVec 15)
  /-- R160: Writes the AND with a sign-extended immediate. -/
  | andi (d : SReg) (a : SReg) (i : BitVec 15)
  /-- R160: Writes the OR with a sign-extended immediate. -/
  | ori (d : SReg) (a : SReg) (i : BitVec 15)
  /-- R160: Writes the XOR with a sign-extended immediate. -/
  | xori (d : SReg) (a : SReg) (i : BitVec 15)
  /-- R160: Performs a signed compare with an immediate. -/
  | slti (d : SReg) (a : SReg) (i : BitVec 15)
  /-- R160: Performs an unsigned compare with a sign-extended immediate. -/
  | sltiu (d : SReg) (a : SReg) (i : BitVec 15)
  /-- R161: Shifts left by an immediate of 0 to 63. -/
  | slli (d : SReg) (a : SReg) (amt : BitVec 6)
  /-- R161: Shifts right logically by an immediate. -/
  | srli (d : SReg) (a : SReg) (amt : BitVec 6)
  /-- R161: Shifts right arithmetically by an immediate. -/
  | srai (d : SReg) (a : SReg) (amt : BitVec 6)
  /-- R162: Writes sext(imm20) times 2^15. -/
  | lui (d : SReg) (i : BitVec 20)
  /-- R162: Writes pc plus sext(imm20) times 2^15. -/
  | auipc (d : SReg) (i : BitVec 20)
  /-- R164: Loads a sign-extended byte through the store buffer, the L1 or the home. -/
  | lb (d : SReg) (a : SReg) (i : BitVec 12)
  /-- R164: Loads a zero-extended byte. -/
  | lbu (d : SReg) (a : SReg) (i : BitVec 12)
  /-- R164: Loads a sign-extended halfword. -/
  | lh (d : SReg) (a : SReg) (i : BitVec 12)
  /-- R164: Loads a zero-extended halfword. -/
  | lhu (d : SReg) (a : SReg) (i : BitVec 12)
  /-- R164: Loads a sign-extended word. -/
  | lw (d : SReg) (a : SReg) (i : BitVec 12)
  /-- R164: Loads a zero-extended word. -/
  | lwu (d : SReg) (a : SReg) (i : BitVec 12)
  /-- R164: Loads a doubleword. -/
  | ld (d : SReg) (a : SReg) (i : BitVec 12)
  /-- R164: Stores a byte into the store buffer. -/
  | sb (s : SReg) (a : SReg) (i : BitVec 12)
  /-- R164: Stores a halfword. -/
  | sh (s : SReg) (a : SReg) (i : BitVec 12)
  /-- R164: Stores a word. -/
  | sw (s : SReg) (a : SReg) (i : BitVec 12)
  /-- R164: Stores a doubleword. -/
  | sd (s : SReg) (a : SReg) (i : BitVec 12)
  /-- R166: Branches if the two registers are equal. -/
  | beq (a : SReg) (b : SReg) (o : BitVec 12)
  /-- R166: Branches if the two registers are not equal. -/
  | bne (a : SReg) (b : SReg) (o : BitVec 12)
  /-- R166: Branches if a is less than b, signed. -/
  | blt (a : SReg) (b : SReg) (o : BitVec 12)
  /-- R166: Branches if a is greater than or equal to b, signed. -/
  | bge (a : SReg) (b : SReg) (o : BitVec 12)
  /-- R166: Branches if a is less than b, unsigned. -/
  | bltu (a : SReg) (b : SReg) (o : BitVec 12)
  /-- R166: Branches if a is greater than or equal to b, unsigned. -/
  | bgeu (a : SReg) (b : SReg) (o : BitVec 12)
  /-- R167: Links pc + 4 and jumps by a word offset. -/
  | jal (d : SReg) (i : BitVec 20)
  /-- R168: Links pc + 4 and jumps to register plus immediate; a misaligned target traps. -/
  | jalr (d : SReg) (a : SReg) (i : BitVec 15)
  /-- R171: Atomically swaps at the home and returns the old value. -/
  | aswap (d : SReg) (a : SReg) (b : SReg) (w : Bool) (sc : Scope) (o : Order)
  /-- R171: Atomically adds at the home. -/
  | aadd (d : SReg) (a : SReg) (b : SReg) (w : Bool) (sc : Scope) (o : Order)
  /-- R171: Atomically ANDs at the home. -/
  | aand (d : SReg) (a : SReg) (b : SReg) (w : Bool) (sc : Scope) (o : Order)
  /-- R171: Atomically ORs at the home. -/
  | aor (d : SReg) (a : SReg) (b : SReg) (w : Bool) (sc : Scope) (o : Order)
  /-- R171: Atomically XORs at the home. -/
  | axor (d : SReg) (a : SReg) (b : SReg) (w : Bool) (sc : Scope) (o : Order)
  /-- R171: Atomic signed minimum at the home. -/
  | amin (d : SReg) (a : SReg) (b : SReg) (w : Bool) (sc : Scope) (o : Order)
  /-- R171: Atomic signed maximum at the home. -/
  | amax (d : SReg) (a : SReg) (b : SReg) (w : Bool) (sc : Scope) (o : Order)
  /-- R171: Atomic unsigned minimum at the home. -/
  | aminu (d : SReg) (a : SReg) (b : SReg) (w : Bool) (sc : Scope) (o : Order)
  /-- R171: Atomic unsigned maximum at the home. -/
  | amaxu (d : SReg) (a : SReg) (b : SReg) (w : Bool) (sc : Scope) (o : Order)
  /-- R171: Atomic compare-and-swap; d carries the expected value in and the old value out. -/
  | acas (d : SReg) (a : SReg) (b : SReg) (w : Bool) (sc : Scope) (o : Order)
  /-- R174: Sets up a hardware loop over the next n words. -/
  | lp (a : SReg) (n : BitVec 15)
  /-- R177: Reads a control register into a scalar register. -/
  | rdc (d : SReg) (n : BitVec 12)
  /-- R177: Writes a control register; this also serves registers that have no row of their own. -/
  | wrc (a : SReg) (n : BitVec 12)
  /-- R177: Indivisibly ORs a scalar register into a control register. -/
  | setbc (a : SReg) (n : BitVec 12)
  /-- R177: Indivisibly clears in a control register the bits set in a scalar register. -/
  | clrbc (a : SReg) (n : BitVec 12)
  /-- R178: Traps with ECALL_U or ECALL_S. -/
  | ecall
  /-- R178: Traps with BREAKPOINT. -/
  | ebreak
  /-- R331: Returns to the privilege in STATUS.PP at EPC, restores IE and clears CVR. -/
  | eret
  /-- R332: Performs earlier accesses, then invalidates the selected translations on the partition's harts and waits for in-flight users. -/
  | tlbi (a : SReg)
  /-- R332: Invalidates every translation and the issuing hart's L1. -/
  | tlbia
  /-- R333: Saves the vector state and landed bits to a save area and returns its size. -/
  | vsvall (d : SReg) (a : SReg)
  /-- R333: Restores the vector state from a save area when VLG matches. -/
  | vrsall (a : SReg)
  /-- R334: Saves the four tile registers. -/
  | tsvall (a : SReg)
  /-- R334: Restores the four tile registers. -/
  | trsall (a : SReg)
  /-- R335: Parks the reassembly and membership tables into the context area and sets PARKED. -/
  | rapark
  /-- R336: Reloads the parked membership entries, writes arrived response data and clears PARKED. -/
  | rarestore
  /-- R337: Rewrites one hart's lane-group grant on the core within the partition quota. -/
  | lgset (d : SReg) (a : SReg)
  /-- R338: Sends a pre-emption request, urgent or not, to a hart of the partition. -/
  | preempt (d : SReg) (a : SReg)
  /-- R88: Orders earlier scalar accesses before later vector accesses and copies, drains the store buffer and flushes the recorded pairs. -/
  | fenceSv (sc : Scope)
  /-- R88: Orders earlier vector accesses before later scalar accesses and invalidates the L1. -/
  | fenceVs (sc : Scope)
  /-- R88: Orders vector accesses before later vector accesses. -/
  | fenceVv (sc : Scope)
  /-- R88: Orders every access and copy, drains the store buffer, invalidates the L1, waits for copies to retire and flushes the recorded pairs. -/
  | fenceA (sc : Scope)
  /-- R103: Sends flushing reads to the die of a pointer's home, or to every die of its endpoint, and waits for the answers. -/
  | flushrd (a : SReg) (sc : Scope)
  /-- R184: Renegotiates the lane grant, recomputes MAXVL and grants a vector length. -/
  | svl (d : SReg) (a : SReg) (b : SReg)
  /-- R186: Stores VTYPE, clearing the registers on an NR change and setting VL to 0. -/
  | svt (a : SReg)
  /-- R185: Sets VROW when the request is 1, 2, 4 or 8, and returns VROW. -/
  | svr (d : SReg) (a : SReg)
  /-- R187: Sets CGRP0 and CGRP1. -/
  | scgrp (a : SReg) (b : SReg)
  /-- R187: Sets COP[5:0], the SEQ bit and, optionally, CSTRIDE. -/
  | scop (a : SReg) (b : SReg) (seq : Bool)
  /-- R193: Element-wise add under VTYPE. -/
  | vadd (m : Bool) (d : VReg) (a : VReg) (b : VOperand)
  /-- R193: Element-wise subtract. -/
  | vsub (m : Bool) (d : VReg) (a : VReg) (b : VOperand)
  /-- R193: Element-wise reverse subtract. -/
  | vrsub (m : Bool) (d : VReg) (a : VReg) (b : VOperand)
  /-- R193: Element-wise multiply. -/
  | vmul (m : Bool) (d : VReg) (a : VReg) (b : VOperand)
  /-- R193: High half of the element product. -/
  | vmulh (m : Bool) (d : VReg) (a : VReg) (b : VOperand)
  /-- R193: High half of the unsigned element product. -/
  | vmulhu (m : Bool) (d : VReg) (a : VReg) (b : VOperand)
  /-- R193: Element-wise divide. -/
  | vdiv (m : Bool) (d : VReg) (a : VReg) (b : VOperand)
  /-- R193: Element-wise remainder. -/
  | vrem (m : Bool) (d : VReg) (a : VReg) (b : VOperand)
  /-- R193: Element-wise minimum. -/
  | vmin (m : Bool) (d : VReg) (a : VReg) (b : VOperand)
  /-- R193: Element-wise maximum. -/
  | vmax (m : Bool) (d : VReg) (a : VReg) (b : VOperand)
  /-- R193: Element-wise AND. -/
  | vand (m : Bool) (d : VReg) (a : VReg) (b : VOperand)
  /-- R193: Element-wise OR. -/
  | vor (m : Bool) (d : VReg) (a : VReg) (b : VOperand)
  /-- R193: Element-wise XOR. -/
  | vxor (m : Bool) (d : VReg) (a : VReg) (b : VOperand)
  /-- R193: Element-wise shift left by b mod w. -/
  | vsll (m : Bool) (d : VReg) (a : VReg) (b : VOperand)
  /-- R193: Element-wise logical shift right. -/
  | vsrl (m : Bool) (d : VReg) (a : VReg) (b : VOperand)
  /-- R193: Element-wise arithmetic shift right. -/
  | vsra (m : Bool) (d : VReg) (a : VReg) (b : VOperand)
  /-- R194: Saturating element add, setting SAT when it clamps. -/
  | vsadd (m : Bool) (d : VReg) (a : VReg) (b : VOperand)
  /-- R194: Saturating element subtract. -/
  | vssub (m : Bool) (d : VReg) (a : VReg) (b : VOperand)
  /-- R195: Adds with the carry-in taken from v0. -/
  | vadc (d : VReg) (a : VReg) (b : VOperand)
  /-- R195: Subtracts with the borrow-in taken from v0. -/
  | vsbc (d : VReg) (a : VReg) (b : VOperand)
  /-- R195: Writes the carry-out as mask bits. -/
  | vmadc (d : VReg) (a : VReg) (b : VOperand)
  /-- R195: Writes the borrow-out as mask bits. -/
  | vmsbc (d : VReg) (a : VReg) (b : VOperand)
  /-- R193: Element absolute value. -/
  | vabs (m : Bool) (d : VReg) (a : VReg)
  /-- R193: Element negation. -/
  | vneg (m : Bool) (d : VReg) (a : VReg)
  /-- R199: Selects b or a per element by the v0 bit. -/
  | vmerge (d : VReg) (a : VReg) (b : VOperand)
  /-- R199: Copies a bit pattern into the elements. -/
  | vmv (m : Bool) (d : VReg) (b : VOperand)
  /-- R193: Fused a × b + d. -/
  | vfma (m : Bool) (d : VReg) (a : VReg) (b : VOperand)
  /-- R193: Fused a × b − d. -/
  | vfms (m : Bool) (d : VReg) (a : VReg) (b : VOperand)
  /-- R193: Fused −(a × b) − d. -/
  | vfnma (m : Bool) (d : VReg) (a : VReg) (b : VOperand)
  /-- R193: Fused −(a × b) + d. -/
  | vfnms (m : Bool) (d : VReg) (a : VReg) (b : VOperand)
  /-- R196: Element square root. -/
  | vsqrt (m : Bool) (d : VReg) (a : VReg)
  /-- R196: a with the sign of b. -/
  | vsgnj (m : Bool) (d : VReg) (a : VReg) (b : VOperand)
  /-- R196: a with the inverted sign of b. -/
  | vsgnjn (m : Bool) (d : VReg) (a : VReg) (b : VOperand)
  /-- R196: a with the sign a xor b. -/
  | vsgnjx (m : Bool) (d : VReg) (a : VReg) (b : VOperand)
  /-- R196: Writes the class code and sign of each element. -/
  | vclass (m : Bool) (d : VReg) (a : VReg)
  /-- R198: Widening add into a tile of double height. -/
  | vwadd (m : Bool) (d : VReg) (a : VReg) (b : VOperand)
  /-- R198: Widening multiply. -/
  | vwmul (m : Bool) (d : VReg) (a : VReg) (b : VOperand)
  /-- R200: Writes mask bits for a = b on row 0. -/
  | veq (m : Bool) (d : VReg) (a : VReg) (b : VOperand)
  /-- R200: Mask bits for a ≠ b. -/
  | vne (m : Bool) (d : VReg) (a : VReg) (b : VOperand)
  /-- R200: Mask bits for a < b. -/
  | vlt (m : Bool) (d : VReg) (a : VReg) (b : VOperand)
  /-- R200: Mask bits for a ≤ b. -/
  | vle (m : Bool) (d : VReg) (a : VReg) (b : VOperand)
  /-- R200: Mask bits for a > b. -/
  | vgt (m : Bool) (d : VReg) (a : VReg) (b : VOperand)
  /-- R200: Mask bits for a ≥ b. -/
  | vge (m : Bool) (d : VReg) (a : VReg) (b : VOperand)
  /-- R200: Mask bits for an unordered pair. -/
  | vunord (m : Bool) (d : VReg) (a : VReg) (b : VOperand)
  /-- R205: Mask AND. -/
  | mand (d : VReg) (a : VReg) (b : VReg)
  /-- R205: Mask OR. -/
  | mor (d : VReg) (a : VReg) (b : VReg)
  /-- R205: Mask XOR. -/
  | mxor (d : VReg) (a : VReg) (b : VReg)
  /-- R205: Mask a AND NOT b. -/
  | mandn (d : VReg) (a : VReg) (b : VReg)
  /-- R205: Mask a OR NOT b. -/
  | morn (d : VReg) (a : VReg) (b : VReg)
  /-- R205: Mask NOT. -/
  | mnot (m : Bool) (d : VReg) (a : VReg)
  /-- R205: Mask move. -/
  | mmv (m : Bool) (d : VReg) (a : VReg)
  /-- R206: Counts the set active mask bits into a scalar register. -/
  | mpop (m : Bool) (d : SReg) (a : VReg)
  /-- R206: Finds the first set active bit, or returns −1. -/
  | mffs (m : Bool) (d : SReg) (a : VReg)
  /-- R206: Finds the last set active bit, or returns −1. -/
  | mfls (m : Bool) (d : SReg) (a : VReg)
  /-- R207: Sets the bits before the first set bit. -/
  | msbf (m : Bool) (d : VReg) (a : VReg)
  /-- R207: Sets the bits up to and including the first set bit. -/
  | msif (m : Bool) (d : VReg) (a : VReg)
  /-- R208: Shifts mask bits up by k positions. -/
  | mslu (m : Bool) (d : VReg) (a : VReg) (b : VOperand)
  /-- R208: Shifts mask bits down by k positions. -/
  | msld (m : Bool) (d : VReg) (a : VReg) (b : VOperand)
  /-- R209: Writes the prefix count of set mask bits. -/
  | iota (m : Bool) (d : VReg) (a : VReg)
  /-- R209: Writes each element's index. -/
  | vid (m : Bool) (d : VReg)
  /-- R211: Slides elements up by k. -/
  | vslup (m : Bool) (d : VReg) (a : VReg) (b : VOperand)
  /-- R211: Slides elements down by k. -/
  | vsldn (m : Bool) (d : VReg) (a : VReg) (b : VOperand)
  /-- R211: Slides up by one and inserts a scalar at element 0. -/
  | vslup1 (m : Bool) (d : VReg) (a : VReg) (b : SReg)
  /-- R211: Slides down by one and inserts a scalar at element VL − 1. -/
  | vsldn1 (m : Bool) (d : VReg) (a : VReg) (b : SReg)
  /-- R211: Gathers elements by an index vector. -/
  | vrgath (m : Bool) (d : VReg) (a : VReg) (b : VReg)
  /-- R212: Packs the elements selected by v0. -/
  | vcompr (d : VReg) (a : VReg)
  /-- R212: Scatters packed elements to the positions selected by v0. -/
  | vexpand (d : VReg) (a : VReg)
  /-- R211: Broadcasts element k of each row. -/
  | vbcast (m : Bool) (d : VReg) (a : VReg) (b : VOperand)
  /-- R213: Moves element 0 to a scalar register. -/
  | vmvxs (d : SReg) (a : VReg)
  /-- R213: Moves a scalar register into element 0. -/
  | vmvsx (d : VReg) (b : SReg)
  /-- R213: Extracts element k of the tile to a scalar register. -/
  | vext (d : SReg) (a : VReg) (b : VOperand)
  /-- R213: Inserts a scalar value at element k. -/
  | vins (d : VReg) (a : SReg) (b : VOperand)
  /-- R211: Copies row 0 into every row of the tile. -/
  | vrowmv (d : VReg) (a : VReg)
  /-- R215: Tree sum reduction of row 0. -/
  | vrsum (m : Bool) (d : VReg) (a : VReg) (b : VOperand)
  /-- R215: Ordered sequential sum reduction. -/
  | vrosum (m : Bool) (d : VReg) (a : VReg) (b : VOperand)
  /-- R215: Maximum reduction. -/
  | vrmax (m : Bool) (d : VReg) (a : VReg) (b : VOperand)
  /-- R215: Minimum reduction. -/
  | vrmin (m : Bool) (d : VReg) (a : VReg) (b : VOperand)
  /-- R215: AND reduction. -/
  | vrand (m : Bool) (d : VReg) (a : VReg) (b : VOperand)
  /-- R215: OR reduction. -/
  | vror (m : Bool) (d : VReg) (a : VReg) (b : VOperand)
  /-- R215: XOR reduction. -/
  | vrxor (m : Bool) (d : VReg) (a : VReg) (b : VOperand)
  /-- R219: Converts elements from the named source type to ET under RM. -/
  | vcvt (m : Bool) (d : VReg) (a : VReg) (t : TypeCode)
  /-- R219: Converts elements with rounding toward zero. -/
  | vcvtr (m : Bool) (d : VReg) (a : VReg) (t : TypeCode)
  /-- R221: Quantises row 0 into a narrow type and writes the block scales into v1. -/
  | vqmx (m : Bool) (d : VReg) (a : VReg) (t : TypeCode)
  /-- R222: Converts residues to ordinary values, with optional scaling. -/
  | vrnsx (m : Bool) (d : VReg) (a : VReg) (t : TypeCode)
  /-- R223: Converts integers to residues. -/
  | vrnsi (m : Bool) (d : VReg) (a : VReg) (t : TypeCode)
  /-- R228: Fault-only-first unit-stride vector load. -/
  | vld (m : Bool) (v : VReg) (a : SReg) (sp : Space) (sc : Scope) (o : Order)
  /-- R230: Whole-register load. -/
  | vldr (v : VReg) (a : SReg) (sp : Space) (sc : Scope) (o : Order)
  /-- R228: Strided vector load. -/
  | vlds (m : Bool) (v : VReg) (a : SReg) (b : SReg) (sp : Space) (sc : Scope) (o : Order)
  /-- R228: Indexed vector load (gather). -/
  | vldx (m : Bool) (v : VReg) (a : SReg) (b : VReg) (sp : Space) (sc : Scope) (o : Order)
  /-- R233: Collective-mode load: a copy from member 0, or a reduction over the members. -/
  | vldc (m : Bool) (v : VReg) (a : SReg) (b : SReg) (sc : Scope) (o : Order)
  /-- R229: Unit-stride vector store. -/
  | vst (m : Bool) (v : VReg) (a : SReg) (sp : Space) (sc : Scope) (o : Order)
  /-- R230: Whole-register store. -/
  | vstr (v : VReg) (a : SReg) (sp : Space) (sc : Scope) (o : Order)
  /-- R229: Strided vector store. -/
  | vsts (m : Bool) (v : VReg) (a : SReg) (b : SReg) (sp : Space) (sc : Scope) (o : Order)
  /-- R229: Indexed vector store (scatter). -/
  | vstx (m : Bool) (v : VReg) (a : SReg) (b : VReg) (sp : Space) (sc : Scope) (o : Order)
  /-- R135: Collective-mode store: a multicast, or a contribution to a collective round. -/
  | vstc (m : Bool) (v : VReg) (a : SReg) (b : SReg) (sc : Scope) (o : Order)
  /-- R235: Combining scatter: combines at the hart, then updates each address once at its home. -/
  | vsca (m : Bool) (v : VReg) (a : SReg) (b : VReg) (sp : Space) (sc : Scope) (o : Order)
  /-- R236: Per-element atomic that returns the old values. -/
  | vamo (m : Bool) (v : VReg) (a : SReg) (b : VReg) (sp : Space) (sc : Scope) (o : Order)
  /-- R238: Remote-reduce store into accumulators of type AT. -/
  | vrrs (m : Bool) (v : VReg) (a : SReg) (sc : Scope) (o : Order)
  /-- R239: Contributes a tile to a quorum cask. -/
  | vrrsq (m : Bool) (v : VReg) (a : SReg) (sc : Scope) (o : Order)
  /-- R241: Looks up the scratchpad tag table. -/
  | sptl (d : SReg) (a : SReg)
  /-- R241: Inserts a tag-table entry and returns the old one. -/
  | spti (d : SReg) (a : SReg) (b : SReg)
  /-- R241: Evicts a tag-table entry and returns it. -/
  | spte (d : SReg) (a : SReg)
  /-- R241: Sets the D bit of a valid entry. -/
  | sptc (a : SReg) (b : SReg)
  /-- R241: Reads a tag-table entry. -/
  | sptr (d : SReg) (a : SReg)
  /-- R242: Sets the memory-tag locks of up to 256 granules. -/
  | stag (a : SReg) (b : SReg)
  /-- R243: Returns a pointer carrying the granule's lock as its key. -/
  | ltag (d : SReg) (a : SReg)
  /-- R251: Loads a tile image into a tile register. -/
  | tld (a : SReg) (t : BitVec 2)
  /-- R252: Tile load served through the cluster switch as a multicast group. -/
  | tldg (a : SReg) (b : SReg) (t : BitVec 2)
  /-- R251: Stores a tile image. -/
  | tst (a : SReg) (t : BitVec 2)
  /-- R253: Clears a tile register. -/
  | tclr (t : BitVec 2)
  /-- R253: Copies one tile register into another. -/
  | tmv (src : BitVec 2) (t : BitVec 2)
  /-- R254: Multiplies each row by a tile and accumulates 64 results. -/
  | vmxa (m : Bool) (d : VReg) (a : VReg) (t : BitVec 2)
  /-- R255: Sparse row-times-tile product through a tile-row index. -/
  | vmxs (m : Bool) (d : VReg) (a : VReg) (i : VReg) (t : BitVec 2)
  /-- R257: Adds rank-one outer products into a tile. -/
  | tout (m : Bool) (a : VReg) (i : VReg) (t : BitVec 2)
  /-- R261: Issues a bulk copy on a channel. -/
  | cpy (ch : BitVec 3) (a : SReg) (b : SReg) (qa : Bool) (qr : Bool) (sc : Scope)
  /-- R260: Issues a copy from a strided source. -/
  | cpys (ch : BitVec 3) (a : SReg) (b : SReg) (qa : Bool) (qr : Bool) (sc : Scope)
  /-- R261: Issues a fill of an element pattern. -/
  | fill (ch : BitVec 3) (a : SReg) (b : SReg) (qa : Bool) (qr : Bool) (sc : Scope)
  /-- R263: Posts the expected byte count of a channel. -/
  | cexp (ch : BitVec 3) (a : SReg)
  /-- R263: Reads a channel's watermark. -/
  | cwm (ch : BitVec 3) (b : SReg)
  /-- R264: Waits, with a deadline, for a channel to complete. -/
  | cwait (ch : BitVec 3) (a : SReg) (b : SReg)
  /-- R263: Waits for BUSY = 0, then clears the channel state. -/
  | cfree (ch : BitVec 3)
  /-- R273: Barrier arrival, then a wait for the closure of that round. -/
  | bar (d : SReg) (a : SReg) (b : SReg) (c : VReg)
  /-- R272: Barrier arrival answered at once. -/
  | barr (d : SReg) (a : SReg) (b : SReg)
  /-- R273: Waits for the closure of round T. -/
  | barw (d : SReg) (a : SReg) (b : SReg) (c : VReg)
  /-- R275: Acquires a lock cask, or waits in the waiters' round. -/
  | acq (d : SReg) (a : SReg) (b : SReg) (c : VReg)
  /-- R278: Releases or hands over a lock, presenting the generation. -/
  | rel (d : SReg) (a : SReg)
  /-- R277: Takes an abandoned lock after an EXPIRED acquire. -/
  | mend (d : SReg) (a : SReg) (b : SReg)
  /-- R279: Stores a doubleword only if the lock or strip generation matches. -/
  | stg (d : SReg) (a : SReg) (b : SReg) (c : SReg)
  /-- R280: Fills a membership entry for a barrier or lock cask. -/
  | gjoin (d : SReg) (a : SReg) (b : SReg)
  /-- R280: Clears a membership entry. -/
  | gleave (d : SReg) (a : SReg)
  /-- R283: Quorum arrival, then a wait for the closure. -/
  | qarr (d : SReg) (a : SReg) (b : SReg) (c : VReg)
  /-- R283: Waits for the closure of quorum round T. -/
  | qwait (d : SReg) (a : SReg) (b : SReg) (c : VReg)
  /-- R282: Joins a quorum or collective cask and zeroes the lag counter. -/
  | qjoin (d : SReg) (a : SReg) (b : SReg)
  /-- R282: Leaves, setting the lag counter to 3. -/
  | qleave (d : SReg) (a : SReg)
  /-- R284: Reads the last closure record of a cask. -/
  | qread (d : SReg) (a : SReg) (c : SReg)
  /-- R285: Enqueues a 64-byte entry and wakes the queue's QNUM, or returns FULL. -/
  | enq (d : SReg) (a : SReg)
  /-- R285: Dequeues an entry, waiting for a wake or the deadline. -/
  | recv (d : SReg) (a : SReg) (b : SReg)
  /-- R285: Dequeues an entry if one is present. -/
  | qpoll (d : SReg) (a : SReg)
  /-- R286: Stores to the wake register of the cask's QNUM. -/
  | wake (a : SReg)
  /-- R288: Opens a farm and makes earlier claims stale. -/
  | farm (d : SReg) (a : SReg)
  /-- R289: Claims a free strip, or waits for one. -/
  | strip (d : SReg) (a : SReg) (b : SReg)
  /-- R289: Marks a claimed strip done when the generation is current. -/
  | sdone (d : SReg) (a : SReg) (b : SReg) (c : SReg)
  /-- R289: Waits for every strip to be done. -/
  | farmw (d : SReg) (a : SReg) (b : SReg) (c : VReg)
  /-- R290: Reads and clears the lane-cycle record and sets counting on or off. -/
  | lcrs (d : SReg) (a : SReg)
  /-- R290: Appends a mark record to the trace. -/
  | mark (a : SReg)
  /-- R181: A write to VL stores 0 when the grant is empty or MAXVL is stale, otherwise min(LEN, MAXVL). -/
  | vlWrite (v : Word)
  /-- R181: A write to VROW stores only 1, 2, 4 or 8. -/
  | vrowWrite (v : Word)
  /-- R181: A write to VTYPE acts as svt. -/
  | vtypeWrite (v : Word)
  /-- R181: A write to VSTART waits for earlier vector convoys and stores bits [31:0]. -/
  | vstartWrite (v : Word)
  /-- R38: A write to FRM leaves RM unchanged for the values 6 and 7. -/
  | frmWrite (v : Word)
  /-- R41: A write to SRSEED stores 1 in place of 0. -/
  | srseedWrite (v : Word)
  /-- R112: A write to MAXWAIT clamps to 60 s at S and raises PRIVILEGED_CTLREG at U. -/
  | maxwaitWrite (v : Word)
  /-- R323: A write of Initial to VS, TS or LS clears the corresponding state. -/
  | statusWrite (v : Word)
  /-- R324: A write to TVEC leaves MODE unchanged for the values 2 and 3. -/
  | tvecWrite (v : Word)
  /-- R325: Checks the ASID range, waits for translations in flight and invalidates the L1. -/
  | asidWrite (v : Word)
  /-- R325: Waits for translations in flight, switches the page table and invalidates the L1. -/
  | ptbWrite (v : Word)
  /-- R329: Re-arms the time-slice cause and clears a pending TIME_SLICE. -/
  | sliceWrite (v : Word)
  /-- R329: Write 1 to PEND withdraws the request; writes set UEN. -/
  | preemptWrite (v : Word)
  /-- R329: A write to STAGGER stores SKEW, clamped at 50,000. -/
  | staggerWrite (v : Word)
  /-- R416: A write to RISKTHR re-arms RISK_RAISED. -/
  | riskthrWrite (v : Word)
  /-- R423: A write to TAGHIST resets the ring write index to 0. -/
  | taghistWrite (v : Word)
  /-- R175: A write to LCNT, LBEG or LEND takes effect before the next convoy, with PL forced to 0 at U. -/
  | loopRegisterWrite (r : LoopReg) (v : Word)
  /-- R379: A store to a queue descriptor; V going to 1 loads the credit from WEIGHT, and a WEIGHT of 0 stores 1. -/
  | queueDescriptorWrite (q : QueueNum) (dw : BitVec 3) (v : Word)
  /-- R380: A store to a wake register is accepted or dropped; an accepted wake sets PEND, rechecks waiting recv and may post QUEUE_WAKE. -/
  | wakeRegister (q : QueueNum) (off : BitVec 6) (src : WakeSource)
  /-- R381: A LAUNCH command, read at a queue head, is placed on idle harts or fails with DAMAGED. -/
  | launch (q : QueueNum)
  /-- R383: A command processor scans its queues at least every 1 µs and serves heads by level, credit and round-robin order. -/
  | commandScan (k : BitVec 3) (stage : Bool)
  /-- R387: A launched hart ends on fetching address 0: it drains, ORs its flags, clears its membership table and frees its groups. -/
  | hartEnd
  /-- R387: Once every hart has ended and every copy has retired, the completion word is written. -/
  | launchCompletion (id : Nat)
  /-- R391: The communication reserve grows by one core after a CLASS 1 head has waited 10 µs. -/
  | commresGrow
  /-- R391: The reserve shrinks by one after a reserved core has been idle for 100 µs. -/
  | commresShrink
  /-- R388: Every 1 µs, operations are charged to their queue's SPENT. -/
  | energyCharge (q : QueueNum) (a : Activity)
  /-- R388: At each period boundary SPENT is reduced, EXH is cleared and TIMER may be posted. -/
  | accountingPeriodBoundary (timer : Bool)
  /-- R344: A pending enabled asynchronous cause is taken at a convoy boundary, or splits a stalled convoy. -/
  | asyncCauseTaken (pos : Nat) (outstanding : Nat)
  /-- R338: A pre-emption request arrives at the target hart and sets PEND, and URGP when urgent. -/
  | preemptRequest (requester : BitVec 11) (urgent : Bool)
  /-- R329: NOW reaches SLICE.TIME and TIME_SLICE becomes pending. -/
  | timeSlice
  /-- R337: A grant change reaches a hart once its vector convoys have drained. -/
  | lgsetApply
  /-- R70: The move of the page completes and the parked instruction resumes at VSTART. -/
  | parkResume
  /-- R76: The watermark passes a stalled access, which proceeds. -/
  | watermarkStallResume
  /-- R78: The copy that a stalled access overlaps retires, and the access proceeds. -/
  | scoreboardStallResume
  /-- R79: A landed bit is set again and the reader stalled on it proceeds. -/
  | landedBitStallResume
  /-- R74: An implicit stall reaches its deadline and raises WAIT_EXPIRED_IMPLICIT. -/
  | waitExpiredImplicit
  /-- R86: A store leaves the store buffer for its home, posted or acknowledged. -/
  | storeBufferDrain (i : Nat)
  /-- R99: A store packet is applied at its home in sequence order per source and line. -/
  | storeApply (i : Nat)
  /-- R102: A flushing read at a die is answered after the home has applied the earlier posted stores. -/
  | flushingRead (src : Nat) (die : Die)
  /-- R101: A flush answer arrives and removes its pair from the recorded set. -/
  | flushAnswer (ep : Endpoint) (die : Die)
  /-- R101: A flush is not answered by NOW + DEFDL; the cause is raised or latched. -/
  | flushTimeout (ep : Endpoint) (die : Die)
  /-- R104: An element of a train, or its tail, is applied at the destination, which acknowledges the train when the counts match. -/
  | trainElement (train : Nat) (part : TrainPart)
  /-- R104: A train acknowledgement arrives at the issuing hart. -/
  | trainAck (ep : Endpoint) (die : Die)
  /-- R401: A remote response writes its positions through the reassembly table and sets landed bits. -/
  | responseArrival (entry : Nat) (mask : BitVec 64) (excess : Nat)
  /-- R335: A response to a parked request of a hart is written into its data slot and ARR is set. -/
  | redirectedResponse (hart : Nat) (entry : Nat)
  /-- R269: A cask operation's answer arrives and completes the waiting instruction. -/
  | caskAnswerArrival (status : Word) (carried : Carried)
  /-- R267: A closure record reaches a hart and completes its wait, or is kept in the slot or the parked entry. -/
  | closureRecordArrival (cask : Loc) (status : Word) (tag : Nat) (absent : Nat)
  /-- R123: The home closes a round at DEADLINE − G, writes the record and sends it to the present members. -/
  | roundClosure (cask : Loc)
  /-- R431: A member of a wide-scope barrier completes after its stagger delay. -/
  | staggeredCompletion
  /-- R435: At D − G the home ends a waiting recv, strip or farmw with the deadline's outcome. -/
  | homeWaitDeadline (cask : Loc)
  /-- R435: With no answer by D, the hart ends the wait itself with DETAIL 0xFE, or cwait returns EXPIRED. -/
  | waitDeadlineAtHart
  /-- R132: A strip claim expires; the strip is freed, its GEN steps and a waiting strip is served. -/
  | stripClaimExpiry (cask : Loc) (strip : Nat)
  /-- R261: The copy engine performs an accepted copy: it acquires, moves the bytes and releases. -/
  | copyPerform (i : Nat)
  /-- R76: Copy bytes land, adding to CNT, advancing WM and setting OVF on overfill. -/
  | copyDataLands (i : Nat) (off : Nat) (n : Nat)
  /-- R261: A copy retires: BUSY decrements and its scoreboard entries are released. -/
  | copyRetire (i : Nat)
  /-- R405: A NACK starts back-off and the resending of the replay window. -/
  | nackReceived (ep : Endpoint) (seq : Nat)
  /-- R405: The back-off ends and the unacknowledged packets are resent, or the window is exhausted. -/
  | replayBackoffExpiry (ep : Endpoint)
  /-- R405: An acknowledgement frees window entries and resets the NACK count. -/
  | ackReceived (ep : Endpoint) (seq : Nat)
  /-- R406: The fabric manager reports an endpoint unreachable; windows are abandoned and waiters fail. -/
  | endpointDownReport (ep : Endpoint)
  /-- R396: A flit at a router is ranked and assigned a port or ejected in the same cycle. -/
  | flitArrival (stop : Nat)
  /-- R398: A flit reaching age 1,023 is removed and returned, and its instruction faults. -/
  | ageBoundExceeded (flit : Nat)
  /-- R400: After 1,024 waiting cycles the neighbouring stops withhold their injections. -/
  | injectionPriority (stop : Nat)
  /-- R400: After 65,536 cycles without injection the instruction faults. -/
  | injectionStarved (flit : Nat)
  /-- R399: Each 1 µs window updates INJTHR.WIN. -/
  | injthrWindow (cycles : Nat)
  /-- R410: A fabric frame is decrypted and authenticated; a mismatch NACKs it and the flits after it are discarded. -/
  | frameReceive (port : Nat) (f : Frame)
  /-- R410: The sender resends from the NACKed flit; a fourth failure takes the port down with FABRIC_AUTH_FAIL. -/
  | linkNack (port : Nat)
  /-- R409: The invocation counter reaches KEYLIM − KEYMARGIN and firmware installs the next key and sends a marker. -/
  | keySwitchover (port : Nat)
  /-- R410: The counter reaches KEYLIM with no key installed; the port stops sending. -/
  | linkKeyExhausted (port : Nat)
  /-- R368: A MIGRATE command sets MIG, invalidates the page's translations and copies the page. -/
  | migrate (c : EngineCommand)
  /-- R368: The page copy completes; the leaf is swapped, parked accesses resume and MIGRATION_DONE is posted. -/
  | migrationDone (i : Nat)
  /-- R372: A LEND command offers a region to a borrower. -/
  | lend (c : EngineCommand)
  /-- R372: An ACCEPT command matches an offer and makes the lease active if R373 holds. -/
  | accept (c : EngineCommand)
  /-- R374: A RECLAIM command starts racking and posts LEASE_RECLAIM_NOTICE. -/
  | reclaim (c : EngineCommand)
  /-- R372: A RETURN command ends an active lease, or returns STALE while racking. -/
  | returnLease (c : EngineCommand)
  /-- R372: The offer deadline passes and LEND returns EXPIRED. -/
  | leaseOfferExpiry (lease : Nat)
  /-- R374: One 64 KiB granule is moved to the fallback; the last one ends the lease with TIER_DEMOTION. -/
  | rackGranuleMove (lease : Nat)
  /-- R415: Every 100 µs the hub scores its inputs and sets RISK. -/
  | riskUpdate (ecc : Nat) (replays : Nat) (margin : Int) (droop : Nat)
  /-- R420: Failures detected in one 10 µs window step the vintage and start fills, or halt the group. -/
  | failureDetectionWindow (failed : List Endpoint)
  /-- R420: Every spare has been filled; the group becomes steady and SPARE_READY is posted. -/
  | spareFilled
  /-- R422: LCR_CYC would pass 2^48 − 1; counting stops and the cause is taken. -/
  | lcrOverflow
  /-- R425: The sampling period expires and a sample record is written. -/
  | traceSample
  /-- R426: A host halt request halts the hart once its issued convoys have drained. -/
  | debugHalt
  /-- R427: Power-good starts bring-up: verification, identity, memory and link training, then READY. -/
  | powerGood (b : BringUp)
  /-- R429: A nonce sent through the mailbox returns a signed attestation report. -/
  | attestationRequest (nonce : BitVec 256)
  /-- R114: The module loses lock to the domain time base; NOW runs on the local oscillator and new waits fail. -/
  | timeBaseLost
  /-- R430: The measured input slew exceeds 1.25 × RATE over 1 µs and SLEW_LIMIT is posted. -/
  | slewLimit (measured : Nat)
  /-- R433: The junction temperature crosses a threshold and issue is limited, THERMAL posted, or the hart stopped. -/
  | thermal (tenths : Nat)
  /-- R433: The temperature has stayed 2 °C below the threshold for 1 ms and the limit is lifted. -/
  | thermalLimitLift
  /-- R432: After 256 cycles without a result row the matrix engine is idle and ramps on its next issue. -/
  | matrixIdle
  /-- R339: The partition manager resets a partition; every hart takes PARTITION_RESET and staged launches are discarded. -/
  | partitionReset
  /-- R342: A host request is posted to a hart. -/
  | hostRequest (function : Word)
  /-- R342: A firmware call is posted to a hart. -/
  | firmwareCall (number : Word)
  /-- R342: A machine check is posted with its syndrome. -/
  | machineCheck (syndrome : Word)
  /-- R117: A cask request (arrival, wait, acquire, release, join, contribution, claim, enqueue or dequeue) reaches the cask's home, which performs it indivisibly in the cask's order and answers. -/
  | caskRequest (r : CaskRequest)
  /-- R82: A remote load, gather, tile-unit or tldg read request reaches the byte's home, which reads at the home and returns a response, or answers REMOTE_ACCESS or REMOTE_PAGE_FAULT. -/
  | readRequest (pa : Nat) (n : Nat)
  /-- R96: A scalar atomic request reaches its home and is performed there as one indivisible read-modify-write in the byte's store order, and the response is returned. -/
  | atomicRequest (r : AtomicRequest)
  /-- R114: The module regains lock to the domain time base, after which new waits no longer raise TIME_BASE_LOST. -/
  | timeBaseLock
deriving DecidableEq, Repr

end Sys2Proof
end

