-- ==== Sys2Proof/Machine/State.lean ====
section
/-! DEFINITION. Everything the spec gives the machine, as plain data, and the machine right after reset. -/

namespace Sys2Proof.Machine

/-- A table with a default: keys strictly rise, and no key holds the default. -/
abbrev Tbl (β : Type) := List (Nat × β)

/-- Global memory, scratchpad and lane-private SRAM: bytes by address (R55). -/
abbrev Memory := List Host.Cell

/-- Privilege of a hart (R320). -/
inductive Priv where
  | user | super
deriving DecidableEq, Repr

/-- Whether a hart runs (R385, R387, R426). -/
inductive Run where
  | idle | running | halted
deriving DecidableEq, Repr

/-- A lazy-state code of `STATUS` (R323). -/
inductive Lazy where
  | off | initial | clean | dirty
deriving DecidableEq, Repr

/-- `STATUS` (R323). Its reserved bits read as zero, so the fields are all of it. -/
structure Status where
  tage : Bool := false
  parked : Bool := false
  cvr : Bool := false
  ls : Lazy := .off
  ts : Lazy := .off
  vs : Lazy := .off
  pp : Bool := false
  pie : Bool := false
  ie : Bool := false
deriving DecidableEq, Repr

/-- A cause with its values (R342). -/
structure Trap where
  code : Nat
  tval : Word := 0
  tval2 : Word := 0
deriving DecidableEq, Repr

/-- A tile register (R247): DATA and SCL as numbers, byte 0 lowest. -/
structure Tile where
  data : Nat
  scl : Nat
  tet : Nat
  tsb : Nat
deriving DecidableEq, Repr

/-- A tile register at its reset value (R247): SCL holds 0x7F in every byte. -/
def Tile.reset : Tile := ⟨0, (2 ^ (8 * 2048) - 1) / 255 * 127, 31, 0⟩

/-- A line of an L1: the physical address of its first byte, and its bytes (R86). -/
structure Line where
  base : Nat
  data : List Byte
deriving DecidableEq, Repr

/-- A scalar load that has been issued and whose value is not fixed yet (R84, R87): where it reads, how many bytes, whether
it extends the sign, its destination, and its address, should it fail (R403). -/
structure LateLoad where
  reg : SReg
  pa : Nat
  bytes : Nat
  signed : Bool
  head : Word := 0
deriving DecidableEq, Repr

/-- A store in a store buffer (R86). -/
structure Buffered where
  pa : Nat
  data : List Byte
deriving DecidableEq, Repr

/-- The flush-failure latch (R100). -/
structure Latch where
  code : Nat
  ep : Endpoint
  die : Die
  deadline : Nat := 0
deriving DecidableEq, Repr

/-- The record of a closed round, as a member receives it (R123, R327). -/
structure Record where
  status : Word
  tag : Nat
  absent : Nat
deriving DecidableEq, Repr

/-- A membership entry (R121, R267, R277, R327); `place` is its number in the table. -/
structure Member where
  place : Nat := 0
  cask : Loc
  index : Nat
  tag : Nat
  gen : Nat := 0
  arrived : Bool := false
  scope : Nat
  n : Nat
  slot : Option Record := none
  mend : Option Nat := none
deriving DecidableEq, Repr

/-- Where one position of a request is read: its home, and for a 4-bit element the half of the byte (R33). -/
structure Source where
  pos : Nat
  loc : Loc
  high : Option Bool := none
deriving DecidableEq, Repr

/-- A reassembly entry (R401, R327): its number in the table, destination register, log2 width code, first position,
position mask, SEQ, and what its request reads; `left` when a convoy that was split has left it outstanding (R347), so that no
convoy still to drain awaits it. Should it fail (R403), `head`, `lcnt`, `start` and `committed` are those of its convoy, as for a
train, and `tile` is the first register of a load that stands alone in its convoy and trims (R68). -/
structure Reassembly where
  place : Nat
  reg : Nat
  width : Nat
  first : Nat
  mask : BitVec 64
  seq : Nat
  ep : Endpoint
  die : Die
  src : List Source := []
  left : Bool := false
  head : Word := 0
  lcnt : Word := 0
  start : Nat := 0
  committed : Bool := false
  tile : Option Nat := none
deriving DecidableEq, Repr

/-- A redirect entry (R335): a sequence number, the context area and descriptor its response goes to, and the request whose
response it is. -/
structure Redirect where
  seq : Nat
  area : Nat
  slot : Nat
  request : Reassembly
deriving DecidableEq, Repr

/-- Where a parked membership entry lies (R335, R267). -/
structure ParkedEntry where
  cask : Loc
  area : Nat
  slot : Nat
deriving DecidableEq, Repr

/-- What a convoy has to have back should a train of it fail after it has run (R105, R345): its head and the `VSTART` at which this run
of it began, the registers then, with the results of R346 that have been committed, the trim so far, and for each member that acts
last (R436) its address with the registers as they stood at its place. -/
structure Undo where
  head : Word
  vstart : Nat
  vl : Nat
  v : Vector Nat 32
  flying : Vector Nat 32
  x : Vector Word 32
  tile : Vector Tile 4
  srseed : BitVec 32
  trim : Option Nat := none
  late : List (Word × Vector Nat 32 × Vector Word 32) := []
deriving DecidableEq, Repr

/-- An implicit stall in progress (R73, R74); `vec` says that a vector convoy is held in it (R344), and `start` the `VSTART`
at which that convoy started, and `committed` that its members of R346 have acted. Kind 0 stands for a flush, which has no kind of its own (R101), kind 12 for
a response or for room (R98; log 100), and kind 13 for a stall that has ended, at whose instruction the hart goes on. `split` is
where a convoy has stopped that waits for the acknowledgement of what it has sent, with its cause (R345, R347); `sent` says that the
stores of a convoy of several members have been sent, so that it has run as far as it goes and awaits their acknowledgement (R105,
R345, R436), and `redo` that one of them has failed, so that its other members have to be brought back to `split`. -/
structure Stall where
  kind : Nat
  object : Nat
  deadline : Nat
  vec : Bool := false
  start : Nat := 0
  committed : Bool := false
  split : Option (Nat × Trap) := none
  sent : Bool := false
  redo : Bool := false
deriving DecidableEq, Repr

/-- What a home gives back to a wait (R115, R116): status, absentee set (none: the set is left unchanged), full round
tag, and the strip index or queue entry that comes with it. -/
structure Answer where
  status : Word
  absent : Option Nat
  n : Nat
  tag : Nat
  scope : Nat
  strip : Word := 0
  data : List Byte := []
deriving DecidableEq, Repr

/-- An explicit wait in progress (R113, R268): the cask, or the channel of a `cwait`; the deadline after R113; the
round it is for; where an entry of a queue goes, with the address that a fault reports (R285); the answer, once it has
come; whether the closure is being staggered, and to when (R431); and whether it is a `barr` that awaits its home, which takes
no closure record (R272). -/
structure Wait where
  cask : Option Loc
  deadline : Nat
  round : Nat := 0
  buffer : Option (Loc × Word) := none
  answer : Option Answer := none
  delay : Option Nat := none
  barr : Bool := false
deriving DecidableEq, Repr

/-- A multi-word convoy under way (R345): its head, the `VSTART` at which it started, the position that no member may
reach, the trim of a fault-only-first load, the groups that a load leaves to land should the convoy stop (R80), whether
only the issue checks run, whether its members of R346 have acted, the cause that splits a stalled convoy and how many
requests of a split load stay outstanding (R347), whether an urgent request cuts this pass, whether the stores have been sent
already, whether an earlier member writes a register that this one reads (R20), and the stop or the stall that a member found. -/
structure Convoy where
  head : Word
  start : Nat
  limit : Option Nat := none
  trim : Option Nat := none
  toLand : List (Nat × Nat) := []
  checking : Bool := false
  committed : Bool := false
  split : Option Trap := none
  outstanding : Nat := 0
  cut : Bool := false
  sent : Bool := false
  chained : Bool := false
  stop : Option (Nat × Trap) := none
  stall : Option (Nat × Stall) := none
deriving DecidableEq, Repr

/-- The lane-cycle record (R421). -/
structure Lcr where
  use : Nat := 0
  mask : Nat := 0
  tail : Nat := 0
  start : Nat := 0
  stall : Nat := 0
  cyc : Nat := 0
  on : Bool := false
deriving DecidableEq, Repr

/-- One hart (R7, R154, R180, R321). `cv`, `resumed` and `retired` are the model's own: the convoy under way, whether it
resumes a stopped one (R346), and whether the instruction that just ran completed; between steps `cv` is none and
`retired` is false. `splitAt` is where an urgent request is to split the convoy that issues next, and how many requests
stay outstanding (R347). `words` is how many words the convoy at `pc` had when it was last fetched, as the trace names it
(R425). `watched` holds, by convoy head, the watched addresses that a convoy still to complete has
accessed (R426). `overflow` holds the flushes that a 65th pair brought about and that nobody has answered, with their
deadlines (R100); `answered` the flushes that were answered while the hart waits for others (R101); `sent` how many stores went
to each pair that no flush has covered since (R74, R90), and `lost` the pairs with a store that its replay window has abandoned
(R102, R405). `slow` says that the
next scalar load leaves its value open, and `late` is a load that has (R87). `secured` names the channels at which a convoy that
is held has secured BUSY counts and scoreboard entries, with the numbers of both (R261, R436); `undo` is what a convoy has to have
back should one of its trains fail, and `took` says that the instruction that just ran took a control transfer (R175). -/
structure Hart where
  id : Nat
  run : Run := .idle
  launch : Option Nat := none
  x : Vector Word 32 := .replicate 32 0
  pc : Word := 0
  priv : Priv := .super
  vl : Nat := 0
  vrow : Nat := 1
  vtype : Word := 0
  vstart : Nat := 0
  maxvl : Nat := 0
  stale : Bool := false
  vcthr : Nat := 0
  flags : BitVec 7 := 0
  frm : BitVec 15 := 0
  srseed : BitVec 32 := 1
  lcnt : Word := 0
  lbeg : Word := 0
  lend : Word := 0
  defdl : BitVec 48 := 1000000
  maxwait : BitVec 48 := 0x2540BE400
  cgrp0 : Word := 0
  cgrp1 : Word := 0
  cop : BitVec 7 := 0
  cstride : BitVec 32 := 0
  cround : BitVec 48 := 0
  injWin : Nat := 0
  injTotal : Nat := 0
  lcr : Lcr := {}
  status : Status := {}
  tvec : Word := 0
  epc : Word := 0
  cause : Word := 0
  tval : Word := 0
  tval2 : Word := 0
  sscratch : Word := 0
  asid : BitVec 13 := 0
  ptb : Word := 0
  ctxarea : Word := 0
  slice : Word := 0
  sliceArmed : Bool := false
  urgp : Bool := false
  uen : Bool := false
  pend : Bool := false
  riskthr : BitVec 17 := 0xFFFF
  riskArmed : Bool := true
  v : Vector Nat 32 := .replicate 32 0
  flying : Vector Nat 32 := .replicate 32 0
  tile : Vector Tile 4 := .replicate 4 Tile.reset
  l1 : List Line := []
  buffer : List Buffered := []
  pairs : List (Endpoint × Die) := []
  latch : Option Latch := none
  overflow : List (Endpoint × Die × Nat) := []
  answered : List (Endpoint × Die) := []
  sent : List ((Endpoint × Die) × Nat) := []
  lost : List (Endpoint × Die) := []
  slow : Bool := false
  late : Option LateLoad := none
  secured : List (Nat × Nat × Nat) := []
  undo : Option Undo := none
  members : List Member := []
  reassembly : List Reassembly := []
  redirects : List Redirect := []
  parked : List ParkedEntry := []
  stall : Option Stall := none
  wait : Option Wait := none
  pending : List Trap := []
  icmp : List Word := []
  dcmp : List Word := []
  stepping : Bool := false
  claimed : Bool := false
  cv : Option Convoy := none
  resumed : Bool := false
  retired : Bool := false
  took : Bool := false
  watched : List (Word × Word) := []
  splitAt : Option (Nat × Nat) := none
  words : Nat := 1
deriving DecidableEq, Repr

/-- A fault that a copy met (R262). -/
structure CopyFault where
  dest : Bool
  cause : Nat
  addr : Word
deriving DecidableEq, Repr

/-- A copy channel (R75, R76, R262). `started` says that its first copy of some bytes has been accepted; `landed` holds
the byte ranges above WM that have landed. -/
structure Channel where
  started : Bool := false
  counts : Bool := false
  dbase : Nat := 0
  len : Nat := 0
  wm : Nat := 0
  cnt : Nat := 0
  exp : Nat := 0
  ep : Bool := false
  ovf : Bool := false
  busy : Nat := 0
  landed : List (Nat × Nat) := []
  flt : Option CopyFault := none
deriving DecidableEq, Repr

/-- What the harts of a core share (R13, R75, R390, R432); `idleSince` is when the last of its harts ended (R391). -/
structure Core where
  lat : Vector (Option (BitVec 2)) 8 := .replicate 8 none
  latNew : Option (Vector (Option (BitVec 2)) 8) := none
  ch : Vector Channel 8 := .replicate 8 {}
  mxIdle : Bool := true
  mxRow : Nat := 0
  idleSince : Nat := 0
deriving DecidableEq, Repr

/-- What a copy moves (R260). -/
inductive CopyKind where
  | plain | strided (stride : Int) | fill (pattern : Word)
deriving DecidableEq, Repr

/-- A copy that the engine has accepted (R261). `done` counts its bytes by ranges, and `eps` names the endpoints that it has
written to. -/
structure Copy where
  id : Nat
  hart : Nat
  ch : Nat
  kind : CopyKind
  src : Word
  dst : Word
  len : Nat
  width : Nat
  acq : Bool
  rel : Bool
  scope : Scope
  asid : Nat
  ptb : Word
  priv : Priv
  tage : Bool
  ctx : Word
  launch : Option Nat
  ready : Bool := false
  done : List (Nat × Nat) := []
  eps : List Endpoint := []
deriving DecidableEq, Repr

/-- A posted store on its way to its home (R98, R99). `released` is one more than the scope code of the widest release that
its hart has performed since, and 0 before (R95). -/
structure Posted where
  hart : Nat
  pa : Nat
  data : List Byte
  seq : Nat
  released : Nat := 0
deriving DecidableEq, Repr

/-- How an element of a train changes the bytes at its home (R104): it is stored, combined with what stands there under an
operator, a type and a rounding mode (R235), added by `vrrs` to an element of the type `ta`, as an element `x` of another type
times 2^k (R238), or stored at the same offset of every member of a group in the order of the root (R106). -/
inductive Update where
  | store
  | spread (members : List Nat)
  | combine (op et rm : Nat)
  | reduce (op ta et x : Nat) (k : Int)
deriving DecidableEq, Repr

/-- An element of a train that its destination has not applied yet (R104): its position, its home, its bytes (for `vrrs` as
many as it changes), for a 4-bit one its half of the byte (R33), what it does, the register and the element of it that
take the old value of a `vamo` (R236). -/
structure TrainItem where
  pos : Nat
  loc : Loc
  data : List Byte
  high : Option Bool := none
  how : Update := .store
  old : Option (Nat × Nat) := none
deriving DecidableEq, Repr

/-- An element train on its way (R104): its hart (none: a hart of another endpoint), its destination, the lowest element
index that it carries (R105), the elements still to be applied, in ascending position, how many have been, and the count of
its tail once that has arrived. `head`, `lcnt`, `start` and `committed` are those of its convoy, should the train fail: its
first word, `LCNT` before it completed, the `VSTART` at which it started, and whether its members of R346 had acted. `ctx` is
the context area of its hart when it was sent (R393), and `fl` the flags that its elements have raised so far, which it gives
back when it is acknowledged (R237); a `loose` train is one whose instruction has trapped before it was
acknowledged (R31, R105). -/
structure Train where
  hart : Option Nat
  ep : Endpoint
  die : Die
  lowest : Nat := 0
  items : List TrainItem := []
  applied : Nat := 0
  tail : Option Nat := none
  head : Word := 0
  lcnt : Word := 0
  start : Nat := 0
  committed : Bool := false
  ctx : Word := 0
  fl : Nat := 0
  loose : Bool := false
deriving DecidableEq, Repr

/-- Someone who waits at a home, in the order of the requests (R137, R286, R435). -/
inductive HomeVerb where
  | recv | strip | farmw | acq | round
deriving DecidableEq, Repr

/-- A waiting request at a home; `hart` is none for a hart of another endpoint. -/
structure HomeWaiter where
  cask : Loc
  hart : Option Nat
  index : Nat
  verb : HomeVerb
  deadline : Nat
deriving DecidableEq, Repr

/-- Where a member wants the result of a collective round (R136): the member, the chunk, the slot, the address and the
byte count. -/
structure ChunkTarget where
  member : Nat
  chunk : Nat
  slot : Nat
  addr : Nat
  bytes : Nat
deriving DecidableEq, Repr

/-- What a home keeps of a quorum or collective cask beside the cask itself (R128, R129): which half of the slots is
current, the slots of the open round that hold a contribution, the infinities and NaNs among them, the flags raised
while adding, the members whose contributions the slots hold, and for a collective the chunk addresses given (R136).
`sealed` is of every cask with rounds: the round of the last tag has closed (R124). `detail` holds the flags of the last closure
(R129, R283). -/
structure HomeRecord where
  sealed : Bool := false
  detail : Nat := 0
  half : Bool := false
  filled : List Nat := []
  special : List (Nat × Nat) := []
  flags : Nat := 0
  makers : List Nat := []
  chunks : List ChunkTarget := []
deriving DecidableEq, Repr

/-- A queue descriptor (R379) and the credit of R383. -/
structure Queue where
  v : Bool := false
  pub : Bool := false
  cls : Bool := false
  cask : Nat := 0
  prio : Nat := 0
  weight : Nat := 1
  agemax : Nat := 0
  budget : Nat := 0
  spent : Nat := 0
  nen : Bool := false
  nhart : Nat := 0
  pend : Bool := false
  exh : Bool := false
  stg : Bool := false
  wait : Nat := 0
  vf : Nat := 0
  part : Nat := 0
  credit : Nat := 0
deriving DecidableEq, Repr

/-- A reservation at level 7 (R384): for each core, harts and groups held for the head of a queue. A `firm` one holds the place
of a launch that is placed and has not started, against every other head (R382, R390). -/
structure Reservation where
  queue : Nat
  cores : List (Nat × Nat × Nat)
  firm : Bool := false
deriving DecidableEq, Repr

/-- A launch that runs (R387). -/
structure Launch where
  id : Nat
  queue : Nat
  harts : List Nat
  ended : List (Nat × Nat) := []
  completion : Nat
  entry : Word
  ctx : Word
  soff : Nat
  slen : Nat
deriving DecidableEq, Repr

/-- A launch of queue `queue` that is staged on the cores of launch `launch` (R390), with what is to be known of that one
once it has ended: its queue, its entry and tag, whether all its harts have ended and whether one did with a fault. -/
structure Staging where
  queue : Nat
  launch : Nat
  on : Nat
  cores : List Nat
  entry : Word
  ctx : Word
  done : Bool := false
  bad : Bool := false
deriving DecidableEq, Repr

/-- An answer that this module has sent to another endpoint (R82, R96, R117, R410): bytes, a status word, a cause, or a
NACK of a port. -/
inductive Reply where
  | data (bs : List Byte)
  | status (w : Word) (absent : Nat)
  | cause (code : Nat)
  | nack (port : Nat)
deriving DecidableEq, Repr

/-- A migration in progress (R368). -/
structure Migration where
  va : Nat
  leaf : Nat
  value : Word
  dest : Nat
  tier : Nat
  size : Nat
  notify : Nat
  completion : Nat
  evicted : Bool := false
deriving DecidableEq, Repr

/-- State of a lease (R371). -/
inductive LeaseState where
  | offered | active | racking | ended | lost
deriving DecidableEq, Repr

/-- A lease, at either end (R370 to R372). `moved` lists the granules that have moved; `urgent` those that are to move
next, with the fetching hart that reported one, if any. -/
structure Lease where
  id : Nat
  lender : Endpoint
  borrower : Endpoint
  state : LeaseState
  base : Nat
  units : Nat
  notice : Nat
  bw : Nat
  fallback : Nat
  tier : Nat
  noticeEnd : Nat := 0
  record : Nat
  notify : Nat
  lendDone : Nat
  acceptDone : Nat := 0
  reclaimDone : Nat := 0
  offerEnd : Nat
  moved : List Nat := []
  urgent : List (Nat × Option (Nat × Nat)) := []
deriving DecidableEq, Repr

/-- A page that this module exports (R377). -/
structure Export where
  page : Nat
  writable : Bool
  withdrawn : Bool
deriving DecidableEq, Repr

/-- A replay window toward an endpoint (R405): NACKs in a row, the packet to resend from, when the back-off ends. Its
unacknowledged packets are the posted stores to that endpoint. -/
structure Window where
  nacks : Nat := 0
  resend : Option Nat := none
  backoff : Nat := 0
deriving DecidableEq, Repr

/-- What a flit carries, as far as a failure of it strikes the instruction of its hart (R398, R403): the posted store with a
SEQ number, a train, a load, the request of an instruction that waits, a response, or else what nobody waits for. -/
inductive Cargo where
  | store (seq : Nat) | train | load | wait | response | other
deriving DecidableEq, Repr

/-- A trellis flit (R395, R396): its stop, its destination stop, class, age, source stop, header SEQ, the hart and the
destination of the request that it carries, the element address, whether its CRC holds, whether it was asked for
once more, since how many cycles it waits to be injected, what it carries, and the other fields of its header (R407): TYPE, LEN,
the source endpoint and die, OFFSET and the reassembly entry. -/
structure Flit where
  id : Nat
  stop : Nat
  dest : Nat
  cls : Nat
  age : Nat
  source : Nat
  seq : Nat
  hart : Nat
  ep : Endpoint
  die : Die
  addr : Word
  crc : Bool
  again : Bool
  waiting : Option Nat
  cargo : Cargo := .other
  kind : Nat := 0
  len : Nat := 0
  src : Endpoint := 0
  sdie : Die := 0
  offset : Nat := 0
  re : Nat := 0
deriving DecidableEq, Repr

/-- A key slot of a port (R409): its key, its salt, and the counter of the next flit. -/
structure KeySlot where
  installed : Bool := false
  counter : Nat := 0
  key : BitVec 256 := 0
  salt : BitVec 32 := 0
deriving DecidableEq, Repr

/-- A fabric port (R404, R409, R410): the sending slots, the receiving slots, the resends of the flit under way, the slot of the
flit that a port which discards has NACKed and awaits, the hart and the destination of the flit sent last and what it carries, and
the transmit credit toward each leaf switch. -/
structure Port where
  up : Bool := false
  send : Vector KeySlot 2 := .replicate 2 {}
  active : Bool := false
  recv : Vector KeySlot 2 := .replicate 2 {}
  rxActive : Bool := false
  resends : Nat := 0
  discarding : Bool := false
  awaits : Option Bool := none
  hart : Nat := 0
  ep : Endpoint := 0
  die : Die := 0
  cargo : Cargo := .other
  credit : Tbl Nat := []
deriving DecidableEq, Repr

/-- State of a recovery group (R419). -/
inductive Vintage where
  | steady | filling | halted
deriving DecidableEq, Repr

/-- A recovery group (R419, R420); `seen` names the endpoints found failed for which no window has closed yet. -/
structure Recovery where
  members : List Endpoint
  spares : List Endpoint
  notify : List Nat
  record : Nat
  vintage : Nat
  state : Vintage
  failed : List Endpoint
  seen : List Endpoint := []
deriving DecidableEq, Repr

/-- The partition to which the harts belong (R339, R391, R392, R425, R430): its number and its virtual function (R379), its
cores, its ASIDs, the offsets of the module that it may use and the endpoints that it may name, as ranges of base and size, the
memory-engine queue cask (R366), the accounting period in ns and the end of the last one (R388), and its trace ring: where it
lies, how many records it holds, how many are in it, which comes next, how many were lost, the sampling period in ns and the
time of the last sample. -/
structure Partition where
  cores : List Nat
  number : Nat := 0
  vf : Nat := 0
  asidBase : Nat := 0
  asidCount : Nat := 8192
  regions : List (Nat × Nat) := [(0, 2 ^ 44)]
  peers : List (Nat × Nat) := [(0, 8192)]
  engine : Option Loc := none
  quota : Nat := 8
  commMin : Nat := 0
  commMax : Nat := 0
  commNow : Nat := 0
  timer : Bool := false
  period : Nat := 1000000
  boundary : Nat := 0
  powerNotify : List Nat := []
  traceBase : Nat := 0
  traceSize : Nat := 0
  traceUsed : Nat := 0
  traceNext : Nat := 0
  traceLost : Nat := 0
  tracePeriod : Nat := 0
  sampled : Nat := 0
deriving DecidableEq, Repr

/-- Bring-up (R427 to R429): the stage reached, READY, the mailbox, the report in the mailbox of the physical function and
those given to virtual functions, the identity seed and the measurement log. -/
structure Boot where
  stage : Nat := 0
  ready : Bool := false
  mailbox : Nat := 0
  report : List Byte := []
  vfReports : List (Nat × List Byte) := []
  seed : BitVec 256 := 0
  log : List (BitVec 512) := []
  stacksOut : List Nat := []
  packagesOut : List Nat := []
  rootPorts : List Nat := []
deriving DecidableEq, Repr

/-- The thermal limit in force (R433). -/
inductive Thermal where
  | none | hottestDie | everyDie | down
deriving DecidableEq, Repr

/-- A cached translation (R363, R364): the hart that holds it, its ASID, the first address and the size of its page, and
the leaf as the hart read it. -/
structure Cached where
  hart : Nat
  asid : Nat
  page : Nat
  size : Nat
  leaf : Nat
deriving DecidableEq, Repr

/-- A request or a response on its way whose flit a stop injects (R397): posted store, train, copy, migration or lease by its
place in the list of the state; the cask operation, wake, flushing read, contribution, load or atomic that the current hart has
under way; or the answer of a flushing read, or a response with some bytes of data. -/
inductive Packet where
  | store (i : Nat) | train (i : Nat) | copy (i : Nat) | migration (i : Nat) | rack (i : Nat)
  | cask | wake | flush (ep : Endpoint) (die : Die) | collective (bytes : Nat) | load (a : Word) | atomic (a : Word)
  | answer (ep : Endpoint) (die : Die) | response (bytes : Nat)
deriving DecidableEq, Repr

/-- What firmware, a manager or the debug host sets outside the harts, and what it asks for. -/
inductive Setting where
  /-- the debug host claims a hart or not, and sets its comparators, four of each kind, and single step (R426) -/
  | debug (n : Nat) (icmp dcmp : List Word) (stepping claimed : Bool)
  /-- the debug host lets a halted hart run on (R426) -/
  | resume (n : Nat)
  /-- the partition manager gives the trace ring and the sampling period (R425) -/
  | trace (base size period : Nat)
  /-- `n` records of the trace ring have been read, so that their space returns (R425) -/
  | traceRead (n : Nat)
  /-- a recovery group is registered (R419) -/
  | group (r : Recovery)
  /-- firmware writes `REPLAYBO` (R405) -/
  | replaybo (bmin bmax limit : Nat)
  /-- firmware sets `KEYLIM` and `KEYMARGIN` (R409) -/
  | keys (lim margin : Nat)
  /-- a flit of the request of a hart is sent, by the port that has the most credit (R404, R409, R410) -/
  | send (hart : Nat) (ep : Endpoint) (die : Die) (cargo : Cargo)
  /-- a port has transmit credit toward a leaf switch (R404) -/
  | credit (port leaf n : Nat)
  /-- the ingress queue of the module is full, or not any more (R404) -/
  | ingress (full : Bool)
  /-- the partition manager gives a queue to a partition and a virtual function (R379, R392) -/
  | queueOwner (q part vf : Nat)
  /-- a page is exported, or its export changed (R377) -/
  | exportPage (e : Export)
  /-- the partition manager bounds the communication reserve (R391) -/
  | commres (min max : Nat)
  /-- the partition manager sets the accounting period and whether its boundary is posted (R388) -/
  | accounting (period : Nat) (timer : Bool)
  /-- a virtual function asks for an attestation report (R429) -/
  | attest (vf : Nat) (nonce : BitVec 256)
deriving DecidableEq, Repr

/-- One move of an agent other than the running hart, or of the hart scheduler (log 1). -/
inductive Move where
  /-- hart n takes a turn -/
  | turn (n : Nat)
  /-- the next scalar load of the current hart leaves its value open for a while (R87) -/
  | slow
  /-- the current hart caches the translation of an address (R363) -/
  | cache (va : Nat)
  /-- cached translation i is dropped -/
  | uncache (i : Nat)
  /-- the memory engine takes the command at the head of its queue (R366) -/
  | engine
  /-- the partition manager allots cores to the partition (R240, R339) -/
  | allot (cores : List Nat)
  /-- a packet of the current hart's stop asks to be injected, for a stop of the trellis (R397, R399) -/
  | packet (p : Packet) (dest : Nat)
  /-- an event of the part happens -/
  | event (i : Instr)
  /-- hart n becomes the one that steps next -/
  | hart (n : Nat)
  /-- a line leaves the L1 of the current hart (R86) -/
  | evict (base : Nat)
  /-- time passes, by n ns -/
  | tick (n : Nat)
  /-- firmware, a manager or the debug host acts -/
  | set (x : Setting)
deriving DecidableEq, Repr

/-- What a member of a convoy that stopped has to know when its convoy is resumed (R41, R54): the context it ran in, its address,
and for `vrnsx` the positions that it found inexact; for a member of R346 the LFSR before and after it, and what it has committed:
registers with their bits and the values of those, and tiles. -/
structure Note where
  ctx : Nat
  addr : Word
  before : Nat
  after : Nat := 0
  regs : List (Nat × Nat × Nat) := []
  tiles : List (Nat × Tile) := []
deriving DecidableEq, Repr

/-- The machine. `hart` is the hart that steps; `others` holds every other hart that is not as it is at reset. `tagged` holds
the leaves that a walk has found tagged, by the address of the leaf and the 64 KiB page (R66). `notes` are the model's own. -/
structure State where
  hart : Hart
  others : Tbl Hart := []
  cores : Tbl Core := []
  mem : Memory := []
  spad : Memory := []
  lane : Memory := []
  badMem : List Nat := []
  badSpad : List Nat := []
  locks : Tbl (BitVec 4) := []
  tagged : List (Nat × Nat) := []
  notes : List Note := []
  cached : List Cached := []
  spt : Tbl Word := []
  now : Word := 0
  locked : Bool := false
  endpt : Endpoint := 0
  risk : Word := 0
  slew : BitVec 8 := 200
  stagger : BitVec 16 := 0
  shape : BitVec 24 := 0
  taghist : Word := 0
  tagIndex : Nat := 0
  part : Partition
  queues : Tbl Queue := []
  served : Tbl Nat := []
  reserved : List Reservation := []
  launches : List Launch := []
  stagings : List Staging := []
  nextId : Nat := 0
  posted : List Posted := []
  trains : List Train := []
  copies : List Copy := []
  migrations : List Migration := []
  leases : List Lease := []
  exports : List Export := []
  down : List Endpoint := []
  exhausted : List Endpoint := []
  silent : List Endpoint := []
  windows : Tbl Window := []
  bmax : Nat := 64000
  bmin : Nat := 64
  limit : Nat := 16
  keyLim : Nat := 2 ^ 40
  keyMargin : Nat := 2 ^ 32
  ingressFull : Bool := false
  flits : List Flit := []
  withheld : List Nat := []
  ports : Tbl Port := []
  recovery : Option Recovery := none
  homes : Tbl HomeRecord := []
  waiters : List HomeWaiter := []
  replies : List Reply := []
  boot : Boot := {}
  thermal : Thermal := .none
  agenda : List Move := []
  clock : Nat := 0
deriving DecidableEq, Repr

/-- Why the machine stops. -/
inductive Fault where
  /-- Raised by every step once firmware has powered the compute dies down at 105 °C (R433). Safe: no hart exists
  that could go on. -/
  | poweredDown
deriving DecidableEq, Repr

/-- Why an instruction has no meaning. -/
inductive Refusal where
  /-- Raised by an arm of `exec` whose instruction is not modelled. Safe: nothing is claimed of it. -/
  | notModelled (mnemonic : String)
deriving DecidableEq, Repr

/-- A result of a meaning or a step. -/
abbrev Result := Host.Outcome State Fault Refusal

/-- The machine after reset: every field at the value that the spec states, and where it states none at the value
that the log names (log 3, 4, 5). -/
def State.reset : State where
  hart := { id := 0 }
  part := { cores := List.range 384 }

end Sys2Proof.Machine
end

