-- ==== Sys2Proof/Machine/Bits.lean ====
section
/-! DEFINITION. Tables with a default, bit fields, sign extension and byte order: the helpers that every other file
of the machine uses. -/

namespace Sys2Proof.Machine

/-! ### Tables -/

/-- What a table holds at a key. -/
def Tbl.get {β : Type} (d : β) : Tbl β → Nat → β
  | [], _ => d
  | (k, v) :: t, n => if n = k then v else Tbl.get d t n

/-- A table with key `n` set to `v`; setting the default removes the entry. -/
def Tbl.set {β : Type} [DecidableEq β] (d : β) : Tbl β → Nat → β → Tbl β
  | [], n, v => if v = d then [] else [(n, v)]
  | (k, w) :: t, n, v =>
    if n < k then (if v = d then (k, w) :: t else (n, v) :: (k, w) :: t)
    else if n = k then (if v = d then t else (n, v) :: t)
    else (k, w) :: Tbl.set d t n v

/-- Keys strictly rise from `lo` on and no entry holds the default. -/
def Tbl.wfFrom {β : Type} [DecidableEq β] (d : β) (lo : Nat) : Tbl β → Bool
  | [] => true
  | (k, v) :: t => decide (lo ≤ k) && decide (v ≠ d) && Tbl.wfFrom d (k + 1) t

/-- The canonical form of a table. -/
def Tbl.wf {β : Type} [DecidableEq β] (d : β) (t : Tbl β) : Bool := Tbl.wfFrom d 0 t

/-- What an unlisted byte of memory reads as (log 2). -/
def unlisted : Byte := 0

/-- The canonical form of a memory. -/
def Memory.wf (m : Memory) : Bool := Tbl.wf unlisted m

/-- One byte of a memory. -/
def Memory.read (m : Memory) (a : Nat) : Byte := Tbl.get unlisted m a

/-- A memory with one byte written. -/
def Memory.write (m : Memory) (a : Nat) (b : Byte) : Memory := Tbl.set unlisted m a b

/-- The bytes from `a` on, `n` of them. -/
def Memory.readN (m : Memory) (a : Nat) : Nat → List Byte
  | 0 => []
  | n + 1 => m.read a :: m.readN (a + 1) n

/-- A memory with bytes written from `a` on. -/
def Memory.writeN (m : Memory) (a : Nat) : List Byte → Memory
  | [] => m
  | b :: bs => (m.write a b).writeN (a + 1) bs

/-! ### Numbers and bytes -/

/-- The number that bytes hold, the least significant first (R3). -/
def leNat : List Byte → Nat
  | [] => 0
  | b :: bs => b.toNat + 256 * leNat bs

/-- The `n` low bytes of a number, the least significant first (R3). -/
def leBytes (x : Nat) : Nat → List Byte
  | 0 => []
  | n + 1 => BitVec.ofNat 8 x :: leBytes (x / 256) n

/-- A number of `w` bits read in two's complement. -/
def signed (w x : Nat) : Int := if 2 * (x % 2 ^ w) < 2 ^ w then (x % 2 ^ w : Nat) else (x % 2 ^ w : Nat) - (2 ^ w : Nat)

/-- The low `w` bits of an integer in two's complement. -/
def wrap (w : Nat) (x : Int) : Nat := (x % (2 ^ w : Nat)).toNat

/-- Bits [hi:lo] of a number. -/
def field (x hi lo : Nat) : Nat := x / 2 ^ lo % 2 ^ (hi + 1 - lo)

/-- Bit `i` of a number. -/
def bit (x i : Nat) : Bool := x / 2 ^ i % 2 == 1

/-- A number with `w` bits from `lo` on replaced by the low bits of `v`. -/
def splice (x lo w v : Nat) : Nat :=
  x / 2 ^ (lo + w) * 2 ^ (lo + w) + v % 2 ^ w * 2 ^ lo + x % 2 ^ lo

/-- The greatest power of two, as an exponent, that is not above `x`; 0 for 0. -/
def msb (x : Nat) : Nat := Nat.log2 x

/-- The number of 1 bits among the low `n` bits. -/
def popcount (x : Nat) : Nat → Nat
  | 0 => 0
  | n + 1 => x % 2 + popcount (x / 2) n

/-- The lowest position below `n` whose bit is 1. -/
def lowestOne (x n : Nat) : Option Nat := (List.range n).find? fun i => bit x i

/-- The highest position below `n` whose bit is 1. -/
def highestOne (x n : Nat) : Option Nat := (List.range n).reverse.find? fun i => bit x i

/-- The number whose bits in [lo, hi) are 1. -/
def onesFrom (lo hi : Nat) : Nat := if lo < hi then 2 ^ hi - 2 ^ lo else 0

/-- Division of naturals, rounded up. -/
def ceilDiv (a b : Nat) : Nat := if b = 0 then 0 else (a + b - 1) / b

/-- The greatest `r` with `r * r ≤ n`, by the bits of the root from `i` down. -/
def isqrtFrom (n : Nat) : Nat → Nat → Nat
  | 0, r => r
  | i + 1, r => if (r + 2 ^ i) * (r + 2 ^ i) ≤ n then isqrtFrom n i (r + 2 ^ i) else isqrtFrom n i r

/-- The integer square root. -/
def isqrt (n : Nat) : Nat := isqrtFrom n (msb n / 2 + 1) 0

/-- The items of a list whose index is below `n`, in order, with their index. -/
def enum {α : Type} (l : List α) : List (Nat × α) := l.zipIdx.map fun p => (p.2, p.1)

/-- A byte range added to a list of ranges that rise and do not touch. -/
def addRange (r : Nat × Nat) : List (Nat × Nat) → List (Nat × Nat)
  | [] => [r]
  | (a, b) :: t =>
    if r.2 < a then r :: (a, b) :: t
    else if b < r.1 then (a, b) :: addRange r t
    else addRange (min a r.1, max b r.2) t

/-- Whether a byte lies in one of the ranges. -/
def inRanges (x : Nat) (l : List (Nat × Nat)) : Bool := l.any fun r => decide (r.1 ≤ x) && decide (x < r.2)

/-- How many bytes of a range are not yet in the list. -/
def newBytes (r : Nat × Nat) (l : List (Nat × Nat)) : Nat :=
  (r.2 - r.1) - (l.map fun q => min r.2 q.2 - max r.1 q.1).sum

/-- A list with its `n`-th item replaced. -/
def setAt {α : Type} (l : List α) (n : Nat) (v : α) : List α := l.set n v

end Sys2Proof.Machine
end

