-- ==== Sys2Proof/Machine/Numeric.lean ====
section
/-! DEFINITION. Number formats and exact arithmetic (R32 to R50): decoding a code into an exact value, exact
operations, and the one rounding that takes an exact value back to a code with its flags. -/

namespace Sys2Proof.Machine

/-! ### Flags as bit sets (R42). Bit 7 marks a non-canonical residue, which has a cause of its own (R44). -/

abbrev fNV : Nat := 1
abbrev fDZ : Nat := 2
abbrev fOF : Nat := 4
abbrev fUF : Nat := 8
abbrev fIX : Nat := 16
abbrev fSAT : Nat := 32
abbrev fCLAMP : Nat := 64
abbrev fRNS : Nat := 128

/-! ### Element types (R32) -/

/-- Width of an element type in bits (R11, R32); 0 for a reserved code. -/
def etWidth : Nat → Nat
  | 0 => 8 | 1 => 8 | 2 => 16 | 3 => 16 | 4 => 32 | 5 => 32 | 6 => 64 | 7 => 64
  | 8 => 64 | 9 => 32 | 10 => 16 | 11 => 16 | 12 => 8 | 13 => 8 | 14 => 4 | 15 => 16 | 16 => 32 | 17 => 8 | 18 => 4
  | _ => 0

/-- ET 0 to 7 (R193). -/
def etInt (et : Nat) : Bool := et < 8
/-- The signed integer types, I4 included (R32). -/
def etSigned (et : Nat) : Bool := (et < 8 && et % 2 == 0) || et == 18
/-- ET 8 to 11 (R193). -/
def etFloat (et : Nat) : Bool := 8 ≤ et && et ≤ 11
/-- ET 15 and 16 (R193). -/
def etRns (et : Nat) : Bool := et == 15 || et == 16
/-- The narrow floating types (R36). -/
def etNarrow (et : Nat) : Bool := 12 ≤ et && et ≤ 14

/-- What the top exponent code of a format means (R35, R36). -/
inductive Specials where
  /-- infinities and NaNs -/
  | ieee
  /-- one NaN code, finite otherwise -/
  | oneNan
  /-- no special at all -/
  | none
deriving DecidableEq, Repr

/-- A binary floating format (R32, R35, R36). -/
structure Fmt where
  w : Nat
  fb : Nat
  bias : Nat
  sp : Specials
deriving DecidableEq, Repr

/-- The format of an element type; FP32 where the type is no float. -/
def fmtOf : Nat → Fmt
  | 8 => ⟨64, 52, 1023, .ieee⟩
  | 10 => ⟨16, 7, 127, .ieee⟩
  | 11 => ⟨16, 10, 15, .ieee⟩
  | 12 => ⟨8, 3, 7, .oneNan⟩
  | 13 => ⟨8, 2, 15, .ieee⟩
  | 14 => ⟨4, 1, 1, .none⟩
  | _ => ⟨32, 23, 127, .ieee⟩

/-- The greatest finite magnitude code (R35, R36). -/
def Fmt.maxCode (f : Fmt) : Nat :=
  match f.sp with
  | .ieee => 2 ^ (f.w - 1) - 2 ^ f.fb - 1
  | .oneNan => 2 ^ (f.w - 1) - 2
  | .none => 2 ^ (f.w - 1) - 1

/-- The canonical NaN (R35, R43); +0 for a format without one. -/
def Fmt.canonicalNan (f : Fmt) : Nat :=
  match f.sp with
  | .ieee => 2 ^ (f.w - 1) - 2 ^ f.fb + 2 ^ (f.fb - 1)
  | .oneNan => 2 ^ (f.w - 1) - 1
  | .none => 0

/-- An exact value: a NaN, an infinity, or (−1)^neg × m × 2^e. `more` says that the magnitude lies above m × 2^e by
less than 2^e, which a quotient or a root that does not end gives. -/
inductive FVal where
  | nan (signalling : Bool)
  | inf (neg : Bool)
  | fin (neg : Bool) (m : Nat) (e : Int) (more : Bool)
deriving DecidableEq, Repr

/-- The value of a code (R35, R36). -/
def Fmt.decode (f : Fmt) (x : Nat) : FVal :=
  let neg := bit x (f.w - 1)
  let mag := x % 2 ^ (f.w - 1)
  let fr := mag % 2 ^ f.fb
  let ex := mag / 2 ^ f.fb
  if mag > f.maxCode then
    match f.sp with
    | .ieee => if fr = 0 then .inf neg else .nan (!bit fr (f.fb - 1))
    | _ => .nan false
  else if ex = 0 then .fin neg fr (1 - (f.bias : Int) - f.fb) false
  else .fin neg (2 ^ f.fb + fr) ((ex : Int) - f.bias - f.fb) false

/-- Whether a NaN code is met. -/
def FVal.isNan : FVal → Bool
  | .nan _ => true | _ => false
def FVal.isSnan : FVal → Bool
  | .nan s => s | _ => false
def FVal.neg? : FVal → Bool
  | .nan _ => false | .inf n => n | .fin n _ _ _ => n
def FVal.flip : FVal → FVal
  | .nan s => .nan s | .inf n => .inf !n | .fin n m e k => .fin (!n) m e k

/-- A value times a power of two (R45). -/
def FVal.scale (v : FVal) (k : Int) : FVal :=
  match v with
  | .fin n m e s => .fin n m (e + k) s
  | v => v

/-! ### Rounding (R38 to R43) -/

/-- Whether the magnitude `n` in units of the last place goes up by one, given the remainder `rem` of `2^sh`, and
whether more lies below it (R39, R40). `l` is the LFSR value of the element. -/
def roundsUp (rm l : Nat) (neg : Bool) (n rem sh : Nat) (more : Bool) : Bool :=
  let inexact := rem ≠ 0 || more
  let half := if sh = 0 then 0 else 2 ^ (sh - 1)
  let above := sh ≠ 0 && (rem > half || (rem = half && more))
  let tie := sh ≠ 0 && rem = half && !more
  match rm with
  | 0 => above || (tie && n % 2 = 1)
  | 1 => false
  | 2 => inexact && neg
  | 3 => inexact && !neg
  | 4 => above || tie
  | _ => inexact && decide (2 ^ 32 ≤ rem * 2 ^ 32 / 2 ^ sh + l)

/-- The outcome beyond the greatest finite value (R43). -/
def Fmt.beyond (f : Fmt) (rm : Nat) (satn neg : Bool) : Nat × Nat :=
  let s := if neg then 2 ^ (f.w - 1) else 0
  let inf := 2 ^ (f.w - 1) - 2 ^ f.fb
  if f.sp ≠ .ieee || satn then (s + f.maxCode, fSAT ||| fIX)
  else
    let toMax := rm = 1 || (rm = 2 && !neg) || (rm = 3 && neg)
    (s + (if toMax then f.maxCode else inf), fOF ||| fIX)

/-- An exact finite value rounded once into a format: its code and its flags (R35, R39 to R43). -/
def Fmt.roundFin (f : Fmt) (rm l : Nat) (satn neg : Bool) (m : Nat) (e : Int) (more : Bool) : Nat × Nat :=
  let s := if neg then 2 ^ (f.w - 1) else 0
  if m = 0 && !more then (s, 0) else
  let lsb0 : Int := 1 - f.bias - f.fb
  let top : Int := (msb m : Int) + e
  let q : Int := max (top - f.fb) lsb0
  let sh := (q - e).toNat
  let n := if q ≤ e then m * 2 ^ (e - q).toNat else m / 2 ^ sh
  let rem := if q ≤ e then 0 else m % 2 ^ sh
  let inexact := rem ≠ 0 || more
  let n' := if roundsUp rm l neg n rem sh more then n + 1 else n
  let code := (q - lsb0).toNat * 2 ^ f.fb + n'
  -- tiny: below the least normal number when rounded with the exponent range extended
  let qt : Int := top - f.fb
  let sht := (qt - e).toNat
  let nt := if qt ≤ e then m * 2 ^ (e - qt).toNat else m / 2 ^ sht
  let remt := if qt ≤ e then 0 else m % 2 ^ sht
  let nt' := if roundsUp rm l neg nt remt sht more then nt + 1 else nt
  let least : Int := 1 - f.bias
  let tiny := decide (((if nt' = 2 ^ (f.fb + 1) then (f.fb + 1 : Nat) else f.fb) : Int) + qt < least)
  if code > f.maxCode then f.beyond rm satn neg
  else (s + code, (if inexact then fIX else 0) ||| (if inexact && tiny then fUF else 0))

/-- A value rounded into a format (R43). `fl` are the flags that the operation itself raised. -/
def Fmt.round (f : Fmt) (rm l : Nat) (satn : Bool) (v : FVal) (fl : Nat) : Nat × Nat :=
  match v with
  | .nan _ => (f.canonicalNan, if f.sp = .none then fl ||| fNV else fl)
  | .inf neg =>
    let s := if neg then 2 ^ (f.w - 1) else 0
    if f.sp ≠ .ieee || satn then (s + f.maxCode, fl ||| fSAT) else (s + (2 ^ (f.w - 1) - 2 ^ f.fb), fl)
  | .fin neg m e more =>
    let r := f.roundFin rm l satn neg m e more
    (r.1, fl ||| r.2)

/-! ### Exact operations. Each gives a value and the flags that it raises by itself (R35, R196). -/

/-- NV for a signalling operand (R35). -/
def snanFlag (a b : FVal) : Nat := if a.isSnan || b.isSnan then fNV else 0

/-- The signed integer that a finite value is, in units of `2^u`, for u at most its exponent. -/
def unitsOf (neg : Bool) (m : Nat) (e u : Int) : Int :=
  let k := (m * 2 ^ (e - u).toNat : Nat)
  if neg then -(k : Int) else k

/-- Sum (R35, R39). `rdn` says that the rounding mode is RDN, which gives an exact zero of opposite signs its sign. -/
def FVal.add (rdn : Bool) (a b : FVal) : FVal × Nat :=
  match a, b with
  | .nan s, b => (.nan false, if s || b.isSnan then fNV else 0)
  | _, .nan s => (.nan false, if s then fNV else 0)
  | .inf x, .inf y => if x = y then (.inf x, 0) else (.nan false, fNV)
  | .inf x, _ => (.inf x, 0)
  | _, .inf y => (.inf y, 0)
  | .fin n1 m1 e1 _, .fin n2 m2 e2 _ =>
    if m1 = 0 && m2 = 0 then (.fin (if n1 = n2 then n1 else rdn) 0 0 false, 0)
    else
      let u := min e1 e2
      let t := unitsOf n1 m1 e1 u + unitsOf n2 m2 e2 u
      if t = 0 then (.fin rdn 0 0 false, 0) else (.fin (decide (t < 0)) t.natAbs u false, 0)

/-- Product (R35). -/
def FVal.mul (a b : FVal) : FVal × Nat :=
  match a, b with
  | .nan s, b => (.nan false, if s || b.isSnan then fNV else 0)
  | _, .nan s => (.nan false, if s then fNV else 0)
  | .inf x, .inf y => (.inf (x != y), 0)
  | .inf x, .fin y m _ _ => if m = 0 then (.nan false, fNV) else (.inf (x != y), 0)
  | .fin x m _ _, .inf y => if m = 0 then (.nan false, fNV) else (.inf (x != y), 0)
  | .fin n1 m1 e1 _, .fin n2 m2 e2 _ => (.fin (n1 != n2) (m1 * m2) (e1 + e2) false, 0)

/-- Quotient (R196). -/
def FVal.div (a b : FVal) : FVal × Nat :=
  match a, b with
  | .nan s, b => (.nan false, if s || b.isSnan then fNV else 0)
  | _, .nan s => (.nan false, if s then fNV else 0)
  | .inf _, .inf _ => (.nan false, fNV)
  | .inf x, .fin y _ _ _ => (.inf (x != y), 0)
  | .fin x _ _ _, .inf y => (.fin (x != y) 0 0 false, 0)
  | .fin n1 m1 e1 _, .fin n2 m2 e2 _ =>
    if m2 = 0 then (if m1 = 0 then (.nan false, fNV) else (.inf (n1 != n2), fDZ))
    else if m1 = 0 then (.fin (n1 != n2) 0 0 false, 0)
    else
      let k := 130 + msb m2
      let p := m1 * 2 ^ k
      (.fin (n1 != n2) (p / m2) (e1 - e2 - k) (decide (p % m2 ≠ 0)), 0)

/-- Square root (R196). -/
def FVal.sqrt (a : FVal) : FVal × Nat :=
  match a with
  | .nan s => (.nan false, if s then fNV else 0)
  | .inf true => (.nan false, fNV)
  | .inf false => (.inf false, 0)
  | .fin neg m e _ =>
    if m = 0 then (.fin neg 0 0 false, 0)
    else if neg then (.nan false, fNV)
    else
      let odd := e % 2 ≠ 0
      let p := (if odd then 2 * m else m) * 2 ^ 220
      let r := isqrt p
      (.fin false r ((if odd then e - 1 else e) / 2 - 110) (decide (r * r ≠ p)), 0)

/-- a × b + d, with one rounding still to come (R196). ∞ × 0 sets NV even when d is a quiet NaN. -/
def FVal.fma (rdn : Bool) (a b d : FVal) : FVal × Nat :=
  let p := FVal.mul a b
  let t := FVal.add rdn p.1 d
  (t.1, p.2 ||| t.2 ||| (if d.isSnan then fNV else 0))

/-- Comparison of two values that are no NaN: −1, 0 or 1. −0 equals +0. -/
def FVal.cmp (a b : FVal) : Int :=
  match a, b with
  | .inf x, .inf y => if x = y then 0 else if x then -1 else 1
  | .inf x, _ => if x then -1 else 1
  | _, .inf y => if y then 1 else -1
  | .fin n1 m1 e1 _, .fin n2 m2 e2 _ =>
    let u := min e1 e2
    let t := unitsOf n1 m1 e1 u - unitsOf n2 m2 e2 u
    if t < 0 then -1 else if t = 0 then 0 else 1
  | _, _ => 0

/-- The order of minimumNumber and maximumNumber: as `cmp`, with −0 below +0 (R196). -/
def FVal.cmpNumber (a b : FVal) : Int :=
  let c := FVal.cmp a b
  if c ≠ 0 then c else if a.neg? && !b.neg? then -1 else if !a.neg? && b.neg? then 1 else 0

/-- minimumNumber or maximumNumber on codes: the code chosen, and flags (R196). -/
def Fmt.minMax (f : Fmt) (isMax : Bool) (x y : Nat) : Nat × Nat :=
  let a := f.decode x
  let b := f.decode y
  let fl := snanFlag a b
  if a.isNan && b.isNan then (f.canonicalNan, fl)
  else if a.isNan then (y, fl)
  else if b.isNan then (x, fl)
  else
    let c := FVal.cmpNumber a b
    ((if isMax then (if c < 0 then y else x) else (if c ≤ 0 then x else y)), fl)

/-- The class code of R196. -/
def Fmt.classify (f : Fmt) (x : Nat) : Nat :=
  let k := match f.decode x with
    | .nan s => if s then 5 else 4
    | .inf _ => 3
    | .fin _ m _ _ => if m = 0 then 0 else if m < 2 ^ f.fb then 1 else 2
  k + (if bit x (f.w - 1) then 8 else 0)

/-- A finite value rounded to an integer: the integer, and whether it is inexact (R39, R40). -/
def roundInt (rm l : Nat) (neg : Bool) (m : Nat) (e : Int) (more : Bool) : Int × Bool :=
  let sh := (-e).toNat
  let n := if 0 ≤ e then m * 2 ^ e.toNat else m / 2 ^ sh
  let rem := if 0 ≤ e then 0 else m % 2 ^ sh
  let n' := if roundsUp rm l neg n rem sh more then n + 1 else n
  (if neg then -(n' : Int) else n', rem ≠ 0 || more)

/-! ### Integers (R34) -/

/-- The least and the greatest value of an integer type. -/
def intMin (et : Nat) : Int := if etSigned et then -(2 ^ (etWidth et - 1) : Nat) else 0
def intMax (et : Nat) : Int := if etSigned et then (2 ^ (etWidth et - 1) - 1 : Nat) else (2 ^ etWidth et - 1 : Nat)

/-- An integer element read under its type. -/
def intOf (et x : Nat) : Int := if etSigned et then signed (etWidth et) x else (x % 2 ^ etWidth et : Nat)

/-- An integer clamped to a type, and whether it was clamped. -/
def clampInt (et : Nat) (v : Int) : Nat × Bool :=
  let w := etWidth et
  if v < intMin et then (wrap w (intMin et), true)
  else if intMax et < v then (wrap w (intMax et), true)
  else (wrap w v, false)

/-- The LFSR after one step (R41). -/
def lfsrStep (s : Nat) : Nat :=
  let b := (bit s 31).toNat + (bit s 21).toNat + (bit s 1).toNat + (bit s 0).toNat
  s * 2 % 2 ^ 32 + b % 2

/-- The LFSR after `n` steps. -/
def lfsrSteps (s : Nat) : Nat → Nat
  | 0 => s
  | n + 1 => lfsrSteps (lfsrStep s) n

/-! ### Residues (R47 to R50) -/

/-- The three moduli of a residue type (R47). -/
def rnsMod (et : Nat) : Nat × Nat × Nat := if et = 15 then (31, 32, 63) else (1023, 1024, 2047)

/-- The number of values of a residue type (R47). -/
def rnsM (et : Nat) : Nat := if et = 15 then 62496 else 2144338944

/-- The channels of a residue element as they stand in the element. -/
def rnsRaw (et x : Nat) : Nat × Nat × Nat :=
  if et = 15 then (field x 4 0, field x 9 5, field x 15 10) else (field x 9 0, field x 19 10, field x 30 20)

/-- Whether a residue element is canonical (R48). -/
def rnsCanonical (et x : Nat) : Bool :=
  let m := rnsMod et
  let c := rnsRaw et x
  c.1 < m.1 && c.2.1 < m.2.1 && c.2.2 < m.2.2 && (et == 15 || !bit x 31)

/-- The channels as an arithmetic operand reads them (R48). -/
def rnsRead (et x : Nat) : Nat × Nat × Nat :=
  let m := rnsMod et
  let c := rnsRaw et x
  (if c.1 < m.1 then c.1 else c.1 - m.1, if c.2.1 < m.2.1 then c.2.1 else c.2.1 - m.2.1,
   if c.2.2 < m.2.2 then c.2.2 else c.2.2 - m.2.2)

/-- The flags of reading a residue operand (R48). -/
def rnsFlag (et x : Nat) : Nat := if rnsCanonical et x then 0 else fNV ||| fRNS

/-- A residue element from its channels, each reduced (R47). -/
def rnsPack (et : Nat) (c : Nat × Nat × Nat) : Nat :=
  let m := rnsMod et
  if et = 15 then c.1 % m.1 + c.2.1 % m.2.1 * 2 ^ 5 + c.2.2 % m.2.2 * 2 ^ 10
  else c.1 % m.1 + c.2.1 % m.2.1 * 2 ^ 10 + c.2.2 % m.2.2 * 2 ^ 20

/-- The residue element of an integer (R47). -/
def rnsOfInt (et : Nat) (v : Int) : Nat :=
  let m := rnsMod et
  rnsPack et ((v % (m.1 : Int)).toNat, (v % (m.2.1 : Int)).toNat, (v % (m.2.2 : Int)).toNat)

/-- Chinese remainder weights: M_i times its inverse modulo m_i (R47). -/
def rnsWeights (et : Nat) : Nat × Nat × Nat :=
  if et = 15 then (2016, 1953, 58528) else (2096128, 2094081, 2140148736)

/-- The signed integer of a residue element (R47). -/
def rnsValue (et x : Nat) : Int :=
  let c := rnsRead et x
  let k := rnsWeights et
  let v := (c.1 * k.1 + c.2.1 * k.2.1 + c.2.2 * k.2.2) % rnsM et
  if 2 * v < rnsM et then (v : Int) else (v : Int) - rnsM et

/-- A channel-by-channel operation on residue elements (R49). `f` is given the modulus. -/
def rnsOp (et : Nat) (f : Int → Int → Int → Int) (a b d : Nat) : Nat :=
  let m := rnsMod et
  let x := rnsRead et a
  let y := rnsRead et b
  let z := rnsRead et d
  let g := fun (m p q r : Nat) => (f p q r % (m : Int)).toNat
  rnsPack et (g m.1 x.1 y.1 z.1, g m.2.1 x.2.1 y.2.1 z.2.1, g m.2.2 x.2.2 y.2.2 z.2.2)

end Sys2Proof.Machine
end

