-- ==== Sys2Proof/Machine/Flags.lean ====
section
/-! DEFINITION. `FLAGS`, `FRM` and `STATUS` as words, which flags have their enable set, and the cause that an enabled
flag gives (R38, R42, R44, R323). -/

namespace Sys2Proof.Machine

/-- RM of an `FRM` value (R38). -/
def frmRM (frm : BitVec 15) : Nat := frm.toNat % 8

/-- SATN of an `FRM` value (R38). -/
def frmSATN (frm : BitVec 15) : Bool := bit frm.toNat 3

/-- The flags, as a set of R42 with bit 7 for residues, whose enable bit is 1 (R38). -/
def enabledFlags (frm : BitVec 15) : Nat :=
  let f := frm.toNat
  (if bit f 8 then fNV else 0) ||| (if bit f 9 then fDZ else 0) ||| (if bit f 10 then fOF else 0)
    ||| (if bit f 11 then fUF else 0) ||| (if bit f 12 then fIX else 0) ||| (if bit f 13 then fSAT else 0)
    ||| (if bit f 14 then fRNS else 0)

/-- The cause of the first enabled flag, in the order of R44. -/
def flagCause (frm : BitVec 15) (fl : Nat) : Option Nat :=
  let h := fl &&& enabledFlags frm
  if h &&& fRNS ≠ 0 then some 38
  else if h &&& fNV ≠ 0 then some 32
  else if h &&& fDZ ≠ 0 then some 33
  else if h &&& fOF ≠ 0 then some 34
  else if h &&& fUF ≠ 0 then some 35
  else if h &&& fSAT ≠ 0 then some 37
  else if h &&& fIX ≠ 0 then some 36
  else none

/-- The flag that gives a cause (R44). -/
def causeFlag : Nat → Nat
  | 38 => fRNS | 32 => fNV | 33 => fDZ | 34 => fOF | 35 => fUF | 37 => fSAT | 36 => fIX | _ => 0

/-- Sticky flags with a set raised (R42). -/
def raiseFlags (flags : BitVec 7) (fl : Nat) : BitVec 7 := flags ||| .ofNat 7 fl

/-- A lazy-state code (R323). -/
def Lazy.code : Lazy → Nat
  | .off => 0 | .initial => 1 | .clean => 2 | .dirty => 3

/-- A lazy-state code from its two bits (R323). -/
def Lazy.ofCode : Nat → Lazy
  | 0 => .off | 1 => .initial | 2 => .clean | _ => .dirty

/-- `STATUS` as a word (R323). -/
def Status.toWord (s : Status) : Word :=
  word (s.tage.toNat * 2 ^ 11 + s.parked.toNat * 2 ^ 10 + s.cvr.toNat * 2 ^ 9 + s.ls.code * 2 ^ 7 + s.ts.code * 2 ^ 5
    + s.vs.code * 2 ^ 3 + s.pp.toNat * 2 ^ 2 + s.pie.toNat * 2 + s.ie.toNat)

/-- `STATUS` from a word; reserved bits are dropped (R4, R323). -/
def Status.ofWord (w : Word) : Status where
  tage := bitOf w 11
  parked := bitOf w 10
  cvr := bitOf w 9
  ls := .ofCode (bits w 8 7)
  ts := .ofCode (bits w 6 5)
  vs := .ofCode (bits w 4 3)
  pp := bitOf w 2
  pie := bitOf w 1
  ie := bitOf w 0

end Sys2Proof.Machine
end

