-- ==== Sys2Proof/Machine/Update.lean ====
section
/-! DEFINITION. Arithmetic on one element that a home performs as well as a hart: sums and extrema (R34, R35, R48, R49, R194,
R196), and the update of an element of memory by an atomic (R96, R235, R238). -/

namespace Sys2Proof.Machine

/-- An integer result modulo 2^w (R34). -/
def intResult (et : Nat) (v : Int) : Nat × Nat := (wrap (etWidth et) v, 0)

/-- An exact float result rounded once (R35). -/
def floatResult (et rm l : Nat) (r : FVal × Nat) : Nat × Nat := (fmtOf et).round rm l false r.1 r.2

/-- A residue result, channel by channel, with the flags of reading its operands (R48, R49). -/
def rnsResult (et : Nat) (f : Int → Int → Int → Int) (a b d : Nat) (fl : Nat) : Nat × Nat := (rnsOp et f a b d, fl)

/-- Flags of reading two residue operands (R48). -/
def rnsFlags2 (et a b : Nat) : Nat := rnsFlag et a ||| rnsFlag et b

def opAdd (et rm l a b _d : Nat) : Nat × Nat :=
  if etInt et then intResult et (intOf et a + intOf et b)
  else if etFloat et then floatResult et rm l (((fmtOf et).decode a).add (rm == 2) ((fmtOf et).decode b))
  else rnsResult et (fun x y _ => x + y) a b 0 (rnsFlags2 et a b)

/-- The lesser or the greater (R194, R196). -/
def opMinMax (isMax : Bool) (et _rm _l a b _d : Nat) : Nat × Nat :=
  if etInt et then ((if (intOf et a < intOf et b) == isMax then b else a), 0) else (fmtOf et).minMax isMax a b

/-- old ⊕ new for an operator, under SR taken as RNE (R235). -/
def combineOp (op et rm old new : Nat) : Nat × Nat :=
  let rm := if rm = 5 then 0 else rm
  match op with
  | 1 => opAdd et rm 0 old new 0
  | 2 => opMinMax true et 0 0 old new 0
  | 3 => opMinMax false et 0 0 old new 0
  | 4 => (old &&& new, 0)
  | 5 => (old ||| new, 0)
  | 6 => (old ^^^ new, 0)
  | _ => (new, 0)

/-- maximumNumber or minimumNumber of exact values (R196). -/
def FVal.minMax (isMax : Bool) (a b : FVal) : FVal × Nat :=
  let fl := snanFlag a b
  if a.isNan then (if b.isNan then (.nan false, fl) else (b, fl))
  else if b.isNan then (a, fl)
  else if (FVal.cmpNumber a b < 0) == isMax then (b, fl) else (a, fl)

/-- The home's update of a destination element of type `ta` with an exact element `x` of type `et` (R238). -/
def reduceInto (op ta et old x : Nat) (k : Int) : Nat × Nat :=
  if etFloat ta then
    let y := ((fmtOf et).decode x).scale k
    let z := (fmtOf ta).decode old
    let c := match op with
      | 1 => FVal.add false z y
      | 2 => FVal.minMax true z y
      | 3 => FVal.minMax false z y
      | _ => (y, if y.isSnan then fNV else 0)
    (fmtOf ta).round 0 0 false c.1 c.2
  else if etRns ta then
    match op with
    | 1 => (rnsOp ta (fun p q _ => p + q) old x 0, rnsFlags2 ta old x)
    | 2 => (if rnsValue ta old < rnsValue ta x then x else old, rnsFlags2 ta old x)
    | 3 => (if rnsValue ta x < rnsValue ta old then x else old, rnsFlags2 ta old x)
    | _ => (x, 0)
  else combineOp op ta 0 old (wrap 32 (intOf et x))

/-- A value of `w` bits taken from bytes (R33). -/
def pick (w : Nat) (high : Option Bool) (x : Nat) : Nat :=
  match high with
  | some h => x / (if h then 16 else 1) % 16
  | none => x % 2 ^ w

/-- Bytes with a 4-bit value put into its half of the byte that stands there; the other half stays (R33, R229). -/
def halfOver (old : List Byte) (high : Option Bool) (bs : List Byte) : List Byte :=
  match high with
  | some h => leBytes (splice (leNat old) (if h then 4 else 0) 4 (leNat bs % 16)) 1
  | none => bs

/-- What an update leaves of the `n` bytes that stood at its home, and the flags of its rounding (R96, R235, R238). `high` is
the half of the byte that a 4-bit element takes (R33). -/
def Update.apply (u : Update) (high : Option Bool) (old data : List Byte) : List Byte × Nat :=
  match u with
  | .store => (halfOver old high data, 0)
  | .spread _ => (halfOver old high data, 0)
  | .combine op et rm =>
    let w := etWidth et
    let c := combineOp op et rm (pick w high (leNat old)) (leNat data % 2 ^ w)
    (halfOver old high (leBytes c.1 data.length), c.2)
  | .reduce op ta et x k =>
    let c := reduceInto op ta et (leNat old) x k
    (leBytes c.1 data.length, c.2)

end Sys2Proof.Machine
end

