-- ==== Sys2Proof/Machine/Ops.lean ====
section
/-! DEFINITION. The named operations over the state: registers, harts and cores, taking a trap and returning from one
(R331, R340), implicit stalls (R73, R74), asynchronous causes (R341, R344), the lane allocation table (R13 to R16) and
domain time. -/

namespace Sys2Proof.Machine

/-! ### Causes by name (R342) -/

abbrev cIllegalEncoding := 0
abbrev cIllegalVtype := 1
abbrev cConvoyConflict := 2
abbrev cRegBeyond := 3
abbrev cRegMisaligned := 4
abbrev cPrivInstr := 5
abbrev cPrivCtlreg := 6
abbrev cOrderModifier := 7
abbrev cSubbyteStride := 12
abbrev cVectorOff := 13
abbrev cTileOff := 14
abbrev cLoopState := 15
abbrev cMisaligned := 22
abbrev cTagMismatch := 23
abbrev cScratchRange := 24
abbrev cScratchCore := 25
abbrev cLaneRange := 26
abbrev cPageMigrating := 27
abbrev cLeaseExpired := 28
abbrev cAtomicSpace := 29
abbrev cScaleNan := 39
abbrev cTileShape := 40
abbrev cIndexRange := 41
abbrev cCollectiveConfig := 42
abbrev cTrainNackLimit := 43
abbrev cCopyOverfill := 44
abbrev cCopySource := 45
abbrev cCopyDest := 46
abbrev cLaneGrantLost := 47
abbrev cWaitExpired := 48
abbrev cBarrierConfig := 49
abbrev cQuorumConfig := 50
abbrev cQuorumLag := 51
abbrev cMendRefused := 52
abbrev cQueueConfig := 53
abbrev cFarmConfig := 54
abbrev cNotHolder := 55
abbrev cObjectDamaged := 56
abbrev cCaskAlignment := 57
abbrev cWaitInConvoy := 58
abbrev cTimeBaseLost := 59
abbrev cAbsenteeBuffer := 60
abbrev cRoundWrap := 61
abbrev cFlushTimeout := 62
abbrev cMulticastGroup := 63
abbrev cReplayExhausted := 64
abbrev cEndpointDown := 65
abbrev cAuthFail := 66
abbrev cKeyExhausted := 67
abbrev cRemotePage := 68
abbrev cRemoteAccess := 69
abbrev cReassembly := 70
abbrev cAgeBound := 71
abbrev cIntegrity := 72
abbrev cStarved := 73

/-! ### Registers of the current hart -/

/-- S(r): `s0` reads as zero (R154). -/
def State.x (s : State) (r : SReg) : Word := if r = 0 then 0 else s.hart.x[r.toNat]'r.isLt

/-- S(r) := v; a write to `s0` is discarded (R154). -/
def State.setX (s : State) (r : SReg) (v : Word) : State :=
  if r = 0 then s else { s with hart.x := s.hart.x.set r.toNat v r.isLt }

/-- The program counter set. -/
def State.setPc (s : State) (a : Word) : State := { s with hart.pc := a }

/-- An instruction of one word has completed: the next word follows, and no stall is left. -/
def State.advance (s : State) : State := { s with hart.pc := s.hart.pc + 4, hart.stall := none, hart.retired := true }

/-- A jump: the next convoy starts at `a`. -/
def State.jump (s : State) (a : Word) : State := { s with hart.pc := a, hart.stall := none, hart.retired := true }

/-- Flags raised in `FLAGS` (R42). -/
def State.raiseFlags (s : State) (fl : Nat) : State :=
  { s with hart.flags := Machine.raiseFlags s.hart.flags fl }

/-- `STATUS`.VS := Dirty (R323). -/
def State.dirtyV (s : State) : State := { s with hart.status.vs := .dirty }

/-- VS := Dirty if a condition holds (R323). -/
def State.dirtyVIf (s : State) (c : Bool) : State := if c then s.dirtyV else s

/-- `STATUS`.TS := Dirty (R323, R247). -/
def State.dirtyT (s : State) : State := { s with hart.status.ts := .dirty }

/-- `STATUS`.LS := Dirty (R323). -/
def State.dirtyL (s : State) : State := { s with hart.status.ls := .dirty }

/-! ### Harts and cores -/

/-- A hart by its module number. -/
def State.hartAt (s : State) (n : Nat) : Hart :=
  if n = s.hart.id then s.hart else Tbl.get { id := n } s.others n

/-- A hart replaced by what `f` makes of it. -/
def State.modHart (s : State) (n : Nat) (f : Hart → Hart) : State :=
  if n = s.hart.id then { s with hart := f s.hart }
  else { s with others := Tbl.set { id := n } s.others n (f (Tbl.get { id := n } s.others n)) }

/-- Hart `n` becomes the one that steps. -/
def State.switchTo (s : State) (n : Nat) : State :=
  if n = s.hart.id then s
  else { s with
    hart := Tbl.get { id := n } s.others n
    others := Tbl.set { id := n } (Tbl.set { id := s.hart.id } s.others s.hart.id s.hart) n { id := n } }

/-- The harts that are not as at reset, the current one first. -/
def State.harts (s : State) : List Hart := s.hart :: s.others.map (·.2)

/-- The core of a hart. -/
def Hart.core (h : Hart) : Nat := h.id / 4

/-- A core's shared state. -/
def State.coreAt (s : State) (c : Nat) : Core := Tbl.get {} s.cores c

/-- A core replaced by what `f` makes of it. -/
def State.modCore (s : State) (c : Nat) (f : Core → Core) : State :=
  { s with cores := Tbl.set {} s.cores c (f (s.coreAt c)) }

/-- The compute die of a core: `COREID`.DIE (R179). -/
def dieOfCore (c : Nat) : Nat := c / 96

/-- The first core of a core's cluster (R179). -/
def clusterBase (c : Nat) : Nat := c / 12 * 12

/-! ### Endpoint and die in one value (R101, R342) -/

/-- E/D: the endpoint in [12:0], the die in [18:16]. -/
def epDie (ep : Endpoint) (d : Die) : Word := word (ep.toNat + d.toNat * 2 ^ 16)

/-! ### Trace (R425) -/

/-- A pending asynchronous cause posted to a hart; one that is already pending with the same values stays one. -/
def State.post (s : State) (n : Nat) (t : Trap) : State :=
  s.modHart n fun h => if t ∈ h.pending then h else { h with pending := h.pending ++ [t] }

/-- The 32 bytes of a trace record (R425). -/
def traceRecord (s : State) (kind : Nat) (head : Word) (members value : Nat) : List Byte :=
  leBytes (kind + s.hart.id * 2 ^ 8 + (if s.hart.priv = .super then 2 ^ 19 else 0)) 8
    ++ leBytes s.now.toNat 8 ++ leBytes head.toNat 8 ++ leBytes (members + value % 2 ^ 32 * 2 ^ 32) 8

/-- A record put into the partition's ring, which has space for it (R425). -/
def State.putTrace (s : State) (bs : List Byte) : State :=
  let p := s.part
  { s with
    mem := s.mem.writeN (p.traceBase + 32 * p.traceNext) bs
    part := { p with traceUsed := p.traceUsed + 1, traceNext := (p.traceNext + 1) % p.traceSize } }

/-- A record that does not fit is counted, and the first hart that loses one takes `TRACE_FULL` (R425). -/
def State.loseTrace (s : State) : State :=
  let t := { s with part := { s.part with traceLost := s.part.traceLost + 1 } }
  if s.part.traceLost = 0 then t.post s.hart.id { code := 89 } else t

/-- Space in the ring has returned: a KIND 5 record with the count of those lost is written (R425). -/
def State.noteLost (s : State) (head : Word) : State :=
  if s.part.traceLost = 0 || s.part.traceSize ≤ s.part.traceUsed then s
  else
    let u := s.putTrace (traceRecord s 5 head 0 s.part.traceLost)
    { u with part := { u.part with traceLost := 0 } }

/-- A record appended to the partition's ring. Once there is space again after records were lost, a KIND 5 record with the
count comes first (R425). -/
def State.trace (s : State) (kind : Nat) (head : Word) (members value : Nat) : State :=
  if s.part.traceSize = 0 then s
  else
    let t := s.noteLost head
    if t.part.traceSize ≤ t.part.traceUsed then t.loseTrace else t.putTrace (traceRecord s kind head members value)

/-! ### Traps (R340) -/

/-- The closure record that a wait holds goes into the slot of its entry when the hart leaves the wait (R267). -/
def Hart.keepRecord (h : Hart) : List Member :=
  match h.wait.bind fun w => w.cask.bind fun l => w.answer.map fun a => (l, a, w.round) with
  | some (l, a, t) => h.members.map fun m =>
      if m.cask = l && m.tag = t && a.tag = t && a.absent.isSome
      then { m with slot := some ⟨a.status, a.tag, a.absent.getD 0⟩ } else m
  | none => h.members

/-- Trap entry (R340): `EPC`, `CAUSE`, `TVAL`, `TVAL2`, the privilege bits of `STATUS`, and the handler's address. CVR
comes from the landing (R344). -/
def State.enterTrap (s : State) (t : Trap) (epc : Word) (cvr : Bool) : State :=
  let async := 74 ≤ t.code && t.code ≤ 95
  let h := s.hart
  let base := word (h.tvec.toNat / 4 * 4)
  let s := s.trace 3 epc h.words t.code
  { s with
    hart.epc := word (epc.toNat / 4 * 4)
    hart.cause := word ((if async then 2 ^ 63 else 0) + t.code)
    hart.tval := t.tval
    hart.tval2 := t.tval2
    hart.status.pie := h.status.ie
    hart.status.ie := false
    hart.status.pp := h.priv == .super
    hart.status.cvr := cvr
    hart.priv := .super
    hart.pc := if h.tvec.toNat % 4 = 1 && async then base + word (4 * t.code) else base
    hart.members := h.keepRecord
    hart.answered := []
    hart.secured := []
    hart.undo := none
    hart.stall := none
    hart.wait := none
    hart.resumed := false
    hart.retired := false
    hart.cv := none }

/-- The trap of a scalar instruction, a fence, a wait or an issue check: it lands at the instruction, `VSTART` and the
rest unchanged (R344). -/
def State.raise (s : State) (t : Trap) : State := s.enterTrap t s.hart.pc false

/-- The `VSTART` at which the convoy started that the current hart holds in a stall, or that it starts now (R344). -/
def State.convoyStart (s : State) : Nat := (s.hart.stall.filter (·.vec)).elim s.hart.vstart (·.start)

/-- A trap that comes from outside at an instruction that stalls or waits: a vector convoy that is held stops where it is held
(R344, R403). -/
def State.landHere (s : State) (t : Trap) : State :=
  match s.hart.stall.filter (·.vec) with
  | some st => s.enterTrap t s.hart.pc (decide (st.start < s.hart.vstart) || st.committed)
  | none => s.raise t

/-- `eret` (R331). The convoy at `EPC` is a resumption when CVR is 1 (R346). -/
def State.returnFromTrap (s : State) : State :=
  let h := s.hart
  { s with
    hart.priv := if h.status.pp then .super else .user
    hart.status.ie := h.status.pie
    hart.status.pie := true
    hart.status.pp := false
    hart.status.cvr := false
    hart.resumed := h.status.cvr
    hart.pc := word (h.epc.toNat / 4 * 4)
    hart.stall := none
    hart.retired := true }

/-! ### Stalls (R73, R74, R101) -/

/-- What stops an instruction short: a trap, or a stall that may end. -/
inductive Halt where
  | trap (t : Trap)
  | stall (kind object : Nat)
deriving DecidableEq, Repr

/-- The cause that a stall raises at its deadline (R31, R74, R101). Kind 0 is a flush, and kind 12 a wait for a response or for
room, for which R74 gives no kind: its `TVAL` is a free value (log 100). -/
def stallTrap (st : Stall) : Trap :=
  if st.kind = 0 then { code := cFlushTimeout, tval := word st.object, tval2 := word st.deadline }
  else if st.kind = 12 then { code := cWaitExpired, tval := Config.responseTval st.object, tval2 := word st.deadline }
  else { code := cWaitExpired, tval := word (st.kind * 2 ^ 56 + st.object % 2 ^ 56), tval2 := word st.deadline }

/-- `NOW` + `DEFDL`, held to `NOW` + `MAXWAIT` (R73). -/
def State.stallDeadline (s : State) : Nat := s.now.toNat + min s.hart.defdl.toNat s.hart.maxwait.toNat

/-- Whether a stall is the one in progress. The object of a flush or of a count may change while it lasts (R74). -/
def Stall.same (st : Stall) (kind object : Nat) : Bool :=
  st.kind = kind && (st.object = object || kind = 0 || kind = 5 || kind = 7 || kind = 10 || kind = 12)

/-- The stall in progress, when it is the same (R73). -/
def State.stallHeld (s : State) (kind object : Nat) : Option Stall := s.hart.stall.filter fun st => st.same kind object

/-- The stall that now holds: the one in progress when it is the same, else a new one with its own bound (R31, R73). -/
def State.stallOf (s : State) (kind object : Nat) : Stall :=
  match s.stallHeld kind object with
  | some st => { st with object := object }
  | none => { kind := kind, object := object, deadline := s.stallDeadline }

/-- CLAMP, when the stall starts now and OFFSET exceeds `MAXWAIT` (R73). -/
def State.stallClamp (s : State) (kind object : Nat) : State :=
  if (s.stallHeld kind object).isNone && s.hart.maxwait.toNat < s.hart.defdl.toNat then s.raiseFlags fCLAMP else s

/-- A scalar instruction stalls: the hart stays at it, or the stall's deadline has come (R74). -/
def State.stallAt (s : State) (kind object : Nat) : State :=
  let st := s.stallOf kind object
  let s := s.stallClamp kind object
  if st.deadline ≤ s.now.toNat then s.raise (stallTrap st) else { s with hart.stall := some st }

/-- A scalar instruction stops short. -/
def State.halt (s : State) : Halt → State
  | .trap t => s.raise t
  | .stall k o => s.stallAt k o

/-! ### Asynchronous causes (R341, R344) -/

/-- The order in which pending asynchronous causes are taken (R344). -/
def asyncOrder : List Nat :=
  [95, 85, 92, 91, 86, 88, 87, 79, 81, 80, 84, 83, 82, 74, 75, 76, 78, 77, 93, 94, 89, 90]

/-- The pending cause that comes first (R344). -/
def firstPending (p : List Trap) : Option Trap :=
  (asyncOrder.filterMap fun c => p.find? fun t => t.code = c).head?

/-- Whether asynchronous causes are taken (R320). -/
def Hart.asyncEnabled (h : Hart) : Bool := h.priv == .user || h.status.ie

/-- A pending cause that is taken is pending no more, but for a `PREEMPT_REQUEST`, which stays pending until software clears
PEND (R320, R329, log 111). -/
def State.unpost (s : State) (t : Trap) : State :=
  if t.code = 79 && s.hart.pend then s else { s with hart.pending := s.hart.pending.erase t }

/-- A cause taken at a convoy boundary (R344): a claimed hart halts for the host on the debug causes instead (R426). -/
def State.takeAsync (s : State) (t : Trap) : State :=
  let s := s.unpost t
  if s.hart.claimed && (t.code = 86 || t.code = 87 || t.code = 88) then
    { (s.trace 4 s.hart.pc s.hart.words t.code) with hart.run := .halted }
  else s.enterTrap t s.hart.pc false

/-! ### Type state (R11, R180) -/

/-- Element type in force. -/
def Hart.et (h : Hart) : Nat := bits h.vtype 4 0
/-- Declared register count (R180). -/
def Hart.declared (h : Hart) : Nat := 32 / 2 ^ bits h.vtype 6 5
/-- Scale block size, 0 for none (R45, R180). -/
def Hart.sb (h : Hart) : Nat := match bits h.vtype 8 7 with | 0 => 0 | 1 => 16 | 2 => 32 | _ => 64
/-- `VTYPE`.MP. -/
def Hart.mp (h : Hart) : Bool := bitOf h.vtype 9
/-- `VTYPE`.TP. -/
def Hart.tp (h : Hart) : Bool := bitOf h.vtype 10
/-- `VTYPE`.AT. -/
def Hart.at_ (h : Hart) : Nat := bits h.vtype 13 11
/-- `VTYPE`.CM. -/
def Hart.cm (h : Hart) : Bool := bitOf h.vtype 14

/-- The groups that a hart owns, ascending (R13). -/
def groupsOf (lat : Vector (Option (BitVec 2)) 8) (k : Nat) : List Nat :=
  (enum lat.toList).filterMap fun p => if p.2 = some (BitVec.ofNat 2 k) then some p.1 else none

/-- Groups granted to the current hart, ascending (R13). -/
def State.groups (s : State) : List Nat := groupsOf (s.coreAt s.hart.core).lat s.hart.id

/-- `VLG` (R180). -/
def State.vlg (s : State) : Nat := s.groups.length

/-- Register width in bits for a grant and a `VTYPE` (R11). -/
def widthBits (groups : Nat) (h : Hart) : Nat := groups * 8 * 32768 / h.declared

/-- `MAXVL_bits` of the current hart (R11). -/
def State.maxBits (s : State) : Nat := widthBits s.vlg s.hart

/-- `MAXVL` for a grant and a `VTYPE` (R11); 0 under a reserved element type. -/
def maxvlOf (groups : Nat) (h : Hart) : Nat :=
  if etWidth h.et = 0 then 0 else widthBits groups h / etWidth h.et

/-- The bits of `VTYPE` that every vector-class instruction and `svl` depend on are reserved (R153). -/
def Hart.vtypeBad (h : Hart) : Bool := 19 ≤ h.et || h.vtype.toNat / 2 ^ 15 ≠ 0

/-! ### Lane grants (R13 to R16, R58) -/

/-- The effect of a changed group count on a hart (R14). A `VL` above the new MAXVL becomes MAXVL, by the model's choice
(log 122). -/
def grantChanged (groups : Nat) (h : Hart) : Hart :=
  { h with
    v := .replicate 32 0
    flying := .replicate 32 0
    status.vs := .initial
    maxvl := maxvlOf groups h
    vl := min h.vl (maxvlOf groups h)
    stale := false }

/-- Keys of a lane-private byte: core, lane, offset (R57). -/
def laneKey (core lane off : Nat) : Nat := (core * 64 + lane) * 8192 + off

/-- The SRAM of a lane group cleared (R58). -/
def clearGroup (m : Memory) (core g : Nat) : Memory :=
  m.filter fun c => decide (c.1 < laneKey core (8 * g) 0) || decide (laneKey core (8 * g + 8) 0 ≤ c.1)

/-- The groups that an allocation changes, changed in another one as well: a grant request under way keeps what was changed
since it was made (R337). -/
def mergeLat (old new req : Vector (Option (BitVec 2)) 8) : Vector (Option (BitVec 2)) 8 :=
  Vector.ofFn fun i => if new[i] = old[i] then req[i] else new[i]

/-- A core's LAT set: groups that pass to another owner have their SRAM cleared, and every hart whose count changes
takes the effects of R14 (R14, R58). -/
def State.setLat (s : State) (c : Nat) (new : Vector (Option (BitVec 2)) 8) : State :=
  let old := (s.coreAt c).lat
  let s := { s with lane := (List.range 8).foldl (fun m g =>
    if new.toList.getD g none ≠ none && new.toList.getD g none ≠ old.toList.getD g none
    then clearGroup m c g else m) s.lane }
  let s := s.modCore c fun k => { k with lat := new, latNew := k.latNew.map (mergeLat old new) }
  (List.range 4).foldl (fun s k =>
    if (groupsOf new k).length = (groupsOf old k).length then s
    else s.modHart (4 * c + k) (grantChanged (groupsOf new k).length)) s

/-- Owned groups of a core (R15, R339). -/
def ownedCount (lat : Vector (Option (BitVec 2)) 8) : Nat := (lat.toList.filter (·.isSome)).length

/-- Free groups that an instruction may still take on a core under the quota (R15). -/
def State.room (s : State) (lat : Vector (Option (BitVec 2)) 8) : Nat := s.part.quota - ownedCount lat

/-- Groups given to an owner, or freed. -/
def assign (lat : Vector (Option (BitVec 2)) 8) (gs : List Nat) (o : Option (BitVec 2)) :
    Vector (Option (BitVec 2)) 8 :=
  Vector.ofFn fun i => if gs.contains i.val then o else lat[i.val]

/-- `LATVIEW` (R328). -/
def latView (lat : Vector (Option (BitVec 2)) 8) : Nat :=
  (enum lat.toList).foldl (fun a p => match p.2 with
    | some o => a + (8 + o.toNat) * 16 ^ p.1
    | none => a) 0

/-! ### Time -/

/-- Every hart whose `SLICE` names a time that `NOW` has reached takes `TIME_SLICE` once (R329). -/
def sliceDue (now : Nat) (h : Hart) : Hart :=
  if h.sliceArmed && bitOf h.slice 63 && bits h.slice 47 0 ≤ now then
    { h with sliceArmed := false, pending := h.pending ++ [{ code := 81, tval := word (bits h.slice 47 0) }] }
  else h

/-- A flush that a 65th pair brought about and that nobody has answered by its deadline is latched (R100). -/
def overflowDue (now : Nat) (h : Hart) : Hart :=
  match h.overflow.find? fun q => decide (q.2.2 ≤ now) with
  | none => h
  | some q => { h with
      overflow := h.overflow.filter fun q => decide (now < q.2.2)
      sent := h.sent.filter fun p => h.overflow.all fun q => decide (now < q.2.2) || (q.1, q.2.1) != p.1
      latch := h.latch.orElse fun _ => some ⟨cFlushTimeout, q.1, q.2.1, q.2.2⟩ }

/-- What the passing of time brings a hart. -/
def Hart.due (now : Nat) (h : Hart) : Hart := overflowDue now (sliceDue now h)

/-- Domain time goes on by `n` ns (R111). -/
def State.pass (s : State) (n : Nat) : State :=
  let now := s.now + word n
  { s with
    now := now
    hart := s.hart.due now.toNat
    others := s.others.map fun p => (p.1, p.2.due now.toNat) }

end Sys2Proof.Machine
end

