-- ==== Sys2Proof/Machine/Home.lean ====
section
/-! DEFINITION. Memory as its homes hold it (R82, R434), queue descriptors and wake registers (R378 to R380), and the
casks at their homes: closure, locks, quorum and collective rounds, farms and queues (R117 to R137, R435). -/

namespace Sys2Proof.Machine

/-! ### Places -/

/-- Endpoint of a global physical address (R359). -/
def epOf (pa : Nat) : Endpoint := .ofNat 13 (pa / 2 ^ 44)

/-- Local offset of a global physical address (R359, R434). -/
def offOf (pa : Nat) : Nat := pa % 2 ^ 44

/-- Global physical address of an offset of an endpoint (R359). -/
def paOf (ep : Endpoint) (off : Nat) : Nat := ep.toNat * 2 ^ 44 + off % 2 ^ 44

/-- Die of the home of a local offset (R434). -/
def dieOf (off : Nat) : Die := if off < 0x9000000000 then .ofNat 3 (off / 0xC00000000 / 3) else 4

/-- The hub window (R434). -/
def inHub (off : Nat) : Bool := 0xF0000000000 ≤ off && off < 0xF0000200000

/-- Whether a local offset of this endpoint backs memory or a register (R434, R427). -/
def State.backed (s : State) (off : Nat) : Bool :=
  (off < 0x9000000000 && !s.boot.stacksOut.contains (off / 0xC00000000))
    || (0x10000000000 ≤ off && off < 0x28000000000
        && !s.boot.packagesOut.contains ((off - 0x10000000000) / 0x1800000000))
    || inHub off

/-- Key of a scratchpad byte: module core and offset (R327). -/
def spadKey (core off : Nat) : Nat := core * 2 ^ 21 + off

end Sys2Proof.Machine

namespace Sys2Proof

/-- A number that names a cask, for the tables of the homes. -/
def Loc.key : Loc → Nat
  | .glob pa => pa
  | .spad c o => 2 ^ 57 + (c * 2 ^ 21 + o)

/-- A place further on. -/
def Loc.plus : Loc → Nat → Loc
  | .glob pa, n => .glob (pa + n)
  | .spad c o, n => .spad c (o + n)

end Sys2Proof

namespace Sys2Proof.Machine

/-! ### Queue descriptors (R379) -/

/-- Hub offset of the wake register and of the descriptor of a queue (R379, R380). -/
def wakeOff (q : Nat) : Nat := 0xF0000000000 + q * 64
def descOff (q : Nat) : Nat := 0xF0000100000 + q * 64

/-- A queue's descriptor. -/
def State.queue (s : State) (q : Nat) : Queue := Tbl.get {} s.queues q
def State.modQueue (s : State) (q : Nat) (f : Queue → Queue) : State :=
  { s with queues := Tbl.set {} s.queues q (f (s.queue q)) }

/-- Effective level (R384). -/
def Queue.level (q : Queue) (now : Nat) : Nat :=
  if q.pend && q.agemax ≠ 0 then min 7 (q.prio + (now - q.wait) / (q.agemax * 1000)) else q.prio

/-- Doubleword `dw` of a descriptor (R379). -/
def Queue.dword (q : Queue) (now dw : Nat) : Nat :=
  match dw with
  | 0 => q.v.toNat * 2 ^ 63 + q.pub.toNat * 2 ^ 62 + q.cls.toNat * 2 ^ 61 + q.cask / 64 * 64 + q.prio
  | 1 => q.weight * 2 ^ 40 + q.agemax
  | 2 => q.budget
  | 3 => q.spent
  | 4 => q.nen.toNat * 2 ^ 63 + q.nhart
  | 5 => q.pend.toNat * 2 ^ 63 + q.exh.toNat * 2 ^ 62 + q.stg.toNat * 2 ^ 61 + q.level now * 2 ^ 58 + q.wait % 2 ^ 48
  | 6 => q.vf * 2 ^ 8 + q.part
  | _ => 0

/-- A store of a doubleword to a descriptor: fields marked R ignore it, a WEIGHT of 0 stores 1, and a V that goes from 0
to 1 sets the credit to WEIGHT (R379, R383). -/
def Queue.write (q : Queue) (dw : Nat) (v : Nat) : Queue :=
  match dw with
  | 0 =>
    let q' := { q with
      v := bit v 63, pub := bit v 62, cls := bit v 61, cask := field v 56 6 * 64, prio := field v 2 0 }
    if !q.v && q'.v then { q' with credit := q'.weight } else q'
  | 1 => { q with weight := max 1 (field v 47 40), agemax := field v 31 0 }
  | 2 => { q with budget := field v 31 0 }
  | 4 => { q with nen := bit v 63, nhart := field v 10 0 }
  | _ => q

/-! ### Bytes at their homes -/

/-- One byte of the hub window: a descriptor's, or 0 for a wake register (R379, R380). -/
def State.hubByte (s : State) (off : Nat) : Byte :=
  if off < 0xF0000100000 then 0
  else
    let r := off - 0xF0000100000
    .ofNat 8 ((s.queue (r / 64)).dword s.now.toNat (r % 64 / 8) / 2 ^ (8 * (r % 8)))

/-- One byte at its home. -/
def State.homeByte (s : State) : Loc → Byte
  | .glob pa => if epOf pa = s.endpt && inHub (offOf pa) then s.hubByte (offOf pa) else s.mem.read pa
  | .spad c o => s.spad.read (spadKey c o)

/-- Bytes at their home. -/
def State.homeRead (s : State) (l : Loc) : Nat → List Byte
  | 0 => []
  | n + 1 => s.homeByte l :: s.homeRead (l.plus 1) n

/-- The bad bytes outside a range. -/
def goodRange (bad : List Nat) (a n : Nat) : List Nat := bad.filter fun b => decide (b < a) || decide (a + n ≤ b)

/-- Bytes of memory or scratchpad set at their home; a byte written anew holds no error (log 25). -/
def State.homeSet (s : State) (l : Loc) (bs : List Byte) : State :=
  match l with
  | .glob pa => { s with mem := s.mem.writeN pa bs, badMem := goodRange s.badMem pa bs.length }
  | .spad c o => { s with
      spad := s.spad.writeN (spadKey c o) bs
      badSpad := goodRange s.badSpad (spadKey c o) bs.length }

/-- A doubleword at its home. -/
def State.home64 (s : State) (l : Loc) : Nat := leNat (s.homeRead l 8)
def State.setHome64 (s : State) (l : Loc) (v : Nat) : State := s.homeSet l (leBytes v 8)

/-- Whether a byte of a place holds an uncorrectable error (R165, R122). -/
def State.isBad (s : State) (l : Loc) (n : Nat) : Bool :=
  match l with
  | .glob pa => s.badMem.any fun b => decide (pa ≤ b) && decide (b < pa + n)
  | .spad c o => s.badSpad.any fun b => decide (spadKey c o ≤ b) && decide (b < spadKey c o + n)

/-! ### Status words (R115) -/

/-- CODE, DETAIL, TAG and COUNT in one word. -/
def statusWord (code detail tag count : Nat) : Word :=
  word (code * 2 ^ 56 + detail % 256 * 2 ^ 48 + tag % 2 ^ 32 * 2 ^ 16 + count % 2 ^ 16)

/-! ### The header and the areas of a cask (R118 to R120) -/

/-- A cask header (R118). -/
structure Header where
  op : Nat
  last : Nat
  eager : Bool
  exonce : Bool
  et : Nat
  wr : Nat
  lag : Nat
  k : Nat
  n : Nat
  dmg : Bool
  scope : Nat
  kind : Nat
deriving DecidableEq, Repr

/-- The header of a cask (R118). -/
def State.header (s : State) (l : Loc) : Header :=
  let h := s.home64 l
  { op := field h 59 56, last := field h 55 52, eager := bit h 50, exonce := bit h 49, et := field h 48 44,
    wr := field h 43 42, lag := field h 41 40, k := field h 39 24, n := field h 23 8, dmg := bit h 7,
    scope := field h 6 4, kind := field h 3 0 }

/-- The guard before a deadline (R123). -/
def guard (scope : Nat) : Nat :=
  match scope with | 0 => 100 | 1 => 100 | 2 => 200 | 3 => 1400 | _ => 3000

/-- The scope that a code names (R93). -/
def scopeOfCode : Nat → Scope
  | 0 => .hart | 1 => .core | 2 => .cluster | 3 => .device | _ => .domain

/-- The configuration cause of a cask kind (R118). -/
def kindCause (kind : Nat) : Nat :=
  match kind with
  | 3 => cQuorumConfig | 4 => cFarmConfig | 5 => cQueueConfig | 6 => cCollectiveConfig | _ => cBarrierConfig

/-- Whether an area of `len` bytes at an offset lies within the cask's block (R120). -/
def areaOk (l : Loc) (off len : Nat) : Bool :=
  off % 64 = 0 && match l with
    | .glob pa => pa % 65536 + off + len ≤ 65536
    | .spad _ o => o + off + len ≤ 0x180000

/-- Bytes of one roster bitmap (R120). -/
def bitmapBytes (n : Nat) : Nat := ceilDiv (ceilDiv n 8) 64 * 64

/-- Where the `i`-th bitmap of a cask lies: inline in its own doubleword, or in the roster (R119, R120). -/
def State.bitmapLoc (s : State) (l : Loc) (h : Header) (i : Nat) : Loc :=
  if h.n ≤ 64 then l.plus (24 + 8 * i)
  else l.plus (s.home64 (l.plus 24) % 2 ^ 32 + i * bitmapBytes h.n)

/-- Which bitmap holds LASTABS, by kind (R119). -/
def lastAbsIndex (kind : Nat) : Nat := if kind = 3 then 3 else 1

/-- A bitmap of N bits. -/
def State.bitmap (s : State) (l : Loc) (h : Header) (i : Nat) : Nat :=
  leNat (s.homeRead (s.bitmapLoc l h i) (if h.n ≤ 64 then 8 else bitmapBytes h.n)) % 2 ^ h.n
def State.setBitmap (s : State) (l : Loc) (h : Header) (i v : Nat) : State :=
  s.homeSet (s.bitmapLoc l h i) (leBytes (v % 2 ^ h.n) (if h.n ≤ 64 then 8 else bitmapBytes h.n))

/-- How many bitmaps the roster of a kind holds (R119). -/
def bitmapCount (kind : Nat) : Nat := match kind with | 2 => 1 | 3 => 4 | _ => 2

/-- Slot size of an accumulator by element type; 0 where there is none (R120). -/
def slotBytes (et : Nat) : Nat :=
  match et with | 9 => 48 | 10 => 48 | 11 => 48 | 4 => 8 | 5 => 8 | 15 => 8 | 16 => 8 | _ => 0

/-- Whether the fields of a header and the areas they name are in range (R118, R120, R128). -/
def State.configOk (s : State) (l : Loc) (h : Header) : Bool :=
  let roster := h.n ≤ 64 || areaOk l (s.home64 (l.plus 24) % 2 ^ 32) (bitmapCount h.kind * bitmapBytes h.n)
  let acc := s.home64 (l.plus 56)
  let accOk := slotBytes h.et ≠ 0
    && areaOk l (acc % 2 ^ 32) (acc / 2 ^ 32 * (2 * slotBytes h.et + etWidth h.et / 8))
  let opOk := (1 ≤ h.op && h.op ≤ 3) || (4 ≤ h.op && h.op ≤ 6 && etInt h.et)
  h.scope ≤ 4 && match h.kind with
    | 1 => 1 ≤ h.n && roster
    | 2 => 1 ≤ h.n && roster
    | 3 => 1 ≤ h.n && 1 ≤ h.k && h.k ≤ h.n && h.lag ≤ 2 && h.wr ≤ 2 && roster && accOk && opOk
        && !(h.wr = 1 && (etInt h.et || etRns h.et))
    | 4 => true
    | 5 =>
      let size := s.home64 (l.plus 16) % 2 ^ 17
      1 ≤ size && size ≤ 65536 && 2 ^ msb size = size && areaOk l (s.home64 (l.plus 8) % 2 ^ 32) (64 * size)
    | 6 => 1 ≤ h.n && 1 ≤ h.k && h.k ≤ h.n && h.lag ≤ 2 && h.wr ≤ 2 && roster && accOk && opOk
    | _ => false

/-- An answer sent to another endpoint. -/
def State.reply (s : State) (r : Reply) : State := { s with replies := s.replies ++ [r] }

/-- An answer for a waiting hart. -/
def State.answerHart (s : State) (id : Nat) (l : Loc) (a : Answer) : State :=
  s.modHart id fun h => match h.wait with
    | some w => if w.cask = some l && w.answer.isNone then { h with wait := some { w with answer := some a } } else h
    | none => h

/-- An answer for a waiter: its hart takes it, or it is sent to another endpoint, with the strip or the entry after the
status. -/
def State.answerWaiter (s : State) (w : HomeWaiter) (a : Answer) : State :=
  match w.hart with
  | some id => s.answerHart id w.cask a
  | none =>
    let t := s.reply (.status a.status (a.absent.getD 0))
    match w.verb with
    | .strip => t.reply (.data (leBytes a.strip.toNat 8))
    | .recv => if a.data = [] then t else t.reply (.data a.data)
    | _ => t

/-- One answer to everybody who waits on a cask. -/
def State.answerAll (s : State) (l : Loc) (a : Answer) : State :=
  let foreign := s.waiters.filter fun w => w.cask = l && w.hart.isNone
  let t := foreign.foldl (fun t w => t.answerWaiter w a) { s with waiters := s.waiters.filter fun w => w.cask ≠ l }
  (s.harts.map (·.id)).foldl (fun t id => t.answerHart id l a) t

/-- DMG set in a cask: every wait on it returns DAMAGED (R122). -/
def State.damage (s : State) (l : Loc) : State :=
  let h := s.home64 l
  (if bit h 7 then s else s.setHome64 l (h + 2 ^ 7)).answerAll l
    { status := statusWord 5 0 0 0xFFFF, absent := none, n := 0, tag := 0, scope := field h 6 4 }

/-- The areas of a cask, as far as its offsets name any (R119, R120). -/
def State.caskAreas (s : State) (l : Loc) (h : Header) : List (Nat × Nat) :=
  let roster := if 64 < h.n then [(s.home64 (l.plus 24) % 2 ^ 32, bitmapCount h.kind * bitmapBytes h.n)] else []
  let acc := s.home64 (l.plus 56)
  match h.kind with
  | 1 => roster
  | 2 => roster
  | 4 => [(s.home64 (l.plus 40) % 2 ^ 32, 16 * (s.home64 (l.plus 8) % 2 ^ 32))]
  | 5 => [(s.home64 (l.plus 8) % 2 ^ 32, 64 * (s.home64 (l.plus 16) % 2 ^ 17))]
  | _ => roster ++ [(acc % 2 ^ 32, acc / 2 ^ 32 * (2 * slotBytes h.et + etWidth h.et / 8))]

/-- Whether an uncorrectable error lies in a cask or in one of its areas (R122). -/
def State.caskError (s : State) (l : Loc) : Bool :=
  s.isBad l 64 || (s.caskAreas l (s.header l)).any fun a => areaOk l a.1 a.2 && s.isBad (l.plus a.1) a.2

/-- Whether a cask is damaged: DMG is set, or the home is to set it (R122). The spec does not say which header is inconsistent:
beside a round tag ahead of ROUND (R124) and a strip of ST 3 (R132) the model finds none (log 118). -/
def State.caskBad (s : State) (l : Loc) : Bool := (s.header l).dmg || s.caskError l

/-- An uncorrectable error found by the home is recorded in DMG (R122). -/
def State.noteDamage (s : State) (l : Loc) : State := if s.caskError l then s.damage l else s

/-- The reserved fields of a cask of a kind of R118, which read as zero whatever was stored (R4, R118, R119; log 80). -/
def State.tidy (s : State) (l : Loc) : State :=
  let h := s.home64 l
  let fields := match h % 16 with
    | 1 => [40, 48, 56]
    | 2 => [40, 48, 56]
    | 3 => []
    | 4 => [48, 56]
    | 5 => [48, 56]
    | 6 => [48]
    | _ => []
  let s := if field h 63 60 = 0 && !bit h 51 then s else s.setHome64 l (splice (splice h 60 4 0) 51 1 0)
  fields.foldl (fun s o => if s.home64 (l.plus o) = 0 then s else s.setHome64 (l.plus o) 0) s

/-- The open round and the round deadline (R119). -/
def State.roundTag (s : State) (l : Loc) : Nat := s.home64 (l.plus 8) % 2 ^ 48

/-- The greatest round tag, which is not stepped (R124). -/
abbrev lastTag : Nat := 2 ^ 48 - 1

/-- Whether the round of the greatest tag has closed, so that the cask stays closed (R124). -/
def State.sealed (s : State) (l : Loc) : Bool := s.roundTag l = lastTag && (Tbl.get {} s.homes l.key).sealed

/-- The tag after that of the last closed round: ROUND, which stays at the greatest tag once that has closed (R124). -/
def State.openRound (s : State) (l : Loc) : Nat := if s.sealed l then lastTag + 1 else s.roundTag l
def State.roundDeadline (s : State) (l : Loc) : Nat := s.home64 (l.plus 16)

/-- All ones: no deadline (R119). -/
abbrev noDeadline : Nat := 2 ^ 64 - 1

/-- Every member's bit. -/
def allMembers (n : Nat) : Nat := 2 ^ n - 1

/-- Members of a bitmap that are not in another. -/
def without (x y : Nat) : Nat := x - (x &&& y)

/-- The joined members: for a quorum those whose lag counter is not 3, else everyone (R127). -/
def State.joined (s : State) (l : Loc) (h : Header) : Nat :=
  if h.kind = 3 then without (allMembers h.n) (s.bitmap l h 1 &&& s.bitmap l h 2) else allMembers h.n

/-! ### Accumulator slots (R128 to R130) -/

/-- What a home keeps of a cask (R129). -/
def State.homeRec (s : State) (l : Loc) : HomeRecord := Tbl.get {} s.homes l.key
def State.modHome (s : State) (l : Loc) (f : HomeRecord → HomeRecord) : State :=
  { s with homes := Tbl.set {} s.homes l.key (f (s.homeRec l)) }

/-- Where slot `i` of a half lies (R120). -/
def State.slotLoc (s : State) (l : Loc) (et : Nat) (half : Bool) (i : Nat) : Loc :=
  let acc := s.home64 (l.plus 56)
  l.plus (acc % 2 ^ 32 + (half.toNat * (acc / 2 ^ 32) + i) * slotBytes et)

/-- Weight of a slot's lowest bit, as an exponent (R128). -/
def slotUnit (et : Nat) : Int := match et with | 9 => -151 | 10 => -135 | _ => -26

/-- A finite value in units of a slot's lowest bit, rounded under RNE, and IX when bits are lost (R128). -/
def slotUnits (et : Nat) (neg : Bool) (m : Nat) (e : Int) : Int × Nat :=
  let r := roundInt 0 0 neg m (e - slotUnit et) false
  (r.1, if r.2 then fIX else 0)

/-- A slot saturated at its largest magnitude, and OF when it is (R128). -/
def slotClamp (v : Int) : Int × Nat :=
  if (2 ^ 383 - 1 : Nat) < v.natAbs then ((if v < 0 then -(2 ^ 383 - 1 : Nat) else (2 ^ 383 - 1 : Nat)), fOF)
  else (v, 0)

/-- Whether a special value gives way to any number: a NaN under MAX and MIN, and the infinity that MAX or MIN never
takes beside a number (R128). -/
def givesWay (op special : Nat) : Bool :=
  op ≠ 1 && (special = 3 || (op = 2 && special = 2) || (op = 3 && special = 1))

/-- Special values that a slot holds beside its number: 1 for +∞, 2 for −∞, 3 for NaN. -/
def combineSpecial (op old new : Nat) : Nat :=
  if old = 0 then new else if new = 0 then old
  else match op with
    | 1 => if old = new then old else 3
    | 2 => if old = 3 then new else if new = 3 then old else min old new
    | _ => if old = 3 then new else if new = 3 then old else max old new

/-- One contribution combined into a slot of the current half; the first contribution of a round stands as it is
(R128, log 23). `x` is the element's code, `k` the power of two that divides it (R130), `sc` that of its scale. -/
def State.addSlot (s : State) (l : Loc) (h : Header) (i x : Nat) (k : Nat) (sc : Int) : State :=
  let r := s.homeRec l
  let at_ := s.slotLoc l h.et r.half i
  let first := !r.filled.contains i
  let s := s.modHome l fun r => if first then { r with filled := r.filled ++ [i] } else r
  if etFloat h.et then
    let old := signed 384 (leNat (s.homeRead at_ 48))
    let oldSp := (r.special.find? fun p => p.1 = i).elim 0 (·.2)
    match (fmtOf h.et).decode x with
    | .fin neg m e _ =>
      let v := slotUnits h.et neg m (e + sc - k)
      let c : Int × Nat :=
        if first then v
        else match h.op with
          | 1 => (old + v.1, v.2)
          | 2 => (max old v.1, v.2)
          | _ => (min old v.1, v.2)
      let c' := slotClamp c.1
      let s := s.modHome l fun r => { r with
        flags := r.flags ||| c.2 ||| c'.2
        special := if givesWay h.op oldSp then r.special.filter (·.1 ≠ i) else r.special }
      s.homeSet at_ (leBytes (wrap 384 (if givesWay h.op oldSp then v.1 else c'.1)) 48)
    | v =>
      let code := match v with | .inf false => 1 | .inf true => 2 | _ => 3
      let keep := h.op ≠ 1 && !first
      let new := if keep && code = 3 then oldSp
        else if keep && oldSp = 0 && ((h.op = 2 && code = 2) || (h.op = 3 && code = 1)) then 0
        else combineSpecial h.op oldSp code
      s.modHome l fun r => { r with
        special := (r.special.filter (·.1 ≠ i)) ++ (if new = 0 then [] else [(i, new)]) }
  else
    let old := leNat (s.homeRead at_ 8)
    let new :=
      if etRns h.et then
        if first then x
        else match h.op with
          | 1 => rnsOp h.et (fun a b _ => a + b) old x 0
          | 2 => if rnsValue h.et old < rnsValue h.et x then x else old
          | _ => if rnsValue h.et x < rnsValue h.et old then x else old
      else
        let o := old % 2 ^ 32
        let y := x % 2 ^ 32
        if first then y
        else match h.op with
          | 1 => (o + y) % 2 ^ 32
          | 2 => if intOf h.et o < intOf h.et y then y else o
          | 3 => if intOf h.et y < intOf h.et o then y else o
          | 4 => o &&& y
          | 5 => o ||| y
          | _ => o ^^^ y
    s.homeSet at_ (leBytes new 8)

/-- The result element of a slot, rounded once under RNE into ET, with its flags (R129, R43). -/
def State.slotResult (s : State) (l : Loc) (h : Header) (half : Bool) (i : Nat) (special : List (Nat × Nat)) :
    Nat × Nat :=
  let at_ := s.slotLoc l h.et half i
  if etFloat h.et then
    let v := signed 384 (leNat (s.homeRead at_ 48))
    let f := fmtOf h.et
    match (special.find? fun p => p.1 = i).elim 0 (·.2) with
    | 1 => f.round 0 0 false (.inf false) 0
    | 2 => f.round 0 0 false (.inf true) 0
    | 3 => f.round 0 0 false (.nan false) 0
    | _ => f.round 0 0 false (.fin (decide (v < 0)) v.natAbs (slotUnit h.et) false) 0
  else (leNat (s.homeRead at_ 8) % 2 ^ etWidth h.et, 0)

/-- An ALL closure of the slots: the halves exchange roles, the closing half is rounded into the result elements and
zeroed; the flags of that rounding are given back (R129). -/
def State.closeSlots (s : State) (l : Loc) (h : Header) : State × Nat :=
  let r := s.homeRec l
  let acc := s.home64 (l.plus 56)
  let e := acc / 2 ^ 32
  let w := etWidth h.et / 8
  let base := acc % 2 ^ 32 + 2 * e * slotBytes h.et
  let out := (List.range e).foldl (fun (p : State × Nat) i =>
    let v := p.1.slotResult l h r.half i r.special
    ((p.1.homeSet (l.plus (base + i * w)) (leBytes v.1 w)), p.2 ||| v.2)) (s, r.flags)
  let zeroed := out.1.homeSet (s.slotLoc l h.et r.half 0) (List.replicate (e * slotBytes h.et) 0)
  (zeroed.modHome l fun r => { half := !r.half, chunks := r.chunks }, out.2)

/-! ### Closing a round (R123 to R136) -/

/-- The record of a round to one member: to its wait, or into its slot, or into its parked entry (R123, R267, R335). A `barr`
that awaits its home does not wait for the closure, so that the record goes into the slot (R272). -/
def Hart.takeRecord (l : Loc) (index : Nat) (r : Record) (n scope : Nat) (h : Hart) : Hart :=
  match h.members.find? fun m => m.cask = l && m.index = index with
  | none => h
  | some _ =>
    let a : Answer := { status := r.status, absent := some r.absent, n := n, tag := r.tag, scope := scope }
    match h.wait with
    | some w =>
      if w.cask = some l && w.answer.isNone && !w.barr then { h with wait := some { w with answer := some a } }
      else { h with members := h.members.map fun m =>
        if m.cask = l && m.index = index then { m with slot := some r } else m }
    | none => { h with members := h.members.map fun m =>
        if m.cask = l && m.index = index then { m with slot := some r } else m }

/-- A record written into a parked membership entry (R327, R267). -/
def State.recordParked (s : State) (area slot : Nat) (r : Record) (n : Nat) : State :=
  let a := area + 0x40 + 64 * slot
  let s := s.setHome64 (.glob (a + 32)) r.status.toNat
  let s := s.setHome64 (.glob (a + 40)) (2 ^ 63 + r.tag % 2 ^ 48)
  if n ≤ 64 then s.setHome64 (.glob (a + 48)) r.absent else s

/-- Whether a hart waits for a closure of a cask and has no answer yet. -/
def Hart.waitsOn (h : Hart) (l : Loc) : Bool := h.wait.elim false fun w => w.cask = some l && w.answer.isNone && !w.barr

/-- A record delivered to every present member of this module, and to those that wait without having arrived (R123, R273). -/
def State.deliver (s : State) (l : Loc) (present : Nat) (r : Record) (n scope : Nat) : State :=
  let parked := s.harts.foldl (fun s h => (h.parked.filter fun p => p.cask = l).foldl (fun s p =>
    if bit present (s.home64 (.glob (p.area + 0x40 + 64 * p.slot + 8)) % 2 ^ 16) then s.recordParked p.area p.slot r n
    else s) s) s
  (s.harts.map (·.id)).foldl (fun s id => ((s.hartAt id).members.filter fun m =>
      m.cask = l && (bit present m.index || (s.hartAt id).waitsOn l)).foldl
    (fun s m => s.modHart id (Hart.takeRecord l m.index r n scope)) s) parked

/-- The lag counters after a closure (R131). -/
def State.stepLags (s : State) (l : Loc) (h : Header) (present : Nat) : State :=
  let l0 := s.bitmap l h 1
  let l1 := s.bitmap l h 2
  let next := fun i =>
    let c := (bit l1 i).toNat * 2 + (bit l0 i).toNat
    if c = 3 then 3 else if bit present i then 0 else if h.lag < c + 1 then 3 else c + 1
  let plane := fun b => (List.range h.n).foldl (fun a i => if bit (next i) b then a + 2 ^ i else a) 0
  (s.setBitmap l h 1 (plane 0)).setBitmap l h 2 (plane 1)

/-- Whether a chunk can be written at a target: no error strikes the write (R136). -/
def State.chunkFits (s : State) (c : ChunkTarget) : Bool :=
  let ep := epOf c.addr
  !s.isBad (.glob c.addr) c.bytes && if ep = s.endpt then s.backed (offOf c.addr)
    else !s.down.contains ep && !s.exhausted.contains ep && !s.silent.contains ep

/-- The chunk results of a collective round, written to the address that each present member gave; a chunk whose write an
error strikes at one member is written at none (R136). -/
def State.writeChunks (s : State) (l : Loc) (h : Header) : State :=
  let present := s.bitmap l h 0
  let acc := s.home64 (l.plus 56)
  let w := etWidth h.et / 8
  let base := acc % 2 ^ 32 + 2 * (acc / 2 ^ 32) * slotBytes h.et
  let all := (s.homeRec l).chunks
  let struck := (all.filter fun c => bit present c.member && !s.chunkFits c).map (·.chunk)
  let got := all.filter fun c => !struck.contains c.chunk
  let s := (got.filter fun c => bit present c.member).foldl (fun s c =>
    s.homeSet (.glob c.addr) (s.homeRead (l.plus (base + c.slot * w)) c.bytes)) s
  let done := got.foldl (fun a c => a ||| 2 ^ c.chunk) 0
  (s.setHome64 (l.plus 40) done).modHome l fun r => { r with chunks := [] }

/-- The record of a round to the waiting members of other endpoints, who then wait no more (R123). -/
def State.releaseForeign (s : State) (l : Loc) (r : Record) : State :=
  let at_ := s.waiters.filter fun w => w.cask = l
  let t := (at_.filter (·.hart.isNone)).foldl (fun t _ => t.reply (.status r.status r.absent)) s
  { t with waiters := s.waiters.filter fun w => w.cask ≠ l }

/-- The round of a cask closes (R123): the record is written and delivered, ROUND steps, DEADLINE becomes all ones. -/
def State.closeRound (s : State) (l : Loc) (all : Bool) : State :=
  let h := s.header l
  let c := s.roundTag l
  if s.sealed l then s else
  let present := s.bitmap l h 0
  let lock := s.home64 (l.plus 32)
  let absent :=
    if h.kind = 2 then 2 ^ (field lock 47 32) else without (s.joined l h) present
  let code := if all then 0 else 1
  let sums := h.kind = 3 || h.kind = 6
  let closed := if all && sums then s.closeSlots l h else (s, 0)
  let s := if sums then closed.1.modHome l fun r => { r with detail := closed.2 % 64 } else closed.1
  let s := if h.kind = 6 then (if all then s.writeChunks l h else s.setHome64 (l.plus 40) 0) else s
  let count := popcount absent h.n
  let r : Record := ⟨statusWord code (closed.2 % 64) c count, c, absent⟩
  let s := if h.kind = 2 then s else s.setBitmap l h (lastAbsIndex h.kind) absent
  let hdr := s.home64 l
  let s := s.setHome64 l (splice hdr 52 4 code)
  let s := s.setHome64 (l.plus 8) (min (c + 1) lastTag + popcount present h.n * 2 ^ 48)
  let s := if c = lastTag then s.modHome l fun r => { r with sealed := true } else s
  let s := s.setHome64 (l.plus 16) noDeadline
  let s := if h.kind = 3 then s.stepLags l h present else s
  let keep := if sums && !all then (s.homeRec l).makers.foldl (fun a m => a ||| 2 ^ m) 0 &&& s.joined l h else 0
  let s := s.setBitmap l h 0 keep
  let s := if h.kind = 2 then s.setHome64 (l.plus 32) (splice lock 50 1 1) else s
  (s.releaseForeign l r).deliver l present r h.n h.scope

/-- Whether the completion condition of the kind holds (R125, R127). -/
def State.complete (s : State) (l : Loc) (h : Header) : Bool :=
  let present := s.bitmap l h 0
  match h.kind with
  | 1 => present = allMembers h.n
  | 3 => without (s.joined l h) present = 0 || (h.eager && h.k ≤ popcount present h.n)
  | 6 => without (s.joined l h) present = 0
  | _ => false

/-- The round closes, and the next one at once when the members whose contributions are kept are all that it lacks (R127,
R129). -/
def State.closeRounds (s : State) (l : Loc) (all : Bool) : State :=
  let t := s.closeRound l all
  if t.bitmap l (t.header l) 0 ≠ 0 && t.complete l (t.header l) then t.closeRound l true else t

/-- The round closes if its condition holds or its time has come (R123). The waiters' round of a free lock never
closes (R126). -/
def State.settle (s : State) (l : Loc) : State :=
  let h := s.header l
  let held := h.kind ≠ 2 || bit (s.home64 (l.plus 32)) 48
  if h.kind ∉ [1, 2, 3, 6] || h.dmg then s
  else if s.complete l h then s.closeRounds l true
  else if held && s.roundDeadline l ≠ noDeadline && s.roundDeadline l ≤ s.now.toNat + guard h.scope then
    s.closeRounds l ((h.kind = 3 || h.kind = 6) && h.k ≤ popcount (s.bitmap l h 0) h.n)
  else s

/-- Whether the round's closure time has come, so that it has closed before the next operation. -/
def State.catchUp (s : State) (l : Loc) : State :=
  let h := s.header l
  let held := h.kind ≠ 2 || bit (s.home64 (l.plus 32)) 48
  if h.kind ∈ [1, 2, 3, 6] && !h.dmg && held && s.roundDeadline l ≠ noDeadline
      && s.roundDeadline l ≤ s.now.toNat + guard h.scope
  then s.settle l else s

/-- The record of the last closed round, as LATE or a later wait returns it (R124, R273). That of a lock names the holder
(R126), as LOCK does now (log 81). -/
def State.lastRecord (s : State) (l : Loc) (h : Header) (code detail : Nat) : Record :=
  let absent := if h.kind = 2 then 2 ^ field (s.home64 (l.plus 32)) 47 32 else s.bitmap l h (lastAbsIndex h.kind)
  let tag := s.openRound l - 1
  ⟨statusWord code detail tag (popcount absent h.n), tag, absent⟩

/-- What a wait for a round that has closed gets: the record of its own round, if no later one has closed, and else LATE with
the last one (R273). -/
def State.passedRound (s : State) (l : Loc) (tag : Nat) : Record :=
  let k := s.openRound l
  let h := s.header l
  if tag + 1 = k then s.lastRecord l h h.last (s.homeRec l).detail else s.lastRecord l h 2 (min (k - 1 - tag) 255)

/-- How an arrival fares (R124). -/
inductive Arrival where
  | counted (round : Nat) | late (round : Nat) (r : Record) | damaged | wrapped | evicted
deriving DecidableEq, Repr

/-- A member arrives with its round tag and, if it is to present one, a deadline (R124, R272). -/
def State.arrive (s : State) (l : Loc) (index tag : Nat) (deadline : Option Nat) : State × Arrival :=
  let s := s.catchUp l
  let h := s.header l
  let c := s.roundTag l
  if s.sealed l then (s, .wrapped)
  else if h.kind = 3 && !bit (s.joined l h) index then (s, .evicted)
  else if c < tag then (s.damage l, .damaged)
  else
    let rec_ := s.lastRecord l h 2 (min (c - 1 - tag) 255)
    let s := s.setBitmap l h 0 (s.bitmap l h 0 ||| 2 ^ index)
    let s := match deadline with
      | some d => s.setHome64 (l.plus 16) (min d (s.roundDeadline l))
      | none => s
    if tag = c then (s.settle l, .counted c) else (s.settle l, .late c rec_)

/-! ### Locks (R126, R275 to R279) -/

/-- LOCK as its fields: GEN, HOLDER, HELD, REPAIRED, SUSPECT (R119, R276). -/
structure Lock where
  gen : Nat
  holder : Nat
  held : Bool
  repaired : Bool
  suspect : Bool
deriving DecidableEq, Repr

def State.lock (s : State) (l : Loc) : Lock :=
  let v := s.home64 (l.plus 32)
  ⟨field v 31 0, field v 47 32, bit v 48, bit v 49, bit v 50⟩
def State.setLock (s : State) (l : Loc) (k : Lock) : State :=
  s.setHome64 (l.plus 32) (k.gen % 2 ^ 32 + k.holder % 2 ^ 16 * 2 ^ 32 + k.held.toNat * 2 ^ 48
    + k.repaired.toNat * 2 ^ 49 + k.suspect.toNat * 2 ^ 50)

/-- The waiter of lowest index above `i`, cyclically (R126). -/
def nextWaiter (waiters n i : Nat) : Option Nat :=
  ((List.range n).map fun k => (i + 1 + k) % n).find? fun k => bit waiters k

/-- A lock handed to a waiter, whose `acq` receives ALL, which is no closure record (R124, R278). -/
def State.handOver (s : State) (l : Loc) (index gen : Nat) : State :=
  let h := s.header l
  let a : Answer := { status := statusWord 0 0 gen 0, absent := none, n := h.n, tag := gen, scope := h.scope }
  let mine := fun (w : HomeWaiter) => w.cask = l && w.index = index
  let away := s.waiters.any fun w => mine w && w.hart.isNone
  let s := { s with waiters := s.waiters.filter fun w => !mine w }
  let s := if away then s.reply (.status a.status 0) else s
  (s.harts.map (·.id)).foldl (fun s id => s.modHart id fun hh =>
    match hh.wait, hh.members.find? fun m => m.cask = l && m.index = index with
    | some w, some _ => if w.cask = some l && w.answer.isNone
        then { hh with wait := some { w with answer := some a } } else hh
    | _, _ => hh) s

/-- `rel` at the home (R126, R278): the new state, the code, the tag, and whether the caller is no holder. -/
def State.releaseLock (s : State) (l : Loc) (index gen : Nat) : State × Nat × Nat × Bool :=
  let s := s.catchUp l
  let k := s.lock l
  let h := s.header l
  if gen ≠ k.gen then (s, 4, k.gen, false)
  else if !k.held || k.holder ≠ index then (s, 0, k.gen, true)
  else
    let waiters := s.bitmap l h 0
    match nextWaiter waiters h.n index with
    | some m =>
      let s := s.setBitmap l h 0 (without waiters (2 ^ m))
      ((s.setLock l { k with holder := m, repaired := false, suspect := false }).handOver l m k.gen, 0, k.gen, false)
    | none => (s.setLock l { k with held := false, repaired := false, suspect := false }, 0, k.gen, false)

/-- `mend` at the home (R277): code and tag. -/
def State.mendLock (s : State) (l : Loc) (index tag : Nat) : State × Nat × Nat :=
  let k := s.lock l
  if tag + 1 ≠ s.openRound l || !k.suspect || !k.held then (s, 4, k.gen)
  else
    let g := (k.gen + 1) % 2 ^ 32
    (s.setLock l { gen := g, holder := index, held := true, repaired := true, suspect := false }, 0, g)

/-! ### Farms (R25 to R28, R132, R288, R289) -/

/-- Where a strip's two doublewords lie (R120). -/
def State.stripLoc (s : State) (l : Loc) (i : Nat) : Loc := l.plus (s.home64 (l.plus 40) % 2 ^ 32 + 16 * i)

/-- COUNT, S and P of a farm (R119). -/
def State.farmCount (s : State) (l : Loc) : Nat := s.home64 (l.plus 8) % 2 ^ 32
def State.farmPeriod (s : State) (l : Loc) : Nat := s.home64 (l.plus 24) % 2 ^ 48

/-- GEN and ST of a strip (R120). -/
def State.stripGen (s : State) (l : Loc) (i : Nat) : Nat := s.home64 (s.stripLoc l i) % 2 ^ 32
def State.stripSt (s : State) (l : Loc) (i : Nat) : Nat := s.home64 (s.stripLoc l i) / 2 ^ 32 % 4

/-- Expiry applied to one strip; a strip of ST 3 damages the cask (R132, R289). -/
def State.expireStrip (s : State) (l : Loc) (i : Nat) : State :=
  if s.stripSt l i = 3 then s.damage l
  else if s.stripSt l i = 1 && s.home64 ((s.stripLoc l i).plus 8) ≤ s.now.toNat then
    s.setHome64 (s.stripLoc l i) ((s.stripGen l i + 1) % 2 ^ 32)
  else s

/-- Expiry applied to every strip (R132). -/
def State.expireAll (s : State) (l : Loc) : State :=
  (List.range (s.farmCount l)).foldl (fun s i => s.expireStrip l i) s

/-- Whether a farm's fields are in range (R288). -/
def State.farmOk (s : State) (l : Loc) : Bool :=
  1 ≤ s.farmCount l && 1 ≤ s.home64 (l.plus 16) % 2 ^ 32 && 1 ≤ s.farmPeriod l
    && areaOk l (s.home64 (l.plus 40) % 2 ^ 32) (16 * s.farmCount l)

/-- DONE and NEXT (R119). -/
def State.farmNext (s : State) (l : Loc) : Nat := s.home64 (l.plus 32) % 2 ^ 32
def State.farmDone (s : State) (l : Loc) : Nat := s.home64 (l.plus 32) / 2 ^ 32

/-- The strip that a claim takes: expired ones first, then fresh ones, each in ascending order (R25). -/
def State.freeStrip (s : State) (l : Loc) : Option (Nat × Bool) :=
  let next := s.farmNext l
  match (List.range (min next (s.farmCount l))).find? fun i => s.stripSt l i = 0 with
  | some i => some (i, true)
  | none => if next < s.farmCount l then some (next, false) else none

/-- A strip claimed (R132): its generation is given back. -/
def State.claimStrip (s : State) (l : Loc) (i : Nat) (again : Bool) : State :=
  let s := s.setHome64 (s.stripLoc l i) (s.stripGen l i + 2 ^ 32)
  let s := s.setHome64 ((s.stripLoc l i).plus 8) (s.now.toNat + s.farmPeriod l)
  if again then s else s.setHome64 (l.plus 32) (s.farmDone l * 2 ^ 32 + i + 1)

/-- The answer to a claim that can be answered now (R289). -/
def State.claimNow (s : State) (l : Loc) : State × Option Answer :=
  let h := s.header l
  match s.freeStrip l with
  | some (i, again) =>
    let g := s.stripGen l i
    (s.claimStrip l i again, some {
        status := statusWord 0 again.toNat g 0
        absent := none
        n := 0
        tag := g
        scope := h.scope
        strip := word i })
  | none =>
    if s.farmDone l = s.farmCount l then
      (s, some { status := statusWord 8 0 0 0, absent := none, n := 0, tag := 0, scope := h.scope, strip := -1 })
    else (s, none)

/-- The strips that are claimed and not done (R28). -/
def State.claimedSet (s : State) (l : Loc) : Nat :=
  (List.range (s.farmCount l)).foldl (fun a i => if s.stripSt l i = 1 then a + 2 ^ i else a) 0

/-! ### Deadlines of waits at their home (R435) -/

/-- The outcome of the deadline, given by the home to every waiter of a cask whose deadline less the guard has come. -/
def State.homeDeadlines (s : State) (l : Loc) : State :=
  let h := s.header l
  (s.waiters.filter fun w => w.cask = l && w.deadline ≤ s.now.toNat + guard h.scope).foldl (fun s w =>
    let drop := { s with waiters := s.waiters.erase w }
    let give := drop.answerWaiter w
    match w.verb with
    | .recv => give { status := statusWord 8 0 0 0, absent := none, n := 0, tag := 0, scope := h.scope }
    | .strip => give { status := statusWord 1 0 0 0, absent := none, n := 0, tag := 0, scope := h.scope, strip := -1 }
    | .farmw =>
      let c := s.claimedSet l
      give {
        status := statusWord 1 0 0 (min 0xFFFE (popcount c (s.farmCount l)))
        absent := some c
        n := s.farmCount l
        tag := 0
        scope := h.scope }
    | _ => s) s

/-- Waits on a cask that must end now, whatever comes: all of them while it is damaged (R122), and those whose time has
come. -/
def State.endDue (s : State) (l : Loc) : State := if s.caskBad l then s.damage l else s.homeDeadlines l

/-! ### Waiting claims (R26, R28, R289) -/

/-- Waiting claims and `farmw`s of a farm served as far as they can be (R26, R28, R289). -/
def State.serveWaiting (s : State) (l : Loc) : State :=
  (s.waiters.filter fun w => w.cask = l).foldl (fun s w =>
    let drop := fun (s : State) => { s with waiters := s.waiters.erase w }
    match w.verb with
    | .strip =>
      match s.claimNow l with
      | (s', some a) => (drop s').answerWaiter w a
      | (_, none) => s
    | .farmw =>
      if s.farmDone l = s.farmCount l then
        let h := s.header l
        let a : Answer := {
        status := statusWord 0 0 0 0
        absent := some 0
        n := s.farmCount l
        tag := 0
        scope := h.scope }
        (drop s).answerWaiter w a
      else s
    | _ => s) s

/-- When something happens at a farm by itself: a claim expires (R25), or a deadline less the guard comes (R435). -/
def State.farmTimes (s : State) (l : Loc) : List Nat :=
  (((List.range (s.farmCount l)).filter fun i => s.stripSt l i = 1).map fun i => s.home64 ((s.stripLoc l i).plus 8))
    ++ (s.waiters.filter fun w => w.cask = l && (w.verb = .strip || w.verb = .farmw)).map fun w =>
      w.deadline - guard (s.header l).scope

/-- What happens at a farm at time `t`: claims expire and go to those who wait, and then the deadlines of that time are judged
(R25, R26, R28, R435). -/
def State.farmInstant (s : State) (l : Loc) (t : Nat) : State :=
  let u := (({ s with now := word t }).expireAll l).serveWaiting l
  { u.homeDeadlines l with now := s.now }

/-- What has happened at a farm up to now, in the order of the times: `n` times at most. -/
def State.farmUpTo (l : Loc) : Nat → State → State
  | 0, s => s
  | n + 1, s => match ((s.farmTimes l).filter (· ≤ s.now.toNat)).min? with
    | none => s
    | some t => State.farmUpTo l n (s.farmInstant l t)

/-- A farm as it is now: each time that has come ends a claim or a wait, and each claim that is handed out ends a wait (R132,
R289). -/
def State.farmNow (s : State) (l : Loc) : State :=
  (s.farmUpTo l (s.farmCount l + 2 * s.waiters.length + 1)).expireAll l

/-- A farm looked at by its home: while it is damaged its waits end (R122), and else they are served as far as they can be. -/
def State.serveFarm (s : State) (l : Loc) : State :=
  if s.caskBad l then s.damage l else (s.farmNow l).serveWaiting l

/-! ### Queues (R137, R285, R286, R380) -/

/-- SIZE, HEAD, TAIL and QNUM of a queue cask (R119). -/
def State.ringSize (s : State) (l : Loc) : Nat := s.home64 (l.plus 16) % 2 ^ 17
def State.ringHead (s : State) (l : Loc) : Nat := s.home64 (l.plus 24) % 2 ^ 32
def State.ringTail (s : State) (l : Loc) : Nat := s.home64 (l.plus 32) % 2 ^ 32
def State.ringQnum (s : State) (l : Loc) : Nat := s.home64 (l.plus 40) % 2 ^ 14

/-- Entries in the ring; HEAD and TAIL count modulo 2^32. -/
def State.ringCount (s : State) (l : Loc) : Nat := (s.ringTail l + 2 ^ 32 - s.ringHead l) % 2 ^ 32

/-- Where ring slot `i` lies (R120). -/
def State.ringSlot (s : State) (l : Loc) (i : Nat) : Loc :=
  l.plus (s.home64 (l.plus 8) % 2 ^ 32 + i % max 1 (s.ringSize l) * 64)

/-- The entry at the head, taken out (R137). -/
def State.dequeue (s : State) (l : Loc) : State × List Byte :=
  let e := s.homeRead (s.ringSlot l (s.ringHead l)) 64
  (s.setHome64 (l.plus 24) ((s.ringHead l + 1) % 2 ^ 32), e)

/-- Endpoint of the home of a cask. -/
def State.caskEp (s : State) : Loc → Endpoint
  | .glob pa => epOf pa
  | .spad _ _ => s.endpt

/-- Waiting `recv`s on the casks that a queue of an endpoint serves recheck their rings, once those whose deadline has come
are ended (R435); an explicit wake that finds a ring empty ends the wait with EMPTY, DETAIL 1 (R137, R286). -/
def State.recheck (s : State) (ep : Endpoint) (q : Nat) (explicit : Bool) : State :=
  let s := s.waiters.foldl (fun t w => if w.verb = .recv then t.endDue w.cask else t) s
  (s.waiters.filter fun w => w.verb = .recv && s.caskEp w.cask = ep).foldl (fun s w =>
    if s.ringQnum w.cask ≠ q then s
    else
      let drop := { s with waiters := s.waiters.erase w }
      let scope := (s.header w.cask).scope
      if s.ringCount w.cask ≠ 0 then
        let d := drop.dequeue w.cask
        d.1.answerWaiter w { status := statusWord 0 0 0 0, absent := none, n := 0, tag := 0, scope := scope, data := d.2 }
      else if explicit then
        drop.answerWaiter w { status := statusWord 8 1 0 0, absent := none, n := 0, tag := 0, scope := scope }
      else s) s

/-- An accepted wake of a queue (R379, R380). -/
def State.wakeQueue (s : State) (q : Nat) (explicit : Bool) : State :=
  let d := s.queue q
  let s := s.modQueue q fun d => if d.pend then d else { d with pend := true, wait := s.now.toNat % 2 ^ 48 }
  let s := if d.nen && s.part.cores.contains (d.nhart / 4) then s.post d.nhart { code := 78, tval := word q } else s
  s.recheck s.endpt q explicit

/-- Whether a wake by a store is accepted (R380): a hart is of the owning partition when the queue belongs to its partition and
to the function of that (R379, R392). -/
def State.wakeAccepted (s : State) (q : Nat) (src : WakeSource) : Bool :=
  (s.queue q).pub || match src with
    | .hart h => s.part.cores.contains (h / 4) && (s.queue q).part = s.part.number && (s.queue q).vf = s.part.vf
    | .peer => false
    | .host owner => owner

/-- A store to a byte of the hub window by a source (R379, R380): a wake, a descriptor field, or nothing. -/
def State.hubStore (s : State) (off : Nat) (bs : List Byte) (src : WakeSource) : State :=
  if off < 0xF0000100000 then
    let r := off - 0xF0000000000
    if r % 64 < 8 && s.wakeAccepted (r / 64) src then s.wakeQueue (r / 64) true else s
  else
    let r := off - 0xF0000100000
    let old := (s.queue (r / 64)).dword s.now.toNat (r % 64 / 8)
    let new := splice old (8 * (r % 8)) (8 * bs.length) (leNat bs)
    s.modQueue (r / 64) fun d => d.write (r % 64 / 8) new

/-- Bytes stored at their home, the hub window included. -/
def State.homeStore (s : State) (l : Loc) (bs : List Byte) (src : WakeSource) : State :=
  match l with
  | .glob pa =>
    if epOf pa = s.endpt && inHub (offOf pa) then s.hubStore (offOf pa) bs src else s.homeSet l bs
  | _ => s.homeSet l bs

/-- `enq` at the home: ALL or FULL; the queue that it wakes is one of the endpoint of the home (R137). -/
def State.enqueue (s : State) (l : Loc) (data : List Byte) : State × Nat :=
  if s.ringCount l < s.ringSize l then
    let t := s.ringTail l
    let s := s.homeSet (s.ringSlot l t) data
    let s := s.setHome64 (l.plus 32) ((t + 1) % 2 ^ 32)
    (if s.caskEp l = s.endpt then s.wakeQueue (s.ringQnum l) false else s.recheck (s.caskEp l) (s.ringQnum l) false, 0)
  else (s, 7)

/-- Everything that time alone brings about at a cask: while it is damaged, its waits end (R122). -/
def State.dueAt (s : State) (l : Loc) : State :=
  if s.caskBad l then s.damage l
  else match (s.header l).kind with
    | 4 => s.serveFarm l
    | 5 => s.homeDeadlines l
    | _ => s.catchUp l

end Sys2Proof.Machine
end

