-- ==== Sys2Proof/Machine/Registers.lean ====
section
/-! DEFINITION. Vector and tile registers as elements and units (R33, R247 to R249), and the requests that are outstanding for
them: what a response writes and which landed bits it sets (R79, R327, R401). -/

namespace Sys2Proof.Machine

/-! ### Elements (R33) -/

/-- The bits of register `n`; 0 beyond the register file. -/
def State.reg (s : State) (n : Nat) : Nat := s.hart.v.toList.getD n 0

/-- Register `n` set. -/
def State.setReg (s : State) (n v : Nat) : State :=
  if h : n < 32 then { s with hart.v := s.hart.v.set n v h } else s

/-- Element `e` of `w` bits of a register's bits. -/
def elemOf (x w e : Nat) : Nat := x / 2 ^ (e * w) % 2 ^ w

/-- A register's bits with element `e` of `w` bits replaced. -/
def setElemOf (x w e v : Nat) : Nat := splice x (e * w) w v

/-- Elem(n, e) for elements of `w` bits (R33). -/
def State.elem (s : State) (n w e : Nat) : Nat := elemOf (s.reg n) w e

/-- Elem(n, e) := v. -/
def State.setElem (s : State) (n w e v : Nat) : State := s.setReg n (setElemOf (s.reg n) w e v)

/-- A register with the bits from `lo` up to the register's width cleared. -/
def State.zeroFrom (s : State) (n lo : Nat) : State :=
  s.setReg n (splice (s.reg n) lo (s.maxBits - lo) 0)

/-- Whether element `e` is active under `.m` (R10). -/
def State.active (s : State) (m : Bool) (e : Nat) : Bool := !m || bit (s.reg 0) e

/-- CAP: elements of `w` bits that a register holds (R189). -/
def State.cap (s : State) (w : Nat) : Nat := s.maxBits / w

/-! ### Tiles (R247 to R249) -/

/-- TK: the rows of a tile of an input type; 0 for a type that the matrix engine does not accept (R248). -/
def tileRows : Nat → Nat
  | 9 => 32 | 10 => 128 | 11 => 128 | 12 => 256 | 13 => 256 | 14 => 512 | 0 => 256 | 18 => 512 | _ => 0

/-- Whether the engine accepts an input type with a scale block (R248). -/
def mxInput (sb et : Nat) : Bool := tileRows et ≠ 0 && (sb = 0 || (12 ≤ et && et ≤ 14))

/-- Whether an accumulate type goes with an input type (R248). -/
def mxPair (at_ et : Nat) : Bool :=
  if et = 9 then at_ = 0
  else if et = 0 then at_ = 2 || at_ = 4
  else if et = 18 then at_ = 2 || at_ = 3
  else at_ = 0 || at_ = 1

/-- The block size that a scale block code stands for, 0 for none (R45). -/
def sbSize : Nat → Nat
  | 0 => 0 | 1 => 16 | 2 => 32 | _ => 64

/-- `VTYPE`.SB as it is coded (R180). -/
def Hart.sbCode (h : Hart) : Nat := bits h.vtype 8 7

/-- Z: bytes of DATA of a tile image (R248). -/
def tileBytes (et : Nat) : Nat := tileRows et * 64 * etWidth et / 8

/-- Bytes of SCL of a tile image (R249). -/
def scaleBytes (et tsb : Nat) : Nat := if tsb = 0 then 0 else 64 * tileRows et / sbSize tsb

/-- U / 64: the units of a tile image (R251). -/
def tileUnits (et tsb : Nat) : Nat := (tileBytes et + scaleBytes et tsb) / 64

/-- 0x7F in `n` bytes. -/
def ones7F (n : Nat) : Nat := (2 ^ (8 * n) - 1) / 255 * 127

/-- T[k][j] as it is coded (R249). -/
def Tile.elem (t : Tile) (w k j : Nat) : Nat := elemOf t.data w (k * 64 + j)

/-- Byte `i` of SCL. -/
def Tile.scale (t : Tile) (i : Nat) : Nat := elemOf t.scl 8 i

/-- Unit `j` of a tile's image, as a number of 64 bytes (R251). -/
def Tile.unit (t : Tile) (j : Nat) : Nat :=
  let z := tileBytes t.tet / 64
  if j < z then elemOf t.data 512 j else elemOf t.scl 512 (j - z)

/-- Unit `j` of a tile's image set. -/
def Tile.setUnit (t : Tile) (j v : Nat) : Tile :=
  let z := tileBytes t.tet / 64
  if j < z then { t with data := setElemOf t.data 512 j v } else { t with scl := setElemOf t.scl 512 (j - z) v }

/-- A tile register. -/
def State.tile (s : State) (t : BitVec 2) : Tile := s.hart.tile[t.toNat]'t.isLt

/-- A tile register set: TS becomes Dirty (R247). -/
def State.setTile (s : State) (t : BitVec 2) (v : Tile) : State :=
  { s.dirtyT with hart.tile := s.hart.tile.set t.toNat v t.isLt }

/-! ### Bytes of elements (R33) -/

/-- Bytes that an element of `w` bits touches. -/
def elemBytes (w : Nat) : Nat := max 1 (w / 8)

/-! ### Outstanding requests (R79, R327, R401) -/

/-- The numbers from `lo` up to `hi`. -/
def spanList (lo hi : Nat) : List Nat := (List.range (hi - lo)).map (· + lo)

/-- Bits of an element by its width code (R327). -/
def widthOfCode : Nat → Nat
  | 7 => 4
  | c => 8 * 2 ^ c

/-- Width code of an element of `w` bits (R327). -/
def codeOfWidth (w : Nat) : Nat := if w = 4 then 7 else msb (w / 8)

/-- The positions that a reassembly entry awaits. -/
def Reassembly.positions (r : Reassembly) : List Nat :=
  ((List.range 64).filter fun i => r.mask.getLsbD i).map (· + r.first)

/-- The groups of its register that hold position `n` of an entry, for registers of `b` bits and elements of `w` bits
under the `VTYPE` in force (R79). -/
def Reassembly.groupsAt (r : Reassembly) (b w n : Nat) : List Nat :=
  let k := widthOfCode r.width
  let lo := n % max 1 (b / k) * k
  spanList (lo / (8 * max 1 w)) ((lo + k - 1) / (8 * max 1 w) + 1)

/-- The groups that an entry awaits. -/
def Reassembly.groups (r : Reassembly) (b w : Nat) : List Nat := r.positions.flatMap (r.groupsAt b w)

/-- Bytes that the positions of an entry's mask take (R327). -/
def Reassembly.bytes (r : Reassembly) : Nat := ceilDiv (popcount r.mask.toNat 64 * widthOfCode r.width) 8

/-- A value written at position `n` of an entry's destination: a vector register, or a unit of a tile register. -/
def State.putPosition (s : State) (r : Reassembly) (n v : Nat) : State :=
  if r.width = 6 then
    let t := BitVec.ofNat 2 r.reg
    s.setTile t ((s.tile t).setUnit n v)
  else
    let w := widthOfCode r.width
    s.dirtyV.setElem r.reg w (n % max 1 (s.maxBits / w)) v

/-- The values that a response carries, packed in ascending position (R327). -/
def State.putAll (s : State) (r : Reassembly) (data : Nat) : State :=
  (enum r.positions).foldl (fun t p => t.putPosition r p.2 (elemOf data (widthOfCode r.width) p.1)) s

/-- A landed bit set again (R79). -/
def State.markLanded (s : State) (n g : Nat) : State :=
  if h : n < 32 then { s with hart.flying := s.hart.flying.set n (splice s.hart.flying[n] g 1 0) h } else s

/-- Positions that the hart's requests still await (R347, R401). -/
def Hart.awaited (h : Hart) : Nat := (h.reassembly.map fun r => popcount r.mask.toNat 64).sum

/-- A position read at its home now (R82). -/
def State.sourceValue (s : State) (w : Nat) (q : Source) : Nat := pick w q.high (leNat (s.homeRead q.loc (elemBytes w)))

/-- The landed bits of the groups that some positions of a register lie in are set, but for groups that an entry still fills
(R79). -/
def State.landEntry (s : State) (r : Reassembly) : State :=
  if r.width = 6 then s
  else
    let w := max 1 (etWidth s.hart.et)
    let others := s.hart.reassembly.filter fun q => q.width ≠ 6 && q.reg = r.reg
    (r.groups s.maxBits w).foldl (fun t g =>
      if others.any fun q => (q.groups s.maxBits w).contains g then t else t.markLanded r.reg g) s

/-- A response to some positions of an entry: they are written, the landed bits of the groups that are full now are set, and an
entry that has been filled is free (R79, R401). -/
def State.respond (s : State) (r : Reassembly) (mask : BitVec 64) : State :=
  let w := widthOfCode r.width
  let got := { r with mask := mask }
  let t := got.positions.foldl (fun t n => match r.src.find? fun q => q.pos = n with
    | some q => t.putPosition r n (s.sourceValue w q)
    | none => t) s
  let left := { r with mask := r.mask &&& ~~~mask }
  let rest := if left.mask = 0 then t.hart.reassembly.filter fun q => q.place ≠ r.place
    else t.hart.reassembly.map fun q => if q.place = r.place then left else q
  ({ t with hart.reassembly := rest }).landEntry got

end Sys2Proof.Machine
end

