-- ==== Sys2Proof/Machine/Memory.lean ====
section
/-! DEFINITION. How an agent of a hart reaches memory: pointers (R56, R59), translation (R358 to R363, R375), tag checks
(R66), copies in flight (R76, R78), the L1 and the store buffer (R86), posted stores and flushes (R98 to R103), element
trains (R104), releases and acquires (R92, R94, R95). -/

namespace Sys2Proof

/-- Whether an order field has an acquire side (R170). -/
def Order.acquires : Order → Bool
  | .acq => true | .acqRel => true | _ => false

/-- Whether an order field has a release side (R170). -/
def Order.releases : Order → Bool
  | .rel => true | .acqRel => true | _ => false

end Sys2Proof

namespace Sys2Proof.Machine

/-- A computation that may stop short. The state it leaves is kept either way: a walk that parks has still set RACK. -/
abbrev M := ExceptT Halt (StateM State)

/-- The outcome of a computation, and the state it leaves. -/
def M.go {α : Type} (m : M α) (s : State) : Except Halt α × State := m s

/-- A trap. -/
def trapM {α : Type} (code : Nat) (tval : Word) (tval2 : Word := 0) : M α := throw (.trap ⟨code, tval, tval2⟩)

/-- A trap or a stall when a condition fails. -/
def checkM (ok : Bool) (h : Halt) : M Unit := if ok then pure () else throw h

/-- Kind of an access (R360). An atomic is a store that also needs R. A probe is the walk of a store that is not known yet to
be performed: it leaves D as it is (R365). -/
inductive Acc where
  | fetch | load | store | atomic | probe
deriving DecidableEq, Repr

def Acc.pageCause : Acc → Nat
  | .fetch => 16 | .load => 17 | _ => 18
def Acc.accessCause : Acc → Nat
  | .fetch => 19 | .load => 20 | _ => 21
def Acc.isStore : Acc → Bool
  | .store => true | .atomic => true | .probe => true | _ => false

/-- What an access is made under: the hart and its core, its privilege, page table, module-wide ASID (R364), and
whether tags are checked (R66). -/
structure Ctx where
  hart : Nat
  priv : Priv
  ptb : Word
  asid : Nat
  tage : Bool
deriving DecidableEq, Repr

/-- The context of the current hart. -/
def State.ctx (s : State) : Ctx :=
  ⟨s.hart.id, s.hart.priv, s.hart.ptb, s.part.asidBase + s.hart.asid.toNat, s.hart.status.tage⟩

/-- Where an access goes: the place, the address that a fault reports, and whether the page is tagged. -/
structure Phys where
  loc : Loc
  va : Word
  tagged : Bool
  key : Nat
deriving DecidableEq, Repr

/-! ### Translation (R358 to R363) -/

/-- Granules of a lease's region that a leaf covers (R375). -/
def leafGranules (l : Lease) (page size : Nat) : List Nat :=
  (List.range (size / 65536)).map fun i => (page - l.base) / 65536 + i

/-- Whether a lease's region holds a page. -/
def Lease.covers (l : Lease) (page size : Nat) : Bool := l.base ≤ page && page + size ≤ l.base + l.units * 2 ^ 29

/-- The lease at this endpoint by which a page is checked: a live one first (R375). -/
def State.leaseOf (s : State) (id page size : Nat) : Option Lease :=
  let mine := s.leases.filter fun l => l.id = id && l.borrower = s.endpt && l.state ≠ .offered && l.covers page size
  (mine.find? fun l => l.state = .active || l.state = .racking).orElse fun _ => mine.head?

/-- A granule that an access needs is reported to the borrower's engine, with the hart when it fetches; for a fetch, a
granule that has already moved is posted at once (R374). -/
def State.reportGranule (s : State) (l : Lease) (g : Nat) (who : Option (Nat × Nat)) : State :=
  match who, l.moved.contains g with
  | some (h, va), true => s.post h ⟨76, word va, 0⟩
  | _, _ => { s with leases := s.leases.map fun m =>
      if m.id = l.id && m.borrower = l.borrower && m.lender = l.lender && m.state = l.state
      then { m with urgent := if (g, who) ∈ m.urgent then m.urgent else m.urgent ++ [(g, who)] } else m }

/-- The lease check of R375 on a leaf of TIER 2: what the leaf then holds, or a stop. -/
def leaseCheck (c : Ctx) (k : Acc) (va size : Nat) (pte : Nat) : M Nat := do
  let s ← get
  let id := field pte 63 57
  let page := field pte 56 16 * 65536
  let expired : M Nat := trapM cLeaseExpired (word va) (word id)
  match s.leaseOf id page size with
  | none => expired
  | some l =>
    if l.state = .active then pure pte
    else if (leafGranules l page size).all fun g => l.moved.contains g then
      pure (splice (splice (splice (splice pte 57 7 0) 16 41 ((l.fallback + (page - l.base)) / 65536)) 8 2 l.tier) 11 1 0)
    else if l.state = .racking then do
      modify fun s => s.reportGranule l ((page + va % size - l.base) / 65536)
        (if k = .fetch then some (c.hart, va / 65536 * 65536) else none)
      pure (splice pte 11 1 1)
    else expired

/-- Whether a leaf's R, W and X bits allow an access (R360). -/
def Acc.allowed (k : Acc) (pte : Nat) : Bool :=
  match k with
  | .fetch => bit pte 3
  | .load => bit pte 1
  | .store => bit pte 2
  | .probe => bit pte 2
  | .atomic => bit pte 2 && bit pte 1

/-- Whether a leaf grants an access, its U bit included (R360). -/
def leafGrants (c : Ctx) (k : Acc) (pte : Nat) : Bool :=
  k.allowed pte && (c.priv = .super || bit pte 4) && !(c.priv = .super && bit pte 4 && k = .fetch)

/-- A leaf written by the walker (R362). A migration of its page takes the new value for the one that it wrote (log 82);
racking that reaches the page ends it (R369). -/
def State.writeLeaf (s : State) (leafAt old new : Nat) : State :=
  let racked := bit new 11 || (field old 9 8 = 2 && field new 9 8 ≠ 2)
  { s.setHome64 (.glob leafAt) new with
    migrations := s.migrations.map fun m =>
      if m.leaf = leafAt && m.value.toNat = old then { m with value := word new, evicted := m.evicted || racked } else m }

/-- Whether a leaf still maps a 64 KiB page as tagged. -/
def State.mapsTagged (s : State) (t : Nat × Nat) : Bool :=
  let pte := s.home64 (.glob t.1)
  let base := field pte 56 16 * 65536
  bit pte 0 && field pte 3 1 ≠ 0 && bit pte 12 && (base = t.2 || (base % 2 ^ 29 = 0 && base ≤ t.2 && t.2 < base + 2 ^ 29))

/-- A leaf that a walk reads and that does not map what it mapped as tagged any more: those pages are mapped anew when they are
mapped again (R66; log 112). -/
def State.dropTagged (s : State) (leafAt : Nat) : State :=
  { s with tagged := s.tagged.filter fun t => t.1 ≠ leafAt || s.mapsTagged t }

/-- The 64 KiB page of a tagged leaf becomes mapped as tagged: its locks are 0, unless another leaf maps it so (R66). -/
def State.mapTagged (s : State) (leafAt page : Nat) : State :=
  if s.tagged.contains (leafAt, page) then s
  else { s with
    tagged := s.tagged ++ [(leafAt, page)]
    locks := if s.tagged.any fun t => t.2 = page && s.mapsTagged t then s.locks
      else s.locks.filter fun l => decide (l.1 * 32 < page) || decide (page + 65536 ≤ l.1 * 32) }

/-- What a walk learns of a leaf's TAGGED bit (R66). -/
def State.noteTagged (s : State) (leafAt page : Nat) (on : Bool) : State :=
  if on then s.mapTagged leafAt page else { s with tagged := s.tagged.filter fun t => t.1 ≠ leafAt }

/-- The physical address that a leaf gives. -/
def leafAddress (pte size va : Nat) : Nat := field pte 56 16 * 65536 / size * size + va % size

/-- A leaf found at a level (R360): rights, lease, A and D (R362), parking (R70, R343); then the address. -/
def leaf (c : Ctx) (k : Acc) (va leafAt level : Nat) (pte : Nat) : M (Nat × Bool) := do
  let size := if level = 1 then 2 ^ 29 else 2 ^ 16
  checkM (level ≠ 2 && !(bit pte 2 && !bit pte 1) && (level ≠ 1 || field pte 28 16 = 0) && leafGrants c k pte)
    (.trap ⟨k.pageCause, word va, 0⟩)
  let held ← if field pte 9 8 = 2 then leaseCheck c k va size pte else pure pte
  let used := if bit held 6 then held else held + 2 ^ 6
  let new := if k.isStore && k ≠ .probe && !bit used 7 then used + 2 ^ 7 else used
  if new ≠ pte then modify fun s => s.writeLeaf leafAt pte new
  if bit new 10 || bit new 11 then
    if k = .fetch then trapM cPageMigrating (word va) else throw (.stall 4 va)
  let pa := leafAddress new size va
  modify fun s => s.noteTagged leafAt (pa / 65536 * 65536) (bit new 12)
  pure (pa, bit new 12)

/-- The walk from a level down (R360). -/
def walk (c : Ctx) (k : Acc) (va : Nat) : Nat → Nat → M (Nat × Bool)
  | level, base => do
    let s ← get
    checkM (epOf base = s.endpt && s.backed (offOf base)) (.trap ⟨k.accessCause, word va, 0⟩)
    let at_ := base + va / 2 ^ (16 + 13 * level) % 8192 * 8
    checkM (!s.isBad (.glob at_) 8) (.trap ⟨30, word va, 0⟩)
    modify fun s => s.dropTagged at_
    let pte := s.home64 (.glob at_)
    let fault := Halt.trap ⟨k.pageCause, word va, 0⟩
    checkM (bit pte 0 && field pte 15 13 = 0) fault
    if field pte 3 1 = 0 then
      checkM (level ≠ 0 && field pte 12 4 = 0) fault
      match level with
      | 0 => throw fault
      | n + 1 => walk c k va n (field pte 56 16 * 65536)
    else leaf c k va at_ level pte

/-- The cached translation that serves an access: of its hart, for its ASID or for every ASID, with the rights it needs, and
for a store with D = 1 (R363, R364). -/
def State.cachedFor (s : State) (c : Ctx) (k : Acc) (va : Nat) : Option Cached :=
  s.cached.find? fun t => t.hart = c.hart && (t.asid = c.asid || bit t.leaf 5) && t.page ≤ va && va < t.page + t.size
    && leafGrants c k t.leaf && (!k.isStore || bit t.leaf 7)

/-- A 55-bit virtual address translated (R360, R361, R363): the global physical address, and whether the page is tagged. -/
def translate (c : Ctx) (k : Acc) (va : Nat) : M (Nat × Bool) := do
  let s ← get
  if bitOf c.ptb 0 then
    match s.cachedFor c k va with
    | some t => pure (leafAddress t.leaf t.size va, bit t.leaf 12)
    | none => walk c k va 2 (bits c.ptb 56 16 * 65536)
  else do
    checkM (va < 2 ^ 44) (.trap ⟨k.accessCause, word va, 0⟩)
    pure (paOf s.endpt va, false)

/-- How the packets of an access travel: its hart learns of a response, or an element train is acknowledged (R104), or it is
posted (R98). -/
inductive Way where
  | answered | train | posted
deriving DecidableEq, Repr

/-- Whether a range list of a partition holds a number. -/
def holds (rs : List (Nat × Nat)) (a : Nat) : Bool := rs.any fun r => decide (r.1 ≤ a) && decide (a < r.1 + r.2)

/-- The bytes must exist within the partition's bounds, and a home on another endpoint must grant the access (R434, R361,
R377, R102, R406). -/
def reachable (k : Acc) (pa : Nat) (va : Word) (way : Way) : M Unit := do
  let s ← get
  let ep := epOf pa
  if ep = s.endpt then checkM (s.backed (offOf pa) && holds s.part.regions (offOf pa)) (.trap ⟨k.accessCause, va, 0⟩)
  else do
    let ed := epDie ep (dieOf (offOf pa))
    checkM (way = .posted || !s.down.contains ep) (.trap ⟨cEndpointDown, ed, 0⟩)
    checkM (way ≠ .answered || !s.exhausted.contains ep) (.trap ⟨cReplayExhausted, ed, 0⟩)
    let lent := s.leases.any fun l => l.borrower = s.endpt && l.lender = ep
      && (l.state = .active || l.state = .racking) && l.base ≤ pa && pa < l.base + l.units * 2 ^ 29
    match s.exports.find? fun e => e.page = pa / 65536 with
    | some e =>
      checkM (!e.withdrawn) (.trap ⟨cRemotePage, va, ed⟩)
      checkM (e.writable || !k.isStore) (.trap ⟨cRemoteAccess, va, ed⟩)
    | none => checkM lent (.trap ⟨cRemoteAccess, va, ed⟩)

/-! ### Scratchpad addresses (R59) -/

/-- A 25-bit scratchpad address of `n` bytes: the place, or a stop with `TVAL` = `tv`. Of two causes the core's comes first
(log 83). -/
def scratch (hart : Nat) (a n : Nat) (tv : Word) : M Loc := do
  let s ← get
  let f := a / 2 ^ 21 % 16
  let core := if f = 15 then hart / 4 else clusterBase (hart / 4) + f
  checkM ((f ≤ 11 || f = 15) && s.part.cores.contains core) (.trap ⟨cScratchCore, tv, 0⟩)
  checkM (a % 2 ^ 21 + n ≤ 0x180000) (.trap ⟨cScratchRange, tv, 0⟩)
  pure (.spad core (a % 2 ^ 21))

/-! ### Memory tags (R66, R423, R424) -/

/-- A granule's lock (R66), by its global physical address. -/
def State.lockOf (s : State) (pa : Nat) : BitVec 4 := Tbl.get 0 s.locks (pa / 32)

/-- Base of the tag-history ring, and whether it records (R329). -/
def State.tagBase (s : State) : Nat := bits s.taghist 56 12 * 4096
def State.tagOn (s : State) : Bool := bitOf s.taghist 0

/-- The newest entry of the ring that names a granule, or 0x1FF (R66, R424). -/
def State.tagFind (s : State) (pa : Nat) : Nat :=
  if !s.tagOn then 0x1FF
  else
    let at_ := fun i => s.tagBase + i * 16
    (((List.range 256).map fun k => (s.tagIndex + 255 - k) % 256).find? fun i =>
      bit (s.home64 (.glob (at_ i + 8))) 63 && field (s.home64 (.glob (at_ i))) 56 5 = field pa 56 5).getD 0x1FF

/-- An entry written into the ring for an access of a hart (R423). `kind` is 0 for `stag`, 1 for a mismatch. -/
def State.tagRecord (s : State) (hart pa kind a b : Nat) : State :=
  if !s.tagOn then s
  else
    let at_ := s.tagBase + s.tagIndex * 16
    let s := s.setHome64 (.glob at_) (field pa 56 5 * 32 + kind * 16 + a)
    let s := s.setHome64 (.glob (at_ + 8)) (2 ^ 63 + b * 2 ^ 59 + hart * 2 ^ 48 + s.now.toNat % 2 ^ 48)
    { s with tagIndex := (s.tagIndex + 1) % 256 }

/-- The granules of an access, by the address of their first byte. -/
def granules (pa n : Nat) : List Nat := (List.range ((pa % 32 + n + 31) / 32)).map fun i => pa / 32 * 32 + 32 * i

/-- The tag check of an access (R66). -/
def tagCheck (c : Ctx) (p : Phys) (n : Nat) : M Unit := do
  match p.loc with
  | .spad _ _ => pure ()
  | .glob pa =>
    let s ← get
    if c.tage && p.tagged && bitOf c.ptb 0 then
      match (granules pa n).find? fun g => (s.lockOf g).toNat ≠ p.key with
      | none => pure ()
      | some g => do
        let l := (s.lockOf g).toNat
        let i := s.tagFind g
        modify fun s => s.tagRecord c.hart g 1 p.key l
        trapM cTagMismatch p.va (word (p.key + l * 16 + i * 2 ^ 8))
    else pure ()

/-! ### Pointers (R56) -/

/-- A virtual address, its key included, for `n` bytes: form, translation, existence (R343). -/
def resolveVirtual (c : Ctx) (k : Acc) (p : Word) (way : Way) : M Phys := do
  checkM (bits p 63 59 = 0) (.trap ⟨k.accessCause, p, 0⟩)
  let va := bits p 54 0
  let r ← translate c k va
  reachable k r.1 (word va) way
  pure ⟨.glob r.1, word va, r.2, bits p 58 55⟩

/-- A pointer of either form for `n` bytes that must be `al`-aligned (R56, R67, R343). A fetch through a malformed scratchpad
pointer raises `SCRATCH_RANGE`: R56 gives both causes and no order (log 83). -/
def resolve (c : Ctx) (k : Acc) (p : Word) (n al : Nat) (way : Way) : M Phys := do
  checkM (p.toNat % al = 0) (.trap ⟨cMisaligned, p, 0⟩)
  if bitOf p 63 then do
    checkM (bits p 62 25 = 0) (.trap ⟨cScratchRange, p, 0⟩)
    checkM (k ≠ .fetch) (.trap ⟨19, p, 0⟩)
    let a := bits p 24 0
    let l ← scratch c.hart a n (word a)
    pure ⟨l, word a, false, 0⟩
  else resolveVirtual c k p way

/-! ### Copies in flight and watchpoints (R76, R78, R262, R426) -/

/-- A 25-bit scratchpad address with its core field as a cluster index (R263). -/
def normalCore (core a : Nat) : Nat :=
  if a / 2 ^ 21 % 16 = 15 then core % 12 * 2 ^ 21 + a % 2 ^ 21 else a

/-- The cluster form of a scratchpad place, as the copies and channels of a core of its cluster name it. -/
def clusterAddr (core off : Nat) : Nat := core % 12 * 2 ^ 21 + off

/-- Whether two byte ranges share a 64-byte granule (R78). -/
def granulesMeet (a n b m : Nat) : Bool :=
  n ≠ 0 && m ≠ 0 && a / 64 * 64 < (b + m + 63) / 64 * 64 && b / 64 * 64 < (a + n + 63) / 64 * 64

/-- The span of a copy's source, in its own address form (R260); none for a fill. -/
def Copy.source (c : Copy) : Option (Word × Nat) :=
  match c.kind with
  | .plain => some (c.src, c.len)
  | .fill _ => none
  | .strided st =>
    let n := if c.width = 0 then 0 else c.len / c.width
    let span := ((n - 1 : Nat) : Int) * st
    if n = 0 then some (c.src, 0)
    else some (c.src + wordI (min 0 span), span.natAbs + c.width)

/-- Whether a range of a copy meets an access of a hart of its core (R78). -/
def rangeMeets (core : Nat) (asid : Nat) (rng : Word × Nat) (rasid : Nat) (p : Phys) (n : Nat) : Bool :=
  match p.loc with
  | .spad c o =>
    bitOf rng.1 63 && granulesMeet (normalCore core (bits rng.1 24 0)) rng.2 (clusterAddr c o) n
      && c / 12 = core / 12
  | .glob _ => !bitOf rng.1 63 && asid = rasid && granulesMeet (bits rng.1 54 0) rng.2 p.va.toNat n

/-- The stop that copies in flight give an access of a hart (R76, R78, R262). -/
def copyStop (s : State) (c : Ctx) (store : Bool) (p : Phys) (n : Nat) : Option Halt :=
  let core := c.hart / 4
  let k := s.coreAt core
  let wm := match p.loc with
    | .spad pc o => (enum k.ch.toList).findSome? fun q =>
      let ch := q.2
      let a := clusterAddr pc o
      let base := normalCore core ch.dbase
      if pc / 12 = core / 12 && ch.counts && a < base + ch.len && base < a + n
          && normalCore core ch.wm < min (a + n) (base + ch.len) then
        match ch.flt with
        | some f => some (.trap ⟨if f.dest then cCopyDest else cCopySource, f.addr, word (f.cause + q.1 * 2 ^ 8)⟩)
        | none => some (.stall 1 q.1)
      else none
    | .glob _ => none
  let board := if (s.copies.filter fun q => q.hart / 4 = core).any fun q =>
      (!bitOf q.dst 63 && rangeMeets core c.asid (q.dst, q.len) q.asid p n)
        || (store && q.source.elim false fun r => rangeMeets core c.asid r q.asid p n)
    then some (Halt.stall 2 p.va.toNat) else none
  match wm with
  | some h => some h
  | none => board

/-- Copies in flight (R76, R78). -/
def copyCheck (c : Ctx) (store : Bool) (p : Phys) (n : Nat) : M Unit := do
  match copyStop (← get) c store p n with
  | some h => throw h
  | none => pure ()

/-- Head of the convoy that runs. -/
def State.head (s : State) : Word := s.hart.cv.elim s.hart.pc (·.head)

/-- The data comparators that an access matches are noted; `WATCHPOINT` is posted when the convoy completes (R426). -/
def watch (p : Phys) (n : Nat) : M Unit :=
  modify fun s =>
    let hits := (s.hart.dcmp.filter fun a => p.va.toNat ≤ a.toNat && a.toNat < p.va.toNat + n).map fun a => (s.head, a)
    { s with hart.watched := s.hart.watched ++ hits.filter fun x => !s.hart.watched.contains x }

/-- A resolved access through its remaining checks: tag, copies in flight (R343, R76, R78). -/
def allow (c : Ctx) (k : Acc) (p : Phys) (n : Nat) : M Unit := do
  tagCheck c p n
  copyCheck c k.isStore p n
  watch p n

/-- A home that does not answer. -/
def State.homeSilent (s : State) (l : Loc) : Bool :=
  match l with
  | .glob pa => s.silent.contains (epOf pa)
  | .spad _ _ => false

/-- An access that needs a response waits for one (R98; log 100). -/
def answered (l : Loc) : M Unit := do checkM (!(← get).homeSilent l) (.stall 12 0)

/-- The cause of uncorrectable data at a place (R165). -/
def Phys.badTrap (p : Phys) : Trap := ⟨match p.loc with | .glob _ => 30 | .spad _ _ => 31, p.va, 0⟩

/-- Uncorrectable data at a place (R165). -/
def dataCheck (p : Phys) (n : Nat) : M Unit := do checkM (!(← get).isBad p.loc n) (.trap p.badTrap)

/-- Whether some of `n` bytes hold an uncorrectable error, but for those that a store under way has to write anew first
(R83, R165). -/
def State.badBut (s : State) (l : Loc) (n : Nat) (own : Loc → Bool) : Bool :=
  s.isBad l n && (List.range n).any fun i => s.isBad (l.plus i) 1 && !own (l.plus i)

/-! ### Posted stores, pairs and flushes (R98 to R103) -/

/-- A posted store applied at its home. -/
def State.applyPosted (s : State) (p : Posted) : State := s.homeStore (.glob p.pa) p.data (.hart p.hart)

/-- Every posted store of a hart to a die applied, in order (R102). -/
def State.applyTo (s : State) (hart : Nat) (ep : Endpoint) (die : Die) : State :=
  let mine := fun (p : Posted) => p.hart = hart && epOf p.pa = ep && dieOf (offOf p.pa) = die
  let s' := (s.posted.filter mine).foldl (fun s p => s.applyPosted p) s
  { s' with posted := s.posted.filter fun p => !mine p }

/-- Every posted store of a hart to a 64-byte line applied, in order (R99). -/
def State.applyLine (s : State) (hart line : Nat) : State :=
  let mine := fun (p : Posted) => p.hart = hart && p.pa / 64 = line
  let s' := (s.posted.filter mine).foldl (fun s p => s.applyPosted p) s
  { s' with posted := s.posted.filter fun p => !mine p }

/-- Why a flush of an endpoint is not answered, if it is not (R102). -/
def State.flushFails (s : State) (ep : Endpoint) : Option Nat :=
  if s.down.contains ep then some cEndpointDown
  else if s.exhausted.contains ep then some cReplayExhausted
  else if s.silent.contains ep then some cFlushTimeout
  else none

/-- Why a flush of a pair of the current hart is not answered, if it is not: its endpoint does not answer, or a store to it is lost
(R102, R405). -/
def State.pairFails (s : State) (q : Endpoint × Die) : Option Nat :=
  if s.down.contains q.1 then some cEndpointDown
  else if s.hart.lost.contains q then some cReplayExhausted
  else s.flushFails q.1

/-- Whether an endpoint answers (R102). -/
def State.answering (s : State) (ep : Endpoint) : Bool := (s.flushFails ep).isNone

/-- A flush has been answered: the hart's stores to the die are applied, and the pair is removed, as is a flush that a 65th pair
brought about (R100 to R102). -/
def State.flushed (s : State) (q : Endpoint × Die) : State :=
  let s := s.applyTo s.hart.id q.1 q.2
  { s with
    hart.pairs := s.hart.pairs.filter fun r => r ≠ q
    hart.overflow := s.hart.overflow.filter fun r => !(r.1 = q.1 && r.2.1 = q.2)
    hart.sent := s.hart.sent.filter fun r => r.1 ≠ q }

/-- The failure of a flush that no instruction waits for is latched, unless the latch is set (R100). -/
def State.latchFlush (s : State) (code : Nat) (q : Endpoint × Die) : State :=
  { s with
    hart.latch := s.hart.latch.orElse fun _ => some ⟨code, q.1, q.2, 0⟩
    hart.lost := s.hart.lost.filter fun r => r ≠ q
    hart.overflow := s.hart.overflow.filter fun r => !(r.1 = q.1 && r.2.1 = q.2)
    hart.sent := s.hart.sent.filter fun r => r.1 ≠ q }

/-- The flushes that a 65th pair brought about, as far as they are answered or have failed by now (R100). -/
def State.flushOverflow (s : State) : State :=
  s.hart.overflow.foldl (fun s q => match s.pairFails (q.1, q.2.1) with
    | none => s.flushed (q.1, q.2.1)
    | some c => if c = cFlushTimeout then s else s.latchFlush c (q.1, q.2.1)) s

/-- The pairs that a flush is to answer or has still to answer: the recorded ones, and those that a 65th pair took out of the
set (R100, R101). -/
def Hart.toFlush (h : Hart) : List (Endpoint × Die) := h.pairs ++ h.overflow.map fun q => (q.1, q.2.1)

/-- Flushing reads of a list of pairs: those that are answered are removed with their stores applied, a failure traps,
and the pairs that nobody has answered yet are given back (R101, R102). -/
def flushSome : List (Endpoint × Die) → M (List (Endpoint × Die))
  | [] => pure []
  | q :: qs => do
    let s ← get
    match if s.hart.answered.contains q then none else s.pairFails q with
    | none =>
      modify fun s => s.flushed q
      flushSome qs
    | some c =>
      if c = cFlushTimeout then do
        let rest ← flushSome qs
        pure (q :: rest)
      else trapM c (epDie q.1 q.2)

/-- Every flush that the hart waits for has been answered. -/
def State.flushesDone (s : State) : State := { s with hart.answered := [] }

/-- The flushes of a list of pairs; the hart waits while one is unanswered (R101). -/
def flushAll (qs : List (Endpoint × Die)) : M Unit := do
  match ← flushSome qs with
  | q :: _ => throw (.stall 0 (epDie q.1 q.2).toNat)
  | [] => modify State.flushesDone

/-- A 65th pair: every recorded pair is flushed, and the set is cleared. A failure is latched, and a flush that nobody answers
runs until its deadline (R100). -/
def State.overflowFlush (s : State) : State :=
  State.flushOverflow { s with
    hart.overflow := s.hart.pairs.map fun q => (q.1, q.2, s.stallDeadline)
    hart.pairs := [] }

/-- One more store has gone to a pair (R74). -/
def countPair (q : Endpoint × Die) (l : List ((Endpoint × Die) × Nat)) : List ((Endpoint × Die) × Nat) :=
  if l.any fun p => p.1 = q then l.map fun p => if p.1 = q then (q, p.2 + 1) else p else l ++ [(q, 1)]

/-- A store on its way to a home on another die; its pair is recorded (R98, R100). -/
def State.postStore (s : State) (b : Buffered) : State :=
  let q := (epOf b.pa, dieOf (offOf b.pa))
  { s with
    posted := s.posted ++ [⟨s.hart.id, b.pa, b.data, s.nextId, 0⟩]
    nextId := s.nextId + 1
    hart.pairs := if q ∈ s.hart.pairs then s.hart.pairs else s.hart.pairs ++ [q]
    hart.sent := countPair q s.hart.sent }

/-- Room in the replay window toward an endpoint for one more packet (R405): the oldest of 64 is acknowledged first, if the endpoint
answers. A window that is abandoned holds nothing back. -/
def State.windowRoom (s : State) (ep : Endpoint) : State × Bool :=
  match s.posted.filter fun p => epOf p.pa = ep with
  | [] => (s, true)
  | p :: ps =>
    if ep = s.endpt || ps.length < 63 then (s, true)
    else match s.flushFails ep with
      | none => (s.applyLine p.hart (p.pa / 64), true)
      | some c => (s, c ≠ cFlushTimeout)

/-- A store leaves the store buffer: it is performed when its home lies on the hart's own compute die, and otherwise it
is posted and its pair recorded (R98, R100). One that would add a 65th pair waits for the flushes, and so does every other
posted store meanwhile (R100; log 113), and one that finds the replay window full waits for room (R405): false then. -/
def State.sendStore (s : State) (b : Buffered) : State × Bool :=
  let q := (epOf b.pa, dieOf (offOf b.pa))
  if q = (s.endpt, BitVec.ofNat 3 (dieOfCore s.hart.core)) then (s.homeStore (.glob b.pa) b.data (.hart s.hart.id), true)
  else
    let s := s.flushOverflow
    let s := if q ∈ s.hart.pairs || s.hart.pairs.length < 64 then s else s.overflowFlush
    let r := s.windowRoom q.1
    if r.2 && r.1.hart.overflow = [] then (r.1.postStore b, true) else (r.1, false)

/-- Stores of the buffer sent, oldest first, until one must wait; those that stay are given back. -/
def State.sendStores : List Buffered → State → State × List Buffered
  | [], s => (s, [])
  | b :: bs, s =>
    let r := s.sendStore b
    if r.2 then r.1.sendStores bs else (r.1, b :: bs)

/-- The store buffer drained, oldest first (R86), as far as its stores can leave it (R100). -/
def State.drain (s : State) : State :=
  let r := s.sendStores s.hart.buffer
  { r.1 with hart.buffer := r.2 }

/-- The store buffer drained to the last store; the hart waits while one cannot leave (R86, R100). -/
def drainAll : M Unit := do
  modify State.drain
  checkM ((← get).hart.buffer = []) (.stall 12 0)

/-- Room for one more store: a full buffer first sends its oldest one, if that can leave (R86, R100). -/
def State.makeRoom (s : State) : State × Bool :=
  match s.hart.buffer with
  | [] => (s, true)
  | o :: rest =>
    if s.hart.buffer.length < Config.storeBuffer then (s, true)
    else
      let r := s.sendStore o
      if r.2 then ({ r.1 with hart.buffer := rest }, true) else (r.1, false)

/-! ### Element trains (R104) -/

/-- Whether two byte ranges at homes share a byte. -/
def meets (a : Loc) (n : Nat) (b : Loc) (m : Nat) : Bool :=
  match a, b with
  | .glob p, .glob q => p < q + m && q < p + n
  | .spad c o, .spad d r => c = d && o < r + m && r < o + n
  | _, _ => false

/-- The places that an element is applied at: its home, or every member's of its group (R106). -/
def TrainItem.places (i : TrainItem) : List Loc :=
  match i.how, i.loc with
  | .spread ms, .glob pa => ms.map fun m => .glob (paOf (.ofNat 13 m) (offOf pa))
  | _, l => [l]

/-- Whether an element is applied to a byte of a range. -/
def TrainItem.reaches (i : TrainItem) (l : Loc) (n : Nat) : Bool := i.places.any fun p => meets p i.data.length l n

/-- An element applied at a place, and the flags of its rounding. -/
def State.applyAt (s : State) (src : WakeSource) (i : TrainItem) (l : Loc) : State × Nat :=
  let r := i.how.apply i.high (s.homeRead l i.data.length) i.data
  (s.homeStore l r.1 src, r.2)

/-- Bits of the elements that an update combines. -/
def Update.width : Update → Nat
  | .combine _ et _ => etWidth et
  | _ => 8

/-- The old value of a `vamo` has returned (R236): the element of the destination register, and its landed bit once no other
old value or load is still to fill the group (R79). -/
def State.giveOld (s : State) (n reg idx w v : Nat) : State :=
  let g := idx / 8
  let due := s.trains.any fun t => t.hart = some n && t.items.any fun i => i.old.elim false fun p => p.1 = reg && p.2 / 8 = g
  s.modHart n fun h =>
    let v := Vector.ofFn fun i : Fin 32 => if i.val = reg then setElemOf h.v[i] w idx v else h.v[i]
    let flying := Vector.ofFn fun i : Fin 32 =>
      if i.val = reg && !due && h.reassembly.all (fun r => r.reg ≠ reg || r.width = 6) then splice h.flying[i] g 1 0 else h.flying[i]
    { h with
      v := v
      flying := flying
      status.vs := .dirty }

/-- An element applied at its home, or at every member of its group (R106), and the flags of its rounding. The old value of a
`vamo` goes back to its hart (R236). -/
def State.applyItem (s : State) (hart : Option Nat) (i : TrainItem) : State × Nat :=
  let src := hart.elim .peer WakeSource.hart
  let old := leNat (s.homeRead i.loc i.data.length)
  let r := match i.how with
    | .spread _ => (i.places.foldl (fun (t : State) p => (t.applyAt src i p).1) s, 0)
    | _ => s.applyAt src i i.loc
  match hart, i.old with
  | some n, some (reg, idx) => (r.1.giveOld n reg idx i.how.width (pick i.how.width i.high old), r.2)
  | _, _ => r

/-- Flags of a completed operation (R237, R326, R393): in `FLAGS` of the issuing hart, or in FLAGSLOT of the context that
issued it once the hart runs another. -/
def State.flagsTo (s : State) (hart : Option Nat) (ctx : Word) (fl : Nat) : State :=
  match hart with
  | none => s
  | some n =>
    if fl = 0 then s
    else if !bitOf ctx 0 || (s.hartAt n).ctxarea = ctx then
      s.modHart n fun h => { h with flags := Machine.raiseFlags h.flags fl }
    else
      let a := Loc.glob (bits ctx 56 13 * 8192)
      s.setHome64 a (s.home64 a ||| fl)

/-- Elements of trains with the numbers of their train and of their place in it, in the order in which they were sent. -/
def itemList (l : List Train) : List ((Nat × Nat) × Option Nat × TrainItem) :=
  (enum l).flatMap fun t => (enum t.2.items).map fun i => ((t.1, i.1), t.2.hart, i.2)

/-- The chosen elements, and the earlier ones of the same hart that are to be applied to one of their bytes first (R83, R85,
R106). -/
def withEarlier (chosen : (Nat × Nat) × Option Nat × TrainItem → Bool) (l : List ((Nat × Nat) × Option Nat × TrainItem)) :
    List ((Nat × Nat) × Option Nat × TrainItem) :=
  l.foldr (fun x acc => if chosen x || acc.any fun y =>
      x.2.1 = y.2.1 && y.2.2.places.any fun p => x.2.2.reaches p y.2.2.data.length then x :: acc else acc) []

/-- Elements of trains applied at their homes in the order given. -/
def State.applyItems (s : State) (l : List ((Nat × Nat) × Option Nat × TrainItem)) : State :=
  l.foldl (fun (s : State) x =>
    let t := { s with trains := s.trains.modify x.1.1 fun u => { u with
      items := u.items.erase x.2.2
      applied := u.applied + 1 } }
    let r := t.applyItem x.2.1 x.2.2
    { r.1 with trains := r.1.trains.modify x.1.1 fun u => { u with fl := u.fl ||| r.2 } }) s

/-- The chosen elements of trains arrive at their homes, each after the earlier ones that it has to follow (R83, R104, R106). -/
def State.landItems (s : State) (chosen : (Nat × Nat) × Option Nat × TrainItem → Bool) : State :=
  s.applyItems (withEarlier chosen (itemList s.trains))

/-- Whether a train goes to the root of a group (R106). -/
def Train.spreads (t : Train) : Bool := t.items.any fun i => match i.how with
  | .spread _ => true
  | _ => false

/-- The items of a train applied in order, and the flags of all of it. -/
def State.applyTrain (s : State) (t : Train) : State × Nat :=
  t.items.foldl (fun (p : State × Nat) i =>
    let r := p.1.applyItem t.hart i
    (r.1, p.2 ||| r.2)) (s, t.fl)

/-- A train applied in order and acknowledged: its flags go to who issued it (R104, R237). -/
def State.settleTrain (s : State) (t : Train) : State :=
  let r := ({ s with trains := s.trains.erase t } : State).applyTrain t
  r.1.flagsTo t.hart t.ctx r.2

/-- The trains of a kind applied, in order, and acknowledged; what must come before them because of a group's root is applied
first (R106). -/
def State.settleTrains (s : State) (p : Train → Bool) : State :=
  let s := if s.trains.any Train.spreads then s.landItems fun x => (s.trains[x.1.1]?).elim false p else s
  (s.trains.filter p).foldl State.settleTrain s

/-- Trains of the current hart. -/
def State.ownTrains (s : State) : List Train := s.trains.filter fun t => t.hart = some s.hart.id

/-- The current hart's trains to endpoints that answer are acknowledged (R104). -/
def State.ackTrains (s : State) : State := s.settleTrains fun t => t.hart = some s.hart.id && s.answering t.ep

/-- Endpoint and die of a home. -/
def State.homeDie (s : State) (l : Loc) : Endpoint × Die :=
  match l with
  | .glob pa => (epOf pa, dieOf (offOf pa))
  | .spad c _ => (s.endpt, .ofNat 3 (dieOfCore c))

/-- Before `n` bytes are accessed at the home for hart `h`, its trains that meet them are done with (R83, R87). -/
def State.agreeTrains (s : State) (h : Nat) (l : Loc) (n : Nat) : State :=
  if s.trains.any fun t => t.hart = some h && t.items.any fun i => i.reaches l n
  then s.settleTrains fun t => t.hart = some h && ((t.ep, t.die) = s.homeDie l || t.items.any fun i => i.reaches l n) else s

/-- Whether two requests read a byte in common. -/
def Reassembly.shares (r q : Reassembly) : Bool :=
  r.src.any fun a => q.src.any fun b => meets a.loc (elemBytes (widthOfCode r.width)) b.loc (elemBytes (widthOfCode q.width))

/-- A request, and the earlier ones that read one of its bytes first (R83). -/
def requestsUpTo (l : List Reassembly) (r : Reassembly) : List Reassembly :=
  (l.takeWhile fun q => q.place ≠ r.place).foldr (fun q acc => if acc.any q.shares then q :: acc else acc) [r]

/-- A response to some positions of an entry: the hart's earlier loads of the same bytes have theirs first, and its earlier
stores to them have been applied (R83). -/
def State.answer (s : State) (r : Reassembly) (mask : BitVec 64) : State :=
  (requestsUpTo s.hart.reassembly r).foldl (fun t q =>
    let m := if q.place = r.place then mask else q.mask
    let u := (q.src.filter fun p => m.getLsbD (p.pos - q.first)).foldl
      (fun t p => t.agreeTrains t.hart.id p.loc (elemBytes (widthOfCode q.width))) t
    u.respond q m) s

/-- Requests answered, in the order in which they stand. -/
def State.answerRequests (s : State) (l : List Reassembly) : State :=
  l.foldl (fun t r => if t.hart.reassembly.contains r then t.answer r r.mask else t) s

/-- The current hart's outstanding requests to endpoints that answer get their responses (R401). -/
def State.landOwn (s : State) : State := s.answerRequests (s.hart.reassembly.filter fun r => s.answering r.ep)

/-- Before the current hart's vector agent accesses bytes, its outstanding requests that meet them are done with (R83). -/
def State.agreeLoads (s : State) (l : Loc) (n : Nat) : State :=
  s.answerRequests (s.hart.reassembly.filter fun r => r.src.any fun q => meets q.loc (elemBytes (widthOfCode r.width)) l n)

/-- Whether a home lies on the compute die of the current hart. -/
def State.onDie (s : State) (l : Loc) : Bool :=
  match l with
  | .glob pa => epOf pa = s.endpt && dieOf (offOf pa) = BitVec.ofNat 3 (dieOfCore s.hart.core)
  | .spad c _ => dieOfCore c = dieOfCore s.hart.core

/-- An element of a store sent: it joins the train of its destination, the newest one that is still open (R104). -/
def State.sendItem (s : State) (i : TrainItem) : State :=
  let d := s.homeDie i.loc
  let mine := fun (t : Train) => t.hart = some s.hart.id && t.ep = d.1 && t.die = d.2 && t.tail.isNone
  let e := i.pos % max 1 s.hart.vl
  let join := fun (t : Train) => if mine t then { t with items := t.items ++ [i], lowest := min t.lowest e } else t
  if s.trains.any mine then { s with trains := s.trains.map join }
  else { s with trains := s.trains ++ [{
    hart := some s.hart.id
    ep := d.1
    die := d.2
    lowest := e
    items := [i]
    head := s.head
    lcnt := s.hart.lcnt
    ctx := s.hart.ctxarea
    start := s.hart.cv.elim s.convoyStart (·.start)
    committed := s.hart.cv.elim false (·.committed) }] }

/-- The tails of the current hart's open trains: their elements have all been sent. -/
def State.closeTrains (s : State) : State :=
  { s with trains := s.trains.map fun t =>
      if t.hart = some s.hart.id && t.tail.isNone then { t with tail := some (t.applied + t.items.length) } else t }

/-- Both. -/
def State.agree (s : State) (l : Loc) (n : Nat) : State := (s.agreeTrains s.hart.id l n).agreeLoads l n

/-- An element of a store by the current hart: on its own die it is performed at once, unless the store is slow, and else it
goes by train (R98, R104). -/
def State.vectorWrite (s : State) (slow : Bool) (i : TrainItem) : State :=
  if s.onDie i.loc && !slow then
    let r := (s.agree i.loc i.data.length).applyItem (some s.hart.id) i
    r.1.raiseFlags r.2
  else (s.agreeLoads i.loc i.data.length).sendItem i

/-! ### The L1 and the store buffer (R86) -/

/-- Uncorrectable data that a vector load reads (R165), bytes that a train of its hart is to write anew set aside (R83). -/
def vectorData (p : Phys) (n : Nat) : M Unit := do
  let s ← get
  checkM (!s.badBut p.loc n fun b => s.ownTrains.any fun t => t.items.any fun i => i.reaches b 1) (.trap p.badTrap)

/-- Bytes of a store laid over a run of bytes that begins at `base`. -/
def overlay (base : Nat) (bs : List Byte) (b : Buffered) : List Byte :=
  (enum bs).map fun p =>
    if b.pa ≤ base + p.1 && base + p.1 < b.pa + b.data.length then b.data.getD (base + p.1 - b.pa) 0 else p.2

/-- A line of the L1 filled from its home, the hart's own earlier stores included (R83, R86). -/
def State.fillLine (s : State) (base : Nat) : State :=
  let s := s.applyLine s.hart.id (base / 64)
  let bs := s.hart.buffer.foldl (overlay base) (s.homeRead (.glob base) 64)
  if s.hart.l1.length < Config.l1Lines then { s with hart.l1 := s.hart.l1 ++ [⟨base, bs⟩] }
  else
    { s with
      hart.l1 := s.hart.l1.eraseIdx (Config.l1Victim s.clock % s.hart.l1.length) ++ [⟨base, bs⟩]
      clock := s.clock + 1 }

/-- Whether a byte is in the store buffer of the current hart. -/
def State.buffered (s : State) (pa : Nat) : Bool := s.hart.buffer.any fun b => b.pa ≤ pa && pa < b.pa + b.data.length

/-- The line of the L1 that holds an address. -/
def State.cachedLine (s : State) (pa : Nat) : Option Line := s.hart.l1.find? fun l => l.base = pa / 64 * 64

/-- A scalar load's bytes from global memory, through store buffer and L1 (R86). They lie in one 64-byte line. A register of
the hub window is read at the hub, after the hart's own stores (R83, R434). -/
def State.scalarRead (s : State) (pa n : Nat) : State × List Byte :=
  if inHub (offOf pa) then
    let s := s.drain.applyLine s.hart.id (pa / 64)
    (s, s.homeRead (.glob pa) n)
  else
    let base := pa / 64 * 64
    let s := if (s.cachedLine pa).isSome then s else s.fillLine base
    let line := (s.cachedLine pa).elim [] (·.data)
    (s, s.hart.buffer.foldl (overlay pa) ((line.drop (pa - base)).take n))

/-- The bytes of a fetch: like a load's, but no line is filled (R81, R83, R86; log 84). -/
def State.fetchRead (s : State) (pa n : Nat) : State × List Byte :=
  let base := pa / 64 * 64
  match s.cachedLine pa with
  | some l => (s, s.hart.buffer.foldl (overlay pa) ((l.data.drop (pa - base)).take n))
  | none =>
    let t := s.applyLine s.hart.id (pa / 64)
    (t, s.hart.buffer.foldl (overlay pa) (t.homeRead (.glob pa) n))

/-- Sign extension of an `n`-byte value. -/
def sextBytes (n v : Nat) : Word := wordI (signed (8 * n) v)

/-- A value of `n` bytes as a load leaves it in its register (R164). -/
def loaded (sx : Bool) (n v : Nat) : Word := if sx then sextBytes n v else word v

/-- A load that was left open gets its value (R84, R87). -/
def State.landLate (s : State) : State :=
  match s.hart.late with
  | none => s
  | some l =>
    let r := ({ s with hart.late := none }).scalarRead l.pa l.bytes
    r.1.setX l.reg (loaded l.signed l.bytes (leNat r.2))

/-- Before the scalar agent accesses bytes of a 64-byte line, a load of that line that was left open has its value (R83). -/
def State.lateFirst (s : State) (l : Loc) : State :=
  match l, s.hart.late with
  | .glob pa, some q => if q.pa / 64 = pa / 64 then s.landLate else s
  | _, _ => s

/-- Whether a posted store of the current hart is still to write a byte. -/
def State.postedTo (s : State) (a : Nat) : Bool :=
  s.posted.any fun p => p.hart = s.hart.id && p.pa ≤ a && a < p.pa + p.data.length

/-- What a read that is not wholly in the store buffer and the L1 needs of the home: an answer (R98), and bytes without an
error (R165), those that the hart's own stores write first set aside (R83). -/
def homeCheck (p : Phys) (pa n : Nat) : M Unit := do
  let s ← get
  if (s.cachedLine pa).isSome then pure ()
  else do
    let far := ((List.range n).map (· + pa)).filter fun a => !s.buffered a
    checkM (far = [] || !s.homeSilent p.loc) (.stall 12 0)
    checkM (!far.any fun a => s.isBad (.glob a) 1 && !s.postedTo a) (.trap ⟨30, p.va, 0⟩)

/-- What a scalar load reads from global memory. A line with an uncorrectable error is not kept in the L1 (log 25). -/
def State.loadRead (s : State) (pa n : Nat) : State × List Byte :=
  if s.isBad (.glob (pa / 64 * 64)) 64 && !inHub (offOf pa) then s.fetchRead pa n else s.scalarRead pa n

/-- A scalar load from global memory. -/
def scalarData (p : Phys) (pa n : Nat) : M (List Byte) := do
  modify fun s => s.lateFirst (.glob pa)
  if inHub (offOf pa) then drainAll
  homeCheck p pa n
  let r := (← get).loadRead pa n
  set r.1
  pure r.2

/-- A scalar store enters the store buffer, and its line in the L1 is updated (R86). -/
def State.scalarWrite (s : State) (pa : Nat) (bs : List Byte) : State :=
  let b : Buffered := ⟨pa, bs⟩
  { s with
    hart.buffer := s.hart.buffer ++ [b]
    hart.l1 := if inHub (offOf pa) then s.hart.l1
      else s.hart.l1.map fun l => if l.base = pa / 64 * 64 then { l with data := overlay l.base l.data b } else l }

/-- The whole L1 invalidated (R86, R92). -/
def State.dropL1 (s : State) : State := { s with hart.l1 := [] }

/-! ### Releases and acquires (R92, R94, R100, R101) -/

/-- The flush-failure latch raised by a release at DEVICE scope or wider, a fence or a `flushrd` (R100). -/
def latchCheck : M Unit := do
  let s ← get
  match s.hart.latch with
  | none => pure ()
  | some l =>
    modify fun s => { s with hart.latch := none }
    trapM l.code (epDie l.ep l.die) (word l.deadline)

/-- Code of a scope (R93). -/
def scopeCode : Scope → Nat
  | .hart => 0 | .core => 1 | .cluster => 2 | .device => 3 | .domain => 4

/-- Whether a hart lies within a scope of another (R93). -/
def within (sc : Scope) (a b : Nat) : Bool :=
  match sc with
  | .hart => a = b
  | .core => a / 4 = b / 4
  | .cluster => a / 48 = b / 48
  | _ => true

/-- The posted stores of the current hart that no flush covers are ordered before the release (R95). -/
def State.markReleased (s : State) (sc : Scope) : State :=
  { s with posted := s.posted.map fun p =>
      if p.hart = s.hart.id then { p with released := max p.released (scopeCode sc + 1) } else p }

/-- The accesses of the vector agent that a release waits for: trains and responses (R94, R104). The wait has a bound as every
stall has, and R74 gives it no kind of its own (log 100). -/
def vectorDone : M Unit := do
  modify fun s => s.ackTrains.landOwn
  let s ← get
  match s.ownTrains, s.hart.reassembly with
  | t :: _, _ => throw (.stall 12 (epDie t.ep t.die).toNat)
  | [], r :: _ => throw (.stall 12 (epDie r.ep r.die).toNat)
  | [], [] => pure ()

/-- A release at a scope (R92, R94, R95, R101). -/
def release (sc : Scope) : M Unit := do
  modify State.flushOverflow
  if sc = .device || sc = .domain then latchCheck
  modify State.drain
  let s ← get
  match sc with
  | .device => flushAll (s.hart.toFlush.filter fun q => q.1 = s.endpt)
  | .domain => flushAll s.hart.toFlush
  | _ => pure ()
  checkM ((← get).hart.buffer = []) (.stall 12 0)
  modify State.landLate
  vectorDone
  modify fun s => s.markReleased sc

/-- Stores of other harts that an acquire at a scope makes visible: those before a release, as far as the scopes hold both
harts (R95; log 85). Only a store that never reaches its home is left out (R405, R406). -/
def State.takeReleased (s : State) (sc : Scope) : State :=
  let me := s.hart.id
  let mine := fun (p : Posted) => p.hart ≠ me && 0 < p.released && within (scopeOfCode (p.released - 1)) p.hart me
    && within sc me p.hart && !s.down.contains (epOf p.pa) && !s.exhausted.contains (epOf p.pa)
  { (s.posted.filter mine).foldl (fun s p => s.applyPosted p) s with posted := s.posted.filter fun p => !mine p }

/-- An acquire at a scope (R92, R95). -/
def State.acquire (s : State) (sc : Scope) : State := if sc = .hart then s else (s.takeReleased sc).dropL1

/-- Outstanding copies of a hart (R88, R91). -/
def State.copiesOf (s : State) (hart : Nat) : List Copy := s.copies.filter fun c => c.hart = hart

/-! ### Accesses of the current hart -/

/-- Fetch of a word (R19, R56, R138). -/
def fetchWord (a : Word) : M (BitVec 32) := do
  let s ← get
  let p ← resolve s.ctx .fetch a 4 4 .answered
  match p.loc with
  | .glob pa => do
    modify fun s => s.lateFirst (.glob pa)
    homeCheck p pa 4
    let r := (← get).fetchRead pa 4
    set r.1
    pure (.ofNat 32 (leNat r.2))
  | l => do pure (.ofNat 32 (leNat ((← get).homeRead l 4)))

/-- Where a scalar load of `n` bytes reads (R164, R165). -/
def scalarPlace (p : Word) (n : Nat) : M Phys := do
  let s ← get
  let q ← resolve s.ctx .load p n n .answered
  allow s.ctx .load q n
  pure q

/-- What a scalar load reads there (R164, R165). -/
def scalarValue (q : Phys) (n : Nat) : M Nat := do
  match q.loc with
  | .glob pa => do pure (leNat (← scalarData q pa n))
  | l => do
    dataCheck q n
    pure (leNat ((← get).homeRead l n))

/-- A scalar store of `n` bytes (R164, R165). -/
def scalarStore (p : Word) (n v : Nat) : M Unit := do
  let s ← get
  let q ← resolve s.ctx .store p n n .posted
  allow s.ctx .store q n
  match q.loc with
  | .glob pa => do
    modify fun s => s.lateFirst q.loc
    let r := (← get).makeRoom
    set r.1
    checkM r.2 (.stall 12 0)
    modify fun s => s.scalarWrite pa (leBytes v n)
  | l => modify fun s => s.homeSet l (leBytes v n)

/-- A load of `n` bytes by the vector agent, at the home (R82). -/
def homeLoad (q : Phys) (n : Nat) : M (List Byte) := do
  vectorData q n
  modify fun s => s.agree q.loc n
  pure ((← get).homeRead q.loc n)

/-- The scalar agent's own accesses to a 64-byte line are done with, before one that it makes at the home (R81, R83). -/
def State.ownFirst (s : State) (l : Loc) : State :=
  match l with
  | .glob pa => (s.lateFirst l).drain.applyLine s.hart.id (pa / 64)
  | .spad _ _ => s

/-- A store of the scalar agent at the home: the L1 keeps no older copy of the line (R83). -/
def State.scalarStoreAt (s : State) (l : Loc) (bs : List Byte) : State :=
  match l with
  | .glob pa =>
    let s := s.ownFirst l
    { s.homeStore l bs (.hart s.hart.id) with hart.l1 := s.hart.l1.filter fun k => k.base ≠ pa / 64 * 64 }
  | .spad _ _ => s.homeSet l bs

end Sys2Proof.Machine
end

