-- ==== Sys2Proof/Machine/Scalar.lean ====
section
/-! DEFINITION. Scalar instructions: register, multiply and divide, immediate and shift forms, constants, branches, jumps
and `lp` (R154 to R162, R166 to R168, R173, R174). -/

namespace Sys2Proof.Machine

/-! ### Shared operations -/

/-- A register result: S(d) := v, and the next word follows. -/
def State.result (s : State) (d : SReg) (v : Word) : State := (s.setX d v).advance

/-- A shift amount is taken whole (R157). -/
def shiftLeft (x : Word) (n : Nat) : Word := if 64 ≤ n then 0 else x <<< n
def shiftRight (x : Word) (n : Nat) : Word := if 64 ≤ n then 0 else x >>> n
def shiftRightArith (x : Word) (n : Nat) : Word := if 64 ≤ n then (if x.msb then -1 else 0) else x.sshiftRight n

/-- 1 or 0. -/
def truth (b : Bool) : Word := if b then 1 else 0

/-- The lesser and the greater of two words, signed and unsigned (R157). -/
def minS (x y : Word) : Word := if x.toInt ≤ y.toInt then x else y
def maxS (x y : Word) : Word := if x.toInt ≤ y.toInt then y else x
def minU (x y : Word) : Word := if x.toNat ≤ y.toNat then x else y
def maxU (x y : Word) : Word := if x.toNat ≤ y.toNat then y else x

/-- Bit counts of a word (R157). -/
def leadingZeros (x : Word) : Word := if x = 0 then 64 else word (63 - msb x.toNat)
def trailingZeros (x : Word) : Word := word ((lowestOne x.toNat 64).getD 64)
def oneBits (x : Word) : Word := word (popcount x.toNat 64)

/-- Byte i of the result is byte 7 − i of x (R157). -/
def swapBytes (x : Word) : Word := word (leNat (leBytes x.toNat 8).reverse)

/-- Bits [127:64] of a product (R158). -/
def highHalf (p : Int) : Word := wordI (p / 2 ^ 64)

/-- Quotient and remainder by a divisor that is not zero, rounded toward zero (R159). -/
def quotS (x y : Word) : Word := wordI (x.toInt.tdiv y.toInt)
def remS (x y : Word) : Word := wordI (x.toInt.tmod y.toInt)
def quotU (x y : Word) : Word := word (x.toNat / y.toNat)
def remU (x y : Word) : Word := word (x.toNat % y.toNat)

/-- A division (R159): `q` the result by a divisor that is not zero, `z` the one by zero, which sets DZ or traps. -/
def State.divide (s : State) (d : SReg) (y q z : Word) : State :=
  if y = 0 then
    if bit s.hart.frm.toNat 9 then s.raise ⟨33, 0, s.hart.pc⟩ else (s.raiseFlags fDZ).result d z
  else s.result d q

/-- Address of a loop register's word: bits [63:2] (R173). -/
def loopAddr (w : Word) : Nat := w.toNat / 4 * 4

/-- Whether the hart runs at the privilege of its loop (R175). -/
def Hart.loopHere (h : Hart) : Bool := h.lcnt ≠ 0 && bitOf h.lend 0 == (h.priv == .super)

/-- A taken control transfer. One in the loop body to a target outside [LBEG, LEND] ends the loop (R175); one at another
privilege than LEND.PL does not, by the model's choice (log 121). -/
def State.transfer (s : State) (target : Word) : State :=
  let h := s.hart
  let inBody := fun (a : Nat) => loopAddr h.lbeg ≤ a && a ≤ loopAddr h.lend
  let s := { s.jump target with hart.took := true }
  if h.loopHere && inBody h.pc.toNat && !inBody target.toNat then { s with hart.lcnt := 0 } else s

/-- A conditional branch (R166). -/
def State.branch (s : State) (taken : Bool) (o : BitVec 12) : State :=
  if taken then s.transfer (s.hart.pc + o.signExtend 64 * 4) else s.advance

/-! ### Register forms (R157, R158) -/

/-- `add` (R157). -/
def execAdd (d a b : SReg) (s : State) : Result := .next (s.result d (s.x a + s.x b))

/-- `sub` (R157). -/
def execSub (d a b : SReg) (s : State) : Result := .next (s.result d (s.x a - s.x b))

/-- `and` (R157). -/
def execAnd (d a b : SReg) (s : State) : Result := .next (s.result d (s.x a &&& s.x b))

/-- `or` (R157). -/
def execOr (d a b : SReg) (s : State) : Result := .next (s.result d (s.x a ||| s.x b))

/-- `xor` (R157). -/
def execXor (d a b : SReg) (s : State) : Result := .next (s.result d (s.x a ^^^ s.x b))

/-- `andn` (R157). -/
def execAndn (d a b : SReg) (s : State) : Result := .next (s.result d (s.x a &&& ~~~(s.x b)))

/-- `orn` (R157). -/
def execOrn (d a b : SReg) (s : State) : Result := .next (s.result d (s.x a ||| ~~~(s.x b)))

/-- `sll` (R157). -/
def execSll (d a b : SReg) (s : State) : Result := .next (s.result d (shiftLeft (s.x a) (s.x b).toNat))

/-- `srl` (R157). -/
def execSrl (d a b : SReg) (s : State) : Result := .next (s.result d (shiftRight (s.x a) (s.x b).toNat))

/-- `sra` (R157). -/
def execSra (d a b : SReg) (s : State) : Result := .next (s.result d (shiftRightArith (s.x a) (s.x b).toNat))

/-- `slt` (R157). -/
def execSlt (d a b : SReg) (s : State) : Result := .next (s.result d (truth (decide ((s.x a).toInt < (s.x b).toInt))))

/-- `sltu` (R157). -/
def execSltu (d a b : SReg) (s : State) : Result := .next (s.result d (truth (decide ((s.x a).toNat < (s.x b).toNat))))

/-- `min` (R157). -/
def execMin (d a b : SReg) (s : State) : Result := .next (s.result d (minS (s.x a) (s.x b)))

/-- `max` (R157). -/
def execMax (d a b : SReg) (s : State) : Result := .next (s.result d (maxS (s.x a) (s.x b)))

/-- `minu` (R157). -/
def execMinu (d a b : SReg) (s : State) : Result := .next (s.result d (minU (s.x a) (s.x b)))

/-- `maxu` (R157). -/
def execMaxu (d a b : SReg) (s : State) : Result := .next (s.result d (maxU (s.x a) (s.x b)))

/-- `clz` (R157). -/
def execClz (d a : SReg) (s : State) : Result := .next (s.result d (leadingZeros (s.x a)))

/-- `ctz` (R157). -/
def execCtz (d a : SReg) (s : State) : Result := .next (s.result d (trailingZeros (s.x a)))

/-- `popc` (R157). -/
def execPopc (d a : SReg) (s : State) : Result := .next (s.result d (oneBits (s.x a)))

/-- `bswap` (R157). -/
def execBswap (d a : SReg) (s : State) : Result := .next (s.result d (swapBytes (s.x a)))

/-- `mul` (R158). -/
def execMul (d a b : SReg) (s : State) : Result := .next (s.result d (s.x a * s.x b))

/-- `mulh` (R158). -/
def execMulh (d a b : SReg) (s : State) : Result := .next (s.result d (highHalf ((s.x a).toInt * (s.x b).toInt)))

/-- `mulhu` (R158). -/
def execMulhu (d a b : SReg) (s : State) : Result := .next (s.result d (highHalf ((s.x a).toNat * (s.x b).toNat : Nat)))

/-- `mulhsu` (R158). -/
def execMulhsu (d a b : SReg) (s : State) : Result := .next (s.result d (highHalf ((s.x a).toInt * ((s.x b).toNat : Int))))

/-- `div` (R159). -/
def execDiv (d a b : SReg) (s : State) : Result := .next (s.divide d (s.x b) (quotS (s.x a) (s.x b)) (-1))

/-- `divu` (R159). -/
def execDivu (d a b : SReg) (s : State) : Result := .next (s.divide d (s.x b) (quotU (s.x a) (s.x b)) (-1))

/-- `rem` (R159). -/
def execRem (d a b : SReg) (s : State) : Result := .next (s.divide d (s.x b) (remS (s.x a) (s.x b)) (s.x a))

/-- `remu` (R159). -/
def execRemu (d a b : SReg) (s : State) : Result := .next (s.divide d (s.x b) (remU (s.x a) (s.x b)) (s.x a))

/-! ### Immediate and shift forms, constants (R160 to R162) -/

/-- `addi` (R160). -/
def execAddi (d a : SReg) (i : BitVec 15) (s : State) : Result := .next (s.result d (s.x a + i.signExtend 64))

/-- `andi` (R160). -/
def execAndi (d a : SReg) (i : BitVec 15) (s : State) : Result := .next (s.result d (s.x a &&& i.signExtend 64))

/-- `ori` (R160). -/
def execOri (d a : SReg) (i : BitVec 15) (s : State) : Result := .next (s.result d (s.x a ||| i.signExtend 64))

/-- `xori` (R160). -/
def execXori (d a : SReg) (i : BitVec 15) (s : State) : Result := .next (s.result d (s.x a ^^^ i.signExtend 64))

/-- `slti` (R160). -/
def execSlti (d a : SReg) (i : BitVec 15) (s : State) : Result := .next (s.result d (truth (decide ((s.x a).toInt < i.toInt))))

/-- `sltiu` (R160). -/
def execSltiu (d a : SReg) (i : BitVec 15) (s : State) : Result := .next (s.result d (truth (decide ((s.x a).toNat < (i.signExtend 64).toNat))))

/-- `slli` (R161). -/
def execSlli (d a : SReg) (amt : BitVec 6) (s : State) : Result := .next (s.result d (shiftLeft (s.x a) amt.toNat))

/-- `srli` (R161). -/
def execSrli (d a : SReg) (amt : BitVec 6) (s : State) : Result := .next (s.result d (shiftRight (s.x a) amt.toNat))

/-- `srai` (R161). -/
def execSrai (d a : SReg) (amt : BitVec 6) (s : State) : Result := .next (s.result d (shiftRightArith (s.x a) amt.toNat))

/-- `lui` (R162). -/
def execLui (d : SReg) (i : BitVec 20) (s : State) : Result := .next (s.result d (i.signExtend 64 <<< 15))

/-- `auipc` (R162). -/
def execAuipc (d : SReg) (i : BitVec 20) (s : State) : Result := .next (s.result d (s.hart.pc + i.signExtend 64 <<< 15))

/-! ### Branches and jumps (R166 to R168) -/

/-- `beq` (R166). -/
def execBeq (a b : SReg) (o : BitVec 12) (s : State) : Result := .next (s.branch (s.x a == s.x b) o)

/-- `bne` (R166). -/
def execBne (a b : SReg) (o : BitVec 12) (s : State) : Result := .next (s.branch (s.x a != s.x b) o)

/-- `blt` (R166). -/
def execBlt (a b : SReg) (o : BitVec 12) (s : State) : Result := .next (s.branch (decide ((s.x a).toInt < (s.x b).toInt)) o)

/-- `bge` (R166). -/
def execBge (a b : SReg) (o : BitVec 12) (s : State) : Result := .next (s.branch (decide ((s.x b).toInt ≤ (s.x a).toInt)) o)

/-- `bltu` (R166). -/
def execBltu (a b : SReg) (o : BitVec 12) (s : State) : Result := .next (s.branch (decide ((s.x a).toNat < (s.x b).toNat)) o)

/-- `bgeu` (R166). -/
def execBgeu (a b : SReg) (o : BitVec 12) (s : State) : Result := .next (s.branch (decide ((s.x b).toNat ≤ (s.x a).toNat)) o)

/-- `jal` (R167). -/
def execJal (d : SReg) (i : BitVec 20) (s : State) : Result :=
  .next ((s.setX d (s.hart.pc + 4)).transfer (s.hart.pc + i.signExtend 64 * 4))

/-- `jalr` (R168, R138). -/
def execJalr (d a : SReg) (i : BitVec 15) (s : State) : Result :=
  let target := s.x a + i.signExtend 64
  .next (if target.toNat % 4 = 0 then (s.setX d (s.hart.pc + 4)).transfer target else s.raise ⟨cMisaligned, target, 0⟩)

/-! ### The hardware loop (R173, R174) -/

/-- `lp` (R174). `LEND` holds the last body word's address in [63:2] and PL in [0] (R173). -/
def execLp (a : SReg) (n : BitVec 15) (s : State) : Result :=
  let h := s.hart
  let last := h.pc + word (4 * n.toNat)
  .next (
    if n = 0 then s.raise ⟨cLoopState, 0, 0⟩
    else if h.lcnt ≠ 0 then s.raise ⟨cLoopState, h.lcnt, 0⟩
    else
      let s' := { s with hart.lbeg := h.pc + 4, hart.lend := last + truth (h.priv == Priv.super) }
      if s.x a = 0 then s'.jump (last + 4) else { s' with hart.lcnt := s.x a }.advance)

end Sys2Proof.Machine
end

