-- ==== Sys2Proof/Machine/ScalarMem.lean ====
section
/-! DEFINITION. Scalar loads, stores and atomics (R163 to R165, R170 to R172). -/

namespace Sys2Proof.Machine

/-- The effective pointer (R164). -/
def State.pointer (s : State) (a : SReg) (i : BitVec 12) : Word := s.x a + i.signExtend 64

/-- What a computation leaves behind when it stands for the whole of a scalar instruction: `f` on success, and on a stop
the trap or the stall. -/
def State.runM {α : Type} (s : State) (m : M α) (f : α → State → State) : State :=
  match m.go s with
  | (.ok v, s') => f v s'
  | (.error h, s') => s'.halt h

/-- Whether a load leaves its value open (R84, R87; log 86): it is to be slow, and it misses the L1 at a home of this endpoint
with good bytes, so that it can meet no fault any more. -/
def State.defers (s : State) (q : Phys) (n : Nat) : Option Nat :=
  match q.loc with
  | .glob pa =>
    if s.hart.slow && !inHub (offOf pa) && (s.cachedLine pa).isNone && epOf pa = s.endpt && !s.homeSilent q.loc
      && !s.isBad q.loc n
    then some pa else none
  | .spad _ _ => none

/-- A load of `n` bytes into S(d), with its sign or without (R164). -/
def State.load (s : State) (d a : SReg) (i : BitVec 12) (n : Nat) (sx : Bool) : State :=
  s.runM (scalarPlace (s.pointer a i) n) fun q t =>
    match t.defers q n with
    | some pa => { t.landLate with hart.slow := false, hart.late := some ⟨d, pa, n, sx, s.hart.pc⟩ }.advance
    | none => t.runM (scalarValue q n) fun v u => u.result d (loaded sx n v)

/-- A store of the `n` low bytes of S(r) (R164). -/
def State.store (s : State) (r a : SReg) (i : BitVec 12) (n : Nat) : State :=
  s.runM (scalarStore (s.pointer a i) n (s.x r).toNat) fun _ s' => s'.advance

/-! ### Loads and stores (R163, R164) -/

/-- `lb` (R164). -/
def execLb (d a : SReg) (i : BitVec 12) (s : State) : Result := .next (s.load d a i 1 true)

/-- `lbu` (R164). -/
def execLbu (d a : SReg) (i : BitVec 12) (s : State) : Result := .next (s.load d a i 1 false)

/-- `lh` (R164). -/
def execLh (d a : SReg) (i : BitVec 12) (s : State) : Result := .next (s.load d a i 2 true)

/-- `lhu` (R164). -/
def execLhu (d a : SReg) (i : BitVec 12) (s : State) : Result := .next (s.load d a i 2 false)

/-- `lw` (R164). -/
def execLw (d a : SReg) (i : BitVec 12) (s : State) : Result := .next (s.load d a i 4 true)

/-- `lwu` (R164). -/
def execLwu (d a : SReg) (i : BitVec 12) (s : State) : Result := .next (s.load d a i 4 false)

/-- `ld` (R164). -/
def execLd (d a : SReg) (i : BitVec 12) (s : State) : Result := .next (s.load d a i 8 false)

/-- `sb` (R164). -/
def execSb (r a : SReg) (i : BitVec 12) (s : State) : Result := .next (s.store r a i 1)

/-- `sh` (R164). -/
def execSh (r a : SReg) (i : BitVec 12) (s : State) : Result := .next (s.store r a i 2)

/-- `sw` (R164). -/
def execSw (r a : SReg) (i : BitVec 12) (s : State) : Result := .next (s.store r a i 4)

/-- `sd` (R164). -/
def execSd (r a : SReg) (i : BitVec 12) (s : State) : Result := .next (s.store r a i 8)

/-! ### Atomics (R96, R171, R172) -/

/-- The new value of an atomic on values of `w` bits, if it stores one (R171). -/
def atomicNew (op : AtomicOp) (w m y expected : Nat) : Option Nat :=
  match op with
  | .swap => some y
  | .add => some ((m + y) % 2 ^ w)
  | .and => some (m &&& y)
  | .or => some (m ||| y)
  | .xor => some (m ^^^ y)
  | .min => some (if signed w m ≤ signed w y then m else y)
  | .max => some (if signed w m ≤ signed w y then y else m)
  | .minu => some (Nat.min m y)
  | .maxu => some (Nat.max m y)
  | .cas => if m = expected then some y else none

/-- One indivisible read-modify-write of `n` bytes at a home, and the old value (R96). -/
def State.atomicAt (s : State) (l : Loc) (n : Nat) (op : AtomicOp) (y expected : Nat) (src : WakeSource) : State × Nat :=
  let m := leNat (s.homeRead l n)
  match atomicNew op (8 * n) m y expected with
  | some v => (s.homeStore l (leBytes v n) src, m)
  | none => (s, m)

/-- Before a SAMO is sent: its line leaves the L1, and the stores that the hart posted to the line are applied
(R86, R99). -/
def State.dropLine (s : State) (l : Loc) : State :=
  match l with
  | .glob pa =>
    let s := (s.lateFirst l).applyLine s.hart.id (pa / 64)
    { s with hart.l1 := s.hart.l1.filter fun k => k.base ≠ pa / 64 * 64 }
  | .spad _ _ => s

/-- A scalar atomic of `n` bytes (R172): faults as a store, release, drain, the operation at the home, acquire. The data that it
reads is what the hart's earlier stores have left at the home (R83, R86). -/
def scalarAtomic (p : Word) (n : Nat) (op : AtomicOp) (y expected : Nat) (sc : Scope) (o : Order) : M Nat := do
  if o.releases && (sc = .device || sc = .domain) then latchCheck
  let q ← resolve (← get).ctx .atomic p n n .answered
  allow (← get).ctx .atomic q n
  if o.releases then release sc
  answered q.loc
  drainAll
  modify fun s => s.dropLine q.loc
  dataCheck q n
  let r := (← get).atomicAt q.loc n op y expected (.hart (← get).hart.id)
  set r.1
  if o.acquires then modify fun s => s.acquire sc
  pure r.2

/-- A SAMO instruction (R171). -/
def State.samo (s : State) (d a b : SReg) (w : Bool) (sc : Scope) (o : Order) (op : AtomicOp) : State :=
  let n := if w then 8 else 4
  s.runM (scalarAtomic (s.x a) n op ((s.x b).toNat % 2 ^ (8 * n)) ((s.x d).toNat % 2 ^ (8 * n)) sc o)
    fun v s' => s'.result d (sextBytes n v)

/-- `aswap` (R171). -/
def execAswap (d a b : SReg) (w : Bool) (sc : Scope) (o : Order) (s : State) : Result := .next (s.samo d a b w sc o .swap)

/-- `aadd` (R171). -/
def execAadd (d a b : SReg) (w : Bool) (sc : Scope) (o : Order) (s : State) : Result := .next (s.samo d a b w sc o .add)

/-- `aand` (R171). -/
def execAand (d a b : SReg) (w : Bool) (sc : Scope) (o : Order) (s : State) : Result := .next (s.samo d a b w sc o .and)

/-- `aor` (R171). -/
def execAor (d a b : SReg) (w : Bool) (sc : Scope) (o : Order) (s : State) : Result := .next (s.samo d a b w sc o .or)

/-- `axor` (R171). -/
def execAxor (d a b : SReg) (w : Bool) (sc : Scope) (o : Order) (s : State) : Result := .next (s.samo d a b w sc o .xor)

/-- `amin` (R171). -/
def execAmin (d a b : SReg) (w : Bool) (sc : Scope) (o : Order) (s : State) : Result := .next (s.samo d a b w sc o .min)

/-- `amax` (R171). -/
def execAmax (d a b : SReg) (w : Bool) (sc : Scope) (o : Order) (s : State) : Result := .next (s.samo d a b w sc o .max)

/-- `aminu` (R171). -/
def execAminu (d a b : SReg) (w : Bool) (sc : Scope) (o : Order) (s : State) : Result := .next (s.samo d a b w sc o .minu)

/-- `amaxu` (R171). -/
def execAmaxu (d a b : SReg) (w : Bool) (sc : Scope) (o : Order) (s : State) : Result := .next (s.samo d a b w sc o .maxu)

/-- `acas` (R171). -/
def execAcas (d a b : SReg) (w : Bool) (sc : Scope) (o : Order) (s : State) : Result := .next (s.samo d a b w sc o .cas)

end Sys2Proof.Machine
end

