-- ==== Sys2Proof/Machine/VectorCore.lean ====
section
/-! DEFINITION. What every vector-class instruction shares: elements of registers (R33), the second operand (R188), issue
checks (R9, R151), landed bits (R79), the element loop (R189, R191), where a stop leaves the hart (R344, R345), and the
steps of the LFSR (R41). -/

namespace Sys2Proof.Machine

/-! ### The second operand (R188) -/

/-- An imm5 as the integer it stands for: zero-extended where the instruction says so, else sign-extended (R145). -/
def imm5 (zext : Bool) (i : BitVec 5) : Int := if zext then i.toNat else i.toInt

/-- The element of type `et` that kind 2 forms from an immediate (R188). -/
def immElem (et : Nat) (v : Int) : Nat :=
  if etInt et then wrap (etWidth et) v
  else if etFloat et then ((fmtOf et).round 0 0 false (.fin (decide (v < 0)) v.natAbs 0 false) 0).1
  else if etRns et then rnsOfInt et v
  else wrap (etWidth et) v

/-- B for element `e` of row `r` under type `et` (R188). -/
def State.opB (s : State) (et : Nat) (zext : Bool) (b : VOperand) (r e : Nat) : Nat :=
  match b with
  | .vec v => s.elem (v.toNat + r) (etWidth et) e
  | .scal x => (s.x x).toNat % 2 ^ etWidth et
  | .imm i => immElem et (imm5 zext i)

/-! ### Issue checks (R151 item 5) -/

/-- A trap of the issue checks: `TVAL2` names the member. -/
def memberTrap {α : Type} (code : Nat) (tval : Word) : M α := do trapM code tval (← get).hart.pc

/-- An issue check. -/
def require (ok : Bool) (code : Nat) (tval : Word) : M Unit := if ok then pure () else memberTrap code tval

/-- `VECTOR_OFF` for VS and PARKED, in that order (R323, R351). -/
def offCheck : M Unit := do
  let s ← get
  require (s.hart.status.vs ≠ .off) cVectorOff 0
  require (!s.hart.status.parked) cVectorOff 3

/-- The checks that come before the registers' (R151): state off, lane grant, `VTYPE`, and whether the element type
is accepted. `lane` marks an access with sp = 2 that LS Off stops; `matrix` an MXL or MXA instruction. -/
def vectorCheck (typeOk : Nat → Bool) (lane matrix : Bool := false) : M Unit := do
  offCheck
  let s ← get
  require (!(lane && s.hart.status.ls == .off)) cVectorOff 2
  require (!(matrix && s.hart.status.ts == .off)) cTileOff 0
  require (s.vlg ≠ 0) cLaneGrantLost 0
  require (!s.hart.vtypeBad && typeOk s.hart.et) cIllegalVtype s.hart.vtype

/-- The register checks of R9 on a tile of height `h`. -/
def tileCheck (n h : Nat) : M Unit := do
  let s ← get
  require (n % h = 0) cRegMisaligned (word n)
  require (!(1 < h && n < 2)) cRegMisaligned (word n)
  require (n + h ≤ s.hart.declared) cRegBeyond (word n)

/-- The tile of a vector second operand; the other kinds name none (R9). -/
def operandCheck (b : VOperand) (h : Nat) : M Unit :=
  match b with
  | .vec v => tileCheck v.toNat h
  | _ => pure ()

/-! ### Landed bits (R79) -/

/-- What an instruction reads of registers: the register and the bit for each position, and whether inactive positions
are read as well. -/
abbrev Reads := List ((Nat → Nat × Nat) × Bool)

/-- Whether the group that holds bit `i` of register `n` is still to land. -/
def State.inFlight (s : State) (n i : Nat) : Bool :=
  bit (s.hart.flying.toList.getD n 0) (i / max 1 (etWidth s.hart.et) / 8)

/-- The first position that reads an element still to land, and its register (R79). -/
def State.landedStop (s : State) (m : Bool) (rs : Reads) (lo hi : Nat) : Option (Nat × Nat) :=
  if s.hart.flying.toList.all (· == 0) then none
  else
    ((List.range (hi - lo)).map (· + lo)).findSome? fun e =>
      (rs.find? fun r => (r.2 || s.active m e) && s.inFlight (r.1 e).1 (r.1 e).2).map fun r => (e, (r.1 e).1)

/-- The registers of a tile. -/
def tileReads (n h w : Nat) (all : Bool := false) : Reads := (List.range h).map fun r => (fun e => (n + r, e * w), all)

/-- What a second operand reads. -/
def operandReads (b : VOperand) (h w : Nat) : Reads :=
  match b with
  | .vec v => tileReads v.toNat h w
  | _ => []

/-- The mask, when it is read. -/
def maskReads (m : Bool) : Reads := if m then [(fun e => (0, e), true)] else []

/-! ### Stops and completion (R41, R344, R345) -/

/-- What the body of a member gives: the state with every position below the stop performed, the stop, and the new `VL`
of a fault-only-first load that met a fault. -/
structure Pass where
  done : State
  stop : Option (Nat × Halt) := none
  trim : Option Nat := none

/-- Whether the convoy goes on from a stop or a stall, so that what lies below `VSTART` has been performed already (R344, R346).
A resumption counts as one of a convoy that started at `VSTART` 0 (log 34). -/
def State.continuing (s : State) : Bool := s.hart.resumed || s.convoyStart ≠ s.hart.vstart

/-- How a convoy stops at a position: for good, or until it can go on (R70, R73). -/
inductive Pause where
  | trap (t : Trap)
  | hold (st : Stall)
deriving DecidableEq, Repr

/-- What a halt at an element comes to: a stall traps at its deadline, then a cause that splits the convoy is taken, and
else the convoy is held (R74, R344, R348). -/
def State.pause (s : State) (h : Halt) : Pause :=
  match h with
  | .trap t => .trap t
  | .stall kd o =>
    let st := { s.stallOf kd o with vec := true, start := s.convoyStart }
    if st.deadline ≤ s.now.toNat then .trap (stallTrap st)
    else match (if kd = 12 then none else s.hart.cv.bind (·.split)) with
      | some t => .trap t
      | none => .hold st

/-- A member that began in `s` lands: the trains that it has sent to endpoints that answer are acknowledged first, so that
everything below its stop has been performed (R69, R104). -/
def State.ackSent (t s : State) : State :=
  if t.trains = s.trains && s.hart.stall.isNone then t else t.ackTrains

/-- The lowest elements of the trains of the current hart that may still fail: their home does not answer, and their
instruction has not trapped already (R105). -/
def State.unacked (s : State) : List Nat := (s.ownTrains.filter fun t => !t.loose && !s.answering t.ep).map (·.lowest)

/-- Everything that the hart's own loads and stores have under way, as far as the homes answer. -/
def State.settleOwn (s : State) : State := s.landLate.ackTrains.landOwn

/-- The instruction whose trains are still under way has trapped: nothing waits for them any more. -/
def State.loosen (s : State) : State :=
  { s with trains := s.trains.map fun t => if t.hart = some s.hart.id then { t with loose := true } else t }

/-- A convoy that has stopped waits at `p` for the acknowledgements of what it has sent; then it lands, or at the deadline at
the lowest position that no acknowledgement has come for (R31, R345, R347). -/
def State.drainSplit (s : State) (st : Stall) (p : Nat) (cause : Trap) : State :=
  let u := s.ackTrains
  let land := fun (u : State) (p : Nat) (c : Trap) =>
    { u with hart.vstart := p }.enterTrap c u.hart.pc (decide (st.start < p) || st.committed)
  match u.unacked.min? with
  | none => land (u.unpost cause) p cause
  | some low =>
    let st := { st with object := low }
    if st.deadline ≤ u.now.toNat then land u.loosen low (stallTrap st) else { u with hart.stall := some st }

/-- A convoy stops for good at `p`, started at `start`: it lands once everything that it has sent is acknowledged, but for a
train that is refused, whose cause stops it at once (R105, R345). -/
def State.landAt (u : State) (start p : Nat) (committed : Bool) (cause : Trap) : State :=
  if u.unacked = [] then u.enterTrap cause u.hart.pc (decide (start < p) || committed)
  else if cause.code = cTrainNackLimit then u.loosen.enterTrap cause u.hart.pc (decide (start < p) || committed)
  else
    let st : Stall := { u.stallOf 10 0 with
      vec := true
      start := start
      committed := committed
      split := some (p, cause) }
    (u.stallClamp 10 0).drainSplit st p cause

/-- A member stops at position `k`, with everything below performed and `VSTART` = `k` (R69, R70). Alone in its convoy it
lands at itself, or is held there; in a longer one the convoy is told. -/
def State.stopAt (s done : State) (k : Nat) (h : Halt) : State :=
  let clamp := match h with
    | .trap _ => 0
    | .stall kd o => (s.stallClamp kd o).hart.flags
  let done := { done with hart.flags := done.hart.flags ||| clamp }
  let left := { done with hart.vstart := k, hart.srseed := s.hart.srseed }
  match s.pause h, s.hart.cv with
  | .trap t, none => (left.ackSent s).landAt s.convoyStart k false t
  | .hold st, none => { left with hart.stall := some st }
  | .trap t, some _ => { done with hart.cv := done.hart.cv.map fun c => { c with stop := some (k, t) } }
  | .hold st, some _ => { done with hart.cv := done.hart.cv.map fun c => { c with stall := some (k, st) } }

/-- The LFSR after `n` more steps (R41). -/
def State.stepLfsr (s : State) (n : Nat) : State :=
  { s with hart.srseed := .ofNat 32 (lfsrSteps s.hart.srseed.toNat n) }

/-- Whether rounding is stochastic (R38). -/
def State.sr (s : State) : Bool := frmRM s.hart.frm == 5

/-- `VL` as a member sees it: positions from a trim on are tail (R345). -/
def State.vlNow (s : State) : Nat := min s.hart.vl ((s.hart.cv.bind (·.trim)).getD s.hart.vl)

/-- A member that has element positions, from issue to completion. `count` is how many positions it has, `steps` how far
it steps the LFSR, `body lo hi last` performs the positions in [lo, hi), with the tail when `last`; it
runs on an empty range too when `always`. `fin` is applied once the member has completed every position. -/
def State.member (s : State) (checks : M Unit) (count : State → Nat) (m : Bool) (reads : State → Reads)
    (steps : State → Nat) (body : Nat → Nat → Bool → State → Pass) (always : Bool := false)
    (fin : State → State := id) : State :=
  match checks.go s with
  | (.error h, s') => match h with
    | .trap t => match s.hart.cv with
      | none => s'.raise t
      | some c => { s' with hart.cv := some { c with stop := some (s.hart.vstart, t) } }
    | .stall kd o => s.stopAt s' s.hart.vstart (.stall kd o)
  | (.ok _, s) =>
    if s.hart.cv.elim false (·.checking) then s.advance
    else
      let n := count s
      let lo := s.hart.vstart
      let hi := min n ((s.hart.cv.bind (·.limit)).getD n)
      let landed :=
        if !always then s.landedStop m (reads s) lo hi
        else if s.hart.resumed then none
        else (s.landedStop false (reads s) 0 n).map fun p => (lo, p.2)
      let hi' := landed.elim hi (·.1)
      let cut := s.hart.cv.elim false (·.cut) && lo = hi' && hi' < n
      let r := if lo < hi' || cut || (always && landed.isNone) then body lo hi' (decide (hi' = n)) s else { done := s }
      match r.stop with
      | some (k, h) => s.stopAt r.done k h
      | none =>
        match (if r.trim.isSome then none else landed) with
        | some (k, reg) => s.stopAt r.done k (.stall 3 reg)
        | none =>
          let d := r.done.stepLfsr (steps s)
          let d := match r.trim, s.hart.cv with
            | none, _ => d
            | some v, none => { d with hart.vl := v }
            | some v, some c => { d with hart.cv := some { c with trim := some v } }
          if hi = n then { fin d with hart.vstart := 0 }.advance else d.advance

/-- The context that the current hart runs, as notes name it: its context area, or else the hart itself. -/
def State.noteCtx (s : State) : Nat := if bitOf s.hart.ctxarea 0 then bits s.hart.ctxarea 56 13 else 2 ^ 44 + s.hart.id

/-- What is noted of the member at `pc`, if anything is. -/
def State.note (s : State) : Option Note := s.notes.find? fun n => n.ctx = s.noteCtx && n.addr = s.hart.pc

/-- What is noted of the member at `pc` replaced. -/
def State.setNote (s : State) (addr : Word) (n : Option Note) : State :=
  { s with notes := (s.notes.filter fun n => !(n.ctx = s.noteCtx && n.addr = addr))
      ++ (n.map fun p => { p with ctx := s.noteCtx, addr := addr }).toList }

/-- A member that acts as a whole (R346). On a resumption it does not act again, and its LFSR steps count as made (R41): as
noted when it acted, and with nothing noted those of all its positions, as if its convoy had started at `VSTART` 0 (log 34). -/
def State.wholeMember (s : State) (checks : M Unit) (m : Bool) (reads : State → Reads)
    (body : Nat → Nat → State → Pass) : State :=
  s.member checks State.vlNow m reads (fun _ => 0) (fun lo hi _ s =>
    let seed := fun (t : State) => t.hart.srseed.toNat
    if s.hart.resumed then
      { done := { s with
        hart.srseed := match s.note.filter fun n => n.before = seed s with
          | some n => .ofNat 32 n.after
          | none => (body 0 s.vlNow { s with hart.frm := s.hart.frm &&& 0xFF }).done.hart.srseed } }
    else
      let r := body lo hi s
      match r.stop with
      | none => r
      | some (_, h) => { done := s, stop := some (s.hart.vstart, h) }) true

/-! ### The element loop (R44, R189) -/

/-- The LFSR value of element `e` of row `r` (R41). Positions are numbered with the `VL` at issue (R152). -/
def State.lfsrAt (s : State) (rounds : Bool) (r e : Nat) : Nat :=
  if rounds && s.sr then lfsrSteps s.hart.srseed.toNat (r * s.hart.vl + e) else 0

/-- The first element in ascending order at which a row raises an enabled flag, and the cause (R44). Of several rows the
lowest gives the cause: the spec does not say which (log 87). -/
def State.flagStop (s : State) (rows lo hi : Nat) (m : Bool) (fl : Nat → Nat → Nat) : Option (Nat × Nat) :=
  ((List.range (hi - lo)).map (· + lo)).findSome? fun e =>
    if s.active m e then
      (List.range rows).findSome? fun r => (flagCause s.hart.frm (fl r e)).map fun c => (e, c)
    else none

/-- A register's bits after the loop of R189 over one row: active elements take `f`, masked-off ones follow MP. -/
def State.loopRow (s : State) (m : Bool) (w lo hi : Nat) (f : Nat → Nat) (x : Nat) : Nat :=
  (List.range (hi - lo)).foldl (fun x i =>
    let e := lo + i
    if s.active m e then setElemOf x w e (f e) else if s.hart.mp then setElemOf x w e 0 else x) x

/-- Union of the flags of the active elements below `hi`. -/
def State.loopFlags (s : State) (rows lo hi : Nat) (m : Bool) (fl : Nat → Nat → Nat) : Nat :=
  (List.range rows).foldl (fun a r => (List.range (hi - lo)).foldl (fun a i =>
    if s.active m (lo + i) then a ||| fl r (lo + i) else a) a) 0

/-- Row of a tile whose rows take `q` registers each, as one run of bits (R198, R217). -/
def State.row (s : State) (n q : Nat) : Nat :=
  (List.range q).foldl (fun x i => x + s.reg (n + i) * 2 ^ (i * s.maxBits)) 0

/-- A row of a tile set. -/
def State.setRow (s : State) (n q x : Nat) : State :=
  if q = 1 then s.setReg n x
  else (List.range q).foldl (fun t i => t.setReg (n + i) (x / 2 ^ (i * s.maxBits) % 2 ^ s.maxBits)) s

/-- Whether some element in [lo, k) is written: an active one, or one that MP zeroes (R189). -/
def State.touches (s : State) (m : Bool) (lo k : Nat) : Bool :=
  ((List.range (k - lo)).map (· + lo)).any fun e => s.active m e || s.hart.mp

/-- An element-wise body: `f r e` is the result with its flags, written into row `r` of the tile at `d`, whose rows take
`q` registers and whose elements are `w` bits wide (R189, R191). Tail bits are those from `VL` elements on. -/
def State.loop (s : State) (m : Bool) (d rows q w lo hi : Nat) (last : Bool) (f : Nat → Nat → Nat × Nat) : Pass :=
  let stop := s.flagStop rows lo hi m fun r e => (f r e).2
  let k := stop.elim hi (·.1)
  let fl := s.loopFlags rows lo k m fun r e => (f r e).2
  let s' := (List.range rows).foldl (fun t r =>
    let x := s.loopRow m w lo k (fun e => (f r e).1) (s.row (d + r * q) q)
    let n := s.vlNow * w
    t.setRow (d + r * q) q (if last && stop.isNone && s.hart.tp then splice x n (q * s.maxBits - n) 0 else x)) s
  { done := (s'.raiseFlags fl).dirtyVIf (s.touches m lo k || (last && stop.isNone && s.hart.tp && s.vlNow * w < q * s.maxBits))
    stop := stop.map fun p => (p.1, .trap ⟨p.2, word p.1, s.hart.pc⟩) }

end Sys2Proof.Machine
end

