-- ==== Sys2Proof/Machine/VArith.lean ====
section
/-! DEFINITION. VARI: element-wise arithmetic under every element type (R192 to R199). -/

namespace Sys2Proof.Machine

/-! ### Which types an operation accepts (R193) -/

def tyI (et : Nat) : Bool := etInt et
def tyF (et : Nat) : Bool := etFloat et
def tyIF (et : Nat) : Bool := etInt et || etFloat et
def tyIFR (et : Nat) : Bool := etInt et || etFloat et || etRns et
def tyAny (_ : Nat) : Bool := true

/-- The type of twice the width, for the widening forms (R198); 31 where there is none. -/
def wideOf : Nat → Nat
  | 0 => 2 | 1 => 3 | 2 => 4 | 3 => 5 | 4 => 6 | 5 => 7 | 9 => 8 | 10 => 9 | 11 => 9 | _ => 31

/-! ### Operations on one element. `et` the type, `rm` the rounding mode, `l` the LFSR value, `a` and `b` the sources,
`d` the old destination element; the result with its flags. -/

def opSub (et rm l a b _d : Nat) : Nat × Nat :=
  if etInt et then intResult et (intOf et a - intOf et b)
  else if etFloat et then floatResult et rm l (((fmtOf et).decode a).add (rm == 2) ((fmtOf et).decode b).flip)
  else rnsResult et (fun x y _ => x - y) a b 0 (rnsFlags2 et a b)

def opMul (et rm l a b _d : Nat) : Nat × Nat :=
  if etInt et then intResult et (intOf et a * intOf et b)
  else if etFloat et then floatResult et rm l (((fmtOf et).decode a).mul ((fmtOf et).decode b))
  else rnsResult et (fun x y _ => x * y) a b 0 (rnsFlags2 et a b)

/-- High half of a product; `signedTypes` says whether the signed types multiply as signed (R193). -/
def opMulHigh (signedTypes : Bool) (et _rm _l a b _d : Nat) : Nat × Nat :=
  let w := etWidth et
  if signedTypes then intResult et (intOf et a * intOf et b / 2 ^ w) else (a * b / 2 ^ w, 0)

/-- Quotient (R34, R196). -/
def opDiv (et rm l a b _d : Nat) : Nat × Nat :=
  if etInt et then
    if b = 0 then (2 ^ etWidth et - 1, fDZ) else intResult et ((intOf et a).tdiv (intOf et b))
  else floatResult et rm l (((fmtOf et).decode a).div ((fmtOf et).decode b))

/-- Remainder (R34). -/
def opRem (et _rm _l a b _d : Nat) : Nat × Nat :=
  if b = 0 then (a, fDZ) else intResult et ((intOf et a).tmod (intOf et b))

/-- Shifts by u(b) mod w (R193, R194). -/
def opSll (et _rm _l a b _d : Nat) : Nat × Nat := (a * 2 ^ (b % etWidth et) % 2 ^ etWidth et, 0)
def opSrl (et _rm _l a b _d : Nat) : Nat × Nat := (a / 2 ^ (b % etWidth et), 0)
def opSra (et _rm _l a b _d : Nat) : Nat × Nat :=
  (wrap (etWidth et) (signed (etWidth et) a / 2 ^ (b % etWidth et)), 0)

/-- A saturated result (R34, R194). -/
def satResult (et : Nat) (v : Int) : Nat × Nat :=
  let r := clampInt et v
  (r.1, if r.2 then fSAT else 0)

/-- |a| and −a (R194, R196, R197). -/
def opAbs (et _rm _l a _b _d : Nat) : Nat × Nat :=
  if etInt et then intResult et (intOf et a).natAbs else (a % 2 ^ (etWidth et - 1), 0)
def opNeg (et _rm _l a _b _d : Nat) : Nat × Nat :=
  if etInt et then intResult et (-intOf et a)
  else if etFloat et then (a ^^^ 2 ^ (etWidth et - 1), 0)
  else rnsResult et (fun x _ _ => -x) a 0 0 (rnsFlag et a)

/-- ±(a × b) ± d with one rounding (R193, R196, R197). -/
def opFused (negProduct negAddend : Bool) (et rm l a b d : Nat) : Nat × Nat :=
  let sg := fun (n : Bool) (x : Int) => if n then -x else x
  if etInt et then intResult et (sg negProduct (intOf et a * intOf et b) + sg negAddend (intOf et d))
  else if etFloat et then
    let x := (fmtOf et).decode a
    let z := (fmtOf et).decode d
    floatResult et rm l (FVal.fma (rm == 2) (if negProduct then x.flip else x) ((fmtOf et).decode b)
      (if negAddend then z.flip else z))
  else rnsResult et (fun x y z => sg negProduct (x * y) + sg negAddend z) a b d (rnsFlags2 et a b ||| rnsFlag et d)

def opSqrt (et rm l a _b _d : Nat) : Nat × Nat := floatResult et rm l ((fmtOf et).decode a).sqrt

/-- a with a sign made of those of a and b (R196). -/
def opSign (sign : Bool → Bool → Bool) (et _rm _l a b _d : Nat) : Nat × Nat :=
  let top := etWidth et - 1
  (a % 2 ^ top + (if sign (bit a top) (bit b top) then 2 ^ top else 0), 0)

def opClass (et _rm _l a _b _d : Nat) : Nat × Nat := ((fmtOf et).classify a, 0)

/-! ### The element-wise forms -/

/-- Whether an element-wise instruction rounds under SR (R41, R196). -/
def State.roundsSr (s : State) (rounds : Bool) : Bool := rounds && etFloat s.hart.et && s.sr

/-- A binary or fused form (R188, R189). -/
def State.binary (s : State) (m : Bool) (d a : VReg) (b : VOperand) (ty : Nat → Bool) (zext rounds fused : Bool)
    (f : Nat → Nat → Nat → Nat → Nat → Nat → Nat × Nat) : State :=
  let rows := s.hart.vrow
  let et := s.hart.et
  let w := etWidth et
  s.member (do vectorCheck ty; tileCheck d.toNat rows; tileCheck a.toNat rows; operandCheck b rows) State.vlNow m
    (fun _ => maskReads m ++ tileReads a.toNat rows w ++ operandReads b rows w
      ++ if fused then tileReads d.toNat rows w else [])
    (fun s => if s.roundsSr rounds then rows * s.hart.vl else 0)
    fun lo hi last s => s.loop m d.toNat rows 1 w lo hi last fun r e =>
      f et (frmRM s.hart.frm) (s.lfsrAt (rounds && etFloat et) r e) (s.elem (a.toNat + r) w e) (s.opB et zext b r e)
        (s.elem (d.toNat + r) w e)

/-- A unary form. -/
def State.unary (s : State) (m : Bool) (d a : VReg) (ty : Nat → Bool) (rounds : Bool)
    (f : Nat → Nat → Nat → Nat → Nat → Nat → Nat × Nat) : State :=
  let rows := s.hart.vrow
  let et := s.hart.et
  let w := etWidth et
  s.member (do vectorCheck ty; tileCheck d.toNat rows; tileCheck a.toNat rows) State.vlNow m
    (fun _ => maskReads m ++ tileReads a.toNat rows w)
    (fun s => if s.roundsSr rounds then rows * s.hart.vl else 0)
    fun lo hi last s => s.loop m d.toNat rows 1 w lo hi last fun r e =>
      f et (frmRM s.hart.frm) (s.lfsrAt (rounds && etFloat et) r e) (s.elem (a.toNat + r) w e) 0 0

/-- A carry form (R195): c is bit e of v0. With `carryOut`, the bits of row r go to register d + r. -/
def State.carry (s : State) (d a : VReg) (b : VOperand) (carryOut : Bool)
    (f : Nat → Nat → Nat → Nat → Nat) : State :=
  let rows := s.hart.vrow
  let et := s.hart.et
  let w := etWidth et
  s.member (do vectorCheck tyI; tileCheck d.toNat rows; tileCheck a.toNat rows; operandCheck b rows) State.vlNow false
    (fun _ => maskReads true ++ tileReads a.toNat rows w ++ operandReads b rows w) (fun _ => 0)
    fun lo hi last s => s.loop false d.toNat rows 1 (if carryOut then 1 else w) lo hi last fun r e =>
      (f w (s.elem (a.toNat + r) w e) (s.opB et false b r e) (bit (s.reg 0) e).toNat, 0)

/-- Carry and borrow out (R195). -/
def carryOut (w a b c : Nat) : Nat := if 2 ^ w ≤ a + b + c then 1 else 0
def borrowOut (_w a b c : Nat) : Nat := if a < b + c then 1 else 0

/-- Whether two runs of registers share one. -/
def overlaps (a n b k : Nat) : Bool := a < b + k && b < a + n

/-- A widening form (R198). `f` gives the exact integer, or the exact float value with its flags. -/
def State.widen (s : State) (m : Bool) (d a : VReg) (b : VOperand) (rounds : Nat → Bool) (fi : Int → Int → Int)
    (ff : Bool → FVal → FVal → FVal × Nat) : State :=
  let rows := s.hart.vrow
  let et := s.hart.et
  let w := etWidth et
  let wet := wideOf et
  s.member (do
      vectorCheck fun t => wideOf t ≠ 31
      tileCheck d.toNat (2 * rows); tileCheck a.toNat rows; operandCheck b rows
      require (!(overlaps d.toNat (2 * rows) a.toNat rows || match b with
        | .vec v => overlaps d.toNat (2 * rows) v.toNat rows
        | _ => false)) cRegMisaligned (word d.toNat)) State.vlNow m
    (fun _ => maskReads m ++ tileReads a.toNat rows w ++ operandReads b rows w)
    (fun s => if s.roundsSr (rounds et) then rows * s.hart.vl else 0)
    fun lo hi last s => s.loop m d.toNat rows 2 (2 * w) lo hi last fun r e =>
      let x := s.elem (a.toNat + r) w e
      let y := s.opB et false b r e
      let rm := frmRM s.hart.frm
      if etInt et then (wrap (2 * w) (fi (intOf et x) (intOf et y)), 0)
      else floatResult wet rm (s.lfsrAt (rounds et) r e) (ff (rm == 2) ((fmtOf et).decode x) ((fmtOf et).decode y))

/-! ### The instructions -/

/-- `vadd` (R193). -/
def execVadd (m : Bool) (d a : VReg) (b : VOperand) (s : State) : Result :=
  .next (s.binary m d a b tyIFR false true false opAdd)

/-- `vsub` (R193). -/
def execVsub (m : Bool) (d a : VReg) (b : VOperand) (s : State) : Result :=
  .next (s.binary m d a b tyIFR false true false opSub)

/-- `vrsub` (R193). -/
def execVrsub (m : Bool) (d a : VReg) (b : VOperand) (s : State) : Result :=
  .next (s.binary m d a b tyIFR false true false (fun et rm l a b d => opSub et rm l b a d))

/-- `vmul` (R193). -/
def execVmul (m : Bool) (d a : VReg) (b : VOperand) (s : State) : Result :=
  .next (s.binary m d a b tyIFR false true false opMul)

/-- `vmulh` (R193). -/
def execVmulh (m : Bool) (d a : VReg) (b : VOperand) (s : State) : Result :=
  .next (s.binary m d a b tyI false false false (opMulHigh true))

/-- `vmulhu` (R193). -/
def execVmulhu (m : Bool) (d a : VReg) (b : VOperand) (s : State) : Result :=
  .next (s.binary m d a b tyI false false false (opMulHigh false))

/-- `vdiv` (R193). -/
def execVdiv (m : Bool) (d a : VReg) (b : VOperand) (s : State) : Result :=
  .next (s.binary m d a b tyIF false true false opDiv)

/-- `vrem` (R193). -/
def execVrem (m : Bool) (d a : VReg) (b : VOperand) (s : State) : Result :=
  .next (s.binary m d a b tyI false false false opRem)

/-- `vmin` (R193). -/
def execVmin (m : Bool) (d a : VReg) (b : VOperand) (s : State) : Result :=
  .next (s.binary m d a b tyIF false false false (opMinMax false))

/-- `vmax` (R193). -/
def execVmax (m : Bool) (d a : VReg) (b : VOperand) (s : State) : Result :=
  .next (s.binary m d a b tyIF false false false (opMinMax true))

/-- `vand` (R193). -/
def execVand (m : Bool) (d a : VReg) (b : VOperand) (s : State) : Result :=
  .next (s.binary m d a b tyI false false false (fun _ _ _ a b _ => (a &&& b, 0)))

/-- `vor` (R193). -/
def execVor (m : Bool) (d a : VReg) (b : VOperand) (s : State) : Result :=
  .next (s.binary m d a b tyI false false false (fun _ _ _ a b _ => (a ||| b, 0)))

/-- `vxor` (R193). -/
def execVxor (m : Bool) (d a : VReg) (b : VOperand) (s : State) : Result :=
  .next (s.binary m d a b tyI false false false (fun _ _ _ a b _ => (a ^^^ b, 0)))

/-- `vsll` (R193). -/
def execVsll (m : Bool) (d a : VReg) (b : VOperand) (s : State) : Result :=
  .next (s.binary m d a b tyI true false false opSll)

/-- `vsrl` (R193). -/
def execVsrl (m : Bool) (d a : VReg) (b : VOperand) (s : State) : Result :=
  .next (s.binary m d a b tyI true false false opSrl)

/-- `vsra` (R193). -/
def execVsra (m : Bool) (d a : VReg) (b : VOperand) (s : State) : Result :=
  .next (s.binary m d a b tyI true false false opSra)

/-- `vsadd` (R193). -/
def execVsadd (m : Bool) (d a : VReg) (b : VOperand) (s : State) : Result :=
  .next (s.binary m d a b tyI false false false (fun et _ _ a b _ => satResult et (intOf et a + intOf et b)))

/-- `vssub` (R193). -/
def execVssub (m : Bool) (d a : VReg) (b : VOperand) (s : State) : Result :=
  .next (s.binary m d a b tyI false false false (fun et _ _ a b _ => satResult et (intOf et a - intOf et b)))

/-- `vadc` (R195). -/
def execVadc (d a : VReg) (b : VOperand) (s : State) : Result :=
  .next (s.carry d a b false fun w x y c => (x + y + c) % 2 ^ w)

/-- `vsbc` (R195). -/
def execVsbc (d a : VReg) (b : VOperand) (s : State) : Result :=
  .next (s.carry d a b false fun w x y c => (x + 2 * 2 ^ w - y - c) % 2 ^ w)

/-- `vmadc` (R195). -/
def execVmadc (d a : VReg) (b : VOperand) (s : State) : Result := .next (s.carry d a b true carryOut)

/-- `vmsbc` (R195). -/
def execVmsbc (d a : VReg) (b : VOperand) (s : State) : Result := .next (s.carry d a b true borrowOut)

/-- `vabs` (R193). -/
def execVabs (m : Bool) (d a : VReg) (s : State) : Result :=
  .next (s.unary m d a tyIF false opAbs)

/-- `vneg` (R193). -/
def execVneg (m : Bool) (d a : VReg) (s : State) : Result :=
  .next (s.unary m d a tyIFR false opNeg)

/-- `vmerge` (R199): every element is written, B where c is 1 and a where it is 0. -/
def execVmerge (d a : VReg) (b : VOperand) (s : State) : Result :=
  let rows := s.hart.vrow
  let et := s.hart.et
  let w := etWidth et
  .next (s.member (do vectorCheck tyAny; tileCheck d.toNat rows; tileCheck a.toNat rows; operandCheck b rows)
    State.vlNow false
    (fun _ => maskReads true ++ tileReads a.toNat rows w ++ operandReads b rows w) (fun _ => 0)
    fun lo hi last s => s.loop false d.toNat rows 1 w lo hi last fun r e =>
      ((if bit (s.reg 0) e then s.opB et false b r e else s.elem (a.toNat + r) w e), 0))

/-- `vmv` (R199). -/
def execVmv (m : Bool) (d : VReg) (b : VOperand) (s : State) : Result :=
  let rows := s.hart.vrow
  let et := s.hart.et
  let w := etWidth et
  .next (s.member (do vectorCheck tyAny; tileCheck d.toNat rows; operandCheck b rows) State.vlNow m
    (fun _ => maskReads m ++ operandReads b rows w) (fun _ => 0)
    fun lo hi last s => s.loop m d.toNat rows 1 w lo hi last fun r e => (s.opB et false b r e, 0))

/-- `vfma` (R193). -/
def execVfma (m : Bool) (d a : VReg) (b : VOperand) (s : State) : Result :=
  .next (s.binary m d a b tyIFR false true true (opFused false false))

/-- `vfms` (R193). -/
def execVfms (m : Bool) (d a : VReg) (b : VOperand) (s : State) : Result :=
  .next (s.binary m d a b tyIFR false true true (opFused false true))

/-- `vfnma` (R193). -/
def execVfnma (m : Bool) (d a : VReg) (b : VOperand) (s : State) : Result :=
  .next (s.binary m d a b tyIFR false true true (opFused true true))

/-- `vfnms` (R193). -/
def execVfnms (m : Bool) (d a : VReg) (b : VOperand) (s : State) : Result :=
  .next (s.binary m d a b tyIFR false true true (opFused true false))

/-- `vsqrt` (R193). -/
def execVsqrt (m : Bool) (d a : VReg) (s : State) : Result :=
  .next (s.unary m d a tyF true opSqrt)

/-- `vsgnj` (R193). -/
def execVsgnj (m : Bool) (d a : VReg) (b : VOperand) (s : State) : Result :=
  .next (s.binary m d a b tyF false false false (opSign (fun _ y => y)))

/-- `vsgnjn` (R193). -/
def execVsgnjn (m : Bool) (d a : VReg) (b : VOperand) (s : State) : Result :=
  .next (s.binary m d a b tyF false false false (opSign (fun _ y => !y)))

/-- `vsgnjx` (R193). -/
def execVsgnjx (m : Bool) (d a : VReg) (b : VOperand) (s : State) : Result :=
  .next (s.binary m d a b tyF false false false (opSign (fun x y => x != y)))

/-- `vclass` (R193). -/
def execVclass (m : Bool) (d a : VReg) (s : State) : Result :=
  .next (s.unary m d a tyF false opClass)

/-- `vwadd` (R198). -/
def execVwadd (m : Bool) (d a : VReg) (b : VOperand) (s : State) : Result :=
  .next (s.widen m d a b (fun _ => true) (fun x y => x + y) fun rdn x y => x.add rdn y)

/-- `vwmul` (R198): only a product of BF16 sources rounds. -/
def execVwmul (m : Bool) (d a : VReg) (b : VOperand) (s : State) : Result :=
  .next (s.widen m d a b (fun et => et == 10) (fun x y => x * y) fun _ x y => x.mul y)

end Sys2Proof.Machine
end

