-- ==== Sys2Proof/Machine/VCompare.lean ====
section
/-! DEFINITION. VCMP: compares, which write mask bits from row 0 (R200, R201). -/

namespace Sys2Proof.Machine

/-- The order of two integer or residue elements, by value (R200). -/
def orderValue (et a b : Nat) : Int :=
  if etRns et then (if rnsValue et a = rnsValue et b then 0 else 1)
  else if intOf et a < intOf et b then -1 else if intOf et a = intOf et b then 0 else 1

/-- The result bit of a compare and its flags. `test` judges the order; `ordered` says that any NaN sets NV and
`unordered` is the bit for a pair with a NaN (R201). -/
def compareBit (test : Int → Bool) (ordered unordered : Bool) (et a b : Nat) : Nat × Nat :=
  if etFloat et then
    let x := (fmtOf et).decode a
    let y := (fmtOf et).decode b
    if x.isNan || y.isNan then (unordered.toNat, if ordered then fNV else snanFlag x y)
    else ((test (FVal.cmp x y)).toNat, 0)
  else ((test (orderValue et a b)).toNat, if etRns et then rnsFlags2 et a b else 0)

/-- A compare (R200): row 0 alone, tiles of one register. -/
def State.compare (s : State) (m : Bool) (d a : VReg) (b : VOperand) (ty : Nat → Bool) (test : Int → Bool)
    (ordered unordered : Bool) : State :=
  let et := s.hart.et
  let w := etWidth et
  s.member (do vectorCheck ty; tileCheck d.toNat 1; tileCheck a.toNat 1; operandCheck b 1) State.vlNow m
    (fun _ => maskReads m ++ tileReads a.toNat 1 w ++ operandReads b 1 w) (fun _ => 0)
    fun lo hi last s => s.loop m d.toNat 1 1 1 lo hi last fun _ e =>
      compareBit test ordered unordered et (s.elem a.toNat w e) (s.opB et false b 0 e)

/-- `veq` (R200). -/
def execVeq (m : Bool) (d a : VReg) (b : VOperand) (s : State) : Result :=
  .next (s.compare m d a b tyIFR (· == 0) false false)

/-- `vne` (R200). -/
def execVne (m : Bool) (d a : VReg) (b : VOperand) (s : State) : Result :=
  .next (s.compare m d a b tyIFR (· != 0) false true)

/-- `vlt` (R200). -/
def execVlt (m : Bool) (d a : VReg) (b : VOperand) (s : State) : Result :=
  .next (s.compare m d a b tyIF (fun c => decide (c < 0)) true false)

/-- `vle` (R200). -/
def execVle (m : Bool) (d a : VReg) (b : VOperand) (s : State) : Result :=
  .next (s.compare m d a b tyIF (fun c => decide (c ≤ 0)) true false)

/-- `vgt` (R200). -/
def execVgt (m : Bool) (d a : VReg) (b : VOperand) (s : State) : Result :=
  .next (s.compare m d a b tyIF (fun c => decide (0 < c)) true false)

/-- `vge` (R200). -/
def execVge (m : Bool) (d a : VReg) (b : VOperand) (s : State) : Result :=
  .next (s.compare m d a b tyIF (fun c => decide (0 ≤ c)) true false)

/-- `vunord` (R200). -/
def execVunord (m : Bool) (d a : VReg) (b : VOperand) (s : State) : Result :=
  .next (s.compare m d a b tyF (fun _ => false) false true)

end Sys2Proof.Machine
end

