-- ==== Sys2Proof/Machine/VMask.lean ====
section
/-! DEFINITION. VMSK: mask algebra, counts and searches, mask shifts, prefix counts and indices, all on row 0 (R204 to
R209). -/

namespace Sys2Proof.Machine

/-- Checks of a VMSK instruction on the tiles that it names (R202). -/
def maskCheck (ty : Nat → Bool) (tiles : List VReg) : M Unit := do
  vectorCheck ty
  tiles.forM fun v => tileCheck v.toNat 1

/-- The active positions in [lo, hi) whose bit in `x` is 1 (R204). -/
def State.setBits (s : State) (m : Bool) (x lo hi : Nat) : List Nat :=
  ((List.range (hi - lo)).map (· + lo)).filter fun e => s.active m e && bit x e

/-- An instruction that writes a mask bit for each position from the bits at that position (R205). -/
def State.maskAlgebra (s : State) (m : Bool) (d : VReg) (srcs : List VReg) (f : Bool → Bool → Bool) : State :=
  let x := (srcs.headD 0).toNat
  let y := (srcs.getD 1 0).toNat
  s.member (maskCheck tyAny (d :: srcs)) State.vlNow m
    (fun _ => maskReads m ++ (srcs.map fun v => tileReads v.toNat 1 1).flatten) (fun _ => 0)
    fun lo hi last s => s.loop m d.toNat 1 1 1 lo hi last fun _ e => ((f (bit (s.reg x) e) (bit (s.reg y) e)).toNat, 0)

/-- A count or a search, whose result goes to a scalar register (R206). -/
def State.maskToScalar (s : State) (m : Bool) (d : SReg) (a : VReg) (f : List Nat → Word) : State :=
  s.wholeMember (maskCheck tyAny [a]) m (fun _ => maskReads m ++ tileReads a.toNat 1 1) fun lo hi s =>
    { done := s.setX d (f (s.setBits m (s.reg a.toNat) lo hi)) }

/-- A mask, or the elements of row 0, formed from bits at other positions (R207 to R209). -/
def State.maskWhole (s : State) (m : Bool) (d a : VReg) (ty : Nat → Bool) (w : Nat)
    (f : State → Nat → Nat → Nat → Nat) : State :=
  s.wholeMember (maskCheck ty [d, a]) m (fun _ => maskReads m ++ tileReads a.toNat 1 1) fun lo hi s =>
    if lo < hi then s.loop m d.toNat 1 1 w lo hi true fun _ e => (f s lo hi e, 0) else { done := s }

/-- The amount of a shift or a slide, whole (R208, R211). -/
def State.amount (s : State) (b : VOperand) : Nat :=
  match b with
  | .vec _ => 0
  | .scal x => (s.x x).toNat
  | .imm i => i.toNat

/-- `mand` (R205). -/
def execMand (d a b : VReg) (s : State) : Result := .next (s.maskAlgebra false d [a, b] fun x y => x && y)
/-- `mor` (R205). -/
def execMor (d a b : VReg) (s : State) : Result := .next (s.maskAlgebra false d [a, b] fun x y => x || y)
/-- `mxor` (R205). -/
def execMxor (d a b : VReg) (s : State) : Result := .next (s.maskAlgebra false d [a, b] fun x y => x != y)
/-- `mandn` (R205). -/
def execMandn (d a b : VReg) (s : State) : Result := .next (s.maskAlgebra false d [a, b] fun x y => x && !y)
/-- `morn` (R205). -/
def execMorn (d a b : VReg) (s : State) : Result := .next (s.maskAlgebra false d [a, b] fun x y => x || !y)
/-- `mnot` (R205). -/
def execMnot (m : Bool) (d a : VReg) (s : State) : Result := .next (s.maskAlgebra m d [a] fun x _ => !x)
/-- `mmv` (R205). -/
def execMmv (m : Bool) (d a : VReg) (s : State) : Result := .next (s.maskAlgebra m d [a] fun x _ => x)

/-- `mpop` (R206). -/
def execMpop (m : Bool) (d : SReg) (a : VReg) (s : State) : Result :=
  .next (s.maskToScalar m d a fun l => word l.length)
/-- `mffs` (R206). -/
def execMffs (m : Bool) (d : SReg) (a : VReg) (s : State) : Result :=
  .next (s.maskToScalar m d a fun l => l.head?.elim (-1) word)
/-- `mfls` (R206). -/
def execMfls (m : Bool) (d : SReg) (a : VReg) (s : State) : Result :=
  .next (s.maskToScalar m d a fun l => l.getLast?.elim (-1) word)

/-- `msbf` (R207). -/
def execMsbf (m : Bool) (d a : VReg) (s : State) : Result :=
  .next (s.maskWhole m d a tyAny 1 fun s lo hi e =>
    (decide (e < (s.setBits m (s.reg a.toNat) lo hi).headD hi)).toNat)
/-- `msif` (R207). -/
def execMsif (m : Bool) (d a : VReg) (s : State) : Result :=
  .next (s.maskWhole m d a tyAny 1 fun s lo hi e =>
    (decide (e ≤ (s.setBits m (s.reg a.toNat) lo hi).headD hi)).toNat)
/-- `mslu` (R208). -/
def execMslu (m : Bool) (d a : VReg) (b : VOperand) (s : State) : Result :=
  .next (s.maskWhole m d a tyAny 1 fun s _ _ e =>
    let k := s.amount b
    (decide (k ≤ e) && bit (s.reg a.toNat) (e - k)).toNat)
/-- `msld` (R208). -/
def execMsld (m : Bool) (d a : VReg) (b : VOperand) (s : State) : Result :=
  .next (s.maskWhole m d a tyAny 1 fun s _ hi e =>
    let k := s.amount b
    (decide (e + k < hi) && bit (s.reg a.toNat) (e + k)).toNat)
/-- `iota` (R209). -/
def execIota (m : Bool) (d a : VReg) (s : State) : Result :=
  .next (s.maskWhole m d a tyI (etWidth s.hart.et) fun s lo _ e =>
    (s.setBits m (s.reg a.toNat) lo e).length % 2 ^ etWidth s.hart.et)
/-- `vid` (R209). -/
def execVid (m : Bool) (d : VReg) (s : State) : Result :=
  let w := etWidth s.hart.et
  .next (s.member (maskCheck tyI [d]) State.vlNow m (fun _ => maskReads m) (fun _ => 0)
    fun lo hi last s => s.loop m d.toNat 1 1 w lo hi last fun _ e => (e % 2 ^ w, 0))

end Sys2Proof.Machine
end

