-- ==== Sys2Proof/Machine/VPermute.lean ====
section
/-! DEFINITION. VPERM: slides, gathers, compress and expand, and single elements (R210 to R213). -/

namespace Sys2Proof.Machine

/-- A permutation of whole rows through the element loop (R211); it follows R346. `f s r e` is F(r, e). -/
def State.permute (s : State) (m : Bool) (d : VReg) (srcs : List VReg) (own : M Unit)
    (f : State → Nat → Nat → Nat) : State :=
  let rows := s.hart.vrow
  let w := etWidth s.hart.et
  s.wholeMember (do
      vectorCheck tyAny
      (d :: srcs).forM fun v => tileCheck v.toNat rows
      own) m
    (fun _ => maskReads m ++ (srcs.map fun v => tileReads v.toNat rows w).flatten) fun lo hi s =>
    if lo < hi then s.loop m d.toNat rows 1 w lo hi true fun r e => (f s r e, 0) else { done := s }

/-- The low `w` bits of a scalar register. -/
def State.scalarElem (s : State) (b : SReg) : Nat := (s.x b).toNat % 2 ^ etWidth s.hart.et

/-- Elem(a, r, e) under the type in force. -/
def State.srcElem (s : State) (a : VReg) (r e : Nat) : Nat := s.elem (a.toNat + r) (etWidth s.hart.et) e

/-- `vslup` (R211). -/
def execVslup (m : Bool) (d a : VReg) (b : VOperand) (s : State) : Result :=
  .next (s.permute m d [a] (pure ()) fun s r e =>
    if s.amount b ≤ e then s.srcElem a r (e - s.amount b) else s.srcElem d r e)
/-- `vsldn` (R211). -/
def execVsldn (m : Bool) (d a : VReg) (b : VOperand) (s : State) : Result :=
  .next (s.permute m d [a] (pure ()) fun s r e =>
    if e + s.amount b < s.vlNow then s.srcElem a r (e + s.amount b) else 0)
/-- `vslup1` (R211). -/
def execVslup1 (m : Bool) (d a : VReg) (b : SReg) (s : State) : Result :=
  .next (s.permute m d [a] (pure ()) fun s r e => if e = 0 then s.scalarElem b else s.srcElem a r (e - 1))
/-- `vsldn1` (R211). -/
def execVsldn1 (m : Bool) (d a : VReg) (b : SReg) (s : State) : Result :=
  .next (s.permute m d [a] (pure ()) fun s r e =>
    if e + 1 = s.vlNow then s.scalarElem b else s.srcElem a r (e + 1))
/-- `vrgath` (R211). -/
def execVrgath (m : Bool) (d a b : VReg) (s : State) : Result :=
  .next (s.permute m d [a, b] (pure ()) fun s r e =>
    let i := s.srcElem b r e
    if i < s.vlNow then s.srcElem a r i else 0)
/-- `vbcast` (R211). -/
def execVbcast (m : Bool) (d a : VReg) (b : VOperand) (s : State) : Result :=
  let k := s.amount b
  .next (s.permute m d [a] (require (k < s.hart.vl) cIndexRange (word k)) fun s r _ => s.srcElem a r k)

/-- `vrowmv` (R211): row 0 of a into every row; it has positions of its own. -/
def execVrowmv (d a : VReg) (s : State) : Result :=
  let rows := s.hart.vrow
  let w := etWidth s.hart.et
  .next (s.member (do vectorCheck tyAny; tileCheck d.toNat rows; tileCheck a.toNat 1) State.vlNow false
    (fun _ => tileReads a.toNat 1 w) (fun _ => 0)
    fun lo hi last s => s.loop false d.toNat rows 1 w lo hi last fun _ e => (s.srcElem a 0 e, 0))

/-- The positions below `VL` that v0 selects, in order (R212). -/
def State.selected (s : State) : List Nat := (List.range s.vlNow).filter fun e => bit (s.reg 0) e

/-- A row's bits with the elements from `k` on cleared. -/
def State.clearTail (s : State) (x w k : Nat) : Nat := splice x (k * w) (s.maxBits - k * w) 0

/-- `vcompr` and `vexpand` share their shape (R212): each row of d is made from the same row of a. -/
def State.packed (s : State) (d a : VReg) (policy : Bool) (f : State → Nat → Nat → Nat → Nat) : State :=
  let rows := s.hart.vrow
  let w := etWidth s.hart.et
  s.wholeMember (do vectorCheck tyAny; tileCheck d.toNat rows; tileCheck a.toNat rows) false
    (fun _ => maskReads true ++ tileReads a.toNat rows w) fun _ _ s =>
    if s.vlNow = 0 then { done := s }
    else
      { done := ((List.range rows).foldl (fun t r =>
        t.setReg (d.toNat + r) (f s w (s.reg (a.toNat + r)) (s.reg (d.toNat + r)))) s).dirtyVIf
          (s.selected ≠ [] || policy) }

/-- `vcompr` (R212). -/
def execVcompr (d a : VReg) (s : State) : Result :=
  .next (s.packed d a s.hart.tp fun s w x y =>
    let y := (enum s.selected).foldl (fun y p => setElemOf y w p.1 (elemOf x w p.2)) y
    if s.hart.tp then s.clearTail y w s.selected.length else y)
/-- `vexpand` (R212). -/
def execVexpand (d a : VReg) (s : State) : Result :=
  .next (s.packed d a (s.hart.mp || s.hart.tp) fun s w x y =>
    let z := if s.hart.mp then splice y 0 (s.vlNow * w) 0 else y
    let z := (enum s.selected).foldl (fun z p => setElemOf z w p.2 (elemOf x w p.1)) z
    if s.hart.tp then s.clearTail z w s.vlNow else z)

/-- Extend(x) (R213). -/
def extendElem (et x : Nat) : Word := if etSigned et then wordI (signed (etWidth et) x) else word x

/-- The body of an instruction that reads bit `i` of register `n` outside the element loop: it waits for it to land (R79, R203,
R213). -/
def State.onceLanded (s : State) (n i : Nat) (done : State) : Pass :=
  if s.inFlight n i then { done := s, stop := some (s.hart.vstart, .stall 3 n) } else { done := done }

/-- `vmvxs` (R213). -/
def execVmvxs (d : SReg) (a : VReg) (s : State) : Result :=
  let w := etWidth s.hart.et
  .next (s.wholeMember (do vectorCheck tyAny; tileCheck a.toNat 1) false (fun _ => [])
    fun _ _ s => s.onceLanded a.toNat 0 (s.setX d (extendElem s.hart.et (s.elem a.toNat w 0))))
/-- `vmvsx` (R213): the elements after the first are positions that follow TP, also when the convoy goes on above position 0. -/
def execVmvsx (d : VReg) (b : SReg) (s : State) : Result :=
  let w := etWidth s.hart.et
  .next (s.member (do vectorCheck tyAny; tileCheck d.toNat 1) State.vlNow false (fun _ => []) (fun _ => 0)
    fun lo hi last s =>
      if lo = 0 || s.hart.resumed || s.convoyStart = 0 then
        let t := if lo = 0 then s.setElem d.toNat w 0 (s.scalarElem b) else s
        let t := if s.hart.tp then (spanList (max lo 1) hi).foldl (fun t e => t.setElem d.toNat w e 0) t else t
        { done := (if last && s.hart.tp then t.zeroFrom d.toNat (hi * w) else t).dirtyV }
      else { done := s })

/-- `INDEX_RANGE` of an element index in row-major order (R213). -/
def indexCheck (k : Nat) : M Unit := do
  let s ← get
  require (k < s.hart.vrow * s.hart.vl) cIndexRange (word k)

/-- `vext` (R213). -/
def execVext (d : SReg) (a : VReg) (b : VOperand) (s : State) : Result :=
  let k := s.amount b
  let n := max 1 s.hart.vl
  let w := etWidth s.hart.et
  .next (s.wholeMember (do
      vectorCheck tyAny
      tileCheck a.toNat s.hart.vrow
      indexCheck k) false (fun _ => [])
    fun _ _ s => s.onceLanded (a.toNat + k / n) (k % n * w)
      (s.setX d (extendElem s.hart.et (s.elem (a.toNat + k / n) w (k % n)))))
/-- `vins` (R202, R213): position k mod VL of row ⌊k / VL⌋, also below `VSTART`; nothing with `VSTART` ≥ `VL`. In a convoy
that stops below that position the element is not written (R345). -/
def execVins (d : VReg) (a : SReg) (b : VOperand) (s : State) : Result :=
  let k := s.amount b
  let n := max 1 s.hart.vl
  let w := etWidth s.hart.et
  .next (s.member (do vectorCheck tyAny; tileCheck d.toNat s.hart.vrow; indexCheck k) State.vlNow false
    (fun _ => []) (fun _ => 0)
    (fun lo hi _ s =>
      if lo < s.vlNow && k % n < hi && (lo ≤ k % n || !s.continuing) then { done := (s.setElem (d.toNat + k / n) w (k % n) (s.scalarElem a)).dirtyV }
      else { done := s })
    true)

end Sys2Proof.Machine
end

