-- ==== Sys2Proof/Machine/VReduce.lean ====
section
/-! DEFINITION. VRED: reductions of row 0 (R52, R53, R214, R215). -/

namespace Sys2Proof.Machine

/-- An addition under way: the LFSR state and the flags so far. -/
structure Sum where
  lfsr : Nat
  flags : Nat

/-- One addition of two element codes with its rounding; under SR it uses the LFSR state and steps it (R52). -/
def addCodes (et rm : Nat) (c : Sum) (a b : Nat) : Sum × Nat :=
  let r := opAdd et rm c.lfsr a b 0
  (⟨if etFloat et && rm == 5 then lfsrStep c.lfsr else c.lfsr, c.flags ||| r.2⟩, r.1)

/-- One level of the tree: nodes combined two by two (R52). -/
def treeLevel (et rm : Nat) : Sum → List (Option Nat) → Sum × List (Option Nat)
  | c, some a :: some b :: t =>
    let r := addCodes et rm c a b
    let k := treeLevel et rm r.1 t
    (k.1, some r.2 :: k.2)
  | c, some a :: none :: t =>
    let k := treeLevel et rm c t
    (k.1, some a :: k.2)
  | c, none :: x :: t =>
    let k := treeLevel et rm c t
    (k.1, x :: k.2)
  | c, t => (c, t)

/-- The tree from its leaves to the root, `n` levels (R52). -/
def treeRoot (et rm : Nat) : Nat → Sum → List (Option Nat) → Sum × Option Nat
  | 0, c, l => (c, (l.head?).join)
  | n + 1, c, l =>
    let k := treeLevel et rm c l
    treeRoot et rm n k.1 k.2

/-- The number of levels above P leaves, P the least power of two not below `n` (R52). -/
def treeLevels (n : Nat) : Nat := if n ≤ 1 then 0 else msb (n - 1) + 1

/-- Greatest or least of element codes, the initial value among them (R196, R215). -/
def extremum (isMax : Bool) (et : Nat) (l : List Nat) : Nat × Nat :=
  if etInt et then (l.tail.foldl (fun a b => (opMinMax isMax et 0 0 a b 0).1) (l.headD 0), 0)
  else
    let f := fmtOf et
    let fl := if l.any fun x => (f.decode x).isSnan then fNV else 0
    match l.filter fun x => !(f.decode x).isNan with
    | [] => (f.canonicalNan, fl)
    | x :: t => (t.foldl (fun a b => (f.minMax isMax a b).1) x, fl)

/-- How a reduction combines the initial value and the leaves, in position order, an empty leaf being none (R214): the
value, and the sum's state. -/
abbrev Combine := Nat → Nat → Sum → Nat → List (Option Nat) → Sum × Nat

/-- The tree sum: the initial value is added to the root last (R52). The flags of residues are those of the leaves. -/
def combineTree : Combine := fun et rm c init l =>
  let r := treeRoot et rm (treeLevels l.length) c (l ++ List.replicate (2 ^ treeLevels l.length - l.length) none)
  addCodes et rm r.1 (r.2.getD 0) init

/-- The sequential sum (R53). A residue is read as R48 says, with no addition as well. -/
def combineOrder : Combine := fun et rm c init l =>
  let z := if etRns et then
      (({ c with flags := c.flags ||| rnsFlag et init } : Sum), rnsOp et (fun x _ _ => x) init 0 0)
    else (c, init)
  l.reduceOption.foldl (fun p x => addCodes et rm p.1 p.2 x) z

/-- Greatest and least. -/
def combineExtremum (isMax : Bool) : Combine := fun et _ c init l =>
  let r := extremum isMax et (l.reduceOption ++ [init])
  ({ c with flags := c.flags ||| r.2 }, r.1)

/-- Bitwise combinations. -/
def combineBits (f : Nat → Nat → Nat) : Combine := fun _ _ c init l => (c, l.reduceOption.foldl f init)

/-- A reduction (R215). Trap values follow R44. -/
def State.reduce (s : State) (m : Bool) (d a : VReg) (b : VOperand) (ty : Nat → Bool) (f : Combine) : State :=
  let et := s.hart.et
  let w := etWidth et
  s.wholeMember (do vectorCheck ty; tileCheck d.toNat 1; tileCheck a.toNat 1; operandCheck b 1) m
    (fun _ => maskReads m ++ tileReads a.toNat 1 w ++ operandReads b 1 w) fun lo hi s =>
    if hi ≤ lo then { done := s }
    else
      let leaves := (List.range hi).map fun e =>
        if lo ≤ e && s.active m e then some (s.elem a.toNat w e) else none
      let r := f et (frmRM s.hart.frm) ⟨s.hart.srseed.toNat, 0⟩ (s.opB et false b 0 0) leaves
      match flagCause s.hart.frm r.1.flags with
      | some c => { done := s, stop := some (lo, .trap ⟨c, 0, s.hart.pc⟩) }
      | none =>
        let s' := s.setElem d.toNat w 0 r.2
        let s' := if s.hart.tp then s'.zeroFrom d.toNat w else s'
        { done := ({ s' with hart.srseed := .ofNat 32 r.1.lfsr }.raiseFlags r.1.flags).dirtyV }

/-- `vrsum` (R214). -/
def execVrsum (m : Bool) (d a : VReg) (b : VOperand) (s : State) : Result :=
  .next (s.reduce m d a b tyIFR combineTree)
/-- `vrosum` (R214). -/
def execVrosum (m : Bool) (d a : VReg) (b : VOperand) (s : State) : Result :=
  .next (s.reduce m d a b tyIFR combineOrder)
/-- `vrmax` (R214). -/
def execVrmax (m : Bool) (d a : VReg) (b : VOperand) (s : State) : Result :=
  .next (s.reduce m d a b tyIF (combineExtremum true))
/-- `vrmin` (R214). -/
def execVrmin (m : Bool) (d a : VReg) (b : VOperand) (s : State) : Result :=
  .next (s.reduce m d a b tyIF (combineExtremum false))
/-- `vrand` (R214). -/
def execVrand (m : Bool) (d a : VReg) (b : VOperand) (s : State) : Result :=
  .next (s.reduce m d a b tyI (combineBits fun x y => x &&& y))
/-- `vror` (R214). -/
def execVror (m : Bool) (d a : VReg) (b : VOperand) (s : State) : Result :=
  .next (s.reduce m d a b tyI (combineBits fun x y => x ||| y))
/-- `vrxor` (R214). -/
def execVrxor (m : Bool) (d a : VReg) (b : VOperand) (s : State) : Result :=
  .next (s.reduce m d a b tyI (combineBits fun x y => x ^^^ y))

end Sys2Proof.Machine
end

