-- ==== Sys2Proof/Machine/VConvert.lean ====
section
/-! DEFINITION. VCVT: conversions between element types, quantisation with block scales, and residues (R45, R46, R216 to
R223). -/

namespace Sys2Proof.Machine

/-! ### Values and types -/

/-- The integer types, I4 among them (R218). -/
def cvI (et : Nat) : Bool := etInt et || et == 18

/-- The pairs that `vcvt` and `vcvtr` accept (R218). -/
def cvtPair (src dst : Nat) : Bool :=
  src ≠ dst && (
    (cvI src && (cvI dst || etFloat dst))
    || (etFloat src && (cvI dst || etFloat dst || etNarrow dst || dst == 17))
    || (etNarrow src && (etFloat dst || etNarrow dst))
    || (src == 17 && etFloat dst))

/-- The exact value of an element of a number type (R32, R37). -/
def valueOf (et x : Nat) : FVal :=
  if cvI et then
    let v := intOf et x
    .fin (decide (v < 0)) v.natAbs 0 false
  else if et = 17 then (if x = 0xFF then .nan false else .fin false 1 ((x : Int) - 127) false)
  else (fmtOf et).decode x

/-- A value as an integer of a type, from floating point (R43, R219). -/
def toInteger (et rm l : Nat) (v : FVal) : Nat × Nat :=
  match v with
  | .nan _ => (0, fNV)
  | .inf n => (wrap (etWidth et) (if n then intMin et else intMax et), fNV)
  | .fin n m e k =>
    let r := roundInt rm l n m e k
    let c := clampInt et r.1
    (c.1, if c.2 then fNV else if r.2 then fIX else 0)

/-- A float as an E8M0 code (R219). -/
def toE8m0 (v : FVal) : Nat × Nat :=
  match v with
  | .fin _ m e _ =>
    let top := (msb m : Int) + e
    if m = 0 || top < -127 then (0, fSAT)
    else if 127 ≤ top then (0xFE, fSAT)
    else ((127 + top).toNat, if 2 ^ msb m = m then 0 else fIX)
  | _ => (0xFF, fNV)

/-- A value rounded into a type (R219). -/
def toType (et rm l : Nat) (satn : Bool) (v : FVal) : Nat × Nat :=
  if cvI et then toInteger et rm l v
  else if et = 17 then toE8m0 v
  else (fmtOf et).round rm l (satn && et == 13) v (if v.isSnan then fNV else 0)

/-! ### Block scales (R45, R46) -/

/-- B, the blocks of a row. -/
def State.blocks (s : State) : Nat := ceilDiv s.hart.vl s.hart.sb

/-- Index of the scale of element `e` of row `r`, and its byte. -/
def State.scaleIndex (s : State) (r e : Nat) : Nat := r * s.blocks + e / s.hart.sb
def State.scaleByte (s : State) (i : Nat) : Nat := s.elem 1 8 i

/-- What an instruction with block scales reads of v1 (R45, R46). -/
def State.scaleReads (s : State) : Reads :=
  if s.hart.sb = 0 then []
  else (List.range s.hart.vrow).map fun r => (fun e => (1, s.scaleIndex r e * 8), false)

/-- The power of two that a scale byte stands for (R37). -/
def scaleExp (b : Nat) : Int := (b : Int) - 127

/-- The lowest scale index of a block that has an active element and the scale 0xFF (R46). -/
def State.scaleNan (s : State) (m : Bool) (rows lo hi : Nat) : Option Nat :=
  (List.range rows).findSome? fun r => ((List.range (hi - lo)).map (· + lo)).findSome? fun e =>
    if s.active m e && s.scaleByte (s.scaleIndex r e) = 0xFF then some (s.scaleIndex r e) else none

/-- An instruction that reads block scales reads those of every active block before it processes an element: it waits for them
to land, and one of 0xFF stops it with no destination written (R46; log 37). -/
def State.scalesFirst (s : State) (m : Bool) (rows lo : Nat) (body : Pass) : Pass :=
  if s.hart.sb = 0 then body
  else match s.landedStop m (maskReads m ++ s.scaleReads) lo s.vlNow with
  | some p => { done := s, stop := some (lo, .stall 3 p.2) }
  | none =>
    match s.scaleNan m rows lo s.vlNow with
    | some i => { done := s, stop := some (lo, .trap ⟨cScaleNan, word i, s.hart.pc⟩) }
    | none => body

/-! ### `vcvt` and `vcvtr` -/

/-- Registers for each row of a source of width `ws` (R217). -/
def srcRegs (ws wd : Nat) : Nat := max 1 (ws / wd)

/-- Element `e` of row `r` of a source of width `ws` (R217). -/
def State.wideElem (s : State) (a : VReg) (q ws r e : Nat) : Nat := elemOf (s.row (a.toNat + r * q) q) ws e

/-- What a source that spans registers reads. -/
def State.wideReads (s : State) (a : VReg) (q ws rows : Nat) : Reads :=
  (List.range rows).map fun r => (fun e =>
    (a.toNat + r * q + e * ws / max 1 s.maxBits, e * ws % max 1 s.maxBits), false)

/-- An element-wise conversion from type `t` to the type in force. `pair` judges the types, `scaled` says whether block
scales are read, `rounds` whether the LFSR steps by positions (R41), `f` converts element `x` scaled by 2^`k`, and `note` is
told of the positions that have been performed. -/
def State.convert (s : State) (m : Bool) (d a : VReg) (t : TypeCode) (pair : Nat → Bool) (scaled rounds : Bool)
    (f : (r e x : Nat) → (k : Int) → Nat × Nat) (note : (lo k : Nat) → State → State := fun _ _ s => s) : State :=
  let rows := s.hart.vrow
  let wd := etWidth s.hart.et
  let ws := etWidth t.toNat
  let q := srcRegs ws wd
  s.member (do vectorCheck pair; tileCheck d.toNat rows; tileCheck a.toNat (rows * q)) State.vlNow m
    (fun s => maskReads m ++ s.wideReads a q ws rows
      ++ if scaled then s.scaleReads else []) (fun s => if rounds && s.sr then rows * s.hart.vl else 0)
    fun lo hi last s =>
      let p := s.loop m d.toNat rows 1 wd lo hi last fun r e =>
        f r e (s.wideElem a q ws r e) (if scaled then scaleExp (s.scaleByte (s.scaleIndex r e)) else 0)
      let p := { p with done := note lo (p.stop.elim hi (·.1)) p.done }
      if scaled then s.scalesFirst m rows lo p else p

/-- `vcvt` under a rounding mode, and `vcvtr` under RTZ (R219, R220). A scaled I4 source is no plain integer any more: into an
integer type it takes the row of R43 for a value, with its clamp and flags (log 114). -/
def State.cvt (s : State) (m : Bool) (d a : VReg) (t : TypeCode) (rm : Nat) : State :=
  let et := s.hart.et
  let src := t.toNat
  let scaled := s.hart.sb ≠ 0 && (etNarrow src || src == 18)
  let plain := cvI src && cvI et && !scaled
  let rounds := rm == 5 && et ≠ 17
  s.convert m d a t (fun et => cvtPair src et) scaled rounds fun r e x k =>
    if plain then (wrap (etWidth et) (intOf src x), 0)
    else toType et rm (s.lfsrAt rounds r e) (frmSATN s.hart.frm) ((valueOf src x).scale k)

/-- `vcvt` (R219). -/
def execVcvt (m : Bool) (d a : VReg) (t : TypeCode) (s : State) : Result := .next (s.cvt m d a t (frmRM s.hart.frm))

/-- `vcvtr` (R219). -/
def execVcvtr (m : Bool) (d a : VReg) (t : TypeCode) (s : State) : Result := .next (s.cvt m d a t 1)

/-! ### `vqmx` (R221) -/

/-- emax of a destination type (R221). -/
def emaxOf : Nat → Int
  | 12 => 8 | 13 => 15 | 14 => 2 | 18 => 2 | _ => 6

/-- A scaled value rounded into the destination and saturated, whatever SATN holds (R221). -/
def quantise (et rm l : Nat) (v : FVal) : Nat × Nat :=
  if cvI et then
    match v with
    | .fin n m e k =>
      let r := roundInt rm l n m e k
      let c := clampInt et r.1
      (c.1, if c.2 then fSAT else if r.2 then fIX else 0)
    | _ => (0, fNV)
  else (fmtOf et).round rm l true v 0

/-- The R43 result for a NaN, with NV (R221). -/
def quantiseNan (et : Nat) : Nat × Nat := (if cvI et then 0 else (fmtOf et).canonicalNan, fNV)

/-- The scale of a block: E, from the exact values of its active elements (R221). -/
def blockScale (et : Nat) (l : List FVal) : Nat :=
  if l.any fun v => match v with | .fin _ _ _ _ => false | _ => true then 0xFF
  else
    let tops := l.filterMap fun v => match v with
      | .fin _ m e _ => if m = 0 then none else some ((msb m : Int) + e)
      | _ => none
    match tops with
    | [] => 127
    | x :: t => (min (max (t.foldl max x - emaxOf et + 127) 0) 254).toNat

/-- `vqmx` (R221). Of several enabled flags the first cause of the order of R44 is reported, for the lowest element that raised
it (log 87); it steps the LFSR by the `VL` of row 0 as it stands after a trim, and not at all when no position is left
(log 115). -/
def execVqmx (m : Bool) (d a : VReg) (t : TypeCode) (s : State) : Result :=
  let et := s.hart.et
  let src := t.toNat
  let wd := etWidth et
  let ws := etWidth src
  let q := srcRegs ws wd
  .next (s.wholeMember (do
      vectorCheck fun et => (etNarrow et || et == 18 || et == 0) && etFloat src && s.hart.sb ≠ 0
      tileCheck d.toNat 1
      tileCheck a.toNat q
      require (d ≠ 1) cRegMisaligned 1) m
    (fun s => maskReads m ++ s.wideReads a q ws 1) fun lo hi s =>
    if hi ≤ lo then { done := s }
    else
      let sb := s.hart.sb
      let act := fun e => lo ≤ e && s.active m e
      let x := fun e => (fmtOf src).decode (s.wideElem a q ws 0 e)
      let scale := fun i => blockScale et
        (((List.range (min sb (hi - i * sb))).map (· + i * sb)).filter act |>.map x)
      let scales := (List.range (ceilDiv hi sb)).map scale
      let rm := frmRM s.hart.frm
      let f := fun e =>
        let c := scales.getD (e / sb) 127
        if c = 0xFF then quantiseNan et
        else quantise et rm (s.lfsrAt true 0 e) ((x e).scale (127 - (c : Int)))
      let fl := s.loopFlags 1 lo hi m (fun _ e => (f e).2) ||| if scales.contains 0xFF then fNV else 0
      match flagCause s.hart.frm fl with
      | some c =>
        let e := (((List.range (hi - lo)).map (· + lo)).find? fun e =>
          s.active m e && (f e).2 &&& causeFlag c ≠ 0).getD lo
        { done := s, stop := some (lo, .trap ⟨c, word e, s.hart.pc⟩) }
      | none =>
        let row := s.loopRow m wd lo hi (fun e => (f e).1) (s.reg d.toNat)
        let row := if s.hart.tp then s.clearTail row wd hi else row
        let v1 := (enum scales).foldl (fun v p => setElemOf v 8 p.1 p.2) (s.reg 1)
        let v1 := if s.hart.tp then s.clearTail v1 8 scales.length else v1
        { done := ((((s.setReg d.toNat row).setReg 1 v1).stepLfsr (if s.sr then hi else 0)).raiseFlags fl).dirtyV })

/-! ### Residues (R222, R223) -/

/-- Whether rounding an exact value into a type loses something (R222): a result held to the range of an integer type is
inexact too. -/
def inexactInto (et : Nat) (v : FVal) : Bool := (toType et 1 0 false v).2 &&& (fIX ||| fNV) ≠ 0

/-- How many active elements before element `e` of row `r` are inexact: only those step the LFSR (R222). Those below `VSTART`
count, as every position does in R41, and the order is that of positions: R222 says neither (log 92). -/
def countBefore (vl : Nat) (r e : Nat) (p : Nat → Nat → Bool) : Nat :=
  ((List.range (r * vl + e)).filter fun n => p (n / max 1 vl) (n % max 1 vl)).length

/-- The positions that the `vrnsx` at `pc` had found inexact when its convoy stopped, as a number with a bit for each. -/
def State.roundedAt (s : State) : Nat := s.note.elim 0 (·.before)

/-- `vrnsx` (R222). -/
def execVrnsx (m : Bool) (d a : VReg) (t : TypeCode) (s : State) : Result :=
  let et := s.hart.et
  let src := t.toNat
  let scaled := s.hart.sb ≠ 0
  let ws := etWidth src
  let q := srcRegs ws (etWidth et)
  let rm := frmRM s.hart.frm
  let value := fun (x : Nat) (k : Int) =>
    let v := rnsValue src x
    (FVal.fin (decide (v < 0)) v.natAbs 0 false).scale k
  let vl := s.hart.vl
  let lost := fun (r e : Nat) =>
    if e < s.hart.vstart && s.continuing then bit s.roundedAt (r * vl + e)
    else e < s.vlNow && s.active m e && inexactInto et (value (s.wideElem a q ws r e)
      (if scaled then scaleExp (s.scaleByte (s.scaleIndex r e)) else 0))
  let found := fun (k : Nat) => (List.range s.hart.vrow).foldl (fun n r => (List.range k).foldl (fun n e =>
    if lost r e then n ||| 2 ^ (r * vl + e) else n) n) 0
  let made := if s.sr then countBefore vl s.hart.vrow 0 lost else 0
  let s' := s.convert m d a t (fun et => etRns src && ((2 ≤ et && et ≤ 7) || etFloat et)) scaled false
    (fun r e x k =>
      let l := if s.sr then lfsrSteps s.hart.srseed.toNat (countBefore vl r e lost) else 0
      let c := toType et rm l (frmSATN s.hart.frm) (value x k)
      (c.1, c.2 ||| rnsFlag src x)) fun _ k t =>
        if s.sr then t.setNote s.hart.pc (if k < t.vlNow then some { ctx := 0, addr := 0, before := found k } else none) else t
  .next (if s'.hart.retired && !(s.hart.cv.elim false (·.checking)) then s'.stepLfsr made else s')

/-- `vrnsi` (R223). -/
def execVrnsi (m : Bool) (d a : VReg) (t : TypeCode) (s : State) : Result :=
  let et := s.hart.et
  let src := t.toNat
  .next (s.convert m d a t (fun et => etInt src && etRns et) false false fun _ _ x _ =>
    let v := intOf src x
    let half : Int := rnsM et / 2
    (rnsOfInt et v, if v < -half || half ≤ v then fSAT else 0))

end Sys2Proof.Machine
end

