-- ==== Sys2Proof/Machine/VMemory.lean ====
section
/-! DEFINITION. VLD and VST: vector loads and stores over the three spaces, and whole registers (R57, R68 to R70, R79,
R80, R224 to R232). -/

namespace Sys2Proof.Machine

/-- Where an element lies: at a home, or in a lane's SRAM, by its key. -/
inductive Spot where
  | home (p : Phys)
  | lane (key : Nat)
deriving DecidableEq, Repr

/-- One element access whose address has been formed and translated: its position, the register and the element of the
register that it moves, where it lies, and for a 4-bit type whether it takes the high half of its byte (R33). -/
structure Access where
  pos : Nat
  elem : Nat
  reg : Nat
  idx : Nat
  spot : Spot
  high : Option Bool := none
deriving DecidableEq, Repr

/-- How an instruction forms offsets (R225). -/
inductive Form where
  | unit
  | strided (b : SReg)
  | indexed (b : VReg)
deriving DecidableEq, Repr

/-! ### Addresses (R225, R226) -/

/-- X(r, e): an index of max(w, 32) bits, signed (R225). -/
def State.indexAt (s : State) (b w r e : Nat) : Int :=
  let wi := max w 32
  let q := wi / max 1 w
  let c := max 1 (s.maxBits / wi)
  signed wi (elemOf (s.reg (b + r * q + e / c)) wi (e % c))

/-- An offset counted in elements of `w` bits, as bytes and, for a 4-bit type, the half (R225). -/
def scaleOffset (w : Nat) (x : Int) : Int × Option Bool :=
  if w = 4 then (x / 2, some (x % 2 == 1)) else (x * elemBytes w, none)

/-- Offset of element `e` of row `r` in memory (R225). -/
def State.offset (s : State) (f : Form) (w r e : Nat) : Int × Option Bool :=
  let n := r * s.hart.vl + e
  match f with
  | .unit => scaleOffset w n
  | .strided b => (n * (s.x b).toInt, none)
  | .indexed b => scaleOffset w (s.indexAt b.toNat w r e)

/-- Offset of element `e` of row `r` within its lane (R57). -/
def State.laneOffset (s : State) (f : Form) (w r e : Nat) : Int × Option Bool :=
  match f with
  | .unit =>
    let per := 8 * s.vlg
    scaleOffset w (r * ceilDiv s.hart.vl per + e / per : Nat)
  | f => s.offset f w r e

/-- The lane that holds element `e` (R13). -/
def State.laneOf (s : State) (e : Nat) : Nat :=
  8 * s.groups.getD (e / 8 % max 1 s.vlg) 0 + e % 8

/-- Whether an access reads the data. -/
def Acc.reads : Acc → Bool
  | .store => false | .probe => false | _ => true

/-- Where `n` bytes at an offset from S(a) lie, with the checks of one element access (R226, R343). `off` is the offset
in memory, `lane` the lane and the offset within it. -/
def spotAt (k : Acc) (sp : Space) (a : SReg) (n : Nat) (off : Int) (lane : Nat) (laneOff : Int) : M Spot := do
  let s ← get
  match sp with
  | .global => do
    let p := s.x a + wordI off
    checkM (p.toNat % n = 0) (.trap ⟨cMisaligned, p, 0⟩)
    let q ← resolveVirtual s.ctx k p (if k.isStore then .train else .answered)
    allow s.ctx k q n
    if k.reads then vectorData q n
    pure (.home q)
  | .spad => do
    let x := (bits (s.x a) 24 0 : Int) + off
    checkM (x % n = 0) (.trap ⟨cMisaligned, wordI x, 0⟩)
    checkM (0 ≤ x && x < 2 ^ 25) (.trap ⟨cScratchRange, wordI x, 0⟩)
    let l ← scratch s.hart.id x.toNat n (wordI x)
    let q : Phys := ⟨l, wordI x, false, 0⟩
    allow s.ctx k q n
    if k.reads then vectorData q n
    pure (.home q)
  | .lane => do
    let o := s.x a + wordI laneOff
    checkM (o.toNat % n = 0) (.trap ⟨cMisaligned, o, 0⟩)
    checkM (o.toNat + n ≤ 0x2000) (.trap ⟨cLaneRange, o, 0⟩)
    pure (.lane (laneKey s.hart.core lane o.toNat))

/-- One element's access. -/
def placeElem (k : Acc) (sp : Space) (a : SReg) (f : Form) (v w r e : Nat) : M Access := do
  let s ← get
  let o := s.offset f w r e
  let l := s.laneOffset f w r e
  let spot ← spotAt k sp a (elemBytes w) o.1 (s.laneOf e) l.1
  pure ⟨r * s.hart.vl + e, e, v + r, e, spot, if sp = .lane then l.2 else o.2⟩

/-- One 64-bit unit of a whole-register access (R230). -/
def placeUnit (k : Acc) (sp : Space) (a : SReg) (v j : Nat) : M Access := do
  let s ← get
  let per := max 1 (s.maxBits / 64)
  let spot ← spotAt k sp a 8 (8 * j : Nat) (s.laneOf j) (j / max 1 (8 * s.vlg) * 8 : Nat)
  pure { pos := j, elem := j, reg := v + j / per, idx := j % per, spot := spot }

/-- The accesses of one element, every row of it. A store of several rows first finds that all of them can be made, so that
no D is set for an element that is not performed (R365). -/
def placeRows (rows : List Nat) (place : Acc → Nat → M Access) (k : Acc) : M (List Access) := do
  if k.isStore && 1 < rows.length then
    let _ ← rows.mapM fun r => place .probe r
  rows.mapM fun r => place k r

/-- The accesses of the active elements of a list, in ascending order, every row of an element before the next element,
and the first stop (R68, R69). -/
def resolveElems (act : Nat → Bool) (rows : List Nat) (place : Acc → Nat → Nat → M Access) (k : Acc) :
    List Nat → State → List Access → State × List Access × Option (Nat × Halt)
  | [], s, acc => (s, acc, none)
  | e :: es, s, acc =>
    if act e then
      match (placeRows rows (fun k r => place k r e) k).go s with
      | (.ok l, s') => resolveElems act rows place k es s' (acc ++ l)
      | (.error h, s') => (s', acc, some (e, h))
    else resolveElems act rows place k es s acc

/-! ### Data -/

/-- Bytes at a spot. -/
def State.spotBytes (s : State) (p : Spot) (n : Nat) : List Byte :=
  match p with
  | .home q => s.homeRead q.loc n
  | .lane key => s.lane.readN key n

/-- The value of an access of `w` bits. -/
def State.accessRead (s : State) (a : Access) (w : Nat) : Nat :=
  pick w a.high (leNat (s.spotBytes a.spot (elemBytes w)))

/-- A value of `w` bits stored at an access, or an update of what stands there; a 4-bit one leaves the other half of its byte
(R229). A store to a lane's SRAM makes LS Dirty (R323). -/
def State.accessWrite (s : State) (slow : Bool) (a : Access) (w v : Nat) (how : Update := .store) : State :=
  let bs := leBytes v (elemBytes w)
  match a.spot with
  | .home q => s.vectorWrite slow { pos := a.pos, loc := q.loc, data := bs, high := a.high, how := how }
  | .lane key => { s with
      lane := s.lane.writeN key (halfOver (s.lane.readN key 1) a.high bs)
      hart.status.ls := .dirty }

/-- An access as an element of a train: `w` bits that change what stands at its home (R104). -/
def Access.item (a : Access) (l : Loc) (w v : Nat) (how : Update) : TrainItem :=
  { pos := a.pos, loc := l, data := leBytes v (elemBytes w), high := a.high, how := how }

/-- Accesses in ascending position (R85). -/
def byPosition (rows : Nat) (vl : Nat) (l : List Access) : List Access :=
  ((List.range rows).map fun r => l.filter fun a => r * vl ≤ a.pos && a.pos < (r + 1) * vl).flatten

/-! ### Landed bits of a load (R79, R80) -/

/-- The groups of `g` bits that the bits from `lo` up to `n` touch and that are not full once those below `k` are written,
as a number with a bit for each, of those that `will` names (R79). -/
def openGroups (will : Nat → Bool) (g lo k n : Nat) : Nat :=
  if n ≤ k then 0
  else
    (List.range (ceilDiv n g)).foldl (fun f i =>
      if will i && lo < (i + 1) * g && k < (i + 1) * g then f + 2 ^ i else f) 0

/-- The landed bits of one register that a load fills from bit `lo` up to `hi` and has written below bit `k`: its issue has
cleared those of all the groups, and the full ones are set again (R79). What stays clear shows once the load has stopped
(R80), since a chained reader waits only for what it reads (R203). -/
def State.landReg (s : State) (will : Nat → Bool) (n lo k hi : Nat) : State :=
  if h : n < 32 then
    if lo < hi then
      let g := 8 * max 1 (etWidth s.hart.et)
      let old := without s.hart.flying[n] (openGroups will g lo lo hi)
      let left := openGroups will g lo k hi
      match s.hart.cv with
      | none => { s with hart.flying := s.hart.flying.set n (old ||| left) h }
      | some c => { s with 
          hart.flying := s.hart.flying.set n old h
          hart.cv := some { c with toLand := c.toLand ++ [(n, left)] } }
    else s
  else s

/-- The landed bits that a load of a stopped convoy leaves clear (R80). -/
def State.landStop (s : State) (l : List (Nat × Nat)) : State :=
  l.foldl (fun t p =>
    if h : p.1 < 32 then { t with hart.flying := t.hart.flying.set p.1 (t.hart.flying[p.1] ||| p.2) h } else t) s

/-- The landed bits of a tile after a load of elements [lo, n) that has written those below `k`. -/
def State.landTile (s : State) (d rows w lo k n : Nat) (will : Nat → Bool := fun _ => true) : State :=
  (List.range rows).foldl (fun t r => t.landReg will (d + r) (lo * w) (k * w) (n * w)) s

/-- The landed bits of whole registers after the units [lo, n) were to be written and those below `k` were. -/
def State.landUnits (s : State) (d rows lo k : Nat) : State :=
  let b := s.maxBits
  (List.range rows).foldl (fun t i => t.landReg (fun _ => true) (d + i) (min b (64 * lo - i * b)) (min b (64 * k - i * b)) b) s

/-! ### Requests left outstanding by a split (R347, R401) -/

/-- A request: position, register, 64-byte line of the home, endpoint and die, and what is read. -/
structure Request where
  reg : Nat
  line : Nat
  ep : Endpoint
  die : Die
  src : Source
deriving DecidableEq, Repr

/-- The request of `n` bytes at a home for a position of a register. -/
def State.requestAt (s : State) (l : Loc) (reg pos : Nat) (high : Option Bool) : Request :=
  let d := s.homeDie l
  ⟨reg, match l with
    | .glob pa => pa / 64
    | .spad c o => 2 ^ 57 + spadKey c o / 64, d.1, d.2, ⟨pos, l, high⟩⟩

/-- The request of an access; none in lane-private SRAM. Positions of a tile's rows are those within the row. -/
def Access.request (s : State) (rows : Bool) (a : Access) : Option Request :=
  match a.spot with
  | .lane _ => none
  | .home q => some (s.requestAt q.loc a.reg (if rows then a.pos % max 1 s.hart.vl else a.pos) a.high)

/-- Requests formed line by line (R401), as entries without their places. -/
def formRequests (width bytes : Nat) : List Request → List (Nat × Reassembly) → List Reassembly
  | [], acc => acc.map (·.2)
  | q :: qs, acc =>
    let fits := fun (d : Nat × Reassembly) =>
      d.1 = q.line && d.2.reg = q.reg && q.src.pos < d.2.first + 64 && d.2.first ≤ q.src.pos
        && (popcount d.2.mask.toNat 64 + 1) * bytes ≤ 256
    match acc.find? fits with
    | some d =>
      let d' := (d.1, { d.2 with
        mask := d.2.mask ||| (1#64 <<< (q.src.pos - d.2.first))
        src := d.2.src ++ [q.src] })
      formRequests width bytes qs (acc.map fun e => if e = d then d' else e)
    | none => formRequests width bytes qs (acc ++ [(q.line, {
        place := 0
        reg := q.reg
        width := width
        first := q.src.pos
        mask := 1
        seq := 0
        ep := q.ep
        die := q.die
        src := [q.src] })])

/-- The free places of the reassembly table (R401). -/
def Hart.freePlaces (h : Hart) : List Nat := (List.range 16).filter fun i => h.reassembly.all fun r => r.place ≠ i

/-- The landed bit of a group of a register cleared. -/
def State.markFlying (s : State) (n g : Nat) : State :=
  if h : n < 32 then { s with hart.flying := s.hart.flying.set n (splice s.hart.flying[n] g 1 1) h } else s

/-- An entry without the positions that have been answered. -/
def Reassembly.without (r : Reassembly) (gone : Nat → Bool) : Reassembly :=
  let left := r.src.filter fun q => !gone q.pos
  { r with src := left, mask := left.foldl (fun m q => m ||| (1#64 <<< (q.pos - r.first))) 0 }

/-- The entries that requests for elements of `w` bits leave when those of the positions `gone` have been answered: requests
take the free places in turn, and numbers in the order in which they are formed (R401; log 88). -/
def State.entriesOf (s : State) (w : Nat) (l : List Request) (gone : Nat → Bool) : List Reassembly :=
  let free := s.hart.freePlaces
  let es := (enum (formRequests (codeOfWidth w) (elemBytes w) l [])).map fun p =>
    { p.2 with place := free.getD (p.1 % max 1 free.length) 0, seq := s.nextId + p.1 }
  (es.map fun r => r.without gone).filter fun r => r.mask ≠ 0

/-- The groups of entries are still to land. -/
def State.markEntries (s : State) (es : List Reassembly) : State :=
  es.foldl (fun t e => if e.width = 6 then t
    else (e.groups s.maxBits (etWidth s.hart.et)).foldl (fun t g => t.markFlying e.reg g) t) s

/-- Entries of the convoy under way enter the table. -/
def State.enter (s : State) (es : List Reassembly) : State :=
  let es := es.map fun r => { r with
    head := s.head
    lcnt := s.hart.lcnt
    start := s.hart.cv.elim s.convoyStart (·.start)
    committed := s.hart.cv.elim false (·.committed) }
  let top := es.foldl (fun n e => max n (e.seq + 1)) s.nextId
  State.markEntries { s with nextId := top, hart.reassembly := s.hart.reassembly ++ es } es

/-- The entries that a state has and another has not. -/
def State.newEntries (s old : State) : List Reassembly := s.hart.reassembly.filter fun e => !old.hart.reassembly.contains e

/-- Requests that stay outstanding after a split: they take entries, as far as there are places. -/
def State.leave (s : State) (w : Nat) (l : List Request) (gone : Nat → Bool) : State :=
  s.enter (((s.entriesOf w l gone).take s.hart.freePlaces.length).map fun r => { r with left := true })

/-- A load asks again for positions of a register: what earlier requests have not answered of them is dropped (R79, R348).
-/
def State.supersede (s : State) (l : List Access) (rows : Bool) : State :=
  if s.hart.reassembly = [] then s
  else
    let again := fun (r : Reassembly) (n : Nat) => l.any fun a => a.reg = r.reg
      && (if rows then a.pos % max 1 s.hart.vl else a.pos) = n
    let left := (s.hart.reassembly.map fun r => if r.width = 6 then r else r.without (again r)).filter fun r => r.mask ≠ 0
    { s with hart.reassembly := left }

/-- How many requests a split of this pass leaves outstanding. -/
def State.outstanding (s : State) : Nat := s.hart.cv.elim 0 (·.outstanding)

/-- An access to a home that does not answer (R98). -/
def State.accessSilent (s : State) (a : Access) : Bool :=
  match a.spot with
  | .home q => s.homeSilent q.loc
  | .lane _ => false

/-- The bytes of an access read into its register, once they agree with what the hart has under way (R83). -/
def State.readAccess (s : State) (w : Nat) (a : Access) : State :=
  let s := match a.spot with
    | .home q => s.agree q.loc (elemBytes w)
    | .lane _ => s
  s.setElem a.reg w a.idx (s.accessRead a w)

/-- The accesses of a load performed (R82, R98, R401). What a silent home does not answer, and everything of a load that is
to be slow, stays outstanding if the load may leave it so and the table has room; else the load waits at the element that
is given back. -/
def State.readAll (s : State) (w : Nat) (rows may : Bool) (l : List Access) : State × Option Nat :=
  let s := s.supersede l rows
  let far := fun (a : Access) => (may && s.hart.slow && a.request s rows ≠ none) || s.accessSilent a
  if !l.any far then (l.foldl (fun t a => t.readAccess w a) s, none)
  else
    let late := (l.filter far).map fun a => if rows then a.pos % max 1 s.hart.vl else a.pos
    let es := s.entriesOf w (l.filterMap (Access.request s rows)) fun n => !late.contains n
    if may && es.length ≤ s.hart.freePlaces.length then
      let t := (l.filter fun a => !far a).foldl (fun t a => t.readAccess w a) s
      let tile := if rows && s.hart.cv.isNone then l.head?.map (·.reg) else none
      ({ t with hart.slow := false }.enter (es.map fun (r : Reassembly) => { r with tile := tile }), none)
    else
      let k := (l.find? s.accessSilent).map (·.elem)
      ((l.filter fun a => k.elim true (a.elem < ·)).foldl (fun t a => t.readAccess w a) s, k)

/-! ### Bodies -/

/-- Masked-off elements from `lo` up to `k` follow MP (R228); `act` is the mask as it stood before any element was written.
-/
def State.zeroMasked (s : State) (act : Nat → Bool) (d rows w lo k : Nat) : State :=
  if s.hart.mp then
    (List.range rows).foldl (fun t r => (spanList lo k).foldl (fun t e =>
      if act e then t else t.setElem (d + r) w e 0) t) s
  else s

/-- Tail elements from `k` on follow TP (R228). -/
def State.zeroTail (s : State) (d rows w k : Nat) : State :=
  if s.hart.tp then ((List.range rows).foldl (fun t r => t.zeroFrom (d + r) (k * w)) s).dirtyVIf (k * w < s.maxBits) else s

/-- A fault-only-first load over the positions [lo, hi) (R68, R228). With `may` it can leave requests outstanding. A split leaves
clear the landed bits of the groups that it has requests out for, and those alone (R336, R347; log 28). -/
def State.loadBody (s : State) (m may : Bool) (d rows w : Nat) (place : Acc → Nat → Nat → M Access) (lo hi : Nat)
    (last : Bool) : Pass :=
  let r := resolveElems (s.active m) (List.range rows) place .load (spanList lo hi) s []
  let n := s.vlNow
  let t := r.1.readAll w true (may && last) r.2.1
  let wrote := fun (k : Nat) => (t.1.zeroMasked (s.active m) d rows w lo k).dirtyVIf (s.touches m lo k)
  let land := fun (k n : Nat) => ((wrote k).landTile d rows w lo k n).markEntries (t.1.newEntries s)
  match t.2, r.2.2 with
  | some k, _ => { done := land k n, stop := some (k, .stall 12 0) }
  | none, none =>
    if last then { done := (land hi n).zeroTail d rows w n }
    else
      let u := if s.hart.cv.elim false (·.cut) then
          ((wrote hi).landTile d rows w lo n n).markEntries t.1.hart.reassembly
        else land hi n
      let q := resolveElems (s.active m) (List.range rows) place .load (spanList hi (min n (hi + s.outstanding))) u []
      { done := q.1.leave w ((r.2.1 ++ q.2.1).filterMap (Access.request s true)) fun p => p < hi }
  | none, some (k, .trap c) =>
    if k = lo then { done := (t.1.landTile d rows w lo lo n).markEntries (t.1.newEntries s), stop := some (k, .trap c) }
    else { done := (((wrote k).landTile d rows w lo n n).markEntries (t.1.newEntries s)).zeroTail d rows w k, trim := some k }
  | none, some (k, h) => { done := land k n, stop := some (k, h) }

/-- The first access of a list to an endpoint whose replay window is exhausted, by element: where it goes (R105). -/
def State.refused (s : State) (l : List Access) : Option (Nat × Endpoint × Die) :=
  l.foldl (fun m a => match a.spot with
    | .home q =>
      let d := s.homeDie q.loc
      if s.exhausted.contains d.1 && m.elim true (fun x => a.elem < x.1) then some (a.elem, d) else m
    | .lane _ => m) none

/-- The lowest element of a list of accesses that no acknowledgement will come for now: its train is refused, or its home does
not answer (R105). -/
def State.lowestUnacked (s : State) (l : List Access) : Nat :=
  ((l.filter fun a => match a.spot with
    | .home q => !s.answering (s.homeDie q.loc).1
    | .lane _ => false).map (·.elem)).foldl min (2 ^ 32)

/-- Which accesses of a store are sent, and where it stops: with a train refused, at the lowest element that any train carries
which is not acknowledged, but what goes elsewhere is sent all the same when the store stands alone in its convoy (R105,
R345). -/
def State.sendable (s : State) (l : List Access) (stop : Option (Nat × Halt)) : List Access × Option (Nat × Halt) :=
  match s.refused l with
  | none => (l, stop)
  | some (_, ep, die) =>
    let k := s.lowestUnacked l
    (l.filter fun a => a.elem < k || (s.hart.cv.isNone && match a.spot with
      | .home q => !s.exhausted.contains (s.homeDie q.loc).1
      | .lane _ => true), some (k, .trap ⟨cTrainNackLimit, epDie ep die, 0⟩))

/-- The elements of a store have all been sent (R104). -/
def State.sent (s : State) : State := { s.closeTrains with hart.slow := false }

/-- The elements of a store sent, in ascending position (R85, R104). -/
def State.sendAll (s : State) (w : Nat) (l : List Access) : State :=
  (l.foldl (fun u a => u.accessWrite s.hart.slow a w (s.elem a.reg w a.idx)) s).sent

/-- A store over the positions [lo, hi) (R69, R229). -/
def State.storeBody (s : State) (m : Bool) (rows w : Nat) (place : Acc → Nat → Nat → M Access) (lo hi : Nat) : Pass :=
  let r := resolveElems (s.active m) (List.range rows) place .store (spanList lo hi) s []
  let q := s.sendable r.2.1 r.2.2
  { done := r.1.sendAll w (byPosition rows s.hart.vl q.1), stop := q.2 }

/-! ### Order fields (R110, R231) -/

/-- Number of an order field (R170). -/
def orderCode : Order → Nat
  | .none => 0 | .acq => 1 | .rel => 2 | .acqRel => 3

/-- The release of a store, before any element is performed (R231). -/
def releaseCheck (o : Order) (sc : Scope) : M Unit := do
  let s ← get
  if o.releases && !(s.hart.cv.elim false (·.checking)) then release sc

/-- The acquire of a load, once every element has been performed (R231). -/
def State.acquired (s : State) (o : Order) (sc : Scope) : State :=
  if o.acquires then s.acquire sc else s

/-- The index tile of an indexed form, checked as a tile of height `VROW` × q (R225). -/
def indexTileCheck (f : Form) : M Unit := do
  let s ← get
  match f with
  | .indexed b =>
    let w := etWidth s.hart.et
    tileCheck b.toNat (s.hart.vrow * (max w 32 / max 1 w))
  | _ => pure ()

/-- What an indexed form reads of its index tile (R79). -/
def State.indexReads (s : State) (f : Form) : Reads :=
  match f with
  | .indexed b =>
    let w := etWidth s.hart.et
    let wi := max w 32
    let c := max 1 (s.maxBits / wi)
    (List.range s.hart.vrow).map fun r => (fun e => (b.toNat + r * (wi / max 1 w) + e / c, e % c * wi), false)
  | _ => []

/-- `SUBBYTE_STRIDE` (R227). -/
def strideCheck (f : Form) : M Unit := do
  let s ← get
  match f with
  | .strided b => require (etWidth s.hart.et ≠ 4) cSubbyteStride (s.x b)
  | _ => pure ()

/-- A load of VLD with element positions (R228). -/
def State.vload (s : State) (m : Bool) (v : VReg) (a : SReg) (f : Form) (sp : Space) (sc : Scope) (o : Order) : State :=
  let rows := s.hart.vrow
  let w := etWidth s.hart.et
  s.member (do
      vectorCheck tyAny (sp == .lane)
      tileCheck v.toNat rows
      indexTileCheck f
      require (!o.releases) cOrderModifier (word (orderCode o))
      strideCheck f)
    State.vlNow m (fun s => maskReads m ++ s.indexReads f) (fun _ => 0)
    (fun lo hi last s => s.loadBody m (!o.acquires) v.toNat rows w (fun k => placeElem k sp a f v.toNat w) lo hi last)
    (fin := fun s => s.acquired o sc)

/-- A store of VST with element positions (R229). -/
def State.vstore (s : State) (m : Bool) (v : VReg) (a : SReg) (f : Form) (sp : Space) (sc : Scope) (o : Order) : State :=
  let rows := s.hart.vrow
  let w := etWidth s.hart.et
  s.member (do
      vectorCheck tyAny (sp == .lane)
      tileCheck v.toNat rows
      indexTileCheck f
      require (!o.acquires) cOrderModifier (word (orderCode o))
      strideCheck f
      releaseCheck o sc)
    State.vlNow m (fun s => maskReads m ++ tileReads v.toNat rows w ++ s.indexReads f) (fun _ => 0)
    (fun lo hi _ s => s.storeBody m rows w (fun k => placeElem k sp a f v.toNat w) lo hi)

/-- Units of a whole-register access (R230). -/
def State.units (s : State) : Nat := s.hart.vrow * (s.maxBits / 64)

/-- Registers and bits of the units of a tile. -/
def State.unitReads (s : State) (v : Nat) : Reads :=
  let per := max 1 (s.maxBits / 64)
  let w := max 1 (etWidth s.hart.et)
  (List.range (max 1 (64 / (8 * w)))).map fun g => (fun j => (v + j / per, j % per * 64 + g * 8 * w), false)

/-! ### VLD and VST -/

/-- `vld` (R228). -/
def execVld (m : Bool) (v : VReg) (a : SReg) (sp : Space) (sc : Scope) (o : Order) (s : State) : Result :=
  .next (s.vload m v a .unit sp sc o)

/-- `vlds` (R228). -/
def execVlds (m : Bool) (v : VReg) (a b : SReg) (sp : Space) (sc : Scope) (o : Order) (s : State) : Result :=
  .next (s.vload m v a (.strided b) sp sc o)

/-- `vldx` (R228). -/
def execVldx (m : Bool) (v : VReg) (a : SReg) (b : VReg) (sp : Space) (sc : Scope) (o : Order) (s : State) : Result :=
  .next (s.vload m v a (.indexed b) sp sc o)

/-- `vst` (R229). -/
def execVst (m : Bool) (v : VReg) (a : SReg) (sp : Space) (sc : Scope) (o : Order) (s : State) : Result :=
  .next (s.vstore m v a .unit sp sc o)

/-- `vsts` (R229). -/
def execVsts (m : Bool) (v : VReg) (a b : SReg) (sp : Space) (sc : Scope) (o : Order) (s : State) : Result :=
  .next (s.vstore m v a (.strided b) sp sc o)

/-- `vstx` (R229). -/
def execVstx (m : Bool) (v : VReg) (a : SReg) (b : VReg) (sp : Space) (sc : Scope) (o : Order) (s : State) : Result :=
  .next (s.vstore m v a (.indexed b) sp sc o)

/-- Whether LS Off stops a whole-register move: not at S, where it saves and restores lane-private SRAM (R323). -/
def State.laneMoveStops (s : State) (sp : Space) : Bool := sp == .lane && s.hart.priv != .super

/-- `vldr` (R230): units stand for elements, and faults follow R69. -/
def execVldr (v : VReg) (a : SReg) (sp : Space) (sc : Scope) (o : Order) (s : State) : Result :=
  let rows := s.hart.vrow
  .next (s.member (do
      vectorCheck tyAny (s.laneMoveStops sp)
      tileCheck v.toNat rows
      require (!o.releases) cOrderModifier (word (orderCode o)))
    State.units false (fun _ => []) (fun _ => 0)
    (fun lo hi last s =>
      let place := fun k (_ j : Nat) => placeUnit k sp a v.toNat j
      let r := resolveElems (fun _ => true) [0] place .load (spanList lo hi) s []
      let t := r.1.readAll 64 false (last && !o.acquires && r.2.2.isNone) r.2.1
      let k := t.2.elim (r.2.2.elim hi (·.1)) id
      let cut := s.hart.cv.elim false (·.cut)
      let d := ((t.1.landUnits v.toNat rows lo (if cut then s.units else k)).dirtyVIf (k ≠ lo)).markEntries
        (if cut then t.1.hart.reassembly else t.1.newEntries s)
      match t.2, r.2.2 with
      | some k, _ => { done := d, stop := some (k, .stall 12 0) }
      | none, some p => { done := d, stop := some p }
      | none, none =>
        let q := resolveElems (fun _ => true) [0] place .load (spanList hi (min s.units (hi + s.outstanding))) d []
        { done := if q.2.1 = [] then d
            else q.1.leave 64 ((r.2.1 ++ q.2.1).filterMap (Access.request s false)) fun p => p < hi })
    (fin := fun s => s.acquired o sc))

/-- `vstr` (R230). -/
def execVstr (v : VReg) (a : SReg) (sp : Space) (sc : Scope) (o : Order) (s : State) : Result :=
  let rows := s.hart.vrow
  .next (s.member (do
      vectorCheck tyAny (s.laneMoveStops sp)
      tileCheck v.toNat rows
      require (!o.acquires) cOrderModifier (word (orderCode o))
      releaseCheck o sc)
    State.units false (fun s => s.unitReads v.toNat) (fun _ => 0)
    (fun lo hi _ s =>
      let r := resolveElems (fun _ => true) [0] (fun k _ j => placeUnit k sp a v.toNat j) .store (spanList lo hi) s []
      let q := s.sendable r.2.1 r.2.2
      let d := r.1.sendAll 64 q.1
      { done := if s.hart.status.ls = .off then { d with hart.status.ls := .off } else d
        stop := q.2 }))

end Sys2Proof.Machine
end

