-- ==== Sys2Proof/Machine/Cask.lean ====
section
/-! DEFINITION. How a hart reaches a cask (R117, R121, R122, R239, R266), contributions to the slots of a round (R128 to
R131, R135), and the groups of a collective (R133 to R135). -/

namespace Sys2Proof.Machine

/-! ### Cask pointers (R117, R239, R266) -/

/-- Access and page faults report the pointer itself, not the address (R239, R243, R266). -/
def withPointer {α : Type} (p : Word) (m : M α) : M α := tryCatch m fun h => throw (match h with
  | .trap t => .trap (if [17, 18, 20, 21, cScratchRange, cScratchCore].contains t.code then { t with tval := p } else t)
  | h => h)

/-- A cask pointer translated as a store of `n` bytes, and the cask's alignment (R117, R239, R266). Its key is not checked.
-/
def caskPlace (p : Word) (n : Nat) (way : Way) : M Loc := do
  let s ← get
  let q ← withPointer p (resolve s.ctx .store p n 1 way)
  checkM (p.toNat % 64 = 0) (.trap ⟨cCaskAlignment, p, 0⟩)
  pure q.loc

/-- A cask pointer with its place. -/
def caskPhys (p : Word) (l : Loc) : Phys := ⟨l, word (if bitOf p 63 then bits p 24 0 else bits p 54 0), false, 0⟩

/-- The operation on a cask is an access of the hart: copies in flight hold it back (R76, R78), and its own earlier stores to
the cask come first (R83). -/
def caskAccess (p : Word) (l : Loc) : M Unit := do
  copyCheck (← get).ctx true (caskPhys p l) 64
  modify fun s => s.ownFirst l

/-- The membership entry of a cask (R121). -/
def Hart.entry (h : Hart) (l : Loc) : Option Member := h.members.find? fun m => m.cask = l

/-- A membership entry changed. -/
def Hart.modEntry (h : Hart) (l : Loc) (f : Member → Member) : Hart :=
  { h with members := h.members.map fun m => if m.cask = l then f m else m }

/-! ### Contributions (R128 to R131) -/

/-- An element on its way to a slot: slot, element code, and the exponent of its block scale. -/
structure Contribution where
  slot : Nat
  code : Nat
  scale : Int
deriving DecidableEq, Repr

/-- An integer or a residue times a power of two, rounded to an integer under RNE, and IX when bits are lost; no change
without a scale (R128, log 24). -/
def scaledCode (et x : Nat) (k : Int) : Nat × Nat :=
  if k = 0 || etFloat et then (x, 0)
  else
    let v := if etRns et then rnsValue et x else intOf et x
    let r := roundInt 0 0 (decide (v < 0)) v.natAbs k false
    (if etRns et then rnsOfInt et r.1 else wrap (etWidth et) r.1, if r.2 then fIX else 0)

/-- Whether the home adds a contribution of member `index` with round tag `tag` to its slots: it discards one of a hart that is no
member any more, one that comes after the closure, and a late one under WR = 2 (R129 to R131, R239). -/
def State.takes (s : State) (l : Loc) (index tag : Nat) : Bool :=
  let s := s.catchUp l
  let h := s.header l
  let c := s.roundTag l
  !s.sealed l && bit (s.joined l h) index && tag ≤ c && !(tag < c && h.wr = 2)

/-- A contribution to a quorum or collective cask by member `index` with round tag `tag`, applied as a whole (R128,
R130, R131): the state, and whether the cask was found damaged. -/
def State.contribute (s : State) (l : Loc) (index tag : Nat) (items : List Contribution) : State × Bool :=
  let s := s.catchUp l
  let h := s.header l
  let c := s.roundTag l
  if s.sealed l || !bit (s.joined l h) index then (s, false)
  else if c < tag then (s.damage l, true)
  else if tag < c && h.wr = 2 then (s, false)
  else
    let k := if h.wr = 1 then c - tag else 0
    let s := items.foldl (fun s i =>
      let x := scaledCode h.et i.code i.scale
      (s.addSlot l h i.slot x.1 k i.scale).modHome l fun r => { r with flags := r.flags ||| x.2 }) s
    (if tag = c then s.modHome l fun r => { r with makers := if r.makers.contains index then r.makers
      else r.makers ++ [index] } else s, false)

/-- Whether ET, `COP`.OP and `COP`.WR are those of the cask (R128). -/
def State.copMatches (s : State) (h : Header) : Bool :=
  h.et = s.hart.et && h.op = s.hart.cop.toNat % 16 && h.wr = s.hart.cop.toNat / 16 % 4

/-- E, the capacity of the slot area in elements (R119). -/
def State.capacity (s : State) (l : Loc) : Nat := s.home64 (l.plus 56) / 2 ^ 32

/-! ### Collective groups (R133, R135) -/

/-- Extents and strides of the group in `CGRP0` and `CGRP1` (R133). -/
def Hart.extent (h : Hart) (axis : Nat) : Nat := bits h.cgrp1 (13 * axis + 12) (13 * axis)
def Hart.stride (h : Hart) (axis : Nat) : Nat := bits h.cgrp0 (13 * axis + 25) (13 * axis + 13)

/-- n, the number of members (R133). -/
def Hart.groupSize (h : Hart) : Nat := h.extent 0 * h.extent 1 * h.extent 2

/-- Endpoint number of member `i` (R133). -/
def Hart.groupMember (h : Hart) (i : Nat) : Nat :=
  bits h.cgrp0 12 0 + i % h.extent 0 * h.stride 0 + i / h.extent 0 % h.extent 1 * h.stride 1
    + i / h.extent 0 / h.extent 1 * h.stride 2

/-- The members in order; none when there are more than endpoints. -/
def Hart.group (h : Hart) : List Nat :=
  if h.groupSize ≤ 8192 then (List.range h.groupSize).map h.groupMember else []

/-- Whether the items of a list differ. -/
def distinct (l : List Nat) : Bool :=
  (l.foldl (fun (p : Bool × List Nat) x => (p.1 && !p.2.contains x, x :: p.2)) (true, [])).1

/-- `COP`.OP (R134). -/
def Hart.copOp (h : Hart) : Nat := h.cop.toNat % 16

/-- Whether the group, `COP` and `CSTRIDE` pass the checks of R135 other than CM. -/
def State.groupOk (s : State) : Bool :=
  let h := s.hart
  let st := h.cstride.toNat
  1 ≤ h.groupSize && h.groupSize ≤ 8192 && h.group.all (· < 8192) && distinct h.group
    && h.group.contains s.endpt.toNat
    && h.copOp ≤ 6 && 256 ≤ st && st = 2 ^ msb st
    && !(4 ≤ h.copOp && !cvI h.et)

/-- The hart's member index in the group (R135). -/
def State.groupIndex (s : State) : Nat := s.hart.group.idxOf s.endpt.toNat

/-- The place of a local offset at a member of the group. -/
def memberPlace (ep off : Nat) : Nat := paOf (.ofNat 13 ep) off

end Sys2Proof.Machine
end

