-- ==== Sys2Proof/Machine/Tables.lean ====
section
/-! DEFINITION. SPT and TAG: the scratchpad tag table (R63, R64, R240, R241) and memory-tag locks (R242 to R244). -/

namespace Sys2Proof.Machine

/-! ### The scratchpad tag table -/

/-- Key of a slot of a core's table. -/
def slotKey (core n : Nat) : Nat := core * 768 + n

/-- A slot of the issuing core's table. -/
def State.slot (s : State) (n : Nat) : Word := Tbl.get 0 s.spt (slotKey s.hart.core n)

/-- A slot set. -/
def State.setSlot (s : State) (n : Nat) (v : Word) : State :=
  { s with spt := Tbl.set 0 s.spt (slotKey s.hart.core n) v }

/-- An entry as it is read into a register: at U, a valid entry of another address space reads as 0 (R241). -/
def State.slotSeen (s : State) (v : Word) : Word :=
  if s.hart.priv = .user && bitOf v 63 && bits v 60 48 ≠ s.hart.asid.toNat then 0 else v

/-- Whether an entry is valid and holds an address of the hart's own space (R64). -/
def State.slotHits (s : State) (v a : Word) : Bool :=
  bitOf v 63 && bits v 60 48 = s.hart.asid.toNat && bits v 43 0 = bits a 54 11

/-- A slot operand must be below 768 (R240). -/
def slotCheck (v : Word) : M Nat := do
  checkM (v.toNat < 768) (.trap ⟨cScratchRange, v, 0⟩)
  pure v.toNat

/-- The slot that an address hits (R64). -/
def State.slotFind (s : State) (a : Word) : Option Nat := (List.range 768).find? fun n => s.slotHits (s.slot n) a

/-- `sptl` (R241). -/
def execSptl (d a : SReg) (s : State) : Result :=
  .next (s.result d ((s.slotFind (s.x a)).elim (-1) word))

/-- A new entry for an address (R241). -/
def State.newEntry (s : State) (a : Word) : Word :=
  word (2 ^ 63 + s.hart.asid.toNat * 2 ^ 48 + bits a 54 11)

/-- `spti` (R241): an older entry for the same address loses V. -/
def execSpti (d a b : SReg) (s : State) : Result :=
  .next (s.runM (slotCheck (s.x b)) fun n t =>
    let old := t.slot n
    let t := (List.range 768).foldl (fun t k =>
      if k ≠ n && t.slotHits (t.slot k) (s.x a) then t.setSlot k (word (bits (t.slot k) 62 0)) else t) t
    (t.setSlot n (t.newEntry (s.x a))).result d (t.slotSeen old))

/-- `spte` (R241): V and D are cleared. -/
def execSpte (d a : SReg) (s : State) : Result :=
  .next (s.runM (slotCheck (s.x a)) fun n t =>
    (t.setSlot n (word (bits (t.slot n) 61 0))).result d (t.slotSeen (t.slot n)))

/-- `sptc` (R241): D of a valid entry. -/
def execSptc (a b : SReg) (s : State) : Result :=
  .next (s.runM (slotCheck (s.x a)) fun n t =>
    (if bitOf (t.slot n) 63 then t.setSlot n (word (splice (t.slot n).toNat 62 1 (bitOf (s.x b) 0).toNat)) else t).advance)

/-- `sptr` (R241). -/
def execSptr (d a : SReg) (s : State) : Result :=
  .next (s.runM (slotCheck (s.x a)) fun n t => t.result d (t.slotSeen (t.slot n)))

/-! ### Memory tags -/

/-- A pointer translated for a lock, key unused: a scratchpad carries no locks (R242, R243). A home that does not answer is
waited for (log 100). -/
def lockPlace (k : Acc) (p : Word) : M (Nat × Bool) := do
  let s ← get
  checkM (bits p 63 59 = 0) (.trap ⟨k.accessCause, p, 0⟩)
  let q ← resolveVirtual s.ctx k p .answered
  checkM (!(← get).homeSilent q.loc) (.stall 12 (bits p 54 0))
  match q.loc with
  | .glob pa => pure (pa, q.tagged)
  | .spad _ _ => trapM k.accessCause p

/-- Whether a hart has an access to a granule under way that its home has not performed: a buffered store, an open scalar load
or a request of a vector load. -/
def Hart.underWay (h : Hart) (g : Nat) : Bool :=
  h.buffer.any (fun b => meets (.glob b.pa) b.data.length (.glob g) 32)
    || h.late.elim false (fun q => meets (.glob q.pa) q.bytes (.glob g) 32)
    || h.reassembly.any fun r => r.src.any fun q => meets q.loc (elemBytes (widthOfCode r.width)) (.glob g) 32

/-- What the current hart has under way to a granule is performed, or for a store leaves its buffer. -/
def State.settleGranule (s : State) (g : Nat) : State := (s.drain.lateFirst (.glob g)).agreeLoads (.glob g) 32

/-- What has been checked against the lock of a granule is performed before the lock changes, since a check and its access are
indivisible (R244): such an access comes before the `stag` (log 119). -/
def State.beforeLock (s : State) (g : Nat) : State :=
  let me := s.hart.id
  let s := (s.harts.filter fun h => h.underWay g).foldl (fun s h => ((s.switchTo h.id).settleGranule g).switchTo me) s
  let s := if s.trains.any fun t => t.items.any fun i => i.reaches (.glob g) 32
    then s.landItems fun x => x.2.2.reaches (.glob g) 32 else s
  let here := fun (p : Posted) => p.pa / 64 = g / 64
  { (s.posted.filter here).foldl State.applyPosted s with posted := s.posted.filter fun p => !here p }

/-- The lock of one granule set and recorded (R242, R424). -/
def setLock (p : Word) (v : Nat) : M Unit := do
  let q ← withPointer p (lockPlace .store p)
  checkM q.2 (.trap ⟨21, p, 0⟩)
  modify fun s =>
    let g := q.1 / 32
    let s := s.beforeLock (g * 32)
    let old := (s.lockOf q.1).toNat
    let s := { s with locks := Tbl.set 0 s.locks g (.ofNat 4 v) }
    s.tagRecord s.hart.id (g * 32) 0 v old

/-- How many granules a `stag` at `p` has set already when it goes on from a park or from a home that did not answer (R70,
R242). -/
def State.granulesSet (s : State) (p : Word) : Nat :=
  (s.hart.stall.filter fun st => st.kind = 4 || st.kind = 12 || st.kind = 13).elim 0 fun st => (st.object - bits p 54 0) / 32

/-- `stag` (R242, R244): the granules below a fault or a park are set. -/
def execStag (a b : SReg) (s : State) : Result :=
  let p := s.x a
  let n := bits (s.x b) 15 8 + 1
  .next (s.runM (do
    checkM (p.toNat % 32 = 0) (.trap ⟨cMisaligned, p, 0⟩)
    drainAll
    ((List.range n).drop (s.granulesSet p)).forM fun g => setLock (p + word (32 * g)) (bits (s.x b) 3 0)) fun _ t => t.advance)

/-- `ltag` (R243). -/
def execLtag (d a : SReg) (s : State) : Result :=
  let p := s.x a
  .next (s.runM (withPointer p (lockPlace .load p)) fun q t =>
    t.result d (word (splice p.toNat 55 4 (if q.2 then (t.lockOf q.1).toNat else 0))))

end Sys2Proof.Machine
end

