-- ==== Sys2Proof/Machine/Fence.lean ====
section
/-! DEFINITION. Fences and `flushrd` (R88 to R91, R102, R103, R245, R246). -/

namespace Sys2Proof.Machine

/-- Stores to pairs whose flush nobody has answered: none of them counts as performed yet (R74, R90). -/
def State.unflushed (s : State) (left : List (Endpoint × Die)) : Nat :=
  ((s.hart.sent.filter fun p => left.contains p.1).map (·.2)).sum

/-- A register that an earlier vector convoy of the hart has still to fill: that of a load's open request, or of an old value that
a `vamo` awaits (R21, R79). What a convoy that was split has left is awaited by none (R347). -/
def State.openReg (s : State) : Option Nat :=
  ((s.hart.reassembly.find? fun r => !r.left).map (·.reg)).orElse fun _ =>
    s.ownTrains.findSome? fun t => t.items.findSome? fun i => i.old.map (·.1)

/-- The earlier vector convoys of the hart have drained (R21, R152, R322). The wait is one for landed bits (R79). -/
def vectorDrained : M Unit := do
  if (← get).openReg.isSome then
    modify fun s => s.ackTrains.landOwn
    match (← get).openReg with
    | some r => throw (.stall 3 r)
    | none => pure ()
  else pure ()

/-- Element accesses of the hart that no acknowledgement or response has come for (R74, R104, R401). -/
def State.vectorOpen (s : State) : Nat := (s.ownTrains.map fun t => t.items.length + t.applied).sum + s.hart.awaited

/-- The wait of a fence for the hart's vector accesses (R88, R91). -/
def fenceVector : M Unit := do
  modify fun s => s.ackTrains.landOwn
  let n := (← get).vectorOpen
  checkM (n = 0) (.stall 5 n)

/-- The stores of a fence: the buffer drains, every recorded pair is flushed, and the flushes under way are answered; the wait is
of kind `kind`. With `all`, the vector accesses and the copies of the hart are waited for as well, and `more` counts what else
is (R88, R90, R91, R246). -/
def fenceStores (kind : Nat) (all : Bool) (more : State → Nat) : M Unit := do
  modify State.flushOverflow
  latchCheck
  modify State.drain
  let left ← flushSome (← get).hart.toFlush
  if all then modify fun s => s.ackTrains.landOwn
  let s ← get
  let held := s.hart.buffer.length + (if all then (s.copiesOf s.hart.id).length + s.vectorOpen else 0) + more s
  checkM (left = [] && held = 0) (.stall kind (s.unflushed left + held))
  modify State.flushesDone

/-- `fence.sv` (R88, R246). Every scope does the same work. -/
def execFenceSv (_sc : Scope) (s : State) : Result :=
  .next (s.runM (fenceStores 5 false fun _ => 0) fun _ t => t.advance)

/-- `fence.vs` (R88): the whole L1 is invalidated. -/
def execFenceVs (_sc : Scope) (s : State) : Result := .next (s.runM fenceVector fun _ t => t.dropL1.advance)

/-- `fence.vv` (R88). -/
def execFenceVv (_sc : Scope) (s : State) : Result := .next (s.runM fenceVector fun _ t => t.advance)

/-- `fence.a` (R88, R246). -/
def execFenceA (_sc : Scope) (s : State) : Result :=
  .next (s.runM (fenceStores 5 true fun _ => 0) fun _ t => t.dropL1.advance)

/-- Endpoint and die of a pointer's home, as `flushrd` finds them: a load of zero length (R103). -/
def homeOf (p : Word) : M (Endpoint × Die) := do
  let s ← get
  let own := (s.endpt, BitVec.ofNat 3 (dieOfCore s.hart.core))
  withPointer p (if bitOf p 63 then do
      let _ ← resolve s.ctx .load p 0 1 .posted
      pure own
    else do
      checkM (bits p 63 59 = 0) (.trap ⟨20, p, 0⟩)
      let r ← translate s.ctx .load (bits p 54 0)
      checkM (epOf r.1 ≠ s.endpt || s.backed (offOf r.1)) (.trap ⟨20, p, 0⟩)
      pure (epOf r.1, dieOf (offOf r.1)))

/-- `flushrd` (R103): the pair of the pointer's home, or at DOMAIN scope every die of its endpoint. -/
def execFlushrd (a : SReg) (sc : Scope) (s : State) : Result :=
  .next (s.runM (do
    modify State.flushOverflow
    latchCheck
    let h ← homeOf (s.x a)
    drainAll
    let t := if sc = .domain then (List.range 5).map fun d => (h.1, BitVec.ofNat 3 d) else [h]
    let own := (s.endpt, BitVec.ofNat 3 (dieOfCore s.hart.core))
    flushAll (t.filter fun q => q ≠ own)) fun _ t => t.advance)

end Sys2Proof.Machine
end

