-- ==== Sys2Proof/Machine/TypeState.lean ====
section
/-! DEFINITION. CFG: vector length, type, rows, and the collective description (R12, R14, R15, R180 to R187). -/

namespace Sys2Proof.Machine

/-- `VTYPE` stored, with the effects of R12. -/
def State.storeVtype (s : State) (v : Word) : State :=
  let h := s.hart
  if bits v 6 5 ≠ bits h.vtype 6 5 then
    { s with
      hart.vtype := v
      hart.v := .replicate 32 0
      hart.flying := .replicate 32 0
      hart.status.vs := .initial
      hart.vl := 0
      hart.stale := true }
  else if bits v 4 0 ≠ h.et then
    { s with
      hart.vtype := v
      hart.vl := 0
      hart.stale := true }
  else { s with hart.vtype := v }

/-- `VROW` stored: 1, 2, 4 or 8 only (R181, R185). -/
def State.storeVrow (s : State) (n : Nat) : State :=
  if n = 1 || n = 2 || n = 4 || n = 8 then { s with hart.vrow := n } else s

/-- The groups after R15, for a current owner `k`, a request for `q` groups and `room` free ones under the quota. -/
def regroup (lat : Vector (Option (BitVec 2)) 8) (k q room : Nat) : Vector (Option (BitVec 2)) 8 :=
  let held := groupsOf lat k
  let q := min q 8
  if q ≠ 0 && q < held.length then assign lat (held.drop q) none
  else if held.length < q then
    let free := (enum lat.toList).filterMap fun p => if p.2.isNone then some p.1 else none
    assign lat (free.take (min (q - held.length) room)) (some (.ofNat 2 k))
  else lat

/-- `MAXVL` computed anew (R11). -/
def State.remax (s : State) : State :=
  { s with
    hart.maxvl := maxvlOf s.vlg s.hart
    hart.stale := false }

/-- A CFG instruction (R183): VS, the drain of earlier vector convoys (R152), its checks, its effect `f`, `VSTART` := 0, and VS
Dirty unless the instruction has made it Initial. -/
def State.cfg (s : State) (own : M Unit) (f : State → State) : State :=
  s.runM (do offCheck; vectorDrained; own) fun _ t =>
    let u := f { t with hart.status.vs := .dirty }
    { u with hart.vstart := 0 }.advance

/-- `svl` (R15, R184). -/
def execSvl (d a b : SReg) (s : State) : Result :=
  .next (s.cfg (require (!s.hart.vtypeBad) cIllegalVtype s.hart.vtype) fun t =>
    let c := t.hart.core
    let lat := (t.coreAt c).lat
    let t := (t.setLat c (regroup lat (t.hart.id % 4) (s.x b).toNat (t.room lat))).remax
    let vl := if t.vlg = 0 then 0 else min (s.x a).toNat t.hart.maxvl
    ({ t with hart.vl := vl }).setX d (word vl))

/-- `svt` (R12, R186). -/
def execSvt (a : SReg) (s : State) : Result := .next (s.cfg (pure ()) fun t => t.storeVtype (s.x a))

/-- `svr` (R185). -/
def execSvr (d a : SReg) (s : State) : Result :=
  .next (s.cfg (pure ()) fun t =>
    let t := t.storeVrow (s.x a).toNat
    t.setX d (word t.hart.vrow))

/-- `CGRP0` and `CGRP1` stored: reserved bits read as zero (R4, R133). -/
def State.storeGroup (s : State) (g0 g1 : Word) : State :=
  { s with
    hart.cgrp0 := word (bits g0 51 0)
    hart.cgrp1 := word (bits g1 38 0) }

/-- `scgrp` (R187). -/
def execScgrp (a b : SReg) (s : State) : Result := .next (s.cfg (pure ()) fun t => t.storeGroup (s.x a) (s.x b))

/-- `scop` (R187). -/
def execScop (a b : SReg) (seq : Bool) (s : State) : Result :=
  .next (s.cfg (pure ()) fun t =>
    let t := { t with hart.cop := .ofNat 7 (bits (s.x a) 5 0 + seq.toNat * 64) }
    if b = 0 then t else { t with hart.cstride := .ofNat 32 (s.x b).toNat })

end Sys2Proof.Machine
end

