-- ==== Sys2Proof/Machine/Control.lean ====
section
/-! DEFINITION. Control registers: what each reads, what a write stores, and `rdc`, `wrc`, `setbc`, `clrbc` (R38, R41,
R72, R112, R133, R134, R173, R177 to R181, R321 to R329, R351, R399, R414, R421). -/

namespace Sys2Proof.Machine

/-! ### Reading -/

/-- `COREID` of a core (R179). -/
def coreId (c : Nat) : Word := word (c * 2 ^ 16 + c / 96 * 2 ^ 7 + c / 12 % 8 * 2 ^ 4 + c % 12)

/-- `PREEMPT` as a word (R329). -/
def Hart.preemptWord (h : Hart) : Word := word (h.urgp.toNat * 4 + h.pend.toNat * 2 + h.uen.toNat)

/-- A user control register (R144). -/
def State.readUser (s : State) (n : Nat) : Option Word :=
  let h := s.hart
  match n with
  | 0x000 => some (word h.vl)
  | 0x001 => some (word h.vrow)
  | 0x002 => some h.vtype
  | 0x003 => some (word h.vstart)
  | 0x004 => some (word h.maxvl)
  | 0x005 => some (word s.vlg)
  | 0x006 => some (word h.vcthr)
  | 0x007 => some (h.flags.zeroExtend 64)
  | 0x008 => some (h.frm.zeroExtend 64)
  | 0x009 => some (h.srseed.zeroExtend 64)
  | 0x00A => some h.lcnt
  | 0x00B => some h.lbeg
  | 0x00C => some h.lend
  | 0x010 => some s.now
  | 0x011 => some (h.maxwait.zeroExtend 64)
  | 0x012 => some (h.defdl.zeroExtend 64)
  | 0x018 => some h.cgrp0
  | 0x019 => some h.cgrp1
  | 0x01A => some (h.cop.zeroExtend 64)
  | 0x01B => some (h.cstride.zeroExtend 64)
  | 0x01C => some (h.cround.zeroExtend 64)
  | 0x020 => some (word h.id)
  | 0x021 => some (coreId h.core)
  | 0x022 => some (s.endpt.zeroExtend 64)
  | 0x028 => some (word (h.injWin * 2 ^ 32 + h.injTotal))
  | 0x030 => some s.risk
  | 0x040 => some (word h.lcr.use)
  | 0x041 => some (word h.lcr.mask)
  | 0x042 => some (word h.lcr.tail)
  | 0x043 => some (word h.lcr.start)
  | 0x044 => some (word h.lcr.stall)
  | 0x045 => some (word (h.lcr.on.toNat * 2 ^ 63 + h.lcr.cyc))
  | _ => none

/-- A privileged control register (R321). -/
def State.readPriv (s : State) (n : Nat) : Option Word :=
  let h := s.hart
  match n with
  | 0x100 => some h.status.toWord
  | 0x101 => some h.tvec
  | 0x102 => some h.epc
  | 0x103 => some h.cause
  | 0x104 => some h.tval
  | 0x105 => some h.tval2
  | 0x106 => some h.sscratch
  | 0x108 => some (h.asid.zeroExtend 64)
  | 0x109 => some h.ptb
  | 0x10A => some h.ctxarea
  | 0x10C => some (word (latView (s.coreAt h.core).lat))
  | 0x110 => some h.slice
  | 0x111 => some h.preemptWord
  | 0x118 => some s.taghist
  | 0x120 => some (h.riskthr.zeroExtend 64)
  | 0x128 => some (s.stagger.zeroExtend 64)
  | 0x129 => some (s.slew.zeroExtend 64)
  | 0x12A => some (s.shape.zeroExtend 64)
  | _ => none

/-- CR(N), if the number is assigned (R177). -/
def State.readCr (s : State) (n : Nat) : Option Word := if n < 0x100 then s.readUser n else s.readPriv n

/-- Registers that no instruction writes: a write at U raises `PRIVILEGED_CTLREG`, one at S is ignored (R177, R322). -/
def readOnlyCr (n : Nat) : Bool :=
  [0x004, 0x005, 0x010, 0x01C, 0x020, 0x021, 0x022, 0x028, 0x030, 0x040, 0x041, 0x042, 0x043, 0x044, 0x045].contains n

/-! ### What a write stores -/

/-- A value with the given bits only: the others are reserved (R4). -/
def keep (v : Word) (mask : Nat) : Word := word (v.toNat &&& mask)

/-- `VL` (R12, R181). -/
def State.storeVl (s : State) (v : Word) : State :=
  { s with hart.vl := if s.vlg = 0 || s.hart.stale then 0 else min (bits v 31 0) s.hart.maxvl }

/-- `FRM` (R38): 6 and 7 leave RM. -/
def State.storeFrm (s : State) (v : Word) : State :=
  let rm := if 5 < bits v 2 0 then frmRM s.hart.frm else bits v 2 0
  { s with hart.frm := .ofNat 15 ((v.toNat &&& 0x7F08) + rm) }

/-- `SRSEED` (R41): 0 stores 1. -/
def State.storeSrseed (s : State) (v : Word) : State :=
  { s with hart.srseed := if bits v 31 0 = 0 then 1 else .ofNat 32 (bits v 31 0) }

/-- `MAXWAIT` (R112): at U a write raises `PRIVILEGED_CTLREG`. -/
def storeMaxwait (v : Word) : M Unit := do
  checkM ((← get).hart.priv = .super) (.trap ⟨cPrivCtlreg, 0x011, 0⟩)
  modify fun s => { s with hart.maxwait := .ofNat 48 (min (bits v 47 0) 60000000000) }

/-- The state that a write of Initial clears (R323). -/
def State.clearInitial (s : State) (st : Status) : State :=
  let s := if st.vs = .initial then { s with hart.v := .replicate 32 0, hart.flying := .replicate 32 0 } else s
  let s := if st.ts = .initial then { s with hart.tile := .replicate 4 Tile.reset } else s
  if st.ls = .initial then { s with lane := s.groups.foldl (fun m g => clearGroup m s.hart.core g) s.lane } else s

/-- `STATUS` (R323). -/
def State.storeStatus (s : State) (v : Word) : State :=
  let st := Status.ofWord v
  { s.clearInitial st with hart.status := st }

/-- `TVEC` (R324): a MODE of 2 or 3 leaves MODE. -/
def State.storeTvec (s : State) (v : Word) : State :=
  let mode := if 1 < v.toNat % 4 then s.hart.tvec.toNat % 4 else v.toNat % 4
  { s with hart.tvec := word (v.toNat / 4 * 4 + mode) }

/-- `ASID` (R325). -/
def storeAsid (v : Word) : M Unit := do
  checkM (bits v 12 0 < (← get).part.asidCount) (.trap ⟨cPrivCtlreg, 0x108, 0⟩)
  modify fun s => { s.dropL1 with hart.asid := .ofNat 13 (bits v 12 0) }

/-- `PTB` (R325). -/
def State.storePtb (s : State) (v : Word) : State := { s.dropL1 with hart.ptb := keep v 0x01FFFFFFFFFF0001 }

/-- `SLICE` (R329): a pending `TIME_SLICE` is cleared and the cause armed once more. -/
def State.storeSlice (s : State) (v : Word) : State :=
  let h := { s.hart with
    slice := keep v 0x8000FFFFFFFFFFFF
    sliceArmed := true
    pending := s.hart.pending.filter fun t => t.code ≠ 81 }
  { s with hart := sliceDue s.now.toNat h }

/-- `PREEMPT` (R177, R329): UEN is stored; PEND is cleared where `clears` has a 1, which withdraws the request. -/
def State.storePreempt (s : State) (v clears : Word) : State :=
  let s := { s with hart.uen := bitOf v 0 }
  if bitOf clears 1 then
    { s with
      hart.pend := false
      hart.urgp := false
      hart.pending := s.hart.pending.filter fun t => t.code ≠ 79 }
  else s

/-- `STAGGER` (R329). -/
def State.storeStagger (s : State) (v : Word) : State := { s with stagger := .ofNat 16 (min (bits v 15 0) 50000) }

/-- `RISKTHR` (R416): the cause is armed once more. -/
def State.storeRiskthr (s : State) (v : Word) : State :=
  { s with
    hart.riskthr := .ofNat 17 (bits v 16 0)
    hart.riskArmed := true }

/-- `TAGHIST` (R329, R423). -/
def State.storeTaghist (s : State) (v : Word) : State :=
  { s with
    taghist := keep v 0x01FFFFFFFFFFF001
    tagIndex := 0 }

/-- A loop register (R173): PL is 0 at U. -/
def State.storeLoop (s : State) (r : LoopReg) (v : Word) : State :=
  match r with
  | .lcnt => { s with hart.lcnt := v }
  | .lbeg => { s with hart.lbeg := keep v 0xFFFFFFFFFFFFFFFC }
  | .lend => { s with hart.lend := keep v (if s.hart.priv = .super then 0xFFFFFFFFFFFFFFFD else 0xFFFFFFFFFFFFFFFC) }

/-- A write of vector configuration makes VS Dirty, unless it makes it Initial (R323). -/
def State.configured (s : State) (f : State → State) : State := f s.dirtyV

/-- A user register stored (R181). -/
def storeUser (n : Nat) (v : Word) : M Unit :=
  match n with
  | 0x000 => modify fun s => s.configured (·.storeVl v)
  | 0x001 => modify fun s => s.configured (·.storeVrow v.toNat)
  | 0x002 => modify fun s => s.configured (·.storeVtype v)
  | 0x003 => modify fun s => { s.dirtyV with hart.vstart := bits v 31 0 }
  | 0x006 => modify fun s => { s.dirtyV with hart.vcthr := bits v 31 0 }
  | 0x007 => modify fun s => { s with hart.flags := .ofNat 7 (bits v 6 0) }
  | 0x008 => modify fun s => s.storeFrm v
  | 0x009 => modify fun s => s.storeSrseed v
  | 0x00A => modify fun s => s.storeLoop .lcnt v
  | 0x00B => modify fun s => s.storeLoop .lbeg v
  | 0x00C => modify fun s => s.storeLoop .lend v
  | 0x011 => storeMaxwait v
  | 0x012 => modify fun s => { s with hart.defdl := .ofNat 48 (bits v 47 0) }
  | 0x018 => modify fun s => { s with hart.cgrp0 := word (bits v 51 0) }
  | 0x019 => modify fun s => { s with hart.cgrp1 := word (bits v 38 0) }
  | 0x01A => modify fun s => { s with hart.cop := .ofNat 7 (bits v 6 0) }
  | 0x01B => modify fun s => { s with hart.cstride := .ofNat 32 (bits v 31 0) }
  | _ => pure ()

/-- A privileged register stored (R323 to R329). -/
def storePriv (n : Nat) (v clears : Word) : M Unit :=
  match n with
  | 0x100 => modify fun s => s.storeStatus v
  | 0x101 => modify fun s => s.storeTvec v
  | 0x102 => modify fun s => { s with hart.epc := keep v 0xFFFFFFFFFFFFFFFC }
  | 0x103 => modify fun s => { s with hart.cause := keep v 0x800000000000007F }
  | 0x104 => modify fun s => { s with hart.tval := v }
  | 0x105 => modify fun s => { s with hart.tval2 := v }
  | 0x106 => modify fun s => { s with hart.sscratch := v }
  | 0x108 => storeAsid v
  | 0x109 => modify fun s => s.storePtb v
  | 0x10A => modify fun s => { s with hart.ctxarea := keep v 0x01FFFFFFFFFFE001 }
  | 0x110 => modify fun s => s.storeSlice v
  | 0x111 => modify fun s => s.storePreempt v clears
  | 0x118 => modify fun s => s.storeTaghist v
  | 0x120 => modify fun s => s.storeRiskthr v
  | 0x128 => modify fun s => s.storeStagger v
  | 0x12A => modify fun s => { s with shape := .ofNat 24 (bits v 23 0) }
  | _ => pure ()

/-- CR(N) := v, by each register's own rule; `clears` is the operand of a write-1-clears field (R177). -/
def storeCr (n : Nat) (v clears : Word) : M Unit := if n < 0x100 then storeUser n v else storePriv n v clears

/-! ### The instructions (R177) -/

/-- The checks of an access to a control register, and its value: the vector configuration needs VS (R351), and the
privileged numbers need S (R320). -/
def accessCr (n : Nat) : M Word := do
  let s ← get
  match s.readCr n with
  | none => trapM cIllegalEncoding s.hart.pc
  | some v => do
    require (!(n ≤ 6 && s.hart.status.vs = .off)) cVectorOff 1
    checkM (n < 0x100 || s.hart.priv = .super) (.trap ⟨cPrivCtlreg, word n, 0⟩)
    pure v

/-- Whether a write of a control register waits until earlier vector convoys have drained: `VL`, `VROW`, `VTYPE` and `VSTART`
(R152, R177), and the privileged ones (R322). -/
def drainedCr (n : Nat) : Bool := n ≤ 3 || 0x100 ≤ n

/-- A write of a control register (R177): `f` makes the new value of the old one. -/
def State.writeCr (s : State) (n : Nat) (clears : Word) (f : Word → Word) : State :=
  s.runM (do
    let v ← accessCr n
    if readOnlyCr n then checkM ((← get).hart.priv = .super) (.trap ⟨cPrivCtlreg, word n, 0⟩)
    else do
      if drainedCr n then vectorDrained
      storeCr n (f v) clears) fun _ t => t.advance

/-- `rdc` (R177). -/
def execRdc (d : SReg) (n : BitVec 12) (s : State) : Result :=
  .next (s.runM (accessCr n.toNat) fun v t => t.result d v)

/-- `wrc` (R177). -/
def execWrc (a : SReg) (n : BitVec 12) (s : State) : Result := .next (s.writeCr n.toNat (s.x a) fun _ => s.x a)

/-- `setbc` (R177). -/
def execSetbc (a : SReg) (n : BitVec 12) (s : State) : Result := .next (s.writeCr n.toNat (s.x a) fun v => v ||| s.x a)

/-- `clrbc` (R177). -/
def execClrbc (a : SReg) (n : BitVec 12) (s : State) : Result := .next (s.writeCr n.toNat 0 fun v => v &&& ~~~(s.x a))

/-! ### The writes as events: what a write that has passed the checks of R177 stores -/

/-- A store of a register as an event: a trap lands at the current instruction. -/
def State.storeEvent (s : State) (m : M Unit) : State := s.runM m fun _ t => t

/-- A write to `VL` (R181). -/
def execVlWrite (v : Word) (s : State) : Result := .next (s.storeEvent (storeCr 0x000 v 0))
/-- A write to `VROW` (R181). -/
def execVrowWrite (v : Word) (s : State) : Result := .next (s.storeEvent (storeCr 0x001 v 0))
/-- A write to `VTYPE` (R181). -/
def execVtypeWrite (v : Word) (s : State) : Result := .next (s.storeEvent (storeCr 0x002 v 0))
/-- A write to `VSTART` (R181). -/
def execVstartWrite (v : Word) (s : State) : Result := .next (s.storeEvent (storeCr 0x003 v 0))
/-- A write to `FRM` (R38). -/
def execFrmWrite (v : Word) (s : State) : Result := .next (s.storeEvent (storeCr 0x008 v 0))
/-- A write to `SRSEED` (R41). -/
def execSrseedWrite (v : Word) (s : State) : Result := .next (s.storeEvent (storeCr 0x009 v 0))
/-- A write to `MAXWAIT` (R112). -/
def execMaxwaitWrite (v : Word) (s : State) : Result := .next (s.storeEvent (storeCr 0x011 v 0))
/-- A write to `STATUS` (R323). -/
def execStatusWrite (v : Word) (s : State) : Result := .next (s.storeEvent (storeCr 0x100 v 0))
/-- A write to `TVEC` (R324). -/
def execTvecWrite (v : Word) (s : State) : Result := .next (s.storeEvent (storeCr 0x101 v 0))
/-- A write to `ASID` (R325). -/
def execAsidWrite (v : Word) (s : State) : Result := .next (s.storeEvent (storeCr 0x108 v 0))
/-- A write to `PTB` (R325). -/
def execPtbWrite (v : Word) (s : State) : Result := .next (s.storeEvent (storeCr 0x109 v 0))
/-- A write to `SLICE` (R329). -/
def execSliceWrite (v : Word) (s : State) : Result := .next (s.storeEvent (storeCr 0x110 v 0))
/-- A write to `PREEMPT` (R329). -/
def execPreemptWrite (v : Word) (s : State) : Result := .next (s.storeEvent (storeCr 0x111 v v))
/-- A write to `STAGGER` (R329). -/
def execStaggerWrite (v : Word) (s : State) : Result := .next (s.storeEvent (storeCr 0x128 v 0))
/-- A write to `RISKTHR` (R416). -/
def execRiskthrWrite (v : Word) (s : State) : Result := .next (s.storeEvent (storeCr 0x120 v 0))
/-- A write to `TAGHIST` (R423). -/
def execTaghistWrite (v : Word) (s : State) : Result := .next (s.storeEvent (storeCr 0x118 v 0))
/-- A write to a loop register (R173, R175). -/
def execLoopRegisterWrite (r : LoopReg) (v : Word) (s : State) : Result :=
  .next (s.storeEvent (modify fun t => t.storeLoop r v))

end Sys2Proof.Machine
end

