-- ==== Sys2Proof/WellFormed.lean ====
section
/-! DEFINITION. When a term of `Instr` is an instruction of the part: the limits that R143 to R149 put on operand
fields and that the field's own type does not carry. An event has no limits here. -/

namespace Sys2Proof

/-- The assigned control register numbers (R144, R180, R321). -/
def crAssigned (n : Nat) : Bool :=
  n ≤ 0x00C || (0x010 ≤ n && n ≤ 0x012) || (0x018 ≤ n && n ≤ 0x01C) || (0x020 ≤ n && n ≤ 0x022) || n == 0x028
    || n == 0x030 || (0x040 ≤ n && n ≤ 0x045) || (0x100 ≤ n && n ≤ 0x106) || (0x108 ≤ n && n ≤ 0x10A)
    || n == 0x10C || n == 0x110 || n == 0x111 || n == 0x118 || n == 0x120 || (0x128 ≤ n && n ≤ 0x12A)

/-- Operand kinds 1 and 2 only: an index or a count (R145). -/
def VOperand.isIndex : VOperand → Bool
  | .vec _ => false | .scal _ => true | .imm _ => true

/-- Operand kinds 0 and 1 only: an initial value (R145). -/
def VOperand.isInitial : VOperand → Bool
  | .vec _ => true | .scal _ => true | .imm _ => false

/-- An element type code that is assigned (R32). -/
def typeAssigned (t : TypeCode) : Bool := t.toNat < 19

/-- Well-formedness: each check is one that R150 makes on the bits of the word. -/
def Instr.wf : Instr → Bool
  | .add _ _ _ => true
  | .sub _ _ _ => true
  | .and _ _ _ => true
  | .or _ _ _ => true
  | .xor _ _ _ => true
  | .andn _ _ _ => true
  | .orn _ _ _ => true
  | .sll _ _ _ => true
  | .srl _ _ _ => true
  | .sra _ _ _ => true
  | .slt _ _ _ => true
  | .sltu _ _ _ => true
  | .min _ _ _ => true
  | .max _ _ _ => true
  | .minu _ _ _ => true
  | .maxu _ _ _ => true
  | .clz _ _ => true
  | .ctz _ _ => true
  | .popc _ _ => true
  | .bswap _ _ => true
  | .mul _ _ _ => true
  | .mulh _ _ _ => true
  | .mulhu _ _ _ => true
  | .mulhsu _ _ _ => true
  | .div _ _ _ => true
  | .divu _ _ _ => true
  | .rem _ _ _ => true
  | .remu _ _ _ => true
  | .addi _ _ _ => true
  | .andi _ _ _ => true
  | .ori _ _ _ => true
  | .xori _ _ _ => true
  | .slti _ _ _ => true
  | .sltiu _ _ _ => true
  | .slli _ _ _ => true
  | .srli _ _ _ => true
  | .srai _ _ _ => true
  | .lui _ _ => true
  | .auipc _ _ => true
  | .lb _ _ _ => true
  | .lbu _ _ _ => true
  | .lh _ _ _ => true
  | .lhu _ _ _ => true
  | .lw _ _ _ => true
  | .lwu _ _ _ => true
  | .ld _ _ _ => true
  | .sb _ _ _ => true
  | .sh _ _ _ => true
  | .sw _ _ _ => true
  | .sd _ _ _ => true
  | .beq _ _ _ => true
  | .bne _ _ _ => true
  | .blt _ _ _ => true
  | .bge _ _ _ => true
  | .bltu _ _ _ => true
  | .bgeu _ _ _ => true
  | .jal _ _ => true
  | .jalr _ _ _ => true
  | .aswap _ _ _ _ _ _ => true
  | .aadd _ _ _ _ _ _ => true
  | .aand _ _ _ _ _ _ => true
  | .aor _ _ _ _ _ _ => true
  | .axor _ _ _ _ _ _ => true
  | .amin _ _ _ _ _ _ => true
  | .amax _ _ _ _ _ _ => true
  | .aminu _ _ _ _ _ _ => true
  | .amaxu _ _ _ _ _ _ => true
  | .acas _ _ _ _ _ _ => true
  | .lp _ _ => true
  | .rdc _ n => crAssigned n.toNat
  | .wrc _ n => crAssigned n.toNat
  | .setbc _ n => crAssigned n.toNat
  | .clrbc _ n => crAssigned n.toNat
  | .ecall => true
  | .ebreak => true
  | .eret => true
  | .tlbi _ => true
  | .tlbia => true
  | .vsvall _ _ => true
  | .vrsall _ => true
  | .tsvall _ => true
  | .trsall _ => true
  | .rapark => true
  | .rarestore => true
  | .lgset _ _ => true
  | .preempt _ _ => true
  | .fenceSv _ => true
  | .fenceVs _ => true
  | .fenceVv _ => true
  | .fenceA _ => true
  | .flushrd _ sc => (sc == .device || sc == .domain)
  | .svl _ _ _ => true
  | .svt _ => true
  | .svr _ _ => true
  | .scgrp _ _ => true
  | .scop _ _ _ => true
  | .vadd _ _ _ _ => true
  | .vsub _ _ _ _ => true
  | .vrsub _ _ _ _ => true
  | .vmul _ _ _ _ => true
  | .vmulh _ _ _ _ => true
  | .vmulhu _ _ _ _ => true
  | .vdiv _ _ _ _ => true
  | .vrem _ _ _ _ => true
  | .vmin _ _ _ _ => true
  | .vmax _ _ _ _ => true
  | .vand _ _ _ _ => true
  | .vor _ _ _ _ => true
  | .vxor _ _ _ _ => true
  | .vsll _ _ _ _ => true
  | .vsrl _ _ _ _ => true
  | .vsra _ _ _ _ => true
  | .vsadd _ _ _ _ => true
  | .vssub _ _ _ _ => true
  | .vadc _ _ _ => true
  | .vsbc _ _ _ => true
  | .vmadc _ _ _ => true
  | .vmsbc _ _ _ => true
  | .vabs _ _ _ => true
  | .vneg _ _ _ => true
  | .vmerge _ _ _ => true
  | .vmv _ _ _ => true
  | .vfma _ _ _ _ => true
  | .vfms _ _ _ _ => true
  | .vfnma _ _ _ _ => true
  | .vfnms _ _ _ _ => true
  | .vsqrt _ _ _ => true
  | .vsgnj _ _ _ _ => true
  | .vsgnjn _ _ _ _ => true
  | .vsgnjx _ _ _ _ => true
  | .vclass _ _ _ => true
  | .vwadd _ _ _ _ => true
  | .vwmul _ _ _ _ => true
  | .veq _ _ _ _ => true
  | .vne _ _ _ _ => true
  | .vlt _ _ _ _ => true
  | .vle _ _ _ _ => true
  | .vgt _ _ _ _ => true
  | .vge _ _ _ _ => true
  | .vunord _ _ _ _ => true
  | .mand _ _ _ => true
  | .mor _ _ _ => true
  | .mxor _ _ _ => true
  | .mandn _ _ _ => true
  | .morn _ _ _ => true
  | .mnot _ _ _ => true
  | .mmv _ _ _ => true
  | .mpop _ _ _ => true
  | .mffs _ _ _ => true
  | .mfls _ _ _ => true
  | .msbf _ _ _ => true
  | .msif _ _ _ => true
  | .mslu _ _ _ b => b.isIndex
  | .msld _ _ _ b => b.isIndex
  | .iota _ _ _ => true
  | .vid _ _ => true
  | .vslup _ _ _ b => b.isIndex
  | .vsldn _ _ _ b => b.isIndex
  | .vslup1 _ _ _ _ => true
  | .vsldn1 _ _ _ _ => true
  | .vrgath _ _ _ _ => true
  | .vcompr _ _ => true
  | .vexpand _ _ => true
  | .vbcast _ _ _ b => b.isIndex
  | .vmvxs _ _ => true
  | .vmvsx _ _ => true
  | .vext _ _ b => b.isIndex
  | .vins _ _ b => b.isIndex
  | .vrowmv _ _ => true
  | .vrsum _ _ _ b => b.isInitial
  | .vrosum _ _ _ b => b.isInitial
  | .vrmax _ _ _ b => b.isInitial
  | .vrmin _ _ _ b => b.isInitial
  | .vrand _ _ _ b => b.isInitial
  | .vror _ _ _ b => b.isInitial
  | .vrxor _ _ _ b => b.isInitial
  | .vcvt _ _ _ t => typeAssigned t
  | .vcvtr _ _ _ t => typeAssigned t
  | .vqmx _ _ _ t => typeAssigned t
  | .vrnsx _ _ _ t => typeAssigned t
  | .vrnsi _ _ _ t => typeAssigned t
  | .vld _ _ _ _ _ _ => true
  | .vldr _ _ _ _ _ => true
  | .vlds _ _ _ _ _ _ _ => true
  | .vldx _ _ _ _ _ _ _ => true
  | .vldc _ _ _ _ _ _ => true
  | .vst _ _ _ _ _ _ => true
  | .vstr _ _ _ _ _ => true
  | .vsts _ _ _ _ _ _ _ => true
  | .vstx _ _ _ _ _ _ _ => true
  | .vstc _ _ _ _ _ _ => true
  | .vsca _ _ _ _ _ _ _ => true
  | .vamo _ _ _ _ _ _ _ => true
  | .vrrs _ _ _ _ _ => true
  | .vrrsq _ _ _ _ _ => true
  | .sptl _ _ => true
  | .spti _ _ _ => true
  | .spte _ _ => true
  | .sptc _ _ => true
  | .sptr _ _ => true
  | .stag _ _ => true
  | .ltag _ _ => true
  | .tld _ _ => true
  | .tldg _ _ _ => true
  | .tst _ _ => true
  | .tclr _ => true
  | .tmv _ _ => true
  | .vmxa _ _ _ _ => true
  | .vmxs _ _ _ _ _ => true
  | .tout _ _ _ _ => true
  | .cpy _ _ _ _ _ _ => true
  | .cpys _ a _ _ _ _ => a != 31
  | .fill _ _ _ _ _ _ => true
  | .cexp _ _ => true
  | .cwm _ _ => true
  | .cwait _ _ _ => true
  | .cfree _ => true
  | .bar _ _ _ c => c != 1
  | .barr _ _ _ => true
  | .barw _ _ _ c => c != 1
  | .acq _ _ _ c => c != 1
  | .rel _ _ => true
  | .mend _ _ _ => true
  | .stg _ _ _ _ => true
  | .gjoin _ _ _ => true
  | .gleave _ _ => true
  | .qarr _ _ _ c => c != 1
  | .qwait _ _ _ c => c != 1
  | .qjoin _ _ _ => true
  | .qleave _ _ => true
  | .qread _ _ _ => true
  | .enq _ _ => true
  | .recv _ _ _ => true
  | .qpoll _ _ => true
  | .wake _ => true
  | .farm _ _ => true
  | .strip _ _ _ => true
  | .sdone _ _ _ _ => true
  | .farmw _ _ _ c => c != 1
  | .lcrs _ _ => true
  | .mark _ => true
  | .vlWrite _ => true
  | .vrowWrite _ => true
  | .vtypeWrite _ => true
  | .vstartWrite _ => true
  | .frmWrite _ => true
  | .srseedWrite _ => true
  | .maxwaitWrite _ => true
  | .statusWrite _ => true
  | .tvecWrite _ => true
  | .asidWrite _ => true
  | .ptbWrite _ => true
  | .sliceWrite _ => true
  | .preemptWrite _ => true
  | .staggerWrite _ => true
  | .riskthrWrite _ => true
  | .taghistWrite _ => true
  | .loopRegisterWrite _ _ => true
  | .queueDescriptorWrite _ _ _ => true
  | .wakeRegister _ _ _ => true
  | .launch _ => true
  | .commandScan _ _ => true
  | .hartEnd => true
  | .launchCompletion _ => true
  | .commresGrow => true
  | .commresShrink => true
  | .energyCharge _ _ => true
  | .accountingPeriodBoundary _ => true
  | .asyncCauseTaken _ _ => true
  | .preemptRequest _ _ => true
  | .timeSlice => true
  | .lgsetApply => true
  | .parkResume => true
  | .watermarkStallResume => true
  | .scoreboardStallResume => true
  | .landedBitStallResume => true
  | .waitExpiredImplicit => true
  | .storeBufferDrain _ => true
  | .storeApply _ => true
  | .flushingRead _ _ => true
  | .flushAnswer _ _ => true
  | .flushTimeout _ _ => true
  | .trainElement _ _ => true
  | .trainAck _ _ => true
  | .responseArrival _ _ _ => true
  | .redirectedResponse _ _ => true
  | .caskAnswerArrival _ _ => true
  | .closureRecordArrival _ _ _ _ => true
  | .roundClosure _ => true
  | .staggeredCompletion => true
  | .homeWaitDeadline _ => true
  | .waitDeadlineAtHart => true
  | .stripClaimExpiry _ _ => true
  | .copyPerform _ => true
  | .copyDataLands _ _ _ => true
  | .copyRetire _ => true
  | .nackReceived _ _ => true
  | .replayBackoffExpiry _ => true
  | .ackReceived _ _ => true
  | .endpointDownReport _ => true
  | .flitArrival _ => true
  | .ageBoundExceeded _ => true
  | .injectionPriority _ => true
  | .injectionStarved _ => true
  | .injthrWindow _ => true
  | .frameReceive _ _ => true
  | .linkNack _ => true
  | .keySwitchover _ => true
  | .linkKeyExhausted _ => true
  | .migrate _ => true
  | .migrationDone _ => true
  | .lend _ => true
  | .accept _ => true
  | .reclaim _ => true
  | .returnLease _ => true
  | .leaseOfferExpiry _ => true
  | .rackGranuleMove _ => true
  | .riskUpdate _ _ _ _ => true
  | .failureDetectionWindow _ => true
  | .spareFilled => true
  | .lcrOverflow => true
  | .traceSample => true
  | .debugHalt => true
  | .powerGood _ => true
  | .attestationRequest _ => true
  | .timeBaseLost => true
  | .slewLimit _ => true
  | .thermal _ => true
  | .thermalLimitLift => true
  | .matrixIdle => true
  | .partitionReset => true
  | .hostRequest _ => true
  | .firmwareCall _ => true
  | .machineCheck _ => true
  | .caskRequest _ => true
  | .readRequest _ _ => true
  | .atomicRequest _ => true
  | .timeBaseLock => true

end Sys2Proof
end

