-- ==== Sys2Proof/Decode.lean ====
section
/-! DEFINITION. The decoder, from the encoding tables R138 to R150, and the encoder beside it. A word is a number
below 2^32; bit 31 is the convoy bit C, which is no part of the instruction (R139). -/

namespace Sys2Proof

/-- Why a word is no instruction (R150). Every one of these raises `ILLEGAL_ENCODING`. -/
inductive Reject where
  /-- major opcode 0x00 or 0x2A to 0x3F; the words 0x0000_0000 and 0xFFFF_FFFF are among these -/
  | majorOpcode
  /-- a reserved function, sub-function or SYS number (R143, R144) -/
  | function
  /-- a field or bit that must be zero, or hold one fixed value, does not (R141, R145 to R149) -/
  | fieldNotZero
  /-- an operand kind that the instruction does not take (R145) -/
  | operandKind
  /-- sp = 3 (R146) -/
  | space
  /-- a scope that the field does not take (R93, R103) -/
  | scope
  /-- an absentee register of v1 (R149) -/
  | absentee
  /-- a strided copy whose stride register would lie beyond s31 (R148) -/
  | stride
  /-- an unassigned control register number (R144) -/
  | controlRegister
  /-- fewer than four bytes -/
  | truncated
deriving DecidableEq, Repr

/-- The parts of a word that every format shares (R140): major opcode [30:25], and the fields [24:20], [19:15],
[14:10] and [9:0]. -/
structure Fields where
  op : Nat
  d : Nat
  a : Nat
  b : Nat
  lo : Nat
deriving DecidableEq, Repr

/-- The fields of a word (R140). -/
def Fields.ofWord (w : Nat) : Fields where
  op := w / 2 ^ 25 % 64
  d := w / 2 ^ 20 % 32
  a := w / 2 ^ 15 % 32
  b := w / 2 ^ 10 % 32
  lo := w % 1024

/-- The word of given fields and convoy bit (R139, R140). -/
def Fields.toWord (f : Fields) (c : Bool) : Nat :=
  c.toNat * 2 ^ 31 + f.op * 2 ^ 25 + f.d * 2 ^ 20 + f.a * 2 ^ 15 + f.b * 2 ^ 10 + f.lo

/-- Scope field (R93); 5 to 7 are reserved. -/
def scopeOf : Nat → Option Scope
  | 0 => some .hart | 1 => some .core | 2 => some .cluster | 3 => some .device | 4 => some .domain | _ => none

/-- Space field (R146); 3 is reserved. -/
def spaceOf : Nat → Option Space
  | 0 => some .global | 1 => some .spad | 2 => some .lane | _ => none

/-- Order field (R170, R231); no value is reserved. -/
def orderOf : Nat → Order
  | 0 => .none | 1 => .acq | 2 => .rel | _ => .acqRel

/-- Operand kind and its field (R145); kind 3 is reserved. -/
def kindOf (k b : Nat) : Option VOperand :=
  match k with
  | 0 => some (.vec (.ofNat 5 b)) | 1 => some (.scal (.ofNat 5 b)) | 2 => some (.imm (.ofNat 5 b)) | _ => none

/-- Major opcode 0x01 (R142, R143). -/
def decodeSALU (f : Fields) : Except Reject Instr :=
  match f.lo with
  | 0 => .ok (.add (.ofNat 5 f.d) (.ofNat 5 f.a) (.ofNat 5 f.b))
  | 1 => .ok (.sub (.ofNat 5 f.d) (.ofNat 5 f.a) (.ofNat 5 f.b))
  | 2 => .ok (.and (.ofNat 5 f.d) (.ofNat 5 f.a) (.ofNat 5 f.b))
  | 3 => .ok (.or (.ofNat 5 f.d) (.ofNat 5 f.a) (.ofNat 5 f.b))
  | 4 => .ok (.xor (.ofNat 5 f.d) (.ofNat 5 f.a) (.ofNat 5 f.b))
  | 5 => .ok (.andn (.ofNat 5 f.d) (.ofNat 5 f.a) (.ofNat 5 f.b))
  | 6 => .ok (.orn (.ofNat 5 f.d) (.ofNat 5 f.a) (.ofNat 5 f.b))
  | 7 => .ok (.sll (.ofNat 5 f.d) (.ofNat 5 f.a) (.ofNat 5 f.b))
  | 8 => .ok (.srl (.ofNat 5 f.d) (.ofNat 5 f.a) (.ofNat 5 f.b))
  | 9 => .ok (.sra (.ofNat 5 f.d) (.ofNat 5 f.a) (.ofNat 5 f.b))
  | 10 => .ok (.slt (.ofNat 5 f.d) (.ofNat 5 f.a) (.ofNat 5 f.b))
  | 11 => .ok (.sltu (.ofNat 5 f.d) (.ofNat 5 f.a) (.ofNat 5 f.b))
  | 12 => .ok (.min (.ofNat 5 f.d) (.ofNat 5 f.a) (.ofNat 5 f.b))
  | 13 => .ok (.max (.ofNat 5 f.d) (.ofNat 5 f.a) (.ofNat 5 f.b))
  | 14 => .ok (.minu (.ofNat 5 f.d) (.ofNat 5 f.a) (.ofNat 5 f.b))
  | 15 => .ok (.maxu (.ofNat 5 f.d) (.ofNat 5 f.a) (.ofNat 5 f.b))
  | 16 => if f.b == 0 then .ok (.clz (.ofNat 5 f.d) (.ofNat 5 f.a)) else .error .fieldNotZero
  | 17 => if f.b == 0 then .ok (.ctz (.ofNat 5 f.d) (.ofNat 5 f.a)) else .error .fieldNotZero
  | 18 => if f.b == 0 then .ok (.popc (.ofNat 5 f.d) (.ofNat 5 f.a)) else .error .fieldNotZero
  | 19 => if f.b == 0 then .ok (.bswap (.ofNat 5 f.d) (.ofNat 5 f.a)) else .error .fieldNotZero
  | _ => .error .function

/-- Major opcode 0x08 (R142, R143). -/
def decodeSHI (f : Fields) : Except Reject Instr :=
  match f.lo % 512 with
  | 0 => .ok (.slli (.ofNat 5 f.d) (.ofNat 5 f.a) (.ofNat 6 (f.b * 2 + f.lo / 512)))
  | 1 => .ok (.srli (.ofNat 5 f.d) (.ofNat 5 f.a) (.ofNat 6 (f.b * 2 + f.lo / 512)))
  | 2 => .ok (.srai (.ofNat 5 f.d) (.ofNat 5 f.a) (.ofNat 6 (f.b * 2 + f.lo / 512)))
  | _ => .error .function

/-- Major opcode 0x0B (R142, R143). -/
def decodeLoads (f : Fields) : Except Reject Instr :=
  match f.b / 4 with
  | 0 => .ok (.lb (.ofNat 5 f.d) (.ofNat 5 f.a) (.ofNat 12 (f.b % 4 * 1024 + f.lo)))
  | 1 => .ok (.lbu (.ofNat 5 f.d) (.ofNat 5 f.a) (.ofNat 12 (f.b % 4 * 1024 + f.lo)))
  | 2 => .ok (.lh (.ofNat 5 f.d) (.ofNat 5 f.a) (.ofNat 12 (f.b % 4 * 1024 + f.lo)))
  | 3 => .ok (.lhu (.ofNat 5 f.d) (.ofNat 5 f.a) (.ofNat 12 (f.b % 4 * 1024 + f.lo)))
  | 4 => .ok (.lw (.ofNat 5 f.d) (.ofNat 5 f.a) (.ofNat 12 (f.b % 4 * 1024 + f.lo)))
  | 5 => .ok (.lwu (.ofNat 5 f.d) (.ofNat 5 f.a) (.ofNat 12 (f.b % 4 * 1024 + f.lo)))
  | 6 => .ok (.ld (.ofNat 5 f.d) (.ofNat 5 f.a) (.ofNat 12 (f.b % 4 * 1024 + f.lo)))
  | _ => .error .function

/-- Major opcode 0x0C (R142, R143). -/
def decodeStores (f : Fields) : Except Reject Instr :=
  match f.b / 4 with
  | 0 => .ok (.sb (.ofNat 5 f.d) (.ofNat 5 f.a) (.ofNat 12 (f.b % 4 * 1024 + f.lo)))
  | 2 => .ok (.sh (.ofNat 5 f.d) (.ofNat 5 f.a) (.ofNat 12 (f.b % 4 * 1024 + f.lo)))
  | 4 => .ok (.sw (.ofNat 5 f.d) (.ofNat 5 f.a) (.ofNat 12 (f.b % 4 * 1024 + f.lo)))
  | 6 => .ok (.sd (.ofNat 5 f.d) (.ofNat 5 f.a) (.ofNat 12 (f.b % 4 * 1024 + f.lo)))
  | _ => .error .function

/-- Major opcode 0x0D (R142, R143). -/
def decodeBranches (f : Fields) : Except Reject Instr :=
  match f.b / 4 with
  | 0 => .ok (.beq (.ofNat 5 f.d) (.ofNat 5 f.a) (.ofNat 12 (f.b % 4 * 1024 + f.lo)))
  | 1 => .ok (.bne (.ofNat 5 f.d) (.ofNat 5 f.a) (.ofNat 12 (f.b % 4 * 1024 + f.lo)))
  | 2 => .ok (.blt (.ofNat 5 f.d) (.ofNat 5 f.a) (.ofNat 12 (f.b % 4 * 1024 + f.lo)))
  | 3 => .ok (.bge (.ofNat 5 f.d) (.ofNat 5 f.a) (.ofNat 12 (f.b % 4 * 1024 + f.lo)))
  | 4 => .ok (.bltu (.ofNat 5 f.d) (.ofNat 5 f.a) (.ofNat 12 (f.b % 4 * 1024 + f.lo)))
  | 5 => .ok (.bgeu (.ofNat 5 f.d) (.ofNat 5 f.a) (.ofNat 12 (f.b % 4 * 1024 + f.lo)))
  | _ => .error .function

/-- Major opcode 0x10 (R142, R143). -/
def decodeSAMO (f : Fields) : Except Reject Instr :=
  match f.lo % 16 with
  | 0 => (scopeOf (f.lo / 64 % 8)).elim (.error .scope) fun sc => .ok (.aswap (.ofNat 5 f.d) (.ofNat 5 f.a) (.ofNat 5 f.b) (f.lo / 512 == 1) sc (orderOf (f.lo / 16 % 4)))
  | 1 => (scopeOf (f.lo / 64 % 8)).elim (.error .scope) fun sc => .ok (.aadd (.ofNat 5 f.d) (.ofNat 5 f.a) (.ofNat 5 f.b) (f.lo / 512 == 1) sc (orderOf (f.lo / 16 % 4)))
  | 2 => (scopeOf (f.lo / 64 % 8)).elim (.error .scope) fun sc => .ok (.aand (.ofNat 5 f.d) (.ofNat 5 f.a) (.ofNat 5 f.b) (f.lo / 512 == 1) sc (orderOf (f.lo / 16 % 4)))
  | 3 => (scopeOf (f.lo / 64 % 8)).elim (.error .scope) fun sc => .ok (.aor (.ofNat 5 f.d) (.ofNat 5 f.a) (.ofNat 5 f.b) (f.lo / 512 == 1) sc (orderOf (f.lo / 16 % 4)))
  | 4 => (scopeOf (f.lo / 64 % 8)).elim (.error .scope) fun sc => .ok (.axor (.ofNat 5 f.d) (.ofNat 5 f.a) (.ofNat 5 f.b) (f.lo / 512 == 1) sc (orderOf (f.lo / 16 % 4)))
  | 5 => (scopeOf (f.lo / 64 % 8)).elim (.error .scope) fun sc => .ok (.amin (.ofNat 5 f.d) (.ofNat 5 f.a) (.ofNat 5 f.b) (f.lo / 512 == 1) sc (orderOf (f.lo / 16 % 4)))
  | 6 => (scopeOf (f.lo / 64 % 8)).elim (.error .scope) fun sc => .ok (.amax (.ofNat 5 f.d) (.ofNat 5 f.a) (.ofNat 5 f.b) (f.lo / 512 == 1) sc (orderOf (f.lo / 16 % 4)))
  | 7 => (scopeOf (f.lo / 64 % 8)).elim (.error .scope) fun sc => .ok (.aminu (.ofNat 5 f.d) (.ofNat 5 f.a) (.ofNat 5 f.b) (f.lo / 512 == 1) sc (orderOf (f.lo / 16 % 4)))
  | 8 => (scopeOf (f.lo / 64 % 8)).elim (.error .scope) fun sc => .ok (.amaxu (.ofNat 5 f.d) (.ofNat 5 f.a) (.ofNat 5 f.b) (f.lo / 512 == 1) sc (orderOf (f.lo / 16 % 4)))
  | 9 => (scopeOf (f.lo / 64 % 8)).elim (.error .scope) fun sc => .ok (.acas (.ofNat 5 f.d) (.ofNat 5 f.a) (.ofNat 5 f.b) (f.lo / 512 == 1) sc (orderOf (f.lo / 16 % 4)))
  | _ => .error .function

/-- Major opcode 0x11 (R142, R143). -/
def decodeSMUL (f : Fields) : Except Reject Instr :=
  match f.lo with
  | 0 => .ok (.mul (.ofNat 5 f.d) (.ofNat 5 f.a) (.ofNat 5 f.b))
  | 1 => .ok (.mulh (.ofNat 5 f.d) (.ofNat 5 f.a) (.ofNat 5 f.b))
  | 2 => .ok (.mulhu (.ofNat 5 f.d) (.ofNat 5 f.a) (.ofNat 5 f.b))
  | 3 => .ok (.mulhsu (.ofNat 5 f.d) (.ofNat 5 f.a) (.ofNat 5 f.b))
  | 4 => .ok (.div (.ofNat 5 f.d) (.ofNat 5 f.a) (.ofNat 5 f.b))
  | 5 => .ok (.divu (.ofNat 5 f.d) (.ofNat 5 f.a) (.ofNat 5 f.b))
  | 6 => .ok (.rem (.ofNat 5 f.d) (.ofNat 5 f.a) (.ofNat 5 f.b))
  | 7 => .ok (.remu (.ofNat 5 f.d) (.ofNat 5 f.a) (.ofNat 5 f.b))
  | _ => .error .function

/-- Major opcode 0x14 (R142, R143). -/
def decodeFENCE (f : Fields) : Except Reject Instr :=
  match f.lo % 16 with
  | 0 => if f.d == 0 && f.a == 0 && f.b == 0 && f.lo / 16 % 4 == 0 && f.lo / 512 == 0 then (scopeOf (f.lo / 64 % 8)).elim (.error .scope) fun sc => .ok (.fenceSv sc) else .error .fieldNotZero
  | 1 => if f.d == 0 && f.a == 0 && f.b == 0 && f.lo / 16 % 4 == 0 && f.lo / 512 == 0 then (scopeOf (f.lo / 64 % 8)).elim (.error .scope) fun sc => .ok (.fenceVs sc) else .error .fieldNotZero
  | 2 => if f.d == 0 && f.a == 0 && f.b == 0 && f.lo / 16 % 4 == 0 && f.lo / 512 == 0 then (scopeOf (f.lo / 64 % 8)).elim (.error .scope) fun sc => .ok (.fenceVv sc) else .error .fieldNotZero
  | 3 => if f.d == 0 && f.a == 0 && f.b == 0 && f.lo / 16 % 4 == 0 && f.lo / 512 == 0 then (scopeOf (f.lo / 64 % 8)).elim (.error .scope) fun sc => .ok (.fenceA sc) else .error .fieldNotZero
  | 4 => if f.d == 0 && f.b == 0 && f.lo / 16 % 4 == 0 && f.lo / 512 == 0 then if (f.lo / 64 % 8 == 3 || f.lo / 64 % 8 == 4) then (scopeOf (f.lo / 64 % 8)).elim (.error .scope) fun sc => .ok (.flushrd (.ofNat 5 f.a) sc) else .error .scope else .error .fieldNotZero
  | _ => .error .function

/-- Major opcode 0x15 (R142, R143). -/
def decodeCFG (f : Fields) : Except Reject Instr :=
  match f.lo % 16 with
  | 0 => if f.lo / 16 == 0 then .ok (.svl (.ofNat 5 f.d) (.ofNat 5 f.a) (.ofNat 5 f.b)) else .error .fieldNotZero
  | 1 => if f.d == 0 && f.b == 0 && f.lo / 16 == 0 then .ok (.svt (.ofNat 5 f.a)) else .error .fieldNotZero
  | 2 => if f.b == 0 && f.lo / 16 == 0 then .ok (.svr (.ofNat 5 f.d) (.ofNat 5 f.a)) else .error .fieldNotZero
  | 3 => if f.d == 0 && f.lo / 16 == 0 then .ok (.scgrp (.ofNat 5 f.a) (.ofNat 5 f.b)) else .error .fieldNotZero
  | 4 => if f.d == 0 && f.lo / 32 == 0 then .ok (.scop (.ofNat 5 f.a) (.ofNat 5 f.b) (f.lo / 16 % 2 == 1)) else .error .fieldNotZero
  | _ => .error .function

/-- Major opcode 0x16 (R142, R143). -/
def decodeVARI (f : Fields) : Except Reject Instr :=
  match f.lo % 128 with
  | 0 => (kindOf (f.lo / 128 % 4) f.b).elim (.error .operandKind) fun b => .ok (.vadd (f.lo / 512 == 1) (.ofNat 5 f.d) (.ofNat 5 f.a) b)
  | 1 => (kindOf (f.lo / 128 % 4) f.b).elim (.error .operandKind) fun b => .ok (.vsub (f.lo / 512 == 1) (.ofNat 5 f.d) (.ofNat 5 f.a) b)
  | 2 => (kindOf (f.lo / 128 % 4) f.b).elim (.error .operandKind) fun b => .ok (.vrsub (f.lo / 512 == 1) (.ofNat 5 f.d) (.ofNat 5 f.a) b)
  | 3 => (kindOf (f.lo / 128 % 4) f.b).elim (.error .operandKind) fun b => .ok (.vmul (f.lo / 512 == 1) (.ofNat 5 f.d) (.ofNat 5 f.a) b)
  | 4 => (kindOf (f.lo / 128 % 4) f.b).elim (.error .operandKind) fun b => .ok (.vmulh (f.lo / 512 == 1) (.ofNat 5 f.d) (.ofNat 5 f.a) b)
  | 5 => (kindOf (f.lo / 128 % 4) f.b).elim (.error .operandKind) fun b => .ok (.vmulhu (f.lo / 512 == 1) (.ofNat 5 f.d) (.ofNat 5 f.a) b)
  | 6 => (kindOf (f.lo / 128 % 4) f.b).elim (.error .operandKind) fun b => .ok (.vdiv (f.lo / 512 == 1) (.ofNat 5 f.d) (.ofNat 5 f.a) b)
  | 7 => (kindOf (f.lo / 128 % 4) f.b).elim (.error .operandKind) fun b => .ok (.vrem (f.lo / 512 == 1) (.ofNat 5 f.d) (.ofNat 5 f.a) b)
  | 8 => (kindOf (f.lo / 128 % 4) f.b).elim (.error .operandKind) fun b => .ok (.vmin (f.lo / 512 == 1) (.ofNat 5 f.d) (.ofNat 5 f.a) b)
  | 9 => (kindOf (f.lo / 128 % 4) f.b).elim (.error .operandKind) fun b => .ok (.vmax (f.lo / 512 == 1) (.ofNat 5 f.d) (.ofNat 5 f.a) b)
  | 10 => (kindOf (f.lo / 128 % 4) f.b).elim (.error .operandKind) fun b => .ok (.vand (f.lo / 512 == 1) (.ofNat 5 f.d) (.ofNat 5 f.a) b)
  | 11 => (kindOf (f.lo / 128 % 4) f.b).elim (.error .operandKind) fun b => .ok (.vor (f.lo / 512 == 1) (.ofNat 5 f.d) (.ofNat 5 f.a) b)
  | 12 => (kindOf (f.lo / 128 % 4) f.b).elim (.error .operandKind) fun b => .ok (.vxor (f.lo / 512 == 1) (.ofNat 5 f.d) (.ofNat 5 f.a) b)
  | 13 => (kindOf (f.lo / 128 % 4) f.b).elim (.error .operandKind) fun b => .ok (.vsll (f.lo / 512 == 1) (.ofNat 5 f.d) (.ofNat 5 f.a) b)
  | 14 => (kindOf (f.lo / 128 % 4) f.b).elim (.error .operandKind) fun b => .ok (.vsrl (f.lo / 512 == 1) (.ofNat 5 f.d) (.ofNat 5 f.a) b)
  | 15 => (kindOf (f.lo / 128 % 4) f.b).elim (.error .operandKind) fun b => .ok (.vsra (f.lo / 512 == 1) (.ofNat 5 f.d) (.ofNat 5 f.a) b)
  | 16 => (kindOf (f.lo / 128 % 4) f.b).elim (.error .operandKind) fun b => .ok (.vsadd (f.lo / 512 == 1) (.ofNat 5 f.d) (.ofNat 5 f.a) b)
  | 17 => (kindOf (f.lo / 128 % 4) f.b).elim (.error .operandKind) fun b => .ok (.vssub (f.lo / 512 == 1) (.ofNat 5 f.d) (.ofNat 5 f.a) b)
  | 18 => if f.lo / 512 == 0 then (kindOf (f.lo / 128 % 4) f.b).elim (.error .operandKind) fun b => .ok (.vadc (.ofNat 5 f.d) (.ofNat 5 f.a) b) else .error .fieldNotZero
  | 19 => if f.lo / 512 == 0 then (kindOf (f.lo / 128 % 4) f.b).elim (.error .operandKind) fun b => .ok (.vsbc (.ofNat 5 f.d) (.ofNat 5 f.a) b) else .error .fieldNotZero
  | 20 => if f.lo / 512 == 0 then (kindOf (f.lo / 128 % 4) f.b).elim (.error .operandKind) fun b => .ok (.vmadc (.ofNat 5 f.d) (.ofNat 5 f.a) b) else .error .fieldNotZero
  | 21 => if f.lo / 512 == 0 then (kindOf (f.lo / 128 % 4) f.b).elim (.error .operandKind) fun b => .ok (.vmsbc (.ofNat 5 f.d) (.ofNat 5 f.a) b) else .error .fieldNotZero
  | 22 => if f.b == 0 && f.lo / 128 % 4 == 0 then .ok (.vabs (f.lo / 512 == 1) (.ofNat 5 f.d) (.ofNat 5 f.a)) else .error .fieldNotZero
  | 23 => if f.b == 0 && f.lo / 128 % 4 == 0 then .ok (.vneg (f.lo / 512 == 1) (.ofNat 5 f.d) (.ofNat 5 f.a)) else .error .fieldNotZero
  | 24 => if f.lo / 512 == 1 then (kindOf (f.lo / 128 % 4) f.b).elim (.error .operandKind) fun b => .ok (.vmerge (.ofNat 5 f.d) (.ofNat 5 f.a) b) else .error .fieldNotZero
  | 25 => if f.a == 0 then (kindOf (f.lo / 128 % 4) f.b).elim (.error .operandKind) fun b => .ok (.vmv (f.lo / 512 == 1) (.ofNat 5 f.d) b) else .error .fieldNotZero
  | 26 => (kindOf (f.lo / 128 % 4) f.b).elim (.error .operandKind) fun b => .ok (.vfma (f.lo / 512 == 1) (.ofNat 5 f.d) (.ofNat 5 f.a) b)
  | 27 => (kindOf (f.lo / 128 % 4) f.b).elim (.error .operandKind) fun b => .ok (.vfms (f.lo / 512 == 1) (.ofNat 5 f.d) (.ofNat 5 f.a) b)
  | 28 => (kindOf (f.lo / 128 % 4) f.b).elim (.error .operandKind) fun b => .ok (.vfnma (f.lo / 512 == 1) (.ofNat 5 f.d) (.ofNat 5 f.a) b)
  | 29 => (kindOf (f.lo / 128 % 4) f.b).elim (.error .operandKind) fun b => .ok (.vfnms (f.lo / 512 == 1) (.ofNat 5 f.d) (.ofNat 5 f.a) b)
  | 30 => if f.b == 0 && f.lo / 128 % 4 == 0 then .ok (.vsqrt (f.lo / 512 == 1) (.ofNat 5 f.d) (.ofNat 5 f.a)) else .error .fieldNotZero
  | 31 => (kindOf (f.lo / 128 % 4) f.b).elim (.error .operandKind) fun b => .ok (.vsgnj (f.lo / 512 == 1) (.ofNat 5 f.d) (.ofNat 5 f.a) b)
  | 32 => (kindOf (f.lo / 128 % 4) f.b).elim (.error .operandKind) fun b => .ok (.vsgnjn (f.lo / 512 == 1) (.ofNat 5 f.d) (.ofNat 5 f.a) b)
  | 33 => (kindOf (f.lo / 128 % 4) f.b).elim (.error .operandKind) fun b => .ok (.vsgnjx (f.lo / 512 == 1) (.ofNat 5 f.d) (.ofNat 5 f.a) b)
  | 34 => if f.b == 0 && f.lo / 128 % 4 == 0 then .ok (.vclass (f.lo / 512 == 1) (.ofNat 5 f.d) (.ofNat 5 f.a)) else .error .fieldNotZero
  | 35 => (kindOf (f.lo / 128 % 4) f.b).elim (.error .operandKind) fun b => .ok (.vwadd (f.lo / 512 == 1) (.ofNat 5 f.d) (.ofNat 5 f.a) b)
  | 36 => (kindOf (f.lo / 128 % 4) f.b).elim (.error .operandKind) fun b => .ok (.vwmul (f.lo / 512 == 1) (.ofNat 5 f.d) (.ofNat 5 f.a) b)
  | _ => .error .function

/-- Major opcode 0x17 (R142, R143). -/
def decodeVCMP (f : Fields) : Except Reject Instr :=
  match f.lo % 128 with
  | 0 => (kindOf (f.lo / 128 % 4) f.b).elim (.error .operandKind) fun b => .ok (.veq (f.lo / 512 == 1) (.ofNat 5 f.d) (.ofNat 5 f.a) b)
  | 1 => (kindOf (f.lo / 128 % 4) f.b).elim (.error .operandKind) fun b => .ok (.vne (f.lo / 512 == 1) (.ofNat 5 f.d) (.ofNat 5 f.a) b)
  | 2 => (kindOf (f.lo / 128 % 4) f.b).elim (.error .operandKind) fun b => .ok (.vlt (f.lo / 512 == 1) (.ofNat 5 f.d) (.ofNat 5 f.a) b)
  | 3 => (kindOf (f.lo / 128 % 4) f.b).elim (.error .operandKind) fun b => .ok (.vle (f.lo / 512 == 1) (.ofNat 5 f.d) (.ofNat 5 f.a) b)
  | 4 => (kindOf (f.lo / 128 % 4) f.b).elim (.error .operandKind) fun b => .ok (.vgt (f.lo / 512 == 1) (.ofNat 5 f.d) (.ofNat 5 f.a) b)
  | 5 => (kindOf (f.lo / 128 % 4) f.b).elim (.error .operandKind) fun b => .ok (.vge (f.lo / 512 == 1) (.ofNat 5 f.d) (.ofNat 5 f.a) b)
  | 6 => (kindOf (f.lo / 128 % 4) f.b).elim (.error .operandKind) fun b => .ok (.vunord (f.lo / 512 == 1) (.ofNat 5 f.d) (.ofNat 5 f.a) b)
  | _ => .error .function

/-- Major opcode 0x18 (R142, R143). -/
def decodeVMSK (f : Fields) : Except Reject Instr :=
  match f.lo % 128 with
  | 0 => if f.lo / 128 == 0 then .ok (.mand (.ofNat 5 f.d) (.ofNat 5 f.a) (.ofNat 5 f.b)) else .error .fieldNotZero
  | 1 => if f.lo / 128 == 0 then .ok (.mor (.ofNat 5 f.d) (.ofNat 5 f.a) (.ofNat 5 f.b)) else .error .fieldNotZero
  | 2 => if f.lo / 128 == 0 then .ok (.mxor (.ofNat 5 f.d) (.ofNat 5 f.a) (.ofNat 5 f.b)) else .error .fieldNotZero
  | 3 => if f.lo / 128 == 0 then .ok (.mandn (.ofNat 5 f.d) (.ofNat 5 f.a) (.ofNat 5 f.b)) else .error .fieldNotZero
  | 4 => if f.lo / 128 == 0 then .ok (.morn (.ofNat 5 f.d) (.ofNat 5 f.a) (.ofNat 5 f.b)) else .error .fieldNotZero
  | 5 => if f.b == 0 && f.lo / 128 % 4 == 0 then .ok (.mnot (f.lo / 512 == 1) (.ofNat 5 f.d) (.ofNat 5 f.a)) else .error .fieldNotZero
  | 6 => if f.b == 0 && f.lo / 128 % 4 == 0 then .ok (.mmv (f.lo / 512 == 1) (.ofNat 5 f.d) (.ofNat 5 f.a)) else .error .fieldNotZero
  | 7 => if f.b == 0 && f.lo / 128 % 4 == 0 then .ok (.mpop (f.lo / 512 == 1) (.ofNat 5 f.d) (.ofNat 5 f.a)) else .error .fieldNotZero
  | 8 => if f.b == 0 && f.lo / 128 % 4 == 0 then .ok (.mffs (f.lo / 512 == 1) (.ofNat 5 f.d) (.ofNat 5 f.a)) else .error .fieldNotZero
  | 9 => if f.b == 0 && f.lo / 128 % 4 == 0 then .ok (.mfls (f.lo / 512 == 1) (.ofNat 5 f.d) (.ofNat 5 f.a)) else .error .fieldNotZero
  | 10 => if f.b == 0 && f.lo / 128 % 4 == 0 then .ok (.msbf (f.lo / 512 == 1) (.ofNat 5 f.d) (.ofNat 5 f.a)) else .error .fieldNotZero
  | 11 => if f.b == 0 && f.lo / 128 % 4 == 0 then .ok (.msif (f.lo / 512 == 1) (.ofNat 5 f.d) (.ofNat 5 f.a)) else .error .fieldNotZero
  | 12 => if f.lo / 128 % 4 != 0 then (kindOf (f.lo / 128 % 4) f.b).elim (.error .operandKind) fun b => .ok (.mslu (f.lo / 512 == 1) (.ofNat 5 f.d) (.ofNat 5 f.a) b) else .error .operandKind
  | 13 => if f.lo / 128 % 4 != 0 then (kindOf (f.lo / 128 % 4) f.b).elim (.error .operandKind) fun b => .ok (.msld (f.lo / 512 == 1) (.ofNat 5 f.d) (.ofNat 5 f.a) b) else .error .operandKind
  | 14 => if f.b == 0 && f.lo / 128 % 4 == 0 then .ok (.iota (f.lo / 512 == 1) (.ofNat 5 f.d) (.ofNat 5 f.a)) else .error .fieldNotZero
  | 15 => if f.a == 0 && f.b == 0 && f.lo / 128 % 4 == 0 then .ok (.vid (f.lo / 512 == 1) (.ofNat 5 f.d)) else .error .fieldNotZero
  | _ => .error .function

/-- Major opcode 0x19 (R142, R143). -/
def decodeVPERM (f : Fields) : Except Reject Instr :=
  match f.lo % 128 with
  | 0 => if f.lo / 128 % 4 != 0 then (kindOf (f.lo / 128 % 4) f.b).elim (.error .operandKind) fun b => .ok (.vslup (f.lo / 512 == 1) (.ofNat 5 f.d) (.ofNat 5 f.a) b) else .error .operandKind
  | 1 => if f.lo / 128 % 4 != 0 then (kindOf (f.lo / 128 % 4) f.b).elim (.error .operandKind) fun b => .ok (.vsldn (f.lo / 512 == 1) (.ofNat 5 f.d) (.ofNat 5 f.a) b) else .error .operandKind
  | 2 => if f.lo / 128 % 4 == 1 then .ok (.vslup1 (f.lo / 512 == 1) (.ofNat 5 f.d) (.ofNat 5 f.a) (.ofNat 5 f.b)) else .error .fieldNotZero
  | 3 => if f.lo / 128 % 4 == 1 then .ok (.vsldn1 (f.lo / 512 == 1) (.ofNat 5 f.d) (.ofNat 5 f.a) (.ofNat 5 f.b)) else .error .fieldNotZero
  | 4 => if f.lo / 128 % 4 == 0 then .ok (.vrgath (f.lo / 512 == 1) (.ofNat 5 f.d) (.ofNat 5 f.a) (.ofNat 5 f.b)) else .error .fieldNotZero
  | 5 => if f.b == 0 && f.lo / 128 == 0 then .ok (.vcompr (.ofNat 5 f.d) (.ofNat 5 f.a)) else .error .fieldNotZero
  | 6 => if f.b == 0 && f.lo / 128 == 0 then .ok (.vexpand (.ofNat 5 f.d) (.ofNat 5 f.a)) else .error .fieldNotZero
  | 7 => if f.lo / 128 % 4 != 0 then (kindOf (f.lo / 128 % 4) f.b).elim (.error .operandKind) fun b => .ok (.vbcast (f.lo / 512 == 1) (.ofNat 5 f.d) (.ofNat 5 f.a) b) else .error .operandKind
  | 8 => if f.b == 0 && f.lo / 128 == 0 then .ok (.vmvxs (.ofNat 5 f.d) (.ofNat 5 f.a)) else .error .fieldNotZero
  | 9 => if f.a == 0 && f.lo / 128 == 1 then .ok (.vmvsx (.ofNat 5 f.d) (.ofNat 5 f.b)) else .error .fieldNotZero
  | 10 => if f.lo / 512 == 0 then if f.lo / 128 % 4 != 0 then (kindOf (f.lo / 128 % 4) f.b).elim (.error .operandKind) fun b => .ok (.vext (.ofNat 5 f.d) (.ofNat 5 f.a) b) else .error .operandKind else .error .fieldNotZero
  | 11 => if f.lo / 512 == 0 then if f.lo / 128 % 4 != 0 then (kindOf (f.lo / 128 % 4) f.b).elim (.error .operandKind) fun b => .ok (.vins (.ofNat 5 f.d) (.ofNat 5 f.a) b) else .error .operandKind else .error .fieldNotZero
  | 12 => if f.b == 0 && f.lo / 128 == 0 then .ok (.vrowmv (.ofNat 5 f.d) (.ofNat 5 f.a)) else .error .fieldNotZero
  | _ => .error .function

/-- Major opcode 0x1A (R142, R143). -/
def decodeVRED (f : Fields) : Except Reject Instr :=
  match f.lo % 128 with
  | 0 => if f.lo / 128 % 4 != 2 then (kindOf (f.lo / 128 % 4) f.b).elim (.error .operandKind) fun b => .ok (.vrsum (f.lo / 512 == 1) (.ofNat 5 f.d) (.ofNat 5 f.a) b) else .error .operandKind
  | 1 => if f.lo / 128 % 4 != 2 then (kindOf (f.lo / 128 % 4) f.b).elim (.error .operandKind) fun b => .ok (.vrosum (f.lo / 512 == 1) (.ofNat 5 f.d) (.ofNat 5 f.a) b) else .error .operandKind
  | 2 => if f.lo / 128 % 4 != 2 then (kindOf (f.lo / 128 % 4) f.b).elim (.error .operandKind) fun b => .ok (.vrmax (f.lo / 512 == 1) (.ofNat 5 f.d) (.ofNat 5 f.a) b) else .error .operandKind
  | 3 => if f.lo / 128 % 4 != 2 then (kindOf (f.lo / 128 % 4) f.b).elim (.error .operandKind) fun b => .ok (.vrmin (f.lo / 512 == 1) (.ofNat 5 f.d) (.ofNat 5 f.a) b) else .error .operandKind
  | 4 => if f.lo / 128 % 4 != 2 then (kindOf (f.lo / 128 % 4) f.b).elim (.error .operandKind) fun b => .ok (.vrand (f.lo / 512 == 1) (.ofNat 5 f.d) (.ofNat 5 f.a) b) else .error .operandKind
  | 5 => if f.lo / 128 % 4 != 2 then (kindOf (f.lo / 128 % 4) f.b).elim (.error .operandKind) fun b => .ok (.vror (f.lo / 512 == 1) (.ofNat 5 f.d) (.ofNat 5 f.a) b) else .error .operandKind
  | 6 => if f.lo / 128 % 4 != 2 then (kindOf (f.lo / 128 % 4) f.b).elim (.error .operandKind) fun b => .ok (.vrxor (f.lo / 512 == 1) (.ofNat 5 f.d) (.ofNat 5 f.a) b) else .error .operandKind
  | _ => .error .function

/-- Major opcode 0x1B (R142, R143). -/
def decodeVCVT (f : Fields) : Except Reject Instr :=
  match f.lo % 128 with
  | 0 => if f.lo / 128 % 4 == 0 && f.b < 19 then .ok (.vcvt (f.lo / 512 == 1) (.ofNat 5 f.d) (.ofNat 5 f.a) (.ofNat 5 f.b)) else .error .fieldNotZero
  | 1 => if f.lo / 128 % 4 == 0 && f.b < 19 then .ok (.vcvtr (f.lo / 512 == 1) (.ofNat 5 f.d) (.ofNat 5 f.a) (.ofNat 5 f.b)) else .error .fieldNotZero
  | 2 => if f.lo / 128 % 4 == 0 && f.b < 19 then .ok (.vqmx (f.lo / 512 == 1) (.ofNat 5 f.d) (.ofNat 5 f.a) (.ofNat 5 f.b)) else .error .fieldNotZero
  | 3 => if f.lo / 128 % 4 == 0 && f.b < 19 then .ok (.vrnsx (f.lo / 512 == 1) (.ofNat 5 f.d) (.ofNat 5 f.a) (.ofNat 5 f.b)) else .error .fieldNotZero
  | 4 => if f.lo / 128 % 4 == 0 && f.b < 19 then .ok (.vrnsi (f.lo / 512 == 1) (.ofNat 5 f.d) (.ofNat 5 f.a) (.ofNat 5 f.b)) else .error .fieldNotZero
  | _ => .error .function

/-- Major opcode 0x1C (R142, R143). -/
def decodeVLD (f : Fields) : Except Reject Instr :=
  match f.lo % 4 with
  | 0 => if f.b == 1 then if f.b == 1 && f.lo / 512 == 0 then (spaceOf (f.lo / 128 % 4)).elim (.error .space) fun sp => (scopeOf (f.lo / 16 % 8)).elim (.error .scope) fun sc => .ok (.vldr (.ofNat 5 f.d) (.ofNat 5 f.a) sp sc (orderOf (f.lo / 4 % 4))) else .error .fieldNotZero
    else if f.b == 0 then (spaceOf (f.lo / 128 % 4)).elim (.error .space) fun sp => (scopeOf (f.lo / 16 % 8)).elim (.error .scope) fun sc => .ok (.vld (f.lo / 512 == 1) (.ofNat 5 f.d) (.ofNat 5 f.a) sp sc (orderOf (f.lo / 4 % 4))) else .error .fieldNotZero
  | 1 => (spaceOf (f.lo / 128 % 4)).elim (.error .space) fun sp => (scopeOf (f.lo / 16 % 8)).elim (.error .scope) fun sc => .ok (.vlds (f.lo / 512 == 1) (.ofNat 5 f.d) (.ofNat 5 f.a) (.ofNat 5 f.b) sp sc (orderOf (f.lo / 4 % 4)))
  | 2 => (spaceOf (f.lo / 128 % 4)).elim (.error .space) fun sp => (scopeOf (f.lo / 16 % 8)).elim (.error .scope) fun sc => .ok (.vldx (f.lo / 512 == 1) (.ofNat 5 f.d) (.ofNat 5 f.a) (.ofNat 5 f.b) sp sc (orderOf (f.lo / 4 % 4)))
  | 3 => if f.lo / 128 % 4 == 0 then (scopeOf (f.lo / 16 % 8)).elim (.error .scope) fun sc => .ok (.vldc (f.lo / 512 == 1) (.ofNat 5 f.d) (.ofNat 5 f.a) (.ofNat 5 f.b) sc (orderOf (f.lo / 4 % 4))) else .error .fieldNotZero
  | _ => .error .function

/-- Major opcode 0x1D (R142, R143). -/
def decodeVST (f : Fields) : Except Reject Instr :=
  match f.lo % 4 with
  | 0 => if f.b == 1 then if f.b == 1 && f.lo / 512 == 0 then (spaceOf (f.lo / 128 % 4)).elim (.error .space) fun sp => (scopeOf (f.lo / 16 % 8)).elim (.error .scope) fun sc => .ok (.vstr (.ofNat 5 f.d) (.ofNat 5 f.a) sp sc (orderOf (f.lo / 4 % 4))) else .error .fieldNotZero
    else if f.b == 0 then (spaceOf (f.lo / 128 % 4)).elim (.error .space) fun sp => (scopeOf (f.lo / 16 % 8)).elim (.error .scope) fun sc => .ok (.vst (f.lo / 512 == 1) (.ofNat 5 f.d) (.ofNat 5 f.a) sp sc (orderOf (f.lo / 4 % 4))) else .error .fieldNotZero
  | 1 => (spaceOf (f.lo / 128 % 4)).elim (.error .space) fun sp => (scopeOf (f.lo / 16 % 8)).elim (.error .scope) fun sc => .ok (.vsts (f.lo / 512 == 1) (.ofNat 5 f.d) (.ofNat 5 f.a) (.ofNat 5 f.b) sp sc (orderOf (f.lo / 4 % 4)))
  | 2 => (spaceOf (f.lo / 128 % 4)).elim (.error .space) fun sp => (scopeOf (f.lo / 16 % 8)).elim (.error .scope) fun sc => .ok (.vstx (f.lo / 512 == 1) (.ofNat 5 f.d) (.ofNat 5 f.a) (.ofNat 5 f.b) sp sc (orderOf (f.lo / 4 % 4)))
  | 3 => if f.lo / 128 % 4 == 0 then (scopeOf (f.lo / 16 % 8)).elim (.error .scope) fun sc => .ok (.vstc (f.lo / 512 == 1) (.ofNat 5 f.d) (.ofNat 5 f.a) (.ofNat 5 f.b) sc (orderOf (f.lo / 4 % 4))) else .error .fieldNotZero
  | _ => .error .function

/-- Major opcode 0x1E (R142, R143). -/
def decodeVAMO (f : Fields) : Except Reject Instr :=
  match f.lo % 4 with
  | 0 => (spaceOf (f.lo / 128 % 4)).elim (.error .space) fun sp => (scopeOf (f.lo / 16 % 8)).elim (.error .scope) fun sc => .ok (.vsca (f.lo / 512 == 1) (.ofNat 5 f.d) (.ofNat 5 f.a) (.ofNat 5 f.b) sp sc (orderOf (f.lo / 4 % 4)))
  | 1 => (spaceOf (f.lo / 128 % 4)).elim (.error .space) fun sp => (scopeOf (f.lo / 16 % 8)).elim (.error .scope) fun sc => .ok (.vamo (f.lo / 512 == 1) (.ofNat 5 f.d) (.ofNat 5 f.a) (.ofNat 5 f.b) sp sc (orderOf (f.lo / 4 % 4)))
  | _ => .error .function

/-- Major opcode 0x1F (R142, R143). -/
def decodeVRRS (f : Fields) : Except Reject Instr :=
  match f.lo % 4 with
  | 0 => if f.b == 0 && f.lo / 128 % 4 == 0 then (scopeOf (f.lo / 16 % 8)).elim (.error .scope) fun sc => .ok (.vrrs (f.lo / 512 == 1) (.ofNat 5 f.d) (.ofNat 5 f.a) sc (orderOf (f.lo / 4 % 4))) else .error .fieldNotZero
  | 1 => if f.b == 0 && f.lo / 128 % 4 == 0 then (scopeOf (f.lo / 16 % 8)).elim (.error .scope) fun sc => .ok (.vrrsq (f.lo / 512 == 1) (.ofNat 5 f.d) (.ofNat 5 f.a) sc (orderOf (f.lo / 4 % 4))) else .error .fieldNotZero
  | _ => .error .function

/-- Major opcode 0x20 (R142, R143). -/
def decodeSPT (f : Fields) : Except Reject Instr :=
  match f.lo with
  | 0 => if f.b == 0 then .ok (.sptl (.ofNat 5 f.d) (.ofNat 5 f.a)) else .error .fieldNotZero
  | 1 => .ok (.spti (.ofNat 5 f.d) (.ofNat 5 f.a) (.ofNat 5 f.b))
  | 2 => if f.b == 0 then .ok (.spte (.ofNat 5 f.d) (.ofNat 5 f.a)) else .error .fieldNotZero
  | 3 => if f.d == 0 then .ok (.sptc (.ofNat 5 f.a) (.ofNat 5 f.b)) else .error .fieldNotZero
  | 4 => if f.b == 0 then .ok (.sptr (.ofNat 5 f.d) (.ofNat 5 f.a)) else .error .fieldNotZero
  | _ => .error .function

/-- Major opcode 0x21 (R142, R143). -/
def decodeTAG (f : Fields) : Except Reject Instr :=
  match f.lo with
  | 0 => if f.d == 0 then .ok (.stag (.ofNat 5 f.a) (.ofNat 5 f.b)) else .error .fieldNotZero
  | 1 => if f.b == 0 then .ok (.ltag (.ofNat 5 f.d) (.ofNat 5 f.a)) else .error .fieldNotZero
  | _ => .error .function

/-- Major opcode 0x22 (R142, R143). -/
def decodeMXL (f : Fields) : Except Reject Instr :=
  match f.lo % 128 with
  | 0 => if f.d == 0 && f.b == 0 && f.lo / 512 == 0 then .ok (.tld (.ofNat 5 f.a) (.ofNat 2 (f.lo / 128 % 4))) else .error .fieldNotZero
  | 1 => if f.d == 0 && f.lo / 512 == 0 then .ok (.tldg (.ofNat 5 f.a) (.ofNat 5 f.b) (.ofNat 2 (f.lo / 128 % 4))) else .error .fieldNotZero
  | 2 => if f.d == 0 && f.b == 0 && f.lo / 512 == 0 then .ok (.tst (.ofNat 5 f.a) (.ofNat 2 (f.lo / 128 % 4))) else .error .fieldNotZero
  | 3 => if f.d == 0 && f.a == 0 && f.b == 0 && f.lo / 512 == 0 then .ok (.tclr (.ofNat 2 (f.lo / 128 % 4))) else .error .fieldNotZero
  | 4 => if f.d == 0 && f.a < 4 && f.b == 0 && f.lo / 512 == 0 then .ok (.tmv (.ofNat 2 f.a) (.ofNat 2 (f.lo / 128 % 4))) else .error .fieldNotZero
  | _ => .error .function

/-- Major opcode 0x23 (R142, R143). -/
def decodeMXA (f : Fields) : Except Reject Instr :=
  match f.lo % 128 with
  | 0 => if f.b == 0 then .ok (.vmxa (f.lo / 512 == 1) (.ofNat 5 f.d) (.ofNat 5 f.a) (.ofNat 2 (f.lo / 128 % 4))) else .error .fieldNotZero
  | 1 => .ok (.vmxs (f.lo / 512 == 1) (.ofNat 5 f.d) (.ofNat 5 f.a) (.ofNat 5 f.b) (.ofNat 2 (f.lo / 128 % 4)))
  | 2 => if f.d == 0 then .ok (.tout (f.lo / 512 == 1) (.ofNat 5 f.a) (.ofNat 5 f.b) (.ofNat 2 (f.lo / 128 % 4))) else .error .fieldNotZero
  | _ => .error .function

/-- Major opcode 0x24 (R142, R143). -/
def decodeSTRM (f : Fields) : Except Reject Instr :=
  match f.lo % 32 with
  | 0 => if f.d < 8 then (scopeOf (f.lo / 32 % 8)).elim (.error .scope) fun sc => .ok (.cpy (.ofNat 3 f.d) (.ofNat 5 f.a) (.ofNat 5 f.b) (f.lo / 512 == 1) (f.lo / 256 % 2 == 1) sc) else .error .fieldNotZero
  | 1 => if f.d < 8 then if f.a != 31 then (scopeOf (f.lo / 32 % 8)).elim (.error .scope) fun sc => .ok (.cpys (.ofNat 3 f.d) (.ofNat 5 f.a) (.ofNat 5 f.b) (f.lo / 512 == 1) (f.lo / 256 % 2 == 1) sc) else .error .stride else .error .fieldNotZero
  | 2 => if f.d < 8 then (scopeOf (f.lo / 32 % 8)).elim (.error .scope) fun sc => .ok (.fill (.ofNat 3 f.d) (.ofNat 5 f.a) (.ofNat 5 f.b) (f.lo / 512 == 1) (f.lo / 256 % 2 == 1) sc) else .error .fieldNotZero
  | 3 => if f.b == 0 && f.lo / 32 == 0 && f.d < 8 then .ok (.cexp (.ofNat 3 f.d) (.ofNat 5 f.a)) else .error .fieldNotZero
  | 4 => if f.a == 0 && f.lo / 32 == 0 && f.d < 8 then .ok (.cwm (.ofNat 3 f.d) (.ofNat 5 f.b)) else .error .fieldNotZero
  | 5 => if f.lo / 32 == 0 && f.d < 8 then .ok (.cwait (.ofNat 3 f.d) (.ofNat 5 f.a) (.ofNat 5 f.b)) else .error .fieldNotZero
  | 6 => if f.a == 0 && f.b == 0 && f.lo / 32 == 0 && f.d < 8 then .ok (.cfree (.ofNat 3 f.d)) else .error .fieldNotZero
  | _ => .error .function

/-- Major opcode 0x25 (R142, R143). -/
def decodeSYNC (f : Fields) : Except Reject Instr :=
  match f.lo % 32 with
  | 0 => if f.lo / 32 % 32 != 1 then .ok (.bar (.ofNat 5 f.d) (.ofNat 5 f.a) (.ofNat 5 f.b) (.ofNat 5 (f.lo / 32 % 32))) else .error .absentee
  | 1 => if f.lo / 32 == 0 then .ok (.barr (.ofNat 5 f.d) (.ofNat 5 f.a) (.ofNat 5 f.b)) else .error .fieldNotZero
  | 2 => if f.lo / 32 % 32 != 1 then .ok (.barw (.ofNat 5 f.d) (.ofNat 5 f.a) (.ofNat 5 f.b) (.ofNat 5 (f.lo / 32 % 32))) else .error .absentee
  | 3 => if f.lo / 32 % 32 != 1 then .ok (.acq (.ofNat 5 f.d) (.ofNat 5 f.a) (.ofNat 5 f.b) (.ofNat 5 (f.lo / 32 % 32))) else .error .absentee
  | 4 => if f.b == 0 && f.lo / 32 == 0 then .ok (.rel (.ofNat 5 f.d) (.ofNat 5 f.a)) else .error .fieldNotZero
  | 5 => if f.lo / 32 == 0 then .ok (.mend (.ofNat 5 f.d) (.ofNat 5 f.a) (.ofNat 5 f.b)) else .error .fieldNotZero
  | 6 => .ok (.stg (.ofNat 5 f.d) (.ofNat 5 f.a) (.ofNat 5 f.b) (.ofNat 5 (f.lo / 32 % 32)))
  | 7 => if f.lo / 32 == 0 then .ok (.gjoin (.ofNat 5 f.d) (.ofNat 5 f.a) (.ofNat 5 f.b)) else .error .fieldNotZero
  | 8 => if f.b == 0 && f.lo / 32 == 0 then .ok (.gleave (.ofNat 5 f.d) (.ofNat 5 f.a)) else .error .fieldNotZero
  | _ => .error .function

/-- Major opcode 0x26 (R142, R143). -/
def decodeQRM (f : Fields) : Except Reject Instr :=
  match f.lo % 32 with
  | 0 => if f.lo / 32 % 32 != 1 then .ok (.qarr (.ofNat 5 f.d) (.ofNat 5 f.a) (.ofNat 5 f.b) (.ofNat 5 (f.lo / 32 % 32))) else .error .absentee
  | 1 => if f.lo / 32 % 32 != 1 then .ok (.qwait (.ofNat 5 f.d) (.ofNat 5 f.a) (.ofNat 5 f.b) (.ofNat 5 (f.lo / 32 % 32))) else .error .absentee
  | 2 => if f.lo / 32 == 0 then .ok (.qjoin (.ofNat 5 f.d) (.ofNat 5 f.a) (.ofNat 5 f.b)) else .error .fieldNotZero
  | 3 => if f.b == 0 && f.lo / 32 == 0 then .ok (.qleave (.ofNat 5 f.d) (.ofNat 5 f.a)) else .error .fieldNotZero
  | 4 => if f.b == 0 then .ok (.qread (.ofNat 5 f.d) (.ofNat 5 f.a) (.ofNat 5 (f.lo / 32 % 32))) else .error .fieldNotZero
  | _ => .error .function

/-- Major opcode 0x27 (R142, R143). -/
def decodeQUE (f : Fields) : Except Reject Instr :=
  match f.lo % 32 with
  | 0 => if f.b == 0 && f.lo / 32 == 0 then .ok (.enq (.ofNat 5 f.d) (.ofNat 5 f.a)) else .error .fieldNotZero
  | 1 => if f.lo / 32 == 0 then .ok (.recv (.ofNat 5 f.d) (.ofNat 5 f.a) (.ofNat 5 f.b)) else .error .fieldNotZero
  | 2 => if f.b == 0 && f.lo / 32 == 0 then .ok (.qpoll (.ofNat 5 f.d) (.ofNat 5 f.a)) else .error .fieldNotZero
  | 3 => if f.d == 0 && f.b == 0 && f.lo / 32 == 0 then .ok (.wake (.ofNat 5 f.a)) else .error .fieldNotZero
  | _ => .error .function

/-- Major opcode 0x28 (R142, R143). -/
def decodeFARM (f : Fields) : Except Reject Instr :=
  match f.lo % 32 with
  | 0 => if f.b == 0 && f.lo / 32 == 0 then .ok (.farm (.ofNat 5 f.d) (.ofNat 5 f.a)) else .error .fieldNotZero
  | 1 => if f.lo / 32 == 0 then .ok (.strip (.ofNat 5 f.d) (.ofNat 5 f.a) (.ofNat 5 f.b)) else .error .fieldNotZero
  | 2 => .ok (.sdone (.ofNat 5 f.d) (.ofNat 5 f.a) (.ofNat 5 f.b) (.ofNat 5 (f.lo / 32 % 32)))
  | 3 => if f.lo / 32 % 32 != 1 then .ok (.farmw (.ofNat 5 f.d) (.ofNat 5 f.a) (.ofNat 5 f.b) (.ofNat 5 (f.lo / 32 % 32))) else .error .absentee
  | _ => .error .function

/-- Major opcode 0x29 (R142, R143). -/
def decodeDBG (f : Fields) : Except Reject Instr :=
  match f.lo with
  | 0 => if f.b == 0 then .ok (.lcrs (.ofNat 5 f.d) (.ofNat 5 f.a)) else .error .fieldNotZero
  | 1 => if f.d == 0 && f.b == 0 then .ok (.mark (.ofNat 5 f.a)) else .error .fieldNotZero
  | _ => .error .function

/-- Major opcode 0x13: the SYS miscellaneous functions (R144, R330). -/
def decodeSysMisc (f : Fields) : Except Reject Instr :=
  match f.b % 4 * 1024 + f.lo with
  | 0 => if f.d == 0 && f.a == 0 then .ok .ecall else .error .fieldNotZero
  | 1 => if f.d == 0 && f.a == 0 then .ok .ebreak else .error .fieldNotZero
  | 2 => if f.d == 0 && f.a == 0 then .ok .eret else .error .fieldNotZero
  | 3 => if f.d == 0 then .ok (.tlbi (.ofNat 5 f.a)) else .error .fieldNotZero
  | 4 => if f.d == 0 && f.a == 0 then .ok .tlbia else .error .fieldNotZero
  | 5 => .ok (.vsvall (.ofNat 5 f.d) (.ofNat 5 f.a))
  | 6 => if f.d == 0 then .ok (.vrsall (.ofNat 5 f.a)) else .error .fieldNotZero
  | 7 => if f.d == 0 then .ok (.tsvall (.ofNat 5 f.a)) else .error .fieldNotZero
  | 8 => if f.d == 0 then .ok (.trsall (.ofNat 5 f.a)) else .error .fieldNotZero
  | 9 => if f.d == 0 && f.a == 0 then .ok .rapark else .error .fieldNotZero
  | 10 => if f.d == 0 && f.a == 0 then .ok .rarestore else .error .fieldNotZero
  | 11 => .ok (.lgset (.ofNat 5 f.d) (.ofNat 5 f.a))
  | 12 => .ok (.preempt (.ofNat 5 f.d) (.ofNat 5 f.a))
  | _ => .error .function

/-- Major opcode 0x13 (R144): sub-function in imm15[14:12], number in imm15[11:0]. -/
def decodeSYS (f : Fields) : Except Reject Instr :=
  match f.b / 4 with
  | 0 => if f.a == 0 then if crAssigned (f.b % 4 * 1024 + f.lo) then .ok (.rdc (.ofNat 5 f.d) (.ofNat 12 (f.b % 4 * 1024 + f.lo))) else .error .controlRegister else .error .fieldNotZero
  | 1 => if f.d == 0 then if crAssigned (f.b % 4 * 1024 + f.lo) then .ok (.wrc (.ofNat 5 f.a) (.ofNat 12 (f.b % 4 * 1024 + f.lo))) else .error .controlRegister else .error .fieldNotZero
  | 2 => if f.d == 0 then if crAssigned (f.b % 4 * 1024 + f.lo) then .ok (.setbc (.ofNat 5 f.a) (.ofNat 12 (f.b % 4 * 1024 + f.lo))) else .error .controlRegister else .error .fieldNotZero
  | 3 => if f.d == 0 then if crAssigned (f.b % 4 * 1024 + f.lo) then .ok (.clrbc (.ofNat 5 f.a) (.ofNat 12 (f.b % 4 * 1024 + f.lo))) else .error .controlRegister else .error .fieldNotZero
  | 4 => decodeSysMisc f
  | _ => .error .function

/-- A word by its fields (R142). -/
def decodeFields (f : Fields) : Except Reject Instr :=
  match f.op with
  | 0x01 => decodeSALU f
  | 0x02 => .ok (.addi (.ofNat 5 f.d) (.ofNat 5 f.a) (.ofNat 15 (f.b * 1024 + f.lo)))
  | 0x03 => .ok (.andi (.ofNat 5 f.d) (.ofNat 5 f.a) (.ofNat 15 (f.b * 1024 + f.lo)))
  | 0x04 => .ok (.ori (.ofNat 5 f.d) (.ofNat 5 f.a) (.ofNat 15 (f.b * 1024 + f.lo)))
  | 0x05 => .ok (.xori (.ofNat 5 f.d) (.ofNat 5 f.a) (.ofNat 15 (f.b * 1024 + f.lo)))
  | 0x06 => .ok (.slti (.ofNat 5 f.d) (.ofNat 5 f.a) (.ofNat 15 (f.b * 1024 + f.lo)))
  | 0x07 => .ok (.sltiu (.ofNat 5 f.d) (.ofNat 5 f.a) (.ofNat 15 (f.b * 1024 + f.lo)))
  | 0x08 => decodeSHI f
  | 0x09 => .ok (.lui (.ofNat 5 f.d) (.ofNat 20 (f.a * 32768 + f.b * 1024 + f.lo)))
  | 0x0A => .ok (.auipc (.ofNat 5 f.d) (.ofNat 20 (f.a * 32768 + f.b * 1024 + f.lo)))
  | 0x0B => decodeLoads f
  | 0x0C => decodeStores f
  | 0x0D => decodeBranches f
  | 0x0E => .ok (.jal (.ofNat 5 f.d) (.ofNat 20 (f.a * 32768 + f.b * 1024 + f.lo)))
  | 0x0F => .ok (.jalr (.ofNat 5 f.d) (.ofNat 5 f.a) (.ofNat 15 (f.b * 1024 + f.lo)))
  | 0x10 => decodeSAMO f
  | 0x11 => decodeSMUL f
  | 0x12 => if f.d == 0 then .ok (.lp (.ofNat 5 f.a) (.ofNat 15 (f.b * 1024 + f.lo))) else .error .fieldNotZero
  | 0x13 => decodeSYS f
  | 0x14 => decodeFENCE f
  | 0x15 => decodeCFG f
  | 0x16 => decodeVARI f
  | 0x17 => decodeVCMP f
  | 0x18 => decodeVMSK f
  | 0x19 => decodeVPERM f
  | 0x1A => decodeVRED f
  | 0x1B => decodeVCVT f
  | 0x1C => decodeVLD f
  | 0x1D => decodeVST f
  | 0x1E => decodeVAMO f
  | 0x1F => decodeVRRS f
  | 0x20 => decodeSPT f
  | 0x21 => decodeTAG f
  | 0x22 => decodeMXL f
  | 0x23 => decodeMXA f
  | 0x24 => decodeSTRM f
  | 0x25 => decodeSYNC f
  | 0x26 => decodeQRM f
  | 0x27 => decodeQUE f
  | 0x28 => decodeFARM f
  | 0x29 => decodeDBG f
  | _ => .error .majorOpcode

/-- An instruction word. -/
def decodeWord (w : BitVec 32) : Except Reject Instr := decodeFields (Fields.ofWord w.toNat)

/-- The convoy bit of a word (R139). -/
def convoyBit (w : BitVec 32) : Bool := w.toNat / 2 ^ 31 == 1

/-- A word from its four bytes, the least significant first (R3, R138). -/
def wordOfBytes (b0 b1 b2 b3 : Byte) : BitVec 32 :=
  .ofNat 32 (b0.toNat + b1.toNat * 2 ^ 8 + b2.toNat * 2 ^ 16 + b3.toNat * 2 ^ 24)

/-- An instruction from any bytes: the instruction, its convoy bit, and the bytes after it. -/
def decodeBytes : List Byte → Except Reject (Instr × Bool × List Byte)
  | b0 :: b1 :: b2 :: b3 :: rest =>
    match decodeWord (wordOfBytes b0 b1 b2 b3) with
    | .ok i => .ok (i, convoyBit (wordOfBytes b0 b1 b2 b3), rest)
    | .error r => .error r
  | _ => .error .truncated

/-- The bytes of a word, the least significant first (R3, R138). -/
def bytesOfWord (w : Nat) : List Byte :=
  [.ofNat 8 w, .ofNat 8 (w / 2 ^ 8), .ofNat 8 (w / 2 ^ 16), .ofNat 8 (w / 2 ^ 24)]

/-- The decoder's reading of a row of the table of operations and events: the word is laid out as it is stored, and
the bits above those that the row gives are 0. -/
def decodeTableWord (nbits w : Nat) : Option Instr :=
  match decodeBytes (bytesOfWord (w % 2 ^ nbits)) with
  | .ok (i, _, _) => some i
  | .error _ => none

/-- Scope field. -/
def Scope.code : Scope → Nat
  | .hart => 0 | .core => 1 | .cluster => 2 | .device => 3 | .domain => 4

/-- Space field. -/
def Space.code : Space → Nat
  | .global => 0 | .spad => 1 | .lane => 2

/-- Order field. -/
def Order.code : Order → Nat
  | .none => 0 | .acq => 1 | .rel => 2 | .acqRel => 3

/-- Kind field. -/
def VOperand.kind : VOperand → Nat
  | .vec _ => 0 | .scal _ => 1 | .imm _ => 2

/-- Field [14:10] of an operand. -/
def VOperand.value : VOperand → Nat
  | .vec v => v.toNat | .scal r => r.toNat | .imm i => i.toNat

/-- The fields of an instruction, from the encoding tables; an event has none. -/
def Instr.fields : Instr → Option Fields
  | .add d a b => some ⟨0x01, d.toNat, a.toNat, b.toNat, 0⟩
  | .sub d a b => some ⟨0x01, d.toNat, a.toNat, b.toNat, 1⟩
  | .and d a b => some ⟨0x01, d.toNat, a.toNat, b.toNat, 2⟩
  | .or d a b => some ⟨0x01, d.toNat, a.toNat, b.toNat, 3⟩
  | .xor d a b => some ⟨0x01, d.toNat, a.toNat, b.toNat, 4⟩
  | .andn d a b => some ⟨0x01, d.toNat, a.toNat, b.toNat, 5⟩
  | .orn d a b => some ⟨0x01, d.toNat, a.toNat, b.toNat, 6⟩
  | .sll d a b => some ⟨0x01, d.toNat, a.toNat, b.toNat, 7⟩
  | .srl d a b => some ⟨0x01, d.toNat, a.toNat, b.toNat, 8⟩
  | .sra d a b => some ⟨0x01, d.toNat, a.toNat, b.toNat, 9⟩
  | .slt d a b => some ⟨0x01, d.toNat, a.toNat, b.toNat, 10⟩
  | .sltu d a b => some ⟨0x01, d.toNat, a.toNat, b.toNat, 11⟩
  | .min d a b => some ⟨0x01, d.toNat, a.toNat, b.toNat, 12⟩
  | .max d a b => some ⟨0x01, d.toNat, a.toNat, b.toNat, 13⟩
  | .minu d a b => some ⟨0x01, d.toNat, a.toNat, b.toNat, 14⟩
  | .maxu d a b => some ⟨0x01, d.toNat, a.toNat, b.toNat, 15⟩
  | .clz d a => some ⟨0x01, d.toNat, a.toNat, 0, 16⟩
  | .ctz d a => some ⟨0x01, d.toNat, a.toNat, 0, 17⟩
  | .popc d a => some ⟨0x01, d.toNat, a.toNat, 0, 18⟩
  | .bswap d a => some ⟨0x01, d.toNat, a.toNat, 0, 19⟩
  | .mul d a b => some ⟨0x11, d.toNat, a.toNat, b.toNat, 0⟩
  | .mulh d a b => some ⟨0x11, d.toNat, a.toNat, b.toNat, 1⟩
  | .mulhu d a b => some ⟨0x11, d.toNat, a.toNat, b.toNat, 2⟩
  | .mulhsu d a b => some ⟨0x11, d.toNat, a.toNat, b.toNat, 3⟩
  | .div d a b => some ⟨0x11, d.toNat, a.toNat, b.toNat, 4⟩
  | .divu d a b => some ⟨0x11, d.toNat, a.toNat, b.toNat, 5⟩
  | .rem d a b => some ⟨0x11, d.toNat, a.toNat, b.toNat, 6⟩
  | .remu d a b => some ⟨0x11, d.toNat, a.toNat, b.toNat, 7⟩
  | .addi d a i => some ⟨0x02, d.toNat, a.toNat, i.toNat / 1024, i.toNat % 1024⟩
  | .andi d a i => some ⟨0x03, d.toNat, a.toNat, i.toNat / 1024, i.toNat % 1024⟩
  | .ori d a i => some ⟨0x04, d.toNat, a.toNat, i.toNat / 1024, i.toNat % 1024⟩
  | .xori d a i => some ⟨0x05, d.toNat, a.toNat, i.toNat / 1024, i.toNat % 1024⟩
  | .slti d a i => some ⟨0x06, d.toNat, a.toNat, i.toNat / 1024, i.toNat % 1024⟩
  | .sltiu d a i => some ⟨0x07, d.toNat, a.toNat, i.toNat / 1024, i.toNat % 1024⟩
  | .slli d a amt => some ⟨0x08, d.toNat, a.toNat, amt.toNat / 2, amt.toNat % 2 * 512⟩
  | .srli d a amt => some ⟨0x08, d.toNat, a.toNat, amt.toNat / 2, amt.toNat % 2 * 512 + 1⟩
  | .srai d a amt => some ⟨0x08, d.toNat, a.toNat, amt.toNat / 2, amt.toNat % 2 * 512 + 2⟩
  | .lui d i => some ⟨0x09, d.toNat, i.toNat / 32768, i.toNat / 1024 % 32, i.toNat % 1024⟩
  | .auipc d i => some ⟨0x0A, d.toNat, i.toNat / 32768, i.toNat / 1024 % 32, i.toNat % 1024⟩
  | .lb d a i => some ⟨0x0B, d.toNat, a.toNat, i.toNat / 1024, i.toNat % 1024⟩
  | .lbu d a i => some ⟨0x0B, d.toNat, a.toNat, i.toNat / 1024 + 4, i.toNat % 1024⟩
  | .lh d a i => some ⟨0x0B, d.toNat, a.toNat, i.toNat / 1024 + 8, i.toNat % 1024⟩
  | .lhu d a i => some ⟨0x0B, d.toNat, a.toNat, i.toNat / 1024 + 12, i.toNat % 1024⟩
  | .lw d a i => some ⟨0x0B, d.toNat, a.toNat, i.toNat / 1024 + 16, i.toNat % 1024⟩
  | .lwu d a i => some ⟨0x0B, d.toNat, a.toNat, i.toNat / 1024 + 20, i.toNat % 1024⟩
  | .ld d a i => some ⟨0x0B, d.toNat, a.toNat, i.toNat / 1024 + 24, i.toNat % 1024⟩
  | .sb s a i => some ⟨0x0C, s.toNat, a.toNat, i.toNat / 1024, i.toNat % 1024⟩
  | .sh s a i => some ⟨0x0C, s.toNat, a.toNat, i.toNat / 1024 + 8, i.toNat % 1024⟩
  | .sw s a i => some ⟨0x0C, s.toNat, a.toNat, i.toNat / 1024 + 16, i.toNat % 1024⟩
  | .sd s a i => some ⟨0x0C, s.toNat, a.toNat, i.toNat / 1024 + 24, i.toNat % 1024⟩
  | .beq a b o => some ⟨0x0D, a.toNat, b.toNat, o.toNat / 1024, o.toNat % 1024⟩
  | .bne a b o => some ⟨0x0D, a.toNat, b.toNat, o.toNat / 1024 + 4, o.toNat % 1024⟩
  | .blt a b o => some ⟨0x0D, a.toNat, b.toNat, o.toNat / 1024 + 8, o.toNat % 1024⟩
  | .bge a b o => some ⟨0x0D, a.toNat, b.toNat, o.toNat / 1024 + 12, o.toNat % 1024⟩
  | .bltu a b o => some ⟨0x0D, a.toNat, b.toNat, o.toNat / 1024 + 16, o.toNat % 1024⟩
  | .bgeu a b o => some ⟨0x0D, a.toNat, b.toNat, o.toNat / 1024 + 20, o.toNat % 1024⟩
  | .jal d i => some ⟨0x0E, d.toNat, i.toNat / 32768, i.toNat / 1024 % 32, i.toNat % 1024⟩
  | .jalr d a i => some ⟨0x0F, d.toNat, a.toNat, i.toNat / 1024, i.toNat % 1024⟩
  | .aswap d a b w sc o => some ⟨0x10, d.toNat, a.toNat, b.toNat, w.toNat * 512 + sc.code * 64 + o.code * 16⟩
  | .aadd d a b w sc o => some ⟨0x10, d.toNat, a.toNat, b.toNat, w.toNat * 512 + sc.code * 64 + o.code * 16 + 1⟩
  | .aand d a b w sc o => some ⟨0x10, d.toNat, a.toNat, b.toNat, w.toNat * 512 + sc.code * 64 + o.code * 16 + 2⟩
  | .aor d a b w sc o => some ⟨0x10, d.toNat, a.toNat, b.toNat, w.toNat * 512 + sc.code * 64 + o.code * 16 + 3⟩
  | .axor d a b w sc o => some ⟨0x10, d.toNat, a.toNat, b.toNat, w.toNat * 512 + sc.code * 64 + o.code * 16 + 4⟩
  | .amin d a b w sc o => some ⟨0x10, d.toNat, a.toNat, b.toNat, w.toNat * 512 + sc.code * 64 + o.code * 16 + 5⟩
  | .amax d a b w sc o => some ⟨0x10, d.toNat, a.toNat, b.toNat, w.toNat * 512 + sc.code * 64 + o.code * 16 + 6⟩
  | .aminu d a b w sc o => some ⟨0x10, d.toNat, a.toNat, b.toNat, w.toNat * 512 + sc.code * 64 + o.code * 16 + 7⟩
  | .amaxu d a b w sc o => some ⟨0x10, d.toNat, a.toNat, b.toNat, w.toNat * 512 + sc.code * 64 + o.code * 16 + 8⟩
  | .acas d a b w sc o => some ⟨0x10, d.toNat, a.toNat, b.toNat, w.toNat * 512 + sc.code * 64 + o.code * 16 + 9⟩
  | .lp a n => some ⟨0x12, 0, a.toNat, n.toNat / 1024, n.toNat % 1024⟩
  | .rdc d n => some ⟨0x13, d.toNat, 0, n.toNat / 1024, n.toNat % 1024⟩
  | .wrc a n => some ⟨0x13, 0, a.toNat, n.toNat / 1024 + 4, n.toNat % 1024⟩
  | .setbc a n => some ⟨0x13, 0, a.toNat, n.toNat / 1024 + 8, n.toNat % 1024⟩
  | .clrbc a n => some ⟨0x13, 0, a.toNat, n.toNat / 1024 + 12, n.toNat % 1024⟩
  | .ecall => some ⟨0x13, 0, 0, 16, 0⟩
  | .ebreak => some ⟨0x13, 0, 0, 16, 1⟩
  | .eret => some ⟨0x13, 0, 0, 16, 2⟩
  | .tlbi a => some ⟨0x13, 0, a.toNat, 16, 3⟩
  | .tlbia => some ⟨0x13, 0, 0, 16, 4⟩
  | .vsvall d a => some ⟨0x13, d.toNat, a.toNat, 16, 5⟩
  | .vrsall a => some ⟨0x13, 0, a.toNat, 16, 6⟩
  | .tsvall a => some ⟨0x13, 0, a.toNat, 16, 7⟩
  | .trsall a => some ⟨0x13, 0, a.toNat, 16, 8⟩
  | .rapark => some ⟨0x13, 0, 0, 16, 9⟩
  | .rarestore => some ⟨0x13, 0, 0, 16, 10⟩
  | .lgset d a => some ⟨0x13, d.toNat, a.toNat, 16, 11⟩
  | .preempt d a => some ⟨0x13, d.toNat, a.toNat, 16, 12⟩
  | .fenceSv sc => some ⟨0x14, 0, 0, 0, sc.code * 64⟩
  | .fenceVs sc => some ⟨0x14, 0, 0, 0, sc.code * 64 + 1⟩
  | .fenceVv sc => some ⟨0x14, 0, 0, 0, sc.code * 64 + 2⟩
  | .fenceA sc => some ⟨0x14, 0, 0, 0, sc.code * 64 + 3⟩
  | .flushrd a sc => some ⟨0x14, 0, a.toNat, 0, sc.code * 64 + 4⟩
  | .svl d a b => some ⟨0x15, d.toNat, a.toNat, b.toNat, 0⟩
  | .svt a => some ⟨0x15, 0, a.toNat, 0, 1⟩
  | .svr d a => some ⟨0x15, d.toNat, a.toNat, 0, 2⟩
  | .scgrp a b => some ⟨0x15, 0, a.toNat, b.toNat, 3⟩
  | .scop a b seq => some ⟨0x15, 0, a.toNat, b.toNat, seq.toNat * 16 + 4⟩
  | .vadd m d a b => some ⟨0x16, d.toNat, a.toNat, b.value, m.toNat * 512 + b.kind * 128⟩
  | .vsub m d a b => some ⟨0x16, d.toNat, a.toNat, b.value, m.toNat * 512 + b.kind * 128 + 1⟩
  | .vrsub m d a b => some ⟨0x16, d.toNat, a.toNat, b.value, m.toNat * 512 + b.kind * 128 + 2⟩
  | .vmul m d a b => some ⟨0x16, d.toNat, a.toNat, b.value, m.toNat * 512 + b.kind * 128 + 3⟩
  | .vmulh m d a b => some ⟨0x16, d.toNat, a.toNat, b.value, m.toNat * 512 + b.kind * 128 + 4⟩
  | .vmulhu m d a b => some ⟨0x16, d.toNat, a.toNat, b.value, m.toNat * 512 + b.kind * 128 + 5⟩
  | .vdiv m d a b => some ⟨0x16, d.toNat, a.toNat, b.value, m.toNat * 512 + b.kind * 128 + 6⟩
  | .vrem m d a b => some ⟨0x16, d.toNat, a.toNat, b.value, m.toNat * 512 + b.kind * 128 + 7⟩
  | .vmin m d a b => some ⟨0x16, d.toNat, a.toNat, b.value, m.toNat * 512 + b.kind * 128 + 8⟩
  | .vmax m d a b => some ⟨0x16, d.toNat, a.toNat, b.value, m.toNat * 512 + b.kind * 128 + 9⟩
  | .vand m d a b => some ⟨0x16, d.toNat, a.toNat, b.value, m.toNat * 512 + b.kind * 128 + 10⟩
  | .vor m d a b => some ⟨0x16, d.toNat, a.toNat, b.value, m.toNat * 512 + b.kind * 128 + 11⟩
  | .vxor m d a b => some ⟨0x16, d.toNat, a.toNat, b.value, m.toNat * 512 + b.kind * 128 + 12⟩
  | .vsll m d a b => some ⟨0x16, d.toNat, a.toNat, b.value, m.toNat * 512 + b.kind * 128 + 13⟩
  | .vsrl m d a b => some ⟨0x16, d.toNat, a.toNat, b.value, m.toNat * 512 + b.kind * 128 + 14⟩
  | .vsra m d a b => some ⟨0x16, d.toNat, a.toNat, b.value, m.toNat * 512 + b.kind * 128 + 15⟩
  | .vsadd m d a b => some ⟨0x16, d.toNat, a.toNat, b.value, m.toNat * 512 + b.kind * 128 + 16⟩
  | .vssub m d a b => some ⟨0x16, d.toNat, a.toNat, b.value, m.toNat * 512 + b.kind * 128 + 17⟩
  | .vadc d a b => some ⟨0x16, d.toNat, a.toNat, b.value, b.kind * 128 + 18⟩
  | .vsbc d a b => some ⟨0x16, d.toNat, a.toNat, b.value, b.kind * 128 + 19⟩
  | .vmadc d a b => some ⟨0x16, d.toNat, a.toNat, b.value, b.kind * 128 + 20⟩
  | .vmsbc d a b => some ⟨0x16, d.toNat, a.toNat, b.value, b.kind * 128 + 21⟩
  | .vabs m d a => some ⟨0x16, d.toNat, a.toNat, 0, m.toNat * 512 + 22⟩
  | .vneg m d a => some ⟨0x16, d.toNat, a.toNat, 0, m.toNat * 512 + 23⟩
  | .vmerge d a b => some ⟨0x16, d.toNat, a.toNat, b.value, b.kind * 128 + 536⟩
  | .vmv m d b => some ⟨0x16, d.toNat, 0, b.value, m.toNat * 512 + b.kind * 128 + 25⟩
  | .vfma m d a b => some ⟨0x16, d.toNat, a.toNat, b.value, m.toNat * 512 + b.kind * 128 + 26⟩
  | .vfms m d a b => some ⟨0x16, d.toNat, a.toNat, b.value, m.toNat * 512 + b.kind * 128 + 27⟩
  | .vfnma m d a b => some ⟨0x16, d.toNat, a.toNat, b.value, m.toNat * 512 + b.kind * 128 + 28⟩
  | .vfnms m d a b => some ⟨0x16, d.toNat, a.toNat, b.value, m.toNat * 512 + b.kind * 128 + 29⟩
  | .vsqrt m d a => some ⟨0x16, d.toNat, a.toNat, 0, m.toNat * 512 + 30⟩
  | .vsgnj m d a b => some ⟨0x16, d.toNat, a.toNat, b.value, m.toNat * 512 + b.kind * 128 + 31⟩
  | .vsgnjn m d a b => some ⟨0x16, d.toNat, a.toNat, b.value, m.toNat * 512 + b.kind * 128 + 32⟩
  | .vsgnjx m d a b => some ⟨0x16, d.toNat, a.toNat, b.value, m.toNat * 512 + b.kind * 128 + 33⟩
  | .vclass m d a => some ⟨0x16, d.toNat, a.toNat, 0, m.toNat * 512 + 34⟩
  | .vwadd m d a b => some ⟨0x16, d.toNat, a.toNat, b.value, m.toNat * 512 + b.kind * 128 + 35⟩
  | .vwmul m d a b => some ⟨0x16, d.toNat, a.toNat, b.value, m.toNat * 512 + b.kind * 128 + 36⟩
  | .veq m d a b => some ⟨0x17, d.toNat, a.toNat, b.value, m.toNat * 512 + b.kind * 128⟩
  | .vne m d a b => some ⟨0x17, d.toNat, a.toNat, b.value, m.toNat * 512 + b.kind * 128 + 1⟩
  | .vlt m d a b => some ⟨0x17, d.toNat, a.toNat, b.value, m.toNat * 512 + b.kind * 128 + 2⟩
  | .vle m d a b => some ⟨0x17, d.toNat, a.toNat, b.value, m.toNat * 512 + b.kind * 128 + 3⟩
  | .vgt m d a b => some ⟨0x17, d.toNat, a.toNat, b.value, m.toNat * 512 + b.kind * 128 + 4⟩
  | .vge m d a b => some ⟨0x17, d.toNat, a.toNat, b.value, m.toNat * 512 + b.kind * 128 + 5⟩
  | .vunord m d a b => some ⟨0x17, d.toNat, a.toNat, b.value, m.toNat * 512 + b.kind * 128 + 6⟩
  | .mand d a b => some ⟨0x18, d.toNat, a.toNat, b.toNat, 0⟩
  | .mor d a b => some ⟨0x18, d.toNat, a.toNat, b.toNat, 1⟩
  | .mxor d a b => some ⟨0x18, d.toNat, a.toNat, b.toNat, 2⟩
  | .mandn d a b => some ⟨0x18, d.toNat, a.toNat, b.toNat, 3⟩
  | .morn d a b => some ⟨0x18, d.toNat, a.toNat, b.toNat, 4⟩
  | .mnot m d a => some ⟨0x18, d.toNat, a.toNat, 0, m.toNat * 512 + 5⟩
  | .mmv m d a => some ⟨0x18, d.toNat, a.toNat, 0, m.toNat * 512 + 6⟩
  | .mpop m d a => some ⟨0x18, d.toNat, a.toNat, 0, m.toNat * 512 + 7⟩
  | .mffs m d a => some ⟨0x18, d.toNat, a.toNat, 0, m.toNat * 512 + 8⟩
  | .mfls m d a => some ⟨0x18, d.toNat, a.toNat, 0, m.toNat * 512 + 9⟩
  | .msbf m d a => some ⟨0x18, d.toNat, a.toNat, 0, m.toNat * 512 + 10⟩
  | .msif m d a => some ⟨0x18, d.toNat, a.toNat, 0, m.toNat * 512 + 11⟩
  | .mslu m d a b => some ⟨0x18, d.toNat, a.toNat, b.value, m.toNat * 512 + b.kind * 128 + 12⟩
  | .msld m d a b => some ⟨0x18, d.toNat, a.toNat, b.value, m.toNat * 512 + b.kind * 128 + 13⟩
  | .iota m d a => some ⟨0x18, d.toNat, a.toNat, 0, m.toNat * 512 + 14⟩
  | .vid m d => some ⟨0x18, d.toNat, 0, 0, m.toNat * 512 + 15⟩
  | .vslup m d a b => some ⟨0x19, d.toNat, a.toNat, b.value, m.toNat * 512 + b.kind * 128⟩
  | .vsldn m d a b => some ⟨0x19, d.toNat, a.toNat, b.value, m.toNat * 512 + b.kind * 128 + 1⟩
  | .vslup1 m d a b => some ⟨0x19, d.toNat, a.toNat, b.toNat, m.toNat * 512 + 130⟩
  | .vsldn1 m d a b => some ⟨0x19, d.toNat, a.toNat, b.toNat, m.toNat * 512 + 131⟩
  | .vrgath m d a b => some ⟨0x19, d.toNat, a.toNat, b.toNat, m.toNat * 512 + 4⟩
  | .vcompr d a => some ⟨0x19, d.toNat, a.toNat, 0, 5⟩
  | .vexpand d a => some ⟨0x19, d.toNat, a.toNat, 0, 6⟩
  | .vbcast m d a b => some ⟨0x19, d.toNat, a.toNat, b.value, m.toNat * 512 + b.kind * 128 + 7⟩
  | .vmvxs d a => some ⟨0x19, d.toNat, a.toNat, 0, 8⟩
  | .vmvsx d b => some ⟨0x19, d.toNat, 0, b.toNat, 137⟩
  | .vext d a b => some ⟨0x19, d.toNat, a.toNat, b.value, b.kind * 128 + 10⟩
  | .vins d a b => some ⟨0x19, d.toNat, a.toNat, b.value, b.kind * 128 + 11⟩
  | .vrowmv d a => some ⟨0x19, d.toNat, a.toNat, 0, 12⟩
  | .vrsum m d a b => some ⟨0x1A, d.toNat, a.toNat, b.value, m.toNat * 512 + b.kind * 128⟩
  | .vrosum m d a b => some ⟨0x1A, d.toNat, a.toNat, b.value, m.toNat * 512 + b.kind * 128 + 1⟩
  | .vrmax m d a b => some ⟨0x1A, d.toNat, a.toNat, b.value, m.toNat * 512 + b.kind * 128 + 2⟩
  | .vrmin m d a b => some ⟨0x1A, d.toNat, a.toNat, b.value, m.toNat * 512 + b.kind * 128 + 3⟩
  | .vrand m d a b => some ⟨0x1A, d.toNat, a.toNat, b.value, m.toNat * 512 + b.kind * 128 + 4⟩
  | .vror m d a b => some ⟨0x1A, d.toNat, a.toNat, b.value, m.toNat * 512 + b.kind * 128 + 5⟩
  | .vrxor m d a b => some ⟨0x1A, d.toNat, a.toNat, b.value, m.toNat * 512 + b.kind * 128 + 6⟩
  | .vcvt m d a t => some ⟨0x1B, d.toNat, a.toNat, t.toNat, m.toNat * 512⟩
  | .vcvtr m d a t => some ⟨0x1B, d.toNat, a.toNat, t.toNat, m.toNat * 512 + 1⟩
  | .vqmx m d a t => some ⟨0x1B, d.toNat, a.toNat, t.toNat, m.toNat * 512 + 2⟩
  | .vrnsx m d a t => some ⟨0x1B, d.toNat, a.toNat, t.toNat, m.toNat * 512 + 3⟩
  | .vrnsi m d a t => some ⟨0x1B, d.toNat, a.toNat, t.toNat, m.toNat * 512 + 4⟩
  | .vld m v a sp sc o => some ⟨0x1C, v.toNat, a.toNat, 0, m.toNat * 512 + sp.code * 128 + sc.code * 16 + o.code * 4⟩
  | .vldr v a sp sc o => some ⟨0x1C, v.toNat, a.toNat, 1, sp.code * 128 + sc.code * 16 + o.code * 4⟩
  | .vlds m v a b sp sc o => some ⟨0x1C, v.toNat, a.toNat, b.toNat, m.toNat * 512 + sp.code * 128 + sc.code * 16 + o.code * 4 + 1⟩
  | .vldx m v a b sp sc o => some ⟨0x1C, v.toNat, a.toNat, b.toNat, m.toNat * 512 + sp.code * 128 + sc.code * 16 + o.code * 4 + 2⟩
  | .vldc m v a b sc o => some ⟨0x1C, v.toNat, a.toNat, b.toNat, m.toNat * 512 + sc.code * 16 + o.code * 4 + 3⟩
  | .vst m v a sp sc o => some ⟨0x1D, v.toNat, a.toNat, 0, m.toNat * 512 + sp.code * 128 + sc.code * 16 + o.code * 4⟩
  | .vstr v a sp sc o => some ⟨0x1D, v.toNat, a.toNat, 1, sp.code * 128 + sc.code * 16 + o.code * 4⟩
  | .vsts m v a b sp sc o => some ⟨0x1D, v.toNat, a.toNat, b.toNat, m.toNat * 512 + sp.code * 128 + sc.code * 16 + o.code * 4 + 1⟩
  | .vstx m v a b sp sc o => some ⟨0x1D, v.toNat, a.toNat, b.toNat, m.toNat * 512 + sp.code * 128 + sc.code * 16 + o.code * 4 + 2⟩
  | .vstc m v a b sc o => some ⟨0x1D, v.toNat, a.toNat, b.toNat, m.toNat * 512 + sc.code * 16 + o.code * 4 + 3⟩
  | .vsca m v a b sp sc o => some ⟨0x1E, v.toNat, a.toNat, b.toNat, m.toNat * 512 + sp.code * 128 + sc.code * 16 + o.code * 4⟩
  | .vamo m v a b sp sc o => some ⟨0x1E, v.toNat, a.toNat, b.toNat, m.toNat * 512 + sp.code * 128 + sc.code * 16 + o.code * 4 + 1⟩
  | .vrrs m v a sc o => some ⟨0x1F, v.toNat, a.toNat, 0, m.toNat * 512 + sc.code * 16 + o.code * 4⟩
  | .vrrsq m v a sc o => some ⟨0x1F, v.toNat, a.toNat, 0, m.toNat * 512 + sc.code * 16 + o.code * 4 + 1⟩
  | .sptl d a => some ⟨0x20, d.toNat, a.toNat, 0, 0⟩
  | .spti d a b => some ⟨0x20, d.toNat, a.toNat, b.toNat, 1⟩
  | .spte d a => some ⟨0x20, d.toNat, a.toNat, 0, 2⟩
  | .sptc a b => some ⟨0x20, 0, a.toNat, b.toNat, 3⟩
  | .sptr d a => some ⟨0x20, d.toNat, a.toNat, 0, 4⟩
  | .stag a b => some ⟨0x21, 0, a.toNat, b.toNat, 0⟩
  | .ltag d a => some ⟨0x21, d.toNat, a.toNat, 0, 1⟩
  | .tld a t => some ⟨0x22, 0, a.toNat, 0, t.toNat * 128⟩
  | .tldg a b t => some ⟨0x22, 0, a.toNat, b.toNat, t.toNat * 128 + 1⟩
  | .tst a t => some ⟨0x22, 0, a.toNat, 0, t.toNat * 128 + 2⟩
  | .tclr t => some ⟨0x22, 0, 0, 0, t.toNat * 128 + 3⟩
  | .tmv src t => some ⟨0x22, 0, src.toNat, 0, t.toNat * 128 + 4⟩
  | .vmxa m d a t => some ⟨0x23, d.toNat, a.toNat, 0, m.toNat * 512 + t.toNat * 128⟩
  | .vmxs m d a i t => some ⟨0x23, d.toNat, a.toNat, i.toNat, m.toNat * 512 + t.toNat * 128 + 1⟩
  | .tout m a i t => some ⟨0x23, 0, a.toNat, i.toNat, m.toNat * 512 + t.toNat * 128 + 2⟩
  | .cpy ch a b qa qr sc => some ⟨0x24, ch.toNat, a.toNat, b.toNat, qa.toNat * 512 + qr.toNat * 256 + sc.code * 32⟩
  | .cpys ch a b qa qr sc => some ⟨0x24, ch.toNat, a.toNat, b.toNat, qa.toNat * 512 + qr.toNat * 256 + sc.code * 32 + 1⟩
  | .fill ch a b qa qr sc => some ⟨0x24, ch.toNat, a.toNat, b.toNat, qa.toNat * 512 + qr.toNat * 256 + sc.code * 32 + 2⟩
  | .cexp ch a => some ⟨0x24, ch.toNat, a.toNat, 0, 3⟩
  | .cwm ch b => some ⟨0x24, ch.toNat, 0, b.toNat, 4⟩
  | .cwait ch a b => some ⟨0x24, ch.toNat, a.toNat, b.toNat, 5⟩
  | .cfree ch => some ⟨0x24, ch.toNat, 0, 0, 6⟩
  | .bar d a b c => some ⟨0x25, d.toNat, a.toNat, b.toNat, c.toNat * 32⟩
  | .barr d a b => some ⟨0x25, d.toNat, a.toNat, b.toNat, 1⟩
  | .barw d a b c => some ⟨0x25, d.toNat, a.toNat, b.toNat, c.toNat * 32 + 2⟩
  | .acq d a b c => some ⟨0x25, d.toNat, a.toNat, b.toNat, c.toNat * 32 + 3⟩
  | .rel d a => some ⟨0x25, d.toNat, a.toNat, 0, 4⟩
  | .mend d a b => some ⟨0x25, d.toNat, a.toNat, b.toNat, 5⟩
  | .stg d a b c => some ⟨0x25, d.toNat, a.toNat, b.toNat, c.toNat * 32 + 6⟩
  | .gjoin d a b => some ⟨0x25, d.toNat, a.toNat, b.toNat, 7⟩
  | .gleave d a => some ⟨0x25, d.toNat, a.toNat, 0, 8⟩
  | .qarr d a b c => some ⟨0x26, d.toNat, a.toNat, b.toNat, c.toNat * 32⟩
  | .qwait d a b c => some ⟨0x26, d.toNat, a.toNat, b.toNat, c.toNat * 32 + 1⟩
  | .qjoin d a b => some ⟨0x26, d.toNat, a.toNat, b.toNat, 2⟩
  | .qleave d a => some ⟨0x26, d.toNat, a.toNat, 0, 3⟩
  | .qread d a c => some ⟨0x26, d.toNat, a.toNat, 0, c.toNat * 32 + 4⟩
  | .enq d a => some ⟨0x27, d.toNat, a.toNat, 0, 0⟩
  | .recv d a b => some ⟨0x27, d.toNat, a.toNat, b.toNat, 1⟩
  | .qpoll d a => some ⟨0x27, d.toNat, a.toNat, 0, 2⟩
  | .wake a => some ⟨0x27, 0, a.toNat, 0, 3⟩
  | .farm d a => some ⟨0x28, d.toNat, a.toNat, 0, 0⟩
  | .strip d a b => some ⟨0x28, d.toNat, a.toNat, b.toNat, 1⟩
  | .sdone d a b c => some ⟨0x28, d.toNat, a.toNat, b.toNat, c.toNat * 32 + 2⟩
  | .farmw d a b c => some ⟨0x28, d.toNat, a.toNat, b.toNat, c.toNat * 32 + 3⟩
  | .lcrs d a => some ⟨0x29, d.toNat, a.toNat, 0, 0⟩
  | .mark a => some ⟨0x29, 0, a.toNat, 0, 1⟩
  | .vlWrite _ => none
  | .vrowWrite _ => none
  | .vtypeWrite _ => none
  | .vstartWrite _ => none
  | .frmWrite _ => none
  | .srseedWrite _ => none
  | .maxwaitWrite _ => none
  | .statusWrite _ => none
  | .tvecWrite _ => none
  | .asidWrite _ => none
  | .ptbWrite _ => none
  | .sliceWrite _ => none
  | .preemptWrite _ => none
  | .staggerWrite _ => none
  | .riskthrWrite _ => none
  | .taghistWrite _ => none
  | .loopRegisterWrite _ _ => none
  | .queueDescriptorWrite _ _ _ => none
  | .wakeRegister _ _ _ => none
  | .launch _ => none
  | .commandScan _ _ => none
  | .hartEnd => none
  | .launchCompletion _ => none
  | .commresGrow => none
  | .commresShrink => none
  | .energyCharge _ _ => none
  | .accountingPeriodBoundary _ => none
  | .asyncCauseTaken _ _ => none
  | .preemptRequest _ _ => none
  | .timeSlice => none
  | .lgsetApply => none
  | .parkResume => none
  | .watermarkStallResume => none
  | .scoreboardStallResume => none
  | .landedBitStallResume => none
  | .waitExpiredImplicit => none
  | .storeBufferDrain _ => none
  | .storeApply _ => none
  | .flushingRead _ _ => none
  | .flushAnswer _ _ => none
  | .flushTimeout _ _ => none
  | .trainElement _ _ => none
  | .trainAck _ _ => none
  | .responseArrival _ _ _ => none
  | .redirectedResponse _ _ => none
  | .caskAnswerArrival _ _ => none
  | .closureRecordArrival _ _ _ _ => none
  | .roundClosure _ => none
  | .staggeredCompletion => none
  | .homeWaitDeadline _ => none
  | .waitDeadlineAtHart => none
  | .stripClaimExpiry _ _ => none
  | .copyPerform _ => none
  | .copyDataLands _ _ _ => none
  | .copyRetire _ => none
  | .nackReceived _ _ => none
  | .replayBackoffExpiry _ => none
  | .ackReceived _ _ => none
  | .endpointDownReport _ => none
  | .flitArrival _ => none
  | .ageBoundExceeded _ => none
  | .injectionPriority _ => none
  | .injectionStarved _ => none
  | .injthrWindow _ => none
  | .frameReceive _ _ => none
  | .linkNack _ => none
  | .keySwitchover _ => none
  | .linkKeyExhausted _ => none
  | .migrate _ => none
  | .migrationDone _ => none
  | .lend _ => none
  | .accept _ => none
  | .reclaim _ => none
  | .returnLease _ => none
  | .leaseOfferExpiry _ => none
  | .rackGranuleMove _ => none
  | .riskUpdate _ _ _ _ => none
  | .failureDetectionWindow _ => none
  | .spareFilled => none
  | .lcrOverflow => none
  | .traceSample => none
  | .debugHalt => none
  | .powerGood _ => none
  | .attestationRequest _ => none
  | .timeBaseLost => none
  | .slewLimit _ => none
  | .thermal _ => none
  | .thermalLimitLift => none
  | .matrixIdle => none
  | .partitionReset => none
  | .hostRequest _ => none
  | .firmwareCall _ => none
  | .machineCheck _ => none
  | .caskRequest _ => none
  | .readRequest _ _ => none
  | .atomicRequest _ => none
  | .timeBaseLock => none

/-- The word of an instruction with a given convoy bit, as a number; none for an event. -/
def encode (i : Instr) (c : Bool) : Option Nat := i.fields.map (·.toWord c)

end Sys2Proof
end

