-- ==== Sys2Proof/Machine/VAtomic.lean ====
section
/-! DEFINITION. VAMO, VRRS and the collective forms of VLD and VST (R96, R135, R136, R232 to R239, R436). -/

namespace Sys2Proof.Machine

/-! ### Combining (R193, R196, R234) -/

/-- Types that `vsca` accepts, by operator (R234). -/
def vscaType (op et : Nat) : Bool :=
  match op with
  | 1 => etInt et || etFloat et || etRns et
  | 2 => etInt et || etFloat et
  | 3 => etInt et || etFloat et
  | 4 => etInt et
  | 5 => etInt et
  | 6 => etInt et
  | _ => true

/-- Types that `vamo` accepts, by operator (R234). -/
def vamoType (op et : Nat) : Bool :=
  match op with
  | 4 => 4 ≤ et && et ≤ 7
  | 5 => 4 ≤ et && et ≤ 7
  | 6 => 4 ≤ et && et ≤ 7
  | o => 7 ≤ o || (4 ≤ et && et ≤ 9)

/-- The lowest active element that holds a non-canonical residue (R237). -/
def State.rnsBad (s : State) (m : Bool) (v rows : Nat) : Option Nat :=
  let w := etWidth s.hart.et
  (spanList s.hart.vstart s.vlNow).find? fun e =>
    s.active m e && (List.range rows).any fun r => !rnsCanonical s.hart.et (s.elem (v + r) w e)

/-- The cause of a non-canonical operand, with RNSE = 1 (R237). -/
def State.rnsTrap (s : State) (m : Bool) (v rows : Nat) : Option Trap :=
  if etRns s.hart.et && s.hart.copOp ≠ 0 && enabledFlags s.hart.frm &&& fRNS ≠ 0 then
    (s.rnsBad m v rows).map fun e => ⟨38, word e, s.hart.pc⟩
  else none

/-- The cause of a NaN among the scales that an instruction reads (R46, R238). -/
def State.scaleTrap (s : State) (m : Bool) (rows : Nat) : Option Trap :=
  if s.hart.sb = 0 then none else (s.scaleNan m rows s.hart.vstart s.vlNow).map fun i => ⟨cScaleNan, word i, s.hart.pc⟩

/-- A check of data at issue (R151). Data still to land, or to be written by an earlier member of the convoy, is judged when
the member acts (R20, log 89). -/
def dataTrap (m : Bool) (reads : Reads) (f : State → Option Trap) : M Unit := do
  let s ← get
  if (s.landedStop m reads s.hart.vstart s.vlNow).isNone && s.hart.cv.elim true (fun c => c.checking && !c.chained) then
    match f s with
    | some t => throw (.trap t)
    | none => pure ()

/-- The body of a member that such a cause stops before its first element. -/
def State.unlessTrap (s : State) (lo : Nat) (t : Option Trap) (body : Pass) : Pass :=
  match t with
  | some t => { done := s, stop := some (lo, .trap t) }
  | none => body

/-- The checks of VAMO at issue (R234, R237). `TVAL2` of `ATOMIC_SPACE` is 0 (R342; log 90). -/
def vamoCheck (ty : Nat → Nat → Bool) (m : Bool) (v : VReg) (a : SReg) (b : VReg) (sp : Space) : M Unit := do
  let s ← get
  vectorCheck (ty s.hart.copOp) (sp == .lane)
  tileCheck v.toNat s.hart.vrow
  indexTileCheck (.indexed b)
  checkM (sp ≠ .lane) (.trap ⟨cAtomicSpace, s.x a, 0⟩)
  require (s.hart.copOp ≤ 6) cCollectiveConfig 0
  dataTrap m (maskReads m ++ tileReads v.toNat s.hart.vrow (etWidth s.hart.et)) fun s => s.rnsTrap m v.toNat s.hart.vrow

/-- The page of an access; none for a scratchpad (R232). -/
def Access.page (a : Access) : Option Nat :=
  match a.spot with
  | .home p => (match p.loc with | .glob _ => some (p.va.toNat / 65536) | .spad _ _ => none)
  | .lane _ => none

/-- Elements of a list of accesses, ascending, cut into ranges of at most 64 pages (R232). -/
def cutRanges : List (List Access) → List Nat → List Access → List (List Access)
  | [], _, cur => [cur]
  | g :: gs, pages, cur =>
    let new := (g.filterMap (·.page)).foldl (fun ps p => if ps.contains p then ps else ps ++ [p]) pages
    if new.length ≤ 64 || cur = [] then cutRanges gs new (cur ++ g)
    else cur :: cutRanges gs ((g.filterMap (·.page)).foldl (fun ps p => if ps.contains p then ps else ps ++ [p]) []) g

/-- The ranges of R232. -/
def rangesOf (lo hi : Nat) (l : List Access) : List (List Access) :=
  cutRanges ((spanList lo hi).map fun e => l.filter fun a => a.elem = e) [] []

/-- Whether two accesses address one element of memory (R235). -/
def Access.same (a b : Access) : Bool :=
  a.high = b.high && match a.spot, b.spot with
    | .home p, .home q => p.loc = q.loc
    | .lane j, .lane k => j = k
    | _, _ => false

/-- The accesses of a list that address an element for the first time. -/
def firstOf (l : List Access) : List Access :=
  l.foldl (fun out a => if out.any (Access.same a) then out else out ++ [a]) []

/-- One range of `vsca` (R235): values that address one element are combined in ascending position, and each address
is updated once. The flags are those of combining at the hart. -/
def State.combineRange (s : State) (regs : State) (op et w : Nat) (l : List Access) : State × Nat :=
  let rm := frmRM s.hart.frm
  let val := fun (a : Access) => regs.elem a.reg w a.idx
  let noted := fun (x : Nat) => if etRns et && op ≠ 0 then rnsFlag et x else 0
  (firstOf l).foldl (fun (p : State × Nat) a =>
    let vals := (l.filter (Access.same a)).map val
    let c := vals.tail.foldl (fun (q : Nat × Nat) v =>
      let r := combineOp op et rm q.1 v
      (r.1, q.2 ||| r.2 ||| noted v)) (vals.headD 0, noted (vals.headD 0))
    (p.1.accessWrite regs.hart.slow a w c.1 (.combine op et rm), p.2 ||| c.2)) (s, 0)

/-- A body that waits until everything that it reads in [lo, hi) has landed (R79). -/
def State.allLanded (s : State) (m : Bool) (reads : Reads) (lo hi : Nat) (body : Pass) : Pass :=
  match s.landedStop m reads lo hi with
  | some p => { done := s, stop := some (lo, .stall 3 p.2) }
  | none => body

/-- `vsca` (R235, R237). It combines within a range before it sends anything, so it waits for all that it reads: only a fault
or a park cuts a range (R70, R235). -/
def execVsca (m : Bool) (v : VReg) (a : SReg) (b : VReg) (sp : Space) (sc : Scope) (o : Order) (s : State) : Result :=
  let rows := s.hart.vrow
  let et := s.hart.et
  let w := etWidth et
  .next (s.member (do vamoCheck vscaType m v a b sp; releaseCheck o sc) State.vlNow m
    (fun _ => []) (fun _ => 0)
    (fun lo hi _ s => s.allLanded m (maskReads m ++ tileReads v.toNat rows w ++ s.indexReads (.indexed b)) lo hi <|
      s.unlessTrap lo (s.rnsTrap m v.toNat rows) (
      let r := resolveElems (s.active m) (List.range rows) (fun k => placeElem k sp a (.indexed b) v.toNat w) .atomic
        (spanList lo hi) s []
      let q := s.sendable r.2.1 r.2.2
      let out := (rangesOf lo hi q.1).foldl (fun (p : State × Nat) l =>
        let q := p.1.combineRange s s.hart.copOp et w (byPosition rows s.hart.vl l)
        (q.1, p.2 ||| q.2)) (r.1, 0)
      { done := out.1.sent.raiseFlags out.2, stop := q.2 }))
    (fin := fun s => s.acquired o sc))

/-- Which accesses are performed by an instruction that waits for old values, and where it stops: before the first that a
silent home does not answer (R98). -/
def State.answeredOf (s : State) (l : List Access) (stop : Option (Nat × Halt)) : List Access × Option (Nat × Halt) :=
  match l.find? s.accessSilent with
  | some a =>
    if stop.elim true fun p => a.elem < p.1 then (l.filter fun x => x.elem < a.elem, some (a.elem, .stall 12 0))
    else (l.filter fun x => !s.accessSilent x, stop)
  | none => (l, stop)

/-- One element of `vamo` performed at its home, and the value that stood before it (R236). -/
def State.swapAccess (s : State) (a : Access) (w op et v : Nat) : State × Nat :=
  match a.spot with
  | .home q =>
    let t := s.agree q.loc (elemBytes w)
    let r := t.applyItem (some s.hart.id) (a.item q.loc w v (.combine op et (frmRM s.hart.frm)))
    (r.1.raiseFlags r.2, t.accessRead a w)
  | .lane _ => (s, s.accessRead a w)

/-- One element of `vamo` sent by train to its home; the old value comes back into the element (R104, R236). -/
def State.swapSend (s : State) (a : Access) (w op et v : Nat) : State :=
  match a.spot with
  | .home q =>
    (s.agreeLoads q.loc (elemBytes w)).sendItem
      { a.item q.loc w v (.combine op et (frmRM s.hart.frm)) with old := some (a.reg, a.idx) }
  | .lane _ => s

/-- Whether an element of `vamo` is performed while the instruction runs: on the hart's own die, unless it is slow, and always
where the instruction is an acquire, which waits for every old value (R98, R110, R236). -/
def State.swapsNow (s : State) (o : Order) (a : Access) : Bool :=
  o.acquires || match a.spot with
    | .home q => s.onDie q.loc && !s.hart.slow
    | .lane _ => true

/-- Elements whose old values are still to return: the landed bits of their groups are clear, their trains are closed, and those
whose homes answer are acknowledged unless the instruction is slow (R79, R104, R236). -/
def State.awaitOld (s : State) (slow : Bool) (l : List Access) : State :=
  let t := (l.foldl (fun t x => t.markFlying x.reg (x.idx / 8)) s).sent
  if slow then t else t.ackTrains

/-- `vamo` (R236, R237). Elements with homes on other dies go by train (R104). -/
def execVamo (m : Bool) (v : VReg) (a : SReg) (b : VReg) (sp : Space) (sc : Scope) (o : Order) (s : State) : Result :=
  let rows := s.hart.vrow
  let et := s.hart.et
  let w := etWidth et
  .next (s.member (do vamoCheck vamoType m v a b sp; releaseCheck o sc) State.vlNow m
    (fun s => maskReads m ++ tileReads v.toNat rows w ++ s.indexReads (.indexed b)) (fun _ => 0)
    (fun lo hi _ s => s.unlessTrap lo (s.rnsTrap m v.toNat rows) (
      let r := resolveElems (s.active m) (List.range rows) (fun k => placeElem k sp a (.indexed b) v.toNat w) .atomic
        (spanList lo hi) s []
      let sent := s.sendable r.2.1 r.2.2
      let q := if o.acquires then s.answeredOf sent.1 sent.2 else sent
      let k := q.2.elim hi (·.1)
      let out := (byPosition rows s.hart.vl q.1).foldl (fun (p : State × List (Access × Nat)) x =>
        let v := s.elem x.reg w x.idx
        if s.swapsNow o x then
          let t := p.1.swapAccess x w s.hart.copOp et v
          (t.1, (x, t.2) :: p.2)
        else (p.1.swapSend x w s.hart.copOp et v, p.2)) (r.1, [])
      let t := out.2.foldl (fun t x => t.setElem x.1.reg w x.1.idx x.2) out.1
      let will := fun g => (spanList (max lo (8 * g)) (min s.vlNow (8 * g + 8))).any (s.active m)
      let t := (t.landTile v.toNat rows w lo k s.vlNow will).dirtyVIf (k ≠ lo)
      { done := t.awaitOld s.hart.slow (q.1.filter fun x => !s.swapsNow o x), stop := q.2 }))
    (fin := fun s => s.acquired o sc))

/-! ### `vrrs` (R238) -/

/-- The destination type of an AT; 31 where AT is reserved (R238). -/
def atType : Nat → Nat
  | 0 => 9 | 1 => 10 | 2 => 4 | 3 => 15 | 4 => 16 | _ => 31

/-- Whether `vrrs` accepts a source type and a block scale with an AT (R238). -/
def vrrsPair (at_ et sb : Nat) : Bool :=
  match at_ with
  | 0 => [9, 10, 11, 12, 13, 14].contains et
  | 1 => [9, 10, 11, 12, 13, 14].contains et
  | 2 => [0, 2, 4, 18].contains et && sb = 0
  | 3 => et = 15 && sb = 0
  | 4 => et = 16 && sb = 0
  | _ => false

/-- `vrrs` (R238). -/
def execVrrs (m : Bool) (v : VReg) (a : SReg) (sc : Scope) (o : Order) (s : State) : Result :=
  let rows := s.hart.vrow
  let et := s.hart.et
  let w := etWidth et
  let ta := atType s.hart.at_
  let wa := etWidth ta / 8
  let op := s.hart.copOp
  .next (s.member (do
      vectorCheck fun et => vrrsPair s.hart.at_ et s.hart.sb
      tileCheck v.toNat rows
      require (!o.acquires) cOrderModifier (word (orderCode o))
      require (op ≤ 3 || (op ≤ 6 && ta = 4)) cCollectiveConfig 0
      dataTrap m (maskReads m ++ s.scaleReads) fun s => s.scaleTrap m rows
      releaseCheck o sc) State.vlNow m
    (fun s => maskReads m ++ tileReads v.toNat rows w ++ s.scaleReads) (fun _ => 0)
    (fun lo hi _ s =>
      let first := s.x a + word (lo * wa)
      let misaligned := if first.toNat % wa = 0 then none else some ⟨cMisaligned, first, 0⟩
      s.scalesFirst m rows lo <| s.unlessTrap lo misaligned (
        let place := fun (k : Acc) (r e : Nat) => (do
          let n := r * s.hart.vl + e
          let spot ← spotAt k .global a wa (n * wa : Nat) 0 0
          pure { pos := n, elem := e, reg := v.toNat + r, idx := e, spot := spot } : M Access)
        let r := resolveElems (s.active m) (List.range rows) place .atomic (spanList lo hi) s []
        let q := s.sendable r.2.1 r.2.2
        let out := (byPosition rows s.hart.vl q.1).foldl (fun (t : State) x =>
          let k := if s.hart.sb = 0 then 0 else scaleExp (s.scaleByte (s.scaleIndex (x.reg - v.toNat) x.elem))
          t.accessWrite s.hart.slow x (8 * wa) 0 (.reduce op ta et (s.elem x.reg w x.idx) k)) r.1
        { done := out.sent, stop := q.2 })))

/-! ### Contributions to casks -/

/-- The active elements of a tile as contributions; the slot of an element is given by its row and number. A scale of
0xFF raises `SCALE_NAN` (R46, R128). -/
def State.contributions (s : State) (m : Bool) (v rows : Nat) (slot : Nat → Nat → Nat) (lo hi : Nat) :
    List Contribution :=
  let w := etWidth s.hart.et
  ((List.range rows).map fun r => ((spanList lo hi).filter (s.active m)).map fun e =>
    { slot := slot r e
      code := s.elem (v + r) w e
      scale := if s.hart.sb = 0 then 0 else scaleExp (s.scaleByte (s.scaleIndex r e)) }).flatten

/-- A train to a cask is refused when the replay window is exhausted (R105). -/
def trainCheck (l : Loc) : M Unit := do
  let s ← get
  let d := s.homeDie l
  checkM (!s.exhausted.contains d.1) (.trap ⟨cTrainNackLimit, epDie d.1 d.2, 0⟩)

/-- A contribution to a cask of one kind: the hart's own checks (R128), the release that a contribution is (R94), then the
home's (R118, R122, R239). A cause of the cask's configuration has `TVAL2` = `tv`. A reducing `vstc` is held to the cask's ET,
OP and WR as R128 holds `vrrsq`, since R135 says nothing of them (log 116). True when the home did not discard it. -/
def sendContribution (p : Word) (l : Loc) (kind code : Nat) (tv : Word) (e : Member) (count : Nat)
    (items : List Contribution) : M Bool := do
  let bad := Halt.trap ⟨code, p, tv⟩
  caskAccess p l
  let s ← get
  let h := s.header l
  checkM (s.copMatches h && count ≤ s.capacity l && !(h.wr = 1 && !etFloat h.et)) bad
  release (scopeOfCode e.scope)
  trainCheck l
  answered l
  modify fun s => s.noteDamage l
  let s ← get
  checkM (!s.caskBad l) (.trap ⟨cObjectDamaged, p, 0⟩)
  checkM (h.kind = kind && s.configOk l h) bad
  let r := (s.tidy l).contribute l e.index e.tag items
  set r.1
  checkM (!r.2) (.trap ⟨cObjectDamaged, p, 0⟩)
  pure ((s.tidy l).takes l e.index e.tag)

/-- What `vrrsq` does when it acts (R239, R436). -/
def contributeTile (m : Bool) (v : VReg) (a : SReg) (sc : Scope) (o : Order) : M Unit := do
  let s ← get
  let rows := s.hart.vrow
  let w := etWidth s.hart.et
  match s.landedStop m (maskReads m ++ tileReads v.toNat rows w ++ s.scaleReads) 0 s.vlNow with
  | some p => throw (.stall 3 p.2)
  | none => pure ()
  if o.releases then release sc
  let p := s.x a
  let l ← caskPlace p 0 .train
  match s.hart.entry l with
  | none => trapM cQuorumConfig p
  | some e =>
    match if s.hart.sb = 0 then none else s.scaleNan m rows 0 s.vlNow with
    | some i => trapM cScaleNan (word i) s.hart.pc
    | none => pure ()
    let _ ← sendContribution p l 3 cQuorumConfig 0 e (rows * s.hart.vl)
      (s.contributions m v.toNat rows (fun r e => r * s.hart.vl + e) 0 s.vlNow)

/-- `vrrsq` (R239): it has no positions of its own, and a trap of its own stops its convoy at `VL` (R436). -/
def execVrrsq (m : Bool) (v : VReg) (a : SReg) (sc : Scope) (o : Order) (s : State) : Result :=
  .next (s.member (do
      vectorCheck tyAny
      tileCheck v.toNat s.hart.vrow
      require (!o.acquires) cOrderModifier (word (orderCode o)))
    (fun _ => 0) m (fun _ => []) (fun _ => 0)
    (fun _ _ _ s => match (contributeTile m v a sc o).go s with
      | (.ok _, t) => { done := t }
      | (.error h, t) => { done := t, stop := some (s.vlNow, h) }) true)

/-! ### Collective-mode accesses (R135, R136, R233) -/

/-- The checks of a collective-mode access at issue (R135). -/
def collectiveCheck (b : SReg) : M Unit := do
  let s ← get
  require (s.hart.cm && s.groupOk && !(s.hart.copOp = 0 && b ≠ 0)) cCollectiveConfig 0

/-- One element of a collective-mode access: its own translation, and the members that its offset must reach. -/
def placeShared (k : Acc) (a : SReg) (members : List Nat) (v w r e : Nat) : M Access := do
  let x ← placeElem k .global a .unit v w r e
  match x.spot with
  | .home p => (match p.loc with
    | .glob pa => members.forM fun m => do
        let q := memberPlace m (offOf pa)
        reachable k q p.va (if k.isStore then .train else .answered)
        if k.reads then dataCheck { p with loc := .glob q } (elemBytes w)
    | .spad _ _ => pure ())
  | .lane _ => pure ()
  pure x

/-- The same access at a member of the group. -/
def Access.atMember (x : Access) (m : Nat) : Access :=
  match x.spot with
  | .home p => (match p.loc with
    | .glob pa => { x with spot := .home { p with loc := .glob (memberPlace m (offOf pa)) } }
    | .spad _ _ => x)
  | .lane _ => x

/-- The exact combination of the members' elements, rounded once under RNE (R135). A load does not check residues (R48).
Scales, on which R37 and R224 differ, are combined as the numbers that they stand for (log 117). -/
def combineShared (op et : Nat) (l : List Nat) : Nat × Nat :=
  if op = 0 then (l.headD 0, 0)
  else if cvI et then
    let w := etWidth et
    (l.tail.foldl (fun a x => match op with
      | 1 => (a + x) % 2 ^ w
      | 2 => if intOf et a < intOf et x then x else a
      | 3 => if intOf et x < intOf et a then x else a
      | 4 => a &&& x
      | 5 => a ||| x
      | _ => a ^^^ x) (l.headD 0), 0)
  else if etRns et then
    (l.tail.foldl (fun a x => match op with
      | 1 => rnsOp et (fun p q _ => p + q) a x 0
      | 2 => if rnsValue et a < rnsValue et x then x else a
      | _ => if rnsValue et x < rnsValue et a then x else a) (l.headD 0),
     0)
  else
    let vals := l.map (valueOf et)
    let c := vals.tail.foldl (fun (p : FVal × Nat) x =>
      let r := match op with
        | 1 => FVal.add false p.1 x
        | 2 => FVal.minMax true p.1 x
        | _ => FVal.minMax false p.1 x
      (r.1, p.2 ||| r.2)) (vals.headD (.fin false 0 0 false), 0)
    let r := toType et 0 0 false c.1
    (r.1, c.2 ||| r.2)

/-- `vldc` (R135, R233): faults follow R69, and an enabled flag of a reducing form stops it at its element (R44). -/
def execVldc (m : Bool) (v : VReg) (a b : SReg) (sc : Scope) (o : Order) (s : State) : Result :=
  let rows := s.hart.vrow
  let et := s.hart.et
  let w := etWidth et
  .next (s.member (do
      vectorCheck tyAny
      tileCheck v.toNat rows
      require (!o.releases) cOrderModifier (word (orderCode o))
      collectiveCheck b) State.vlNow m (fun _ => maskReads m) (fun _ => 0)
    (fun lo hi last s =>
      let op := s.hart.copOp
      let from_ := if op = 0 then s.hart.group.take 1 else s.hart.group
      let r := resolveElems (s.active m) (List.range rows) (fun k => placeShared k a from_ v.toNat w) .load (spanList lo hi) s []
      let silent := r.2.1.find? fun x => from_.any fun g => s.accessSilent (x.atMember g)
      let stop := silent.elim r.2.2 fun x => some (x.elem, .stall 12 0)
      let l := r.2.1.filter fun x => x.elem < stop.elim hi (·.1)
      let read := l.foldl (fun (t : State) x => from_.foldl (fun t g => match (x.atMember g).spot with
          | .home q => t.agree q.loc (elemBytes w)
          | .lane _ => t) t) r.1
      let value := fun (x : Access) => combineShared op et (from_.map fun g => read.accessRead (x.atMember g) w)
      let flagged := l.findSome? fun x => (flagCause s.hart.frm (value x).2).map fun c => (x.elem, .trap ⟨c, word x.elem, s.hart.pc⟩)
      let stop := flagged.elim stop some
      let k := stop.elim hi (·.1)
      let out := (l.filter fun x => x.elem < k).foldl (fun (p : State × Nat) x =>
        (p.1.setElem x.reg w x.idx (value x).1, p.2 ||| (value x).2)) (read, 0)
      let t := ((out.1.zeroMasked (s.active m) v.toNat rows w lo k).landTile v.toNat rows w lo k s.vlNow).raiseFlags out.2
      { done := (if last && stop.isNone then t.zeroTail v.toNat rows w s.vlNow else t).dirtyVIf (k ≠ lo), stop := stop })
    (fin := fun s => s.acquired o sc))

/-- SEQ of `COP`: stores of a group pass through its root (R106, R134). -/
def Hart.copSeq (h : Hart) : Bool := bit h.cop.toNat 6

/-- The accesses by which elements go to the same offset at every member: one for each member, or with SEQ = 1 one to the
root (R106). -/
def State.multicastTo (s : State) (l : List Access) : List Access :=
  if s.hart.copSeq then l.map fun x => x.atMember (s.hart.group.headD 0)
  else l.flatMap fun x => s.hart.group.map x.atMember

/-- A multicast of elements (R106, R135). Once the root has numbered a store it is applied at every member (log 91). -/
def State.multicast (s : State) (regs : State) (w : Nat) (l : List Access) : State :=
  let how := if regs.hart.copSeq then .spread regs.hart.group else .store
  (l.foldl (fun t x => t.accessWrite regs.hart.slow x w (regs.elem x.reg w x.idx) how) s).sent

/-- A member's chunk addresses are noted at a collective cask, the round deadline is made to be no later than that of the
contribution, and a round that is complete closes (R136). -/
def State.awaitChunks (s : State) (cask : Loc) (targets : List ChunkTarget) : State :=
  let kept := fun (c : ChunkTarget) => !targets.any fun t => t.member = c.member && t.slot = c.slot
  let s := s.modHome cask fun r => { r with chunks := r.chunks.filter kept ++ targets }
  let d := s.now.toNat + s.hart.defdl.toNat
  (s.setHome64 (cask.plus 16) (min d (s.roundDeadline cask))).settle cask

/-- The slot of the first element of a contribution of elements of `w` bits whose base lies at `pa` (R136). -/
def State.firstSlot (s : State) (w pa : Nat) : Nat :=
  let stride := s.hart.cstride.toNat
  offOf pa % (64 * stride) / stride * (stride / elemBytes w)

/-- The elements of a contribution, from slot `first` on. -/
def State.sharedItems (s : State) (w first : Nat) (l : List Access) : List Contribution :=
  l.map fun x => ⟨first + x.pos, s.elem x.reg w x.idx, 0⟩

/-- How many slots a contribution reaches. -/
def slotsUsed (items : List Contribution) : Nat := items.foldl (fun n i => max n (i.slot + 1)) 0

/-- Where member `index` wants the results of its elements (R136). -/
def State.chunkTargets (s : State) (w index first : Nat) (l : List Access) : List ChunkTarget :=
  let size := elemBytes w
  l.filterMap fun x => match x.spot with
    | .home q => (match q.loc with
      | .glob at_ =>
        some ⟨index, (first + x.pos) * size / s.hart.cstride.toNat % 64, first + x.pos, at_, size⟩
      | .spad _ _ => none)
    | .lane _ => none

/-- A contribution of elements to a collective round (R135, R136). `l` are the accesses of the elements. -/
def contributeShared (a b : SReg) (w : Nat) (l : List Access) : M Unit := do
  let s ← get
  let p := s.x b
  let own ← resolveVirtual s.ctx .store (s.x a) .train
  let cask ← caskPlace p 64 .train
  match s.hart.entry cask, own.loc with
  | none, _ => trapM cCollectiveConfig p s.hart.pc
  | _, .spad _ _ => trapM cCollectiveConfig p s.hart.pc
  | some e, .glob pa =>
    let first := s.firstSlot w pa
    let items := s.sharedItems w first l
    let taken ← sendContribution p cask 6 cCollectiveConfig s.hart.pc e (slotsUsed items) items
    if taken then modify fun t => t.awaitChunks cask (s.chunkTargets w e.index first l)

/-- `vstc` (R135, R233). -/
def execVstc (m : Bool) (v : VReg) (a b : SReg) (sc : Scope) (o : Order) (s : State) : Result :=
  let rows := s.hart.vrow
  let w := etWidth s.hart.et
  .next (s.member (do
      vectorCheck tyAny
      tileCheck v.toNat rows
      require (!o.acquires) cOrderModifier (word (orderCode o))
      collectiveCheck b
      releaseCheck o sc) State.vlNow m (fun _ => maskReads m ++ tileReads v.toNat rows w) (fun _ => 0)
    (fun lo hi _ s =>
      let copy := s.hart.copOp = 0
      let r := resolveElems (s.active m) (List.range rows)
        (fun k => placeShared k a (if copy then s.hart.group else []) v.toNat w) .store (spanList lo hi) s []
      let l := byPosition rows s.hart.vl r.2.1
      if copy then
        let q := s.sendable (s.multicastTo l) r.2.2
        { done := r.1.multicast s w q.1, stop := q.2 }
      else if l = [] then { done := r.1, stop := r.2.2 }
      else match (contributeShared a b w l).go r.1 with
        | (.ok _, t) => { done := t, stop := r.2.2 }
        | (.error h, t) => { done := t, stop := some (lo, h) }))

end Sys2Proof.Machine
end

