-- ==== Sys2Proof/Machine/Matrix.lean ====
section
/-! DEFINITION. MXL and MXA: tile registers and the matrix engine (R50, R51, R247 to R258). -/

namespace Sys2Proof.Machine

/-! ### MXL (R251 to R253) -/

/-- Unit `j` of the image of a tile, with the checks of one element access (R226, R251). -/
def placeTile (k : Acc) (a : SReg) (t : BitVec 2) (j : Nat) : M Access := do
  let s ← get
  let q ← resolve s.ctx k (s.x a + word (64 * j)) 64 64 (if k.isStore then .train else .answered)
  allow s.ctx k q 64
  if k.reads then dataCheck q 64
  pure { pos := j, elem := j, reg := t.toNat, idx := j, spot := .home q }

/-- The units of a list in ascending order, and the first stop (R69). -/
def resolveUnits (k : Acc) (a : SReg) (t : BitVec 2) (js : List Nat) (s : State) :
    State × List Access × Option (Nat × Halt) :=
  resolveElems (fun _ => true) [0] (fun k _ j => placeTile k a t j) k js s []

/-- A tile as a load leaves it at issue (R249, R251): TET and TSB are set, the scales that the image has no bytes for
become 0x7F, and so do the elements that it has no bytes for become zero. -/
def Tile.issue (t : Tile) (et tsb : Nat) : Tile :=
  let z := tileBytes et
  let n := scaleBytes et tsb
  { data := splice t.data (8 * z) (8 * (16384 - z)) 0
    scl := splice t.scl (8 * n) (8 * (2048 - n)) (ones7F (2048 - n))
    tet := et
    tsb := tsb }

/-- A unit read into its tile, once it agrees with what the hart has under way (R83). -/
def State.readUnit (s : State) (t : BitVec 2) (a : Access) : State :=
  let s := match a.spot with
    | .home q => s.agree q.loc 64
    | .lane _ => s
  s.setTile t ((s.tile t).setUnit a.idx (leNat (s.spotBytes a.spot 64)))

/-- A tile load asks again for units: what earlier requests have not answered of them is dropped (R348). -/
def State.supersedeUnits (s : State) (t : BitVec 2) (l : List Access) : State :=
  let again := fun (r : Reassembly) => if r.width = 6 && r.reg = t.toNat then r.without fun n => l.any fun a => a.pos = n else r
  { s with hart.reassembly := (s.hart.reassembly.map again).filter fun r => r.mask ≠ 0 }

/-- A tile load (R251). It waits for every unit, since nothing else tells a reader of the tile that one has come
(log 124). -/
def State.tileLoad (s : State) (a : SReg) (t : BitVec 2) (own : M Unit) : State :=
  let et := s.hart.et
  let tsb := s.hart.sbCode
  s.member (do vectorCheck (mxInput tsb) (matrix := true); own) (fun _ => tileUnits et tsb) false (fun _ => [])
    (fun _ => 0) (fun lo hi _ s =>
      let s := s.setTile t ((s.tile t).issue et tsb)
      let r := resolveUnits .load a t (spanList lo hi) s
      let q := s.answeredOf r.2.1 r.2.2
      let d := q.1.foldl (fun u x => u.readUnit t x) (r.1.supersedeUnits t q.1)
      let more := resolveUnits .load a t
        (if q.2.isSome then [] else spanList hi (min (tileUnits et tsb) (hi + s.outstanding))) d
      { done := if more.2.1 = [] then d
          else more.1.leave 512 ((q.1 ++ more.2.1).filterMap (Access.request s false)) fun p => p < hi
        stop := q.2 }) true

/-- `tld` (R251). -/
def execTld (a : SReg) (t : BitVec 2) (s : State) : Result := .next (s.tileLoad a t (pure ()))

/-- `tldg` (R252): at the issuing hart, the effect of `tld`. `TVAL2` of `MULTICAST_GROUP` is 0 (R342; log 90). -/
def execTldg (a b : SReg) (t : BitVec 2) (s : State) : Result :=
  let m := s.x b
  let own := clusterBase s.hart.core
  .next (s.tileLoad a t (do
    checkM (bits m 63 12 = 0 && bitOf m (s.hart.core % 12)) (.trap ⟨cMulticastGroup, m, 0⟩)
    checkM (bitOf (s.x a) 63) (.trap ⟨cMulticastGroup, s.x a, 0⟩)
    match (List.range 12).find? fun i => bitOf m i && !s.part.cores.contains (own + i) with
    | none => pure ()
    | some i => memberTrap cScratchCore (word (splice (s.x a).toNat 21 4 i))))

/-- `TILE_SHAPE` (R250). -/
def shapeCheck (t : BitVec 2) (ok : Bool) (reason : Nat) : M Unit :=
  require ok cTileShape (word (reason + t.toNat * 2 ^ 8))

/-- `tst` (R251). -/
def execTst (a : SReg) (t : BitVec 2) (s : State) : Result :=
  let x := s.tile t
  .next (s.member (do vectorCheck tyAny (matrix := true); shapeCheck t (x.tet ≠ 31) 2)
    (fun _ => tileUnits x.tet x.tsb) false (fun _ => []) (fun _ => 0) fun lo hi _ s =>
      let r := resolveUnits .store a t (spanList lo hi) s
      let q := s.sendable r.2.1 r.2.2
      { done := (q.1.foldl (fun u y => u.accessWrite s.hart.slow y 512 (x.unit y.idx)) r.1).sent, stop := q.2 })

/-- A member that writes a whole tile in one step: it has no positions, and acts in every run of its convoy (R253). -/
def State.tileMember (s : State) (checks : M Unit) (f : State → State) : State :=
  s.member checks State.vlNow false (fun _ => []) (fun _ => 0) (fun _ _ _ s => { done := f s }) true

/-- `tclr` (R253). -/
def execTclr (t : BitVec 2) (s : State) : Result :=
  .next (s.tileMember (vectorCheck (mxInput s.hart.sbCode) (matrix := true)) fun s =>
    s.setTile t ⟨0, ones7F 2048, s.hart.et, s.hart.sbCode⟩)

/-- `tmv` (R253). -/
def execTmv (src t : BitVec 2) (s : State) : Result :=
  .next (s.tileMember (do vectorCheck tyAny (matrix := true); shapeCheck src ((s.tile src).tet ≠ 31) 2) fun s =>
    s.setTile t (s.tile src))

/-! ### Row times tile (R51, R254 to R256) -/

/-- An input element as the engine reads it: its exact value times its scale, and SAT where a clamp changed it (R50,
R256). `ta` is the accumulate type. -/
def mxValue (ta et x : Nat) (k : Int) : FVal × Nat :=
  if et = 18 && ta = 15 && x = 8 then (.fin true 7 0 false, fSAT) else ((valueOf et x).scale k, 0)

/-- The exact sum of the products of one chunk, with the flags that IEEE arithmetic raises (R51). Beside infinities of both
signs, a NaN product may hide their NV: the products are taken in ascending k, since R51 gives no order (log 93). -/
def chunkSum : List ((FVal × Nat) × (FVal × Nat)) → FVal × Nat
  | [] => (.fin false 0 0 false, 0)
  | p :: ps =>
    let f := fun (q : (FVal × Nat) × (FVal × Nat)) =>
      let r := FVal.mul q.1.1 q.2.1
      (r.1, r.2 ||| q.1.2 ||| q.2.2)
    ps.foldl (fun a q =>
      let y := f q
      let z := FVal.add false a.1 y.1
      (z.1, a.2 ||| y.2 ||| z.2)) (f p)

/-- The integer that an exact value without a fraction is. -/
def FVal.toInt : FVal → Int
  | .fin n m e _ => unitsOf n m e 0
  | _ => 0

/-- One addition to an accumulator of type `ta`: the chunk is rounded once under RNE, the sum under `rm` (R51). -/
def accumulate (ta rm l acc : Nat) (c : FVal × Nat) : Nat × Nat :=
  if etFloat ta then
    let f := fmtOf ta
    let y := f.round 0 0 false c.1 c.2
    let z := FVal.add (rm == 2) (f.decode acc) (f.decode y.1)
    let r := f.round rm l false z.1 z.2
    (r.1, y.2 ||| r.2)
  else if etRns ta then (rnsOp ta (fun p q _ => p + q) acc (rnsOfInt ta c.1.toInt) 0, c.2)
  else (wrap 32 (acc + c.1.toInt), c.2)

/-- A row of accumulators under way: their codes with their flags, and the LFSR. -/
structure Accumulators where
  lfsr : Nat
  acc : List (Nat × Nat)

/-- One chunk added to a row of accumulators, columns ascending; under SR the LFSR steps at each (R51). -/
def addChunk (ta rm : Nat) (x : Nat → FVal × Nat) (t : Nat → Nat → FVal × Nat) (a : Accumulators) (es : List Nat) :
    Accumulators :=
  if es = [] then a
  else (enum a.acc).foldl (fun b p =>
    let r := accumulate ta rm b.lfsr p.2.1 (chunkSum (es.map fun e => (x e, t e p.1)))
    { lfsr := if rm = 5 && etFloat ta then lfsrStep b.lfsr else b.lfsr
      acc := b.acc ++ [(r.1, p.2.2 ||| r.2)] }) ⟨a.lfsr, []⟩

/-- The active elements below `n` in chunks of 32 (R51). -/
def State.chunks (s : State) (m : Bool) (n : Nat) : List (List Nat) :=
  (List.range (ceilDiv n 32)).map fun c => (spanList (32 * c) (min n (32 * c + 32))).filter (s.active m)

/-- The lowest tile scale byte of 0xFF that is read for an active element (R256). -/
def State.tileNan (s : State) (t : Tile) (m : Bool) (rows n : Nat) (idx : Nat → Nat → Nat) : Option Nat :=
  let hits := (List.range rows).flatMap fun r => ((List.range n).filter (s.active m)).flatMap fun e =>
    ((List.range 64).map fun j => idx r e / max 1 (sbSize t.tsb) * 64 + j).filter fun i => t.scale i = 0xFF
  hits.min?

/-- The product of rows and a tile (R254, R255): `idx r e` is the tile row that meets element `e` of row `r`. -/
def State.rowsTimesTile (s : State) (m : Bool) (d a : Nat) (t : BitVec 2) (n : Nat) (idx : Nat → Nat → Nat) : Pass :=
  let h := s.hart
  let rows := h.vrow
  let et := h.et
  let w := etWidth et
  let ta := atType h.at_
  let wa := etWidth ta
  let rm := frmRM h.frm
  let x := s.tile t
  let scaled := h.sb ≠ 0
  let stop := fun (c : Nat) (v : Word) => ({ done := s, stop := some (h.vstart, .trap ⟨c, v, h.pc⟩) } : Pass)
  match (List.range rows).findSome? fun r => ((List.range n).filter (s.active m)).findSome? fun e =>
      if tileRows et ≤ idx r e then some (r * h.vl + e) else none with
  | some i => stop cIndexRange (word i)
  | none =>
    match if scaled then s.scaleNan m rows 0 n else none with
    | some i => stop cScaleNan (word i)
    | none =>
      match if scaled then s.tileNan x m rows n idx else none with
      | some i => stop cScaleNan (word (2 ^ 63 + i))
      | none =>
        let xs := fun (r e : Nat) => mxValue ta et (s.elem (a + r) w e)
          (if scaled then scaleExp (s.scaleByte (s.scaleIndex r e)) else 0)
        let ts := fun (r e j : Nat) => mxValue ta et (x.elem w (idx r e) j)
          (if scaled then scaleExp (x.scale (idx r e / max 1 (sbSize x.tsb) * 64 + j)) else 0)
        let out := (List.range rows).foldl (fun (p : Nat × List (List (Nat × Nat))) r =>
          let old := (List.range 64).map fun j =>
            let c := s.elem (d + r) wa j
            if etRns ta then (rnsOp ta (fun p _ _ => p) c 0 0, rnsFlag ta c) else (c, 0)
          let q := (s.chunks m n).foldl (addChunk ta rm (xs r) (ts r)) ⟨p.1, old⟩
          (q.lfsr, p.2 ++ [q.acc])) (h.srseed.toNat, [])
        match (enum out.2.flatten).findSome? fun p => (flagCause h.frm p.2.2).map fun c => (p.1, c) with
        | some (i, c) => stop c (word i)
        | none =>
          let fl := out.2.flatten.foldl (fun f p => f ||| p.2) 0
          let s' := (enum out.2).foldl (fun u p =>
            let y := (enum p.2).foldl (fun y q => setElemOf y wa q.1 q.2.1) (u.reg (d + p.1))
            let u := u.setReg (d + p.1) y
            if h.tp then u.zeroFrom (d + p.1) (64 * wa) else u) s
          { done := ({ s' with hart.srseed := .ofNat 32 out.1 }.raiseFlags fl).dirtyV }

/-- The checks that an MXA instruction makes of its tile, in the order of the reasons (R250). -/
def mxShape (t : BitVec 2) : M Unit := do
  let s ← get
  let x := s.tile t
  shapeCheck t (s.hart.vl ≤ tileRows s.hart.et) 1
  shapeCheck t (x.tet = s.hart.et) 2
  shapeCheck t (x.tsb = s.hart.sbCode) 3

/-- The types that MXA accepts (R248). -/
def mxTypes (h : Hart) (et : Nat) : Bool := mxInput h.sbCode et && mxPair h.at_ et

/-- What a matrix instruction reads of its accumulators. -/
def accReads (d rows wa : Nat) : Reads :=
  (List.range rows).flatMap fun r => (List.range 64).map fun j => (fun _ => (d + r, j * wa), true)

/-- `vmxa` (R254). -/
def execVmxa (m : Bool) (d a : VReg) (t : BitVec 2) (s : State) : Result :=
  let rows := s.hart.vrow
  let w := etWidth s.hart.et
  .next (s.wholeMember (do
      vectorCheck (mxTypes s.hart) (matrix := true)
      tileCheck d.toNat rows
      tileCheck a.toNat rows
      mxShape t) m
    (fun s => maskReads m ++ tileReads a.toNat rows w ++ s.scaleReads
      ++ accReads d.toNat rows (etWidth (atType s.hart.at_)))
    fun _ hi s => if hi = 0 then { done := s } else s.rowsTimesTile m d.toNat a.toNat t hi fun _ e => e)

/-- Index X(r, e) of a tile of 16-bit indexes (R255). -/
def State.rowIndex (s : State) (i w r e : Nat) : Nat :=
  let c := max 1 (s.maxBits / 16)
  s.elem (i + r * max 1 (16 / max 1 w) + e / c) 16 (e % c)

/-- `vmxs` (R255). -/
def execVmxs (m : Bool) (d a i : VReg) (t : BitVec 2) (s : State) : Result :=
  let rows := s.hart.vrow
  let w := etWidth s.hart.et
  let q := max 1 (16 / max 1 w)
  let c := max 1 (s.maxBits / 16)
  .next (s.wholeMember (do
      vectorCheck (mxTypes s.hart) (matrix := true)
      tileCheck d.toNat rows
      tileCheck a.toNat rows
      tileCheck i.toNat (rows * q)
      mxShape t) m
    (fun s => maskReads m ++ tileReads a.toNat rows w ++ s.scaleReads
      ++ accReads d.toNat rows (etWidth (atType s.hart.at_))
      ++ (List.range rows).map fun r => (fun e => (i.toNat + r * q + e / c, e % c * 16), false))
    fun _ hi s => if hi = 0 then { done := s }
      else s.rowsTimesTile m d.toNat a.toNat t hi (s.rowIndex i.toNat w))

/-! ### Rank-one products (R257) -/

/-- A tile under `tout`: its DATA, the LFSR, and the flags of the elements that raised any. -/
structure Rank where
  data : Nat
  lfsr : Nat
  flags : List (Nat × Nat) := []

/-- One element of `tout`: T + x × y in the tile's type, with one rounding (R257). -/
def rankOne (frm : BitVec 15) (ta et l old x y : Nat) : Nat × Nat :=
  let a := mxValue ta et x 0
  let b := mxValue ta et y 0
  if cvI et then (wrap (etWidth et) (intOf et old + a.1.toInt * b.1.toInt), a.2 ||| b.2)
  else
    let f := fmtOf et
    let r := FVal.fma (frmRM frm == 2) a.1 b.1 (f.decode old)
    f.round (frmRM frm) l (frmSATN frm && et == 13) r.1 r.2

/-- `tout` (R257): rows, then the tile rows that the mask lets through, then columns. -/
def State.rank (s : State) (m : Bool) (a i : Nat) (t : BitVec 2) (n : Nat) : Rank :=
  let h := s.hart
  let et := h.et
  let w := etWidth et
  (List.range h.vrow).foldl (fun q r => ((List.range n).filter (s.active m)).foldl (fun q k =>
    (List.range 64).foldl (fun q j =>
      let p := k * 64 + j
      let c := rankOne h.frm (atType h.at_) et q.lfsr (elemOf q.data w p) (s.elem (a + r) w k) (s.elem (i + r) w j)
      { data := setElemOf q.data w p c.1
        lfsr := if frmRM h.frm = 5 && !cvI et then lfsrStep q.lfsr else q.lfsr
        flags := if c.2 = 0 then q.flags else q.flags ++ [(p, c.2)] }) q) q)
    { data := (s.tile t).data, lfsr := h.srseed.toNat }

/-- `tout` (R257). -/
def execTout (m : Bool) (a i : VReg) (t : BitVec 2) (s : State) : Result :=
  let rows := s.hart.vrow
  let w := etWidth s.hart.et
  .next (s.wholeMember (do
      vectorCheck (fun et => mxTypes s.hart et && s.hart.sb = 0) (matrix := true)
      tileCheck a.toNat rows
      tileCheck i.toNat rows
      mxShape t) m
    (fun _ => maskReads m ++ tileReads a.toNat rows w ++ accReads i.toNat rows w)
    fun _ hi s =>
      let q := s.rank m a.toNat i.toNat t hi
      let hits := q.flags.filter fun p => (flagCause s.hart.frm p.2).isSome
      match (hits.map (·.1)).min? with
      | some p =>
        let fl := (q.flags.filter fun x => x.1 = p).foldl (fun f x => f ||| x.2) 0
        { done := s, stop := some (s.hart.vstart, .trap ⟨(flagCause s.hart.frm fl).getD 0, word p, s.hart.pc⟩) }
      | none =>
        if hi = 0 then { done := s }
        else
          let s' := s.setTile t { s.tile t with data := q.data }
          let u := ({ s' with hart.srseed := .ofNat 32 q.lfsr } : State)
          { done := u.raiseFlags (q.flags.foldl (fun f x => f ||| x.2) 0) })

end Sys2Proof.Machine
end

