-- ==== Sys2Proof/Machine/System.lean ====
section
/-! DEFINITION. The miscellaneous SYS functions (R178, R330 to R338): system calls and returns, translation invalidation,
whole-state save and restore, parking, lane grants and pre-emption requests. -/

namespace Sys2Proof.Machine

/-! ### Calls and returns (R178, R331) -/

/-- `ecall` (R178). -/
def execEcall (s : State) : Result := .next (s.raise ⟨if s.hart.priv = .user then 8 else 9, 0, 0⟩)

/-- `ebreak` (R178). -/
def execEbreak (s : State) : Result := .next (s.raise ⟨10, 0, 0⟩)

/-- `eret` (R331). -/
def execEret (s : State) : Result := .next s.returnFromTrap

/-! ### `tlbi` and `tlbia` (R332) -/

/-- What another hart has under way is performed as far as homes answer. -/
def State.settleAs (s : State) (n : Nat) : State :=
  let me := s.hart.id
  (s.switchTo n).drain.landLate.ackTrains.landOwn.switchTo me

/-- The other harts' stores leave their buffers, and the homes that answer apply what is on its way. -/
def State.settleOthers (s : State) : State :=
  let me := s.hart.id
  let s := (s.others.map (·.1)).foldl (fun s n => if n = me then s else s.settleAs n) s
  let live := fun (p : Posted) => (s.flushFails (epOf p.pa)).isNone
  let t := (s.posted.filter live).foldl (fun t p => t.applyPosted p) s
  { t with posted := s.posted.filter fun p => !live p }

/-- Accesses of the other harts that are still to be performed (R332). -/
def State.othersPending (s : State) : Nat :=
  (s.others.map fun p => p.2.awaited).sum + (s.posted.filter fun p => p.hart ≠ s.hart.id).length
    + ((s.trains.filter fun t => t.hart.isSome && t.hart ≠ some s.hart.id).map fun t => t.items.length + t.applied).sum

/-- Whether a selector names a cached translation (R332): its page and its ASID, a translation for every ASID with any of
them (R364). -/
def State.selects (s : State) (sel : Word) (t : Cached) : Bool :=
  (bitOf sel 15 || bit t.leaf 5 || t.asid = s.part.asidBase + bits sel 12 0)
    && (bitOf sel 14 || (t.page ≤ bits sel 54 16 * 65536 && bits sel 54 16 * 65536 < t.page + t.size))

/-- The selected translations are held no more, and pages that no leaf maps as tagged any more are not tagged (R66, R332).
-/
def State.forget (s : State) (sel : Word) : State :=
  { s with cached := s.cached.filter fun t => !s.selects sel t, tagged := s.tagged.filter s.mapsTagged }

/-- `tlbi` and `tlbia` (R332): earlier accesses are performed, the translations go, and what used them is performed. -/
def invalidate (sel : Word) : M Unit := do
  modify fun s => s.settleOthers.forget sel
  fenceStores 7 true State.othersPending

/-- `tlbi` (R332). -/
def execTlbi (a : SReg) (s : State) : Result := .next (s.runM (invalidate (s.x a)) fun _ t => t.advance)

/-- `tlbia` (R332). -/
def execTlbia (s : State) : Result := .next (s.runM (invalidate 0xC000) fun _ t => t.dropL1.advance)

/-! ### Save areas (R333, R334) -/

/-- The parts of an area of `n` bytes that lie in one 64 KiB page each; a scratchpad area is one part. -/
def areaParts (p : Word) (n : Nat) : List (Word × Nat) :=
  if bitOf p 63 then [(p, n)]
  else
    let o := p.toNat % 65536
    (List.range (ceilDiv (o + n) 65536)).map fun i =>
      let lo := i * 65536 - o
      (p + word lo, min n ((i + 1) * 65536 - o) - lo)

/-- An area resolved before anything is read or written (R165, R333). -/
def areaPlaces (k : Acc) (p : Word) (n : Nat) : M (List (Phys × Nat)) := do
  checkM (p.toNat % 64 = 0) (.trap ⟨cMisaligned, p, 0⟩)
  (areaParts p n).mapM fun q => do
    let s ← get
    let x ← resolve s.ctx k q.1 q.2 1 .answered
    allow s.ctx k x q.2
    if k.reads then dataCheck x q.2
    answered x.loc
    modify fun s => s.agree x.loc q.2
    pure (x, q.2)

/-- The bytes of an area. -/
def State.areaRead (s : State) (l : List (Phys × Nat)) : List Byte := (l.map fun q => s.homeRead q.1.loc q.2).flatten

/-- Bytes stored to an area. -/
def State.areaWrite (s : State) : List (Phys × Nat) → List Byte → State
  | [], _ => s
  | q :: l, bs => (s.homeStore q.1.loc (bs.take q.2) (.hart s.hart.id)).areaWrite l (bs.drop q.2)

/-! ### `vsvall` and `vrsall` (R333) -/

/-- NRc, G, P and B of a save area (R333). -/
structure Geometry where
  regs : Nat
  groups : Nat
  bits : Nat
  bytes : Nat

/-- The geometry of a hart's registers for a grant and a `MAXVL`. -/
def geometry (groups maxvl : Nat) (h : Hart) : Geometry :=
  let g := if groups = 0 then 0 else ceilDiv maxvl 8
  ⟨h.declared, g, ceilDiv g 512 * 64, widthBits groups h / 8⟩

/-- The size of a save area. -/
def Geometry.size (g : Geometry) : Nat := 0x100 + g.regs * (g.bits + g.bytes)

/-! ### Context areas (R326, R327) -/

/-- Base of the context area that `CTXAREA` names (R326). -/
def Hart.area (h : Hart) : Nat := bits h.ctxarea 56 13 * 8192

/-- Where descriptor `i`, its data, and parked membership entry `j` lie (R326). -/
def descAt (area i : Nat) : Nat := area + 0x240 + 32 * i
def slotAt (area i : Nat) : Nat := area + 0x800 + 256 * i
def parkAt (area j : Nat) : Nat := area + 0x40 + 64 * j

/-- A doubleword of a context area. -/
def State.areaDw (s : State) (a : Nat) : Nat := s.home64 (.glob a)

/-- Descriptor `i` of a context area, and whether its response has arrived. -/
def State.descriptor (s : State) (area i : Nat) : Reassembly × Bool :=
  let q := fun j => s.areaDw (descAt area i + 8 * j)
  ({ place := i, reg := field (q 0) 4 0, width := field (q 0) 10 8, first := q 1, mask := .ofNat 64 (q 2), seq := q 3, ep := 0,
     die := 0 }, bit (q 0) 62)

/-- The descriptors that PARKINFO names in a context area, each with whether its response has arrived and its number (R327,
R336). -/
def State.descriptors (s : State) (area : Nat) : List ((Reassembly × Bool) × Nat) :=
  ((List.range 16).filter fun i => bit (s.areaDw (area + 8)) i).map fun i => (s.descriptor area i, i)

/-- A register with a clear group, but for groups that belong only to parked reassembly entries (R79, R333). -/
def State.unlanded (s : State) : Option Nat :=
  let w := etWidth s.hart.et
  let parked := if s.hart.status.parked then (s.descriptors s.hart.area).map (·.1.1) else []
  let known := fun (n g : Nat) =>
    let mine := fun (r : Reassembly) => r.width ≠ 6 && r.reg = n && (r.groups s.maxBits w).contains g
    parked.any mine && !s.hart.reassembly.any mine
  (List.range s.hart.declared).find? fun n =>
    let f := s.hart.flying.toList.getD n 0
    f ≠ 0 && (List.range (msb f + 1)).any fun g => bit f g && !known n g

/-- What `vsvall` writes. -/
def State.saveImage (s : State) (g : Geometry) : List Byte :=
  let h := s.hart
  let head := [h.vl, h.vtype.toNat, h.vrow, h.vstart, h.vcthr, s.vlg, h.lcnt.toNat, h.lbeg.toNat, h.lend.toNat]
  (head.map fun x => leBytes x 8).flatten ++ List.replicate (0x100 - 0x48) 0
    ++ ((List.range g.regs).map fun r =>
        leBytes (without (2 ^ g.groups - 1) (h.flying.toList.getD r 0)) g.bits).flatten
    ++ ((List.range g.regs).map fun r => leBytes (s.reg r) g.bytes).flatten

/-- `vsvall` (R333). -/
def execVsvall (d a : SReg) (s : State) : Result :=
  let g := geometry s.vlg s.hart.maxvl s.hart
  .next (s.runM (do
    modify State.landOwn
    match (← get).unlanded with
    | some r => throw (.stall 3 r)
    | none => pure ()
    let l ← areaPlaces .store (s.x a) g.size
    modify fun t => t.areaWrite l (t.saveImage g)) fun _ t =>
      let vs := if t.hart.status.vs = .dirty then Lazy.clean else t.hart.status.vs
      (({ t with hart.status.vs := vs }).setX d (word g.size)).advance)

/-- Doubleword `i` of a list of bytes. -/
def dwordAt (bs : List Byte) (i : Nat) : Nat := leNat ((bs.drop (8 * i)).take 8)

/-- Bytes from `o` on, as a number. -/
def bytesAt (bs : List Byte) (o n : Nat) : Nat := leNat ((bs.drop o).take n)

/-- The vector state that a save area holds, in the order of R333. -/
def State.restoreImage (s : State) (bs : List Byte) : State :=
  let vt := word (dwordAt bs 1)
  let s := ({ s with hart.vtype := vt }).remax
  let g := geometry s.vlg s.hart.maxvl s.hart
  let data := 0x100 + g.regs * g.bits
  let s := { s with
    hart.v := Vector.ofFn fun r => if r.val < g.regs then bytesAt bs (data + r * g.bytes) g.bytes else 0
    hart.flying := Vector.ofFn fun r =>
      if r.val < g.regs then without (2 ^ g.groups - 1) (bytesAt bs (0x100 + r * g.bits) g.bits) else 0 }
  let s := { s with hart.vl := min (dwordAt bs 0 % 2 ^ 32) s.hart.maxvl }
  let s := s.storeVrow (dwordAt bs 2)
  let s := { s with
    hart.vcthr := dwordAt bs 4 % 2 ^ 32
    hart.lcnt := word (dwordAt bs 6)
    hart.lbeg := keep (word (dwordAt bs 7)) 0xFFFFFFFFFFFFFFFC
    hart.lend := keep (word (dwordAt bs 8)) 0xFFFFFFFFFFFFFFFD }
  { s with
    hart.vstart := dwordAt bs 3 % 2 ^ 32
    hart.status.vs := .clean }

/-- `vrsall` (R333). -/
def execVrsall (a : SReg) (s : State) : Result :=
  .next (s.runM (do
    let l ← areaPlaces .load (s.x a) 0x100
    let head := (← get).areaRead l
    let n := dwordAt head 5
    checkM (n = s.vlg) (.trap ⟨cLaneGrantLost, word n, s.hart.pc⟩)
    let h := { s.hart with vtype := word (dwordAt head 1) }
    let l ← areaPlaces .load (s.x a) (geometry s.vlg (maxvlOf s.vlg h) h).size
    pure ((← get).areaRead l)) fun bs t => (t.restoreImage bs).advance)

/-! ### `tsvall` and `trsall` (R334) -/

/-- Bytes of a tile save area, and of one tile in it. -/
abbrev tileArea : Nat := 73792
abbrev tileStride : Nat := 18432

/-- `tsvall` (R334). -/
def execTsvall (a : SReg) (s : State) : Result :=
  .next (s.runM (do
    let l ← areaPlaces .store (s.x a) tileArea
    let ts := (← get).hart.tile.toList
    modify fun t => t.areaWrite l ((ts.map fun t => BitVec.ofNat 8 (t.tet % 32 + t.tsb % 4 * 32))
      ++ List.replicate 60 0 ++ (ts.map fun t => leBytes t.data 16384 ++ leBytes t.scl 2048).flatten))
    fun _ t => ({ t with hart.status.ts := .clean }).advance)

/-- `trsall` (R334). -/
def execTrsall (a : SReg) (s : State) : Result :=
  .next (s.runM (do
    let l ← areaPlaces .load (s.x a) tileArea
    pure ((← get).areaRead l)) fun bs t =>
      ({ t with
        hart.tile := Vector.ofFn fun k =>
          let b := (bs.getD k.val 0).toNat
          let o := 64 + k.val * tileStride
          ⟨bytesAt bs o 16384, bytesAt bs (o + 16384) 2048, b % 32, b / 32 % 4⟩
        hart.status.ts := .clean }).advance)

/-! ### `rapark` and `rarestore` (R326, R327, R335, R336) -/

/-- A place as a parked entry names it (R327). -/
def parkedPlace : Loc → Nat
  | .glob pa => 2 ^ 63 + pa % 2 ^ 57
  | .spad c o => 2 ^ 63 + 2 ^ 62 + c * 2 ^ 21 + o

/-- The place that a parked entry names (R327). -/
def placeOfParked (x : Nat) : Loc := if bit x 62 then .spad (field x 29 21) (field x 20 0) else .glob (field x 56 0)

/-- The 64 bytes of a parked membership entry (R327). -/
def Member.image (m : Member) : List Byte :=
  let slot := match m.slot with
    | some r => [r.status.toNat, 2 ^ 63 + r.tag % 2 ^ 48, if m.n ≤ 64 then r.absent else 0]
    | none => [0, 0, 0]
  (([parkedPlace m.cask, m.index % 2 ^ 16 + m.arrived.toNat * 2 ^ 16 + m.scope % 8 * 2 ^ 17 + m.n % 2 ^ 16 * 2 ^ 20,
    m.tag % 2 ^ 48, m.gen % 2 ^ 32] ++ slot ++ [m.mend.elim 0 fun t => 2 ^ 63 + t % 2 ^ 48]).map
      fun x => leBytes x 8).flatten

/-- The membership entry that a parked one holds (R327). -/
def memberOf (place : Nat) (bs : List Byte) : Member :=
  let q := dwordAt bs
  { place := place
    cask := placeOfParked (q 0)
    index := field (q 1) 15 0
    tag := field (q 2) 47 0
    gen := field (q 3) 31 0
    arrived := bit (q 1) 16
    scope := field (q 1) 19 17
    n := field (q 1) 35 20
    slot := if bit (q 5) 63 then some ⟨word (q 4), field (q 5) 47 0, q 6⟩ else none
    mend := if bit (q 7) 63 then some (field (q 7) 47 0) else none }

/-- The 32 bytes of a parked reassembly descriptor (R327). -/
def Reassembly.image (r : Reassembly) : List Byte :=
  ([2 ^ 63 + r.width * 2 ^ 8 + r.reg, r.first, r.mask.toNat, r.seq].map fun x => leBytes x 8).flatten

/-- `rapark` once it may proceed (R335). -/
def State.park (s : State) : State :=
  let h := s.hart
  let area := h.area
  let s := h.reassembly.foldl (fun s r => s.homeSet (.glob (descAt area r.place)) r.image) s
  let s := h.members.foldl (fun s m => s.homeSet (.glob (parkAt area m.place)) m.image) s
  let info := (h.reassembly.map fun r => 2 ^ r.place).sum + (h.members.map fun m => 2 ^ (32 + m.place)).sum
  let s := s.setHome64 (.glob (area + 8)) info
  { s with
    hart.redirects := h.redirects ++ h.reassembly.map fun r => ⟨r.seq, area, r.place, r⟩
    hart.parked := (h.parked.filter fun p => p.area ≠ area) ++ h.members.map fun m => ⟨m.cask, area, m.place⟩
    hart.reassembly := []
    hart.members := []
    hart.status.parked := true }

/-- `rapark` (R335). -/
def execRapark (s : State) : Result :=
  .next (s.runM (do
    checkM (bitOf s.hart.ctxarea 0) (.trap ⟨21, 0, 0⟩)
    checkM (s.hart.redirects.length + s.hart.reassembly.length ≤ 64) (.stall 8 0)) fun _ t => t.park.advance)

/-- Every hart, as `f` makes it. -/
def State.modHarts (s : State) (f : Hart → Hart) : State := (s.harts.map (·.id)).foldl (fun t n => t.modHart n f) s

/-- What is on its way to a context area goes nowhere, whichever hart parked there (R335, R336). -/
def Hart.leaveArea (area : Nat) (h : Hart) : Hart :=
  { h with
    redirects := h.redirects.filter fun r => r.area ≠ area
    parked := h.parked.filter fun p => p.area ≠ area }

/-- `rarestore` once it may proceed (R336). -/
def State.unpark (s : State) : State :=
  let area := s.hart.area
  let info := s.areaDw (area + 8)
  let places := (List.range 8).filter fun j => bit info (32 + j)
  let back := places.map fun j => memberOf j (s.homeRead (.glob (parkAt area j)) 64)
  let ds := s.descriptors area
  let b := s.maxBits
  let w := etWidth s.hart.et
  let full := ds.filter fun d => d.1.2
  let hole := ds.filter fun d => !d.1.2
  let t := full.foldl (fun t d => t.putAll d.1.1 (leNat (s.homeRead (.glob (slotAt area d.2)) 256))) s
  let t := full.foldl (fun t d => if d.1.1.width = 6 then t else (d.1.1.groups b w).foldl (fun t g =>
    if hole.any fun e => e.1.1.width ≠ 6 && e.1.1.reg = d.1.1.reg && (e.1.1.groups b w).contains g then t
    else t.markLanded d.1.1.reg g) t) t
  let t := (t.setHome64 (.glob (area + 8)) 0).modHarts (Hart.leaveArea area)
  { t with
    hart.members := (t.hart.members.filter fun m => !places.contains m.place) ++ back
    hart.status.parked := false }

/-- `rarestore` (R336): it waits until the hart's vector convoys have drained. -/
def execRarestore (s : State) : Result :=
  .next (s.runM (do
    checkM (bitOf s.hart.ctxarea 0) (.trap ⟨20, 0, 0⟩)
    checkM (s.areaDw (s.hart.area + 8) % 2 ^ 16 = 0 || s.hart.status.vs ≠ .off) (.trap ⟨cVectorOff, 0, s.hart.pc⟩)
    vectorDrained)
    fun _ t => t.unpark.advance)

/-! ### `lgset` (R337) -/

/-- The groups of a core after `lgset`: what `k` owns and MASK does not name is freed; then, in ascending order, a free
group of MASK is taken under the quota, and one of another hart with FORCE. -/
def regrant (lat : Vector (Option (BitVec 2)) 8) (mask : Nat) (k : BitVec 2) (force : Bool) (quota : Nat) :
    Vector (Option (BitVec 2)) 8 :=
  let freed := assign lat ((List.range 8).filter fun g => !bit mask g && lat.toList.getD g none = some k) none
  ((List.range 8).filter (bit mask)).foldl (fun l g =>
    match l.toList.getD g none with
    | none => if ownedCount l < quota then assign l [g] (some k) else l
    | some _ => if force then assign l [g] (some k) else l) freed

/-- The harts of a core whose group count a new table changes, or whose groups it changes (R14, R337). -/
def changedHarts (c : Nat) (old new : Vector (Option (BitVec 2)) 8) : List Nat :=
  ((List.range 4).filter fun k => groupsOf old k ≠ groupsOf new k).map fun k => 4 * c + k

/-- Whether a hart holds a vector convoy that has issued and not drained. -/
def Hart.vectorHeld (h : Hart) : Bool := h.stall.elim false (·.vec) || h.awaited ≠ 0

/-- A table as far as a new one can come into force: a group leaves a hart, and reaches one, once that hart's vector convoys
have drained (R337). -/
def State.grantSoFar (s : State) (c : Nat) (old new : Vector (Option (BitVec 2)) 8) : Vector (Option (BitVec 2)) 8 :=
  let held := fun (o : Option (BitVec 2)) => o.elim false fun k => (s.hartAt (4 * c + k.toNat)).vectorHeld
  Vector.ofFn fun g =>
    if old[g] = new[g] || held old[g] then old[g] else if held new[g] then none else new[g]

/-- The change of a core's grants that is under way goes as far as it can (R337). -/
def State.stepGrants (s : State) (c : Nat) : State :=
  match (s.coreAt c).latNew with
  | none => s
  | some new =>
    let lat := s.grantSoFar c (s.coreAt c).lat new
    (s.setLat c lat).modCore c fun q => { q with latNew := if lat = new then none else some new }

/-- `lgset` (R337). -/
def execLgset (d a : SReg) (s : State) : Result :=
  let c := s.hart.core
  let v := (s.x a).toNat
  let k := BitVec.ofNat 2 (field v 9 8)
  let new := match s.stallHeld 9 (4 * c + k.toNat), (s.coreAt c).latNew with
    | some _, some l => l
    | _, l => regrant (l.getD (s.coreAt c).lat) (v % 256) k (bit v 10) s.part.quota
  let t := (s.modCore c fun q => { q with latNew := some new }).stepGrants c
  if (t.coreAt c).latNew.isSome then .next (t.stallAt 9 (4 * c + k.toNat))
  else .next ((t.setX d (word ((groupsOf new k.toNat).map fun g => 2 ^ g).sum)).advance)

/-! ### `preempt` (R338) -/

/-- A pre-emption request reaches hart `n` (R338): PEND is set, URGP if it is urgent or one still pending was, and
`PREEMPT_REQUEST` is posted. A request that is still to be taken keeps its requester (R338, log 36). -/
def Hart.request (h : Hart) (who : Nat) (urgent : Bool) : Hart :=
  let u := urgent || (h.pend && h.urgp)
  let first := (h.pending.find? fun t => t.code = 79).elim (word who) (·.tval)
  { h with
    pend := true
    urgp := u
    pending := (h.pending.filter fun t => t.code ≠ 79) ++ [⟨79, first, word u.toNat⟩] }

/-- `preempt` (R338). -/
def execPreempt (d a : SReg) (s : State) : Result :=
  let n := bits (s.x a) 10 0
  if n < Config.harts && s.part.cores.contains (n / 4) then
    let t := s.modHart n fun h => h.request s.hart.id (bitOf (s.x a) 63)
    .next ((t.setX d 0).advance)
  else .next ((s.setX d 1).advance)

end Sys2Proof.Machine
end

