-- ==== Sys2Proof/Machine/Stream.lean ====
section
/-! DEFINITION. STRM: copies and channels (R75 to R78, R107, R259 to R264), and what the copy engine does with a copy
that it has accepted (R261, R262). -/

namespace Sys2Proof.Machine

/-! ### Issue checks (R260) -/

/-- The sides of a copy. -/
abbrev sourceCause := cCopySource
abbrev destCause := cCopyDest

/-- Why a pointer of a copy is refused, if it is: its alignment, its form, and for a scratchpad range the core and the
end (R56, R59, R67). `lo` and `hi` bound the bytes used, as offsets from the pointer. -/
def State.copyPointer (s : State) (p : Word) (size : Nat) (lo hi : Int) (access : Nat) : Option Nat :=
  if p.toNat % size ≠ 0 then some cMisaligned
  else if bitOf p 63 then
    if bits p 62 25 ≠ 0 then some cScratchRange
    else
      let f := bits p 24 21
      let core := if f = 15 then s.hart.core else clusterBase s.hart.core + f
      let o : Int := (bits p 20 0 : Nat)
      if !((f ≤ 11 || f = 15) && s.part.cores.contains core) then some cScratchCore
      else if o + lo < 0 || 0x180000 < o + hi then some cScratchRange
      else none
  else if bits p 63 59 ≠ 0 then some access
  else none

/-- A copy refused at issue (R260). -/
def copyCheckIssue (side : Nat) (p : Word) (bad : Option Nat) : M Unit :=
  match bad with
  | some c => trapM side p (word c)
  | none => pure ()

/-- Scoreboard entries that a copy takes (R78). -/
def Copy.entries (c : Copy) : Nat :=
  (match c.kind with | .fill _ => 0 | _ => 1) + (if bitOf c.dst 63 then 0 else 1)

/-- What convoys that are held have secured at a core: channels with BUSY counts and entries (R261, R436). -/
def State.securedAt (s : State) (core : Nat) : List (Nat × Nat × Nat) :=
  (s.harts.filter fun h => h.id / 4 = core).flatMap (·.secured)

/-- Free scoreboard entries of a core (R78). -/
def State.freeEntries (s : State) (core : Nat) : Nat :=
  32 - ((s.copies.filter fun c => c.hart / 4 = core).map (·.entries)).sum - ((s.securedAt core).map (·.2.2)).sum

/-- BUSY of a channel of the current core, with what has been secured of it (R261). -/
def State.busyOf (s : State) (ch : Nat) : Nat :=
  ((s.coreAt s.hart.core).ch.toList.getD ch {}).busy
    + (((s.securedAt s.hart.core).filter fun q => q.1 = ch).map (·.2.1)).sum

/-- Whether the current hart's convoy has secured what its copy-class member needs of a channel (R436). -/
def Hart.hasSecured (h : Hart) (ch : Nat) : Bool := h.secured.any fun q => q.1 = ch

/-- What a copy-class member secures (R261, R436): a copy one BUSY count and its entries, and `cfree` the channel at BUSY = 0. -/
def State.secures (s : State) : Instr → Option (Nat × Nat × Nat)
  | .cpy ch _ b .. => some (ch.toNat, 1, if bitOf (s.x b) 63 then 1 else 2)
  | .cpys ch _ b .. => some (ch.toNat, 1, if bitOf (s.x b) 63 then 1 else 2)
  | .fill ch _ b .. => some (ch.toNat, 1, if bitOf (s.x b) 63 then 0 else 1)
  | .cfree ch => some (ch.toNat, 15, 0)
  | _ => none

/-- A channel of the current core. -/
def State.channel (s : State) (ch : BitVec 3) : Channel := (s.coreAt s.hart.core).ch[ch.toNat]'ch.isLt

/-- A channel of a core changed. -/
def State.modChannel (s : State) (core : Nat) (ch : Nat) (f : Channel → Channel) : State :=
  s.modCore core fun k => { k with
    ch := Vector.ofFn fun i => if i.val = ch then f k.ch[i] else k.ch[i] }

/-- A copy accepted: BUSY steps, its entries are taken, and the channel counts its destination (R76, R261). -/
def State.accept (s : State) (c : Copy) : State :=
  let a := bits c.dst 24 0
  let s := s.modChannel (c.hart / 4) c.ch fun k =>
    let k := { k with busy := k.busy + 1 }
    if c.len = 0 then k
    else if !bitOf c.dst 63 then { k with started := true }
    else if !k.started then { k with started := true, counts := true, dbase := a, len := c.len, wm := a }
    else if k.counts then { k with len := k.len + c.len }
    else k
  { s with
    copies := s.copies ++ [c]
    nextId := s.nextId + 1 }

/-- L: bytes that a copy moves (R260). -/
def State.copyLen (s : State) : Nat := ceilDiv (s.hart.vl * etWidth s.hart.et) 8

/-- Bytes of an element, at least one. -/
def State.copyWidth (s : State) : Nat := elemBytes (etWidth s.hart.et)

/-- The copy that an instruction asks for (R107, R260, R326, R364). -/
def State.copyOf (s : State) (ch : BitVec 3) (k : CopyKind) (src dst : Word) (qa qr : Bool) (sc : Scope) : Copy :=
  { id := s.nextId
    hart := s.hart.id
    ch := ch.toNat
    kind := k
    src := src
    dst := dst
    len := s.copyLen
    width := s.copyWidth
    acq := qa
    rel := qr
    scope := sc
    asid := s.ctx.asid
    ptb := s.hart.ptb
    priv := s.hart.priv
    tage := s.hart.status.tage
    ctx := s.hart.ctxarea
    launch := s.hart.launch }

/-- A copy-class member: it secures what it waits for before its convoy issues, and acts once every other member has
completed (R436). -/
def State.copyMember (s : State) (checks : M Unit) (act : State → State) : State :=
  s.member (do vectorCheck fun _ => true; checks) (fun _ => 0) false (fun _ => []) (fun _ => 0)
    (fun _ _ _ s => { done := s }) false act

/-- Bounds of the source bytes of a copy, as offsets from S(a) (R260). -/
def sourceBounds (k : CopyKind) (n width : Nat) : Int × Int :=
  match k with
  | .strided st =>
    let span := ((n / width - 1 : Nat) : Int) * st
    if n = 0 then (0, 0) else (min 0 span, max 0 span + width)
  | _ => (0, n)

/-- `cpy`, `cpys` and `fill` (R260). -/
def State.copy (s : State) (ch : BitVec 3) (k : CopyKind) (src dst : Word) (qa qr : Bool) (sc : Scope) : State :=
  let c := s.copyOf ch k src dst qa qr sc
  let q := s.channel ch
  let b := sourceBounds k c.len c.width
  s.copyMember (do
    match k with
    | .strided st => do
      require (etWidth s.hart.et ≠ 4) cSubbyteStride (wordI st)
      copyCheckIssue sourceCause src (s.copyPointer src c.width b.1 b.2 20)
      copyCheckIssue sourceCause src (if st % c.width = 0 then none else some cMisaligned)
    | .plain => copyCheckIssue sourceCause src (s.copyPointer src c.width b.1 b.2 20)
    | .fill _ => pure ()
    copyCheckIssue destCause dst (s.copyPointer dst c.width 0 c.len 21)
    let joins := !(bitOf dst 63 && q.counts)
      || normalCore s.hart.core (bits dst 24 0) = normalCore s.hart.core q.dbase + q.len
    checkM joins (.trap ⟨cCopyDest, dst, 0⟩)
    checkM (s.hart.hasSecured ch.toNat || (s.busyOf ch.toNat < 15 && c.entries ≤ s.freeEntries s.hart.core))
      (.stall 11 ch.toNat)) fun t => t.accept c

/-- `cpy` (R260). -/
def execCpy (ch : BitVec 3) (a b : SReg) (qa qr : Bool) (sc : Scope) (s : State) : Result :=
  .next (s.copy ch .plain (s.x a) (s.x b) qa qr sc)

/-- `cpys` (R260). -/
def execCpys (ch : BitVec 3) (a b : SReg) (qa qr : Bool) (sc : Scope) (s : State) : Result :=
  .next (s.copy ch (.strided (s.x (a + 1)).toInt) (s.x a) (s.x b) qa qr sc)

/-- `fill` (R260, R261): a 4-bit element stands in both halves of each byte. -/
def execFill (ch : BitVec 3) (a b : SReg) (qa qr : Bool) (sc : Scope) (s : State) : Result :=
  let v := if etWidth s.hart.et = 4 then word (bits (s.x a) 3 0 * 17) else s.x a
  .next (s.copy ch (.fill v) 0 (s.x b) qa qr sc)

/-! ### Channels (R263) -/

/-- OVF after a change of CNT or EXP (R76). -/
def Channel.latch (k : Channel) : Channel := { k with ovf := k.ovf || (k.ep && k.exp < k.cnt) }

/-- `cexp` (R263). -/
def execCexp (ch : BitVec 3) (a : SReg) (s : State) : Result :=
  .next (s.copyMember (pure ()) fun t => t.modChannel s.hart.core ch.toNat fun k =>
    { k with exp := bits (s.x a) 31 0, ep := true }.latch)

/-- `cwm` (R263). -/
def execCwm (ch : BitVec 3) (b : SReg) (s : State) : Result :=
  .next (s.copyMember (pure ()) fun t =>
    let k := t.channel ch
    t.setX b (word (if k.counts then k.wm else 0)))

/-- `cfree` (R263). -/
def execCfree (ch : BitVec 3) (s : State) : Result :=
  .next (s.copyMember (checkM (s.hart.hasSecured ch.toNat || s.busyOf ch.toNat = 0) (.stall 1 ch.toNat)) fun t =>
    t.modChannel s.hart.core ch.toNat fun _ => {})

/-! ### The engine (R261, R262) -/

/-- The context that a copy runs under (R364). -/
def Copy.context (c : Copy) : Ctx := ⟨c.hart, c.priv, c.ptb, c.asid, c.tage⟩

/-- Where source byte `i` of a copy lies (R260). -/
def Copy.sourceByte (c : Copy) (i : Nat) : Word :=
  match c.kind with
  | .strided st => c.src + wordI ((i / c.width : Nat) * st) + word (i % c.width)
  | _ => c.src + word i

/-- Byte `i` of the pattern of a fill (R261). -/
def fillByte (v : Word) (width i : Nat) : Byte := .ofNat 8 (v.toNat / 2 ^ (8 * (i % width)))

/-- One byte of an access of the engine: translated, tag-checked, and for a source checked for errors (R66, R262), once the
vector stores of its hart to it are performed (R87). -/
def engineByte (c : Copy) (k : Acc) (p : Word) : M Phys := do
  let q ← resolve c.context k p 1 1 .answered
  tagCheck c.context q 1
  if k.reads then dataCheck q 1
  answered q.loc
  modify fun s => s.agreeTrains c.hart q.loc 1
  pure q

/-- One byte of a copy moved: the endpoint that it is written to, or the side on which it stops (R261). -/
def State.moveByte (s : State) (c : Copy) (i : Nat) : State × Except (Bool × Halt) Endpoint :=
  let read : M Byte := match c.kind with
    | .fill v => pure (fillByte v c.width i)
    | _ => do
      let q ← engineByte c .load (c.sourceByte i)
      pure ((← get).homeByte q.loc)
  match read.go s with
  | (.error h, t) => (t, .error (false, h))
  | (.ok b, t) =>
    match (engineByte c .store (c.dst + word i)).go t with
    | (.error h, t) => (t, .error (true, h))
    | (.ok q, t) => (t.homeStore q.loc [b] (.hart c.hart), .ok (t.homeDie q.loc).1)

/-- A copy in the list replaced. -/
def State.putCopy (s : State) (c : Copy) : State :=
  { s with copies := s.copies.map fun d => if d.id = c.id then c else d }

/-- WM carried over every gap-free byte (R76). -/
def Channel.advance (k : Channel) : Channel :=
  match k.landed.find? fun r => r.1 ≤ k.wm && k.wm < r.2 with
  | some r => { k with wm := r.2, landed := k.landed.filter (· ≠ r) }
  | none => k

/-- Byte `a` of a channel's range has landed (R76). `a` counts from DBASE. -/
def Channel.land (k : Channel) (a : Nat) : Channel :=
  ({ k with cnt := (k.cnt + 1) % 2 ^ 32, landed := addRange (k.dbase + a, k.dbase + a + 1) k.landed }).latch.advance

/-- A copy retires: BUSY steps back and its entries are free again (R261). -/
def State.retire (s : State) (c : Copy) : State :=
  let t := s.modChannel (c.hart / 4) c.ch fun k => { k with busy := k.busy - 1 }
  { t with copies := t.copies.filter fun d => d.id ≠ c.id }

/-- A copy that met a fault: FLT takes the first of its channel, and the copy retires without its release (R262). -/
def State.copyFails (s : State) (c : Copy) (dest : Bool) (t : Trap) (p : Word) : State :=
  (s.modChannel (c.hart / 4) c.ch fun k =>
    { k with flt := if k.flt.isSome then k.flt else some ⟨dest, t.code, p⟩ }).retire c

/-- Bytes of a copy moved one after another, until one stops it (R261, R262). -/
def State.moveBytes (s : State) (id : Nat) : List Nat → State
  | [] => s
  | i :: is =>
    match s.copies.find? fun c => c.id = id with
    | none => s
    | some c =>
      if !c.ready || c.len ≤ i || inRanges i c.done then s.moveBytes id is
      else
        match s.moveByte c i with
        | (t, .ok ep) =>
          let t := t.putCopy { c with
            done := addRange (i, i + 1) c.done
            eps := if c.eps.contains ep then c.eps else c.eps ++ [ep] }
          let core := c.hart / 4
          let k := (t.coreAt core).ch.toList.getD c.ch {}
          let a := normalCore core (bits c.dst 24 0) + i - normalCore core k.dbase
          (if bitOf c.dst 63 && k.counts then t.modChannel core c.ch fun k => k.land a else t).moveBytes id is
        | (t, .error (dest, .trap f)) =>
          t.copyFails c dest f (if dest then c.dst + word i else c.sourceByte i)
        | (t, .error (_, .stall _ _)) => t

/-- Every access that the hart of a copy has made is performed at its home, whatever the scope (R88, R107), or a flush fails
(R102), or something is still to be waited for. -/
def State.drainFor (s : State) (c : Copy) : Except Halt State :=
  let me := s.hart.id
  match (do
      modify fun s => s.landLate.flushOverflow.drain
      checkM ((← get).hart.buffer = []) (.stall 12 0)
      flushAll (← get).hart.toFlush
      vectorDone : M Unit).go (s.switchTo c.hart) with
  | (.ok _, t) => .ok (t.switchTo me)
  | (.error h, _) => .error h

/-- The engine takes a copy up: with `acq` set it first waits as R107 states. -/
def State.startCopy (s : State) (id : Nat) : State :=
  match s.copies.find? fun c => c.id = id with
  | none => s
  | some c =>
    if c.ready then s
    else if !c.acq then s.putCopy { c with ready := true }
    else if (s.copies.takeWhile fun d => d.id ≠ id).any fun d => d.hart = c.hart then s
    else match s.drainFor c with
      | .ok t => t.putCopy { c with ready := true }
      | .error (.trap t) => match c.kind with
        | .fill _ => s.copyFails c true t c.dst
        | _ => s.copyFails c false t c.src
      | .error (.stall _ _) => s

/-- A copy retires once its last byte has been written; with `rel` set at DOMAIN scope, once the flushes of every endpoint
that it has written to are answered (R101, R107). A failure of one is a fault of the copy (R102, R262). -/
def State.finishCopy (s : State) (id : Nat) : State :=
  match s.copies.find? fun c => c.id = id with
  | none => s
  | some c =>
    if !c.ready || newBytes (0, c.len) c.done ≠ 0 then s
    else
      match (if c.rel && c.scope = .domain then c.eps.filterMap s.flushFails else []) with
      | [] => s.retire c
      | l => match l.find? (· ≠ cFlushTimeout) with
        | some code => s.copyFails c true { code := code } c.dst
        | none => s

/-- A copy performed as far as it can be (R261). -/
def State.performCopy (s : State) (id : Nat) : State :=
  let s := s.startCopy id
  match s.copies.find? fun c => c.id = id with
  | none => s
  | some c => (s.moveBytes id (List.range c.len)).finishCopy id

/-- Every accepted copy performed as far as it can be, in the order of acceptance. -/
def State.engine (s : State) : State := (s.copies.map (·.id)).foldl State.performCopy s

end Sys2Proof.Machine
end

