-- ==== Sys2Proof/Machine/Wait.lean ====
section
/-! DEFINITION. What every cask instruction does (R113 to R117, R121 to R124, R265 to R270, R273, R431, R435): the
checks before the request, deadlines, arrivals, waits and how they end. -/

namespace Sys2Proof.Machine

/-! ### Before the request (R266) -/

/-- Steps 1 to 4 of R266, and the place of the cask. -/
def caskOpen (p : Word) (c : VReg) (wait : Bool) : M Loc := do
  offCheck
  let s ← get
  require (c = 0 || c.toNat < s.hart.declared) cRegBeyond (word c.toNat)
  let l ← caskPlace p 64 .posted
  checkM (!wait || s.locked) (.trap ⟨cTimeBaseLost, p, 0⟩)
  pure l

/-- Step 5 of R266: the membership entry. -/
def needEntry (l : Loc) (cause : Nat) (p : Word) : M Member := do
  match (← get).hart.entry l with
  | some e => pure e
  | none => trapM cause p

/-- A home on an endpoint that the fabric manager reports unreachable is answered for at once (R406). -/
def downCheck (l : Loc) : M Unit := do
  match l with
  | .glob pa => checkM (!(← get).down.contains (epOf pa)) (.trap ⟨cEndpointDown, epDie (epOf pa) (dieOf (offOf pa)), 0⟩)
  | .spad _ _ => pure ()

/-- The release of a cask instruction: at the scope of the entry, or at DOMAIN scope without one (R270). -/
def caskRelease (l : Loc) : M Unit := do
  release (((← get).hart.entry l).elim .domain fun e => scopeOfCode e.scope)

/-- The home looks at the cask: what it finds damaged it marks, and the reserved fields of a cask of a kind of R118 with its
fields in range read as zero (R4, R118, R122). -/
def State.visit (s : State) (l : Loc) : State :=
  let t := s.noteDamage l
  if t.caskBad l || !t.configOk l (t.header l) then t else t.tidy l

/-- The kind of a cask and its fields are those that the instruction needs (R118). -/
def kindCheck (p : Word) (l : Loc) (kinds : List Nat) (cause : Nat) : M Header := do
  let s ← get
  let h := s.header l
  checkM (kinds.contains h.kind && s.configOk l h) (.trap ⟨cause, p, 0⟩)
  pure h

/-- The home's checks of a whole cask, and `more` of the instruction: one that fails leaves the cask as it is (R118, R266). Then
its reserved fields read as zero (R4). -/
def homeChecks (p : Word) (l : Loc) (kinds : List Nat) (cause : Nat) (more : Header → M Unit) : M Header := do
  let h ← kindCheck p l kinds cause
  more h
  modify fun s => s.tidy l
  pure h

/-- Step 6 of R266 for an instruction of the scalar kind: it is answered by the home, the cask is whole, and its kind
and fields are those that the instruction needs. -/
def caskAnswers (p : Word) (l : Loc) (kinds : List Nat) (cause : Nat) (more : Header → M Unit := fun _ => pure ()) :
    M Header := do
  downCheck l
  caskAccess p l
  checkM (!(← get).homeSilent l) (.stall 6 p.toNat)
  modify fun s => s.noteDamage l
  checkM (!(← get).caskBad l) (.trap ⟨cObjectDamaged, p, 0⟩)
  homeChecks p l kinds cause more

/-- Step 6 of R266 for a wait: none when the home is silent, no header when the cask is damaged. -/
def waitAnswers (p : Word) (l : Loc) (kinds : List Nat) (cause : Nat) (more : Header → M Unit := fun _ => pure ()) :
    M (Option (Option Header)) := do
  downCheck l
  caskAccess p l
  if (← get).homeSilent l then pure none
  else do
    modify fun s => s.noteDamage l
    if (← get).caskBad l then pure (some none) else pure (some (some (← homeChecks p l kinds cause more)))

/-- Whether the absentee set of `n` members fits into register `c` (R116). -/
def fitCheck (c : VReg) (n : Nat) : M Unit := do
  let s ← get
  checkM (c = 0 || (s.vlg ≠ 0 && n ≤ s.maxBits)) (.trap ⟨cAbsenteeBuffer, word n, 0⟩)

/-- The deadline of an explicit wait, none when it is past on entry (R113). -/
def fixDeadline (d : Word) : M (Option Nat) := do
  let s ← get
  let now := s.now.toNat
  if d.toNat ≤ now then pure none
  else if now + s.hart.maxwait.toNat < d.toNat then do
    modify fun s => s.raiseFlags fCLAMP
    pure (some (now + s.hart.maxwait.toNat))
  else pure (some d.toNat)

/-! ### How a wait ends (R115, R116, R134, R270) -/

/-- What a wait leaves: the status word, the absentee set to write if the answer carries one or means an empty one, the
round tag for `CROUND` if the status reports one, and the scope of the acquire. -/
structure Ending where
  status : Word
  absent : Option Nat
  round : Option Nat
  scope : Nat
deriving DecidableEq, Repr

/-- An acquire at the scope that an answer carries (R92, R270). -/
def State.acquireAt (s : State) (scope : Nat) : State := s.acquire (scopeOfCode scope)

/-- A wait completes. -/
def State.endWait (s : State) (d : SReg) (c : VReg) (e : Ending) : State :=
  let s := s.acquireAt e.scope
  let s := match e.round with
    | some t => { s with hart.cround := .ofNat 48 t }
    | none => s
  let s := match e.absent with
    | some v => if c = 0 then s else { s.dirtyV with hart.v := s.hart.v.set c.toNat v c.isLt }
    | none => s
  let s := s.setX d e.status
  ({ s with hart.wait := none }).advance

/-- DAMAGED (R122). Its TAG is 0: the spec gives none (log 94). -/
def damagedEnding (scope : Nat) : Ending := ⟨statusWord 5 0 0 0xFFFF, none, none, scope⟩

/-- The hart starts to wait. -/
def beginWait (l : Option Loc) (deadline : Nat) (round : Nat := 0) (buffer : Option (Loc × Word) := none)
    (barr : Bool := false) : M Unit :=
  modify fun s => { s with
    hart.wait := some { cask := l, deadline := deadline, round := round, buffer := buffer, barr := barr } }

/-- An entry of the current hart changed. -/
def State.modEntry (s : State) (l : Loc) (f : Member → Member) : State := { s with hart := s.hart.modEntry l f }

/-- A wait instruction: it enters, or it goes on with the wait in progress. -/
def State.runWait (s : State) (d : SReg) (c : VReg) (enter : M (Option Ending)) (go : State → State) : State :=
  match s.hart.wait with
  | some _ => go s
  | none =>
    match enter.go s with
    | (.error h, t) => t.halt h
    | (.ok (some e), t) => t.endWait d c e
    | (.ok none, t) => go { t with hart.stall := none }

/-- A wait whose home does not answer: past its deadline it ends at once (R113; log 95), and else it waits. -/
def silentWait (l : Loc) (d : Word) (past : State → Ending) (round : Nat := 0) (buffer : Option (Loc × Word) := none)
    (barr : Bool := false) : M (Option Ending) := do
  match ← fixDeadline d with
  | none => pure (some (past (← get)))
  | some t => do
    beginWait (some l) t round buffer barr
    pure none

/-! ### Rounds (R123, R124, R267, R268, R272, R273, R431) -/

/-- What an instruction that takes part in rounds asks of the home: an arrival and the closure, an arrival alone, the
closure alone, or a lock. -/
inductive RoundVerb where
  | arrive | barr | wait | acq
deriving DecidableEq, Repr

/-- Whether the instruction arrives in the round of a late answer (R124, R273). -/
def RoundVerb.arrives (v : RoundVerb) : Bool := v ≠ .wait

/-- The scope of the acquire on an answer: `barr` makes none (R270). -/
def RoundVerb.scope (v : RoundVerb) (n : Nat) : Nat := if v = .barr then 0 else n

/-- What an entry becomes when its instruction takes an answer (R124, R272, R273, R275, R277): a closure, a grant, LATE, or
an answer of `barr`. -/
def Member.answered (m : Member) (verb : RoundVerb) (gen : Nat) (a : Answer) : Member :=
  let code := bits a.status 63 56
  let unmended := if verb = .acq then none else m.mend
  if code = 2 then { m with tag := min (a.tag + 1) lastTag, arrived := verb.arrives, mend := unmended }
  else if verb = .barr then (if code = 0 || code = 3 then { m with arrived := true } else m)
  else if verb = .acq then
    match code with
    | 0 => { m with gen := bits a.status 47 16, mend := none }
    | 1 => { m with tag := min (a.tag + 1) lastTag, arrived := false, gen := gen, mend := some a.tag }
    | _ => { m with mend := none }
  else if code ≤ 1 then { m with tag := min (a.tag + 1) lastTag, arrived := false }
  else if code = 3 && verb = .arrive then { m with arrived := true }
  else m

/-- What an answer leaves (R116): a set with a closure record or LATE, nothing for DAMAGED, and else zeros; a round tag
unless the status reports none or a generation. TAG and COUNT of EVICTED are 0: the spec gives none (log 94). -/
def RoundVerb.ending (v : RoundVerb) (a : Answer) : Ending :=
  let code := bits a.status 63 56
  let grant := v = .acq && (code = 0 || code = 3)
  { status := a.status
    absent := if code = 5 then none else if code ≤ 2 && !grant then a.absent else some 0
    round := if code ≤ 3 && !grant then some a.tag else none
    scope := v.scope a.scope }

/-- An answer taken by the instruction that waits for it. An `acq` whose round has closed notes the generation that the lock
has now (R275). -/
def State.takeAnswer (s : State) (l : Loc) (verb : RoundVerb) (a : Answer) : State × Ending :=
  let gen := (s.lock l).gen
  (s.modEntry l fun m => m.answered verb gen a, verb.ending a)

/-- When a member may complete with a record that has reached its hart: a member that is present in a barrier round at DEVICE
scope or wider is staggered (R431). -/
def State.staggerEnd (s : State) (l : Loc) (w : Wait) (a : Answer) : Nat :=
  match w.delay with
  | some t => t
  | none =>
    match (s.hart.entry l).filter (·.arrived) with
    | some m =>
      if (s.header l).kind = 1 && 3 ≤ a.scope && bits a.status 63 56 ≤ 1
      then s.now.toNat + s.stagger.toNat * m.index / max 1 a.n else s.now.toNat
    | none => s.now.toNat

/-- The record of a wait that is held back is in the slot as well, for a return from an interrupt (R431). -/
def State.holdBack (s : State) (l : Loc) (w : Wait) (a : Answer) (t : Nat) : State :=
  { s.modEntry l fun m => { m with slot := some ⟨a.status, a.tag, a.absent.getD 0⟩ } with
    hart.wait := some { w with answer := some a, delay := some t } }

/-- The answer of a wait that nobody answered by its deadline (R123, R435). Its TAG is that of the entry, or 0 without
rounds: the spec gives none (log 94). -/
def State.lostEnding (s : State) (l : Loc) (code : Nat) (round : Bool) : Ending :=
  let e := s.hart.entry l
  let tag := if round then e.map (·.tag) else none
  ⟨statusWord code 0xFE (tag.getD 0) 0xFFFF, none, tag, e.elim 4 (·.scope)⟩

/-- A wait for a round or a lock ends without an answer (R123); an `acq` notes which round it may mend (R277). -/
def State.loseRound (s : State) (d : SReg) (c : VReg) (l : Loc) (verb : RoundVerb) : State :=
  let e := s.lostEnding l 1 true
  (if verb = .acq then s.modEntry l fun m => { m with mend := some m.tag } else s).endWait d c
    { e with scope := verb.scope e.scope }

/-- A wait for a round, or for a lock, in progress. -/
def State.goRound (s : State) (d : SReg) (c : VReg) (verb : RoundVerb) : State :=
  match s.hart.wait with
  | none => s
  | some w =>
    match w.cask with
    | none => s
    | some l =>
      let s := if w.answer.isSome || s.homeSilent l then s else s.dueAt l
      match s.hart.wait.bind (·.answer) with
      | some a =>
        let t := s.staggerEnd l w a
        if t ≤ s.now.toNat then
          let r := s.takeAnswer l verb a
          r.1.endWait d c r.2
        else s.holdBack l w a t
      | none => if w.deadline ≤ s.now.toNat then s.loseRound d c l verb else s

/-- A wait that finds the record of its round in the slot (R267, R268). For more than 64 members the slot keeps no set:
it is read from the cask while that still holds the round (R327). The fit comes first, as all checks do (R266). There is no
stagger (log 123). -/
def slotEnding (d : Word) (l : Loc) (e : Member) (r : Record) (c : VReg) (verb : RoundVerb) : M (Option Ending) := do
  fitCheck c e.n
  let _ ← fixDeadline d
  let s ← get
  let h := s.header l
  if 64 < e.n && c ≠ 0 && s.openRound l ≠ r.tag + 1 then do
    modify fun s => if verb = .acq then s.modEntry l fun m => { m with mend := some r.tag } else s
    pure (some (s.lostEnding l 1 true))
  else
    let absent := if e.n ≤ 64 then r.absent
      else if h.kind = 2 then 2 ^ (s.lock l).holder else s.bitmap l h (lastAbsIndex h.kind)
    let t := s.takeAnswer l verb { status := r.status, absent := some absent, n := e.n, tag := r.tag, scope := e.scope }
    set t.1
    pure (some t.2)

/-- The record of the entry's own round, if the slot holds it. -/
def Member.ownRecord (e : Member) : Option Record := e.slot.filter fun r => r.tag = e.tag

/-- PAST of an instruction that takes part in rounds, at a home that says nothing. -/
def RoundVerb.past (v : RoundVerb) (e : Member) : Ending :=
  v.ending {
    status := statusWord 3 0 (if v = .acq then e.gen else e.tag) 0xFFFF
    absent := none
    n := e.n
    tag := e.tag
    scope := e.scope }

/-- The record that the arrival itself brought about, which reached the slot, goes to the wait that follows it (R123): that
wait begins with its answer. -/
def answeredWait (l : Loc) (e : Member) (r : Record) (scope deadline : Nat) : M Unit := do
  beginWait (some l) deadline r.tag
  modify fun s => { s.modEntry l fun m => { m with slot := e.slot } with
    hart.wait := s.hart.wait.map fun w => { w with
      answer := some { status := r.status, absent := some r.absent, n := e.n, tag := r.tag, scope := scope } } }

/-- What the entry of the current hart holds of round `k`. -/
def State.slotRecord (s : State) (l : Loc) (k : Nat) : Option Record :=
  ((s.hart.entry l).bind (·.slot)).filter fun r => r.tag = k

/-- The entry `m` of the current hart after an arrival that came late for round `k`, which `e` was before it (R124). The
arrival of an instruction that takes its record at once leaves none of round `k` in the slot when it completed that round
itself (R302, fourth row: the next `qarr` is LATE too, log 110); the record of a `barr` reaches the slot (R272), and so does
that of a round that the presented deadline `dl` closed (R123). -/
def State.lateEntry (s : State) (l : Loc) (e : Member) (k : Nat) (dl : Option Nat) (stays : Bool) (m : Member) : Member :=
  let due := dl.elim false fun d => d ≤ s.now.toNat + guard (s.header l).scope
  { m with
    tag := k
    arrived := true
    slot := if stays && !due && m.slot.any (·.tag = k) then e.slot else m.slot }

/-- What follows an arrival that has counted or come late (R124, R272): `stays` when the instruction then waits for the
closure. -/
def arrived (p : Word) (l : Loc) (e : Member) (scope : Nat) (dl : Option Nat) (stays : Bool) :
    Arrival → M (Option Ending)
  | .wrapped => trapM cRoundWrap p
  | .evicted => pure (some ⟨statusWord 6 0 0 0, some 0, none, scope⟩)
  | .damaged => pure (some (damagedEnding scope))
  | .late k r => do
    modify fun s => s.modEntry l (s.lateEntry l e k dl stays)
    pure (some ⟨r.status, some r.absent, some r.tag, scope⟩)
  | .counted k => do
    modify fun s => s.modEntry l fun m => { m with arrived := true }
    if !stays then pure (some ⟨statusWord (if dl.isSome then 0 else 3) 0 k 0xFFFF, some 0, some k, 0⟩)
    else
      match (← get).slotRecord l k, dl with
      | some r, _ => do
        answeredWait l e r scope (dl.getD (← get).now.toNat)
        pure none
      | none, some t => do
        beginWait (some l) t k
        pure none
      | none, none => pure (some ⟨statusWord 3 0 k 0xFFFF, some 0, some k, scope⟩)

/-- An arrival (R124, R272): `stays` when the instruction then waits for the closure. -/
def arrival (kinds : List Nat) (cause : Nat) (p d : Word) (c : VReg) (stays : Bool) : M (Option Ending) := do
  let l ← caskOpen p c true
  let e ← needEntry l cause p
  let verb := if stays then RoundVerb.arrive else .barr
  match if stays then e.ownRecord else none with
  | some r => slotEnding d l e r c .arrive
  | none => do
    caskRelease l
    match ← waitAnswers p l kinds cause fun h => if stays then fitCheck c h.n else pure () with
    | none => silentWait l d (fun _ => verb.past e) e.tag none !stays
    | some none => pure (some (damagedEnding (verb.scope ((← get).header l).scope)))
    | some (some h) => do
      let dl ← fixDeadline d
      let r := (← get).arrive l e.index e.tag dl
      set r.1
      arrived p l e (verb.scope h.scope) dl stays r.2

/-- A wait for the closure of round T (R273). It is there before the home looks at its clock, so that a closure that is due
reaches it. An evicted member raises `QUORUM_LAG_EXCEEDED` (R131, R283). -/
def waitRound (kinds : List Nat) (cause : Nat) (p d : Word) (c : VReg) : M (Option Ending) := do
  let l ← caskOpen p c true
  let e ← needEntry l cause p
  match e.ownRecord with
  | some r => slotEnding d l e r c .wait
  | none => do
    match ← waitAnswers p l kinds cause fun h => fitCheck c h.n with
    | none => silentWait l d (fun _ => RoundVerb.past .wait e) e.tag
    | some none => pure (some (damagedEnding ((← get).header l).scope))
    | some (some h) => do
      let t := (← get).catchUp l
      if h.kind = 3 && !bit (t.joined l h) e.index then do
        set t
        trapM cQuorumLag p
      else do
        let dl ← fixDeadline d
        beginWait (some l) (dl.getD (← get).now.toNat) e.tag
        modify fun s => s.catchUp l
        let s ← get
        let k := s.openRound l
        if (s.hart.wait.bind (·.answer)).isSome then pure none
        else if k < e.tag then do
          modify fun s => s.damage l
          pure none
        else if e.tag = k then
          pure (if dl.isSome then none else some ⟨statusWord 3 0 k 0xFFFF, some 0, some k, h.scope⟩)
        else
          let r := s.passedRound l e.tag
          modify fun s => s.modEntry l fun m => { m with tag := min k lastTag, arrived := false }
          pure (some ⟨r.status, some r.absent, some r.tag, h.scope⟩)

/-! ### Waits without rounds (R435) -/

/-- PAST of a wait without rounds, at a home that says nothing. -/
def pastEnding (count : Nat) (absent : Option Nat) (s : State) (l : Loc) : Ending :=
  ⟨statusWord 3 0 0 count, absent, none, (s.hart.entry l).elim 4 (·.scope)⟩

/-- A request of the current hart that waits at the home, behind the earlier ones; a repeated one keeps one place. -/
def State.queueAt (s : State) (l : Loc) (verb : HomeVerb) (deadline : Nat) : State :=
  let me := fun (w : HomeWaiter) => w.cask = l && w.hart = some s.hart.id
  { s with waiters := (s.waiters.filter fun w => !me w) ++ [⟨l, some s.hart.id, 0, verb, deadline⟩] }

/-- A wait of `recv`, `strip` or `farmw` in progress: `finish` is applied to the home's answer, and `code` is that of the
deadline. -/
def State.goHome (s : State) (d : SReg) (c : VReg) (code : Nat) (finish : Answer → Wait → State → State)
    (lost : State → State) : State :=
  match s.hart.wait with
  | none => s
  | some w =>
    match w.cask with
    | none => s
    | some l =>
      let s := if w.answer.isSome || s.homeSilent l then s else s.dueAt l
      match s.hart.wait.bind (·.answer) with
      | some a => finish a w s
      | none => if w.deadline ≤ s.now.toNat then (lost s).endWait d c (s.lostEnding l code false) else s

/-- An instruction of the scalar kind: the status word into S(d) and, with `scope`, an acquire at it (R269, R270). -/
def State.endCask (s : State) (d : SReg) (status : Word) (scope : Option Nat) : State :=
  ((scope.elim s fun k => s.acquireAt k).setX d status).advance

end Sys2Proof.Machine
end

