-- ==== Sys2Proof/Machine/Sync.lean ====
section
/-! DEFINITION. SYNC and `cwait`: barriers, locks, guarded stores, membership, and the wait for a channel (R77, R126,
R264, R271 to R280). -/

namespace Sys2Proof.Machine

/-! ### Barriers (R271 to R273) -/

/-- `bar` (R271). -/
def execBar (d a b : SReg) (c : VReg) (s : State) : Result :=
  .next (s.runWait d c (arrival [1] cBarrierConfig (s.x a) (s.x b) c true) fun t => t.goRound d c .arrive)

/-- `barr` (R272). -/
def execBarr (d a b : SReg) (s : State) : Result :=
  .next (s.runWait d 0 (arrival [1] cBarrierConfig (s.x a) (s.x b) 0 false) fun t => t.goRound d 0 .barr)

/-- `barw` (R273). -/
def execBarw (d a b : SReg) (c : VReg) (s : State) : Result :=
  .next (s.runWait d c (waitRound [1] cBarrierConfig (s.x a) (s.x b) c) fun t => t.goRound d c .wait)

/-! ### Locks (R126, R275 to R278) -/

/-- The mend field of an entry cleared (R277). -/
def State.unmend (s : State) (l : Loc) : State := s.modEntry l fun m => { m with mend := none }

/-- An `acq` enters the waiters' round of a lock that another member holds (R124, R275). One that traps has not completed, and
leaves the mend field (R277). -/
def joinWaiters (p : Word) (l : Loc) (e : Member) (scope deadline : Nat) : M (Option Ending) := do
  let r := (← get).arrive l e.index e.tag (some deadline)
  set (match r.2 with
    | .counted _ => r.1
    | .wrapped => r.1
    | _ => r.1.unmend l)
  arrived p l e scope (some deadline) true r.2

/-- `acq` at the home of a lock (R126, R275). -/
def acquireLock (p d : Word) (l : Loc) (e : Member) (h : Header) : M (Option Ending) := do
  modify fun s => s.catchUp l
  let k := (← get).lock l
  let answer := fun (code detail count : Nat) => (some ⟨statusWord code detail k.gen count, some 0, none, h.scope⟩ : Option Ending)
  let dl ← fixDeadline d
  if !k.held then do
    modify fun s => (s.setLock l { k with holder := e.index, held := true, suspect := false }).modEntry l fun m =>
      { m with gen := k.gen, mend := none }
    pure (answer 0 k.repaired.toNat 0)
  else if k.holder = e.index then do
    modify fun s => s.unmend l
    pure (answer 0 2 0)
  else
    match dl with
    | none => do
      modify fun s => s.unmend l
      pure (answer 3 0 0xFFFF)
    | some t => joinWaiters p l e h.scope t

/-- `acq` (R275). -/
def execAcq (d a b : SReg) (c : VReg) (s : State) : Result :=
  let p := s.x a
  .next (s.runWait d c (do
    let l ← caskOpen p c true
    let e ← needEntry l cBarrierConfig p
    match e.ownRecord with
    | some r => slotEnding (s.x b) l e r c .acq
    | none => do
      caskRelease l
      match ← waitAnswers p l [2] cBarrierConfig fun h => fitCheck c h.n with
      | none => do
        let r ← silentWait l (s.x b) (fun _ => RoundVerb.past .acq e) e.tag
        if r.isSome then modify fun s => s.unmend l
        pure r
      | some none => do
        modify fun s => s.unmend l
        pure (some (damagedEnding ((← get).header l).scope))
      | some (some h) => acquireLock p (s.x b) l e h) fun t => t.goRound d c .acq)

/-- `rel` (R278). -/
def execRel (d a : SReg) (s : State) : Result :=
  let p := s.x a
  .next (s.runM (do
    let l ← caskOpen p 0 false
    let e ← needEntry l cBarrierConfig p
    caskRelease l
    let _ ← caskAnswers p l [2] cBarrierConfig fun _ => do
      checkM (!((← get).releaseLock l e.index e.gen).2.2.2) (.trap ⟨cNotHolder, p, 0⟩)
    let r := (← get).releaseLock l e.index e.gen
    set (r.1.unmend l)
    pure (statusWord r.2.1 0 r.2.2.1 0)) fun v t => t.endCask d v none)

/-- `mend` (R277). -/
def execMend (d a b : SReg) (s : State) : Result :=
  let p := s.x a
  .next (s.runM (do
    let l ← caskOpen p 0 false
    let e ← needEntry l cBarrierConfig p
    let tag := bits (s.x b) 47 0
    checkM (e.mend = some tag) (.trap ⟨cMendRefused, p, 0⟩)
    let h ← caskAnswers p l [2] cBarrierConfig
    modify fun s => s.catchUp l
    let r := (← get).mendLock l e.index tag
    set (r.1.modEntry l fun m => { m with
      gen := if r.2.1 = 0 then r.2.2 else m.gen
      mend := none })
    pure (statusWord r.2.1 0 r.2.2 0, h.scope)) fun v t => t.endCask d v.1 (some v.2))

/-! ### `stg` (R279) -/

/-- Whether a target lies in the cask's 4 KiB block, or in the scratchpad of its core (R279). -/
def sameBlock (l t : Loc) : Bool :=
  match l, t with
  | .glob p, .glob q => p / 4096 = q / 4096
  | .spad c _, .spad k _ => c = k
  | _, _ => false

/-- The generation check of `stg` at the home for a member, if the hart is one: whether it holds, and the current generation
(R279). -/
def State.guardHolds (s : State) (l : Loc) (h : Header) (g : Word) (index : Option Nat) : State × Bool × Nat :=
  if h.kind = 2 then
    let k := s.lock l
    (s, bits g 31 0 = k.gen && k.held && index = some k.holder, k.gen)
  else
    let i := bits g 63 32
    let s := s.farmNow l
    (s, s.stripSt l i = 1 && s.stripGen l i = bits g 31 0, s.stripGen l i)

/-- The home's checks of an `stg` (R118, R279): the target, and for a farm its fields and the strip named. -/
def guardCheck (p : Word) (l t : Loc) (kind strip : Nat) : M Unit := do
  let s ← get
  checkM (sameBlock l t) (.trap ⟨if kind = 4 then cFarmConfig else cBarrierConfig, p, 0⟩)
  checkM (kind = 2 || (s.farmOk l && strip < s.farmCount l)) (.trap ⟨cFarmConfig, p, 0⟩)

/-- `stg` (R279). A strip of ST 3 damages the farm (R132). -/
def execStg (d a b c : SReg) (s : State) : Result :=
  let p := s.x d
  let g := s.x c
  .next (s.runM (do
    let l ← caskOpen p 0 false
    checkM ((s.x a).toNat % 8 = 0) (.trap ⟨cMisaligned, s.x a, 0⟩)
    let s1 ← get
    let q ← resolve s1.ctx .store (s.x a) 8 8 .answered
    allow s1.ctx .store q 8
    caskRelease l
    let h ← caskAnswers p l [2, 4] cBarrierConfig fun h => guardCheck p l q.loc h.kind (bits g 63 32)
    let r := (← get).guardHolds l h g ((← get).hart.entry l |>.map (·.index))
    set r.1
    checkM (!(← get).caskBad l) (.trap ⟨cObjectDamaged, p, 0⟩)
    let t := if h.kind = 4 then r.1.serveFarm l else r.1
    let t := if r.2.1 then t.scalarStoreAt q.loc (leBytes (s.x b).toNat 8) else t
    set (t.unmend l)
    pure (statusWord (if r.2.1 then 0 else 4) 0 r.2.2 0)) fun v t => t.endCask d v none)

/-! ### Membership (R280) -/

/-- The lowest free place of the membership table (R121). -/
def Hart.freeMember (h : Hart) : Option Nat := (List.range 8).find? fun i => h.members.all fun m => m.place ≠ i

/-- An entry filled (R280). -/
def State.join (s : State) (l : Loc) (h : Header) (place index : Nat) : State :=
  { s with hart.members := s.hart.members ++
    [{ place := place, cask := l, index := index, tag := s.roundTag l, scope := h.scope, n := h.n }] }

/-- An entry cleared (R280). -/
def State.unjoin (s : State) (l : Loc) : State :=
  { s with hart.members := s.hart.members.filter fun m => m.cask ≠ l }

/-- `gjoin` (R280). -/
def execGjoin (d a b : SReg) (s : State) : Result :=
  let p := s.x a
  .next (s.runM (do
    let l ← caskOpen p 0 false
    match s.hart.entry l, s.hart.freeMember with
    | none, some place => do
      let h ← caskAnswers p l [1, 2] cBarrierConfig fun h => checkM ((s.x b).toNat < h.n) (.trap ⟨cBarrierConfig, p, 0⟩)
      modify fun s => (s.catchUp l).join l h place (s.x b).toNat
      pure (statusWord 0 0 ((← get).roundTag l) 0, h.scope)
    | _, _ => trapM cBarrierConfig p) fun v t => t.endCask d v.1 (some v.2))

/-- `gleave` (R280). -/
def execGleave (d a : SReg) (s : State) : Result :=
  let p := s.x a
  .next (s.runM (do
    let l ← caskOpen p 0 false
    let _ ← needEntry l cBarrierConfig p
    caskRelease l
    let _ ← caskAnswers p l [1, 2] cBarrierConfig
    modify fun s => s.unjoin l) fun _ t => t.endCask d (statusWord 0 0 0 0) none)

/-! ### `cwait` (R77, R264) -/

/-- Whether a channel is complete (R77). -/
def Channel.complete (k : Channel) : Bool := k.busy = 0 && (!k.counts || (k.ep && k.exp ≤ k.cnt))

/-- What ends a `cwait` whatever its deadline: a fault, an overfill, or completion (R264). -/
def channelEnd (ch : BitVec 3) : M Bool := do
  let k := (← get).channel ch
  match k.flt with
  | some f => trapM (if f.dest then cCopyDest else cCopySource) f.addr (word (f.cause + ch.toNat * 2 ^ 8))
  | none => do
    checkM (!k.ovf) (.trap ⟨cCopyOverfill, word ch.toNat, word k.cnt - word k.exp⟩)
    pure k.complete

/-- The end of a `cwait`, with COUNT = BUSY (R264). -/
def State.endChannel (s : State) (d : SReg) (ch : BitVec 3) (code : Nat) : State :=
  s.endWait d 0 ⟨statusWord code 0 0 (s.channel ch).busy, none, none, if code = 0 then 1 else 0⟩

/-- `cwait` (R264): the deadline is S(a), and the status goes to S(b). -/
def execCwait (ch : BitVec 3) (a b : SReg) (s : State) : Result :=
  .next (match s.hart.wait with
    | some w => s.runM (channelEnd ch) fun done t =>
        if done then t.endChannel b ch 0
        else if w.deadline ≤ t.now.toNat then t.endChannel b ch 1
        else t
    | none => s.runM (do
        checkM s.locked (.trap ⟨cTimeBaseLost, word ch.toNat, 0⟩)
        let done ← channelEnd ch
        let dl ← fixDeadline (s.x a)
        if done then pure (some 0)
        else match dl with
          | none => pure (some 3)
          | some t => do
            beginWait none t
            pure none) fun code t => match code with
              | some k => t.endChannel b ch k
              | none => { t with hart.stall := none })

end Sys2Proof.Machine
end

