-- ==== Sys2Proof/Machine/Quorum.lean ====
section
/-! DEFINITION. QRM: quorum and collective rounds (R127 to R136, R281 to R284). -/

namespace Sys2Proof.Machine

/-- `qarr` (R283). -/
def execQarr (d a b : SReg) (c : VReg) (s : State) : Result :=
  .next (s.runWait d c (arrival [3, 6] cQuorumConfig (s.x a) (s.x b) c true) fun t => t.goRound d c .arrive)

/-- `qwait` (R283). -/
def execQwait (d a b : SReg) (c : VReg) (s : State) : Result :=
  .next (s.runWait d c (waitRound [3, 6] cQuorumConfig (s.x a) (s.x b) c) fun t => t.goRound d c .wait)

/-- A member's lag counter set (R131). -/
def State.setLag (s : State) (l : Loc) (h : Header) (i v : Nat) : State :=
  let plane := fun (s : State) (b : Nat) =>
    let x := s.bitmap l h (1 + b)
    s.setBitmap l h (1 + b) (if bit v b then x ||| 2 ^ i else without x (2 ^ i))
  plane (plane s 0) 1

/-- The index under which a hart joins: S(b) for a quorum cask, and its place in the group for a collective (R135,
R282). -/
def joinIndex (p : Word) (b : SReg) (h : Header) : M Nat := do
  let s ← get
  if h.kind = 6 then do
    checkM (s.hart.cm && s.groupOk) (.trap ⟨cCollectiveConfig, 0, 0⟩)
    checkM (b = 0 && h.n = s.hart.groupSize) (.trap ⟨cCollectiveConfig, p, 0⟩)
    pure s.groupIndex
  else do
    checkM ((s.x b).toNat < h.n) (.trap ⟨cQuorumConfig, p, 0⟩)
    pure (s.x b).toNat

/-- The home's checks of a `qjoin` (R282): the index, and that a hart which has an entry has been evicted. -/
def joinCheck (p : Word) (b : SReg) (l : Loc) (h : Header) : M Unit := do
  let i ← joinIndex p b h
  let s ← get
  checkM ((s.hart.entry l).isNone || (h.kind = 3 && i < h.n && !bit ((s.catchUp l).joined l h) i)) (.trap ⟨cQuorumConfig, p, 0⟩)

/-- `qjoin` (R282). -/
def execQjoin (d a b : SReg) (s : State) : Result :=
  let p := s.x a
  .next (s.runM (do
    let l ← caskOpen p 0 false
    let old := s.hart.entry l
    let place := (old.map (·.place)).orElse fun _ => s.hart.freeMember
    match place with
    | none => trapM cQuorumConfig p
    | some place => do
      let h ← caskAnswers p l [3, 6] cQuorumConfig (joinCheck p b l)
      let i ← joinIndex p b h
      modify fun s => s.catchUp l
      modify fun s => (if h.kind = 3 then s.setLag l h i 0 else s)
      modify fun s => (s.unjoin l).join l h place i
      pure (statusWord 0 0 ((← get).roundTag l) 0, h.scope)) fun v t => t.endCask d v.1 (some v.2))

/-- A member leaves a quorum at its home: its counter is 3, and the round closes at once when every member that is left is
present (R127, R282). -/
def State.leaveQuorum (s : State) (l : Loc) (h : Header) (index : Nat) : State :=
  let t := s.setLag l h index 3
  let joined := t.joined l h
  if joined ≠ 0 && t.bitmap l h 0 ≠ 0 && without joined (t.bitmap l h 0) = 0 then t.settle l else t

/-- `qleave` (R282). One by an evicted member returns EVICTED (R131); its entry is cleared all the same (log 97). -/
def execQleave (d a : SReg) (s : State) : Result :=
  let p := s.x a
  .next (s.runM (do
    let l ← caskOpen p 0 false
    let e ← needEntry l cQuorumConfig p
    caskRelease l
    let h ← caskAnswers p l [3, 6] cQuorumConfig
    modify fun s => (s.catchUp l).unjoin l
    let t ← get
    if h.kind = 3 && !bit (t.joined l h) e.index then pure (statusWord 6 0 0 0)
    else do
      if h.kind = 3 then set (t.leaveQuorum l h e.index)
      pure (statusWord 0 0 0 0)) fun v t => t.endCask d v none)

/-- `qread` (R284). -/
def execQread (d a c : SReg) (s : State) : Result :=
  let p := s.x a
  .next (s.runM (do
    let l ← caskOpen p 0 false
    let h ← caskAnswers p l [1, 3, 6] cQuorumConfig fun h => checkM (c = 0 || h.n ≤ 64) (.trap ⟨cAbsenteeBuffer, word h.n, 0⟩)
    modify fun s => s.catchUp l
    let t ← get
    let h := t.header l
    let k := t.openRound l
    let absent := if k = 0 then 0 else t.bitmap l h (lastAbsIndex h.kind)
    let status := if k = 0 then statusWord 0 0 0 0 else statusWord h.last 0 (k - 1) (popcount absent h.n)
    modify fun s => s.setX c (word absent)
    pure (status, h.scope)) fun v t => t.endCask d v.1 (some v.2))

end Sys2Proof.Machine
end

