-- ==== Sys2Proof/Machine/Queue.lean ====
section
/-! DEFINITION. QUE: queue casks (R137, R285, R286, R380). -/

namespace Sys2Proof.Machine

/-- The 64-byte buffer of an entry, checked as a load or as a store (R285). -/
def bufferPlace (k : Acc) (p : Word) : M Phys := do
  checkM (p.toNat % 64 = 0) (.trap ⟨cMisaligned, p, 0⟩)
  let s ← get
  let q ← resolve s.ctx k p 64 64 .answered
  allow s.ctx k q 64
  answered q.loc
  pure q

/-- A dequeued entry written to its buffer: only an uncorrectable error there can stop it (R285). The spec does not say which
agent of the hart writes it; it is the one that reads the buffer of `enq`, so the store buffer and the L1 are passed by
(log 96). -/
def writeEntry (l : Loc) (va : Word) (data : List Byte) : M Unit := do
  checkM (!(← get).isBad l 64) (.trap ⟨match l with | .glob _ => 30 | .spad _ _ => 31, va, 0⟩)
  modify fun s => (s.agree l 64).homeStore l data (.hart s.hart.id)

/-- `enq` (R137, R285). -/
def execEnq (d a : SReg) (s : State) : Result :=
  let p := s.x a
  .next (s.runM (do
    let l ← caskOpen p 0 false
    let q ← bufferPlace .load (s.x d)
    let data ← homeLoad q 64
    caskRelease l
    let _ ← caskAnswers p l [5] cQueueConfig
    let r := (← get).enqueue l data
    set r.1
    pure (statusWord r.2 0 0 0)) fun v t => t.endCask d v none)

/-- `recv` (R137, R285, R286). -/
def execRecv (d a b : SReg) (s : State) : Result :=
  let p := s.x a
  .next (s.runWait d 0 (do
    let l ← caskOpen p 0 true
    let q ← bufferPlace .store (s.x d)
    match ← waitAnswers p l [5] cQueueConfig with
    | none => silentWait l (s.x b) (fun s => pastEnding 0 none s l) 0 (some (q.loc, q.va))
    | some none => pure (some (damagedEnding ((← get).header l).scope))
    | some (some h) => do
      let dl ← fixDeadline (s.x b)
      if (← get).ringCount l ≠ 0 then do
        let r := (← get).dequeue l
        set r.1
        writeEntry q.loc q.va r.2
        pure (some ⟨statusWord 0 0 0 0, none, none, h.scope⟩)
      else match dl with
        | none => pure (some ⟨statusWord 3 0 0 0, none, none, h.scope⟩)
        | some t => do
          beginWait (some l) t 0 (some (q.loc, q.va))
          modify fun s => s.queueAt l .recv t
          pure none) fun t => t.goHome d 0 8 (fun a w u =>
      let e : Ending := ⟨a.status, none, none, a.scope⟩
      match w.buffer with
      | some q => if a.data = [] then u.endWait d 0 e else u.runM (writeEntry q.1 q.2 a.data) fun _ v => v.endWait d 0 e
      | none => u.endWait d 0 e) id)

/-- `qpoll` (R137, R285). -/
def execQpoll (d a : SReg) (s : State) : Result :=
  let p := s.x a
  .next (s.runM (do
    let l ← caskOpen p 0 false
    let q ← bufferPlace .store (s.x d)
    let h ← caskAnswers p l [5] cQueueConfig
    if (← get).ringCount l ≠ 0 then do
      let r := (← get).dequeue l
      set r.1
      writeEntry q.loc q.va r.2
      pure (statusWord 0 0 0 0, h.scope)
    else pure (statusWord 8 0 0 0, h.scope)) fun v t => t.endCask d v.1 (some v.2))

/-- `wake` (R286, R380). A cask of another endpoint is served by that endpoint's wake register. -/
def execWake (a : SReg) (s : State) : Result :=
  let p := s.x a
  .next (s.runM (do
    let l ← caskOpen p 0 false
    caskRelease l
    let _ ← caskAnswers p l [5] cQueueConfig
    modify fun s =>
      let q := s.ringQnum l
      if s.caskEp l = s.endpt && s.wakeAccepted q (.hart s.hart.id) then s.wakeQueue q true else s) fun _ t => t.advance)

end Sys2Proof.Machine
end

