-- ==== Sys2Proof/Machine/Farm.lean ====
section
/-! DEFINITION. FARM: farm casks (R25 to R28, R132, R287 to R289). -/

namespace Sys2Proof.Machine

/-- The fields of a farm checked. -/
def farmCheck (p : Word) (l : Loc) : M Unit := do
  checkM ((← get).farmOk l) (.trap ⟨cFarmConfig, p, 0⟩)

/-- A farm opened at its home (R288): every generation steps, no strip is claimed or done. What was due before has happened
(R289, R435). -/
def State.openFarm (s : State) (l : Loc) : State :=
  let s := s.farmNow l
  let t := (List.range (s.farmCount l)).foldl (fun t i =>
    t.setHome64 (t.stripLoc l i) ((t.stripGen l i + 1) % 2 ^ 32)) s
  (t.setHome64 (l.plus 32) 0).serveFarm l

/-- A strip reported done at the home with a generation (R27, R132, R289), once what was due before has happened (R28, R435), and
the status word. The spec gives its TAG neither for ALL nor for STALE: it is the strip's generation (log 120). -/
def State.finishStrip (s : State) (l : Loc) (i gen : Nat) : State × Word :=
  let t := s.farmNow l
  let g := t.stripGen l i
  if t.stripSt l i = 1 && g = gen then
    let u := t.setHome64 (t.stripLoc l i) (g + 2 * 2 ^ 32)
    let u := u.setHome64 (l.plus 32) ((u.farmDone l + 1) % 2 ^ 32 * 2 ^ 32 + u.farmNext l)
    (u.serveFarm l, statusWord 0 0 g 0)
  else (t.serveFarm l, statusWord 4 0 g 0)

/-- `farm` (R288). -/
def execFarm (d a : SReg) (s : State) : Result :=
  let p := s.x a
  .next (s.runM (do
    let l ← caskOpen p 0 false
    caskRelease l
    let _ ← caskAnswers p l [4] cFarmConfig fun _ => farmCheck p l
    modify fun s => s.openFarm l) fun _ t => t.endCask d (statusWord 0 0 0 0) none)

/-- `strip` (R26, R289). -/
def execStrip (d a b : SReg) (s : State) : Result :=
  let p := s.x a
  .next (s.runWait d 0 (do
    let l ← caskOpen p 0 true
    match ← waitAnswers p l [4] cFarmConfig fun _ => farmCheck p l with
    | none => do
      let r ← silentWait l (s.x b) fun s => pastEnding 0 none s l
      if r.isSome then modify fun t => t.setX b (-1)
      pure r
    | some none => do
      modify fun t => t.setX b (-1)
      pure (some (damagedEnding ((← get).header l).scope))
    | some (some h) => do
      let dl ← fixDeadline (s.x b)
      modify fun t => t.farmNow l
      if (← get).caskBad l then do
        modify fun t => t.setX b (-1)
        pure (some (damagedEnding h.scope))
      else do
        modify fun t => t.serveFarm l
        let r := (← get).claimNow l
        match r.2, dl with
        | some a, _ => do
          set (r.1.setX b a.strip)
          pure (some ⟨a.status, none, none, a.scope⟩)
        | none, none => do
          modify fun t => t.setX b (-1)
          pure (some ⟨statusWord 3 0 0 0, none, none, h.scope⟩)
        | none, some t => do
          beginWait (some l) t
          modify fun u => u.queueAt l .strip t
          pure none) fun t => t.goHome d 0 1 (fun a _ u =>
      (u.setX b a.strip).endWait d 0 ⟨a.status, none, none, a.scope⟩) fun u => u.setX b (-1))

/-- `sdone` (R27, R132, R289). -/
def execSdone (d a b c : SReg) (s : State) : Result :=
  let p := s.x a
  let i := (s.x b).toNat
  .next (s.runM (do
    let l ← caskOpen p 0 false
    caskRelease l
    let _ ← caskAnswers p l [4] cFarmConfig fun _ => do
      farmCheck p l
      checkM (i < (← get).farmCount l) (.trap ⟨cFarmConfig, p, 0⟩)
    let r := (← get).finishStrip l i (bits (s.x c) 31 0)
    set r.1
    checkM (!(← get).caskBad l) (.trap ⟨cObjectDamaged, p, 0⟩)
    pure r.2) fun v t => t.endCask d v none)

/-- `farmw` (R28, R116, R289). -/
def execFarmw (d a b : SReg) (c : VReg) (s : State) : Result :=
  let p := s.x a
  .next (s.runWait d c (do
    let l ← caskOpen p c true
    match ← waitAnswers p l [4] cFarmConfig fun _ => do
        farmCheck p l
        fitCheck c ((← get).farmCount l) with
    | none => silentWait l (s.x b) fun s => pastEnding 0xFFFF (some 0) s l
    | some none => pure (some (damagedEnding ((← get).header l).scope))
    | some (some h) => do
      let dl ← fixDeadline (s.x b)
      modify fun t => t.serveFarm l
      let t ← get
      if t.caskBad l then pure (some (damagedEnding h.scope))
      else if t.farmDone l = t.farmCount l then pure (some ⟨statusWord 0 0 0 0, some 0, none, h.scope⟩)
      else match dl with
        | none => pure (some ⟨statusWord 3 0 0 0xFFFF, some 0, none, h.scope⟩)
        | some u => do
          beginWait (some l) u
          modify fun t => t.queueAt l .farmw u
          pure none) fun t => t.goHome d c 1 (fun a _ u =>
      u.endWait d c ⟨a.status, a.absent, none, a.scope⟩) id)

end Sys2Proof.Machine
end

