-- ==== Sys2Proof/Machine/Fetch.lean ====
section
/-! DEFINITION. Fetching a convoy (R17, R19), the kinds of its members (R18), and the checks at decode (R19, R151,
R175). -/

namespace Sys2Proof

/-- The kinds of R18, the seven vector classes first. -/
inductive Kind where
  | load | store | pipeA | pipeB | matrix | permute | copy | transfer | wait | scalar
deriving DecidableEq, Repr

/-- Whether a kind is one of the vector classes (R18). -/
def Kind.vector : Kind → Bool
  | .transfer => false | .wait => false | .scalar => false | _ => true

/-- The kind of an instruction (R18). Events are of no kind; they are never members of a convoy. -/
def Instr.kind : Instr → Kind
  | .vld .. => .load | .vldr .. => .load | .vlds .. => .load | .vldx .. => .load | .vldc .. => .load
  | .vst .. => .store | .vstr .. => .store | .vsts .. => .store | .vstx .. => .store | .vstc .. => .store
  | .vsca .. => .store | .vamo .. => .store | .vrrs .. => .store | .vrrsq .. => .store
  | .vadd .. => .pipeA | .vsub .. => .pipeA | .vrsub .. => .pipeA | .vmin .. => .pipeA | .vmax .. => .pipeA
  | .vand .. => .pipeA | .vor .. => .pipeA | .vxor .. => .pipeA | .vsll .. => .pipeA | .vsrl .. => .pipeA
  | .vsra .. => .pipeA | .vsadd .. => .pipeA | .vssub .. => .pipeA | .vadc .. => .pipeA | .vsbc .. => .pipeA
  | .vmadc .. => .pipeA | .vmsbc .. => .pipeA | .vabs .. => .pipeA | .vneg .. => .pipeA | .vmerge .. => .pipeA
  | .vmv .. => .pipeA | .vsgnj .. => .pipeA | .vsgnjn .. => .pipeA | .vsgnjx .. => .pipeA | .vclass .. => .pipeA
  | .veq .. => .pipeA | .vne .. => .pipeA | .vlt .. => .pipeA | .vle .. => .pipeA | .vgt .. => .pipeA
  | .vge .. => .pipeA | .vunord .. => .pipeA
  | .vmul .. => .pipeB | .vmulh .. => .pipeB | .vmulhu .. => .pipeB | .vdiv .. => .pipeB | .vrem .. => .pipeB
  | .vfma .. => .pipeB | .vfms .. => .pipeB | .vfnma .. => .pipeB | .vfnms .. => .pipeB | .vsqrt .. => .pipeB
  | .vwadd .. => .pipeB | .vwmul .. => .pipeB | .vcvt .. => .pipeB | .vcvtr .. => .pipeB | .vqmx .. => .pipeB
  | .vrnsx .. => .pipeB | .vrnsi .. => .pipeB
  | .tld .. => .matrix | .tldg .. => .matrix | .tst .. => .matrix | .tclr .. => .matrix | .tmv .. => .matrix
  | .vmxa .. => .matrix | .vmxs .. => .matrix | .tout .. => .matrix
  | .mand .. => .permute | .mor .. => .permute | .mxor .. => .permute | .mandn .. => .permute | .morn .. => .permute
  | .mnot .. => .permute | .mmv .. => .permute | .mpop .. => .permute | .mffs .. => .permute | .mfls .. => .permute
  | .msbf .. => .permute | .msif .. => .permute | .mslu .. => .permute | .msld .. => .permute | .iota .. => .permute
  | .vid .. => .permute
  | .vslup .. => .permute | .vsldn .. => .permute | .vslup1 .. => .permute | .vsldn1 .. => .permute
  | .vrgath .. => .permute | .vcompr .. => .permute | .vexpand .. => .permute | .vbcast .. => .permute
  | .vmvxs .. => .permute | .vmvsx .. => .permute | .vext .. => .permute | .vins .. => .permute | .vrowmv .. => .permute
  | .vrsum .. => .permute | .vrosum .. => .permute | .vrmax .. => .permute | .vrmin .. => .permute
  | .vrand .. => .permute | .vror .. => .permute | .vrxor .. => .permute
  | .cpy .. => .copy | .cpys .. => .copy | .fill .. => .copy | .cexp .. => .copy | .cwm .. => .copy
  | .cfree .. => .copy
  | .beq .. => .transfer | .bne .. => .transfer | .blt .. => .transfer | .bge .. => .transfer
  | .bltu .. => .transfer | .bgeu .. => .transfer | .jal .. => .transfer | .jalr .. => .transfer | .eret => .transfer
  | .bar .. => .wait | .barr .. => .wait | .barw .. => .wait | .acq .. => .wait | .qarr .. => .wait
  | .qwait .. => .wait | .recv .. => .wait | .strip .. => .wait | .farmw .. => .wait | .cwait .. => .wait
  | _ => .scalar

/-- The members of R346, whose results belong to no one position. -/
def Instr.whole : Instr → Bool
  | .vrsum .. => true | .vrosum .. => true | .vrmax .. => true | .vrmin .. => true | .vrand .. => true
  | .vror .. => true | .vrxor .. => true | .vmxa .. => true | .vmxs .. => true | .tout .. => true
  | .vqmx .. => true | .vcompr .. => true | .vexpand .. => true | .mpop .. => true | .mffs .. => true
  | .mfls .. => true | .msbf .. => true | .msif .. => true | .iota .. => true | .vmvxs .. => true
  | .vslup .. => true | .vsldn .. => true | .vslup1 .. => true | .vsldn1 .. => true | .vrgath .. => true
  | .vbcast .. => true | .vext .. => true | .mslu .. => true | .msld .. => true
  | _ => false

/-- The miscellaneous SYS functions that U may not run (R151 item 4). -/
def Instr.privileged : Instr → Bool
  | .eret => true | .tlbi .. => true | .tlbia => true | .vsvall .. => true | .vrsall .. => true | .tsvall .. => true
  | .trsall .. => true | .rapark => true | .rarestore => true | .lgset .. => true | .preempt .. => true
  | _ => false

end Sys2Proof

namespace Sys2Proof.Machine

/-! ### Fetch (R17, R19) -/

/-- The words from `a` on, up to the one whose C bit is 1, and never more than `n`. -/
def fetchWords : Nat → Word → M (List (BitVec 32))
  | 0, _ => pure []
  | n + 1, a => do
    let w ← fetchWord a
    if convoyBit w then pure [w]
    else do
      let rest ← fetchWords n (a + 4)
      pure (w :: rest)

/-- The convoy at an address: nine words at most (R19). -/
def fetchConvoy (a : Word) : M (List (BitVec 32)) := fetchWords 9 a

/-- How many words the convoy at `pc` has, as the trace names it (R425); one where it cannot be fetched. -/
def State.convoyWords (s : State) : Nat :=
  match (fetchConvoy s.hart.pc).go s with
  | (.ok ws, _) => min 8 (max 1 ws.length)
  | (.error _, _) => 1

/-- The instruction at `pc`, if there is one that can be fetched. -/
def State.current (s : State) : Option Instr :=
  match (fetchWord s.hart.pc).go s with
  | (.ok w, _) => (decodeWord w).toOption
  | (.error _, _) => none

/-! ### The checks at decode (R19, R151, R175) -/

/-- A decoded member: its address, its word, its instruction. -/
structure Fetched where
  addr : Word
  word : BitVec 32
  instr : Instr
deriving DecidableEq, Repr

/-- The trap that names a word. -/
def wordTrap (code : Nat) (addr : Word) (w : BitVec 32) : Trap := ⟨code, addr, w.zeroExtend 64⟩

/-- Every word decoded, or `ILLEGAL_ENCODING` on the lowest-addressed one that is none (R151 item 2). -/
def decodeWords : Word → List (BitVec 32) → Except Trap (List Fetched)
  | _, [] => .ok []
  | a, w :: ws =>
    match decodeWord w with
    | .error _ => .error (wordTrap cIllegalEncoding a w)
    | .ok i =>
      match decodeWords (a + 4) ws with
      | .error t => .error t
      | .ok fs => .ok (⟨a, w, i⟩ :: fs)

/-- The first member whose vector class an earlier one has. -/
def secondOfClass : List Kind → List Fetched → Option Fetched
  | _, [] => none
  | seen, f :: fs =>
    let k := f.instr.kind
    if k.vector && seen.contains k then some f else secondOfClass (k :: seen) fs

/-- The convoy causes (R19), in the order of the table. `TVAL2` is the offending word (R342). -/
def convoyCause (fs : List Fetched) : Option Trap :=
  let many := 1 < fs.length
  let at_ := fun (code : Nat) (f : Option Fetched) => f.map fun f => wordTrap code f.addr f.word
  let wait := if many then fs.find? fun f => f.instr.kind = .wait else none
  let scalar := if many then fs.find? fun f => f.instr.kind = .scalar else none
  let transfer := fs.dropLast.find? fun f => f.instr.kind = .transfer
  (at_ 58 wait).orElse fun _ => (at_ 2 (secondOfClass [] fs)).orElse fun _ => (at_ 2 scalar).orElse fun _ =>
    (at_ 2 transfer).orElse fun _ => at_ 2 (fs.drop 8).head?

/-- `LOOP_STATE` at decode (R175): the convoy holds the word at LEND and does not end there. -/
def loopCause (h : Hart) (fs : List Fetched) : Option Trap :=
  let last := word (h.lend.toNat / 4 * 4)
  if h.lcnt ≠ 0 && fs.dropLast.any fun f => f.addr = last then some ⟨cLoopState, last, 0⟩ else none

/-- `PRIVILEGED_INSTR` (R151 item 4). -/
def privilegeCause (h : Hart) (fs : List Fetched) : Option Trap :=
  if h.priv = .user then (fs.find? fun f => f.instr.privileged).map fun f => wordTrap cPrivInstr f.addr f.word
  else none

/-- Items 2 to 4 of R151. -/
def decodeConvoy (h : Hart) (a : Word) (ws : List (BitVec 32)) : Except Trap (List Fetched) :=
  match decodeWords a ws with
  | .error t => .error t
  | .ok fs =>
    match (convoyCause fs).orElse fun _ => (loopCause h fs).orElse fun _ => privilegeCause h fs with
    | some t => .error t
    | none => .ok fs

end Sys2Proof.Machine
end

