-- ==== Sys2Proof/Machine/Debug.lean ====
section
/-! DEFINITION. DBG: the lane-cycle record and the trace mark (R290, R421, R422, R425). -/

namespace Sys2Proof.Machine

/-- `LCR_CYC` as a word (R421). -/
def Lcr.cycWord (l : Lcr) : Word := word (l.on.toNat * 2 ^ 63 + l.cyc)

/-- Slots added to a record that counts: the five classes, and their sum to `LCR_CYC` (R422). When the count would pass
2^48 − 1, counting stops and `LCR_OVERFLOW` is posted. -/
def Hart.countSlots (h : Hart) (use mask tail start stall : Nat) : Hart :=
  let n := use + mask + tail + start + stall
  if !h.lcr.on then h
  else if 2 ^ 48 ≤ h.lcr.cyc + n then
    { h with
      lcr := { h.lcr with on := false }
      pending := if (⟨90, 0, 0⟩ : Trap) ∈ h.pending then h.pending else h.pending ++ [⟨90, 0, 0⟩] }
  else
    { h with lcr := {
      use := h.lcr.use + use
      mask := h.lcr.mask + mask
      tail := h.lcr.tail + tail
      start := h.lcr.start + start
      stall := h.lcr.stall + stall
      cyc := h.lcr.cyc + n
      on := true } }

/-- `lcrs` (R290): it waits for the hart's vector convoys to drain. -/
def execLcrs (d a : SReg) (s : State) : Result :=
  .next (s.runM vectorDrained fun _ t =>
    ({ t with hart.lcr := { on := bitOf (s.x a) 0 } }).result d t.hart.lcr.cycWord)

/-- `mark` (R290, R425). -/
def execMark (a : SReg) (s : State) : Result :=
  .next ((s.trace 2 s.hart.pc 1 (bits (s.x a) 31 0)).advance)

/-- The lane-cycle record overflows (R422): counting stops and the cause is pending. -/
def execLcrOverflow (s : State) : Result :=
  .next (if s.hart.lcr.on then ({ s with hart.lcr.on := false }).post s.hart.id ⟨90, 0, 0⟩ else s)

/-- A sample record of the current hart, a sampling period after the last sample (R425). -/
def execTraceSample (s : State) : Result :=
  let due := s.part.sampled + s.part.tracePeriod
  let t := if s.now.toNat < due then s.pass (due - s.now.toNat) else s
  .next (({ t with part.sampled := t.now.toNat }).trace 1 t.hart.pc t.convoyWords 0)

/-- A host halt request (R426): `DEBUG_HALT` is pending until the next convoy boundary. -/
def execDebugHalt (s : State) : Result := .next (s.post s.hart.id ⟨86, 0, 0⟩)

end Sys2Proof.Machine
end

