-- ==== Sys2Proof/Machine/EventHart.lean ====
section
/-! DEFINITION. Events at a hart: asynchronous causes (R344), time slices (R329), grant changes (R337), the end of stalls
(R70 to R80, R74), answers, records and deadlines of waits (R123, R267, R269, R431, R435), and the events at the home of a
cask (R123, R132, R435). Events of a hart act on the current one. -/

namespace Sys2Proof.Machine

/-- Domain time goes on until `t`, if it has not come yet. -/
def State.passUntil (s : State) (t : Nat) : State := if s.now.toNat < t then s.pass (t - s.now.toNat) else s

/-! ### Asynchronous causes (R329, R338, R344) -/

/-- Causes that never split a stalled convoy, nor a running memory member (R344): the debug causes 86 to 88, and a
`PREEMPT_REQUEST` that is not urgent or finds UEN = 0. -/
def Hart.splits (h : Hart) (t : Trap) : Bool :=
  !(t.code = 86 || t.code = 87 || t.code = 88) && !(t.code = 79 && !(bitOf t.tval2 0 && h.uen))

/-- The cause that comes first, if causes are taken. -/
def Hart.candidate (h : Hart) : Option Trap := if h.asyncEnabled then firstPending h.pending else none

/-- The cause that splits the convoy which the current hart holds in a stall: the first of those that may (R344). -/
def Hart.splitCause (h : Hart) : Option Trap :=
  if h.asyncEnabled then firstPending (h.pending.filter h.splits) else none

/-- Whether an explicit wait only has to take its answer: it completes before a cause is taken (R268). One whose completion is
held back gives way (R431). -/
def Wait.ends (w : Wait) : Bool := w.answer.isSome && w.delay.isNone

/-- What keeps a hart at a convoy boundary, by kind and object: an element train or an open load that may still fail, since until
then no later convoy has an effect and no cause lands (R105, R343; log 99); and where earlier vector convoys must have drained, a
register that one of them is still to fill (R21, R344). -/
def State.boundaryStop (s : State) (drained : Bool) : Option (Nat × Nat) :=
  match s.unacked.min?, s.hart.reassembly.find? fun r => !r.left && !s.answering r.ep with
  | some low, _ => some (10, low)
  | none, some r => some (3, r.reg)
  | none, none => if drained then s.openReg.map fun r => (3, r) else none

/-- The cause that a stalled scalar instruction gives way to before its deadline, at which it lands (R91, R344; log 70). A response
is awaited first: the instruction has issued. What waits for earlier vector convoys lets them drain first. -/
def State.scalarCause (s : State) (st : Stall) : Option Trap :=
  if st.kind = 12 || st.deadline ≤ s.now.toNat then none
  else if st.kind = 3 || st.kind = 10 then (if (s.boundaryStop true).isSome then none else s.hart.candidate)
  else s.hart.splitCause

/-- A cause taken at a boundary or at the instruction that waits, named in the trace by the convoy that it lands before
(R425). -/
def State.landAsync (s : State) (t : Trap) : State := ({ s with hart.words := s.convoyWords }).takeAsync t

/-- A pending enabled asynchronous cause is taken (R344): at a boundary once the hart's vector convoys have drained, in an explicit
wait, and at a stalled scalar instruction before its deadline; a stalled vector convoy and, for an urgent request, the vector memory convoy that issues next
are split by the step that runs them. -/
def execAsyncCauseTaken (pos outstanding : Nat) (s : State) : Result :=
  let h := s.hart
  .next (match (if h.run = .running then h.candidate else none) with
    | none => s
    | some t =>
      match h.stall with
      | some st =>
        if st.vec then (if h.splitCause.isSome then { s with hart.splitAt := some (pos, outstanding) } else s)
        else (s.scalarCause st).elim s s.landAsync
      | none =>
        if h.wait.elim false Wait.ends then s
        else if t.code = 79 && h.splits t && h.wait.isNone && (s.current.elim false fun i => i.kind.vector) then
          { s with hart.splitAt := some (pos, outstanding) }
        else if h.wait.isSome then s.landAsync t
        else if (s.settleOwn.boundaryStop true).isSome then s.settleOwn
        else s.settleOwn.landAsync t)

/-- A pre-emption request arrives (R338). -/
def execPreemptRequest (requester : BitVec 11) (urgent : Bool) (s : State) : Result :=
  .next { s with hart := s.hart.request requester.toNat urgent }

/-- `NOW` reaches `SLICE`.TIME (R329). -/
def execTimeSlice (s : State) : Result :=
  let h := s.hart
  .next (if h.sliceArmed && bitOf h.slice 63 then
      let t := s.passUntil (bits h.slice 47 0)
      { t with hart := sliceDue t.now.toNat t.hart }
    else s)

/-- A grant change reaches the harts of the core once their vector convoys have drained (R337). -/
def execLgsetApply (s : State) : Result :=
  .next (s.stepGrants s.hart.core)

/-! ### The end of implicit stalls (R70, R74, R76, R78, R79) -/

/-- The stall of the current hart ends when it is of a kind and what it waits for holds; the instruction then goes on, a
vector convoy at the position where it stalled, as the convoy that it is (R344), and a `stag` behind the granules that it has set
(R242). -/
def State.endStall (s : State) (kind : Nat) (ends : Nat → Bool) : State :=
  match s.hart.stall with
  | some st =>
    if st.kind = kind && ends st.object then
      { s with hart.stall := if st.vec then some { st with kind := 13, object := 0, deadline := 2 ^ 64 }
          else if st.kind = 4 then some { st with kind := 13, deadline := 2 ^ 64 } else none }
    else s
  | none => s

/-- Whether a walk of an address parks (R70). -/
def State.parks (s : State) (va : Nat) : Bool :=
  match (translate s.ctx .load va).go s with
  | (.error (.stall 4 _), _) => true
  | _ => false

/-- The move of the page completes and the parked instruction goes on (R70). -/
def execParkResume (s : State) : Result := .next (s.endStall 4 fun va => !s.parks va)

/-- Whether every byte that a channel has been promised has landed (R76). -/
def Channel.landedAll (k : Channel) : Bool := k.busy = 0 && (!k.counts || k.dbase + k.len ≤ k.wm)

/-- The watermark passes the stalled access (R76): here once it has passed the whole range. An access that it passes
earlier goes on by itself, since a stalled instruction is tried again in every step. -/
def execWatermarkStallResume (s : State) : Result :=
  .next (s.endStall 1 fun n => ((s.coreAt s.hart.core).ch.toList.getD n {}).landedAll)

/-- The copies that the stalled access overlaps have retired (R78): here once no copy of the core is left. -/
def execScoreboardStallResume (s : State) : Result :=
  .next (s.endStall 2 fun _ => !s.copies.any fun c => c.hart / 4 = s.hart.core)

/-- The landed bits of the register are set again (R79). -/
def execLandedBitStallResume (s : State) : Result :=
  .next (s.endStall 3 fun n => s.hart.flying.toList.getD n 0 = 0)

/-- An implicit stall reaches its deadline (R74). The hart's turn tries the instruction once more: it traps there, unless what
it waits for has come. -/
def execWaitExpiredImplicit (s : State) : Result :=
  .next (match s.hart.stall with
    | none => s
    | some st => if st.kind = 13 then s else s.passUntil st.deadline)

/-! ### Answers and records (R123, R267, R269) -/

/-- The endpoint of a cask's home answers again. -/
def State.answers (s : State) (l : Loc) : State :=
  match l with
  | .glob pa => { s with silent := s.silent.erase (epOf pa) }
  | .spad _ _ => s

/-- The round tag of an answer, of which the status word has the low 32 bits (R115): the first one from the round waited for
on. -/
def answerTag (round : Nat) (status : Word) : Nat :=
  round + (bits status 47 16 + (2 ^ 32 - round % 2 ^ 32)) % 2 ^ 32

/-- Whether an answer carries an absentee set (R116): a closure record or LATE, and not a grant of a lock. -/
def State.carriesSet (s : State) (l : Loc) (status : Word) : Bool :=
  let code := bits status 63 56
  code ≤ 2 && !(code = 0 && (s.header l).kind = 2)

/-- A cask operation's answer arrives (R269): a wait takes it, with the strip index or the entry that comes with it, and an
instruction that awaits its answer as an implicit stall finds its home answering. -/
def execCaskAnswerArrival (status : Word) (carried : Carried) (s : State) : Result :=
  .next (match s.hart.wait, s.hart.stall with
    | some w, _ =>
      match w.cask, w.answer with
      | some l, none =>
        let e := s.hart.entry l
        { s with hart.wait := some { w with answer := some {
          status := status
          absent := if s.carriesSet l status then some carried.absent else none
          n := e.elim 0 (·.n)
          tag := answerTag w.round status
          scope := e.elim 4 (·.scope)
          strip := word (leNat (carried.data.take 8))
          data := carried.data } } }
      | _, _ => s
    | none, some st =>
      if st.kind = 6 then
        match (caskPlace (word st.object) 64 .posted).go s with
        | (.ok l, _) => s.answers l
        | _ => s
      else s
    | none, none => s)

/-- A closure record reaches the current hart (R123, R267): its wait, the slot of its entry, or a parked entry. -/
def execClosureRecordArrival (cask : Loc) (status : Word) (tag absent : Nat) (s : State) : Result :=
  let r : Record := ⟨status, tag, absent⟩
  let t := match s.hart.entry cask with
    | some e => { s with hart := s.hart.takeRecord cask e.index r e.n e.scope }
    | none => s
  .next ((s.hart.parked.filter fun p => p.cask = cask).foldl (fun t p =>
    t.recordParked p.area p.slot r (field (t.home64 (.glob (p.area + 0x40 + 64 * p.slot + 8))) 35 20)) t)

/-! ### Deadlines at the hart (R431, R435) -/

/-- What a wait without an answer leaves at its deadline (R123, R435): EXPIRED, or for a `recv` EMPTY, with DETAIL 0xFE. -/
def State.lostWait (s : State) (l : Loc) : Instr → State
  | .bar d _ _ c => s.loseRound d c l .arrive
  | .barw d _ _ c => s.loseRound d c l .wait
  | .qarr d _ _ c => s.loseRound d c l .arrive
  | .qwait d _ _ c => s.loseRound d c l .wait
  | .barr d _ _ => s.loseRound d 0 l .barr
  | .acq d _ _ c => s.loseRound d c l .acq
  | .recv d _ _ => s.endWait d 0 (s.lostEnding l 8 false)
  | .strip d _ b => (s.setX b (-1)).endWait d 0 (s.lostEnding l 1 false)
  | .farmw d _ _ c => s.endWait d c (s.lostEnding l 1 false)
  | _ => s

/-- With no answer by the deadline, the hart ends its wait itself (R123, R435): a home that answers has answered by then. A
`cwait` returns EXPIRED unless its channel is complete or has failed (R77, R264). -/
def execWaitDeadlineAtHart (s : State) : Result :=
  .next (match s.hart.wait with
    | none => s
    | some w =>
      if w.answer.isSome then s
      else
        let t := s.passUntil w.deadline
        match w.cask, s.current with
        | some l, some i =>
          let u := if t.homeSilent l then t else t.dueAt l
          if (u.hart.wait.bind (·.answer)).isSome then u else u.lostWait l i
        | none, some (.cwait ch _ b) => t.runM (channelEnd ch) fun done u => u.endChannel b ch (if done then 0 else 1)
        | _, _ => t)

/-- A member of a wide barrier completes after its stagger delay (R431). -/
def execStaggeredCompletion (s : State) : Result :=
  .next (match s.hart.wait.bind (·.delay), s.current with
    | some t, some (.bar d _ _ c) => (s.passUntil t).goRound d c .arrive
    | some t, some (.barw d _ _ c) => (s.passUntil t).goRound d c .wait
    | _, _ => s)

/-! ### Events at the home of a cask (R123, R132, R435) -/

/-- The home closes a round at DEADLINE − G (R123), unless it finds the cask damaged (R122); a round without a deadline closes only once it is complete. -/
def execRoundClosure (cask : Loc) (s : State) : Result :=
  let d := s.roundDeadline cask
  let t := if d = noDeadline then s else s.passUntil (d - guard (s.header cask).scope)
  .next ((t.noteDamage cask).settle cask)

/-- At D − G the home ends the waits of a cask whose deadline comes first (R435). -/
def execHomeWaitDeadline (cask : Loc) (s : State) : Result :=
  match (s.waiters.filter fun w => w.cask = cask).map (·.deadline) with
  | [] => .next s
  | d :: ds => .next ((s.passUntil (ds.foldl min d - guard (s.header cask).scope)).dueAt cask)

/-- A strip's claim expires (R132), unless the home finds the cask damaged (R122). -/
def execStripClaimExpiry (cask : Loc) (strip : Nat) (s : State) : Result :=
  .next (if (s.header cask).kind = 4 && strip < s.farmCount cask && s.stripSt cask strip = 1 then
      (s.passUntil (s.home64 ((s.stripLoc cask strip).plus 8))).serveFarm cask
    else s)

end Sys2Proof.Machine
end

