-- ==== Sys2Proof/Machine/EventMemory.lean ====
section
/-! DEFINITION. Events of memory: stores on their way (R86, R98, R99), flushes (R100 to R102), element trains (R104),
responses (R335, R401, R402), copies (R76, R261), the requests of other endpoints (R82, R96, R117, R377), migration
(R366 to R369) and leases (R370 to R375). -/

namespace Sys2Proof

/-- The kinds of cask that a request is for (R118). -/
def CaskRequest.kinds (r : CaskRequest) : List Nat :=
  match r.group, r.verb with
  | .sync, .arrive _ => [1] | .sync, .wait _ => [1] | .sync, .acquire _ => [2] | .sync, .release _ => [2]
  | .sync, .mendLock _ => [2] | .sync, .join => [1, 2] | .sync, .leave => [1, 2] | .sync, .commit .. => [2, 4]
  | .qrm, .arrive _ => [3, 6] | .qrm, .wait _ => [3, 6] | .qrm, .join => [3, 6] | .qrm, .leave => [3, 6]
  | .qrm, .read => [1, 3, 6]
  | .sums, .contribute .. => [3] | .collective, .contribute .. => [6]
  | .que, .enqueue _ => [5] | .que, .poll => [5] | .que, .receive _ => [5]
  | .farm, .openFarm => [4] | .farm, .claim _ => [4] | .farm, .finish .. => [4] | .farm, .finished _ => [4]
  | _, _ => []

/-- Whether a request is a wait, which a damaged cask answers with DAMAGED (R122). -/
def CaskVerb.waits : CaskVerb → Bool
  | .arrive _ => true | .wait _ => true | .acquire _ => true | .receive _ => true | .claim _ => true | .finished _ => true
  | _ => false

/-- Fields of a command (R366). -/
def EngineCommand.id (c : EngineCommand) : Nat := bits c.dw[0] 14 8
def EngineCommand.notify (c : EngineCommand) : Nat := bits c.dw[0] 42 32
def EngineCommand.completion (c : EngineCommand) : Nat := bits c.dw[7] 56 0
def EngineCommand.peer (c : EngineCommand) : Endpoint := .ofNat 13 (bits c.dw[3] 12 0)

/-- Whether a command's OP and its lease id are in order (R366). -/
def EngineCommand.formed (c : EngineCommand) (op : Nat) : Bool := bits c.dw[0] 3 0 = op && c.id ≠ 0

end Sys2Proof

namespace Sys2Proof.Machine

/-! ### Faults that come from outside (R403) -/

/-- A fault at the request of the instruction of hart `n` that is stalled or waits: it traps there (log 56). -/
def State.strike (s : State) (n : Nat) (t : Trap) : State :=
  let h := s.hartAt n
  let me := s.hart.id
  if h.stall.isSome || h.wait.isSome then ((s.switchTo n).landHere t).switchTo me else s

/-- A posted store of hart `n` fails: no instruction waits for it, and its failure is latched for the one that will (R100, R403).
-/
def State.strikeStore (s : State) (n : Nat) (code : Nat) (ep : Endpoint) (die : Die) : State :=
  s.modHart n fun h => if h.latch.isSome then h else { h with latch := some ⟨code, ep, die, 0⟩ }

/-- The convoy of hart `n` that stands at `head` fails at position `p` (R345, R403): it stops there, whatever the hart has come to
since. -/
def State.failConvoy (s : State) (head lcnt : Word) (start p : Nat) (committed : Bool) (cause : Trap) : State :=
  let u := { s with
    hart.pc := head
    hart.vstart := p
    hart.lcnt := lcnt }
  let v := { u with hart.words := u.convoyWords }
  if u.hart.run = .running then v.enterTrap cause head (decide (start < p) || committed) else u

/-- A fault-only-first load that stands alone in its convoy trims at position `p` (R68, R80): `d` is its first register. -/
def State.trimLoad (s : State) (d p : Nat) : State :=
  let landed := (List.range s.hart.vrow).foldl (fun (t : State) i =>
    if h : d + i < 32 then { t with hart.flying := t.hart.flying.set (d + i) 0 h } else t) s
  { landed.zeroTail d s.hart.vrow (etWidth s.hart.et) p with hart.vl := p }

/-- A request of an open load of hart `n` fails (R403): what the load awaits from homes that answer has landed, and the load trims or
its convoy stops at the lowest position that has not been performed (R68, R345). Of a load that a split has left outstanding
nothing is in progress that could fault, and its request is dropped (log 57). -/
def State.failLoad (s : State) (n : Nat) (r : Reassembly) (cause : Trap) : State :=
  let me := s.hart.id
  let u := s.switchTo n
  let drop := fun (t : State) (gone : Reassembly → Bool) =>
    { t with hart.reassembly := t.hart.reassembly.filter fun q => !gone q }
  if r.left then (drop u fun q => q.place = r.place).switchTo me
  else
    let mine := fun (q : Reassembly) => !q.left && q.head = r.head
    let t := u.ackTrains.answerRequests (u.hart.reassembly.filter fun q => mine q && q.place ≠ r.place && u.answering q.ep)
    let low := ((t.hart.reassembly.filter mine).flatMap fun q => q.src.map (·.pos)) ++ t.unacked
    let p := low.foldl min r.first
    let v := drop t mine
    (match r.tile with
    | some d => if r.start < p then v.trimLoad d p else v.failConvoy r.head r.lcnt r.start p r.committed cause
    | none => v.failConvoy r.head r.lcnt r.start p r.committed cause).switchTo me

/-- A scalar load of hart `n` that was left open fails (R403). -/
def State.failLate (s : State) (n : Nat) (l : LateLoad) (cause : Trap) : State :=
  let me := s.hart.id
  let u := s.switchTo n
  (({ u with hart.late := none }).failConvoy l.head u.hart.lcnt 0 0 false cause).switchTo me

/-! ### Stores (R86, R98, R99) -/

/-- Whether two stores share a byte. -/
def Buffered.meets (a b : Buffered) : Bool := decide (a.pa < b.pa + b.data.length) && decide (b.pa < a.pa + a.data.length)

/-- Store `i` of the current hart's buffer leaves for its home (R86), unless it has to wait for flushes (R100): stores to one byte
leave in program order. -/
def execStoreBufferDrain (i : Nat) (s : State) : Result :=
  .next (match s.hart.buffer[i]? with
    | none => s
    | some b =>
      if (s.hart.buffer.take i).any fun c => c.meets b then s
      else
        let r := ({ s with hart.buffer := s.hart.buffer.eraseIdx i }).sendStore b
        if r.2 then r.1 else { r.1 with hart.buffer := s.hart.buffer })

/-- Posted store `i` is applied at its home, once every earlier one of its source to that line has been (R99). -/
def execStoreApply (i : Nat) (s : State) : Result :=
  .next (match s.posted[i]? with
    | none => s
    | some p =>
      if (s.posted.take i).any fun q => q.hart = p.hart && q.pa / 64 = p.pa / 64 then s
      else ({ s with posted := s.posted.eraseIdx i }).applyPosted p)

/-! ### Flushes (R100 to R102) -/

/-- A flushing read of a hart at a die of this module (R102): its earlier posted stores to that die are applied first. -/
def execFlushingRead (src : Nat) (die : Die) (s : State) : Result := .next (s.applyTo src s.endpt die)

/-- The answer of a flush reaches the current hart (R101, R102): the pair is done with, and so is a flush that a 65th pair
brought about (R100); an instruction that waits for its flushes has this answer. -/
def execFlushAnswer (ep : Endpoint) (die : Die) (s : State) : Result :=
  let t := s.flushed (ep, die)
  let waits := t.hart.stall.elim false fun st => st.kind = 0
  .next { t with
    hart.answered := if waits && !t.hart.answered.contains (ep, die) then t.hart.answered ++ [(ep, die)] else t.hart.answered }

/-- A flush is not answered in time (R100, R101): the turn of the instruction that waits for it traps; one that a 65th pair
brought about is latched. -/
def execFlushTimeout (ep : Endpoint) (die : Die) (s : State) : Result :=
  .next (match s.hart.stall, s.hart.overflow.find? fun q => q.1 = ep && q.2.1 = die with
    | some st, o => if st.kind = 0 then s.passUntil st.deadline else o.elim s fun q => s.passUntil q.2.2
    | none, o => o.elim s fun q => s.passUntil q.2.2)

/-! ### What another endpoint may access (R377) -/

/-- Why the home refuses another endpoint `n` bytes, if it does (R377, R434). -/
def State.exportStop (s : State) (pa n : Nat) (store : Bool) : Option Nat :=
  let lent := s.leases.any fun l => l.lender = s.endpt && (l.state = .active || l.state = .racking)
    && l.base ≤ pa && pa + n ≤ l.base + l.units * 2 ^ 29
  if epOf pa ≠ s.endpt || !s.backed (offOf pa) then some cRemoteAccess
  else match s.exports.find? fun e => e.page = pa / 65536 with
    | some e => if e.withdrawn then some cRemotePage else if store && !e.writable then some cRemoteAccess else none
    | none => if lent then none else some cRemoteAccess

/-! ### Element trains (R104) -/

/-- The 64-byte line of a place. -/
def lineOf : Loc → Nat
  | .glob pa => pa / 64
  | .spad c o => 2 ^ 57 + spadKey c o / 64

/-- Whether a train's destination has applied what its tail counts (R104). -/
def Train.complete (t : Train) : Bool := t.tail = some t.applied && t.items.isEmpty

/-- An element of a train of this module's hart arrives: the one for an address, after the earlier ones of its hart to that
line (R85, R99). -/
def State.itemArrives (s : State) (i pa : Nat) : State :=
  match s.trains[i]? with
  | none => s
  | some t =>
    match (enum t.items).find? fun r => r.2.loc = .glob pa with
    | none => s
    | some r => s.landItems fun x =>
        x.2.1 = t.hart && lineOf x.2.2.loc = pa / 64 && (decide (x.1.1 < i) || (x.1.1 == i && decide (x.1.2 ≤ r.1)))

/-- A train of another endpoint's hart that is complete is acknowledged, and gone (R104). -/
def State.ackForeign (s : State) : State :=
  let gone := fun (t : Train) => t.hart.isNone && t.complete
  { (s.trains.filter gone).foldl (fun s _ => s.reply (.data [])) s with trains := s.trains.filter fun t => !gone t }

/-- An element of a train, or its tail, arrives at the destination (R104). A train numbered past the last is a new one, of a
hart of another endpoint; an element that the home refuses is answered with its cause and done with (R377). -/
def execTrainElement (train : Nat) (part : TrainPart) (s : State) : Result :=
  let s := if train < s.trains.length then s
    else { s with trains := s.trains ++ [{ hart := none, ep := s.endpt, die := 0 }] }
  let i := min train (s.trains.length - 1)
  let at_ := fun (f : Train → Train) => { s with trains := s.trains.modify i f }
  .next (match (s.trains[i]?).bind (·.hart), part with
    | some _, .element pa _ => s.itemArrives i pa
    | some _, .tail count => at_ fun t => { t with tail := t.tail.orElse fun _ => some count }
    | none, .element pa data =>
      let t := at_ fun t => { t with die := dieOf (offOf pa), applied := t.applied + 1 }
      (match s.exportStop pa data.length true with
      | some c => t.reply (.cause c)
      | none => t.homeStore (.glob pa) data .peer).ackForeign
    | none, .tail count => (at_ fun t => { t with tail := some count }).ackForeign)

/-- The acknowledgement of a train reaches the issuing hart, with the flags that its elements have raised (R104, R237). -/
def execTrainAck (ep : Endpoint) (die : Die) (s : State) : Result :=
  .next (match s.trains.find? fun t => t.hart = some s.hart.id && t.ep = ep && t.die = die && t.complete with
    | some t => ({ s with trains := s.trains.erase t }).flagsTo t.hart t.ctx t.fl
    | none => s)

/-! ### Responses (R335, R401, R402) -/

/-- A response reaches the current hart (R401): `seq` is the SEQ of its request, `mask` the positions that it carries, which the homes
hold (R82), and `excess` how many bytes more than those. One that no entry matches is dropped; one that carries more than was
asked for is discarded, and its instruction faults (R402). -/
def execResponseArrival (seq : Nat) (mask : BitVec 64) (excess : Nat) (s : State) : Result :=
  .next (match s.hart.reassembly.find? fun r => r.seq % 32768 = seq % 32768 with
    | none => s
    | some r =>
      if mask &&& ~~~r.mask = 0 && excess = 0 then s.answer r mask
      else s.failLoad s.hart.id r ⟨cReassembly, epDie r.ep r.die, 0⟩)

/-- The data of a request as a response packs them (R327). -/
def State.responseData (s : State) (r : Reassembly) : List Byte :=
  let w := widthOfCode r.width
  leBytes ((enum r.positions).foldl (fun a p => a + match r.src.find? fun q => q.pos = p.2 with
    | some q => s.sourceValue w q * 2 ^ (p.1 * w)
    | none => 0) 0) r.bytes

/-- A response to a parked request (R335): its data slot is written, ARR is set, and the redirect entry is free again. -/
def execRedirectedResponse (hart entry : Nat) (s : State) : Result :=
  .next (match (s.hartAt hart).redirects[entry]? with
    | none => s
    | some r =>
      let t := s.homeSet (.glob (slotAt r.area r.slot)) (s.responseData r.request)
      let d := t.areaDw (descAt r.area r.slot)
      let t := t.setHome64 (.glob (descAt r.area r.slot)) (splice d 62 1 1)
      let i := t.areaDw (r.area + 8)
      let t := t.setHome64 (.glob (r.area + 8)) (splice i (16 + r.slot) 1 1)
      t.modHart hart fun h => { h with redirects := h.redirects.eraseIdx entry })

/-! ### Copies (R76, R261) -/

/-- The number of the copy that stands at place `i` of the list. -/
def State.copyId (s : State) (i : Nat) : Option Nat := (s.copies[i]?).map (·.id)

/-- The engine performs a copy as far as it can be (R261). -/
def execCopyPerform (i : Nat) (s : State) : Result :=
  .next (match s.copyId i with
    | some id => s.performCopy id
    | none => s)

/-- Bytes `off` to `off + n - 1` of a copy land (R76). -/
def execCopyDataLands (i off n : Nat) (s : State) : Result :=
  .next (match s.copyId i with
    | some id => (s.startCopy id).moveBytes id ((List.range n).map (· + off))
    | none => s)

/-- A copy retires once its bytes have landed (R261). -/
def execCopyRetire (i : Nat) (s : State) : Result :=
  .next (match s.copyId i with
    | some id => s.finishCopy id
    | none => s)

/-! ### Requests of other endpoints (R82, R96, R117, R377) -/

/-- Why an access of another endpoint to `n` bytes is not performed, if it is not: refused, or bad data (R165, R377). -/
def State.foreignStop (s : State) (pa n : Nat) (store : Bool) : Option Nat :=
  (s.exportStop pa n store).orElse fun _ => if s.isBad (.glob pa) n then some 30 else none

/-- What an arriving class-1 packet comes to: one that finds the ingress queue full is dropped and NACKed (R404). -/
def State.ingress (s : State) (f : State → State) : State := if s.ingressFull then s.reply (.nack 0) else f s

/-- A read request of another endpoint (R82). -/
def execReadRequest (pa n : Nat) (s : State) : Result :=
  .next (s.ingress fun s => s.reply (match s.foreignStop pa n false with
    | some c => .cause c
    | none => .data (s.homeRead (.glob pa) n)))

/-- An atomic of another endpoint's hart (R96). -/
def execAtomicRequest (r : AtomicRequest) (s : State) : Result :=
  .next (s.ingress fun s => match s.foreignStop r.pa r.bytes true with
    | some c => s.reply (.cause c)
    | none =>
      let w := 2 ^ (8 * r.bytes)
      let a := s.atomicAt (.glob r.pa) r.bytes r.op (r.operand.toNat % w) (r.expected.toNat % w) .peer
      a.1.reply (.data (leBytes a.2 r.bytes)))

/-- A waiting request of another endpoint's hart. -/
def State.queueForeign (s : State) (l : Loc) (index : Nat) (verb : HomeVerb) (deadline : Nat) : State :=
  { s with waiters := s.waiters ++ [⟨l, none, index, verb, deadline⟩] }

/-- What the home answers to an arrival, with a deadline or without (R124, R272). -/
def Arrival.reply (dl : Bool) : Arrival → Reply
  | .counted c => .status (statusWord (if dl then 0 else 3) 0 c 0xFFFF) 0
  | .late _ r => .status r.status r.absent
  | .damaged => .status (statusWord 5 0 0 0xFFFF) 0
  | .evicted => .status (statusWord 6 0 0 0) 0
  | .wrapped => .cause cRoundWrap

/-- The configuration cause of a group (R118). -/
def groupCause : CaskGroup → Nat
  | .sync => cBarrierConfig | .qrm => cQuorumConfig | .que => cQueueConfig | .farm => cFarmConfig
  | .sums => cQuorumConfig | .collective => cCollectiveConfig

/-- A contribution of another endpoint's hart (R128, R135, R136): its elements are added, and for a collective round the
addresses of its chunks noted, unless it is discarded, and its deadline presented. -/
def State.foreignContribution (s : State) (r : CaskRequest) (items : List SlotItem) (deadline : Option Nat) : State :=
  let l := r.cask
  let a := s.contribute l r.index r.tag (items.map fun i => ⟨i.slot, i.code, i.scale⟩)
  if a.2 then a.1.reply (.cause cObjectDamaged)
  else
    let targets := if !s.takes l r.index r.tag then [] else items.filterMap fun i => i.target.map fun c => (⟨r.index, c.1, i.slot, c.2.1, c.2.2⟩ : ChunkTarget)
    let kept := fun (c : ChunkTarget) => !targets.any fun t => t.member = c.member && t.slot = c.slot
    let t := a.1.reply (.status (statusWord 0 0 0 0) 0)
    if (s.header l).kind = 6 then
      let t := t.modHome l fun q => { q with chunks := q.chunks.filter kept ++ targets }
      match deadline with
      | some d => (t.setHome64 (l.plus 16) (min d (t.roundDeadline l))).settle l
      | none => t
    else t

/-- A cask request of another endpoint's hart at its home (R117), by the rules of the instruction it stands for. -/
def State.serveCask (s : State) (r : CaskRequest) : State :=
  let l := r.cask
  let h := s.header l
  let status := fun (s : State) (w : Word) => s.reply (.status w 0)
  match r.verb with
  | .arrive d =>
    let a := s.arrive l r.index r.tag d
    a.1.reply (a.2.reply d.isSome)
  | .wait d =>
    let here := (if s.openRound l = r.tag then s.queueForeign l r.index .round d else s).catchUp l
    let k := here.openRound l
    if h.kind = 3 && !bit (here.joined l h) r.index then (s.catchUp l).reply (.cause cQuorumLag)
    else if k < r.tag then status (s.damage l) (statusWord 5 0 0 0xFFFF)
    else if r.tag = k then (if d ≤ s.now.toNat then status (s.catchUp l) (statusWord 3 0 k 0xFFFF) else here)
    else if s.openRound l = r.tag then here
    else
      let q := here.passedRound l r.tag
      here.reply (.status q.status q.absent)
  | .acquire d =>
    let s := s.catchUp l
    let k := s.lock l
    if !k.held then
      status (s.setLock l { k with holder := r.index, held := true, suspect := false })
        (statusWord 0 k.repaired.toNat k.gen 0)
    else if k.holder = r.index then status s (statusWord 0 2 k.gen 0)
    else if d ≤ s.now.toNat then status s (statusWord 3 0 k.gen 0xFFFF)
    else
      let a := (s.queueForeign l r.index .acq d).arrive l r.index r.tag (some d)
      match a.2 with
      | .counted _ => a.1
      | o =>
        let a := s.arrive l r.index r.tag (some d)
        a.1.reply (o.reply true)
  | .release gen =>
    let a := s.releaseLock l r.index gen
    if a.2.2.2 then a.1.reply (.cause cNotHolder) else status a.1 (statusWord a.2.1 0 a.2.2.1 0)
  | .mendLock tag =>
    let a := (s.catchUp l).mendLock l r.index tag
    status a.1 (statusWord a.2.1 0 a.2.2 0)
  | .commit target value g =>
    let cause := if h.kind = 4 then cFarmConfig else cBarrierConfig
    match s.foreignStop target 8 true with
    | some c => s.reply (.cause c)
    | none =>
      if !sameBlock l (.glob target) || (h.kind = 4 && s.farmCount l ≤ bits g 63 32) then s.reply (.cause cause)
      else
        let a := s.guardHolds l h g (some r.index)
        if a.1.caskBad l then a.1.reply (.cause cObjectDamaged)
        else
          let t := if h.kind = 4 then a.1.serveFarm l else a.1
          status (if a.2.1 then t.homeStore (.glob target) (leBytes value 8) .peer else t)
            (statusWord (if a.2.1 then 0 else 4) 0 a.2.2 0)
  | .join =>
    let s := s.catchUp l
    if h.n ≤ r.index then s.reply (.cause (groupCause r.group))
    else
      let s := if h.kind = 3 then s.setLag l h r.index 0 else s
      status s (statusWord 0 0 (s.roundTag l) 0)
  | .leave =>
    let s := s.catchUp l
    if h.kind = 3 && !bit (s.joined l h) r.index then status s (statusWord 6 0 0 0)
    else status (if h.kind = 3 then s.leaveQuorum l h r.index else s) (statusWord 0 0 0 0)
  | .read =>
    let s := s.catchUp l
    let k := s.openRound l
    let absent := if k = 0 then 0 else s.bitmap l h (lastAbsIndex h.kind)
    s.reply (.status (if k = 0 then 0 else statusWord (s.header l).last 0 (k - 1) (popcount absent h.n)) absent)
  | .enqueue data =>
    let a := s.enqueue l data
    status a.1 (statusWord a.2 0 0 0)
  | .poll =>
    if s.ringCount l = 0 then status s (statusWord 8 0 0 0)
    else
      let a := s.dequeue l
      (status a.1 (statusWord 0 0 0 0)).reply (.data a.2)
  | .receive d =>
    if s.ringCount l ≠ 0 then
      let a := s.dequeue l
      (status a.1 (statusWord 0 0 0 0)).reply (.data a.2)
    else if d ≤ s.now.toNat then status s (statusWord 3 0 0 0)
    else s.queueForeign l r.index .recv d
  | .contribute items d => s.foreignContribution r items d
  | .openFarm => status (s.openFarm l) (statusWord 0 0 0 0)
  | .claim d =>
    let s := s.serveFarm l
    let a := s.claimNow l
    match a.2 with
    | some x => (status a.1 x.status).reply (.data (leBytes x.strip.toNat 8))
    | none => if d ≤ s.now.toNat then status s (statusWord 3 0 0 0) else s.queueForeign l r.index .strip d
  | .finish strip gen =>
    if s.farmCount l ≤ strip then s.reply (.cause cFarmConfig)
    else
      let a := s.finishStrip l strip gen
      status a.1 a.2
  | .finished d =>
    let s := s.serveFarm l
    if s.farmDone l = s.farmCount l then status s (statusWord 0 0 0 0)
    else if d ≤ s.now.toNat then status s (statusWord 3 0 0 0xFFFF)
    else s.queueForeign l r.index .farmw d

/-- A strip of ST 3 damages the cask; the request that meets it is answered as one on a damaged cask (R122, R132). -/
def State.answerDamaged (s : State) (r : CaskRequest) : State :=
  s.reply (if r.verb.waits then .status (statusWord 5 0 0 0xFFFF) 0 else .cause cObjectDamaged)

/-- Whether a request meets a strip of ST 3 in its farm (R132). -/
def State.meetsBadStrip (s : State) (r : CaskRequest) : Bool :=
  let l := r.cask
  match r.verb with
  | .claim _ => (s.farmNow l).caskBad l
  | .finished _ => (s.farmNow l).caskBad l
  | .finish i _ => i < s.farmCount l && s.stripSt l i = 3
  | _ => false

/-- A cask request reaches this module (R117, R118, R122, R377): the cask is accessed as a store of 64 bytes (R266). -/
def execCaskRequest (r : CaskRequest) (s : State) : Result :=
  let l := r.cask
  let stop := match l with
    | .glob pa => s.exportStop pa 64 true
    | .spad _ _ => none
  .next (match stop with
    | some c => s.reply (.cause c)
    | none =>
      let s := s.noteDamage l
      let h := s.header l
      if s.caskBad l then s.answerDamaged r
      else if !(r.kinds.contains h.kind && s.configOk l h) then s.reply (.cause (groupCause r.group))
      else if h.kind = 4 && !s.farmOk l then s.reply (.cause cFarmConfig)
      else if s.meetsBadStrip r then (s.farmNow l).damage l |>.answerDamaged r
      else (s.tidy l).serveCask r)

/-! ### The memory engine (R366, R367) -/

/-- Whether the partition may use `n` bytes at a global address: within its own regions, or at an endpoint that it may name
(R339, R367, R392). -/
def State.allotted (s : State) (pa n : Nat) : Bool :=
  if epOf pa = s.endpt then s.part.regions.any fun r => decide (r.1 ≤ offOf pa) && decide (offOf pa + n ≤ r.1 + r.2)
  else holds s.part.peers (epOf pa).toNat

/-- A completion word written (R367); nothing is written outside the partition's allotment (log 98). -/
def State.complete' (s : State) (at_ code detail : Nat) : State :=
  if s.allotted at_ 8 then s.setHome64 (.glob at_) (statusWord code detail 0 0).toNat else s

/-- Whether a hart that a command names belongs to the partition. Another endpoint sees to its own. -/
def State.hartOk (s : State) (ep : Endpoint) (n : Nat) : Bool :=
  ep ≠ s.endpt || (n < Config.harts && s.part.cores.contains (n / 4))

/-- A cause posted to a hart that a command of this endpoint names. -/
def State.notifyHart (s : State) (ep : Endpoint) (n : Nat) (t : Trap) : State :=
  if ep = s.endpt && n < Config.harts then s.post n t else s

/-- Whether two ranges of numbers share one. -/
def rangesMeet (a n b m : Nat) : Bool := decide (a < b + m) && decide (b < a + n)

/-- Whether a range of offsets of this endpoint is memory throughout (R434, R427). -/
def State.allBacked (s : State) (off len : Nat) : Bool :=
  (off + len ≤ 0x9000000000 && !s.boot.stacksOut.any fun k => rangesMeet off len (k * 0xC00000000) 0xC00000000)
    || (0x10000000000 ≤ off && off + len ≤ 0x28000000000
      && !s.boot.packagesOut.any fun k => rangesMeet off len (0x10000000000 + k * 0x1800000000) 0x1800000000)

/-- Whether a region at a global address is free memory that the partition may use: not reserved as the fallback of a live
lease (R367, R370). -/
def State.regionOk (s : State) (ep : Endpoint) (off len : Nat) : Bool :=
  off + len ≤ 2 ^ 44 && s.allotted (paOf ep off) len && (ep ≠ s.endpt || s.allBacked off len)
    && !s.leases.any fun l => (l.state = .active || l.state = .racking) && rangesMeet (paOf ep off) len l.fallback (l.units * 2 ^ 29)

/-- Bytes of a range, gone. -/
def Memory.clear (m : Memory) (lo n : Nat) : Memory := m.filter fun c => decide (c.1 < lo) || decide (lo + n ≤ c.1)

/-- `n` bytes copied from `src` to `dst`. -/
def Memory.copyRange (m : Memory) (src dst n : Nat) : Memory :=
  (m.filter fun c => decide (src ≤ c.1) && decide (c.1 < src + n)).foldl
    (fun t c => t.write (dst + (c.1 - src)) c.2) (m.clear dst n)

/-- The locks of a range of granules copied. -/
def copyLocks (t : Tbl (BitVec 4)) (src dst n : Nat) : Tbl (BitVec 4) :=
  (t.filter fun c => decide (src ≤ c.1) && decide (c.1 < src + n)).foldl (fun u c => Tbl.set 0 u (dst + (c.1 - src)) c.2)
    (t.filter fun c => decide (c.1 < dst) || decide (dst + n ≤ c.1))

/-- A granule or a page copied; an uncorrectable error goes with its byte, and a lock with its granule (R66). -/
def State.copyBytes (s : State) (src dst n : Nat) : State :=
  let bad := s.badMem.filter fun b => decide (src ≤ b) && decide (b < src + n)
  { s with
    mem := s.mem.copyRange src dst n
    badMem := (s.badMem.filter fun b => decide (b < dst) || decide (dst + n ≤ b)) ++ bad.map fun b => dst + (b - src)
    locks := copyLocks s.locks (src / 32) (dst / 32) (n / 32) }

/-- A granule or a page moved: what mapped it as tagged maps it in its new place. -/
def State.moveRange (s : State) (src dst n : Nat) : State :=
  let move := fun (t : Nat × Nat) => if src ≤ t.2 && t.2 < src + n then (t.1, dst + (t.2 - src)) else t
  { s.copyBytes src dst n with tagged := s.tagged.map move }

/-- Every access in flight performed, as far as the homes answer (R332, R368, R374). -/
def State.settleAll (s : State) : State := s.drain.settleOwn.settleOthers

/-- Whether an access is under way to a range of a home. -/
def State.busyIn (s : State) (lo n : Nat) : Bool :=
  let inside := fun (l : Loc) => match l with
    | .glob pa => lo ≤ pa && pa < lo + n
    | .spad _ _ => false
  s.posted.any (fun p => inside (.glob p.pa)) || s.trains.any (fun t => t.items.any fun i => inside i.loc)
    || s.harts.any fun h => h.late.elim false (fun q => inside (.glob q.pa)) || h.buffer.any (fun b => inside (.glob b.pa))
      || h.reassembly.any fun r => r.src.any fun q => inside q.loc

/-! ### Migration (R368, R369) -/

/-- The page table that an ASID runs under, by a hart that holds it. -/
def State.tableOf (s : State) (asid : Nat) : Option Word :=
  ((s.harts.filter fun h => h.asid.toNat = asid && bitOf h.ptb 0).head?).map (·.ptb)

/-- The leaf of an address: its place, its value and the size of its page. -/
def State.leafOf (s : State) (va : Nat) : Nat → Nat → Option (Nat × Nat × Nat)
  | level, base =>
    if epOf base ≠ s.endpt then none
    else
      let at_ := base + va / 2 ^ (16 + 13 * level) % 8192 * 8
      let pte := s.home64 (.glob at_)
      if !bit pte 0 || field pte 15 13 ≠ 0 then none
      else if field pte 3 1 = 0 then
        match level with
        | 0 => none
        | n + 1 => if field pte 12 4 ≠ 0 then none else s.leafOf va n (field pte 56 16 * 65536)
      else if level = 2 || (bit pte 2 && !bit pte 1) || (level = 1 && field pte 28 16 ≠ 0) then none
      else some (at_, pte, if level = 1 then 2 ^ 29 else 2 ^ 16)

/-- A command that fails (R367). A MIGRATE has a cause of its own, which names its page (log 61). -/
def State.refuse (s : State) (c : EngineCommand) (detail : Nat) : State :=
  let t := s.complete' c.completion 5 detail
  if bits c.dw[0] 3 0 = 1 && s.hartOk c.endpt c.notify
  then t.notifyHart c.endpt c.notify ⟨76, word (bits c.dw[1] 54 16 * 65536), 0⟩ else t

/-- Whether racking has reached the page of a leaf (R369). -/
def State.racked (s : State) (pte size : Nat) : Bool :=
  bit pte 11 || (field pte 9 8 = 2 && (s.leaseOf (field pte 63 57) (field pte 56 16 * 65536) size).elim false
    fun l => l.state ≠ .active)

/-- The end of a migration: its status, and the cause that names its page (R343, R367). -/
def State.endMigration (s : State) (m : Migration) (code detail : Nat) : State :=
  let t := (s.complete' m.completion code detail).notifyHart s.endpt m.notify ⟨76, word m.va, 0⟩
  { t with migrations := t.migrations.erase m }

/-- The leaf marked, and its translations held no more (R368, steps 1 and 2). -/
def State.markLeaf (s : State) (at_ pte va size asid : Nat) : State :=
  { s.setHome64 (.glob at_) (splice pte 10 1 1) with
    cached := s.cached.filter fun t =>
      !((t.asid = s.part.asidBase + asid || bit t.leaf 5) && rangesMeet t.page t.size (va / size * size) size) }

/-- MIGRATE begins (R368). A page of a lease that is no longer active is EVICTED at once (R369). -/
def State.migrate (s : State) (c : EngineCommand) : State :=
  let asid := bits c.dw[0] 28 16
  let va := bits c.dw[1] 54 0
  let tier := bits c.dw[2] 1 0
  let dest := bits c.dw[2] 56 16 * 65536
  if bits c.dw[0] 3 0 ≠ 1 || 1 < tier then s.refuse c 1
  else if !s.hartOk c.endpt c.notify || s.part.asidCount ≤ asid || !s.allotted c.completion 8 then s.refuse c 3
  else match (s.tableOf asid).bind fun p => s.leafOf va 2 (bits p 56 16 * 65536) with
    | none => s.refuse c 1
    | some (at_, pte, size) =>
      if bit pte 10 || bit pte 11 then s.refuse c 2
      else if dest % size ≠ 0 then s.refuse c 1
      else if !s.regionOk (epOf dest) (offOf dest) size then s.refuse c 3
      else
        let t := (s.markLeaf at_ pte va size asid).settleAll
        let m : Migration := {
          va := va / size * size
          leaf := at_
          value := word (splice pte 10 1 1)
          dest := dest
          tier := tier
          size := size
          notify := c.notify
          completion := c.completion }
        if t.racked pte size then (t.setHome64 (.glob at_) pte).endMigration m 6 0
        else { t with migrations := t.migrations ++ [m] }

/-- MIGRATE begins (R368). -/
def execMigrate (c : EngineCommand) (s : State) : Result := .next (s.migrate c)

/-- The page copy of migration `i` completes (R368), or the migration ends otherwise (R369). While an access that was under way
when it began is not performed, the copy waits. -/
def execMigrationDone (i : Nat) (s : State) : Result :=
  .next (match s.migrations[i]? with
    | none => s
    | some m =>
      let s := s.settleAll
      let pte := s.home64 (.glob m.leaf)
      let src := field m.value.toNat 56 16 * 65536
      if m.evicted || (bit pte 10 && s.racked pte m.size) then
        (s.setHome64 (.glob m.leaf) (splice pte 10 1 0)).endMigration m 6 0
      else if s.busyIn src m.size then s
      else if s.isBad (.glob src) m.size then
        (if pte = m.value.toNat then s.setHome64 (.glob m.leaf) (splice pte 10 1 0) else s).endMigration m 5 4
      else if pte ≠ m.value.toNat then (s.copyBytes src m.dest m.size).endMigration m 4 0
      else
        let t := s.moveRange src m.dest m.size
        (t.setHome64 (.glob m.leaf) (splice (splice (splice pte 16 41 (m.dest / 65536)) 8 2 m.tier) 10 1 0)).endMigration
          m 0 0)

/-! ### Leases (R370 to R375) -/

/-- STATE of a lease record (R371). -/
def LeaseState.code : LeaseState → Nat
  | .offered => 1 | .active => 2 | .racking => 3 | .ended => 4 | .lost => 5

/-- The lease record written by the borrower's engine (R371). -/
def State.writeLease (s : State) (l : Lease) : State :=
  s.homeSet (.glob l.record) (([l.id + l.state.code * 2 ^ 8, l.lender.toNat + l.borrower.toNat * 2 ^ 16, l.base, l.units,
    l.notice, l.bw, l.fallback + l.tier, l.noticeEnd].map fun x => leBytes x 8).flatten)

/-- Whether a lease is offered, active or racking. -/
def Lease.live (l : Lease) : Bool := l.state = .offered || l.state = .active || l.state = .racking

/-- A live lease replaced, and its record written; one of the same number that has ended stays, since a leaf may still name it
(R375). -/
def State.putLease (s : State) (l : Lease) : State :=
  let same := fun (m : Lease) => m.live && m.id = l.id && m.lender = l.lender && m.borrower = l.borrower
  ({ s with leases := s.leases.map fun m => if same m then l else m }).writeLease l

/-- Whether a lease takes bandwidth (R373). -/
def Lease.takes (l : Lease) : Bool := l.state = .active || l.state = .racking

/-- Whether a lease may be granted (R373). -/
def State.grants (s : State) (l : Lease) : Bool :=
  let sum := fun (f : Lease → Bool) => ((s.leases.filter fun m => m.takes && f m).map (·.bw)).sum
  l.bw ≠ 0 && ceilDiv (l.units * 2 ^ 29 * 1000) l.bw + 20000 ≤ l.notice
    && sum (fun (m : Lease) => decide (m.borrower = l.borrower)) + l.bw ≤ 800000
    && sum (fun (m : Lease) => decide (m.lender = l.lender)) + l.bw ≤ 800000

/-- Offers whose deadline has come are gone (R372). -/
def State.expireOffers (s : State) : State :=
  let due := fun (l : Lease) => l.state = .offered && l.offerEnd ≤ s.now.toNat
  { (s.leases.filter due).foldl (fun s l => s.complete' l.lendDone 1 0) s with leases := s.leases.filter fun l => !due l }

/-- Whether a lease id is in use at an endpoint, beside a given lease (R367). -/
def State.idInUse (s : State) (ep : Endpoint) (id : Nat) (but : Option Lease) : Bool :=
  s.leases.any fun l => l.id = id && some l ≠ but && ((l.lender = ep && l.live) || (l.borrower = ep && l.takes))

/-- Whether the harts, the endpoints and the completion word that a command names are allotted to the partition (R367). -/
def State.namesOk (s : State) (c : EngineCommand) (peer : Bool) : Bool :=
  s.hartOk c.endpt c.notify && s.allotted c.completion 8 && (!peer || c.peer = s.endpt || holds s.part.peers c.peer.toNat)

/-- LEND (R366, R372): a region of the endpoint's own memory is offered. -/
def State.lend (s0 : State) (c : EngineCommand) : State :=
  let s := s0.expireOffers
  let off := bits c.dw[1] 56 0
  let units := bits c.dw[2] 56 0
  if !c.formed 2 || off % 2 ^ 29 ≠ 0 || units = 0 then s.refuse c 1
  else if !s.namesOk c true || !s.regionOk c.endpt off (units * 2 ^ 29) then s.refuse c 3
  else if s.idInUse c.endpt c.id none then s.refuse c 6
  else
    { s with leases := s.leases ++ [{
      id := c.id
      lender := c.endpt
      borrower := c.peer
      state := .offered
      base := paOf c.endpt off
      units := units
      notice := bits c.dw[4] 47 0
      bw := bits c.dw[5] 31 0
      fallback := 0
      tier := 0
      record := 0
      notify := 0
      lendDone := c.completion
      offerEnd := bits c.dw[6] 56 0 }] }

/-- ACCEPT (R366, R372): an offer is matched, and the lease is active if R373 holds. -/
def State.takeOffer (s0 : State) (c : EngineCommand) : State :=
  let s := s0.expireOffers
  let off := bits c.dw[1] 56 0
  let tier := bits c.dw[2] 1 0
  let record := bits c.dw[6] 56 0
  if !c.formed 3 || off % 2 ^ 29 ≠ 0 || 1 < tier then s.refuse c 1
  else match s.leases.find? fun l => l.id = c.id && l.lender = c.peer && l.borrower = c.endpt && l.state = .offered with
    | none => s.refuse c 1
    | some l =>
      if !s.namesOk c true || !s.regionOk c.endpt off (l.units * 2 ^ 29) || !s.allotted record 64 then s.refuse c 3
      else if s.idInUse c.endpt c.id (some l) then s.refuse c 6
      else
        let n := { l with
          state := .active
          fallback := paOf c.endpt off
          tier := tier
          record := record
          notify := c.notify
          acceptDone := c.completion }
        if s.grants n then ((s.putLease n).complete' l.lendDone 0 0).complete' c.completion 0 0
        else
          let t := { s with leases := s.leases.erase l }
          (t.complete' l.lendDone 5 5).complete' c.completion 5 5

/-- RECLAIM (R374): racking starts, and no translation under the lease is held any more. -/
def State.reclaim (s : State) (c : EngineCommand) : State :=
  if !c.formed 4 then s.refuse c 1
  else if !s.namesOk c true then s.refuse c 3
  else match s.leases.find? fun l => l.id = c.id && l.lender = c.endpt && l.borrower = c.peer && l.state = .active with
    | none => s.refuse c 1
    | some l =>
      let t := { s with cached := s.cached.filter fun t => !(field t.leaf 9 8 = 2 && field t.leaf 63 57 = l.id) }.settleAll
      let e := t.now.toNat + l.notice
      (t.putLease { l with
        state := .racking
        noticeEnd := e
        reclaimDone := c.completion }).notifyHart l.borrower l.notify ⟨74, word l.id, word e⟩

/-- RETURN (R372): an active lease ends; while racking the answer is STALE. -/
def State.giveBack (s : State) (c : EngineCommand) : State :=
  if !c.formed 5 then s.refuse c 1
  else if !s.namesOk c false then s.refuse c 3
  else match s.leases.find? fun l => l.id = c.id && l.borrower = c.endpt && l.takes with
    | none => s.refuse c 1
    | some l =>
      if l.state = .racking then s.complete' c.completion 4 0
      else (s.putLease { l with state := .ended }).complete' c.completion 0 0

/-- A command to the memory engine (R366). -/
def State.command (s : State) (c : EngineCommand) : State :=
  match bits c.dw[0] 3 0 with
  | 1 => s.migrate c
  | 2 => s.lend c
  | 3 => s.takeOffer c
  | 4 => s.reclaim c
  | 5 => s.giveBack c
  | _ => s.refuse c 1

/-- The memory engine takes the command at the head of its queue (R366). -/
def State.serveEngine (s : State) : State :=
  match s.part.engine with
  | none => s
  | some l =>
    let t := s.visit l
    let h := t.header l
    if t.caskBad l || h.kind ≠ 5 || !t.configOk l h || t.ringCount l = 0 then t
    else
      let r := t.dequeue l
      r.1.command ⟨s.endpt, Vector.ofFn fun i => word (dwordAt r.2 i.val)⟩

/-- LEND (R366, R372). -/
def execLend (c : EngineCommand) (s : State) : Result := .next (s.lend c)

/-- ACCEPT (R366, R372). -/
def execAccept (c : EngineCommand) (s : State) : Result := .next (s.takeOffer c)

/-- RECLAIM (R374). -/
def execReclaim (c : EngineCommand) (s : State) : Result := .next (s.reclaim c)

/-- RETURN (R372). -/
def execReturnLease (c : EngineCommand) (s : State) : Result := .next (s.giveBack c)

/-- The deadline of an offer comes (R372). -/
def execLeaseOfferExpiry (lease : Nat) (s : State) : Result :=
  .next (match s.leases[lease]? with
    | none => s
    | some l =>
      if l.state = .offered then
        let t := s.passUntil l.offerEnd
        ({ t with leases := t.leases.erase l }).complete' l.lendDone 1 0
      else s)

/-- The granule that moves next (R374): one that an access waits for, else the lowest. -/
def Lease.nextGranule (l : Lease) : Option Nat :=
  ((l.urgent.map (·.1)).find? fun g => !l.moved.contains g).orElse fun _ =>
    (List.range (l.units * 8192)).find? fun g => !l.moved.contains g

/-- One granule is moved to the fallback (R374); the last one ends the lease. The first waits until what was under way to the
region has been performed. -/
def execRackGranuleMove (lease : Nat) (s : State) : Result :=
  .next (match s.leases[lease]? with
    | none => s
    | some l =>
      match (if l.state = .racking then l.nextGranule else none) with
      | none => s
      | some g =>
        let s := if l.moved = [] then s.settleAll else s
        if l.moved = [] && s.busyIn l.base (l.units * 2 ^ 29) then s
        else
          let t := s.moveRange (l.base + g * 65536) (l.fallback + g * 65536) 65536
          let t := (l.urgent.filter fun u => u.1 = g).foldl (fun t u => match u.2 with
            | some (h, va) => t.notifyHart l.borrower h ⟨76, word va, 0⟩
            | none => t) t
          let n := { l with
            moved := l.moved ++ [g]
            urgent := l.urgent.filter fun u => u.1 ≠ g }
          if n.moved.length = l.units * 8192 then
            let u := (t.putLease { n with state := .ended }).complete' l.reclaimDone 0
              (if l.noticeEnd < t.now.toNat then 1 else 0)
            u.notifyHart l.borrower l.notify ⟨75, word l.id, 0⟩
          else
            { t with leases := t.leases.map fun m => if m = l then n else m })

end Sys2Proof.Machine
end

