-- ==== Sys2Proof/Machine/EventSched.lean ====
section
/-! DEFINITION. The hub's launch path as events (R378 to R394): queue descriptors and wakes, commands, selection,
placement and start, staging, endings, energy budgets and the communication reserve. -/

namespace Sys2Proof

/-- The energy of an activity in pJ (R388). -/
def Activity.energy : Activity → Nat
  | .scalar n => 5 * n | .pipe n => 40 * n | .matrix n => 2600 * n | .scratch n => 15 * n
  | .hbm n => 4 * n | .cellar n => 6 * n | .fabric n => 10 * n | .grant n => 2 * n

end Sys2Proof

namespace Sys2Proof.Machine

/-! ### Descriptors and wakes (R379, R380) -/

/-- A store to a doubleword of a queue's descriptor (R379). -/
def execQueueDescriptorWrite (q : QueueNum) (dw : BitVec 3) (v : Word) (s : State) : Result :=
  .next (s.modQueue q.toNat fun d => d.write dw.toNat v.toNat)

/-- A store to byte `off` of a wake register (R380). -/
def execWakeRegister (q : QueueNum) (off : BitVec 6) (src : WakeSource) (s : State) : Result :=
  .next (if off.toNat < 8 && s.wakeAccepted q.toNat src then s.wakeQueue q.toNat true else s)

/-! ### Commands (R381, R382) -/

/-- A launch command, as far as its own words and its kernel record give it (R381, R317). -/
structure Command where
  groups : Nat
  nr : Nat
  stage : Bool
  rerun : Bool
  harts : Nat
  entry : Word
  asid : Nat
  slen : Nat
  soff : Nat
  ptb : Word
  ctx : Word
  arg : Word
  image : Nat
  completion : Nat
deriving DecidableEq, Repr

/-- The cask of a queue. -/
def Queue.place (q : Queue) : Loc := .glob q.cask

/-- The command at the head of a queue, read as `qpoll` reads it (R383); none when the ring is empty or no queue cask. -/
def State.headOf (s : State) (q : Nat) : Option (List Byte) :=
  let l := (s.queue q).place
  let h := s.header l
  if h.kind = 5 && !s.caskBad l && s.configOk l h && s.ringCount l ≠ 0
  then some (s.homeRead (s.ringSlot l (s.ringHead l)) 64) else none

/-- Bytes under a command's page table and ASID at U: none where they cannot be read; a page that moves stalls (R382). -/
def readUnder (asid : Nat) (ptb : Word) (p : Word) (n : Nat) : M (List Byte) := do
  let s ← get
  let c : Ctx := ⟨s.hart.id, .user, ptb, s.part.asidBase + asid, false⟩
  let l ← (areaParts p n).mapM fun q => do
    let x ← resolve c .load q.1 q.2 1 .answered
    dataCheck x q.2
    pure (x, q.2)
  pure ((← get).areaRead l)

/-- What reading a head comes to: a command, a failure by its DETAIL, or a wait for a page that moves. -/
inductive Head where
  | command (c : Command) | fails (detail : Nat) | waits
deriving DecidableEq, Repr

/-- The kernel record's address, lane count and NR code (R317); none when it is out of range. -/
def recordOf (bs : List Byte) : Option (Word × Nat × Nat) :=
  let g := (bs.getD 8 0).toNat
  let nr := (bs.getD 9 0).toNat
  if 1 ≤ g && g ≤ 8 && nr ≤ 3 then some (word (leNat (bs.take 8)), g, nr) else none

/-- A command parsed, with the checks of R382 that need no placement, in the order of the table. -/
def State.parse (s : State) (bs : List Byte) : Head :=
  let q := fun i => word (dwordAt bs i)
  let g0 := bits (q 0) 7 4
  let h := bits (q 0) 26 16
  let asid := bits (q 2) 12 0
  let ptb := keep (q 3) 0x01FFFFFFFFFF0001
  let mk := fun (entry : Word) (g nr : Nat) =>
    let c : Command := {
      groups := g
      nr := nr
      stage := bitOf (q 0) 10
      rerun := bitOf (q 0) 11
      harts := h
      entry := entry
      asid := asid
      slen := bits (q 2) 30 16
      soff := bits (q 2) 52 32
      ptb := ptb
      ctx := keep (q 4) 0x01FFFFFFFFFFE001
      arg := q 5
      image := bits (q 6) 54 0
      completion := bits (q 7) 56 0 }
    if h = 0 || Config.harts < h then Head.fails 1
    else if 4 * s.part.cores.length < h || s.part.quota < g || 0x180000 < c.soff + 64 * c.slen then .fails 2
    else if s.part.asidCount ≤ asid then .fails 3
    else .command c
  if bits (q 0) 3 0 ≠ 1 || 8 < g0 then .fails 1
  else if bitOf (q 1) 0 then
    match (readUnder asid ptb (q 1 - 1) 16).go s with
    | (.error (.stall _ _), _) => .waits
    | (.error (.trap _), _) => .fails 1
    | (.ok r, _) =>
      match recordOf r with
      | some (a, g, nr) => if g0 ≠ 0 then mk a g0 (bits (q 0) 9 8) else mk a g nr
      | none => .fails 1
  else if g0 = 0 then .fails 1
  else mk (q 1) g0 (bits (q 0) 9 8)

/-- A completion word (R382, R387); address 0 is none. -/
def State.finishWord (s : State) (at_ code detail count : Nat) : State :=
  if at_ = 0 then s else s.setHome64 (.glob at_) (statusWord code detail 0 count).toNat

/-! ### Placement (R384, R385, R391) -/

/-- What a core offers to a placement: its number, its free groups, its idle harts, and groups left under the quota. -/
structure Offer where
  core : Nat
  groups : List Nat
  harts : List Nat
  room : Nat

/-- Cores of the communication reserve: the highest-numbered allotted ones (R391). -/
def State.reserveCores (s : State) : List Nat := (s.part.cores.mergeSort (· ≥ ·)).take s.part.commNow

/-- Harts and groups of a core that are held against the head of queue `q`: the firm reservations of other queues, and with `all`
those of every head of level 7 (R382, R384, R390). -/
def State.heldAt (s : State) (q : Nat) (all : Bool) (core : Nat) : Nat × Nat :=
  (s.reserved.filter fun r => r.queue ≠ q && (all || r.firm)).foldl (fun a r => (r.cores.filter fun c => c.1 = core).foldl
    (fun a c => (a.1 + c.2.1, a.2 + c.2.2)) a) (0, 0)

/-- What a core offers to the head of queue `q`: with `gone`, the harts of launches of lower level count as ended. -/
def State.offer (s : State) (q : Nat) (gone : Hart → Bool) (held : Bool) (core : Nat) : Offer :=
  let lat := (s.coreAt core).lat
  let gone' := fun (k : Nat) => gone (s.hartAt (4 * core + k))
  let free := (List.range 8).filter fun g => match lat.toList.getD g none with
    | none => true
    | some o => gone' o.toNat
  let idle := ((List.range 4).filter fun k => (s.hartAt (4 * core + k)).run = .idle || gone' k).map fun k => 4 * core + k
  let h := s.heldAt q held core
  ⟨core, free.take (free.length - h.2), idle.take (idle.length - h.1), s.part.quota - (8 - free.length)⟩

/-- The offer that comes first: most free groups, then the lower core (R385). -/
def bestOffer (g : Nat) (os : List Offer) : Option Offer :=
  (os.filter fun o => o.harts ≠ [] && g ≤ o.groups.length && g ≤ o.room).foldl (fun b o => match b with
    | none => some o
    | some p => if p.groups.length < o.groups.length || (p.groups.length = o.groups.length && o.core < p.core)
        then some o else some p) none

/-- `n` harts of `g` groups each, chosen one after another: hart and groups (R385). -/
def choose (g : Nat) : Nat → List Offer → Option (List (Nat × List Nat))
  | 0, _ => some []
  | n + 1, os =>
    match bestOffer g os with
    | none => none
    | some o =>
      let rest := os.map fun p => if p.core = o.core
        then { p with groups := p.groups.drop g, harts := p.harts.drop 1, room := p.room - g } else p
      (choose g n rest).map fun l => (o.harts.headD 0, o.groups.take g) :: l

/-- Level of the launch that a hart runs. -/
def State.hartLevel (s : State) (h : Hart) : Nat :=
  match s.launches.find? fun l => some l.id = h.launch with
  | some l => (s.queue l.queue).level s.now.toNat
  | none => 7

/-- Where a command of queue `q` goes, if it can be placed now. -/
def State.placing (s : State) (q : Nat) (c : Command) (gone : Hart → Bool) (held : Bool) :
    Option (List (Nat × List Nat)) :=
  let cores := s.part.cores.filter fun k => s.reserveCores.contains k == (s.queue q).cls
  choose c.groups c.harts (cores.map (s.offer q gone held))

/-- Harts of `g` groups each held for the head of a queue, as harts and groups of each core (R382, R384, R390). -/
def State.hold (s : State) (q g : Nat) (firm : Bool) (l : List (Nat × List Nat)) : State :=
  if s.reserved.any fun r => r.queue = q && (r.firm || !firm) then s
  else
    let cores := (l.map fun p => p.1 / 4).dedup
    { s with reserved := (s.reserved.filter fun r => r.queue ≠ q) ++ [⟨q, cores.map fun k =>
      let here := l.filter fun p => p.1 / 4 = k
      (k, here.length, here.length * g), firm⟩] }

/-- The reservation for the head of a level-7 queue: on each core, the harts and groups that it would take if every launch
of lower level had ended (R384). -/
def State.reserve (s : State) (q : Nat) (c : Command) : State :=
  match s.placing q c (fun h => h.launch.isSome && s.hartLevel h < 7) false with
  | none => s
  | some l => s.hold q c.groups false l

/-! ### Start (R386) -/

/-- A placed hart in the state it starts in (R386). -/
def Hart.start (h : Hart) (c : Command) (launch rank : Nat) : Hart :=
  let x := (((Vector.replicate 32 (0 : Word)).set 10 c.arg).set 11 (word rank)).set 12 (word c.harts)
  let t := { h with vtype := word (c.nr * 32) }
  { t with
    run := .running
    launch := some launch
    x := x
    pc := c.entry
    priv := .user
    status := { ls := .initial, ts := .initial, vs := .initial }
    asid := .ofNat 13 c.asid
    ptb := c.ptb
    ctxarea := c.ctx
    vl := 0
    vrow := 1
    vstart := 0
    maxvl := maxvlOf c.groups t
    stale := false
    flags := 0
    frm := 0
    srseed := 1
    defdl := 1000000
    lcnt := 0
    lbeg := 0
    lend := 0
    members := []
    v := .replicate 32 0
    flying := .replicate 32 0
    tile := .replicate 4 Tile.reset
    lcr := {}
    injTotal := 0
    l1 := []
    stall := none
    wait := none
    resumed := false
    splitAt := none
    secured := []
    lost := []
    watched := [] }

/-- The groups of a placement written into the tables of its cores (R385, R14, R58). -/
def State.grantAll (s : State) (l : List (Nat × List Nat)) : State :=
  l.foldl (fun s p => s.setLat (p.1 / 4) (assign (s.coreAt (p.1 / 4)).lat p.2 (some (BitVec.ofNat 2 p.1)))) s

/-- The image copied into the range of every chosen core (R385). -/
def State.copyImage (s : State) (cores : List Nat) (soff : Nat) (img : List Byte) : State :=
  cores.foldl (fun s k => s.homeSet (.spad k soff) img) s

/-- A command started on the harts chosen for it. -/
def State.start (s : State) (q : Nat) (c : Command) (l : List (Nat × List Nat)) : State :=
  let id := s.nextId
  let s := s.grantAll l
  let s := (enum l).foldl (fun s p => s.modHart p.2.1 fun h => h.start c id p.1) s
  { s with
    nextId := id + 1
    launches := s.launches ++ [{
      id := id
      queue := q
      harts := l.map (·.1)
      completion := c.completion
      entry := c.entry
      ctx := c.ctx
      soff := c.soff
      slen := c.slen }] }

/-! ### Staging (R390) -/

/-- Whether two scratchpad ranges, in bytes, share a byte. -/
def spansMeet (a n b m : Nat) : Bool := n ≠ 0 && m ≠ 0 && decide (a < b + m) && decide (b < a + n)

/-- What a rerun of a launch means for what is staged on it (R390). -/
def State.rerunPlaced (s : State) (q : Nat) (c : Command) (id : Nat) : State :=
  if !c.rerun then s
  else (s.stagings.filter fun st => st.on = q && st.done && st.entry = c.entry && st.ctx = c.ctx).foldl (fun s st =>
    let y := match (s.headOf st.queue).map s.parse with
      | some (.command y) => spansMeet y.soff (64 * y.slen) c.soff (64 * c.slen)
      | _ => true
    if y then
      { s.modQueue st.queue (fun d => { d with stg := false }) with stagings := s.stagings.erase st }
    else
      let again := fun (u : Staging) => if u = st then { u with launch := id, done := false, bad := false } else u
      { s with stagings := s.stagings.map again }) s

/-- A staging undone. -/
def State.unstage (s : State) (q : Nat) : State :=
  { s.modQueue q (fun d => { d with stg := false }) with stagings := s.stagings.filter fun u => u.queue ≠ q }

/-! ### Serving a head (R382, R383, R385) -/

/-- How a head fares. -/
inductive Fate where
  | placed | failed | blocked | empty
deriving DecidableEq, Repr

/-- The image of a command read, unless it has none. -/
def Command.read (c : Command) : M (List Byte) :=
  if c.image = 0 || c.slen = 0 then pure [] else readUnder c.asid c.ptb (word c.image) (64 * c.slen)

/-- The head of a queue taken out of the ring; the place held for it is free again (R384). -/
def State.takeHead (s : State) (q : Nat) : State :=
  let s := (s.dequeue (s.queue q).place).1
  { s with reserved := s.reserved.filter fun r => r.queue ≠ q }

/-- A placed head whose image can be read starts; `cores` have the image already (R385, R390). While a page of the image moves, the
copy waits with the place held (R382); a fault fails the command. -/
def State.startHead (s : State) (q : Nat) (c : Command) (l : List (Nat × List Nat)) (cores : List Nat) : State × Fate :=
  let new := ((l.map fun p => p.1 / 4).dedup).filter fun k => !cores.contains k
  match (if new = [] then pure [] else c.read).go s with
  | (.error (.stall _ _), t) => (t.hold q c.groups true l, .blocked)
  | (.error (.trap _), t) => ((t.takeHead q).finishWord c.completion 5 4 0 |>.unstage q, .failed)
  | (.ok img, t) =>
    let id := t.nextId
    let t := (t.takeHead q).copyImage new c.soff img
    (((t.start q c l).unstage q).rerunPlaced q c id, .placed)

/-- The head of a queue placed, failed, or left (R382, R383, R385). -/
def State.serveHead (s : State) (q : Nat) : State × Fate :=
  match s.headOf q with
  | none =>
    ({ s.modQueue q (fun d => { d with pend := false }) with
      reserved := s.reserved.filter fun r => r.queue ≠ q }, .empty)
  | some bs =>
    let fail := fun (d : Nat) =>
      ((s.takeHead q).finishWord (field (dwordAt bs 7) 56 0) 5 d 0 |>.unstage q, Fate.failed)
    match s.parse bs with
    | .fails d => fail d
    | .waits => (s, .blocked)
    | .command c =>
      let low := decide ((s.queue q).level s.now.toNat < 7)
      match s.placing q c (fun _ => false) low with
      | none => (if low then s else s.reserve q c, .blocked)
      | some l => s.startHead q c l []

/-- A served queue: a credit is spent, WAIT is now, and it is the one last served at its level (R383). -/
def State.served' (s : State) (q level : Nat) : State :=
  let s := s.modQueue q fun d => { d with credit := d.credit - 1, wait := s.now.toNat % 2 ^ 48 }
  { s with served := Tbl.set 0 s.served (q / 2048 * 8 + level) (q + 1) }

/-- The heads of a queue until one is placed or none can be (R383): a head that fails is followed by the next. -/
def State.tryQueue : Nat → Nat → State → State × Bool
  | 0, _, s => (s, false)
  | n + 1, q, s =>
    let level := (s.queue q).level s.now.toNat
    match s.serveHead q with
    | (t, .placed) => (t.served' q level, true)
    | (t, .failed) => State.tryQueue n q t
    | (t, _) => (t, false)

/-- Queues of a command processor that may be served at a level, after the one served last there (R383): those of the partition,
since its cores are for its own commands (R392). One whose head is staged is not selected: its fate follows the launch that it is
staged on (R390). -/
def State.atLevel (s : State) (k level : Nat) : List Nat :=
  let qs := (s.queues.filter fun p => p.1 / 2048 = k && p.2.v && p.2.pend && !p.2.exh && !p.2.stg
    && p.2.part = s.part.number && p.2.level s.now.toNat = level).map (·.1)
  let last := Tbl.get 0 s.served (k * 8 + level)
  (qs.filter fun q => last ≤ q) ++ qs.filter fun q => q < last

/-- Credits refilled when every queue of a level has none (R383). -/
def State.refill (s : State) (qs : List Nat) : State :=
  if qs.all fun q => (s.queue q).credit = 0 then
    qs.foldl (fun s q => s.modQueue q fun d => { d with credit := d.weight }) s
  else s

/-- Commands in the ring of a queue. -/
def State.waiting (s : State) (q : Nat) : Nat := s.ringCount (s.queue q).place

/-- The queues of a level in order, until one is served, which is given back. -/
def State.scanQueues : List Nat → State → State × Option Nat
  | [], s => (s, none)
  | q :: qs, s =>
    if (s.queue q).credit = 0 then State.scanQueues qs s
    else
      match State.tryQueue (s.waiting q + 1) q s with
      | (t, true) => (t, some q)
      | (t, false) => State.scanQueues qs t

/-- The levels in descending order, until a queue is served, which is given back. -/
def State.scanLevels (k : Nat) : List Nat → State → State × Option Nat
  | [], s => (s, none)
  | l :: ls, s =>
    let qs := s.atLevel k l
    if qs = [] then State.scanLevels k ls s
    else
      match State.scanQueues qs (s.refill qs) with
      | (t, some q) => (t, some q)
      | (t, none) => State.scanLevels k ls t

/-- The levels, highest first. -/
def levels : List Nat := [7, 6, 5, 4, 3, 2, 1, 0]

/-- The scan, restarted after each launch that is placed. -/
def State.scan (k : Nat) : Nat → State → State
  | 0, s => s
  | n + 1, s =>
    match State.scanLevels k levels s with
    | (t, some _) => State.scan k n t
    | (t, none) => t

/-- Whether a staged launch is to be placed ahead of any selection (R390), once its own queue may be served (R389). -/
def State.stagedDue (s : State) (st : Staging) : Bool :=
  let d := s.queue st.queue
  d.v && !d.exh && if st.done then
    !st.bad || st.on = st.queue || match (s.headOf st.on).map s.parse with
      | some (.command c) => !(c.rerun && c.entry = st.entry && c.ctx = st.ctx)
      | _ => true
  else (s.queue st.on).exh

/-- A staged launch placed (R390): on the harts and groups that X has freed, with its image there already, or else on others as well.
While X's harts still run, those that it takes as they end are held for it. -/
def State.placeStaged (s : State) (st : Staging) : State :=
  match (s.headOf st.queue).map s.parse with
  | some (.command c) =>
    let here := choose c.groups c.harts (st.cores.map (s.offer st.queue (fun _ => false) true))
    match here.orElse fun _ => s.placing st.queue c (fun _ => false) true with
    | some l => ((s.startHead st.queue c l st.cores).1).modQueue st.queue fun d => { d with wait := s.now.toNat % 2 ^ 48 }
    | none => ((s.placing st.queue c (fun h => h.launch = some st.launch) true).map (s.hold st.queue c.groups true)).getD s
  | _ => (s.serveHead st.queue).1

/-- The staged launches of a command processor that are due, placed. -/
def State.serveStaged (s : State) (k : Nat) : State :=
  (s.stagings.filter fun st => st.queue / 2048 = k).foldl (fun s st =>
    if s.stagedDue st then s.placeStaged st else s) s

/-- The head that selection would serve next and that may be staged on the cores of a launch (R390). -/
def State.stageOn (s : State) (q : Nat) (x : Launch) : Option (Command × List Nat) :=
  let cores := (x.harts.map (· / 4)).dedup
  match (s.headOf q).map s.parse with
  | some (.command c) =>
    if c.stage && !(s.queue q).stg && !spansMeet c.soff (64 * c.slen) x.soff (64 * x.slen)
        && !(s.stagings.any fun st => st.cores.any cores.contains)
        && (s.placing q c (fun h => h.launch = some x.id) true).isSome
    then some (c, cores) else none
  | _ => none

/-- A head staged: its image is copied and STG is set; a fault while copying leaves nothing staged (R390). -/
def State.stageHead (s : State) (k : Nat) : State :=
  let order := levels.flatMap fun l => s.atLevel k l
  match order.findSome? fun q => s.launches.findSome? fun x => (s.stageOn q x).map fun r => (q, x, r) with
  | none => s
  | some (q, x, c, cores) =>
    match c.read.go s with
    | (.error _, _) => s
    | (.ok img, t) =>
      let t := (t.copyImage cores c.soff img).modQueue q fun d => { d with stg := true }
      { t with stagings := t.stagings ++ [⟨q, x.id, x.queue, cores, x.entry, x.ctx, false, false⟩] }

/-- A scan of command processor `k` (R383); with `stage` it then stages a head that it may stage (R390). Nothing is
served before READY (R427). -/
def execCommandScan (k : BitVec 3) (stage : Bool) (s : State) : Result :=
  let mine := (s.queues.filter fun p => p.1 / 2048 = k.toNat).map fun p => s.waiting p.1
  .next (if !s.boot.ready then s
    else
      let t := State.scan k.toNat (mine.sum + 1) (s.serveStaged k.toNat)
      if stage then t.stageHead k.toNat else t)

/-- The launch at the head of one queue (R381): the scan places it if it is the one that comes first (R383). -/
def execLaunch (q : QueueNum) (s : State) : Result :=
  .next (if s.boot.ready then
      match (s.serveStaged (q.toNat / 2048)).scanLevels (q.toNat / 2048) levels with
      | (t, some n) => if n = q.toNat then t else s
      | (_, none) => s
    else s)

/-! ### Endings (R387) -/

/-- The groups of a hart freed (R387). -/
def State.freeGroups (s : State) (h : Nat) : State :=
  let lat := (s.coreAt (h / 4)).lat
  s.setLat (h / 4) (assign lat (groupsOf lat h) none)

/-- FLAGSLOT takes the flags of a hart that has a context area (R326, R387, R393). -/
def State.orFlagSlot (s : State) : State :=
  if bitOf s.hart.ctxarea 0 then
    let a := Loc.glob s.hart.area
    s.setHome64 a (s.home64 a ||| s.hart.flags.toNat)
  else s

/-- Whether every hart of a core is idle. -/
def State.coreIdle (s : State) (c : Nat) : Bool := (List.range 4).all fun k => (s.hartAt (4 * c + k)).run = .idle

/-- Steps 2 to 4 of an ending with its end code (R387), and what it means for a launch staged on this one (R390). -/
def State.endHart (s : State) (code : Nat) : State :=
  let n := s.hart.id
  let mine := s.hart.launch
  let s := s.orFlagSlot
  let s := { s with
    hart.members := []
    hart.latch := none
    hart.stall := none
    hart.run := .idle
    hart.launch := none }
  let s := s.freeGroups n
  let s := if s.coreIdle (n / 4) then s.modCore (n / 4) fun k => { k with idleSince := s.now.toNat } else s
  let ends := fun (l : Launch) => if some l.id = mine then { l with ended := l.ended ++ [(n, code)] } else l
  let s := { s with launches := s.launches.map ends }
  match s.launches.find? fun l => some l.id = mine with
  | none => s
  | some l =>
    let all := decide (l.ended.length = l.harts.length)
    let bad := l.ended.any fun e => e.2 ≠ 0
    let note := fun (st : Staging) => if st.launch = l.id then { st with done := all, bad := bad } else st
    { s with stagings := s.stagings.map note }

/-- The ending of a launched hart (R387): step 1 waits as `fence.a.dom` would; a failure there gives end code 0xFF. -/
def State.hartEnd (s : State) : State :=
  match (fenceStores 5 true fun _ => 0).go s with
  | (.ok _, t) => t.endHart (bits (t.x 10) 7 0)
  | (.error (.trap _), t) => t.endHart 0xFF
  | (.error (.stall k o), t) =>
    let st := s.stallOf k o
    if st.deadline ≤ s.now.toNat then t.endHart 0xFF else { t with hart.stall := some st }

/-- Whether the current hart is a launched one that would fetch at address 0 at U (R387). -/
def State.atEnd (s : State) : Bool :=
  s.hart.run = .running && s.hart.launch.isSome && s.hart.priv = .user && s.hart.pc = 0

/-- A launched hart ends (R387). -/
def execHartEnd (s : State) : Result := .next (if s.atEnd then s.hartEnd else s)

/-- The lowest end code that is not 0, and how many are not. -/
def badCodes (l : List (Nat × Nat)) : Nat × Nat :=
  let bad := (l.map (·.2)).filter (· ≠ 0)
  (bad.foldl min 0xFF, bad.length)

/-- The completion word of a launch whose harts have ended and whose copies have retired (R387). -/
def execLaunchCompletion (id : Nat) (s : State) : Result :=
  .next (match s.launches.find? fun l => l.id = id with
    | none => s
    | some l =>
      if l.ended.length = l.harts.length && !(s.copies.any fun c => c.launch = some id) then
        let t := { s with launches := s.launches.erase l }
        let b := badCodes l.ended
        if b.2 = 0 then t.finishWord l.completion 0 0 0 else t.finishWord l.completion 5 b.1 b.2
      else s)

/-! ### The communication reserve (R391) -/

/-- The communication queues that have waited 10 µs, by the time at which they had. -/
def State.commWaits (s : State) : List Nat :=
  (s.queues.filter fun p => p.2.cls && p.2.v && p.2.pend && (s.headOf p.1).isSome).map fun p => p.2.wait + 10000

/-- The reserve grows by one core, once that core is idle (R391). -/
def execCommresGrow (s : State) : Result :=
  .next (match s.commWaits with
    | [] => s
    | d :: ds =>
      let t := s.passUntil (ds.foldl min d)
      match ((t.part.cores.mergeSort (· ≥ ·)).drop t.part.commNow).head? with
      | some c =>
        if t.part.commNow < t.part.commMax && t.coreIdle c then { t with part.commNow := t.part.commNow + 1 } else t
      | none => t)

/-- The reserve shrinks by one core, once a reserved one has been idle for 100 µs (R391). -/
def execCommresShrink (s : State) : Result :=
  .next (match ((s.reserveCores.filter s.coreIdle).map fun c => (s.coreAt c).idleSince + 100000).min? with
    | some t => if s.part.commMin < s.part.commNow then
        let u := s.passUntil t
        { u with part.commNow := u.part.commNow - 1 }
      else s
    | none => s)

/-! ### Energy (R388, R389) -/

/-- Operations charged to a queue (R388); when the budget is spent, EXH is set and the harts of its launches are told
(R389). When a charge is made is the agenda's choice (log 125). -/
def execEnergyCharge (q : QueueNum) (a : Activity) (s : State) : Result :=
  let n := q.toNat
  let t := s.modQueue n fun d => { d with spent := d.spent + a.energy }
  let d := t.queue n
  .next (if d.budget ≠ 0 && d.budget * 10 ^ 6 ≤ d.spent && !d.exh then
      let t := t.modQueue n fun d => { d with exh := true }
      let harts := (t.launches.filter fun l => l.queue = n).flatMap fun l =>
        l.harts.filter fun h => l.ended.all fun e => e.1 ≠ h
      harts.foldl (fun t h => t.post h ⟨80, word n, 0⟩) t
    else t)

/-- Every hart of the partition told a cause. -/
def State.postAll (s : State) (t : Trap) : State :=
  s.part.cores.foldl (fun s c => (List.range 4).foldl (fun s k => s.post (4 * c + k) t) s) s

/-- The boundary of an accounting period (R388): one period after the last, and with `TIMER` if the partition manager has it posted,
here or at every boundary. -/
def execAccountingPeriodBoundary (timer : Bool) (s : State) : Result :=
  let s := s.passUntil (s.part.boundary + s.part.period)
  let s := { s with part.boundary := s.now.toNat }
  let t := s.queues.foldl (fun s p => s.modQueue p.1 fun d => { d with
    spent := d.spent - d.budget * 10 ^ 6
    exh := false }) s
  .next (if timer || s.part.timer then t.postAll ⟨77, 0, 0⟩ else t)

end Sys2Proof.Machine
end

