-- ==== Sys2Proof/Machine/EventFabric.lean ====
section
/-! DEFINITION. Events of the trellis, the fabric and its links (R395 to R413): routing, ages, injection, replay windows,
unreachable endpoints, frames and keys. -/

namespace Sys2Proof.Machine

/-! ### The trellis (R395 to R400, R412) -/

/-- Stops are numbered row by row: 14 rows of 10 (R395). -/
def stopRow (s : Nat) : Nat := s / 10
def stopCol (s : Nat) : Nat := s % 10

/-- The neighbours of a stop. -/
def neighbours (s : Nat) : List Nat :=
  (if stopRow s = 0 then [] else [s - 10]) ++ (if stopRow s = 13 then [] else [s + 10])
    ++ (if stopCol s = 0 then [] else [s - 1]) ++ (if stopCol s = 9 then [] else [s + 1])

/-- Hops between two stops. -/
def hops (a b : Nat) : Nat :=
  (stopRow a - stopRow b) + (stopRow b - stopRow a) + (stopCol a - stopCol b) + (stopCol b - stopCol a)

/-- The die of a stop, by its row; the hub is die 4 (R395). -/
def stopDie (s : Nat) : Nat :=
  let r := stopRow s
  if r < 3 then 0 else if r < 6 then 1 else if r < 8 then 4 else if r < 11 then 2 else 3

/-- The header of a flit (R407), but for KS, which a port adds. -/
def Flit.header (f : Flit) : Nat :=
  f.ep.toNat + f.die.toNat * 2 ^ 13 + f.src.toNat * 2 ^ 16 + f.sdie.toNat * 2 ^ 29 + f.cls * 2 ^ 32 + f.kind * 2 ^ 34
    + f.len * 2 ^ 40 + f.seq * 2 ^ 49 + f.offset * 2 ^ 64 + f.hart * 2 ^ 108 + f.re * 2 ^ 119

/-- Whether a flit goes before another (R396). -/
def Flit.before (a b : Flit) : Bool :=
  let ca := if a.cls = 0 then 0 else 1
  let cb := if b.cls = 0 then 0 else 1
  if ca ≠ cb then ca < cb
  else if a.age ≠ b.age then b.age < a.age
  else if a.source ≠ b.source then a.source < b.source
  else a.seq ≤ b.seq

/-- A flit gone. -/
def State.dropFlit (s : State) (id : Nat) : State := { s with flits := s.flits.filter fun f => f.id ≠ id }

/-- A flit changed. -/
def State.modFlit (s : State) (id : Nat) (f : Flit → Flit) : State :=
  { s with flits := s.flits.map fun g => if g.id = id then f g else g }

/-- The class of a packet (R397): sync objects, casks, queues, wakes, flushing reads, their answers and contributions of 256 bytes
or less; other data; and bulk traffic. -/
def State.packetClass (s : State) : Packet → Nat
  | .cask => 0 | .wake => 0 | .flush .. => 0 | .answer .. => 0
  | .collective n => if n ≤ 256 then 0 else 1
  | .store _ => 1 | .train _ => 1 | .load _ => 1 | .atomic _ => 1 | .response _ => 1
  | .copy i => if 4096 ≤ (s.copies[i]?).elim 0 (·.len) then 2 else 1
  | .migration _ => 2 | .rack _ => 2

/-- Whether there is such a packet under way: of the current hart, or of the module's engines. -/
def State.packetExists (s : State) : Packet → Bool
  | .store i => (s.posted[i]?).elim false fun p => p.hart = s.hart.id
  | .train i => (s.trains[i]?).elim false fun t => t.hart = some s.hart.id
  | .copy i => i < s.copies.length
  | .migration i => i < s.migrations.length
  | .rack i => (s.leases[i]?).elim false fun l => l.state = .racking
  | .cask => (s.hart.wait.bind (·.cask)).isSome || s.hart.stall.elim false fun st => st.kind = 6
  | .flush ep die => s.hart.toFlush.contains (ep, die) || s.hart.stall.elim false fun st => st.kind = 0
  | .load _ => s.hart.reassembly ≠ [] || s.hart.late.isSome || s.hart.stall.isSome
  | .atomic _ => s.hart.stall.isSome
  | .collective _ => s.hart.members ≠ []
  | .wake => true
  | .answer .. => true
  | .response _ => true

/-- What a failure of a packet strikes (R403). -/
def State.packetCargo (s : State) : Packet → Cargo
  | .store i => (s.posted[i]?).elim .other fun p => .store p.seq
  | .train _ => .train
  | .load _ => .load
  | .response _ => .response
  | .cask => .wait | .flush .. => .wait | .atomic _ => .wait | .collective _ => .wait | .wake => .wait
  | .copy _ => .other | .migration _ => .other | .rack _ => .other | .answer .. => .other

/-- TYPE and LEN of a packet's header (R407). -/
def State.packetType (s : State) : Packet → Nat × Nat
  | .store i => (0, (s.posted[i]?).elim 0 (·.data.length))
  | .load _ => (1, 0) | .response n => (2, min n 256) | .atomic _ => (3, 16)
  | .train i => (5, (s.trains[i]?).elim 0 fun t => min 256 (t.items.map (·.data.length)).sum)
  | .copy _ => (0, 256) | .migration _ => (0, 256) | .rack _ => (2, 256)
  | .flush .. => (9, 0) | .answer .. => (10, 0) | .cask => (11, 64) | .collective n => (13, min n 256) | .wake => (15, 8)

/-- Where a packet goes, and the address that it names (R407): the home of a store, a train, a load, an atomic or a cask, the lender of
a region that racks. -/
def State.packetHome (s : State) (p : Packet) : Endpoint × Die × Word :=
  let at_ := fun (pa : Nat) => (epOf pa, dieOf (offOf pa), word (offOf pa))
  let own := (s.endpt, (0 : Die), (0 : Word))
  let home := fun (a : Word) => match (resolve s.ctx .load a 1 1 .answered).go s with
    | (.ok q, _) => let d := s.homeDie q.loc; (d.1, d.2, a)
    | _ => (s.endpt, (0 : Die), a)
  match p with
  | .store i => (s.posted[i]?).elim own fun q => at_ q.pa
  | .train i => (s.trains[i]?).elim own fun t => (t.ep, t.die, 0)
  | .migration i => (s.migrations[i]?).elim own fun m => at_ m.dest
  | .rack i => (s.leases[i]?).elim own fun l => at_ l.base
  | .flush ep die => (ep, die, 0)
  | .answer ep die => (ep, die, 0)
  | .load a => home a
  | .atomic a => home a
  | .cask => ((s.hart.wait.bind (·.cask)).elim own fun l => match l with
      | .glob pa => at_ pa
      | .spad _ _ => own)
  | _ => own

/-- A packet of the current hart asks its core's stop to be injected, for a stop of the trellis (R397, R399): there must be such a
packet, and within the module the stop must lie on the die of its home (R395). -/
def State.askInject (s : State) (p : Packet) (dest : Nat) : State :=
  let stop := Config.coreStop s.hart.core
  let h := s.packetHome p
  let t := s.packetType p
  if !s.packetExists p || 140 ≤ dest || (h.1 = s.endpt && stopDie dest ≠ h.2.1.toNat) then s
  else { s with
    nextId := s.nextId + 1
    flits := s.flits ++ [{
      id := s.nextId
      stop := stop
      dest := dest
      cls := s.packetClass p
      age := 0
      source := stop
      seq := s.nextId % 32768
      hart := s.hart.id
      ep := h.1
      die := h.2.1
      addr := h.2.2
      crc := true
      again := false
      waiting := some 0
      cargo := s.packetCargo p
      kind := t.1
      len := t.2
      src := s.endpt
      sdie := .ofNat 3 (dieOfCore s.hart.core)
      offset := offOf h.2.2.toNat
      re := (s.hart.reassembly.head?).elim 0 (·.place) }] }

/-! ### What fails (R105, R398, R403, R405) -/

/-- The window toward an endpoint. -/
def State.window (s : State) (ep : Endpoint) : Window := Tbl.get {} s.windows ep.toNat
def State.setWindow (s : State) (ep : Endpoint) (w : Window) : State :=
  { s with windows := Tbl.set {} s.windows ep.toNat w }

/-- Train `t` of hart `n` fails: its convoy stops at `low` (R105, R344, R345). When the convoy has other members, they have run on: the
next turn of the hart brings them back to that position and lands. -/
def State.failTrain (s : State) (n : Nat) (t : Train) (low : Nat) (cause : Trap) : State :=
  let me := s.hart.id
  let u := s.switchTo n
  let back : Option Undo := u.hart.undo.filter fun un => un.head = t.head && decide (u.hart.run = Run.running)
  (match back with
  | some un => { u.loosen with
      hart.pc := t.head
      hart.vstart := un.vstart
      hart.lcnt := t.lcnt
      hart.resumed := t.committed
      hart.stall := some {
        kind := 10
        object := low
        deadline := 2 ^ 64
        vec := true
        start := t.start
        committed := t.committed
        split := some (low, cause)
        sent := true
        redo := true } }
  | none => u.loosen.failConvoy t.head t.lcnt t.start low t.committed cause).switchTo me

/-- The lowest element that an unacknowledged train of a hart carries (R105). -/
def State.lowestOf (s : State) (n : Nat) : Nat :=
  ((s.trains.filter fun t => t.hart = some n && !t.loose).map (·.lowest)).foldl min (2 ^ 32)

/-- Trains that a condition names are lost; what their harts await of them fails with a cause (R105). -/
def State.loseTrains (s : State) (gone : Train → Bool) (cause : Train → Trap) : State :=
  let broken := s.harts.filterMap fun h => (s.trains.find? fun t => t.hart = some h.id && gone t && !t.loose).map fun t =>
    (h.id, t, s.lowestOf h.id)
  let u := { s with trains := s.trains.filter fun t => !gone t }
  broken.foldl (fun u q => u.failTrain q.1 q.2.1 q.2.2 (cause q.2.1)) u

/-- The open loads of hart `n` that go to an endpoint, or to one die of it, fail (R403). -/
def State.loseLoads (s : State) (n : Nat) (ep : Endpoint) (die : Option Die) (code : Nat) : State :=
  let at_ := fun (e : Endpoint) (d : Die) => e = ep && die.elim true (· = d)
  let u := match (s.hartAt n).reassembly.find? fun r => at_ r.ep r.die with
    | some r => s.failLoad n r ⟨code, epDie r.ep r.die, 0⟩
    | none => s
  match (u.hartAt n).late with
  | some l => if at_ (epOf l.pa) (dieOf (offOf l.pa)) then u.failLate n l ⟨code, epDie (epOf l.pa) (dieOf (offOf l.pa)), 0⟩ else u
  | none => u

/-- A failure strikes what a packet of hart `n` carries (R398, R403): a posted store, a train, a load, or the instruction that waits.
-/
def State.strikeCargo (s : State) (n : Nat) (c : Cargo) (t : Trap) (ep : Endpoint) (die : Die) : State :=
  let h := s.hartAt n
  let load := h.reassembly.any (fun r => r.ep = ep && r.die = die)
    || h.late.elim false fun l => epOf l.pa = ep && dieOf (offOf l.pa) = die
  match c with
  | .store seq => ({ s with posted := s.posted.filter fun p => !(p.hart = n && p.seq = seq) } : State).strikeStore n t.code ep die
  | .train => s.loseTrains (fun q => q.hart = some n && q.ep = ep && q.die = die && !q.complete) fun _ => t
  | .load => if load then s.loseLoads n ep (some die) t.code else s.strike n t
  | .response => if load then s.loseLoads n ep (some die) t.code else s.strike n t
  | .wait => s.strike n t
  | .other => s

/-- Every hart's flushes that a 65th pair brought about are judged anew (R100, R405, R406). -/
def State.overflowAll (s : State) : State :=
  (s.harts.filter fun h => h.overflow ≠ []).foldl (fun s h => (s.switchTo h.id).flushOverflow.switchTo s.hart.id) s

/-- Whatever is still on its way to an endpoint is lost, and what harts await of it fails: trains with a cause of their own, other
waiters, a scalar load that was left open among them, with theirs, and the pair of a lost store at its next flush (R102, R105, R405,
R406). -/
def State.abandon (s : State) (ep : Endpoint) (train other : Nat) : State :=
  let mine := fun (p : Posted) => epOf p.pa = ep
  let gone := s.posted.filter mine
  let u := { s.setWindow ep {} with posted := s.posted.filter fun p => !mine p }
  let u := gone.foldl (fun (u : State) p =>
    let q := (ep, dieOf (offOf p.pa))
    u.modHart p.hart fun h => { h with lost := if h.lost.contains q then h.lost else h.lost ++ [q] }) u
  let u := (s.harts.map (·.id)).foldl (fun (u : State) n => u.loseLoads n ep none other) u
  (u.loseTrains (fun t => t.ep = ep && !t.complete) fun t => ⟨train, epDie ep t.die, 0⟩).overflowAll

/-- Harts that wait on something at an endpoint trap there (R405, R406). -/
def State.strikeWaiters (s : State) (ep : Endpoint) (cause : Nat) : State :=
  (s.harts.filter fun h => (h.wait.bind (·.cask)).elim false fun l => match l with
    | .glob pa => epOf pa = ep
    | .spad _ _ => false).foldl (fun s h =>
      let die := match h.wait.bind (·.cask) with
        | some (.glob pa) => dieOf (offOf pa)
        | _ => 0
      s.strike h.id ⟨cause, epDie ep die, 0⟩) s

/-- A NACK of packet `seq` from an endpoint (R405): the back-off starts; at the limit of resends the window is exhausted. -/
def State.nacked (s : State) (ep : Endpoint) (seq : Nat) : State :=
  let w := s.window ep
  if w.resend = some seq && s.limit ≤ w.nacks then
    ({ s with exhausted := if s.exhausted.contains ep then s.exhausted else s.exhausted ++ [ep] }).abandon ep cTrainNackLimit
      cReplayExhausted
  else
    s.setWindow ep {
      nacks := w.nacks + 1
      resend := some seq
      backoff := s.now.toNat + min (s.bmin * 2 ^ w.nacks) s.bmax }

/-! ### Routing and injection (R396 to R400, R412) -/

/-- A flit leaves the trellis at its destination (R412). With its CRC failed, a class-1 or class-2 packet that is no response is NACKed
under R405; a response or class-0 packet is asked for once more, and for the second time its instruction faults. -/
def State.eject (s : State) (f : Flit) : State :=
  if f.crc then s.dropFlit f.id
  else if f.cls ≠ 0 && f.cargo ≠ .response then
    (s.dropFlit f.id).nacked f.ep (match f.cargo with
      | .store seq => seq
      | _ => f.seq)
  else if f.again then (s.dropFlit f.id).strikeCargo f.hart f.cargo ⟨cIntegrity, f.addr, 0⟩ f.ep f.die
  else s.modFlit f.id fun g => { g with
    again := true
    crc := true
    age := 0
    stop := g.source
    waiting := some 0 }

/-- The flits at a stop take their ports one after another (R396): the ejection port once, a free productive port, else
any free port. Every flit leaves; no more arrive in a cycle than there are ports. What is left of the ports comes back. -/
def State.route (stop : Nat) : List Flit → Bool → List Nat → State → State × List Nat
  | [], _, ports, s => (s, ports)
  | f :: fs, ejected, ports, s =>
    if f.dest = stop && !ejected then State.route stop fs true ports (s.eject f)
    else
      let good := ports.filter fun p => hops p f.dest < hops stop f.dest
      let pick := if good ≠ [] then good else if ports ≠ [] then ports else neighbours stop
      let p := pick.getD (Config.portChoice s.clock % max 1 pick.length) stop
      let t := s.modFlit f.id fun g => { g with
        stop := p
        age := min 1023 (g.age + 1)
        waiting := none }
      State.route stop fs ejected (ports.erase p) { t with clock := t.clock + 1 }

/-- A cycle in which flits wait to inject is counted against each of them, and once against each of their harts (R399). -/
def State.waitInject (s : State) (l : List Flit) : State :=
  let t := l.foldl (fun (t : State) f => t.modFlit f.id fun g => { g with waiting := g.waiting.map (· + 1) }) s
  ((l.map (·.hart)).dedup).foldl (fun (t : State) n => t.modHart n fun h => { h with injTotal := (h.injTotal + 1) % 2 ^ 32 }) t

/-- The stops that withhold their injections: those beside one at which a flit has waited 1,024 cycles, as long as it waits (R400).
-/
def State.freeWithheld (s : State) : State :=
  { s with withheld := s.withheld.filter fun n =>
      s.flits.any fun f => f.waiting.elim false (1024 ≤ ·) && (neighbours f.stop).contains n }

/-- One cycle of a router (R396, R399, R400): the flits there are ranked and leave; one that waits is injected, and leaves with them,
when an output is left free and the stop is not withheld. -/
def execFlitArrival (stop : Nat) (s : State) : Result :=
  let here := (s.flits.filter fun f => f.stop = stop && f.waiting.isNone).mergeSort Flit.before
  let r := State.route stop here false (neighbours stop) s
  .next (match s.flits.filter fun f => f.stop = stop && f.waiting.isSome with
    | [] => r.1
    | f :: fs =>
      if r.2 ≠ [] && !r.1.withheld.contains stop then
        ((State.route stop [f] (here.any fun g => g.dest = stop) r.2 r.1).1.waitInject fs).freeWithheld
      else r.1.waitInject (f :: fs))

/-- `TVAL` of the trellis causes: the own endpoint and the destination die (R398). -/
def State.dieValue (s : State) (f : Flit) : Word := epDie s.endpt f.die

/-- A flit reaches age 1,023: it goes back to its source, and its instruction faults (R398). -/
def execAgeBoundExceeded (flit : Nat) (s : State) : Result :=
  .next (match s.flits.find? fun f => f.id = flit with
    | none => s
    | some f =>
      if f.age < 1023 then s
      else (s.dropFlit flit).strikeCargo f.hart f.cargo ⟨cAgeBound, s.dieValue f, 0⟩ f.ep f.die)

/-- A flit at the stop has waited 1,024 cycles: the neighbouring stops withhold their injections (R400). -/
def execInjectionPriority (stop : Nat) (s : State) : Result :=
  .next (if s.flits.any fun f => f.stop = stop && f.waiting.elim false (1024 ≤ ·)
    then { s with withheld := (s.withheld ++ neighbours stop).dedup } else s)

/-- A flit has waited 65,536 cycles: it is not sent, and its instruction faults (R400). -/
def execInjectionStarved (flit : Nat) (s : State) : Result :=
  .next (match s.flits.find? fun f => f.id = flit with
    | none => s
    | some f =>
      if f.waiting.elim false (65536 ≤ ·) then
        (s.dropFlit flit).freeWithheld.strikeCargo f.hart f.cargo ⟨cStarved, s.dieValue f, 0⟩ f.ep f.die
      else s)

/-- A window of 1 µs ends (R399): `cycles` of it held a flit at the stop of the current hart's core. -/
def execInjthrWindow (cycles : Nat) (s : State) : Result :=
  let c := s.hart.core
  .next ((List.range 4).foldl (fun s k => s.modHart (4 * c + k) fun h => { h with injWin := min cycles 1200 }) s)

/-! ### Replay windows (R405, R406) -/

/-- A NACK from an endpoint (R405). -/
def execNackReceived (ep : Endpoint) (seq : Nat) (s : State) : Result := .next (s.nacked ep seq)

/-- The back-off ends and the packets from the NACKed one on are sent again (R405); the homes apply each once. -/
def execReplayBackoffExpiry (ep : Endpoint) (s : State) : Result :=
  let w := s.window ep
  .next (if w.resend.isNone then s
    else
      let t := s.passUntil w.backoff
      t.setWindow ep { w with backoff := 0 })

/-- The posted store that an acknowledgement names, and the earlier ones to its line, have been applied (R99, R405). -/
def State.applyAcked (s : State) (ep : Endpoint) (seq : Nat) : State :=
  match s.posted.find? fun p => epOf p.pa = ep && p.seq = seq with
  | none => s
  | some p =>
    let earlier := s.posted.filter fun (q : Posted) => q.hart = p.hart && q.pa / 64 = p.pa / 64 && q.seq ≤ p.seq
    let t := earlier.foldl State.applyPosted s
    { t with posted := s.posted.filter fun q => !earlier.contains q }

/-- Every flit of a port sent so far has been accepted: resends are counted anew, and the old key is retired. -/
def Port.sentAll (p : Port) : Port :=
  let idle := if p.active then 0 else 1
  { p with
    resends := 0
    send := Vector.ofFn fun i => if i.val = idle then {} else p.send[i] }

/-- An acknowledgement (R405): the home has applied the packet, and NACKs are counted anew. It also shows that the flits
sent before have been accepted (R409, R410). -/
def execAckReceived (ep : Endpoint) (seq : Nat) (s : State) : Result :=
  let s := s.applyAcked ep seq
  let sent := fun (p : Nat × Port) => if p.2.ep = ep then (p.1, p.2.sentAll) else p
  .next { s.setWindow ep {} with
    exhausted := s.exhausted.filter (· ≠ ep)
    ports := s.ports.map sent }

/-- The fabric manager reports an endpoint unreachable (R406): its windows are abandoned, its waiters fail, leases of
its memory are lost (R372), and a recovery group takes note (R420). -/
def execEndpointDownReport (ep : Endpoint) (s : State) : Result :=
  let t := { s with down := if s.down.contains ep then s.down else s.down ++ [ep] }
  let t := (t.abandon ep cEndpointDown cEndpointDown).strikeWaiters ep cEndpointDown
  let t : State := { t with recovery := t.recovery.map fun (r : Recovery) => { r with seen := (r.seen ++ [ep]).dedup } }
  .next ((t.leases.filter fun l => l.takes && l.lender = ep).foldl (fun t l =>
    (t.putLease { l with state := .lost }).notifyHart l.borrower l.notify ⟨75, word l.id, 0⟩) t)

/-! ### Links (R407, R409, R410) -/

/-- A port of the module. -/
def State.port (s : State) (p : Nat) : Port := Tbl.get {} s.ports p
def State.setPort (s : State) (p : Nat) (v : Port) : State := { s with ports := Tbl.set {} s.ports p v }

/-- Slot number of a key. -/
def slotOf (b : Bool) : Nat := if b then 1 else 0

/-- A key slot of a pair. -/
def slot (v : Vector KeySlot 2) (b : Bool) : KeySlot := if b then v[1] else v[0]
def setSlot (v : Vector KeySlot 2) (b : Bool) (k : KeySlot) : Vector KeySlot 2 :=
  Vector.ofFn fun i => if i.val = slotOf b then k else v[i]

/-- The IV of a slot's next flit (R409): the salt, then the counter. -/
def KeySlot.iv (k : KeySlot) : Nat := k.salt.toNat * 2 ^ 64 + k.counter

/-- A key that firmware installs in a slot, the `n`th (R409). -/
def newKey (n counter : Nat) : KeySlot :=
  { installed := true, counter := counter, key := Config.linkKey n, salt := Config.linkSalt n }

/-- A frame reaches a port (R410): it is accepted when it is intact and has the counter that its slot expects; else it is
NACKed and the flits after it are discarded until it comes again. A marker switches the slot (R409). -/
def execFrameReceive (port : Nat) (f : Frame) (s : State) : Result :=
  let p := s.port port
  let k := slot p.recv f.ks
  let ok := f.intact && k.installed && f.counter = k.counter && (f.marker || f.ks = p.rxActive)
    && p.awaits.elim true (· == f.ks)
  .next (if ok then
      let recv := setSlot p.recv f.ks { k with counter := k.counter + 1 }
      let turns := f.marker && f.ks ≠ p.rxActive
      s.setPort port { p with
        recv := if turns then setSlot recv p.rxActive {} else recv
        rxActive := f.ks
        discarding := false
        awaits := none }
    else if p.discarding then s
    else (s.setPort port { p with discarding := true, awaits := some f.ks }).reply (.nack port))

/-- A NACK from the other side of a port (R410): the sender resends, three times at most; then the port goes down and the
instruction whose request the flit carried faults. -/
def execLinkNack (port : Nat) (s : State) : Result :=
  let p := s.port port
  .next (if p.resends < 3 then s.setPort port { p with resends := p.resends + 1 }
    else (s.setPort port { p with
      up := false
      resends := 0 }).strikeCargo p.hart p.cargo ⟨cAuthFail, epDie p.ep p.die, 0⟩ p.ep p.die)

/-- The counter of a port's active key reaches `KEYLIM` − `KEYMARGIN` (R409): firmware installs the next key in the idle
slot at the receiver and at the sender, and the sender sends the marker under it with counter 0. -/
def execKeySwitchover (port : Nat) (s : State) : Result :=
  let p := s.port port
  let near := s.keyLim - s.keyMargin
  let sent := slot p.send p.active
  let recv := if near ≤ (slot p.recv p.rxActive).counter then setSlot p.recv (!p.rxActive) (newKey (2 * s.clock) 0) else p.recv
  .next (({ s with clock := s.clock + 1 } : State).setPort port { p with
    send := setSlot (setSlot p.send p.active { sent with counter := max near sent.counter }) (!p.active)
      (newKey (2 * s.clock + 1) 1)
    active := !p.active
    recv := recv })

/-- A port that may send: it is up, and its counter has not reached `KEYLIM` (R410). -/
def Port.usable (lim : Nat) (p : Port) : Bool := p.up && (slot p.send p.active).counter < lim

/-- The port for a packet (R404): that with the most transmit credit toward the leaf switch of the destination, the lower number on a
tie. -/
def State.choosePort (s : State) (ep : Endpoint) : Option Nat :=
  let credit := fun (p : Port) => Tbl.get 0 p.credit (Config.leafOf ep)
  ((s.ports.filter fun q => q.2.usable s.keyLim).foldl (fun (b : Option (Nat × Port)) q => match b with
    | none => some q
    | some c => if credit c.2 < credit q.2 then some q else b) none).map (·.1)

/-- A new flit of a request sent by a port: the counter of its slot rises by 1 (R409), and a credit is spent. -/
def State.sendFlit (s : State) (hart : Nat) (ep : Endpoint) (die : Die) (cargo : Cargo) : State :=
  match s.choosePort ep with
  | none => s
  | some n =>
    let p := s.port n
    let k := Machine.slot p.send p.active
    let leaf := Config.leafOf ep
    s.setPort n { p with
      send := Machine.setSlot p.send p.active { k with counter := k.counter + 1 }
      hart := hart
      ep := ep
      die := die
      cargo := cargo
      credit := Tbl.set 0 p.credit leaf (Tbl.get 0 p.credit leaf - 1) }

/-- Endpoints beyond the ports on which some hart waits: for a cask, a load, a train or a flush (R410). -/
def State.awaited (s : State) : List Endpoint :=
  let casks := (s.harts.filterMap fun h => h.wait.bind (·.cask)).filterMap fun l => match l with
    | .glob pa => some (epOf pa)
    | .spad _ _ => none
  let all := casks ++ (s.harts.flatMap fun h => h.reassembly.map (·.ep) ++ h.toFlush.map (·.1)
    ++ (h.late.map fun l => epOf l.pa).toList) ++ (s.trains.filter fun t => t.hart.isSome).map (·.ep)
  (all.filter (· ≠ s.endpt)).dedup

/-- Whatever waits on an endpoint fails since no port is left (R410): trains, loads, waits on casks, and the instructions that wait
for flushes. -/
def State.keysGone (s : State) (ep : Endpoint) : State :=
  let u := (s.harts.map (·.id)).foldl (fun (u : State) n => u.loseLoads n ep none cKeyExhausted) s
  let u := u.loseTrains (fun t => t.hart.isSome && t.ep = ep && !t.complete) fun t => ⟨cKeyExhausted, epDie ep t.die, 0⟩
  let u := (u.harts.filter fun h => h.stall.elim false (fun st => st.kind = 0) && h.toFlush.any fun q => q.1 = ep).foldl
    (fun (u : State) h => u.strike h.id ⟨cKeyExhausted, epDie ep ((h.toFlush.find? fun q => q.1 = ep).elim 0 (·.2)), 0⟩) u
  u.strikeWaiters ep cKeyExhausted

/-- The counter of a port reaches `KEYLIM` with no key in the idle slot (R410): the port stops sending. When no port is
left, those who wait on another endpoint fail. -/
def execLinkKeyExhausted (port : Nat) (s : State) : Result :=
  let p := s.port port
  .next (if (slot p.send (!p.active)).installed then s
    else
      let sent := slot p.send p.active
      let t := s.setPort port { p with
        up := false
        send := setSlot p.send p.active { sent with counter := s.keyLim } }
      if t.ports.any fun q => q.2.usable s.keyLim then t else t.awaited.foldl State.keysGone t)

end Sys2Proof.Machine
end

