-- ==== Sys2Proof/Machine/EventModule.lean ====
section
/-! DEFINITION. Events of the module: health (R414 to R416), vintages (R419, R420), bring-up and identity (R427 to R429),
the time base (R111, R114), power and heat (R430, R432, R433), resets and posted causes (R339, R342). -/

namespace Sys2Proof.Machine

/-! ### Health (R414 to R416) -/

/-- The four scores of the health estimate, in the order of SRC (R415). -/
def riskScores (ecc replays : Nat) (margin : Int) (droop : Nat) : List Nat :=
  [min 65535 (64 * ecc), min 65535 (16 * replays),
    if 20 ≤ margin then 0 else if margin ≤ 0 then 65535 else min 65535 (3276 * (20 - margin.toNat)),
    if droop ≤ 10 then 0 else min 65535 (1024 * (droop - 10))]

/-- `RISK_RAISED` at a hart after an update (R416). -/
def Hart.risk (value : Nat) (h : Hart) : Hart :=
  let th := h.riskthr.toNat % 2 ^ 16
  let en := decide (2 ^ 16 ≤ h.riskthr.toNat)
  if en && h.riskArmed && th < value then
    { h with
      riskArmed := false
      pending := if (⟨82, word value, 0⟩ : Trap) ∈ h.pending then h.pending else h.pending ++ [⟨82, word value, 0⟩] }
  else if value ≤ th - 1024 then { h with riskArmed := true }
  else h

/-- An update of `RISK` (R415). -/
def execRiskUpdate (ecc replays : Nat) (margin : Int) (droop : Nat) (s : State) : Result :=
  let scores := riskScores ecc replays margin droop
  let value := scores.foldl max 0
  let src := if value = 0 then 0 else 1 + scores.findIdx (· = value)
  .next { s with
    risk := word (src * 2 ^ 16 + value)
    hart := s.hart.risk value
    others := s.others.map fun p => (p.1, p.2.risk value) }

/-! ### Vintages (R419, R420) -/

/-- STATE of a vintage record (R419). -/
def Vintage.code : Vintage → Nat
  | .steady => 1 | .filling => 2 | .halted => 3

/-- The vintage record written (R419): SECURED stays, FILLFROM becomes SECURED when a fill starts, and the reserved part is zero. -/
def State.writeVintage (s : State) (r : Recovery) (fills : Bool) : State :=
  let at_ := fun (o : Nat) => Loc.glob (r.record + o)
  let s := s.setHome64 (at_ 0) (r.vintage % 2 ^ 32 + r.state.code * 2 ^ 32)
  let s := if fills then s.setHome64 (at_ 16) (s.home64 (at_ 8)) else s
  let s := s.setHome64 (at_ 24) (r.failed.length % 2 ^ 16)
  let s := s.setHome64 (at_ 32) (leNat ((r.failed.take 4).flatMap fun e => leBytes e.toNat 2))
  s.homeSet (at_ 40) (List.replicate 24 0)

/-- A cause posted to the notify harts of this module's endpoint; one that has failed is told nothing. -/
def State.notifyGroup (s : State) (r : Recovery) (spares : Bool) (t : Trap) : State :=
  let all := r.members ++ (if spares then r.spares else [])
  if r.failed.contains s.endpt then s
  else ((all.zip r.notify).filter fun p => p.1 = s.endpt).foldl (fun s p => s.post p.2 t) s

/-- Failures detected within one window (R420): those of the operand, and those that this module has seen since the last. -/
def execFailureDetectionWindow (failed : List Endpoint) (s : State) : Result :=
  .next (match s.recovery with
    | none => s
    | some r0 =>
      let r := { r0 with seen := [] }
      let e := ((r0.seen ++ failed).filter fun x => r.members.contains x || r.spares.contains x).dedup
      let new := e.filter fun x => r.state = .steady || !r.failed.contains x
      if new = [] || r.state = .halted then { s with recovery := some r }
      else
        let f := if r.state = .steady then new else r.failed ++ new
        let lost := (f.filter r.members.contains).length
        let left := (r.spares.filter fun x => !f.contains x).length
        let halts := decide (left < lost)
        let n := { r with
          vintage := r.vintage + 1
          state := if halts then .halted else .filling
          failed := f }
        let t := ({ s with recovery := some n }).writeVintage n (!halts)
        t.notifyGroup n false ⟨84, word n.vintage, 0⟩)

/-- Members with each failed one replaced by a spare, in order (R420). -/
def fillMembers (failed : List Endpoint) : List Endpoint → List Endpoint → List Endpoint
  | [], _ => []
  | m :: ms, x :: xs => if failed.contains m then x :: fillMembers failed ms xs else m :: fillMembers failed ms (x :: xs)
  | m :: ms, [] => m :: fillMembers failed ms []

/-- A group whose spares have been filled: they are members now, each with its notify hart (R420). -/
def Recovery.filled (r : Recovery) : Recovery :=
  let pairs := (r.members ++ r.spares).zip r.notify
  let alive := r.spares.filter fun x => !r.failed.contains x
  let members := fillMembers r.failed r.members alive
  let spares := alive.filter fun x => !members.contains x
  { r with
    state := .steady
    members := members
    spares := spares
    notify := (members ++ spares).map fun e => (pairs.find? fun p => p.1 = e).elim 0 (·.2) }

/-- Every spare has been filled (R420). -/
def execSpareFilled (s : State) : Result :=
  .next (match s.recovery with
    | none => s
    | some r =>
      if r.state = .filling then
        let n := r.filled
        let t := ({ s with recovery := some n }).writeVintage n false
        t.notifyGroup n true ⟨83, word n.vintage, 0⟩
      else s)

/-! ### Bring-up (R427, R428) -/

/-- A bring-up that stops in recovery with a code in the mailbox. -/
def State.recover (s : State) (stage code : Nat) : State :=
  { s with
    boot.stage := stage
    boot.ready := false
    boot.mailbox := code }

/-- The seed of the identity key: the first 32 bytes of the digest of the fuse secret (R428). -/
def identitySeed (secret : BitVec 512) : BitVec 256 :=
  .ofNat 256 (Config.sha512 (leBytes secret.toNat 64)).toNat

/-- A port that has trained, with a key for each direction (R427, R409). -/
def trainedPort (n : Nat) : Port := { up := true, send := #v[newKey (2 * n) 0, {}], recv := #v[newKey (2 * n + 1) 0, {}] }

/-- Power-good (R427): the stages in order, each only after the one before. -/
def execPowerGood (b : BringUp) (s : State) : Result :=
  let t := { s with
    boot.seed := identitySeed b.fuseSecret
    boot.log := b.digests }
  .next (if !b.slotA && !b.slotB then s.recover 1 1
    else if !b.hjelny then t.recover 3 2
    else
      { t with
        boot.stage := 7
        boot.ready := true
        boot.mailbox := 0
        boot.stacksOut := b.stacksOut
        boot.packagesOut := b.packagesOut
        boot.rootPorts := b.rootPorts
        ports := (b.portsUp.filter (· < 18)).foldl (fun l p => Tbl.set {} l p (trainedPort p)) t.ports
        endpt := b.endpoint
        now := b.time
        locked := true })

/-- The attestation report for a nonce (R429). -/
def State.report (s : State) (nonce : BitVec 256) : List Byte :=
  let body := leBytes Config.partCode.toNat 8 ++ leBytes (Config.ed25519Public s.boot.seed).toNat 32
    ++ leBytes nonce.toNat 32 ++ ((List.range 3).flatMap fun i => leBytes (s.boot.log.getD i 0).toNat 64)
    ++ leBytes Config.fuseVersion.toNat 8
  body ++ leBytes (Config.ed25519Sign s.boot.seed body).toNat 64

/-- An attestation request (R429). -/
def execAttestationRequest (nonce : BitVec 256) (s : State) : Result :=
  .next (if s.boot.ready then { s with boot.report := s.report nonce } else s)

/-! ### The time base (R111, R114) -/

/-- The lock to the domain time base is lost (R114). -/
def execTimeBaseLost (s : State) : Result := .next { s with locked := false }

/-- The lock is regained (R114). -/
def execTimeBaseLock (s : State) : Result := .next { s with locked := true }

/-! ### Power and heat (R430, R432, R433) -/

/-- A cause posted to the power notify harts. -/
def State.postPower (s : State) (t : Trap) : State := s.part.powerNotify.foldl (fun s h => s.post h t) s

/-- The measured slew, in 0.1 A/µs, against 1.25 times the limit (R430). -/
def execSlewLimit (measured : Nat) (s : State) : Result :=
  .next (if 5 * s.slew.toNat < 4 * measured then s.postPower ⟨91, word measured, 0⟩ else s)

/-- The hottest junction, in 0.1 °C, against the thresholds (R433). -/
def execThermal (tenths : Nat) (s : State) : Result :=
  .next (if s.thermal = .down then s
    else if 1050 ≤ tenths then
      let t := s.postAll ⟨95, Config.thermalSyndrome, 0⟩
      { t with
        thermal := .down
        hart.run := .halted
        others := t.others.map fun p => (p.1, { p.2 with run := .halted }) }
    else if 950 ≤ tenths then
      if s.thermal = .everyDie then s
      else ({ s with thermal := .everyDie }).postPower ⟨92, word tenths, 0⟩
    else if 930 ≤ tenths && s.thermal = .none then { s with thermal := .hottestDie }
    else s)

/-- A limit is lifted (R433): the one on every die gives way to the one on the hottest die, whose threshold is lower. -/
def execThermalLimitLift (s : State) : Result :=
  .next { s with thermal := match s.thermal with
    | .everyDie => .hottestDie
    | .hottestDie => .none
    | t => t }

/-- The matrix engine of the current hart's core has been idle for 256 cycles (R432). -/
def execMatrixIdle (s : State) : Result :=
  .next (s.modCore s.hart.core fun k => { k with
    mxIdle := true
    mxRow := 0 })

/-! ### Resets and posted causes (R339, R342, R390) -/

/-- The partition manager resets the partition (R339): every hart takes the cause, and staged launches are discarded
(R390). -/
def execPartitionReset (s : State) : Result :=
  let t := s.postAll ⟨85, 0, 0⟩
  .next (t.stagings.foldl (fun t st => t.unstage st.queue) t)

/-- A host request posted to the current hart (R342). -/
def execHostRequest (function : Word) (s : State) : Result := .next (s.post s.hart.id ⟨93, function, 0⟩)

/-- A firmware call posted to the current hart (R342). -/
def execFirmwareCall (number : Word) (s : State) : Result := .next (s.post s.hart.id ⟨94, number, 0⟩)

/-- A machine check posted to the current hart (R342); a recovery group takes note of the endpoint (R420). -/
def execMachineCheck (syndrome : Word) (s : State) : Result :=
  let t : State := { s with recovery := s.recovery.map fun (r : Recovery) => { r with seen := (r.seen ++ [s.endpt]).dedup } }
  .next (t.post s.hart.id ⟨95, syndrome, 0⟩)

/-! ### What firmware, a manager and the debug host set -/

/-- A setting takes effect; one outside the bounds that the spec gives changes nothing. -/
def State.apply (s : State) : Setting → State
  | .debug n icmp dcmp stepping claimed =>
    if n < Config.harts then s.modHart n fun h => { h with
      icmp := icmp.take 4
      dcmp := dcmp.take 4
      stepping := stepping
      claimed := claimed } else s
  | .resume n => if n < Config.harts && (s.hartAt n).run = .halted && s.thermal ≠ .down
      then s.modHart n fun h => { h with run := .running } else s
  | .trace base size period => { s with part := { s.part with
      traceBase := base
      traceSize := size
      traceUsed := 0
      traceNext := 0
      tracePeriod := period
      sampled := s.now.toNat } }
  | .traceRead n => { s with part := { s.part with traceUsed := s.part.traceUsed - n } }.noteLost 0
  | .group r =>
    let n := { r with state := .steady, failed := [], seen := [] }
    ({ s with recovery := some n }).writeVintage n false
  | .replaybo bmin bmax limit =>
    if 64 ≤ bmin && bmin < 2 ^ 16 && 64 ≤ bmax && bmax ≤ 64000 && 1 ≤ limit && limit ≤ 255
    then { s with bmin := bmin, bmax := bmax, limit := limit } else s
  | .keys lim margin => { s with keyLim := lim, keyMargin := margin }
  | .send hart ep die cargo => s.sendFlit hart ep die cargo
  | .credit port leaf n => s.setPort port { s.port port with credit := Tbl.set 0 (s.port port).credit leaf n }
  | .ingress full => { s with ingressFull := full }
  | .queueOwner q part vf => s.modQueue q fun d => { d with part := part, vf := vf }
  | .exportPage e => { s with exports := (s.exports.filter fun x => x.page ≠ e.page) ++ [e] }
  | .commres lo hi =>
    if lo ≤ hi then { s with part := { s.part with commMin := lo, commMax := hi, commNow := max lo (min s.part.commNow hi) } }
    else s
  | .accounting period timer =>
    if 100000 ≤ period && period ≤ 100000000 then { s with part := { s.part with period := period, timer := timer } } else s
  | .attest vf nonce =>
    if s.boot.ready then { s with boot := { s.boot with
      vfReports := (s.boot.vfReports.filter fun r => r.1 ≠ vf) ++ [(vf, s.report nonce)] } } else s

end Sys2Proof.Machine
end

