-- ==== Sys2Proof/Machine/Dispatch.lean ====
section
/-! DEFINITION. The one match that gives every instruction its meaning. -/

namespace Sys2Proof.Machine

/-- The meaning of an instruction. -/
def exec (i : Instr) (s : State) : Host.Outcome State Fault Refusal :=
  match i with
  | .add d a b => Sys2Proof.Machine.execAdd d a b s
  | .sub d a b => Sys2Proof.Machine.execSub d a b s
  | .and d a b => Sys2Proof.Machine.execAnd d a b s
  | .or d a b => Sys2Proof.Machine.execOr d a b s
  | .xor d a b => Sys2Proof.Machine.execXor d a b s
  | .andn d a b => Sys2Proof.Machine.execAndn d a b s
  | .orn d a b => Sys2Proof.Machine.execOrn d a b s
  | .sll d a b => Sys2Proof.Machine.execSll d a b s
  | .srl d a b => Sys2Proof.Machine.execSrl d a b s
  | .sra d a b => Sys2Proof.Machine.execSra d a b s
  | .slt d a b => Sys2Proof.Machine.execSlt d a b s
  | .sltu d a b => Sys2Proof.Machine.execSltu d a b s
  | .min d a b => Sys2Proof.Machine.execMin d a b s
  | .max d a b => Sys2Proof.Machine.execMax d a b s
  | .minu d a b => Sys2Proof.Machine.execMinu d a b s
  | .maxu d a b => Sys2Proof.Machine.execMaxu d a b s
  | .clz d a => Sys2Proof.Machine.execClz d a s
  | .ctz d a => Sys2Proof.Machine.execCtz d a s
  | .popc d a => Sys2Proof.Machine.execPopc d a s
  | .bswap d a => Sys2Proof.Machine.execBswap d a s
  | .mul d a b => Sys2Proof.Machine.execMul d a b s
  | .mulh d a b => Sys2Proof.Machine.execMulh d a b s
  | .mulhu d a b => Sys2Proof.Machine.execMulhu d a b s
  | .mulhsu d a b => Sys2Proof.Machine.execMulhsu d a b s
  | .div d a b => Sys2Proof.Machine.execDiv d a b s
  | .divu d a b => Sys2Proof.Machine.execDivu d a b s
  | .rem d a b => Sys2Proof.Machine.execRem d a b s
  | .remu d a b => Sys2Proof.Machine.execRemu d a b s
  | .addi d a imm => Sys2Proof.Machine.execAddi d a imm s
  | .andi d a imm => Sys2Proof.Machine.execAndi d a imm s
  | .ori d a imm => Sys2Proof.Machine.execOri d a imm s
  | .xori d a imm => Sys2Proof.Machine.execXori d a imm s
  | .slti d a imm => Sys2Proof.Machine.execSlti d a imm s
  | .sltiu d a imm => Sys2Proof.Machine.execSltiu d a imm s
  | .slli d a amt => Sys2Proof.Machine.execSlli d a amt s
  | .srli d a amt => Sys2Proof.Machine.execSrli d a amt s
  | .srai d a amt => Sys2Proof.Machine.execSrai d a amt s
  | .lui d imm => Sys2Proof.Machine.execLui d imm s
  | .auipc d imm => Sys2Proof.Machine.execAuipc d imm s
  | .lb d a imm => Sys2Proof.Machine.execLb d a imm s
  | .lbu d a imm => Sys2Proof.Machine.execLbu d a imm s
  | .lh d a imm => Sys2Proof.Machine.execLh d a imm s
  | .lhu d a imm => Sys2Proof.Machine.execLhu d a imm s
  | .lw d a imm => Sys2Proof.Machine.execLw d a imm s
  | .lwu d a imm => Sys2Proof.Machine.execLwu d a imm s
  | .ld d a imm => Sys2Proof.Machine.execLd d a imm s
  | .sb r a imm => Sys2Proof.Machine.execSb r a imm s
  | .sh r a imm => Sys2Proof.Machine.execSh r a imm s
  | .sw r a imm => Sys2Proof.Machine.execSw r a imm s
  | .sd r a imm => Sys2Proof.Machine.execSd r a imm s
  | .beq a b o => Sys2Proof.Machine.execBeq a b o s
  | .bne a b o => Sys2Proof.Machine.execBne a b o s
  | .blt a b o => Sys2Proof.Machine.execBlt a b o s
  | .bge a b o => Sys2Proof.Machine.execBge a b o s
  | .bltu a b o => Sys2Proof.Machine.execBltu a b o s
  | .bgeu a b o => Sys2Proof.Machine.execBgeu a b o s
  | .jal d imm => Sys2Proof.Machine.execJal d imm s
  | .jalr d a imm => Sys2Proof.Machine.execJalr d a imm s
  | .aswap d a b w sc o => Sys2Proof.Machine.execAswap d a b w sc o s
  | .aadd d a b w sc o => Sys2Proof.Machine.execAadd d a b w sc o s
  | .aand d a b w sc o => Sys2Proof.Machine.execAand d a b w sc o s
  | .aor d a b w sc o => Sys2Proof.Machine.execAor d a b w sc o s
  | .axor d a b w sc o => Sys2Proof.Machine.execAxor d a b w sc o s
  | .amin d a b w sc o => Sys2Proof.Machine.execAmin d a b w sc o s
  | .amax d a b w sc o => Sys2Proof.Machine.execAmax d a b w sc o s
  | .aminu d a b w sc o => Sys2Proof.Machine.execAminu d a b w sc o s
  | .amaxu d a b w sc o => Sys2Proof.Machine.execAmaxu d a b w sc o s
  | .acas d a b w sc o => Sys2Proof.Machine.execAcas d a b w sc o s
  | .lp a n => Sys2Proof.Machine.execLp a n s
  | .rdc d n => Sys2Proof.Machine.execRdc d n s
  | .wrc a n => Sys2Proof.Machine.execWrc a n s
  | .setbc a n => Sys2Proof.Machine.execSetbc a n s
  | .clrbc a n => Sys2Proof.Machine.execClrbc a n s
  | .ecall => Sys2Proof.Machine.execEcall s
  | .ebreak => Sys2Proof.Machine.execEbreak s
  | .eret => Sys2Proof.Machine.execEret s
  | .tlbi a => Sys2Proof.Machine.execTlbi a s
  | .tlbia => Sys2Proof.Machine.execTlbia s
  | .vsvall d a => Sys2Proof.Machine.execVsvall d a s
  | .vrsall a => Sys2Proof.Machine.execVrsall a s
  | .tsvall a => Sys2Proof.Machine.execTsvall a s
  | .trsall a => Sys2Proof.Machine.execTrsall a s
  | .rapark => Sys2Proof.Machine.execRapark s
  | .rarestore => Sys2Proof.Machine.execRarestore s
  | .lgset d a => Sys2Proof.Machine.execLgset d a s
  | .preempt d a => Sys2Proof.Machine.execPreempt d a s
  | .fenceSv sc => Sys2Proof.Machine.execFenceSv sc s
  | .fenceVs sc => Sys2Proof.Machine.execFenceVs sc s
  | .fenceVv sc => Sys2Proof.Machine.execFenceVv sc s
  | .fenceA sc => Sys2Proof.Machine.execFenceA sc s
  | .flushrd a sc => Sys2Proof.Machine.execFlushrd a sc s
  | .svl d a b => Sys2Proof.Machine.execSvl d a b s
  | .svt a => Sys2Proof.Machine.execSvt a s
  | .svr d a => Sys2Proof.Machine.execSvr d a s
  | .scgrp a b => Sys2Proof.Machine.execScgrp a b s
  | .scop a b seq => Sys2Proof.Machine.execScop a b seq s
  | .vadd m d a b => Sys2Proof.Machine.execVadd m d a b s
  | .vsub m d a b => Sys2Proof.Machine.execVsub m d a b s
  | .vrsub m d a b => Sys2Proof.Machine.execVrsub m d a b s
  | .vmul m d a b => Sys2Proof.Machine.execVmul m d a b s
  | .vmulh m d a b => Sys2Proof.Machine.execVmulh m d a b s
  | .vmulhu m d a b => Sys2Proof.Machine.execVmulhu m d a b s
  | .vdiv m d a b => Sys2Proof.Machine.execVdiv m d a b s
  | .vrem m d a b => Sys2Proof.Machine.execVrem m d a b s
  | .vmin m d a b => Sys2Proof.Machine.execVmin m d a b s
  | .vmax m d a b => Sys2Proof.Machine.execVmax m d a b s
  | .vand m d a b => Sys2Proof.Machine.execVand m d a b s
  | .vor m d a b => Sys2Proof.Machine.execVor m d a b s
  | .vxor m d a b => Sys2Proof.Machine.execVxor m d a b s
  | .vsll m d a b => Sys2Proof.Machine.execVsll m d a b s
  | .vsrl m d a b => Sys2Proof.Machine.execVsrl m d a b s
  | .vsra m d a b => Sys2Proof.Machine.execVsra m d a b s
  | .vsadd m d a b => Sys2Proof.Machine.execVsadd m d a b s
  | .vssub m d a b => Sys2Proof.Machine.execVssub m d a b s
  | .vadc d a b => Sys2Proof.Machine.execVadc d a b s
  | .vsbc d a b => Sys2Proof.Machine.execVsbc d a b s
  | .vmadc d a b => Sys2Proof.Machine.execVmadc d a b s
  | .vmsbc d a b => Sys2Proof.Machine.execVmsbc d a b s
  | .vabs m d a => Sys2Proof.Machine.execVabs m d a s
  | .vneg m d a => Sys2Proof.Machine.execVneg m d a s
  | .vmerge d a b => Sys2Proof.Machine.execVmerge d a b s
  | .vmv m d b => Sys2Proof.Machine.execVmv m d b s
  | .vfma m d a b => Sys2Proof.Machine.execVfma m d a b s
  | .vfms m d a b => Sys2Proof.Machine.execVfms m d a b s
  | .vfnma m d a b => Sys2Proof.Machine.execVfnma m d a b s
  | .vfnms m d a b => Sys2Proof.Machine.execVfnms m d a b s
  | .vsqrt m d a => Sys2Proof.Machine.execVsqrt m d a s
  | .vsgnj m d a b => Sys2Proof.Machine.execVsgnj m d a b s
  | .vsgnjn m d a b => Sys2Proof.Machine.execVsgnjn m d a b s
  | .vsgnjx m d a b => Sys2Proof.Machine.execVsgnjx m d a b s
  | .vclass m d a => Sys2Proof.Machine.execVclass m d a s
  | .vwadd m d a b => Sys2Proof.Machine.execVwadd m d a b s
  | .vwmul m d a b => Sys2Proof.Machine.execVwmul m d a b s
  | .veq m d a b => Sys2Proof.Machine.execVeq m d a b s
  | .vne m d a b => Sys2Proof.Machine.execVne m d a b s
  | .vlt m d a b => Sys2Proof.Machine.execVlt m d a b s
  | .vle m d a b => Sys2Proof.Machine.execVle m d a b s
  | .vgt m d a b => Sys2Proof.Machine.execVgt m d a b s
  | .vge m d a b => Sys2Proof.Machine.execVge m d a b s
  | .vunord m d a b => Sys2Proof.Machine.execVunord m d a b s
  | .mand d a b => Sys2Proof.Machine.execMand d a b s
  | .mor d a b => Sys2Proof.Machine.execMor d a b s
  | .mxor d a b => Sys2Proof.Machine.execMxor d a b s
  | .mandn d a b => Sys2Proof.Machine.execMandn d a b s
  | .morn d a b => Sys2Proof.Machine.execMorn d a b s
  | .mnot m d a => Sys2Proof.Machine.execMnot m d a s
  | .mmv m d a => Sys2Proof.Machine.execMmv m d a s
  | .mpop m d a => Sys2Proof.Machine.execMpop m d a s
  | .mffs m d a => Sys2Proof.Machine.execMffs m d a s
  | .mfls m d a => Sys2Proof.Machine.execMfls m d a s
  | .msbf m d a => Sys2Proof.Machine.execMsbf m d a s
  | .msif m d a => Sys2Proof.Machine.execMsif m d a s
  | .mslu m d a b => Sys2Proof.Machine.execMslu m d a b s
  | .msld m d a b => Sys2Proof.Machine.execMsld m d a b s
  | .iota m d a => Sys2Proof.Machine.execIota m d a s
  | .vid m d => Sys2Proof.Machine.execVid m d s
  | .vslup m d a b => Sys2Proof.Machine.execVslup m d a b s
  | .vsldn m d a b => Sys2Proof.Machine.execVsldn m d a b s
  | .vslup1 m d a b => Sys2Proof.Machine.execVslup1 m d a b s
  | .vsldn1 m d a b => Sys2Proof.Machine.execVsldn1 m d a b s
  | .vrgath m d a b => Sys2Proof.Machine.execVrgath m d a b s
  | .vcompr d a => Sys2Proof.Machine.execVcompr d a s
  | .vexpand d a => Sys2Proof.Machine.execVexpand d a s
  | .vbcast m d a b => Sys2Proof.Machine.execVbcast m d a b s
  | .vmvxs d a => Sys2Proof.Machine.execVmvxs d a s
  | .vmvsx d b => Sys2Proof.Machine.execVmvsx d b s
  | .vext d a b => Sys2Proof.Machine.execVext d a b s
  | .vins d a b => Sys2Proof.Machine.execVins d a b s
  | .vrowmv d a => Sys2Proof.Machine.execVrowmv d a s
  | .vrsum m d a b => Sys2Proof.Machine.execVrsum m d a b s
  | .vrosum m d a b => Sys2Proof.Machine.execVrosum m d a b s
  | .vrmax m d a b => Sys2Proof.Machine.execVrmax m d a b s
  | .vrmin m d a b => Sys2Proof.Machine.execVrmin m d a b s
  | .vrand m d a b => Sys2Proof.Machine.execVrand m d a b s
  | .vror m d a b => Sys2Proof.Machine.execVror m d a b s
  | .vrxor m d a b => Sys2Proof.Machine.execVrxor m d a b s
  | .vcvt m d a t => Sys2Proof.Machine.execVcvt m d a t s
  | .vcvtr m d a t => Sys2Proof.Machine.execVcvtr m d a t s
  | .vqmx m d a t => Sys2Proof.Machine.execVqmx m d a t s
  | .vrnsx m d a t => Sys2Proof.Machine.execVrnsx m d a t s
  | .vrnsi m d a t => Sys2Proof.Machine.execVrnsi m d a t s
  | .vld m v a sp sc o => Sys2Proof.Machine.execVld m v a sp sc o s
  | .vldr v a sp sc o => Sys2Proof.Machine.execVldr v a sp sc o s
  | .vlds m v a b sp sc o => Sys2Proof.Machine.execVlds m v a b sp sc o s
  | .vldx m v a b sp sc o => Sys2Proof.Machine.execVldx m v a b sp sc o s
  | .vldc m v a b sc o => Sys2Proof.Machine.execVldc m v a b sc o s
  | .vst m v a sp sc o => Sys2Proof.Machine.execVst m v a sp sc o s
  | .vstr v a sp sc o => Sys2Proof.Machine.execVstr v a sp sc o s
  | .vsts m v a b sp sc o => Sys2Proof.Machine.execVsts m v a b sp sc o s
  | .vstx m v a b sp sc o => Sys2Proof.Machine.execVstx m v a b sp sc o s
  | .vstc m v a b sc o => Sys2Proof.Machine.execVstc m v a b sc o s
  | .vsca m v a b sp sc o => Sys2Proof.Machine.execVsca m v a b sp sc o s
  | .vamo m v a b sp sc o => Sys2Proof.Machine.execVamo m v a b sp sc o s
  | .vrrs m v a sc o => Sys2Proof.Machine.execVrrs m v a sc o s
  | .vrrsq m v a sc o => Sys2Proof.Machine.execVrrsq m v a sc o s
  | .sptl d a => Sys2Proof.Machine.execSptl d a s
  | .spti d a b => Sys2Proof.Machine.execSpti d a b s
  | .spte d a => Sys2Proof.Machine.execSpte d a s
  | .sptc a b => Sys2Proof.Machine.execSptc a b s
  | .sptr d a => Sys2Proof.Machine.execSptr d a s
  | .stag a b => Sys2Proof.Machine.execStag a b s
  | .ltag d a => Sys2Proof.Machine.execLtag d a s
  | .tld a t => Sys2Proof.Machine.execTld a t s
  | .tldg a b t => Sys2Proof.Machine.execTldg a b t s
  | .tst a t => Sys2Proof.Machine.execTst a t s
  | .tclr t => Sys2Proof.Machine.execTclr t s
  | .tmv src t => Sys2Proof.Machine.execTmv src t s
  | .vmxa m d a t => Sys2Proof.Machine.execVmxa m d a t s
  | .vmxs m d a imm t => Sys2Proof.Machine.execVmxs m d a imm t s
  | .tout m a imm t => Sys2Proof.Machine.execTout m a imm t s
  | .cpy ch a b qa qr sc => Sys2Proof.Machine.execCpy ch a b qa qr sc s
  | .cpys ch a b qa qr sc => Sys2Proof.Machine.execCpys ch a b qa qr sc s
  | .fill ch a b qa qr sc => Sys2Proof.Machine.execFill ch a b qa qr sc s
  | .cexp ch a => Sys2Proof.Machine.execCexp ch a s
  | .cwm ch b => Sys2Proof.Machine.execCwm ch b s
  | .cwait ch a b => Sys2Proof.Machine.execCwait ch a b s
  | .cfree ch => Sys2Proof.Machine.execCfree ch s
  | .bar d a b c => Sys2Proof.Machine.execBar d a b c s
  | .barr d a b => Sys2Proof.Machine.execBarr d a b s
  | .barw d a b c => Sys2Proof.Machine.execBarw d a b c s
  | .acq d a b c => Sys2Proof.Machine.execAcq d a b c s
  | .rel d a => Sys2Proof.Machine.execRel d a s
  | .mend d a b => Sys2Proof.Machine.execMend d a b s
  | .stg d a b c => Sys2Proof.Machine.execStg d a b c s
  | .gjoin d a b => Sys2Proof.Machine.execGjoin d a b s
  | .gleave d a => Sys2Proof.Machine.execGleave d a s
  | .qarr d a b c => Sys2Proof.Machine.execQarr d a b c s
  | .qwait d a b c => Sys2Proof.Machine.execQwait d a b c s
  | .qjoin d a b => Sys2Proof.Machine.execQjoin d a b s
  | .qleave d a => Sys2Proof.Machine.execQleave d a s
  | .qread d a c => Sys2Proof.Machine.execQread d a c s
  | .enq d a => Sys2Proof.Machine.execEnq d a s
  | .recv d a b => Sys2Proof.Machine.execRecv d a b s
  | .qpoll d a => Sys2Proof.Machine.execQpoll d a s
  | .wake a => Sys2Proof.Machine.execWake a s
  | .farm d a => Sys2Proof.Machine.execFarm d a s
  | .strip d a b => Sys2Proof.Machine.execStrip d a b s
  | .sdone d a b c => Sys2Proof.Machine.execSdone d a b c s
  | .farmw d a b c => Sys2Proof.Machine.execFarmw d a b c s
  | .lcrs d a => Sys2Proof.Machine.execLcrs d a s
  | .mark a => Sys2Proof.Machine.execMark a s
  | .vlWrite v => Sys2Proof.Machine.execVlWrite v s
  | .vrowWrite v => Sys2Proof.Machine.execVrowWrite v s
  | .vtypeWrite v => Sys2Proof.Machine.execVtypeWrite v s
  | .vstartWrite v => Sys2Proof.Machine.execVstartWrite v s
  | .frmWrite v => Sys2Proof.Machine.execFrmWrite v s
  | .srseedWrite v => Sys2Proof.Machine.execSrseedWrite v s
  | .maxwaitWrite v => Sys2Proof.Machine.execMaxwaitWrite v s
  | .statusWrite v => Sys2Proof.Machine.execStatusWrite v s
  | .tvecWrite v => Sys2Proof.Machine.execTvecWrite v s
  | .asidWrite v => Sys2Proof.Machine.execAsidWrite v s
  | .ptbWrite v => Sys2Proof.Machine.execPtbWrite v s
  | .sliceWrite v => Sys2Proof.Machine.execSliceWrite v s
  | .preemptWrite v => Sys2Proof.Machine.execPreemptWrite v s
  | .staggerWrite v => Sys2Proof.Machine.execStaggerWrite v s
  | .riskthrWrite v => Sys2Proof.Machine.execRiskthrWrite v s
  | .taghistWrite v => Sys2Proof.Machine.execTaghistWrite v s
  | .loopRegisterWrite r v => Sys2Proof.Machine.execLoopRegisterWrite r v s
  | .queueDescriptorWrite q dw v => Sys2Proof.Machine.execQueueDescriptorWrite q dw v s
  | .wakeRegister q off src => Sys2Proof.Machine.execWakeRegister q off src s
  | .launch q => Sys2Proof.Machine.execLaunch q s
  | .commandScan k stage => Sys2Proof.Machine.execCommandScan k stage s
  | .hartEnd => Sys2Proof.Machine.execHartEnd s
  | .launchCompletion id => Sys2Proof.Machine.execLaunchCompletion id s
  | .commresGrow => Sys2Proof.Machine.execCommresGrow s
  | .commresShrink => Sys2Proof.Machine.execCommresShrink s
  | .energyCharge q a => Sys2Proof.Machine.execEnergyCharge q a s
  | .accountingPeriodBoundary timer => Sys2Proof.Machine.execAccountingPeriodBoundary timer s
  | .asyncCauseTaken pos outstanding => Sys2Proof.Machine.execAsyncCauseTaken pos outstanding s
  | .preemptRequest requester urgent => Sys2Proof.Machine.execPreemptRequest requester urgent s
  | .timeSlice => Sys2Proof.Machine.execTimeSlice s
  | .lgsetApply => Sys2Proof.Machine.execLgsetApply s
  | .parkResume => Sys2Proof.Machine.execParkResume s
  | .watermarkStallResume => Sys2Proof.Machine.execWatermarkStallResume s
  | .scoreboardStallResume => Sys2Proof.Machine.execScoreboardStallResume s
  | .landedBitStallResume => Sys2Proof.Machine.execLandedBitStallResume s
  | .waitExpiredImplicit => Sys2Proof.Machine.execWaitExpiredImplicit s
  | .storeBufferDrain imm => Sys2Proof.Machine.execStoreBufferDrain imm s
  | .storeApply imm => Sys2Proof.Machine.execStoreApply imm s
  | .flushingRead src die => Sys2Proof.Machine.execFlushingRead src die s
  | .flushAnswer ep die => Sys2Proof.Machine.execFlushAnswer ep die s
  | .flushTimeout ep die => Sys2Proof.Machine.execFlushTimeout ep die s
  | .trainElement train part => Sys2Proof.Machine.execTrainElement train part s
  | .trainAck ep die => Sys2Proof.Machine.execTrainAck ep die s
  | .responseArrival entry mask excess => Sys2Proof.Machine.execResponseArrival entry mask excess s
  | .redirectedResponse hart entry => Sys2Proof.Machine.execRedirectedResponse hart entry s
  | .caskAnswerArrival status carried => Sys2Proof.Machine.execCaskAnswerArrival status carried s
  | .closureRecordArrival cask status tag absent => Sys2Proof.Machine.execClosureRecordArrival cask status tag absent s
  | .roundClosure cask => Sys2Proof.Machine.execRoundClosure cask s
  | .staggeredCompletion => Sys2Proof.Machine.execStaggeredCompletion s
  | .homeWaitDeadline cask => Sys2Proof.Machine.execHomeWaitDeadline cask s
  | .waitDeadlineAtHart => Sys2Proof.Machine.execWaitDeadlineAtHart s
  | .stripClaimExpiry cask strip => Sys2Proof.Machine.execStripClaimExpiry cask strip s
  | .copyPerform imm => Sys2Proof.Machine.execCopyPerform imm s
  | .copyDataLands imm off n => Sys2Proof.Machine.execCopyDataLands imm off n s
  | .copyRetire imm => Sys2Proof.Machine.execCopyRetire imm s
  | .nackReceived ep seq => Sys2Proof.Machine.execNackReceived ep seq s
  | .replayBackoffExpiry ep => Sys2Proof.Machine.execReplayBackoffExpiry ep s
  | .ackReceived ep seq => Sys2Proof.Machine.execAckReceived ep seq s
  | .endpointDownReport ep => Sys2Proof.Machine.execEndpointDownReport ep s
  | .flitArrival stop => Sys2Proof.Machine.execFlitArrival stop s
  | .ageBoundExceeded flit => Sys2Proof.Machine.execAgeBoundExceeded flit s
  | .injectionPriority stop => Sys2Proof.Machine.execInjectionPriority stop s
  | .injectionStarved flit => Sys2Proof.Machine.execInjectionStarved flit s
  | .injthrWindow cycles => Sys2Proof.Machine.execInjthrWindow cycles s
  | .frameReceive port f => Sys2Proof.Machine.execFrameReceive port f s
  | .linkNack port => Sys2Proof.Machine.execLinkNack port s
  | .keySwitchover port => Sys2Proof.Machine.execKeySwitchover port s
  | .linkKeyExhausted port => Sys2Proof.Machine.execLinkKeyExhausted port s
  | .migrate c => Sys2Proof.Machine.execMigrate c s
  | .migrationDone imm => Sys2Proof.Machine.execMigrationDone imm s
  | .lend c => Sys2Proof.Machine.execLend c s
  | .accept c => Sys2Proof.Machine.execAccept c s
  | .reclaim c => Sys2Proof.Machine.execReclaim c s
  | .returnLease c => Sys2Proof.Machine.execReturnLease c s
  | .leaseOfferExpiry lease => Sys2Proof.Machine.execLeaseOfferExpiry lease s
  | .rackGranuleMove lease => Sys2Proof.Machine.execRackGranuleMove lease s
  | .riskUpdate ecc replays margin droop => Sys2Proof.Machine.execRiskUpdate ecc replays margin droop s
  | .failureDetectionWindow failed => Sys2Proof.Machine.execFailureDetectionWindow failed s
  | .spareFilled => Sys2Proof.Machine.execSpareFilled s
  | .lcrOverflow => Sys2Proof.Machine.execLcrOverflow s
  | .traceSample => Sys2Proof.Machine.execTraceSample s
  | .debugHalt => Sys2Proof.Machine.execDebugHalt s
  | .powerGood b => Sys2Proof.Machine.execPowerGood b s
  | .attestationRequest nonce => Sys2Proof.Machine.execAttestationRequest nonce s
  | .timeBaseLost => Sys2Proof.Machine.execTimeBaseLost s
  | .slewLimit measured => Sys2Proof.Machine.execSlewLimit measured s
  | .thermal tenths => Sys2Proof.Machine.execThermal tenths s
  | .thermalLimitLift => Sys2Proof.Machine.execThermalLimitLift s
  | .matrixIdle => Sys2Proof.Machine.execMatrixIdle s
  | .partitionReset => Sys2Proof.Machine.execPartitionReset s
  | .hostRequest function => Sys2Proof.Machine.execHostRequest function s
  | .firmwareCall number => Sys2Proof.Machine.execFirmwareCall number s
  | .machineCheck syndrome => Sys2Proof.Machine.execMachineCheck syndrome s
  | .caskRequest r => Sys2Proof.Machine.execCaskRequest r s
  | .readRequest pa n => Sys2Proof.Machine.execReadRequest pa n s
  | .atomicRequest r => Sys2Proof.Machine.execAtomicRequest r s
  | .timeBaseLock => Sys2Proof.Machine.execTimeBaseLock s

end Sys2Proof.Machine
end

