-- ==== Sys2Proof/Machine/Convoy.lean ====
section
/-! DEFINITION. A convoy of several members, or one that is split (R18 to R21, R68, R343 to R347, R436): the issue checks
of all members, then the members in order, and where a stop leaves the hart. Also the element slots that a convoy
counts (R422). The meaning of a member is a parameter here. -/

namespace Sys2Proof.Machine

/-- What gives an instruction its meaning. -/
abbrev Exec := Instr → State → Result

/-- The state that a member leaves. -/
def runOn (ex : Exec) (i : Instr) (s : State) : State :=
  match ex i s with
  | .next t => t
  | _ => s

/-! ### The members in order (R20, R345) -/

/-- How an attempt at the members of a convoy ends: they complete; all but the late ones have, and those await the acknowledgement of
what has been sent; one of them stops at a position, and a late one, all others having completed; or a fault-only-first load trims.
-/
inductive Attempt where
  | done (t : State)
  | waits (t : State) (later : List (Fetched × State))
  | stop (t : State) (k : Nat) (how : Pause) (late : Bool)
  | trim (v : Nat)

/-- A member run in its place: it starts at the convoy's `VSTART`, under the stall in progress. -/
def runMember (ex : Exec) (s0 : State) (f : Fetched) (s : State) : State :=
  runOn ex f.instr { s with
    hart.pc := f.addr
    hart.vstart := s0.hart.vstart
    hart.stall := s0.hart.stall
    hart.retired := false }

/-- Where a member has stopped, and how. -/
def State.stopped (t : State) : Option (Nat × Pause) :=
  t.hart.cv.bind fun c => match c.stop, c.stall with
    | some (k, c), _ => some (k, .trap c)
    | none, some (k, st) => some (k, .hold st)
    | none, none => none

/-- What a member left, as an end of the attempt; none when the next member is to follow. -/
def memberEnd (before after : State) (late : Bool) : Option Attempt :=
  let trim := fun (s : State) => s.hart.cv.bind (·.trim)
  match after.stopped with
  | some (k, how) => some (.stop after k how late)
  | none => if trim after = trim before then none else some (.trim ((trim after).getD 0))

/-- Whether the mask bit of a member's word is set (R140). -/
def Fetched.masked (f : Fetched) : Bool := f.instr.kind ≠ .copy && f.word.toNat / 2 ^ 9 % 2 == 1

/-- Whether a member may read registers, the mask or the scales that an earlier one writes (R20, R45), by the numbers in their words. -/
def Fetched.chains (s : State) (seen : List Fetched) (f : Fetched) : Bool :=
  let d := fun (g : Fetched) => g.word.toNat / 2 ^ 20 % 32
  let rows := max 1 s.hart.vrow
  seen.any fun g => g.instr.kind ≠ .store && g.instr.kind ≠ .copy
    && ((d g < d f + rows && d f < d g + 8 * rows) || (d g = 0 && f.masked) || s.hart.sb ≠ 0)

/-- The issue checks of the members in convoy order (R151): the first cause, or else what a copy-class member waits for at
the head (R436). `seen` are the members before. -/
def checkMembers (ex : Exec) (s0 s : State) : List Fetched → List Fetched → Option Pause → Option Pause
  | _, [], p => p
  | seen, f :: fs, p =>
    let t := { s with hart.cv := s.hart.cv.map fun c => { c with chained := f.chains s0 seen } }
    match (runMember ex s0 f t).stopped with
    | some (_, .trap t) => some (.trap t)
    | some (_, .hold st) => checkMembers ex s0 s (f :: seen) fs (p.orElse fun _ => some (.hold st))
    | none => checkMembers ex s0 s (f :: seen) fs p

/-- Members that act only after all others (R436), in the order in which they act. -/
def Fetched.late (f : Fetched) : Bool := f.instr.kind = .copy || match f.instr with
  | .vrrsq .. => true
  | _ => false

/-- Members that send stores. -/
def Fetched.sends (f : Fetched) : Bool := (f.instr.kind = .store && !f.late) || match f.instr with
  | .tst .. => true
  | _ => false

/-- The bits of the elements of `w` bits in which two registers of `n` bits differ. -/
def diffBits (w n a b : Nat) : Nat :=
  if a = b then 0
  else (List.range (ceilDiv n (max 1 w))).foldl (fun m e =>
    if elemOf a (max 1 w) e = elemOf b (max 1 w) e then m else m + (2 ^ max 1 w - 1) * 2 ^ (e * max 1 w)) 0

/-- Bits of a register laid over another. -/
def overBits (m x y : Nat) : Nat := without x m ||| (y &&& m)

/-- What a member changed, from `pre` to `post`, brought to another state: elements, tiles, flags, LFSR (R20, R346). -/
def State.adopt (base pre post : State) : State :=
  let b := base.hart
  let p := pre.hart
  let q := post.hart
  let diff := diffBits (etWidth b.et) base.maxBits
  { base with
    hart.v := Vector.ofFn fun i => overBits (diff p.v[i] q.v[i]) b.v[i] q.v[i]
    hart.x := Vector.ofFn fun i => if q.x[i] = p.x[i] then b.x[i] else q.x[i]
    hart.tile := Vector.ofFn fun i => if q.tile[i] = p.tile[i] then b.tile[i] else q.tile[i]
    hart.flags := b.flags ||| q.flags
    hart.srseed := q.srseed
    hart.status.vs := q.status.vs
    hart.status.ts := q.status.ts }

/-- Whether a member combines its elements by address (R235). -/
def Fetched.combines (f : Fetched) : Bool := match f.instr with
  | .vsca .. => true
  | _ => false

/-- The LFSR set. -/
def State.setSeed (s : State) (x : BitVec 32) : State := { s with hart.srseed := x }

/-- Results of the members of R346, each by its member's address: the states before and after it. -/
abbrev Results := List (Word × State × State)

/-- What the members of R346 have committed, noted for a resumption of their convoy (R41, R346). -/
def State.noteResults (t : State) (rs : Results) : State :=
  rs.foldl (fun t r =>
    let p := r.2.1.hart
    let q := r.2.2.hart
    t.setNote r.1 (some {
      ctx := 0
      addr := 0
      before := p.srseed.toNat
      after := q.srseed.toNat
      regs := (enum (p.v.toList.zip q.v.toList)).filterMap fun i =>
        if i.2.1 = i.2.2 then none else some (i.1, diffBits (etWidth p.et) t.maxBits i.2.1 i.2.2, i.2.2)
      tiles := (enum (p.tile.toList.zip q.tile.toList)).filterMap fun i => if i.2.1 = i.2.2 then none else some (i.1, i.2.2) })) t

/-- A member of R346 at its place in a resumed convoy: what it has committed stands, where an earlier member has written over it in
this run (R346). -/
def State.keepResults (t s0 : State) (addr : Word) : State :=
  match t.notes.find? fun n => n.ctx = t.noteCtx && n.addr = addr with
  | none => t
  | some n =>
    let h := t.hart
    { t with
      hart.v := Vector.ofFn fun i => match n.regs.find? fun r => r.1 = i.val with
        | some r => overBits ((h.v[i] ^^^ s0.hart.v[i]) &&& r.2.1) h.v[i] r.2.2
        | none => h.v[i]
      hart.tile := Vector.ofFn fun i => match n.tiles.find? fun r => r.1 = i.val with
        | some r => if h.tile[i] = s0.hart.tile[i] then h.tile[i] else r.2
        | none => h.tile[i] }

/-- The late members act one after another, each on the registers as they stood at its place in the convoy (R20, R436). A
stop of one leaves every other member complete. -/
def runLate (ex : Exec) (s0 : State) : List (Fetched × State) → State → Attempt
  | [], s => .done s
  | (f, at_) :: fs, s =>
    let s' := { s with
      hart.v := at_.hart.v
      hart.x := at_.hart.x }
    let t := runMember ex s0 f s'
    let u := { t with
      hart.v := s.hart.v
      hart.x := Vector.ofFn fun i => if t.hart.x[i] = s'.hart.x[i] then s.hart.x[i] else t.hart.x[i] }
    match memberEnd s u true with
    | some e => e
    | none => runLate ex s0 fs u

/-- The late members in the order in which they act: `vrrsq` first (R436). -/
def lateOrder (later : List (Fetched × State)) : List (Fetched × State) :=
  (later.filter fun p => p.1.instr.kind ≠ .copy) ++ later.filter fun p => p.1.instr.kind = .copy

/-- The members in convoy order, and then the late ones unless the convoy is to stop or something that it has sent may still fail.
Members of `whole` take the results they have (R346), and stores that have been sent are not sent again. -/
def runMembers (ex : Exec) (s0 : State) (whole : Results) (stops : Bool) :
    List Fetched → List (Fetched × State) → State → Attempt
  | [], later, s =>
    if stops || later.isEmpty then .done s
    else
      let u := s.ackTrains
      if u.unacked = [] then runLate ex s0 (lateOrder later) u else .waits u later
  | f :: fs, later, s =>
    if f.late then runMembers ex s0 whole stops fs (later ++ [(f, s)]) s
    else if f.sends && s.hart.cv.elim false (·.sent) then runMembers ex s0 whole stops fs later s
    else
      match whole.find? fun w => w.1 = f.addr with
      | some w => runMembers ex s0 whole stops fs later (s.adopt w.2.1 w.2.2)
      | none =>
        let t := runMember ex s0 f s
        match memberEnd s t false with
        | some e => e
        | none => runMembers ex s0 whole stops fs later
            (if f.instr.whole && s0.hart.resumed then t.keepResults s0 f.addr else t)

/-- The members of R346 and those before them run for their results, each with the flags of its own. Stores run for what later loads
read, whatever stops them: what they do here is thrown away (R346). -/
def runWhole (ex : Exec) (s0 : State) : List Fetched → State → Results → Attempt × Results
  | [], s, rs => (.done s, rs)
  | f :: fs, s, rs =>
    let pre := if f.instr.whole then { s with hart.flags := 0 } else s
    let t := runMember ex s0 f pre
    match memberEnd pre t false with
    | some e => if f.sends then runWhole ex s0 fs { t with hart.cv := s.hart.cv } rs else (e, rs)
    | none =>
      if f.instr.whole then
        runWhole ex s0 fs { t with hart.flags := s.hart.flags ||| t.hart.flags } (rs ++ [(f.addr, pre, t)])
      else runWhole ex s0 fs t rs

/-- Where a load among later members trims, unless a member before it stops below that position (R345): `lim` is where one has. -/
def laterTrim (ex : Exec) (s0 : State) : Option Nat → List Fetched → State → Option Nat
  | _, [], _ => none
  | lim, f :: fs, s =>
    let t := runMember ex s0 f s
    let next := { t with hart.cv := s.hart.cv }
    match memberEnd s t false with
    | some (.trim v) => if lim.elim true (v ≤ ·) then some v else laterTrim ex s0 lim fs next
    | some (.stop _ k _ _) => laterTrim ex s0 (some (lim.elim k (min k))) fs next
    | _ => laterTrim ex s0 lim fs next

/-! ### Attempts, until one stands (R345) -/

/-- The convoy at its start, with the position that no member may reach and the trim so far. -/
def State.opened (s0 : State) (c : Convoy) (limit trim : Option Nat) : State :=
  { s0 with hart.cv := some { c with
      limit := limit
      trim := trim } }

/-- The entry that a mismatch wrote into the tag history stands, though the elements are performed anew (R424). -/
def State.keepTagEntry (s from_ : State) (t : Trap) : State :=
  if t.code = cTagMismatch && from_.tagOn then
    let a := from_.tagBase + (from_.tagIndex + 255) % 256 * 16
    { s.homeSet (.glob a) (from_.homeRead (.glob a) 16) with tagIndex := from_.tagIndex }
  else s

/-- The kind of access of the member that stands at `pc`. -/
def State.memberAcc (s : State) : Acc :=
  match s.current with
  | some (.tst ..) => .store
  | some i => if i.kind = .store then .store else .load
  | none => .load

/-- What the member found that stopped stands, though the elements are performed anew: the entry of a mismatch, the latch that it has
cleared, and what the walk of a page that parks has written and told the memory engine (R100, R362, R375, R424). -/
def State.keepFinding (s from_ : State) (how : Pause) : State :=
  match how with
  | .trap t =>
    let u := s.keepTagEntry from_ t
    { u with hart.latch := if from_.hart.latch.isNone then none else u.hart.latch }
  | .hold st => if st.kind = 4 then ((translate s.ctx from_.memberAcc st.object).go s).2 else s

/-- A stop that a convoy has found: the position, how, and the state of the member that found it. -/
abbrev Found := Nat × Pause × State

/-- How the attempts end: the convoy completes, its late members await acknowledgements, or it stops at a position. -/
inductive Outcome where
  | completes (t : State) (trim : Option Nat)
  | waits (t : State) (trim : Option Nat) (later : List (Fetched × State))
  | stops (t : State) (p : Nat) (how : Pause) (vl : Option Nat)

/-- A convoy that stops short with the stop found. -/
def Found.outcome (q : Found) (t : State) : Outcome := .stops (t.keepFinding q.2.2 q.2.1) q.1 q.2.1 none

/-- Attempts with an ever lower limit or trim, until one stands. `stop` is the stop found so far; one that a trim reaches is
none, since its position is tail (R345). -/
def attempts (ex : Exec) (s0 : State) (c : Convoy) (ms : List Fetched) (whole : Results) :
    Nat → Option Found → Option Nat → Outcome
  | 0, stop, trim => stop.elim (.completes s0 trim) fun q => q.outcome s0
  | n + 1, stop, trim =>
    let adopted := if stop.isSome then whole else []
    match runMembers ex s0 adopted stop.isSome ms [] (s0.opened c (stop.map (·.1)) trim) with
    | .done t => stop.elim (.completes t trim) fun q => q.outcome t
    | .waits t later => .waits t trim later
    | .trim v => attempts ex s0 c ms whole n (stop.filter fun q => q.1 < v) (some v)
    | .stop t k how late =>
      if late then .stops t k how trim
      else if stop.elim false fun q => q.1 ≤ k then stop.elim (.completes s0 trim) fun q => q.outcome s0
      else attempts ex s0 c ms whole n (some (k, how, t)) trim

/-- The results of the members of R346, computed under every trim of the convoy (R345), or why they do not commit. `rest` are
the members after the last of them. -/
def commits (ex : Exec) (s0 : State) (c : Convoy) (ms rest : List Fetched) :
    Nat → Option Found → Option Nat → Except Found Results
  | 0, _, _ => .ok []
  | n + 1, stop, trim =>
    match runWhole ex s0 ms (s0.opened c (stop.map (·.1)) trim) [], stop with
    | (.done _, _), some q => .error q
    | (.done t, rs), none => match laterTrim ex s0 none rest t with
      | some v => commits ex s0 c ms rest n none (some v)
      | none => .ok rs
    | (.waits .., _), _ => .ok []
    | (.trim v, _), _ => commits ex s0 c ms rest n (stop.filter fun q => q.1 < v) (some v)
    | (.stop t k how _, _), _ =>
      if stop.elim false fun q => q.1 ≤ k then .error (k, how, t) else commits ex s0 c ms rest n (some (k, how, t)) trim

/-! ### Where a convoy stops (R343 to R347, R436) -/

/-- The members up to the last one of R346, and those after it, without the late ones, which act when all is done (R346, R436). -/
def splitEarly (ms : List Fetched) : List Fetched × List Fetched :=
  let r := (ms.filter fun f => !f.late).reverse.span fun f => !f.instr.whole
  (r.2.reverse, r.1.reverse)

/-- The hart at the head of a convoy that stops at `p` (R345). `VL` is as it was, unless every element has been performed
under a trim (R436). -/
def State.atStop (t s0 : State) (p : Nat) (vl : Option Nat) : State :=
  { t with
    hart.pc := s0.hart.pc
    hart.vstart := p
    hart.vl := vl.getD s0.hart.vl
    hart.srseed := s0.hart.srseed
    hart.words := s0.hart.words
    hart.cv := none }

/-- What a convoy has to have back should one of its trains fail: the state in which this run of it began, with what R346 has
committed. -/
def State.undoOf (s0 : State) (rs : Results) (trim : Option Nat) (later : List (Fetched × State)) : Undo :=
  let h := (rs.foldl (fun s r => s.adopt r.2.1 r.2.2) s0).hart
  { head := h.pc
    vstart := h.vstart
    vl := h.vl
    v := h.v
    flying := h.flying
    x := h.x
    tile := h.tile
    srseed := s0.hart.srseed
    trim := trim
    late := later.map fun p => (p.1.addr, p.2.hart.v, p.2.hart.x) }

/-- A convoy that stands at its head awaits the acknowledgement of what it has sent, in a stall of kind 10 (R105, R345, R347). -/
def State.awaitSent (u s0 : State) (un : Undo) (committed : Bool) (split : Option (Nat × Trap)) : State :=
  { u with
    hart.flags := u.hart.flags ||| (s0.stallClamp 10 0).hart.flags
    hart.undo := some un
    hart.resumed := s0.hart.resumed || committed
    hart.retired := false
    hart.stall := some { s0.stallOf 10 (u.unacked.min?.getD 0) with
      vec := true
      start := s0.convoyStart
      committed := committed
      split := split
      sent := true } }

/-- A stop of a convoy lands at its head, with every position below it performed (R344, R345): once what it has sent is acknowledged,
but for a train that is refused, whose cause stops it at once. -/
def State.landConvoy (t s0 : State) (un : Undo) (p : Nat) (cause : Trap) (committed : Bool) (vl : Option Nat) : State :=
  let u := ((t.landStop (t.hart.cv.elim [] (·.toLand))).atStop s0 p vl).ackTrains
  if u.unacked = [] || cause.code = cTrainNackLimit then
    (u.unpost cause).loosen.enterTrap cause s0.hart.pc (decide (s0.convoyStart < p) || committed)
  else u.awaitSent s0 un committed (some (p, cause))

/-- A convoy is held at its head, with everything below `p` performed (R70, R73). -/
def State.holdConvoy (t s0 : State) (p : Nat) (st : Stall) (committed : Bool) (vl : Option Nat) : State :=
  let clamp := (s0.stallClamp st.kind st.object).hart.flags
  { t.atStop s0 p vl with
    hart.flags := t.hart.flags ||| clamp
    hart.slow := false
    hart.stall := some { st with committed := committed }
    hart.resumed := s0.hart.resumed || committed
    hart.retired := false }

/-- A convoy stops at `p`, one way or the other. -/
def State.stopConvoy (t s0 : State) (un : Undo) (p : Nat) (how : Pause) (committed : Bool) (vl : Option Nat) : State :=
  match how with
  | .trap c => t.landConvoy s0 un p c committed vl
  | .hold st => t.holdConvoy s0 p st committed vl

/-- A convoy completes: the trim becomes `VL`, and its control transfer is taken (R20, R345). -/
def State.closeConvoy (ex : Exec) (t : State) (un : Option Undo) (trim : Option Nat) (fs : List Fetched) : State :=
  let u := { t with
    hart.vl := trim.getD t.hart.vl
    hart.cv := none
    hart.secured := []
    hart.undo := un
    hart.stall := none }
  match fs.getLast? with
  | none => u
  | some f =>
    if f.instr.kind = .transfer then
      runOn ex f.instr { u with
        hart.pc := f.addr
        hart.retired := false }
    else u.jump (f.addr + 4)

/-- Fuel for the attempts: each of them lowers the limit or the trim. -/
def State.fuel (s : State) : Nat := 2 * s.hart.vl + s.hart.vstart + 4096

/-- A vector convoy run as far as it goes. `split` is the cause that splits it should it stall; `cut` is where a running
memory member is split, with its cause; `outstanding` is how many requests of a split load stay outstanding (R347). Once the issue
checks have passed, what a copy-class member needs is secured (R436). A stall, other than a park, in a convoy with `vsca` leaves
nothing performed, so that each address gets one update (R235). -/
def runConvoy (ex : Exec) (s0 : State) (fs : List Fetched) (split : Option Trap) (cut : Option (Nat × Trap))
    (outstanding : Nat) : State :=
  let ms := fs.filter fun f => f.instr.kind.vector
  let whole := ms.any (·.instr.whole)
  let acts := whole && !s0.hart.resumed
  let acted := s0.hart.stall.elim false (·.committed)
  let c : Convoy := {
    head := s0.hart.pc
    start := s0.convoyStart
    split := split
    outstanding := outstanding
    committed := whole
    cut := cut.isSome }
  match checkMembers ex s0 (s0.opened { c with checking := true } none none) [] ms none with
  | some how => s0.stopConvoy s0 (s0.undoOf [] none []) s0.hart.vstart how acted none
  | none =>
    let s := { s0 with hart.secured := if s0.hart.secured = [] then ms.filterMap fun f => s0.secures f.instr else s0.hart.secured }
    let early := splitEarly ms
    let held := if acts && early.1.any fun f => f.instr.kind = .load || f.instr.kind = .matrix then cut else none
    let results : Except Found Results :=
      if acts then held.elim (commits ex s { c with committed := false } early.1 early.2 s.fuel none none)
        fun q => .error (q.1, .trap q.2, s)
      else .ok []
    match results with
    | .error q => (s.keepFinding q.2.2 q.2.1).stopConvoy s (s.undoOf [] none []) s.hart.vstart q.2.1 acted none
    | .ok rs =>
      match attempts ex s c ms rs s.fuel (cut.map fun q => (q.1, .trap q.2, s)) none with
      | .completes t trim =>
        t.closeConvoy ex (if t.unacked = [] || ms.length ≤ 1 then none else some (s.undoOf rs trim [])) trim fs
      | .waits t trim later =>
        (((t.noteResults rs).atStop s s.hart.vstart none).setSeed t.hart.srseed).awaitSent s (s.undoOf rs trim later) whole none
      | .stops t p how vl =>
        match (if ms.any Fetched.combines then how else .trap ⟨0, 0, 0⟩) with
        | .hold st => if st.kind ≠ 4 then s.stopConvoy s (s.undoOf [] none []) s.hart.vstart (.hold st) acted none
            else (t.noteResults rs).stopConvoy s (s.undoOf rs vl []) p how whole vl
        | .trap _ => (t.noteResults rs).stopConvoy s (s.undoOf rs vl []) p how whole vl

/-! ### A convoy that awaits the acknowledgement of what it has sent (R105, R345, R436) -/

/-- The registers that a convoy has to have back; those of a `vamo` keep the old values that have returned (R236, R345). -/
def State.restore (s : State) (un : Undo) (fs : List Fetched) : State :=
  let keeps := fun (i : Nat) => fs.any fun f => match f.instr with
    | .vamo _ d .. => d.toNat ≤ i && i < d.toNat + s.hart.vrow
    | _ => false
  { s with
    hart.vstart := un.vstart
    hart.vl := un.vl
    hart.v := Vector.ofFn fun i => if keeps i.val then s.hart.v[i] else un.v[i]
    hart.flying := Vector.ofFn fun i => if keeps i.val then s.hart.flying[i] else un.flying[i]
    hart.x := un.x
    hart.tile := un.tile
    hart.srseed := un.srseed }

/-- A train of the convoy has failed at `p`: its other members are performed up to there, and it lands (R105, R345). -/
def State.redoConvoy (ex : Exec) (s : State) (st : Stall) (un : Undo) (fs : List Fetched) (p : Nat) (cause : Trap) : State :=
  let s0 := s.loosen.restore un fs
  let c : Convoy := { head := s.hart.pc, start := st.start, committed := st.committed, sent := true }
  let land := fun (t : State) (p : Nat) (cause : Trap) =>
    ((((t.landStop (t.hart.cv.elim [] (·.toLand))).atStop s0 p none).unpost cause).loosen).enterTrap cause s0.hart.pc
      (decide (st.start < p) || st.committed)
  match attempts ex s0 c (fs.filter fun f => f.instr.kind.vector) [] s0.fuel (some (p, .trap cause, s0)) un.trim with
  | .stops t q (.trap k) _ => land t q k
  | .stops t q (.hold _) _ => land t q cause
  | .waits t _ _ => land t p cause
  | .completes t _ => land t p cause

/-- Everything that the convoy has sent is acknowledged: its late members act, and it completes (R436). -/
def State.finishSent (ex : Exec) (s : State) (st : Stall) (un : Undo) (fs : List Fetched) : State :=
  let s0 := { s with hart.srseed := un.srseed, hart.vl := un.vl }
  let later := un.late.filterMap fun l => (fs.find? fun f => f.addr = l.1).map fun f =>
    (f, { s with hart.v := l.2.1, hart.x := l.2.2 })
  let c : Convoy := { head := s.hart.pc, start := st.start, committed := st.committed, trim := un.trim }
  match runLate ex s0 (lateOrder later) { s with hart.cv := some c } with
  | .done t => t.closeConvoy ex none un.trim fs
  | .stop t k how _ => t.stopConvoy s0 un k how st.committed un.trim
  | .waits t _ => t.closeConvoy ex none un.trim fs
  | .trim _ => s.closeConvoy ex none un.trim fs

/-- A turn of a convoy that awaits the acknowledgement of what it has sent: it goes on once all of it is acknowledged, and at the
deadline it stops at the lowest position that no acknowledgement has come for (R31, R345, R347). -/
def State.sentTurn (ex : Exec) (s : State) (st : Stall) (un : Undo) (fs : List Fetched) : State :=
  let u := s.ackTrains
  match st.split.filter fun _ => st.redo with
  | some q => u.redoConvoy ex st un fs q.1 q.2
  | none =>
    match u.unacked.min? with
    | some low =>
      let now := { st with object := low }
      if st.deadline ≤ u.now.toNat then u.redoConvoy ex st un fs low (stallTrap now) else { u with hart.stall := some now }
    | none => match st.split with
      | some (p, cause) => ({ u.unpost cause with hart.vstart := p }).enterTrap cause u.hart.pc (decide (st.start < p) || st.committed)
      | none => u.finishSent ex st un fs

/-! ### Element slots (R22, R23, R422) -/

/-- Element slots of the granted lanes in a cycle. -/
def State.slots (s : State) : Nat := 8 * s.vlg

/-- Rows over which a member's element groups are issued: row 0 alone where R10 says so. -/
def State.issueRows (s : State) (i : Instr) : Nat :=
  match i with
  | .veq .. | .vne .. | .vlt .. | .vle .. | .vgt .. | .vge .. | .vunord .. => 1
  | .mand .. | .mor .. | .mxor .. | .mandn .. | .morn .. | .mnot .. | .mmv .. | .mpop .. | .mffs .. | .mfls .. => 1
  | .msbf .. | .msif .. | .mslu .. | .msld .. | .iota .. | .vid .. => 1
  | .vrsum .. | .vrosum .. | .vrmax .. | .vrmin .. | .vrand .. | .vror .. | .vrxor .. => 1
  | .vmvxs .. | .vmvsx .. | .vqmx .. => 1
  | _ => s.hart.vrow

/-- Whether a masked member may take the compress path: VARI and VCMP (R23). -/
def Fetched.packs (f : Fetched) : Bool :=
  match f.instr with
  | .vcvt .. | .vcvtr .. | .vqmx .. | .vrnsx .. | .vrnsi .. => false
  | i => i.kind = .pipeA || i.kind = .pipeB

/-- What a member issues: its cycles, those that the compress path adds before them, and the slots of its issued groups that hold an active and a masked-off element (R22,
R23, R422). -/
structure Issue where
  cycles : Nat := 0
  waits : Nat := 0
  active : Nat := 0
  masked : Nat := 0

/-- What a member issues for the positions from `VSTART` to `hi` − 1, with v0 as it stands in `s` (R22, R23). An all-zero mask
costs one cycle; a copy-class member issues no element. Whether it packs is judged by its active elements up to `VL` (R23). -/
def State.issue (s : State) (hi : Nat) (f : Fetched) : Issue :=
  let m := f.masked
  let rows := s.issueRows f.instr
  let on := fun (e : Nat) => s.hart.vstart ≤ e && e < hi && s.active m e
  let groups := (List.range (ceilDiv hi 8)).filter fun g => (List.range 8).any fun i => on (8 * g + i)
  let active := ((List.range hi).filter on).length * rows
  let due := ((List.range s.hart.vl).filter fun e => s.hart.vstart ≤ e && s.active m e).length * rows
  let packs := m && s.hart.vcthr ≠ 0 && due < s.hart.vcthr && due ≠ 0 && f.packs
  let inGroups := if packs then ceilDiv active 8 * 8
    else (groups.map fun g => min s.hart.vl (8 * g + 8) - 8 * g).sum * rows
  if f.instr.kind = .copy then {}
  else
    { cycles := if packs then ceilDiv active s.slots else max 1 (ceilDiv (groups.length * rows) (max 1 s.vlg))
      waits := if packs then 6 else 0
      active := active
      masked := inGroups - active }

/-- What each member of a convoy issues for the positions below `hi`, with v0 as the members before it leave it (R20, R22). -/
def issues (ex : Exec) (s0 : State) (hi : Nat) : List Fetched → State → List Issue
  | [], _ => []
  | f :: fs, s => { s with hart.vstart := s0.hart.vstart }.issue hi f
      :: issues ex s0 hi fs (if f.late || f.instr.kind = .store then s else runMember ex s0 f s)

/-- The member whose issue takes longest (R22). -/
def slowest (l : List Issue) : Issue := l.foldl (fun b x => if b.cycles + b.waits < x.cycles + x.waits then x else b) {}

/-- Start-up cycles of a convoy (R422): those of its first member; for a load, store or copy a free number. -/
def State.startCycles (s : State) (ms : List Fetched) : Nat :=
  match ms.head? with
  | none => 0
  | some f => match f.instr.kind with
    | .pipeA => 2 | .pipeB => 2 | .permute => 2 | .matrix => 4
    | _ => Config.idleCycles (s.clock + 1)

/-- Whether a convoy has issued in the step from `s` to `t`: it has performed elements, or has passed its checks and is held. -/
def issued (s t : State) (hi : Option Nat) : Bool :=
  let before := s.hart.stall.elim false fun st => st.vec && st.kind ≠ 11
  !before && (hi.isSome || t.hart.stall.elim false fun st => st.vec && st.kind ≠ 11)

/-- The slots that a step of the current hart counts: those of the positions below `hi` of the convoy that it ran, if it
issued any, and its other cycles as STALL (R422). `s` is the state before the convoy ran. -/
def State.countStep (ex : Exec) (t s : State) (ms : List Fetched) (hi : Option Nat) : State :=
  if !s.hart.lcr.on then t
  else
    let vs := ms.filter fun f => f.instr.kind.vector
    let c : Convoy := { head := s.hart.pc, start := s.convoyStart }
    let x := hi.elim {} fun n => slowest (issues ex s n vs (s.opened c hi none))
    let start := if issued s t hi then s.startCycles vs * s.slots else 0
    let tail := x.cycles * s.slots - x.active - x.masked
    { t with hart := t.hart.countSlots x.active x.masked tail start ((Config.idleCycles s.clock + x.waits) * s.slots) }

end Sys2Proof.Machine
end

