-- ==== Sys2Proof/Machine/Turn.lean ====
section
/-! DEFINITION. The turn of a hart: which cause is taken before the next convoy (R344), the convoy that is fetched, decoded
and run (R17, R19, R151), and what follows its completion (R175, R422, R426). Also the moves of other agents (log 1), and
the word that is placed where the next fetch takes it. The meaning of an instruction is a parameter here. -/

namespace Sys2Proof.Machine

/-! ### After a completion (R175, R426) -/

/-- Whether an instruction is `eret`, whose target is no next word. -/
def Fetched.returns (f : Fetched) : Bool := match f.instr with
  | .eret => true
  | _ => false

/-- The loop-back (R175): it applies to a convoy whose last word lies at LEND, which completes at privilege PL and takes no
control transfer. -/
def State.loopBack (t : State) (f : Fetched) : State :=
  let h := t.hart
  let last := word (h.lend.toNat / 4 * 4)
  if h.lcnt ≠ 0 && !f.returns && !h.took && f.addr = last && h.pc = last + 4 && (h.priv == .super) == bitOf h.lend 0 then
    if 1 < h.lcnt.toNat then { t with hart.lcnt := h.lcnt - 1, hart.pc := h.lbeg } else { t with hart.lcnt := 0 }
  else t

/-- The causes of R426 that land after the convoy that stood at `head`: a watched access of it, and a single step. -/
def State.debugAfter (t : State) (head : Word) : State :=
  let hits := t.hart.watched.filter fun w => w.1 = head
  let u := { t with hart.watched := t.hart.watched.filter fun w => w.1 ≠ head }
  let v := hits.foldl (fun (s : State) w => s.post s.hart.id ⟨88, w.2, 0⟩) u
  if v.hart.stepping then v.post v.hart.id ⟨87, 0, 0⟩ else v

/-- What follows when the convoy at `head` with members `fs` has completed; nothing when it has not. -/
def State.finish (t : State) (head : Word) (fs : List Fetched) : State :=
  if t.hart.retired then
    let u := match fs.getLast? with
      | some f => t.loopBack f
      | none => t
    { u.debugAfter head with
      hart.retired := false
      hart.took := false
      hart.resumed := t.hart.resumed && fs.getLast?.elim false Fetched.returns
      hart.splitAt := none }
  else t

/-! ### One convoy (R17, R19, R151, R337, R347) -/

/-- A hart holds its vector convoys back while a grant change is to reach it (R337). -/
def State.heldForGrant (s : State) (fs : List Fetched) : Bool :=
  let c := s.hart.core
  match (s.coreAt c).latNew with
  | none => false
  | some new =>
    (changedHarts c (s.coreAt c).lat new).contains s.hart.id && s.hart.stall.isNone
      && fs.any fun f => f.instr.kind.vector

/-- The positions of a member that accesses memory, and whether each is active: an urgent request may split it (R347). -/
def State.positions (s : State) (f : Fetched) : Option (Nat × (Nat → Bool)) :=
  let all := fun (_ : Nat) => true
  match f.instr with
  | .vrrsq .. => none
  | .vldr .. | .vstr .. => some (s.units, all)
  | .tld .. | .tldg .. => some (tileUnits s.hart.et s.hart.sbCode, all)
  | .tst _ t => some (tileUnits (s.tile t).tet (s.tile t).tsb, all)
  | _ => if f.instr.kind = .load || f.instr.kind = .store then some (s.hart.vl, s.active f.masked) else none

/-- Where a split that comes at position `n` finds the first active position that a memory member of the convoy has not
performed, if it finds one (R347). -/
def State.splitPlace (s : State) (fs : List Fetched) (n : Nat) : Option Nat :=
  (fs.findSome? s.positions).bind fun p => ((List.range p.1).filter fun e => s.hart.vstart ≤ e && n ≤ e && p.2 e).head?

/-- A convoy that has passed decode runs: a single word by its own meaning, all else member by member; one that has been split
waits for what it has sent (R345, R347). -/
def State.runFetched (ex : Exec) (s : State) (fs : List Fetched) (split : Option Trap) (cut : Option (Nat × Trap))
    (outstanding : Nat) : State :=
  match s.hart.stall, s.hart.undo, s.hart.stall.bind (·.split) with
  | some st, some un, _ => if st.sent then s.sentTurn ex st un fs else runConvoy ex s fs split cut outstanding
  | some st, none, some (p, cause) => s.drainSplit st p cause
  | _, _, _ =>
    match fs, split, cut with
    | [f], none, none => runOn ex f.instr s
    | _, _, _ => runConvoy ex s fs split cut outstanding

/-! ### What a hart still has under way (R21, R84, R87, R343) -/

/-- Before a turn it is done with, unless the hart is to be slow (R84, R87; log 99). -/
def State.keepUp (s : State) : State := if s.hart.slow then s else s.settleOwn

/-- Whether an instruction only waits for what is under way: fences, `tlbi` and `tlbia` (R91, R332). -/
def awaitsOnly (i : Instr) : Bool :=
  match i with
  | .fenceSv _ | .fenceVs _ | .fenceVv _ | .fenceA _ | .tlbi _ | .tlbia => true
  | _ => false

/-- Whether a word of the convoy may name a scalar register, `cpys` with the one below it (R140, R260). -/
def Fetched.names (f : Fetched) (r : SReg) : Bool :=
  [10, 15, 20].any fun i =>
    let n := f.word.toNat / 2 ^ i % 32
    n = r.toNat || n + 1 = r.toNat

/-- Scalar instructions that a load may stay open over: integer arithmetic, transfers of control, and plain loads and stores, with
which an earlier load may be reordered (R84). -/
def plainScalar (i : Instr) : Bool :=
  match i with
  | .add .. | .sub .. | .and .. | .or .. | .xor .. | .sll .. | .srl .. | .sra .. | .slt .. | .sltu .. => true
  | .addi .. | .andi .. | .ori .. | .xori .. | .slli .. | .srli .. | .srai .. | .slti .. | .sltiu .. => true
  | .lui .. | .auipc .. | .beq .. | .bne .. | .blt .. | .bge .. | .bltu .. | .bgeu .. | .jal .. | .jalr .. => true
  | .lb .. | .lbu .. | .lh .. | .lhu .. | .lw .. | .lwu .. | .ld .. | .sb .. | .sh .. | .sw .. | .sd .. => true
  | _ => false

/-- A load that was left open has its value before a convoy that may use its register, and before every scalar one with which
R84 does not let it be reordered (R21, R87). -/
def State.openLoad (s : State) (fs : List Fetched) : State :=
  match s.hart.late with
  | none => s
  | some l => if fs.all fun f => (f.instr.kind.vector || plainScalar f.instr) && !f.names l.reg then s else s.landLate

/-- An instruction comparator matches a word of the convoy (R426): `DEBUG_HALT` is taken before it, if it can be. -/
def State.comparatorHit (s : State) (n : Nat) : Bool :=
  (List.range n).any fun i => s.hart.icmp.contains (s.hart.pc + word (4 * i))

/-- A turn of a hart: the state after it, and if a convoy ran, the state before it, the convoy, and up to which position it issued
elements, if it did (R422). -/
abbrev Turned := State × Option (State × List Fetched × Option Nat)

/-- Up to which position a convoy has issued elements: up to `VL` when it has completed, and else up to where it stopped. -/
def issuedTo (before after : State) : Option Nat :=
  if after.hart.retired then some (min before.hart.vl after.hart.vl)
  else if before.hart.vstart < after.hart.vstart then some after.hart.vstart else none

/-- The convoy at `pc` fetched, decoded and run. `split` and `cut` are the causes that split it (R344, R347). -/
def State.convoyTurn (ex : Exec) (s : State) (split : Option Trap) (cut : Option (Nat × Trap)) (outstanding : Nat) :
    Turned :=
  match (fetchConvoy s.hart.pc).go s with
  | (.error h, u) => ({ u with hart.words := 1 }.halt h, none)
  | (.ok ws, u) =>
    let u := { u with hart.words := min 8 (max 1 ws.length) }
    let hit := s.hart.stall.isNone && s.hart.wait.isNone && u.comparatorHit ws.length
    let u := if hit then u.post u.hart.id ⟨86, 0, 0⟩ else u
    if hit && u.hart.asyncEnabled then
      (if (u.settleOwn.boundaryStop true).isSome then u.settleOwn else u.settleOwn.takeAsync ⟨86, 0, 0⟩, none)
    else
      match decodeConvoy u.hart u.hart.pc ws with
      | .error t => (u.raise t, none)
      | .ok fs =>
        if u.heldForGrant fs then (u, none)
        else
          let cuts := cut.bind fun q => (u.splitPlace fs q.1).map fun p => (p, q.2)
          let s0 := u.openLoad fs
          let t := s0.runFetched ex fs split cuts outstanding
          (t.finish s.hart.pc fs, some (s0, fs, issuedTo s0 t))

/-! ### The turn of the current hart (R268, R344, R387) -/

/-- The hart is held at the boundary where it stands (R105, R343, R344; log 99). At the deadline the convoy whose train nobody has
acknowledged stops at its lowest position (R105), and a load that nobody has answered leaves the next convoy to trap (R74). -/
def State.holdBoundary (s : State) (kd o : Nat) : State :=
  let st := s.stallOf kd o
  let u := s.stallClamp kd o
  if u.now.toNat < st.deadline then { u with hart.stall := some st }
  else match (u.ownTrains.find? fun t => !t.loose && t.lowest = o && !u.answering t.ep).filter fun _ => kd = 10 with
    | some t => u.failTrain u.hart.id t o (stallTrap st)
    | none => u.raise (stallTrap st)

/-- What kept the hart at a boundary has come: the next convoy starts without that stall. A scalar instruction keeps a stall of
its own. -/
def State.passBoundary (s : State) (vec : Bool) : State :=
  match s.hart.stall with
  | some st => if st.kind = 10 || vec then { s with hart.stall := none } else s
  | none => s

/-- A hart at a convoy boundary, or at a scalar instruction that waits there for earlier vector convoys: a cause is taken, or the
next convoy runs, an urgent request splitting it where it says (R347). Both come after what is under way has drained or can fail
no more; what has sent its stores only, or only waits itself, may be followed (R21, R105, R343, R344). -/
def State.boundaryTurn (ex : Exec) (s : State) : Turned :=
  let h := s.hart
  let vec := s.current.elim false fun i => i.kind.vector
  let inTime := h.stall.elim true fun st => s.now.toNat < st.deadline
  let cut := (h.candidate.filter fun t => t.code = 79 && h.splits t).bind fun t => h.splitAt.map fun q => (q.1, t, q.2)
  let go := h.candidate.filter fun _ => cut.isNone && inTime
  let u := if go.isSome then s.settleOwn else if vec && s.openReg.isSome then s.ackTrains.landOwn else s
  match (if go.isNone && s.current.elim false awaitsOnly then none else u.boundaryStop (go.isSome || vec)) with
  | some (kd, o) => (u.holdBoundary kd o, none)
  | none =>
    match go, cut with
    | some t, _ => ({ u with hart.stall := none }.landAsync t, none)
    | none, some (p, t, n) => (u.passBoundary vec).convoyTurn ex none (some (p, t)) n
    | none, none => (u.passBoundary vec).convoyTurn ex none none 0

/-- What a running hart does: an explicit wait goes on once it is answered, and otherwise gives way to a cause (R268); a
stalled vector convoy is tried again, and split by a cause that may, which for an urgent request may come once the convoy goes on
(R348); a stalled scalar instruction is tried again, and gives way to a cause before its deadline (R91); and else the hart is at a
boundary. -/
def State.runningTurn (ex : Exec) (s : State) : Turned :=
  let h := s.hart
  match h.wait, h.stall with
  | some w, _ =>
    match (if w.ends then none else h.candidate) with
    | some t => (s.landAsync t, none)
    | none => s.convoyTurn ex none none 0
  | none, some st =>
    if st.vec then
      let cut := (h.splitCause.filter (·.code = 79)).bind fun t => h.splitAt.map fun q => (q.1, t)
      s.convoyTurn ex h.splitCause cut (h.splitAt.elim 0 (·.2))
    else if st.kind = 3 || st.kind = 10 then s.boundaryTurn ex
    else match s.scalarCause st with
      | some t => (s.landAsync t, none)
      | none => s.convoyTurn ex none none 0
  | none, none => s.boundaryTurn ex

/-- The turn of the current hart. While it stalls or waits, its core's copies go on (R261). -/
def State.turn (ex : Exec) (s : State) : Turned :=
  match s.hart.run with
  | .idle => (s, none)
  | .halted => (s, none)
  | .running =>
    let u := (if s.hart.stall.isSome || s.hart.wait.isSome then s.engine else s).keepUp
    if u.atEnd then (u.settleOwn.hartEnd, none) else u.runningTurn ex

/-! ### Time and slots (R111, R422, log 6) -/

/-- The slots of every other hart that counts are STALL (R422). -/
def State.othersStall (s : State) : State :=
  let idle := Config.idleCycles (s.clock + 2)
  let count := fun (h : Hart) =>
    if h.lcr.on then h.countSlots 0 0 0 0 (idle * (8 * (groupsOf (s.coreAt h.core).lat h.id).length)) else h
  { s with others := s.others.map fun p => (p.1, count p.2) }

/-- Time goes on after a turn, by a free number of nanoseconds. -/
def State.lapse (s : State) : State :=
  { s.othersStall.pass (Config.elapsed s.clock) with clock := s.clock + 3 }

/-! ### Moves of other agents (log 1) -/

/-- A turn with the slots that it counts (R422): all of them STALL where no convoy ran. -/
def State.takeTurn (ex : Exec) (s : State) : State :=
  match s.turn ex with
  | (t, some (u, fs, hi)) => t.countStep ex u fs hi
  | (t, none) => t.countStep ex t [] none

/-- The current hart walks for an address and keeps the translation (R363, R364), without an access: where a leaf has A = 0 it
keeps none, since A is set when the page is first used (R362). -/
def State.cacheLeaf (s : State) (va : Nat) : State :=
  let root := bits s.hart.ptb 56 16 * 65536
  let used := (s.leafOf va 2 root).elim false fun q => q.2.1 / 2 ^ 6 % 2 = 1
  match (if bitOf s.hart.ptb 0 && used then (walk s.ctx .load va 2 root).go s else (.error (.stall 4 0), s)) with
  | (.ok _, t) =>
    match t.leafOf va 2 root with
    | some (_, pte, size) => { t with cached := t.cached ++ [{
        hart := t.hart.id
        asid := t.ctx.asid
        page := va / size * size
        size := size
        leaf := pte }] }
    | none => t
  | (.error _, t) => t

/-- The partition manager allots cores to the partition. A core that it did not have starts with an empty tag table (R240,
R339). -/
def State.allot (s : State) (cores : List Nat) : State :=
  let new := cores.filter fun c => !s.part.cores.contains c
  { s with
    part := { s.part with cores := cores }
    spt := s.spt.filter fun q => !new.any fun c => slotKey c 0 ≤ q.1 && q.1 < slotKey (c + 1) 0 }

/-- A move of the agenda. A wait that an event ends has completed as any instruction does. -/
def State.perform (ex : Exec) (s : State) (m : Move) : State :=
  match m with
  | .event i =>
    if i.fields.isNone then
      let t := runOn ex i s
      if t.hart.retired then
        t.finish s.hart.pc (match (fetchConvoy s.hart.pc).go s with
          | (.ok ws, _) => (decodeWords s.hart.pc ws).toOption.getD []
          | (.error _, _) => [])
      else t
    else s
  | .turn n => if n < Config.harts then ((s.switchTo n).takeTurn ex).switchTo s.hart.id else s
  | .slow => { s with hart.slow := true }
  | .cache va => s.cacheLeaf va
  | .uncache i => { s with cached := s.cached.eraseIdx i }
  | .engine => s.serveEngine
  | .allot cores => s.allot cores
  | .packet p dest => s.askInject p dest
  | .hart n => if n < Config.harts then s.switchTo n else s
  | .evict base => { s with hart.l1 := s.hart.l1.filter fun l => l.base ≠ base }
  | .tick n => s.pass n
  | .set x => s.apply x

/-- One step: the next move of the agenda, and when there is none the turn of the current hart. Once the part is powered
down, nothing steps (R433). -/
def stepWith (ex : Exec) (s : State) : Result :=
  if s.thermal = .down then .fault .poweredDown
  else
    match s.agenda with
    | m :: rest => .next (({ s with agenda := rest }).perform ex m)
    | [] => .next (s.takeTurn ex).lapse

/-! ### A word placed for the next fetch -/

/-- Bytes at a place, free of uncorrectable errors. -/
def State.plant (s : State) (pa : Nat) (bs : List Byte) : State :=
  { s with
    mem := s.mem.writeN pa bs
    badMem := s.badMem.filter fun b => b < pa || pa + bs.length ≤ b }

/-- Nothing stands before the next fetch of the current hart: it runs, awaits nothing, has nothing to take and nothing under
way, and no other agent moves first. -/
def State.ready (s : State) : State :=
  { s.modCore s.hart.core (fun k => { k with latNew := none }) with
    agenda := []
    thermal := if s.thermal = .down then .none else s.thermal
    posted := s.posted.filter fun p => p.hart ≠ s.hart.id
    trains := s.trains.filter fun t => t.hart ≠ some s.hart.id
    hart.run := .running
    hart.launch := none
    hart.stall := none
    hart.wait := none
    hart.splitAt := none
    hart.secured := []
    hart.undo := none
    hart.pending := []
    hart.icmp := []
    hart.l1 := []
    hart.buffer := []
    hart.slow := false
    hart.late := none
    hart.reassembly := [] }

/-- A word with C = 1 stored where the next fetch of the current hart takes it; where `pc` cannot be fetched, at address 0
of the endpoint with translation off. -/
def State.placeWord (s : State) (w : Nat) : State :=
  let bs := leBytes (2 ^ 31 + w % 2 ^ 31) 4
  match (resolve s.ctx .fetch s.hart.pc 4 4 .answered).go s with
  | (.ok ⟨.glob pa, _, _, _⟩, t) =>
    if epOf pa = s.endpt && !inHub (offOf pa) then t.plant pa bs
    else ({ s with hart.pc := 0, hart.ptb := 0 }).plant (paOf s.endpt 0) bs
  | _ => ({ s with
      hart.pc := 0
      hart.ptb := 0
      boot.stacksOut := []
      part.regions := [(0, 2 ^ 44)] }).plant (paOf s.endpt 0) bs

end Sys2Proof.Machine
end

