-- ==== Sys2Proof/Machine/Step.lean ====
section
/-! DEFINITION. The step of the machine. -/

namespace Sys2Proof.Machine

/-- One step of the machine. -/
def step (s : State) : Result := stepWith exec s

/-- The state with an instruction's word where the next step fetches it. Every instruction has one word; its C bit, which
is no part of it, is set, so that the convoy ends there (R138, R139). -/
def State.withFetchWord (s : State) (nbits w : Nat) : State := s.ready.placeWord (w % 2 ^ nbits)

end Sys2Proof.Machine
end

