-- ==== Sys2Proof/Safety.lean ====
section
/-! DEFINITION. What holds of the machine between steps, and the terms that the claims use: what an instruction leaves when
its own effect is done, and what must hold for that. -/

namespace Sys2Proof.Machine

/-- Every memory of the state, the scratchpad tag tables, the memory-tag locks, and the tables of the cores and of the queue
descriptors are in their canonical form: keys strictly rise, and no entry holds what an unlisted key reads as. The harts
that do not step are listed by rising number. -/
def State.canonical (s : State) : Prop :=
  s.mem.wf = true ∧ s.spad.wf = true ∧ s.lane.wf = true ∧ Tbl.wfFrom 0 0 s.spt = true ∧ Tbl.wfFrom 0 0 s.locks = true
    ∧ Tbl.wfFrom {} 0 s.cores = true ∧ Tbl.wfFrom {} 0 s.queues = true
    ∧ (s.others.map (·.1)).Pairwise (· < ·)

/-! ### Scalar instructions -/

/-- The hart after an instruction whose whole effect is S(d) := v and that goes on at `next` (R154): a write to `s0` is
discarded, and nothing else of the machine changes. -/
def State.wrote (s : State) (d : SReg) (v next : Word) : State :=
  { s with
    hart.x := if d = 0 then s.hart.x else s.hart.x.set d.toNat v d.isLt
    hart.pc := next
    hart.stall := none
    hart.retired := true }

/-- The same with S(d) := v and the next word (R139). -/
abbrev State.wroteNext (s : State) (d : SReg) (v : Word) : State := s.wrote d v (s.hart.pc + 4)

/-- The hart loop is active at the hart's privilege, `pc` stands in its body, and `target` lies outside it (R175). -/
def State.leavesLoop (s : State) (target : Word) : Prop :=
  let lbeg := s.hart.lbeg.toNat / 4 * 4
  let lend := s.hart.lend.toNat / 4 * 4
  s.hart.lcnt ≠ 0 ∧ (bitOf s.hart.lend 0 = true ↔ s.hart.priv = .super)
    ∧ (lbeg ≤ s.hart.pc.toNat ∧ s.hart.pc.toNat ≤ lend) ∧ ¬ (lbeg ≤ target.toNat ∧ target.toNat ≤ lend)

/-- `t` is `s` after S(d) := v and a taken transfer to `target`, as which it is known; one that leaves the loop ends it (R175). -/
def State.transferred (s t : State) (d : SReg) (v target : Word) : Prop :=
  let done := { s.wrote d v target with hart.took := true }
  (s.leavesLoop target → t = { done with hart.lcnt := 0 }) ∧ (¬ s.leavesLoop target → t = done)

/-! ### Traps -/

/-- The machine after the entry of R340: the landing address, the cause and its values are saved, the status and the
privilege change, the handler is next, a closure record that the hart had got goes to its entry (R267), and nothing else
changes. CVR is that of R344. -/
def State.trapEntry (s : State) (code : Nat) (tval tval2 epc : Word) (cvr : Bool) : State :=
  let async := 74 ≤ code ∧ code ≤ 95
  let base := s.hart.tvec &&& ~~~3
  { s with
    hart.epc := epc &&& ~~~3
    hart.cause := if async then 0x8000000000000000 + .ofNat 64 code else .ofNat 64 code
    hart.tval := tval
    hart.tval2 := tval2
    hart.status.pie := s.hart.status.ie
    hart.status.ie := false
    hart.status.pp := decide (s.hart.priv = .super)
    hart.status.cvr := cvr
    hart.priv := .super
    hart.pc := if s.hart.tvec &&& 3 = 1 ∧ async then base + .ofNat 64 (4 * code) else base
    hart.members := s.hart.keepRecord
    hart.answered := []
    hart.secured := []
    hart.undo := none
    hart.stall := none
    hart.wait := none
    hart.resumed := false
    hart.retired := false
    hart.cv := none }

/-- `t` is `s` after a trap of the current hart. The partition's trace ring may get a record (R425), and `TRACE_FULL` be
posted; with tracing off nothing else changes. -/
def State.trapsAt (s t : State) (code : Nat) (tval tval2 epc : Word) (cvr : Bool) : Prop :=
  let u := s.trapEntry code tval tval2 epc cvr
  t = { u with mem := t.mem, part := t.part, hart.pending := t.hart.pending } ∧ (s.part.traceSize = 0 → t = u)

/-- A trap that lands at the instruction itself with CVR 0 (R344). -/
abbrev State.traps (s t : State) (code : Nat) (tval tval2 : Word) : Prop := s.trapsAt t code tval tval2 s.hart.pc false

/-! ### Control registers -/

/-- What each assigned control register reads as (R38, R41, R42, R72, R112, R133, R134, R173, R179, R180, R321 to R329,
R399, R414, R421). -/
def State.crReads (s : State) : List (Nat × Word) :=
  let h := s.hart
  let c := h.id / 4
  [(0x000, word h.vl), (0x001, word h.vrow), (0x002, h.vtype), (0x003, word h.vstart), (0x004, word h.maxvl),
    (0x005, word s.vlg), (0x006, word h.vcthr), (0x007, h.flags.zeroExtend 64), (0x008, h.frm.zeroExtend 64),
    (0x009, h.srseed.zeroExtend 64), (0x00A, h.lcnt), (0x00B, h.lbeg), (0x00C, h.lend), (0x010, s.now),
    (0x011, h.maxwait.zeroExtend 64), (0x012, h.defdl.zeroExtend 64), (0x018, h.cgrp0), (0x019, h.cgrp1),
    (0x01A, h.cop.zeroExtend 64), (0x01B, h.cstride.zeroExtend 64), (0x01C, h.cround.zeroExtend 64),
    (0x020, word h.id), (0x021, word (c * 2 ^ 16 + c / 96 * 2 ^ 7 + c / 12 % 8 * 2 ^ 4 + c % 12)),
    (0x022, s.endpt.zeroExtend 64), (0x028, word (h.injWin * 2 ^ 32 + h.injTotal)), (0x030, s.risk),
    (0x040, word h.lcr.use), (0x041, word h.lcr.mask), (0x042, word h.lcr.tail), (0x043, word h.lcr.start),
    (0x044, word h.lcr.stall), (0x045, word (h.lcr.on.toNat * 2 ^ 63 + h.lcr.cyc)),
    (0x100, h.status.toWord), (0x101, h.tvec), (0x102, h.epc), (0x103, h.cause), (0x104, h.tval), (0x105, h.tval2),
    (0x106, h.sscratch), (0x108, h.asid.zeroExtend 64), (0x109, h.ptb), (0x10A, h.ctxarea),
    (0x10C, word (latView (s.coreAt c).lat)), (0x110, h.slice),
    (0x111, word (h.urgp.toNat * 4 + h.pend.toNat * 2 + h.uen.toNat)), (0x118, s.taghist),
    (0x120, h.riskthr.zeroExtend 64), (0x128, s.stagger.zeroExtend 64), (0x129, s.slew.zeroExtend 64),
    (0x12A, s.shape.zeroExtend 64)]

/-- The read-only user registers but `MAXWAIT` (R177). -/
def crReadOnly : List Nat :=
  [0x004, 0x005, 0x010, 0x01C, 0x020, 0x021, 0x022, 0x028, 0x030, 0x040, 0x041, 0x042, 0x043, 0x044, 0x045]

/-- An access to control register `n` that meets no check: the vector configuration is on, and the number is a user one
or the hart runs at S (R177, R323). -/
def State.crOpen (s : State) (n : Nat) : Prop :=
  (n ≤ 6 → s.hart.status.vs ≠ .off) ∧ (0x100 ≤ n → s.hart.priv = .super)

/-- What a write of the value `v` stores in a user register that a program may write (R38, R41, R42, R72, R112, R133,
R134, R173, R181). -/
def userStores : List (Nat × (State → Word → State)) :=
  [(0x000, fun s v => { s with
      hart.vl := if s.vlg = 0 ∨ s.hart.stale = true then 0 else min (v.toNat % 2 ^ 32) s.hart.maxvl
      hart.status.vs := .dirty }),
    (0x001, fun s v => { s with
      hart.vrow := if v = 1 ∨ v = 2 ∨ v = 4 ∨ v = 8 then v.toNat else s.hart.vrow
      hart.status.vs := .dirty }),
    (0x003, fun s v => { s with hart.vstart := v.toNat % 2 ^ 32, hart.status.vs := .dirty }),
    (0x006, fun s v => { s with hart.vcthr := v.toNat % 2 ^ 32, hart.status.vs := .dirty }),
    (0x007, fun s v => { s with hart.flags := v.setWidth 7 }),
    (0x008, fun s v => { s with hart.frm := (v.setWidth 15 &&& 0x7F08)
      ||| ((if 6 ≤ v.toNat % 8 then s.hart.frm else v.setWidth 15) &&& 7) }),
    (0x009, fun s v => { s with hart.srseed := if v.setWidth 32 = 0 then 1 else v.setWidth 32 }),
    (0x00A, fun s v => { s with hart.lcnt := v }),
    (0x00B, fun s v => { s with hart.lbeg := v &&& ~~~3 }),
    (0x00C, fun s v => { s with hart.lend := v &&& ~~~(if s.hart.priv = .super then 2 else 3) }),
    (0x012, fun s v => { s with hart.defdl := v.setWidth 48 }),
    (0x018, fun s v => { s with hart.cgrp0 := (v.setWidth 52).setWidth 64 }),
    (0x019, fun s v => { s with hart.cgrp1 := (v.setWidth 39).setWidth 64 }),
    (0x01A, fun s v => { s with hart.cop := v.setWidth 7 }),
    (0x01B, fun s v => { s with hart.cstride := v.setWidth 32 })]

/-- A pending cause of a code is withdrawn. -/
def State.withdraw (s : State) (code : Nat) : State :=
  { s with hart.pending := s.hart.pending.filter fun t => t.code ≠ code }

/-- What a write of the value `v` at S stores in `MAXWAIT` and the privileged registers (R112, R323 to R329, R416, R423).
-/
def superStores : List (Nat × (State → Word → State)) :=
  [(0x011, fun s v => { s with hart.maxwait := .ofNat 48 (min (v.toNat % 2 ^ 48) 60000000000) }),
    (0x101, fun s v => { s with hart.tvec := (v &&& ~~~3)
      ||| ((if 2 ≤ v.toNat % 4 then s.hart.tvec else v) &&& 3) }),
    (0x102, fun s v => { s with hart.epc := v &&& ~~~3 }),
    (0x103, fun s v => { s with hart.cause := v &&& 0x800000000000007F }),
    (0x104, fun s v => { s with hart.tval := v }),
    (0x105, fun s v => { s with hart.tval2 := v }),
    (0x106, fun s v => { s with hart.sscratch := v }),
    (0x109, fun s v => { s with hart.ptb := v &&& 0x01FFFFFFFFFF0001, hart.l1 := [] }),
    (0x10A, fun s v => { s with hart.ctxarea := v &&& 0x01FFFFFFFFFFE001 }),
    (0x118, fun s v => { s with taghist := v &&& 0x01FFFFFFFFFFF001, tagIndex := 0 }),
    (0x120, fun s v => { s with hart.riskthr := v.setWidth 17, hart.riskArmed := true }),
    (0x128, fun s v => { s with stagger := .ofNat 16 (min (v.toNat % 2 ^ 16) 50000) }),
    (0x12A, fun s v => { s with shape := v.setWidth 24 })]

/-- What a write of `STATUS` stores, and what a write of Initial clears (R323). -/
def State.statusStored (s : State) (v : Word) : State :=
  let st := Status.ofWord v
  { s with
    hart.status := st
    hart.v := if st.vs = .initial then .replicate 32 0 else s.hart.v
    hart.flying := if st.vs = .initial then .replicate 32 0 else s.hart.flying
    hart.tile := if st.ts = .initial then .replicate 4 Tile.reset else s.hart.tile
    lane := if st.ls = .initial then s.groups.foldl (fun m g => clearGroup m s.hart.core g) s.lane else s.lane }

/-- What a write of `SLICE` stores: `TIME_SLICE` (81) is withdrawn and armed once more, and pending at once when `NOW` has
reached TIME (R329). -/
def State.sliceStored (s : State) (v : Word) : State :=
  let t := v.toNat % 2 ^ 48
  let due := v.getLsbD 63 = true ∧ t ≤ s.now.toNat
  let keep := s.hart.pending.filter fun p => p.code ≠ 81
  { s with
    hart.slice := v &&& 0x8000FFFFFFFFFFFF
    hart.sliceArmed := if due then false else true
    hart.pending := if due then keep ++ [⟨81, word t, 0⟩] else keep }

/-- What a write of `PREEMPT` stores (R177, R329): UEN from the value; PEND is cleared, and the request withdrawn, where
the operand `w` has a 1. -/
def State.preemptStored (s : State) (v w : Word) : State :=
  if w.getLsbD 1 then
    { s.withdraw 79 with hart.uen := v.getLsbD 0, hart.pend := false, hart.urgp := false }
  else { s with hart.uen := v.getLsbD 0 }

/-- `VTYPE` := v with the effects of R12: a new register count clears every register and makes VS Initial; that or a new
element type sets `VL` to 0 and leaves `MAXVL` stale. -/
def State.vtypeStored (s : State) (v : Word) : State :=
  if v.toNat / 32 % 4 ≠ s.hart.vtype.toNat / 32 % 4 then
    { s with
      hart.vtype := v
      hart.v := .replicate 32 0
      hart.flying := .replicate 32 0
      hart.status.vs := .initial
      hart.vl := 0
      hart.stale := true }
  else if v.toNat % 32 ≠ s.hart.vtype.toNat % 32 then
    { s with hart.vtype := v, hart.vl := 0, hart.stale := true, hart.status.vs := .dirty }
  else { s with hart.vtype := v, hart.status.vs := .dirty }

/-! ### Memory accesses -/

/-- Nothing of the current hart is under way (R84, R87, R104, R401). -/
def State.upToDate (s : State) : Prop := s.hart.late = none ∧ s.ownTrains = [] ∧ s.hart.reassembly = []

/-- The hart awaits nothing, no element train is on its way, no endpoint is silent or has its window exhausted, and no access
is to take its time (R84, R98, R104, R105). -/
def State.settled (s : State) : Prop :=
  s.hart.slow = false ∧ s.hart.late = none ∧ s.hart.reassembly = [] ∧ s.trains = [] ∧ s.silent = [] ∧ s.exhausted = []

/-- Nothing of any hart is under way, and no other hart differs from one at reset. -/
def State.quiet (s : State) : Prop :=
  s.others = [] ∧ s.posted = [] ∧ s.trains = [] ∧ s.hart.buffer = [] ∧ s.hart.late = none ∧ s.hart.reassembly = []

/-- An access of kind `k` to `n` bytes at pointer `p`, aligned to `al`, meets no fault and no stall of R56 to R78: it goes
to place `q`, and leaves state `u`, in which the walk has set A and D (R362) and the watchpoints that it hit are noted
(R426). A store needs no response (R98). -/
def State.accessOk (s : State) (k : Acc) (p : Word) (n al : Nat) (q : Phys) (u : State) : Prop :=
  (do let q ← resolve s.ctx k p n al (if k = .store then .posted else .answered); allow s.ctx k q n; pure q : M Phys).go s
    = (.ok q, u)

/-- The bytes that a scalar load finds at a place (R86, R62). -/
def State.seenBytes (u : State) (q : Phys) (n : Nat) : List Byte :=
  match q.loc with
  | .glob pa => (u.loadRead pa n).2
  | l => u.homeRead l n

/-- What a scalar load reads holds no uncorrectable error, and what the store buffer and the L1 do not hold comes from a home
that answers (R86, R98, R165); the store buffer can drain before a load from the hub window (R434). -/
def State.readable (u : State) (q : Phys) (n : Nat) : Prop :=
  match q.loc with
  | .glob pa =>
    let hub := inHub (offOf pa)
    let z := if hub then u.drain else u
    (hub = true → z.hart.buffer = []) ∧ ((z.cachedLine pa).isSome = true
      ∨ ∀ i, i < n → z.buffered (pa + i) = true ∨ (pa + i ∉ z.badMem ∧ epOf pa ∉ z.silent))
  | l => u.isBad l n = false

/-- No store of another hart that comes before a release of that hart is still on its way: an acquire then changes the L1
alone (R95). -/
def State.noneReleased (s : State) : Prop := ∀ p ∈ s.posted, p.hart = s.hart.id ∨ p.released = 0

/-- A place outside the hub window: its bytes are held by memory or scratchpad alone (R434). -/
def State.plainPlace (u : State) (l : Loc) : Prop :=
  match l with
  | .glob pa => ¬ (epOf pa = u.endpt ∧ inHub (offOf pa) = true)
  | .spad _ _ => True

/-- Every byte of every memory reads in `t` as in `u`, but those from `l` on, `n` of them. -/
def sameBytesBut (u t : State) (l : Loc) (n : Nat) : Prop :=
  (∀ a, (∀ i, i < n → l.plus i ≠ .glob a) → t.mem.read a = u.mem.read a)
    ∧ (∀ c o, (∀ i, i < n → l.plus i ≠ .spad c o) → o < 2 ^ 21 → t.spad.read (spadKey c o) = u.spad.read (spadKey c o))
    ∧ t.lane = u.lane

/-! ### Vector instructions -/

/-- Vector instructions, CFG instructions and waits are on: VS is not Off, and PARKED is 0 (R323). -/
def State.vectorOn (s : State) : Prop := s.hart.status.vs ≠ .off ∧ s.hart.status.parked = false

/-- The instruction is no member of a longer convoy, resumes nothing and is not held, no register awaits data, and no train of an
earlier store may still fail (R17, R346, R73, R79, R105). -/
def State.alone (s : State) : Prop :=
  s.hart.cv = none ∧ s.hart.resumed = false ∧ s.hart.stall = none ∧ s.hart.flying = .replicate 32 0 ∧ s.unacked = []

/-- Earlier vector convoys of the hart have drained (R21, R79, R152). -/
def State.drained (s : State) : Prop := s.openReg = none

/-- A vector-class instruction passes the checks that come before its registers' (R151, R153): `ty` says which element
types its operation accepts. -/
def State.vectorReady (s : State) (ty : Nat → Bool) : Prop :=
  s.vectorOn ∧ s.vlg ≠ 0 ∧ s.hart.vtypeBad = false ∧ ty s.hart.et = true

/-- A tile of `h` registers from register `n` on passes the checks of R9. -/
def State.tileOk (s : State) (n h : Nat) : Prop :=
  n % h = 0 ∧ (1 < h → 2 ≤ n) ∧ n + h ≤ s.hart.declared

/-- So does the tile of a second operand, if it is one. -/
def State.operandOk (s : State) (b : VOperand) (h : Nat) : Prop :=
  match b with
  | .vec v => s.tileOk v.toNat h
  | _ => True

/-- The state after a vector-class instruction has completed (R189): the registers `v`, the sticky flags that `fl` raises,
VS Dirty if `dirty`, the LFSR stepped `steps` times, `VSTART` = 0 and the next word. Nothing else changes. -/
def State.vectorNext (s : State) (v : Vector Nat 32) (fl : Nat) (dirty : Bool) (steps : Nat) : State :=
  { s.wroteNext 0 0 with
    hart.v := v
    hart.flags := s.hart.flags ||| .ofNat 7 fl
    hart.status.vs := if dirty then .dirty else s.hart.status.vs
    hart.srseed := .ofNat 32 (lfsrSteps s.hart.srseed.toNat steps)
    hart.vstart := 0 }

/-- `t` is `s` after the element loop of R189: F(r, e) = `f r e`, with the flags that it raises, is written to the active
elements from `VSTART` to `VL` − 1 of each of `rows` rows of the tile at `d`, whose rows take `q` registers and whose
elements are `w` bits wide. Masked-off elements follow MP, those from `VL` on TP (R191), and elements below `VSTART` and
other registers keep their values. With `VSTART` ≥ `VL` no register is written. -/
def State.loopDone (s t : State) (m : Bool) (d rows q w steps : Nat) (f : Nat → Nat → Nat × Nat) : Prop :=
  (s.hart.vl ≤ s.hart.vstart → t = s.vectorNext s.hart.v 0 false steps)
    ∧ (s.hart.vstart < s.hart.vl →
      (∃ dirty, t = s.vectorNext t.hart.v (s.loopFlags rows s.hart.vstart s.hart.vl m fun r e => (f r e).2) dirty steps
        ∧ (dirty = true ↔ (∃ e, s.hart.vstart ≤ e ∧ e < s.hart.vl ∧ (s.active m e = true ∨ s.hart.mp = true))
          ∨ (s.hart.tp = true ∧ s.hart.vl * w < q * s.maxBits)))
      ∧ (∀ r, r < rows → ∀ e, (e + 1) * w ≤ q * s.maxBits →
        elemOf (t.row (d + r * q) q) w e =
          if e < s.hart.vstart then elemOf (s.row (d + r * q) q) w e
          else if e < s.hart.vl then
            (if s.active m e then (f r e).1 % 2 ^ w
              else if s.hart.mp then 0 else elemOf (s.row (d + r * q) q) w e)
          else if s.hart.tp then 0 else elemOf (s.row (d + r * q) q) w e)
      ∧ ∀ k, ¬ (d ≤ k ∧ k < d + rows * q) → t.reg k = s.reg k)

/-- No active element raises a flag whose trap is enabled (R44). -/
def State.untrapped (s : State) (m : Bool) (rows : Nat) (f : Nat → Nat → Nat × Nat) : Prop :=
  ∀ r, r < rows → ∀ e, s.hart.vstart ≤ e → e < s.hart.vl → s.active m e = true → flagCause s.hart.frm (f r e).2 = none

/-! ### Results of families of vector instructions -/

/-- The operation of one element-wise instruction on one element: type, RM, LFSR value, a, b and the old d give the result
and its flags. -/
abbrev ElementOp := Nat → Nat → Nat → Nat → Nat → Nat → Nat × Nat

/-- An element-wise instruction with two sources (R188, R189): it accepts the element types `ty`, zero-extends an imm5 if
`zext`, steps the LFSR under SR if it `rounds`, and F is `op`. -/
def BinaryResult (i : Bool → VReg → VReg → VOperand → Instr) (ty : Nat → Bool) (zext rounds : Bool) (op : ElementOp) :
    Prop :=
  ∀ (s : State) (m : Bool) (d a : VReg) (b : VOperand),
    let et := s.hart.et
    let w := etWidth et
    let rows := s.hart.vrow
    let f := fun r e => op et (frmRM s.hart.frm) (s.lfsrAt (rounds && etFloat et) r e) (s.elem (a.toNat + r) w e)
      (s.opB et zext b r e) (s.elem (d.toNat + r) w e)
    s.alone → s.vectorReady ty → s.tileOk d.toNat rows → s.tileOk a.toNat rows → s.operandOk b rows →
    s.untrapped m rows f →
      ∃ t, exec (i m d a b) s = .next t
        ∧ s.loopDone t m d.toNat rows 1 w (if s.roundsSr rounds then rows * s.hart.vl else 0) f

/-- The same with one source. -/
def UnaryResult (i : Bool → VReg → VReg → Instr) (ty : Nat → Bool) (rounds : Bool) (op : ElementOp) : Prop :=
  ∀ (s : State) (m : Bool) (d a : VReg),
    let et := s.hart.et
    let w := etWidth et
    let rows := s.hart.vrow
    let f := fun r e => op et (frmRM s.hart.frm) (s.lfsrAt (rounds && etFloat et) r e) (s.elem (a.toNat + r) w e) 0 0
    s.alone → s.vectorReady ty → s.tileOk d.toNat rows → s.tileOk a.toNat rows → s.untrapped m rows f →
      ∃ t, exec (i m d a) s = .next t
        ∧ s.loopDone t m d.toNat rows 1 w (if s.roundsSr rounds then rows * s.hart.vl else 0) f

/-- An unmasked instruction with a source, a second operand and the mask v0 as an operand (R195, R199), whose result has
elements of `width w` bits: F is made of w, a, b and the bit of v0. -/
def CarryResult (i : VReg → VReg → VOperand → Instr) (ty : Nat → Bool) (width : Nat → Nat)
    (op : Nat → Nat → Nat → Nat → Nat) : Prop :=
  ∀ (s : State) (d a : VReg) (b : VOperand),
    let et := s.hart.et
    let w := etWidth et
    let rows := s.hart.vrow
    s.alone → s.vectorReady ty → s.tileOk d.toNat rows → s.tileOk a.toNat rows → s.operandOk b rows →
      ∃ t, exec (i d a b) s = .next t
        ∧ s.loopDone t false d.toNat rows 1 (width w) 0 fun r e =>
          (op w (s.elem (a.toNat + r) w e) (s.opB et false b r e) (bit (s.reg 0) e).toNat, 0)

/-- A widening form (R198): elements of twice the width go into a tile of twice the registers, which shares none with a
source. -/
def WidenResult (i : Bool → VReg → VReg → VOperand → Instr) (rounds : Nat → Bool) (fi : Int → Int → Int)
    (ff : Bool → FVal → FVal → FVal × Nat) : Prop :=
  ∀ (s : State) (m : Bool) (d a : VReg) (b : VOperand),
    let et := s.hart.et
    let w := etWidth et
    let rows := s.hart.vrow
    let rm := frmRM s.hart.frm
    let apart := fun (n : Nat) => d.toNat + 2 * rows ≤ n ∨ n + rows ≤ d.toNat
    let f := fun r e =>
      let x := s.elem (a.toNat + r) w e
      let y := s.opB et false b r e
      if etInt et then (wrap (2 * w) (fi (intOf et x) (intOf et y)), 0)
      else floatResult (wideOf et) rm (s.lfsrAt (rounds et) r e) (ff (rm == 2) ((fmtOf et).decode x) ((fmtOf et).decode y))
    s.alone → s.vectorReady (fun t => wideOf t ≠ 31) →
    s.tileOk d.toNat (2 * rows) → s.tileOk a.toNat rows → s.operandOk b rows →
    apart a.toNat → (∀ v, b = .vec v → apart v.toNat) → s.untrapped m rows f →
      ∃ t, exec (i m d a b) s = .next t
        ∧ s.loopDone t m d.toNat rows 2 (2 * w) (if s.roundsSr (rounds et) then rows * s.hart.vl else 0) f

/-- A compare (R200, R201): row 0 alone; `test` judges the order of the two elements, any NaN sets NV if `ordered`, and a
pair with a NaN gives `unordered`. -/
def CompareResult (i : Bool → VReg → VReg → VOperand → Instr) (ty : Nat → Bool) (test : Int → Bool)
    (ordered unordered : Bool) : Prop :=
  ∀ (s : State) (m : Bool) (d a : VReg) (b : VOperand),
    let et := s.hart.et
    let f := fun (_ : Nat) e => compareBit test ordered unordered et (s.elem a.toNat (etWidth et) e) (s.opB et false b 0 e)
    s.alone → s.vectorReady ty → s.tileOk d.toNat 1 → s.tileOk a.toNat 1 → s.operandOk b 1 → s.untrapped m 1 f →
      ∃ t, exec (i m d a b) s = .next t ∧ s.loopDone t m d.toNat 1 1 1 0 f

/-- An instruction that writes bits, or elements of `width` bits, of row 0 of register `d` by position. -/
def State.rowZeroResult (s : State) (i : Instr) (m : Bool) (d : VReg) (width : Nat) (g : Nat → Nat) : Prop :=
  ∃ t, exec i s = .next t ∧ s.loopDone t m d.toNat 1 1 width 0 fun _ e => (g e, 0)

/-- The active positions from `VSTART` to `VL` − 1 whose bit of register `n` is 1, in order (R204). -/
def State.setPositions (s : State) (m : Bool) (n : Nat) : List Nat :=
  (List.range s.hart.vl).filter fun e => decide (s.hart.vstart ≤ e) && s.active m e && bit (s.reg n) e

/-- What every CFG instruction leaves besides its own effect: VS Dirty, `VSTART` = 0, the next word (R183). -/
def State.cfgNext (s : State) : State := { s.wroteNext 0 0 with hart.status.vs := .dirty, hart.vstart := 0 }

/-! ### Vector memory accesses -/

/-- An access of `n` bytes covers the byte `key` of one of the three memories. -/
def Spot.covers (p : Spot) (n : Nat) (sp : Space) (key : Nat) : Prop :=
  match p, sp with
  | .home q, .global => ∃ pa, q.loc = .glob pa ∧ pa ≤ key ∧ key < pa + n
  | .home q, .spad => ∃ c o, q.loc = .spad c o ∧ spadKey c o ≤ key ∧ key < spadKey c o + n
  | .lane k, .lane => k ≤ key ∧ key < k + n
  | _, _ => False

/-- A spot outside the hub window. -/
def State.plainSpot (s : State) (p : Spot) : Prop :=
  match p with
  | .home q => s.plainPlace q.loc
  | .lane _ => True

/-- No two accesses of `n` bytes in a list share a byte, unless they are the two halves of one byte (R33). -/
def apart (n : Nat) (l : List Access) : Prop :=
  ∀ x ∈ l, ∀ y ∈ l, y ≠ x → (∀ sp key, ¬ (x.spot.covers n sp key ∧ y.spot.covers n sp key))
    ∨ (x.spot = y.spot ∧ ∃ h, x.high = some h ∧ y.high = some !h)

/-- Every byte of the three memories that no access of a list covers reads in `t` as in `u`. -/
def bytesBut (u t : State) (n : Nat) (l : List Access) : Prop :=
  ∀ key, ((∀ x ∈ l, ¬ x.spot.covers n .global key) → t.mem.read key = u.mem.read key)
    ∧ ((∀ x ∈ l, ¬ x.spot.covers n .spad key) → t.spad.read key = u.spad.read key)
    ∧ ((∀ x ∈ l, ¬ x.spot.covers n .lane key) → t.lane.read key = u.lane.read key)

/-- The accesses of the active elements from `VSTART` to `VL` − 1, each row of an element before the next element, meet no
fault and no stall: they are `l`, and their walks leave `u` (R68, R69, R225, R226). -/
def State.resolves (s : State) (m : Bool) (rows : Nat) (place : Acc → Nat → Nat → M Access) (k : Acc) (u : State)
    (l : List Access) : Prop :=
  resolveElems (s.active m) (List.range rows) place k (spanList s.hart.vstart s.hart.vl) s [] = (u, l, none)

/-- The same of the 64-bit units of a whole-register access (R230). -/
def State.resolvesUnits (s : State) (place : Acc → Nat → M Access) (k : Acc) (u : State) (l : List Access) : Prop :=
  resolveElems (fun _ => true) [0] (fun k _ j => place k j) k (spanList s.hart.vstart s.units) s [] = (u, l, none)

/-- An indexed form's index tile passes the checks of R225, and a strided one has no 4-bit elements (R227). -/
def State.formOk (s : State) (f : Form) : Prop :=
  let w := etWidth s.hart.et
  match f with
  | .unit => True
  | .strided _ => w ≠ 4
  | .indexed b => s.tileOk b.toNat (s.hart.vrow * (max w 32 / max 1 w))

/-- The L1 after an instruction with an order field: empty after an acquire at CORE scope or wider (R231, R92). -/
def State.l1After (s : State) (o : Order) (sc : Scope) : List Line :=
  if o.acquires = true ∧ sc ≠ .hart then [] else s.hart.l1

/-- A store's accesses `l` are done once its trains are acknowledged (R104): `u` is the state after their walks, `v x` the value
of access x, `w` its width; apart from each other, each reads back its value, and no other byte of memory changes. -/
def storesDone (u t : State) (w : Nat) (l : List Access) (v : Access → Nat) : Prop :=
  bytesBut u t.ackTrains (elemBytes w) l
    ∧ (apart (elemBytes w) l → ∀ x ∈ l, t.ackTrains.accessRead x w = v x % 2 ^ w)

/-! ### Casks and waits -/

/-- The home of a cask answers: it is neither unreachable nor silent, the cask is undamaged, and its kind is one of `kinds`
with its fields in range (R266 step 6, R118, R122, R406). -/
def State.sound (z : State) (l : Loc) (kinds : List Nat) : Prop :=
  (∀ pa, l = .glob pa → epOf pa ∉ z.down ∧ epOf pa ∉ z.silent) ∧ z.caskBad l = false
    ∧ (z.header l).kind ∈ kinds ∧ z.configOk l (z.header l) = true

/-- A request on a cask reaches its home, which answers: a release first if `rel` (R94, R270), then the hart's own accesses to
the cask (R83); `y` is the state that the home finds. -/
def State.reaches (u : State) (p : Word) (l : Loc) (rel : Bool) (kinds : List Nat) (y : State) : Prop :=
  ∃ x, (if rel then (caskRelease l).go u else (.ok (), u)) = (.ok (), x) ∧ (caskAccess p l).go x = (.ok (), y)
    ∧ y.sound l kinds

/-- `z` is `y` once the home has looked at a cask that passes its checks: the reserved fields read as zero (R4), and no other
field has changed. -/
def State.looked (y z : State) (l : Loc) (kinds : List Nat) : Prop :=
  z = y.tidy l ∧ z.sound l kinds ∧ z.header l = y.header l
    ∧ ∀ o ∈ [8, 16, 24, 32] ++ (if (y.header l).kind = 4 then [40] else []), z.home64 (l.plus o) = y.home64 (l.plus o)

/-- A request that meets no check of its own at the home: `z` is the state once the home has looked at the cask. -/
def State.requests (u : State) (p : Word) (l : Loc) (rel : Bool) (kinds : List Nat) (z : State) : Prop :=
  ∃ y, u.reaches p l rel kinds y ∧ y.looked z l kinds

/-- A contribution of `items` to the cask of a membership entry, `count` slots of it at most, meets no check of R128, R118 and
R122: `x` is the state once the cask can be accessed, `w` once the release that a contribution is has been done (R94). -/
def State.contributes (s : State) (p : Word) (l : Loc) (kind : Nat) (e : Member) (count : Nat) (items : List Contribution)
    (x w : State) : Prop :=
  (caskAccess p l).go s = (.ok (), x) ∧ x.copMatches (x.header l) = true ∧ count ≤ x.capacity l
    ∧ ¬ ((x.header l).wr = 1 ∧ etFloat (x.header l).et = false) ∧ (release (scopeOfCode e.scope)).go x = (.ok (), w)
    ∧ w.header l = x.header l ∧ (w.homeDie l).1 ∉ w.exhausted ∧ w.sound l [kind]
    ∧ ((w.tidy l).contribute l e.index e.tag items).2 = false

/-- No byte of a cask's first 64 lies in the hub window. -/
def State.plainCask (z : State) (l : Loc) : Prop := ∀ i, i < 64 → z.plainPlace (l.plus i)

/-- A deadline that is neither past nor beyond `MAXWAIT` (R113). -/
def State.ahead (z : State) (d : Word) : Prop := z.now.toNat < d.toNat ∧ d.toNat ≤ z.now.toNat + z.hart.maxwait.toNat

/-- The L1 after an acquire at a scope code (R92, R270). -/
def State.l1Acquired (s : State) (scope : Nat) : List Line := if scope = 0 then s.hart.l1 else []

/-- The hart once a wait has ended with a status (R115, R116, R134, R270): S(d) holds it, register c the absentee set if the
answer carries one, `CROUND` the round's tag, the acquire is done, and the next word follows. -/
def State.waitEnded (s : State) (d : SReg) (c : VReg) (status : Word) (absent round : Option Nat) (scope : Nat) : State :=
  let writes := absent.isSome && decide (c ≠ 0)
  { s.wroteNext d status with
    hart.l1 := s.l1Acquired scope
    hart.cround := round.elim s.hart.cround (.ofNat 48)
    hart.v := absent.elim s.hart.v fun v => if c = 0 then s.hart.v else s.hart.v.set c.toNat v c.isLt
    hart.status.vs := if writes then .dirty else s.hart.status.vs
    hart.wait := none }

/-- The hart once an instruction of the scalar kind has its status (R269, R270): with `scope`, after an acquire at it. -/
def State.caskEnded (s : State) (d : SReg) (status : Word) (scope : Option Nat) : State :=
  { s.wroteNext d status with hart.l1 := scope.elim s.hart.l1 s.l1Acquired }

/-- A membership entry changed. -/
def State.entered (s : State) (l : Loc) (f : Member → Member) : State :=
  { s with hart.members := s.hart.members.map fun m => if m.cask = l then f m else m }

end Sys2Proof.Machine
end

