-- ==== Sys2Proof/Certificates/Slice0/Obligations.lean ====
section
/-! DEFINITION. The statements about the model, in the terms of `Sys2Proof.Safety`. Each says in its docstring which rules of the spec it
formalises. -/

open Sys2Proof Sys2Proof.Machine

/-! ### Decoding, the step, reset -/

/-- R140 to R149: words of each family, written out from the encodings of the spec, decode to the instruction that
they stand for; words that R150 makes illegal decode to nothing. -/
def Obligations.DecodedWords : Prop :=
  (∀ p ∈ ([(0x82C63400, .add 12 12 13), (0x93B00006, .lui 27 6), (0x85BD8D40, .addi 27 27 3392), (0x98556000, .sd 5 10 0),
      (0x9AB01FFD, .bne 11 0 (-3)), (0x9C0FFFF8, .jal 0 (-8)), (0xA4060003, .lp 12 3), (0xA005B720, .aswap 0 11 13 true .domain .rel),
      (0xA7A00010, .rdc 26 0x010), (0xA60E9100, .wrc 29 0x100), (0xA6004002, .eret), (0xA6054003, .tlbi 10), (0xA655400B, .lgset 5 10),
      (0xA80000C3, .fenceA .device), (0xA8050104, .flushrd 10 .domain), (0xAAE58000, .svl 14 11 0), (0xAA029814, .scop 5 6 true),
      (0xAC622480, .vadd false 6 4 (.scal 9)), (0xAC620D0D, .vsll false 6 4 (.imm 3)), (0xAC82161A, .vfma true 8 4 (.vec 5)),
      (0xAE021404, .vgt false 0 4 (.vec 5)), (0xB1000007, .mpop false 16 0), (0xB004050C, .mslu false 0 8 (.imm 1)),
      (0xB2A20005, .vcompr 10 4), (0xB4620080, .vrsum false 6 4 (.scal 0)), (0xB6642402, .vqmx false 6 8 9)] :
      List (BitVec 32 × Instr)), decodeWord p.1 = .ok p.2)
  ∧ (∀ p ∈ ([(0xB84A8080, .vld false 4 21 .spad .hart .none), (0xB8452C01, .vlds false 4 10 11 .global .hart .none),
      (0xBA668038, .vst false 6 13 .global .device .rel), (0xBC65203D, .vamo false 6 10 8 .global .device .acqRel),
      (0xBE6C8001, .vrrsq false 6 25 .hart .none), (0xC0652C01, .spti 6 10 11), (0xC2052C00, .stag 10 11),
      (0xC408C881, .tldg 17 18 1), (0xC6823081, .vmxs false 8 4 12 1), (0xC8263A60, .cpy 2 12 14 true false .device),
      (0xCB8CE8E0, .bar 24 25 26 7), (0xCB8514C6, .stg 24 10 5 6), (0xCD8CA402, .qjoin 24 25 9), (0xCEACE801, .recv 10 25 26),
      (0xD18CEB62, .sdone 24 25 26 27), (0xD2530000, .lcrs 5 6)] : List (BitVec 32 × Instr)), decodeWord p.1 = .ok p.2)
  ∧ ∀ w ∈ ([0x00000000, 0xFFFFFFFF, 0xD4000000, 0x82C63414, 0x2C621580, 0xBA668180] : List (BitVec 32)),
    ∀ i, decodeWord w ≠ .ok i

/-- R138 to R150: decoding undoes encoding. Every instruction that is well-formed and has an encoding is read back
from its word, with every operand at every value that the encoding admits, and the convoy bit; and a word that decodes
is the word of its instruction. -/
def Obligations.DecodeEncode : Prop :=
  (∀ (i : Instr) (c : Bool) (w : Nat), i.wf = true → encode i c = some w →
    w < 2 ^ 32 ∧ decodeWord (.ofNat 32 w) = .ok i ∧ convoyBit (.ofNat 32 w) = c)
  ∧ ∀ (w : BitVec 32) (i : Instr), decodeWord w = .ok i → i.wf = true ∧ encode i (convoyBit w) = some w.toNat

/-- R17, R151: a step of a running hart with nothing before it and nothing of its own under way runs the decoded instruction.
When the convoy at the program counter is one word that decodes to i, the step is that of `exec i`, with what follows a
completion (the loop-back of R175, the debug causes of R426), the element slots of R422 and the passing of time. At U a privileged
instruction raises `PRIVILEGED_INSTR` (5), and a word that decodes to nothing `ILLEGAL_ENCODING` (0), with `TVAL` the
address and `TVAL2` the word. -/
def Obligations.StepRunsDecoded : Prop :=
  ∀ (s u : State) (w : BitVec 32),
    let h := s.hart
    s.thermal ≠ .down → s.agenda = [] → h.run = .running → h.wait = none → h.stall = none → s.upToDate → s.atEnd = false →
    (h.asyncEnabled = true → firstPending h.pending = none) → h.icmp = [] → (s.coreAt (h.id / 4)).latNew = none →
    (fetchConvoy h.pc).go s = (.ok [w], u) → u.hart = h → u.cores = s.cores → u.trains = s.trains →
    let z := { u with hart.words := 1 }
    let traps := fun (code : Nat) => h.lcr.on = false → u.part.traceSize = 0 → ∃ t, step s = .next t
      ∧ t.hart.cause = word code ∧ t.hart.tval = h.pc ∧ t.hart.tval2 = w.zeroExtend 64 ∧ t.hart.epc = h.pc &&& ~~~3
      ∧ t.hart.priv = .super ∧ t.hart.x = h.x ∧ t.hart.v = h.v ∧ t.mem = u.mem
    (∀ i, decodeWord w = .ok i → (h.priv = .super ∨ i.privileged = false) → ∀ v, exec i z = .next v →
      step s = .next (((v.finish h.pc [⟨h.pc, w, i⟩]).countStep exec z [⟨h.pc, w, i⟩] (issuedTo z v)).lapse)
      ∧ (v.hart.lcnt = 0 → v.hart.watched = [] → v.hart.stepping = false → h.lcr.on = false → v.hart.sliceArmed = false →
        v.hart.overflow = [] → ∃ t, step s = .next t ∧ t.mem = v.mem ∧ t.spad = v.spad ∧ t.lane = v.lane
          ∧ t.hart = if v.hart.retired = true then { v.hart with
              retired := false
              took := false
              resumed := v.hart.resumed && (i matches .eret)
              splitAt := none } else v.hart))
    ∧ (∀ i, decodeWord w = .ok i → h.priv = .user → i.privileged = true → traps 5)
    ∧ (∀ e, decodeWord w = .error e → traps 0)

/-- An invariant of every step: the memories and the tables keep their canonical form. -/
def Obligations.StepKeepsCanonical : Prop :=
  ∀ (s t : State), s.canonical → step s = .next t → t.canonical

/-- What reset leaves: the canonical form, and the values that the spec gives (R38, R41, R72, R112, R121, R247, R321,
R329, R416, R430); the privilege S and the address 0 are the model's choice (log 3, 4). -/
def Obligations.ResetState : Prop :=
  let s := State.reset
  let h := s.hart
  s.canonical ∧ h.vrow = 1 ∧ h.vl = 0 ∧ h.vstart = 0 ∧ h.flags = 0 ∧ h.frm = 0 ∧ h.lcnt = 0 ∧ h.maxwait = 0x2540BE400
    ∧ h.defdl = 1000000 ∧ h.riskthr = 0xFFFF ∧ s.slew = 200 ∧ h.members = [] ∧ h.wait = none ∧ h.stall = none
    ∧ (∀ t, (s.tile t).tet = 31 ∧ ∀ i, i < 2048 → (s.tile t).scale i = 0x7F)
    ∧ h.priv = .super ∧ h.pc = 0 ∧ s.mem = []

/-- R9, R323, R151 item 5: the checks at issue of a vector instruction, in their order, here of `vadd`, `vand` and
`vrsum`: VS Off raises `VECTOR_OFF` (13) with `TVAL` = 0 and PARKED with 3, no lane group `LANE_GRANT_LOST` (47), a
reserved `VTYPE` or a type that the operation does not accept `ILLEGAL_VTYPE` (1), and the first tile that R9 forbids
`REG_MISALIGNED` (4) or `REG_BEYOND_DECLARED` (3) with its number. No state of the hart changes but what the entry
changes. -/
def Obligations.VectorIssueChecks : Prop :=
  ∀ (s : State) (m : Bool) (d a : VReg) (b : VOperand),
    let rows := s.hart.vrow
    let stops := fun (i : Instr) (code : Nat) (v : Word) => ∃ t, exec i s = .next t ∧ s.traps t code v s.hart.pc
    let tiles := [d.toNat, a.toNat] ++ match b with
      | .vec v => [v.toNat]
      | _ => []
    s.alone → ∀ p ∈ [(Instr.vadd m d a b, tyIFR, rows), (.vand m d a b, tyI, rows), (.vrsum m d a b, tyIFR, 1)],
      (s.hart.status.vs = .off → stops p.1 13 0)
      ∧ (s.hart.status.vs ≠ .off → s.hart.status.parked = true → stops p.1 13 3)
      ∧ (s.vectorOn → s.vlg = 0 → stops p.1 47 0)
      ∧ (s.vectorOn → s.vlg ≠ 0 → s.hart.vtypeBad = true ∨ p.2.1 s.hart.et = false → stops p.1 1 s.hart.vtype)
      ∧ (s.vectorReady p.2.1 → ∀ pre n post, tiles = pre ++ n :: post → (∀ k ∈ pre, s.tileOk k p.2.2) →
        (n % p.2.2 ≠ 0 ∨ (1 < p.2.2 ∧ n < 2) → stops p.1 4 (word n))
        ∧ (n % p.2.2 = 0 → ¬ (1 < p.2.2 ∧ n < 2) → s.hart.declared < n + p.2.2 → stops p.1 3 (word n)))

/-! ### Scalar instructions -/

/-- R157, R158: the result of each instruction of SALU and of the multiplications; the destination register, the
program counter and nothing else change (R154). R157: the results of the unary instructions of SALU, by the bits of x:
`clz` counts the zeros above the highest 1, `ctz` those below the lowest 1, both 64 for 0; `popc` counts the ones;
`bswap` reverses the bytes. -/
def Obligations.ScalarRegisterResults : Prop :=
  (∀ (s : State) (d a b : SReg), let x := s.x a; let y := s.x b
     exec (.add d a b) s = .next (s.wroteNext d (x + y))
     ∧ exec (.sub d a b) s = .next (s.wroteNext d (x - y))
     ∧ exec (.and d a b) s = .next (s.wroteNext d (x &&& y))
     ∧ exec (.or d a b) s = .next (s.wroteNext d (x ||| y))
     ∧ exec (.xor d a b) s = .next (s.wroteNext d (x ^^^ y))
     ∧ exec (.andn d a b) s = .next (s.wroteNext d (x &&& ~~~y))
     ∧ exec (.orn d a b) s = .next (s.wroteNext d (x ||| ~~~y))
     ∧ exec (.sll d a b) s = .next (s.wroteNext d (x <<< y.toNat))
     ∧ exec (.srl d a b) s = .next (s.wroteNext d (x >>> y.toNat))
     ∧ exec (.sra d a b) s = .next (s.wroteNext d (x.sshiftRight y.toNat))
     ∧ exec (.slt d a b) s = .next (s.wroteNext d (if x.toInt < y.toInt then 1 else 0))
     ∧ exec (.sltu d a b) s = .next (s.wroteNext d (if x.toNat < y.toNat then 1 else 0))
     ∧ exec (.min d a b) s = .next (s.wroteNext d (if x.toInt < y.toInt then x else y))
     ∧ exec (.max d a b) s = .next (s.wroteNext d (if x.toInt < y.toInt then y else x))
     ∧ exec (.minu d a b) s = .next (s.wroteNext d (if x.toNat < y.toNat then x else y))
     ∧ exec (.maxu d a b) s = .next (s.wroteNext d (if x.toNat < y.toNat then y else x))
     ∧ exec (.mul d a b) s = .next (s.wroteNext d (.ofNat 64 (x.toNat * y.toNat)))
     ∧ exec (.mulh d a b) s = .next (s.wroteNext d (.ofInt 64 (x.toInt * y.toInt / 2 ^ 64)))
     ∧ exec (.mulhu d a b) s = .next (s.wroteNext d (.ofNat 64 (x.toNat * y.toNat / 2 ^ 64)))
     ∧ exec (.mulhsu d a b) s = .next (s.wroteNext d (.ofInt 64 (x.toInt * y.toNat / 2 ^ 64))))
  ∧ (∀ (s : State) (d a : SReg), let x := s.x a
      (∃ n : Nat, exec (.clz d a) s = .next (s.wroteNext d (.ofNat 64 n)) ∧ n ≤ 64
        ∧ (∀ i, i < n → x.getMsbD i = false) ∧ (n < 64 → x.getMsbD n = true))
      ∧ (∃ n : Nat, exec (.ctz d a) s = .next (s.wroteNext d (.ofNat 64 n)) ∧ n ≤ 64
        ∧ (∀ i, i < n → x.getLsbD i = false) ∧ (n < 64 → x.getLsbD n = true))
      ∧ exec (.popc d a) s = .next (s.wroteNext d (.ofNat 64 ((List.range 64).countP fun i => x.getLsbD i)))
      ∧ (∃ v : Word, exec (.bswap d a) s = .next (s.wroteNext d v)
        ∧ ∀ i, i < 8 → v.extractLsb' (8 * i) 8 = x.extractLsb' (8 * (7 - i)) 8))

/-- R159: division by a divisor that is not zero rounds toward zero, and the remainder takes the sign of the dividend,
so that x = q × y + rem; nothing else changes, and no flag is set, −2^63 by −1 among them. R159: division by zero.
With `FRM`.DZE = 0 the quotient is all ones, the remainder is x, and DZ is set; with `FRM`.DZE = 1 the instruction
traps with `FP_DIVZERO` (33), `TVAL` = 0, writes no register and sets no flag. -/
def Obligations.ScalarDivision : Prop :=
  (∀ (s : State) (d a b : SReg), let x := s.x a; let y := s.x b
     y ≠ 0 →
       exec (.div d a b) s = .next (s.wroteNext d (.ofInt 64 (x.toInt.tdiv y.toInt)))
       ∧ exec (.rem d a b) s = .next (s.wroteNext d (.ofInt 64 (x.toInt.tmod y.toInt)))
       ∧ exec (.divu d a b) s = .next (s.wroteNext d (.ofNat 64 (x.toNat / y.toNat)))
       ∧ exec (.remu d a b) s = .next (s.wroteNext d (.ofNat 64 (x.toNat % y.toNat))))
  ∧ (∀ (s : State) (d a b : SReg), let x := s.x a
      s.x b = 0 →
        (s.hart.frm.getLsbD 9 = false →
          let dz := fun (v : Word) => Host.Outcome.next (φ := Fault) (ρ := Refusal)
            { s.wroteNext d v with hart.flags := s.hart.flags ||| 2 }
          exec (.div d a b) s = dz (-1) ∧ exec (.divu d a b) s = dz (-1)
          ∧ exec (.rem d a b) s = dz x ∧ exec (.remu d a b) s = dz x)
        ∧ (s.hart.frm.getLsbD 9 = true →
          ∀ i ∈ [Instr.div d a b, .divu d a b, .rem d a b, .remu d a b], ∃ t, exec i s = .next t
            ∧ s.traps t 33 0 s.hart.pc))

/-- R160, R161, R162: immediate forms, immediate shifts, `lui` and `auipc`. -/
def Obligations.ScalarImmediateResults : Prop :=
  ∀ (s : State) (d a : SReg) (imm : BitVec 15) (sh : BitVec 6) (big : BitVec 20),
    let x := s.x a; let v : Word := imm.signExtend 64
    exec (.addi d a imm) s = .next (s.wroteNext d (x + v))
    ∧ exec (.andi d a imm) s = .next (s.wroteNext d (x &&& v))
    ∧ exec (.ori d a imm) s = .next (s.wroteNext d (x ||| v))
    ∧ exec (.xori d a imm) s = .next (s.wroteNext d (x ^^^ v))
    ∧ exec (.slti d a imm) s = .next (s.wroteNext d (if x.toInt < v.toInt then 1 else 0))
    ∧ exec (.sltiu d a imm) s = .next (s.wroteNext d (if x.toNat < v.toNat then 1 else 0))
    ∧ exec (.slli d a sh) s = .next (s.wroteNext d (x <<< sh.toNat))
    ∧ exec (.srli d a sh) s = .next (s.wroteNext d (x >>> sh.toNat))
    ∧ exec (.srai d a sh) s = .next (s.wroteNext d (x.sshiftRight sh.toNat))
    ∧ exec (.lui d big) s = .next (s.wroteNext d (.ofInt 64 (big.toInt * 2 ^ 15)))
    ∧ exec (.auipc d big) s = .next (s.wroteNext d (s.hart.pc + .ofInt 64 (big.toInt * 2 ^ 15)))

/-- R166, R175: a conditional branch goes to pc + sext(off12) × 4 when its condition holds and else to pc + 4; a taken
one that leaves the body of an active loop ends the loop; nothing else changes. R167, R168, R175: `jal` and `jalr`
write pc + 4 to S(d) and go to their target, `jalr` from the old S(a); a `jalr` whose target is no multiple of 4 traps
with `MISALIGNED` (22), `TVAL` the target, and writes no register. R173, R174: `lp` sets up the loop over the next n
words at the current privilege, skips it when S(a) = 0, and traps with `LOOP_STATE` (15) for n = 0 (`TVAL` = 0) and
with a loop active (`TVAL` = LCNT). -/
def Obligations.ControlTransfers : Prop :=
  (∀ (s : State) (a b : SReg) (o : BitVec 12), let x := s.x a; let y := s.x b
     ∀ p ∈ [(Instr.beq a b o, decide (x = y)), (.bne a b o, decide (x ≠ y)),
         (.blt a b o, decide (x.toInt < y.toInt)), (.bge a b o, decide (x.toInt ≥ y.toInt)),
         (.bltu a b o, decide (x.toNat < y.toNat)), (.bgeu a b o, decide (x.toNat ≥ y.toNat))],
       ∃ t, exec p.1 s = .next t
         ∧ (p.2 = true → s.transferred t 0 0 (s.hart.pc + .ofInt 64 (o.toInt * 4)))
         ∧ (p.2 = false → t = s.wroteNext 0 0))
  ∧ (∀ (s : State) (d a : SReg) (imm : BitVec 15) (o : BitVec 20), let target := s.x a + imm.signExtend 64
      (∃ t, exec (.jal d o) s = .next t ∧ s.transferred t d (s.hart.pc + 4) (s.hart.pc + .ofInt 64 (o.toInt * 4)))
      ∧ (target.toNat % 4 = 0 → ∃ t, exec (.jalr d a imm) s = .next t ∧ s.transferred t d (s.hart.pc + 4) target)
      ∧ (target.toNat % 4 ≠ 0 → ∃ t, exec (.jalr d a imm) s = .next t ∧ s.traps t 22 target 0))
  ∧ (∀ (s : State) (a : SReg) (n : BitVec 15),
      let last := s.hart.pc + .ofNat 64 (4 * n.toNat)
      let set := { s with
        hart.lbeg := s.hart.pc + 4
        hart.lend := last + (if s.hart.priv = Priv.super then 1 else 0)
        hart.stall := none
        hart.retired := true }
      (n ≠ 0 → s.hart.lcnt = 0 → s.x a ≠ 0 →
        exec (.lp a n) s = .next { set with hart.lcnt := s.x a, hart.pc := s.hart.pc + 4 })
      ∧ (n ≠ 0 → s.hart.lcnt = 0 → s.x a = 0 → exec (.lp a n) s = .next { set with hart.pc := last + 4 })
      ∧ (n = 0 ∨ s.hart.lcnt ≠ 0 → ∃ t, exec (.lp a n) s = .next t
        ∧ s.traps t 15 (if n = 0 then 0 else s.hart.lcnt) 0))

/-! ### Control registers -/

/-- R177: `rdc` reads every assigned control register, and changes nothing else but the program counter. -/
def Obligations.ControlRegisterReads : Prop :=
  ∀ (s : State) (d : SReg) (n : BitVec 12), ∀ p ∈ s.crReads, p.1 = n.toNat → s.crOpen p.1 →
    exec (.rdc d n) s = .next (s.wroteNext d p.2)

/-- R177: `wrc`, `setbc` and `clrbc` form the new value from S(a) and the old one, and each register stores it by its
own rule: the user registers of R38, R41, R42, R72, R133, R134, R173 and R181. R177 for `MAXWAIT` and the privileged
registers that hold what is stored (R112, R323 to R329, R416, R423). What R152 and R322 order after earlier vector convoys is
stored once those have drained. -/
def Obligations.RegisterWrites : Prop :=
  (∀ (s : State) (a : SReg) (n : BitVec 12), ∀ p ∈ userStores, p.1 = n.toNat → s.crOpen p.1 → (p.1 ≤ 3 → s.drained) →
     ∀ q ∈ s.crReads, q.1 = n.toNat →
       exec (.wrc a n) s = .next (p.2 (s.wroteNext 0 0) (s.x a))
       ∧ exec (.setbc a n) s = .next (p.2 (s.wroteNext 0 0) (q.2 ||| s.x a))
       ∧ exec (.clrbc a n) s = .next (p.2 (s.wroteNext 0 0) (q.2 &&& ~~~(s.x a))))
  ∧ (∀ (s : State) (a : SReg) (n : BitVec 12), ∀ p ∈ superStores, p.1 = n.toNat → s.hart.priv = .super →
      (0x100 ≤ p.1 → s.drained) → ∀ q ∈ s.crReads, q.1 = n.toNat →
        exec (.wrc a n) s = .next (p.2 (s.wroteNext 0 0) (s.x a))
        ∧ exec (.setbc a n) s = .next (p.2 (s.wroteNext 0 0) (q.2 ||| s.x a))
        ∧ exec (.clrbc a n) s = .next (p.2 (s.wroteNext 0 0) (q.2 &&& ~~~(s.x a))))

/-- Writes with an effect of their own: `STATUS` clears what is written Initial (R323); `SLICE` and `PREEMPT` withdraw
their causes (R329); `VTYPE` has the effects of R12; `ASID` must be below the partition's count, or the write raises
`PRIVILEGED_CTLREG` (6) with `TVAL` = 0x108 (R325), and it empties the L1. Each comes once earlier vector convoys have drained, and
waits for the register that one of them has still to fill (R152, R322). R177: an access by number that is refused.
An assigned number from 0x100 on at U raises `PRIVILEGED_CTLREG` (6) with `TVAL` = N; so does a write at U to a
read-only user register or to `MAXWAIT`; at S a write to a read-only register is ignored. No register is written. -/
def Obligations.RegisterWriteEffects : Prop :=
  (∀ (s : State) (a : SReg), let x := s.x a; let u := s.wroteNext 0 0
     (s.hart.priv = .super → s.drained →
       exec (.wrc a 0x100) s = .next (u.statusStored x)
       ∧ exec (.wrc a 0x110) s = .next (u.sliceStored x)
       ∧ exec (.wrc a 0x111) s = .next (u.preemptStored x x)
       ∧ exec (.clrbc a 0x111) s = .next (u.preemptStored (word s.hart.uen.toNat &&& ~~~x) 0)
       ∧ (x.toNat % 2 ^ 13 < s.part.asidCount →
         exec (.wrc a 0x108) s = .next { u with hart.asid := x.setWidth 13, hart.l1 := [] })
       ∧ (s.part.asidCount ≤ x.toNat % 2 ^ 13 → ∃ t, exec (.wrc a 0x108) s = .next t ∧ s.traps t 6 0x108 0))
     ∧ (s.hart.status.vs ≠ .off → s.drained → exec (.wrc a 0x002) s = .next (u.vtypeStored x))
     ∧ ∀ r, ¬ s.drained → s.ackTrains.landOwn.openReg = some r → ∀ n ∈ ([0x100, 0x108, 0x002] : List (BitVec 12)),
       s.crOpen n.toNat → exec (.wrc a n) s = .next (s.ackTrains.landOwn.stallAt 3 r))
  ∧ (∀ (s : State) (d a : SReg) (n : BitVec 12),
      let refused := fun (i : Instr) => ∃ t, exec i s = .next t ∧ s.traps t 6 (n.zeroExtend 64) 0
      (s.hart.priv = .user → 0x100 ≤ n.toNat → n.toNat ∈ s.crReads.map (·.1) →
        refused (.rdc d n) ∧ refused (.wrc a n) ∧ refused (.setbc a n) ∧ refused (.clrbc a n))
      ∧ (s.hart.priv = .user → n.toNat ∈ 0x011 :: crReadOnly → s.crOpen n.toNat →
        refused (.wrc a n) ∧ refused (.setbc a n) ∧ refused (.clrbc a n))
      ∧ (s.hart.priv = .super → n.toNat ∈ crReadOnly → s.crOpen n.toNat →
        ∀ i ∈ [Instr.wrc a n, .setbc a n, .clrbc a n], exec i s = .next (s.wroteNext 0 0)))

/-- The writes of registers as events store what a write does, once its checks are passed, and nothing else (R38, R41,
R112, R175, R181, R323 to R325, R329, R416, R423). -/
def Obligations.RegisterWriteEvents : Prop :=
  ∀ (s : State) (v : Word),
    (∀ p ∈ [(0x000, Instr.vlWrite v), (0x001, .vrowWrite v), (0x003, .vstartWrite v), (0x008, .frmWrite v),
        (0x009, .srseedWrite v), (0x00A, .loopRegisterWrite .lcnt v), (0x00B, .loopRegisterWrite .lbeg v),
        (0x00C, .loopRegisterWrite .lend v)],
      ∀ q ∈ userStores, q.1 = p.1 → exec p.2 s = .next (q.2 s v))
    ∧ (s.hart.priv = .super →
      (∀ p ∈ [(0x011, Instr.maxwaitWrite v), (0x101, .tvecWrite v), (0x109, .ptbWrite v), (0x118, .taghistWrite v),
          (0x120, .riskthrWrite v), (0x128, .staggerWrite v)],
        ∀ q ∈ superStores, q.1 = p.1 → exec p.2 s = .next (q.2 s v))
      ∧ exec (.statusWrite v) s = .next (s.statusStored v)
      ∧ exec (.sliceWrite v) s = .next (s.sliceStored v)
      ∧ exec (.preemptWrite v) s = .next (s.preemptStored v v)
      ∧ (v.toNat % 2 ^ 13 < s.part.asidCount →
        exec (.asidWrite v) s = .next { s with hart.asid := v.setWidth 13, hart.l1 := [] }))
    ∧ exec (.vtypeWrite v) s = .next (s.vtypeStored v)

/-! ### The CFG instructions, calls and returns -/

/-- R15, R184: `svl`. A request for Q groups (at most 8; 0 keeps the grant) gives the hart's groups of highest number back, or
takes free ones of lowest number within the quota, whose SRAM is cleared (R58); every other group keeps its owner. `MAXVL` is
computed anew, `VL` and S(d) are min(A, `MAXVL`), or 0 without a group. A changed count clears the vector registers and makes
VS Initial; else VS is Dirty and the registers stay. A grant request of `lgset` that is under way keeps what changes here (R337).
Nothing else changes. -/
def Obligations.SetVectorLength : Prop :=
  ∀ (s : State) (d a b : SReg),
    s.canonical → s.vectorOn → s.hart.vtypeBad = false → s.drained →
    let c := s.hart.id / 4
    let me := BitVec.ofNat 2 s.hart.id
    let lat := (s.coreAt c).lat
    let owned := (lat.toList.filter (·.isSome)).length
    let mine := (List.range 8).filter fun g => lat.toList.getD g none = some me
    let free := (List.range 8).filter fun g => lat.toList.getD g none = none
    let held := mine.length
    let q := min (s.x b).toNat 8
    let given := if q = 0 then [] else mine.drop q
    let taken := free.take (min (q - held) (s.part.quota - owned))
    let groups := held - given.length + taken.length
    let maxvl := groups * 8 * 32768 / s.hart.declared / etWidth s.hart.et
    let vl := if groups = 0 then 0 else min (s.x a).toNat maxvl
    ∃ t, exec (.svl d a b) s = .next t
      ∧ t = { s.wroteNext d (word vl) with
          hart.maxvl := maxvl
          hart.stale := false
          hart.vl := vl
          hart.vstart := 0
          hart.v := if groups = held then s.hart.v else .replicate 32 0
          hart.flying := if groups = held then s.hart.flying else .replicate 32 0
          hart.status.vs := if groups = held then .dirty else .initial
          lane := taken.foldl (fun m g => clearGroup m c g) s.lane
          cores := t.cores }
      ∧ (∀ k, k ≠ c → t.coreAt k = s.coreAt k) ∧ t.coreAt c = { s.coreAt c with
          lat := (t.coreAt c).lat
          latNew := (s.coreAt c).latNew.map (mergeLat lat (t.coreAt c).lat) }
      ∧ ∀ g, g < 8 → (t.coreAt c).lat.toList.getD g none =
          if g ∈ given then none else if g ∈ taken then some me else lat.toList.getD g none

/-- R183, R185, R186, R187, R12: `svt`, `svr`, `scgrp` and `scop`, their whole effect. `svr` stores 1, 2, 4 and 8 only
and gives `VROW` back; `scop` leaves `CSTRIDE` with b = 0. R183: with VS Off every CFG instruction raises `VECTOR_OFF`
(13) with `TVAL` = 0, and with PARKED = 1 with `TVAL` = 3 (R323); nothing changes. Then each waits until earlier vector convoys
have drained, for a register that one of them has still to fill (R152). R184: `svl` raises `ILLEGAL_VTYPE` (1) on reserved values
before it touches a grant. -/
def Obligations.ConfigurationInstructions : Prop :=
  (∀ (s : State) (d a b : SReg) (seq : Bool), let x := s.x a; let y := s.x b
     s.vectorOn → s.drained →
       exec (.svt a) s = .next { (s.wroteNext 0 0).vtypeStored x with hart.vstart := 0 }
       ∧ (let rows := if x = 1 ∨ x = 2 ∨ x = 4 ∨ x = 8 then x.toNat else s.hart.vrow
         exec (.svr d a) s = .next { s.wroteNext d (word rows) with
           hart.vrow := rows
           hart.status.vs := .dirty
           hart.vstart := 0 })
       ∧ exec (.scgrp a b) s = .next { s.cfgNext with
           hart.cgrp0 := (x.setWidth 52).setWidth 64
           hart.cgrp1 := (y.setWidth 39).setWidth 64 }
       ∧ exec (.scop a b seq) s = .next { s.cfgNext with
           hart.cop := x.setWidth 6 |>.setWidth 7 |>.or (if seq then 64 else 0)
           hart.cstride := if b = 0 then s.hart.cstride else y.setWidth 32 })
  ∧ (∀ (s : State) (d a b : SReg) (seq : Bool),
      (¬ s.vectorOn → ∀ i ∈ [Instr.svl d a b, .svt a, .svr d a, .scgrp a b, .scop a b seq],
        ∃ t, exec i s = .next t ∧ s.traps t 13 (if s.hart.status.vs = .off then 0 else 3) s.hart.pc)
      ∧ (s.vectorOn → s.drained → s.hart.vtypeBad = true →
        ∃ t, exec (.svl d a b) s = .next t ∧ s.traps t 1 s.hart.vtype s.hart.pc)
      ∧ ∀ r, s.vectorOn → ¬ s.drained → s.ackTrains.landOwn.openReg = some r →
        ∀ i ∈ [Instr.svl d a b, .svt a, .svr d a, .scgrp a b, .scop a b seq],
          exec i s = .next (s.ackTrains.landOwn.stallAt 3 r))

/-- R178, R340: `ecall` and `ebreak` trap at any privilege, with `EPC` at the instruction and both values 0. R331:
`eret` restores the privilege and IE, and goes on at `EPC`; the convoy there resumes a split one when CVR is 1 (R346).
Nothing else changes. -/
def Obligations.TrapsAndReturns : Prop :=
  (∀ s : State,
     (∃ t, exec .ecall s = .next t ∧ s.traps t (if s.hart.priv = .user then 8 else 9) 0 0)
     ∧ (∃ t, exec .ebreak s = .next t ∧ s.traps t 10 0 0))
  ∧ (∀ s : State, exec .eret s = .next { s with
      hart.priv := if s.hart.status.pp = true then .super else .user
      hart.status.ie := s.hart.status.pie
      hart.status.pie := true
      hart.status.pp := false
      hart.status.cvr := false
      hart.pc := s.hart.epc &&& ~~~3
      hart.resumed := s.hart.status.cvr
      hart.stall := none
      hart.retired := true })

/-! ### Scalar loads, stores and atomics; translation -/

/-- R164, R165, R154: a scalar load whose access meets no fault and no stall writes S(d) with the extended value of
the bytes it sees, and leaves every other register and, unless the hart has posted stores still to be applied or reads the hub
past its store buffer, all of memory. R87: a load that is to take its time leaves its register as it is, names the bytes and
goes on. An earlier one that did has its value by then. -/
def Obligations.ScalarLoads : Prop :=
  ∀ (s u : State) (d a : SReg) (imm : BitVec 12) (q : Phys), let p := s.x a + imm.signExtend 64
    ∀ r ∈ [(Instr.lb d a imm, 1, true), (.lbu d a imm, 1, false), (.lh d a imm, 2, true), (.lhu d a imm, 2, false),
        (.lw d a imm, 4, true), (.lwu d a imm, 4, false), (.ld d a imm, 8, false)],
      let v := leNat (u.seenBytes q r.2.1)
      let w : State := u.wroteNext d (if r.2.2 then .ofInt 64 ((BitVec.ofNat (8 * r.2.1) v).toInt) else .ofNat 64 v)
      s.accessOk .load p r.2.1 r.2.1 q u → u.hart.late = none →
        (u.defers q r.2.1 = none → u.readable q r.2.1 → ∃ t, exec r.1 s = .next t
          ∧ t.hart.x = w.hart.x ∧ t.hart.pc = u.hart.pc + 4
          ∧ (u.posted = [] → u.hart.buffer = [] ∨ u.plainPlace q.loc →
            t = { w with hart.l1 := t.hart.l1, clock := t.clock }))
        ∧ ∀ pa, u.defers q r.2.1 = some pa → exec r.1 s = .next { u.wroteNext 0 0 with
          hart.slow := false
          hart.late := some ⟨d, pa, r.2.1, r.2.2, s.hart.pc⟩ }

/-- R164, R86, R62: a scalar store whose access meets no fault and no stall writes the low bytes of S(r): into the
store buffer, whose oldest store leaves first when it holds 16, if it can, or straight to the scratchpad. No register but the
program counter changes, and with room in the buffer no byte of memory but those of a scratchpad store. R86: a scalar
load of bytes in one line sees the newest matching bytes of the store buffer, then the L1, then the home: a line that
the L1 does not hold, with nothing buffered or posted, reads as its home does; and a store outside the hub window is seen by
the loads of its own hart at once. -/
def Obligations.ScalarStores : Prop :=
  (∀ (s u : State) (r a : SReg) (imm : BitVec 12) (q : Phys), let p := s.x a + imm.signExtend 64
     ∀ w ∈ ([(Instr.sb r a imm, 1), (.sh r a imm, 2), (.sw r a imm, 4), (.sd r a imm, 8)] : List (Instr × Nat)),
       s.accessOk .store p w.2 w.2 q u → u.hart.late = none → (∀ pa, q.loc = .glob pa → u.makeRoom.2 = true) →
         ∃ t, exec w.1 s = .next t ∧ t.hart.x = u.hart.x ∧ t.hart.pc = u.hart.pc + 4
           ∧ match q.loc with
             | .glob pa =>
               t.hart.buffer = (if u.hart.buffer.length < 16 then u.hart.buffer else u.hart.buffer.drop 1)
                 ++ [⟨pa, leBytes (s.x r).toNat w.2⟩]
               ∧ (u.hart.buffer.length < 16 →
                 t = { u.wroteNext 0 0 with hart.buffer := t.hart.buffer, hart.l1 := t.hart.l1 })
             | .spad c o => t = { u.wroteNext 0 0 with
                spad := u.spad.writeN (spadKey c o) (leBytes (s.x r).toNat w.2)
                badSpad := t.badSpad })
  ∧ (∀ (u : State) (pa n : Nat), pa % 64 + n ≤ 64 →
      (u.hart.buffer = [] → (∀ l ∈ u.hart.l1, l.base ≠ pa / 64 * 64) →
        (∀ p ∈ u.posted, ¬ (p.hart = u.hart.id ∧ p.pa / 64 = pa / 64)) → (u.scalarRead pa n).2 = u.homeRead (.glob pa) n)
      ∧ (∀ bs : List Byte, bs.length = n → (∀ l ∈ u.hart.l1, l.data.length = 64) → inHub (offOf pa) = false →
        ((u.scalarWrite pa bs).scalarRead pa n).2 = bs))

/-- R171, R172: a scalar atomic whose access meets no fault and no stall, whose release is done (R92), whose home answers and whose
hart has no load open, drains the store buffer, drops its line from the L1, performs its read-modify-write at the home and returns the old value; with
an acquire side at CORE scope or wider it empties the L1. At a place outside the hub window, no byte but its own
changes, unless an acquire takes stores of other harts. -/
def Obligations.ScalarAtomics : Prop :=
  ∀ (s u w : State) (d a b : SReg) (wide : Bool) (sc : Scope) (o : Order) (q : Phys),
    let n := if wide then 8 else 4
    let y := (s.x b).toNat % 2 ^ (8 * n)
    let old := fun (z : State) => leNat (z.homeRead q.loc n)
    let sg := fun (x : Nat) => if 2 * x < 2 ^ (8 * n) then (x : Int) else (x : Int) - 2 ^ (8 * n)
    (o.releases = true → s.hart.latch = none) → s.accessOk .atomic (s.x a) n n q u → u.hart.late = none →
    (if o.releases = true then (release sc).go u = (.ok (), w) else w = u) →
    let z := w.drain.dropLine q.loc
    w.homeSilent q.loc = false → w.drain.hart.buffer = [] → z.isBad q.loc n = false → z.plainPlace q.loc → (o.acquires = true → z.noneReleased) →
    ∀ r ∈ ([(.aswap d a b wide sc o, fun _ => some y), (.aadd d a b wide sc o, fun m => some ((m + y) % 2 ^ (8 * n))),
        (.aand d a b wide sc o, fun m => some (m &&& y)), (.aor d a b wide sc o, fun m => some (m ||| y)),
        (.axor d a b wide sc o, fun m => some (m ^^^ y)),
        (.amin d a b wide sc o, fun m => some (if sg m ≤ sg y then m else y)),
        (.amax d a b wide sc o, fun m => some (if sg m ≤ sg y then y else m)),
        (.aminu d a b wide sc o, fun m => some (min m y)), (.amaxu d a b wide sc o, fun m => some (max m y)),
        (.acas d a b wide sc o, fun m => if m = (s.x d).toNat % 2 ^ (8 * n) then some y else none)] :
        List (Instr × (Nat → Option Nat))),
      ∃ t, exec r.1 s = .next t
        ∧ t.hart.x = (z.wroteNext d (.ofInt 64 (sg (old z)))).hart.x ∧ t.hart.pc = z.hart.pc + 4
        ∧ (match r.2 (old z) with
          | some v => t.mem = (z.homeSet q.loc (leBytes v n)).mem ∧ t.spad = (z.homeSet q.loc (leBytes v n)).spad
          | none => t.mem = z.mem ∧ t.spad = z.spad)
        ∧ sameBytesBut z t q.loc n
        ∧ t.hart.l1 = (if o.acquires = true ∧ sc ≠ .hart then [] else z.hart.l1)

/-- R67, R165, R172: a scalar access whose pointer is no multiple of its width raises `MISALIGNED` (22) with `TVAL`
the pointer, and writes neither a register nor a byte. R361: with `PTB`.EN = 0 a virtual address below 2^44 is an
offset on the hart's own endpoint with every right and no tag, and one from 2^44 on raises the access cause. R360: a
root table on another endpoint raises it before any entry is read, when no translation is cached. R360: an entry of the root table that is not valid,
or whose bits [15:13] are not 0, raises the page fault of the access with `TVAL` the virtual address, and no entry is
written; no page is mapped as tagged there any more (R66). R59, R62: a scratchpad pointer of the hart's own core, aligned and within the 1.5 MiB, reaches that core's
byte, and one that passes the end raises `SCRATCH_RANGE` (24) with `TVAL` the 25-bit address. -/
def Obligations.AddressChecks : Prop :=
  (∀ (s : State) (d a b : SReg) (imm : BitVec 12) (wide : Bool) (sc : Scope), let p := s.x a + imm.signExtend 64
     (∀ i ∈ [(Instr.lh d a imm, 2), (.lhu d a imm, 2), (.sh d a imm, 2), (.lw d a imm, 4), (.lwu d a imm, 4),
         (.sw d a imm, 4), (.ld d a imm, 8), (.sd d a imm, 8)],
       p.toNat % i.2 ≠ 0 → ∃ t, exec i.1 s = .next t ∧ s.traps t 22 p 0)
     ∧ ((s.x a).toNat % (if wide then 8 else 4) ≠ 0 → ∃ t, exec (.aadd d a b wide sc .none) s = .next t
       ∧ s.traps t 22 (s.x a) 0))
  ∧ (∀ (s : State) (k : Acc) (va : Nat),
      (bitOf s.hart.ptb 0 = false → va < 2 ^ 44 →
        (translate s.ctx k va).go s = (.ok (s.endpt.toNat * 2 ^ 44 + va, false), s))
      ∧ (bitOf s.hart.ptb 0 = false → 2 ^ 44 ≤ va →
        (translate s.ctx k va).go s = (.error (.trap ⟨k.accessCause, word va, 0⟩), s))
      ∧ (bitOf s.hart.ptb 0 = true → s.cachedFor s.ctx k va = none → epOf (bits s.hart.ptb 56 16 * 65536) ≠ s.endpt →
        (translate s.ctx k va).go s = (.error (.trap ⟨k.accessCause, word va, 0⟩), s)))
  ∧ (∀ (s : State) (k : Acc) (va : Nat),
      let root := bits s.hart.ptb 56 16 * 65536
      let at_ := root + va / 2 ^ 42 % 8192 * 8
      let e := s.home64 (.glob at_)
      bitOf s.hart.ptb 0 = true → s.cachedFor s.ctx k va = none → epOf root = s.endpt → s.backed (offOf root) = true → s.isBad (.glob at_) 8 = false →
      (e % 2 = 0 ∨ e / 2 ^ 13 % 8 ≠ 0) →
        ∃ u, (translate s.ctx k va).go s
            = (.error (.trap ⟨match k with | .fetch => 16 | .load => 17 | _ => 18, word va, 0⟩), u)
          ∧ u = { s with tagged := u.tagged })
  ∧ (∀ (s : State) (k : Acc) (o n : Nat) (way : Way), o < 2 ^ 21 → 0 < n → k ≠ .fetch →
      s.part.cores.contains (s.hart.id / 4) = true →
      let p : Word := word (2 ^ 63 + 15 * 2 ^ 21 + o)
      (2 ^ 63 + 15 * 2 ^ 21 + o) % n = 0 →
      (o + n ≤ 0x180000 → (resolve s.ctx k p n n way).go s
        = (.ok ⟨.spad (s.hart.id / 4) o, word (15 * 2 ^ 21 + o), false, 0⟩, s))
      ∧ (0x180000 < o + n → (resolve s.ctx k p n n way).go s
        = (.error (.trap ⟨24, word (15 * 2 ^ 21 + o), 0⟩), s)))

/-- R360, R362: the walk through two tables, no translation being cached, to a leaf for a 64 KiB page that is valid, grants the
right, is of no lease and moves nowhere: the address is the page with the low 16 bits of the virtual address, A is set, and D
for a store (the walk that only asks whether a store can be made leaves D, R365). No byte but the leaf's changes; what is known
of tagged pages and of migrations follows the leaf (R66, R369). -/
def Obligations.PageWalk : Prop :=
  ∀ (s : State) (k : Acc) (va : Nat) (e2 e1 e0 : Nat),
    let root := bits s.hart.ptb 56 16 * 65536
    let slot := fun (base level : Nat) => base + va / 2 ^ (16 + 13 * level) % 8192 * 8
    let here := fun (base : Nat) => epOf base = s.endpt ∧ s.backed (offOf base) = true
    let next := fun (e : Nat) => e / 2 ^ 16 % 2 ^ 41 * 65536
    let table := fun (e : Nat) => e % 2 = 1 ∧ e / 2 % 2 ^ 15 = 0
    let clean := fun (at_ : Nat) => s.isBad (.glob at_) 8 = false
    bitOf s.hart.ptb 0 = true → s.cachedFor s.ctx k va = none →
    here root → clean (slot root 2) → s.home64 (.glob (slot root 2)) = e2 → table e2 →
    here (next e2) → clean (slot (next e2) 1) → s.home64 (.glob (slot (next e2) 1)) = e1 → table e1 →
    here (next e1) → clean (slot (next e1) 0) → s.home64 (.glob (slot (next e1) 0)) = e0 →
    bit e0 0 = true → e0 / 2 ^ 13 % 8 = 0 → (bit e0 2 = true → bit e0 1 = true) → k.allowed e0 = true →
    (s.hart.priv = .user → bit e0 4 = true) → (s.hart.priv = .super → bit e0 4 = true → k ≠ .fetch) →
    e0 / 2 ^ 8 % 4 ≠ 2 → bit e0 10 = false → bit e0 11 = false →
    let marked := e0 + (if bit e0 6 then 0 else 2 ^ 6) + (if k ∈ [.store, .atomic] ∧ bit e0 7 = false then 2 ^ 7 else 0)
    ∃ u, (translate s.ctx k va).go s = (.ok (next e0 + va % 65536, bit e0 12), u)
      ∧ u = { if marked = e0 then s else s.setHome64 (.glob (slot (next e1) 0)) marked with
        tagged := u.tagged
        locks := u.locks
        migrations := u.migrations }

/-! ### Vector arithmetic, compares and masks -/

/-- R188, R189, R193 to R197: every element-wise instruction of VARI with two sources, the fused ones among them, with
the element types that it accepts and its operation. R189, R193, R194, R196: the same of the instructions with one
source. -/
def Obligations.VectorElementResults : Prop :=
  (BinaryResult .vadd tyIFR false true opAdd
   ∧ BinaryResult .vsub tyIFR false true opSub
   ∧ BinaryResult .vrsub tyIFR false true (fun et rm l a b d => opSub et rm l b a d)
   ∧ BinaryResult .vmul tyIFR false true opMul
   ∧ BinaryResult .vmulh tyI false false (opMulHigh true)
   ∧ BinaryResult .vmulhu tyI false false (opMulHigh false)
   ∧ BinaryResult .vdiv tyIF false true opDiv
   ∧ BinaryResult .vrem tyI false false opRem
   ∧ BinaryResult .vmin tyIF false false (opMinMax false)
   ∧ BinaryResult .vmax tyIF false false (opMinMax true)
   ∧ BinaryResult .vand tyI false false (fun _ _ _ a b _ => (a &&& b, 0))
   ∧ BinaryResult .vor tyI false false (fun _ _ _ a b _ => (a ||| b, 0))
   ∧ BinaryResult .vxor tyI false false (fun _ _ _ a b _ => (a ^^^ b, 0))
   ∧ BinaryResult .vsll tyI true false opSll
   ∧ BinaryResult .vsrl tyI true false opSrl
   ∧ BinaryResult .vsra tyI true false opSra
   ∧ BinaryResult .vsadd tyI false false (fun et _ _ a b _ => satResult et (intOf et a + intOf et b))
   ∧ BinaryResult .vssub tyI false false (fun et _ _ a b _ => satResult et (intOf et a - intOf et b))
   ∧ BinaryResult .vfma tyIFR false true (opFused false false)
   ∧ BinaryResult .vfms tyIFR false true (opFused false true)
   ∧ BinaryResult .vfnma tyIFR false true (opFused true true)
   ∧ BinaryResult .vfnms tyIFR false true (opFused true false)
   ∧ BinaryResult .vsgnj tyF false false (opSign fun _ y => y)
   ∧ BinaryResult .vsgnjn tyF false false (opSign fun _ y => !y)
   ∧ BinaryResult .vsgnjx tyF false false (opSign fun x y => x != y))
  ∧ (UnaryResult .vabs tyIF false opAbs
    ∧ UnaryResult .vneg tyIFR false opNeg
    ∧ UnaryResult .vsqrt tyF true opSqrt
    ∧ UnaryResult .vclass tyF false opClass)

/-- R195, R199: the carry forms, `vmerge` and `vmv`. c is bit e of v0; `vmadc` and `vmsbc` write the bits of row r to
register d + r; `vmerge` writes every element; `vmv` has no source but its operand. R198: the widening forms; of the
products only one of BF16 sources rounds. -/
def Obligations.CarryAndWideningResults : Prop :=
  (CarryResult .vadc tyI id (fun w a b c => (a + b + c) % 2 ^ w)
   ∧ CarryResult .vsbc tyI id (fun w a b c => (a + 2 * 2 ^ w - b - c) % 2 ^ w)
   ∧ CarryResult .vmadc tyI (fun _ => 1) (fun w a b c => if 2 ^ w ≤ a + b + c then 1 else 0)
   ∧ CarryResult .vmsbc tyI (fun _ => 1) (fun _ a b c => if a < b + c then 1 else 0)
   ∧ CarryResult .vmerge tyAny id (fun _ a b c => if c = 1 then b else a)
   ∧ ∀ (s : State) (m : Bool) (d : VReg) (b : VOperand), let rows := s.hart.vrow
       s.alone → s.vectorReady tyAny → s.tileOk d.toNat rows → s.operandOk b rows →
         ∃ t, exec (.vmv m d b) s = .next t
           ∧ s.loopDone t m d.toNat rows 1 (etWidth s.hart.et) 0 fun r e => (s.opB s.hart.et false b r e, 0))
  ∧ (WidenResult .vwadd (fun _ => true) (fun x y => x + y) (fun rdn x y => x.add rdn y)
    ∧ WidenResult .vwmul (fun et => et == 10) (fun x y => x * y) (fun _ x y => x.mul y))

/-- R34, R194: integer elements. Sums, differences and products wrap modulo 2^w and set no flag; a saturating sum
clamps to the type's range and sets SAT; a quotient by zero is all ones and a remainder by zero the dividend, with DZ;
shifts take their amount modulo w. -/
def Obligations.IntegerElements : Prop :=
  ∀ (et rm l a b z : Nat), et < 8 → a < 2 ^ etWidth et → b < 2 ^ etWidth et →
    let w := etWidth et
    let wraps := fun (v : Int) (r : Nat × Nat) => r.1 < 2 ^ w ∧ ((r.1 : Int) - v) % 2 ^ w = 0 ∧ r.2 = 0
    wraps (a + b) (opAdd et rm l a b z) ∧ wraps ((a : Int) - b) (opSub et rm l a b z)
    ∧ wraps (a * b) (opMul et rm l a b z) ∧ wraps (-(a : Int)) (opNeg et rm l a b z)
    ∧ wraps (a * b + z) (opFused false false et rm l a b z)
    ∧ opSll et rm l a b z = (a * 2 ^ (b % w) % 2 ^ w, 0) ∧ opSrl et rm l a b z = (a / 2 ^ (b % w), 0)
    ∧ (b = 0 → opDiv et rm l a b z = (2 ^ w - 1, 2) ∧ opRem et rm l a b z = (a, 2))
    ∧ (b ≠ 0 → wraps ((intOf et a).tdiv (intOf et b)) (opDiv et rm l a b z)
      ∧ wraps ((intOf et a).tmod (intOf et b)) (opRem et rm l a b z))
    ∧ (∀ v : Int, satResult et v =
      if v < intMin et then (wrap w (intMin et), 32) else if intMax et < v then (wrap w (intMax et), 32)
      else (wrap w v, 0))

/-- R44, R345: an element that raises an enabled flag stops the instruction there. The lowest such element k in
ascending order traps with the cause of its flag, `TVAL` = k, `VSTART` = k; elements below k are written in every row,
none from k on is, and their flags alone are set. -/
def Obligations.ElementTraps : Prop :=
  ∀ (s : State) (m : Bool) (d a : VReg) (b : VOperand) (k c : Nat),
    let et := s.hart.et
    let w := etWidth et
    let rows := s.hart.vrow
    let f := fun i e => opDiv et (frmRM s.hart.frm) (s.lfsrAt (etFloat et) i e) (s.elem (a.toNat + i) w e)
      (s.opB et false b i e) 0
    s.alone → s.vectorReady tyIF → s.tileOk d.toNat rows → s.tileOk a.toNat rows → s.operandOk b rows →
    s.hart.vstart ≤ k → k < s.hart.vl → s.part.traceSize = 0 →
    (∀ e, s.hart.vstart ≤ e → e < k → s.active m e = true → ∀ i, i < rows → flagCause s.hart.frm (f i e).2 = none) →
    s.active m k = true → (∃ i, i < rows ∧ flagCause s.hart.frm (f i k).2 = some c
      ∧ ∀ j, j < i → flagCause s.hart.frm (f j k).2 = none) →
      ∃ t, exec (.vdiv m d a b) s = .next t
        ∧ t.hart.cause = word c ∧ t.hart.tval = word k ∧ t.hart.tval2 = s.hart.pc ∧ t.hart.epc = s.hart.pc &&& ~~~3
        ∧ t.hart.vstart = k ∧ t.hart.status.cvr = decide (s.hart.vstart < k)
        ∧ t.hart.x = s.hart.x ∧ t.hart.srseed = s.hart.srseed
        ∧ t.hart.flags = s.hart.flags ||| .ofNat 7 (s.loopFlags rows s.hart.vstart k m fun r e => (f r e).2)
        ∧ (∀ i, i < rows → ∀ e, (e + 1) * w ≤ s.maxBits → t.elem (d.toNat + i) w e =
          if s.hart.vstart ≤ e ∧ e < k then
            (if s.active m e then (f i e).1 % 2 ^ w else if s.hart.mp then 0 else s.elem (d.toNat + i) w e)
          else s.elem (d.toNat + i) w e)
        ∧ ∀ n, ¬ (d.toNat ≤ n ∧ n < d.toNat + rows) → t.reg n = s.reg n

/-- R200, R201: a compare writes the mask bits of row 0, bit e of register d. -/
def Obligations.CompareResults : Prop :=
  CompareResult .veq tyIFR (fun c => c == 0) false false
  ∧ CompareResult .vne tyIFR (fun c => c != 0) false true
  ∧ CompareResult .vlt tyIF (fun c => decide (c < 0)) true false
  ∧ CompareResult .vle tyIF (fun c => decide (c ≤ 0)) true false
  ∧ CompareResult .vgt tyIF (fun c => decide (0 < c)) true false
  ∧ CompareResult .vge tyIF (fun c => decide (0 ≤ c)) true false
  ∧ CompareResult .vunord tyF (fun _ => false) false true

/-- R205, R209: mask algebra, bit by bit, and `vid`, which writes each position's index. R206: `mpop` counts the set
bits, `mffs` and `mfls` find the first and the last, −1 with none; the scalar register, `VSTART` and the program
counter change and nothing else. R207 to R209: masks formed from bits at other positions: set before the first and
including the first, the mask shifts up and down by k, and the prefix counts of `iota`. -/
def Obligations.MaskResults : Prop :=
  (∀ (s : State) (m : Bool) (d a b : VReg), s.alone → s.tileOk d.toNat 1 →
     let x := fun e => bit (s.reg a.toNat) e
     let y := fun e => bit (s.reg b.toNat) e
     (s.vectorReady tyAny → s.tileOk a.toNat 1 →
       (s.tileOk b.toNat 1 →
         s.rowZeroResult (.mand d a b) false d 1 (fun e => (x e && y e).toNat)
         ∧ s.rowZeroResult (.mor d a b) false d 1 (fun e => (x e || y e).toNat)
         ∧ s.rowZeroResult (.mxor d a b) false d 1 (fun e => (x e != y e).toNat)
         ∧ s.rowZeroResult (.mandn d a b) false d 1 (fun e => (x e && !y e).toNat)
         ∧ s.rowZeroResult (.morn d a b) false d 1 (fun e => (x e || !y e).toNat))
       ∧ s.rowZeroResult (.mnot m d a) m d 1 (fun e => (!x e).toNat)
       ∧ s.rowZeroResult (.mmv m d a) m d 1 (fun e => (x e).toNat))
     ∧ (s.vectorReady tyI → s.rowZeroResult (.vid m d) m d (etWidth s.hart.et) (fun e => e % 2 ^ etWidth s.hart.et)))
  ∧ (∀ (s : State) (m : Bool) (d : SReg) (a : VReg), s.alone → s.vectorReady tyAny → s.tileOk a.toNat 1 →
      let l := s.setPositions m a.toNat
      let done := fun (v : Word) => Host.Outcome.next (φ := Fault) (ρ := Refusal) { s.wroteNext d v with hart.vstart := 0 }
      exec (.mpop m d a) s = done (word l.length)
      ∧ exec (.mffs m d a) s = done (match l.head? with | some e => word e | none => -1)
      ∧ exec (.mfls m d a) s = done (match l.getLast? with | some e => word e | none => -1))
  ∧ (∀ (s : State) (m : Bool) (d a : VReg) (b : VOperand), s.alone → s.tileOk d.toNat 1 → s.tileOk a.toNat 1 →
      let l := s.setPositions m a.toNat
      let first := l.headD s.hart.vl
      let k := s.amount b
      let w := etWidth s.hart.et
      (s.vectorReady tyAny →
        s.rowZeroResult (.msbf m d a) m d 1 (fun e => (decide (e < first)).toNat)
        ∧ s.rowZeroResult (.msif m d a) m d 1 (fun e => (decide (e ≤ first)).toNat)
        ∧ s.rowZeroResult (.mslu m d a b) m d 1 (fun e => (decide (k ≤ e) && bit (s.reg a.toNat) (e - k)).toNat)
        ∧ s.rowZeroResult (.msld m d a b) m d 1
          (fun e => (decide (e + k < s.hart.vl) && bit (s.reg a.toNat) (e + k)).toNat))
      ∧ (s.vectorReady tyI → s.rowZeroResult (.iota m d a) m d w (fun e => (l.filter (· < e)).length % 2 ^ w)))

/-! ### Permutations, reductions and conversions -/

/-- R211, R191: slides, gather, broadcast and `vrowmv` write F(r, e) to the active positions of every row; a slide up
by k leaves the k lowest elements as they are; an index from `VL` on gathers 0; `vbcast` of an index from `VL` on
raises `INDEX_RANGE` (41) with `TVAL` the index. R212: `vcompr` packs the elements that v0 selects to the low end of
each row, and `vexpand` spreads them back over the selected positions; what is left follows TP, and in `vexpand` the
positions not selected follow MP. With `VL` = 0 nothing is written. R213: single elements. `vmvxs` and `vext` extend
an element into a scalar register; `vmvsx` writes element 0, and the tail after it by TP, when `VSTART` = 0 < `VL`;
`vins` writes the element of the given row-major index, and nothing with `VSTART` ≥ `VL`; an index that is not below
rows × `VL` raises `INDEX_RANGE` (41). -/
def Obligations.PermutationResults : Prop :=
  (∀ (s : State) (m : Bool) (d a c : VReg) (b : VOperand) (r : SReg),
     let rows := s.hart.vrow
     let w := etWidth s.hart.et
     let x := fun i e => s.elem (a.toNat + i) w e
     let k := s.amount b
     let done := fun (i : Instr) (m : Bool) (f : Nat → Nat → Nat) =>
       ∃ t, exec i s = .next t ∧ s.loopDone t m d.toNat rows 1 w 0 fun i e => (f i e, 0)
     s.alone → s.vectorReady tyAny → s.tileOk d.toNat rows →
       (s.tileOk a.toNat rows →
         done (.vslup m d a b) m (fun i e => if e < k then s.elem (d.toNat + i) w e else x i (e - k))
         ∧ done (.vsldn m d a b) m (fun i e => if e + k < s.hart.vl then x i (e + k) else 0)
         ∧ done (.vslup1 m d a r) m (fun i e => if e = 0 then (s.x r).toNat % 2 ^ w else x i (e - 1))
         ∧ done (.vsldn1 m d a r) m (fun i e => if e + 1 = s.hart.vl then (s.x r).toNat % 2 ^ w else x i (e + 1))
         ∧ (s.tileOk c.toNat rows → done (.vrgath m d a c) m fun i e =>
           let j := s.elem (c.toNat + i) w e
           if j < s.hart.vl then x i j else 0)
         ∧ (k < s.hart.vl → done (.vbcast m d a b) m fun i _ => x i k)
         ∧ (s.hart.vl ≤ k → ∃ t, exec (.vbcast m d a b) s = .next t ∧ s.traps t 41 (word k) s.hart.pc))
       ∧ (s.tileOk a.toNat 1 → done (.vrowmv d a) false fun _ e => x 0 e))
  ∧ (∀ (s : State) (d a : VReg),
      let rows := s.hart.vrow
      let w := etWidth s.hart.et
      let chosen := (List.range s.hart.vl).filter fun e => bit (s.reg 0) e
      let done := fun (i : Instr) (f : Nat → Nat → Nat) =>
        (s.hart.vl = 0 → exec i s = .next (s.vectorNext s.hart.v 0 false 0))
        ∧ (0 < s.hart.vl → ∃ t dirty, exec i s = .next t ∧ t = s.vectorNext t.hart.v 0 dirty 0
          ∧ (∀ r, r < rows → ∀ e, (e + 1) * w ≤ s.maxBits → t.elem (d.toNat + r) w e = f r e)
          ∧ ∀ n, ¬ (d.toNat ≤ n ∧ n < d.toNat + rows) → t.reg n = s.reg n)
      s.alone → s.vectorReady tyAny → s.tileOk d.toNat rows → s.tileOk a.toNat rows →
        done (.vcompr d a) (fun r e => match chosen[e]? with
          | some j => s.elem (a.toNat + r) w j
          | none => if s.hart.tp then 0 else s.elem (d.toNat + r) w e)
        ∧ done (.vexpand d a) fun r e =>
          if e < s.hart.vl then
            (if bit (s.reg 0) e then s.elem (a.toNat + r) w (chosen.filter (· < e)).length
              else if s.hart.mp then 0 else s.elem (d.toNat + r) w e)
          else if s.hart.tp then 0 else s.elem (d.toNat + r) w e)
  ∧ (∀ (s : State) (d a : VReg) (r : SReg) (b : VOperand),
      let w := etWidth s.hart.et
      let k := s.amount b
      let read := fun n e => let x := s.elem n w e
        if etSigned s.hart.et then BitVec.ofInt 64 (signed w x) else .ofNat 64 x
      let scalar := fun (v : Word) => Host.Outcome.next (φ := Fault) (ρ := Refusal) { s.wroteNext r v with hart.vstart := 0 }
      let idle := Host.Outcome.next (φ := Fault) (ρ := Refusal) (s.vectorNext s.hart.v 0 false 0)
      let one := fun (t : State) (n j : Nat) => t = s.vectorNext t.hart.v 0 true 0
        ∧ t.elem n w j = (s.x r).toNat % 2 ^ w ∧ ∀ i, i ≠ n → t.reg i = s.reg i
      s.alone → s.vectorReady tyAny →
        (s.tileOk a.toNat 1 → exec (.vmvxs r a) s = scalar (read a.toNat 0))
        ∧ (s.tileOk d.toNat 1 →
          (s.hart.vstart = 0 → 0 < s.hart.vl → ∃ t, exec (.vmvsx d r) s = .next t ∧ one t d.toNat 0
            ∧ ∀ e, 0 < e → (e + 1) * w ≤ s.maxBits → t.elem d.toNat w e = if s.hart.tp then 0 else s.elem d.toNat w e)
          ∧ (0 < s.hart.vstart ∨ s.hart.vl = 0 → exec (.vmvsx d r) s = idle))
        ∧ (s.tileOk a.toNat s.hart.vrow →
          (k < s.hart.vrow * s.hart.vl →
            exec (.vext r a b) s = scalar (read (a.toNat + k / s.hart.vl) (k % s.hart.vl)))
          ∧ (s.hart.vrow * s.hart.vl ≤ k → ∃ t, exec (.vext r a b) s = .next t ∧ s.traps t 41 (word k) s.hart.pc))
        ∧ (s.tileOk d.toNat s.hart.vrow → k < s.hart.vrow * s.hart.vl →
          (s.hart.vstart < s.hart.vl → ∃ t, exec (.vins d r b) s = .next t ∧ one t (d.toNat + k / s.hart.vl) (k % s.hart.vl)
            ∧ ∀ e, e ≠ k % s.hart.vl → t.elem (d.toNat + k / s.hart.vl) w e = s.elem (d.toNat + k / s.hart.vl) w e)
          ∧ (s.hart.vl ≤ s.hart.vstart → exec (.vins d r b) s = idle)))

/-- R214, R215, R52, R53: every reduction of row 0. The value and the flags are those of the instruction's order over
the active elements and the initial value; element 0 is written and the elements after it follow TP; an enabled flag
traps with `TVAL` = 0 and writes nothing; `VSTART` ≥ `VL` writes nothing. R52, R53 on integers: whatever the order,
the tree sum and the sequential sum are the initial value and the sum of the elements present, modulo 2^w, with no
flag and no step of the LFSR. -/
def Obligations.ReductionResults : Prop :=
  (∀ (s : State) (m : Bool) (d a : VReg) (b : VOperand),
     let w := etWidth s.hart.et
     let leaves := (List.range s.hart.vl).map fun e =>
       if s.hart.vstart ≤ e ∧ s.active m e = true then some (s.elem a.toNat w e) else none
     s.alone → s.tileOk d.toNat 1 → s.tileOk a.toNat 1 → s.operandOk b 1 →
     ∀ p ∈ [(Instr.vrsum m d a b, tyIFR, combineTree), (.vrosum m d a b, tyIFR, combineOrder),
         (.vrmax m d a b, tyIF, combineExtremum true), (.vrmin m d a b, tyIF, combineExtremum false),
         (.vrand m d a b, tyI, combineBits (· &&& ·)), (.vror m d a b, tyI, combineBits (· ||| ·)),
         (.vrxor m d a b, tyI, combineBits (· ^^^ ·))],
       s.vectorReady p.2.1 →
       let r := p.2.2 s.hart.et (frmRM s.hart.frm) ⟨s.hart.srseed.toNat, 0⟩ (s.opB s.hart.et false b 0 0) leaves
       (s.hart.vl ≤ s.hart.vstart → exec p.1 s = .next (s.vectorNext s.hart.v 0 false 0))
       ∧ (s.hart.vstart < s.hart.vl →
         (∀ c, flagCause s.hart.frm r.1.flags = some c → ∃ t, exec p.1 s = .next t ∧ s.traps t c 0 s.hart.pc)
         ∧ (flagCause s.hart.frm r.1.flags = none → ∃ t, exec p.1 s = .next t
           ∧ t = { s.vectorNext t.hart.v r.1.flags true 0 with hart.srseed := .ofNat 32 r.1.lfsr }
           ∧ t.elem d.toNat w 0 = r.2 % 2 ^ w
           ∧ (∀ e, 0 < e → (e + 1) * w ≤ s.maxBits → t.elem d.toNat w e = if s.hart.tp then 0 else s.elem d.toNat w e)
           ∧ ∀ n, n ≠ d.toNat → t.reg n = s.reg n)))
  ∧ (∀ (et rm init : Nat) (c : Sum) (l : List (Option Nat)), et < 8 →
      let total := (init + l.reduceOption.sum) % 2 ^ etWidth et
      (combineTree et rm c init l = (c, total))
      ∧ (init < 2 ^ etWidth et → combineOrder et rm c init l = (c, total)))

/-- R217 to R220, R222, R223, R46: the element-wise conversions: a source element of row r, scaled by its block's
scale where the operation reads scales, is rounded once into the type in force. A scale 0xFF of a block with an active
element raises `SCALE_NAN` (39) with `TVAL` its index and writes nothing. R221: `vqmx` scales each block of row 0 by
the power of two of its greatest magnitude, rounds every active element with that scale into a narrow type, and writes
the scales, byte i for block i, to v1; the tails follow TP. A destination v1 raises `REG_MISALIGNED` (4) with `TVAL` =
1. -/
def Obligations.ConversionResults : Prop :=
  (∀ (s : State) (m : Bool) (d a : VReg) (ty : TypeCode),
     let et := s.hart.et
     let src := ty.toNat
     let rows := s.hart.vrow
     let q := srcRegs (etWidth src) (etWidth et)
     let done := fun (i : Instr) (pair : Nat → Bool) (scaled : Bool) (steps : Nat) (f : Nat → Nat → Nat → Int → Nat × Nat) =>
       let g := fun r e => f r e (s.wideElem a q (etWidth src) r e)
         (if scaled then (s.scaleByte (s.scaleIndex r e) : Int) - 127 else 0)
       let nan := if scaled then s.scaleNan m rows s.hart.vstart s.hart.vl else none
       s.vectorReady pair →
         (nan = none → s.untrapped m rows g →
           ∃ t, exec i s = .next t ∧ s.loopDone t m d.toNat rows 1 (etWidth et) steps g)
         ∧ ∀ n, nan = some n → s.hart.vstart < s.hart.vl → ∃ t, exec i s = .next t ∧ s.traps t 39 (word n) s.hart.pc
     let scaled := decide (s.hart.sb ≠ 0) && (etNarrow src || src == 18)
     let plain := cvI src && cvI et && !scaled
     let rounds := fun rm => rm == 5 && decide (et ≠ 17)
     let cvt := fun rm r e x k => if plain then (wrap (etWidth et) (intOf src x), 0)
       else toType et rm (s.lfsrAt (rounds rm) r e) (frmSATN s.hart.frm) ((valueOf src x).scale k)
     let rm := frmRM s.hart.frm
     s.alone → s.tileOk d.toNat rows → s.tileOk a.toNat (rows * q) →
       done (.vcvt m d a ty) (fun et => cvtPair src et) scaled (if rounds rm && s.sr then rows * s.hart.vl else 0) (cvt rm)
       ∧ done (.vcvtr m d a ty) (fun et => cvtPair src et) scaled 0 (cvt 1)
       ∧ (let value := fun x (k : Int) => (FVal.fin (decide (rnsValue src x < 0)) (rnsValue src x).natAbs 0 false).scale k
         let lost := fun r e => s.active m e && inexactInto et (value (s.wideElem a q (etWidth src) r e)
           (if s.hart.sb ≠ 0 then (s.scaleByte (s.scaleIndex r e) : Int) - 127 else 0))
         let upto := fun r e => if s.sr then countBefore s.hart.vl r e lost else 0
         s.note = none → done (.vrnsx m d a ty) (fun et => etRns src && ((2 ≤ et && et ≤ 7) || etFloat et)) (decide (s.hart.sb ≠ 0))
           (upto rows 0) fun r e x k =>
             let c := toType et rm (if s.sr then lfsrSteps s.hart.srseed.toNat (upto r e) else 0) (frmSATN s.hart.frm) (value x k)
             (c.1, c.2 ||| rnsFlag src x))
       ∧ done (.vrnsi m d a ty) (fun et => etInt src && etRns et) false 0 fun _ _ x _ =>
         let v := intOf src x
         (rnsOfInt et v, if v < -(rnsM et / 2 : Int) ∨ (rnsM et / 2 : Int) ≤ v then fSAT else 0))
  ∧ (∀ (s : State) (m : Bool) (d a : VReg) (ty : TypeCode),
      let et := s.hart.et
      let src := ty.toNat
      let w := etWidth et
      let q := srcRegs (etWidth src) w
      let sb := s.hart.sb
      let x := fun e => (fmtOf src).decode (s.wideElem a q (etWidth src) 0 e)
      let scale := fun i => blockScale et (((((List.range (min sb (s.hart.vl - i * sb))).map (· + i * sb))).filter
        fun e => decide (s.hart.vstart ≤ e) && s.active m e).map x)
      let f := fun e => if scale (e / sb) = 0xFF then quantiseNan et
        else quantise et (frmRM s.hart.frm) (s.lfsrAt true 0 e) ((x e).scale (127 - (scale (e / sb) : Int)))
      let n := ceilDiv s.hart.vl sb
      let fl := s.loopFlags 1 s.hart.vstart s.hart.vl m (fun _ e => (f e).2)
        ||| if ((List.range n).map scale).contains 0xFF then 1 else 0
      s.alone → s.vectorReady (fun et => (etNarrow et || et == 18 || et == 0) && etFloat src && decide (s.hart.sb ≠ 0)) →
      s.tileOk d.toNat 1 → s.tileOk a.toNat q →
        (d = 1 → ∃ t, exec (.vqmx m d a ty) s = .next t ∧ s.traps t 4 1 s.hart.pc)
        ∧ (d ≠ 1 → s.hart.vl ≤ s.hart.vstart → exec (.vqmx m d a ty) s = .next (s.vectorNext s.hart.v 0 false 0))
        ∧ (d ≠ 1 → s.hart.vstart < s.hart.vl → flagCause s.hart.frm fl = none → ∃ t, exec (.vqmx m d a ty) s = .next t
          ∧ t = s.vectorNext t.hart.v fl true (if s.sr then s.hart.vl else 0)
          ∧ (∀ e, (e + 1) * w ≤ s.maxBits → t.elem d.toNat w e =
            if e < s.hart.vstart then s.elem d.toNat w e
            else if e < s.hart.vl then
              (if s.active m e then (f e).1 % 2 ^ w else if s.hart.mp then 0 else s.elem d.toNat w e)
            else if s.hart.tp then 0 else s.elem d.toNat w e)
          ∧ (∀ i, (i + 1) * 8 ≤ s.maxBits → t.elem 1 8 i =
            if i < n then scale i else if s.hart.tp then 0 else s.elem 1 8 i)
          ∧ ∀ k, k ≠ d.toNat → k ≠ 1 → t.reg k = s.reg k))

/-! ### Vector memory accesses -/

/-- R56, R225, R226, R57: where an element access goes. In global memory the offset is added to S(a) and translated,
here with translation off, within the partition's bounds; in the scratchpad it is added to the 25-bit address of S(a); lane-private accesses go to
the lane's own SRAM of the hart's core. A misaligned address raises `MISALIGNED` (22) with `TVAL` the address. R225:
the offset of element e of row r: elements follow each other row by row, a strided form steps by S(b), an indexed one
adds its signed index counted in elements; elements of 4 bits lie two to a byte, the even one low. -/
def Obligations.ElementAddresses : Prop :=
  (∀ (s : State) (k : Acc) (a : SReg) (n : Nat) (off laneOff : Int) (lane : Nat), 0 < n →
     let p := s.x a + .ofInt 64 off
     let x := ((s.x a).toNat % 2 ^ 25 : Int) + off
     let o := s.x a + .ofInt 64 laneOff
     (p.toNat % n ≠ 0 → (spotAt k .global a n off lane laneOff).go s = (.error (.trap ⟨22, p, 0⟩), s))
     ∧ (p.toNat % n = 0 → p.toNat < 2 ^ 44 → bitOf s.hart.ptb 0 = false → s.backed p.toNat = true →
         holds s.part.regions p.toNat = true → s.copies = [] → s.hart.dcmp = [] →
         (k.reads = true → s.isBad (.glob (s.endpt.toNat * 2 ^ 44 + p.toNat)) n = false) →
         (spotAt k .global a n off lane laneOff).go s
           = (.ok (.home ⟨.glob (s.endpt.toNat * 2 ^ 44 + p.toNat), p, false, 0⟩), s))
     ∧ (x % n ≠ 0 → (spotAt k .spad a n off lane laneOff).go s = (.error (.trap ⟨22, .ofInt 64 x, 0⟩), s))
     ∧ (o.toNat % n ≠ 0 → (spotAt k .lane a n off lane laneOff).go s = (.error (.trap ⟨22, o, 0⟩), s))
     ∧ (o.toNat % n = 0 → o.toNat + n ≤ 0x2000 →
         (spotAt k .lane a n off lane laneOff).go s = (.ok (.lane (laneKey (s.hart.id / 4) lane o.toNat)), s))
     ∧ (o.toNat % n = 0 → 0x2000 < o.toNat + n →
         (spotAt k .lane a n off lane laneOff).go s = (.error (.trap ⟨26, o, 0⟩), s)))
  ∧ (∀ (s : State) (b : SReg) (c : VReg) (w r e : Nat),
      let n := r * s.hart.vl + e
      (w ≠ 4 → s.offset .unit w r e = (((n * max 1 (w / 8) : Nat) : Int), none))
      ∧ s.offset .unit 4 r e = (((n / 2 : Nat) : Int), some (decide (n % 2 = 1)))
      ∧ s.offset (.strided b) w r e = ((n : Int) * (s.x b).toInt, none)
      ∧ (w ≠ 4 → s.offset (.indexed c) w r e = (s.indexAt c.toNat w r e * (max 1 (w / 8) : Nat), none))
      ∧ (s.offset (.indexed c) 4 r e).1 = s.indexAt c.toNat 4 r e / 2)

/-- R228, R231, R191: the vector loads, with nothing under way and every endpoint answering. Each active element takes the bytes
of its access, masked-off elements follow MP, the tail follows TP; an acquire at CORE scope or wider empties the L1; with
`VSTART` ≥ `VL` no element is loaded. Nothing else changes. -/
def Obligations.VectorLoads : Prop :=
  ∀ (s u : State) (m : Bool) (v c : VReg) (a b : SReg) (sp : Space) (sc : Scope) (o : Order) (l : List Access),
    let w := etWidth s.hart.et
    let rows := s.hart.vrow
    s.alone → s.vectorReady tyAny → (sp = .lane → s.hart.status.ls ≠ .off) → s.tileOk v.toNat rows → o.releases = false →
    s.settled → (o.acquires = true → s.noneReleased) →
    ∀ p ∈ [(Instr.vld m v a sp sc o, Form.unit), (.vlds m v a b sp sc o, .strided b), (.vldx m v a c sp sc o, .indexed c)],
      s.formOk p.2 →
      (s.hart.vl ≤ s.hart.vstart →
        exec p.1 s = .next { s.vectorNext s.hart.v 0 false 0 with hart.l1 := s.l1After o sc })
      ∧ (s.hart.vstart < s.hart.vl → s.resolves m rows (fun k => placeElem k sp a p.2 v.toNat w) .load u l →
        ∃ t dirty, exec p.1 s = .next t
          ∧ t = { u.vectorNext t.hart.v 0 dirty 0 with
            hart.l1 := u.l1After o sc
            hart.flying := t.hart.flying }
          ∧ (∀ x ∈ l, t.elem x.reg w x.idx = u.accessRead x w)
          ∧ (∀ r, r < rows → ∀ e, s.hart.vstart ≤ e → e < s.hart.vl → s.active m e = true →
            ∃ x ∈ l, x.reg = v.toNat + r ∧ x.idx = e)
          ∧ (∀ r, r < rows → ∀ e, (e + 1) * w ≤ s.maxBits →
            ¬ (s.hart.vstart ≤ e ∧ e < s.hart.vl ∧ s.active m e = true) →
            t.elem (v.toNat + r) w e =
              if (s.hart.vstart ≤ e ∧ e < s.hart.vl ∧ s.hart.mp = true) ∨ (s.hart.vl ≤ e ∧ s.hart.tp = true) then 0
              else s.elem (v.toNat + r) w e)
          ∧ ∀ n, ¬ (v.toNat ≤ n ∧ n < v.toNat + rows) → t.reg n = s.reg n)

/-- R229, R231, R104: the vector stores, with nothing else under way. After the release, each active element is stored at its
access, at once or once its train is acknowledged; no register changes, and outside the hub window no byte that no access
covers. A store to lane-private SRAM makes LS Dirty (R323). -/
def Obligations.VectorStores : Prop :=
  ∀ (s z u : State) (m : Bool) (v c : VReg) (a b : SReg) (sp : Space) (sc : Scope) (o : Order) (l : List Access),
    let w := etWidth s.hart.et
    let rows := s.hart.vrow
    s.alone → s.vectorReady tyAny → (sp = .lane → s.hart.status.ls ≠ .off) → s.tileOk v.toNat rows → o.acquires = false →
    (releaseCheck o sc).go s = (.ok (), z) → z.alone → z.settled →
    ∀ p ∈ [(Instr.vst m v a sp sc o, Form.unit), (.vsts m v a b sp sc o, .strided b), (.vstx m v a c sp sc o, .indexed c)],
      s.formOk p.2 →
      (z.hart.vl ≤ z.hart.vstart → exec p.1 s = .next (z.vectorNext z.hart.v 0 false 0))
      ∧ (z.hart.vstart < z.hart.vl → z.resolves m rows (fun k => placeElem k sp a p.2 v.toNat w) .store u l →
        (∀ x ∈ l, u.plainSpot x.spot) → u.canonical →
        ∃ t, exec p.1 s = .next t
          ∧ t = { u.vectorNext u.hart.v 0 false 0 with
            mem := t.mem
            spad := t.spad
            lane := t.lane
            badMem := t.badMem
            badSpad := t.badSpad
            trains := t.trains
            hart.status.ls := if sp = .lane ∧ l ≠ [] then .dirty else u.hart.status.ls }
          ∧ storesDone u t w l fun x => z.elem x.reg w x.idx)

/-- R230, R231: whole registers, in units of 64 bits from unit `VSTART` on, with nothing else under way; stores are there once their
trains are acknowledged (R104). -/
def Obligations.WholeRegisterMoves : Prop :=
  ∀ (s z u : State) (v : VReg) (a : SReg) (sp : Space) (sc : Scope) (o : Order) (l : List Access),
    s.alone → s.vectorReady tyAny → (sp = .lane → s.hart.priv = .user → s.hart.status.ls ≠ .off) →
    s.tileOk v.toNat s.hart.vrow →
      (o.releases = false → s.settled → (o.acquires = true → s.noneReleased) →
        (s.units ≤ s.hart.vstart →
          exec (.vldr v a sp sc o) s = .next { s.vectorNext s.hart.v 0 false 0 with hart.l1 := s.l1After o sc })
        ∧ (s.hart.vstart < s.units → s.resolvesUnits (fun k => placeUnit k sp a v.toNat) .load u l →
          ∃ t, exec (.vldr v a sp sc o) s = .next t
            ∧ t = { u.vectorNext t.hart.v 0 true 0 with
              hart.l1 := u.l1After o sc
              hart.flying := t.hart.flying }
            ∧ (∀ x ∈ l, t.elem x.reg 64 x.idx = u.accessRead x 64)
            ∧ ∀ r i, (∀ x ∈ l, ¬ (x.reg = r ∧ x.idx = i)) → t.elem r 64 i = u.elem r 64 i))
      ∧ (o.acquires = false → (releaseCheck o sc).go s = (.ok (), z) → z.alone → z.settled →
        (z.units ≤ z.hart.vstart → exec (.vstr v a sp sc o) s = .next (z.vectorNext z.hart.v 0 false 0))
        ∧ (z.hart.vstart < z.units → z.resolvesUnits (fun k => placeUnit k sp a v.toNat) .store u l →
          (∀ x ∈ l, u.plainSpot x.spot) → u.canonical →
          ∃ t, exec (.vstr v a sp sc o) s = .next t
            ∧ t = { u.vectorNext u.hart.v 0 false 0 with
              mem := t.mem
              spad := t.spad
              lane := t.lane
              badMem := t.badMem
              badSpad := t.badSpad
              trains := t.trains
              hart.status.ls := t.hart.status.ls }
            ∧ storesDone u t 64 l fun x => z.elem x.reg 64 x.idx))

/-- R68, R69, R345: an element that faults. A load whose lowest faulting element k is above `VSTART` completes with
`VL` = k, its elements below k loaded; one that faults at `VSTART`, and a store at any element, traps at that element:
`VSTART` = k. -/
def Obligations.FaultingElements : Prop :=
  ∀ (s u : State) (m : Bool) (v : VReg) (a : SReg) (sp : Space) (sc : Scope) (l : List Access) (k : Nat) (c : Trap),
    let w := etWidth s.hart.et
    let rows := s.hart.vrow
    let meets := fun (kind : Acc) => resolveElems (s.active m) (List.range rows) (fun k => placeElem k sp a .unit v.toNat w)
      kind (spanList s.hart.vstart s.hart.vl) s [] = (u, l, some (k, .trap c))
    s.alone → s.vectorReady tyAny → (sp = .lane → s.hart.status.ls ≠ .off) → s.tileOk v.toNat rows → s.settled →
      (meets .load → s.hart.vstart < k → ∃ t, exec (.vld m v a sp sc .none) s = .next t
        ∧ t.hart.vl = k ∧ t.hart.vstart = 0 ∧ t.hart.pc = u.hart.pc + 4
        ∧ ∀ x ∈ l, t.elem x.reg w x.idx = u.accessRead x w)
      ∧ (meets .load → s.hart.vstart = k → ∃ t, exec (.vld m v a sp sc .none) s = .next t
        ∧ t.hart.cause = (if 74 ≤ c.code ∧ c.code ≤ 95 then 0x8000000000000000 + .ofNat 64 c.code else .ofNat 64 c.code)
        ∧ t.hart.tval = c.tval ∧ t.hart.vstart = k ∧ t.hart.status.cvr = false)
      ∧ (meets .store → ∃ t, exec (.vst m v a sp sc .none) s = .next t
        ∧ t.hart.cause = (if 74 ≤ c.code ∧ c.code ≤ 95 then 0x8000000000000000 + .ofNat 64 c.code else .ofNat 64 c.code)
        ∧ t.hart.tval = c.tval ∧ t.hart.vstart = k ∧ t.hart.status.cvr = decide (s.hart.vstart < k))

/-! ### Atomics, reductions at memory, collective accesses -/

/-- R234 to R237, R231, R104: `vamo` and `vsca` over accesses that are apart, with nothing else under way: each address takes
old ⊕ new under `COP`, for `vsca` at once or once its train is acknowledged, `vamo` returns the old values in the active
elements and leaves the others, and no other byte changes. R234, R237: the
checks of VAMO that come before any element: lane-private SRAM raises `ATOMIC_SPACE` (29) with `TVAL` the pointer, and
a reserved operator `COLLECTIVE_CONFIG` (42). R235: values of `vsca` that address one element are combined in
ascending position first, and the address is updated once. -/
def Obligations.VectorAtomics : Prop :=
  (∀ (s z u : State) (m : Bool) (v b : VReg) (a : SReg) (sp : Space) (sc : Scope) (o : Order) (l : List Access),
     let et := s.hart.et
     let w := etWidth et
     let rows := s.hart.vrow
     let op := s.hart.copOp
     let combined := fun (t : State) => bytesBut u t (elemBytes w) l ∧ ∀ x ∈ l, t.accessRead x w
       = (combineOp op et (frmRM s.hart.frm) (u.accessRead x w) (z.elem x.reg w x.idx)).1 % 2 ^ w
     s.alone → s.tileOk v.toNat rows → s.formOk (.indexed b) → sp ≠ .lane → op ≤ 6 →
     s.rnsTrap m v.toNat rows = none → (releaseCheck o sc).go s = (.ok (), z) → z.alone → z.settled →
     z.rnsTrap m v.toNat rows = none → z.hart.copOp = op → z.hart.frm = s.hart.frm → z.hart.vstart < z.hart.vl →
     z.resolves m rows (fun k => placeElem k sp a (.indexed b) v.toNat w) .atomic u l → (∀ x ∈ l, u.plainSpot x.spot) → u.canonical →
     apart (elemBytes w) l → (o.acquires = true → u.noneReleased) →
       (s.vectorReady (vamoType op) → ∃ t fl dirty, exec (.vamo m v a b sp sc o) s = .next t
         ∧ t = { u.vectorNext t.hart.v fl dirty 0 with
           mem := t.mem
           spad := t.spad
           badMem := t.badMem
           badSpad := t.badSpad
           hart.l1 := u.l1After o sc
           hart.flying := t.hart.flying }
         ∧ combined t ∧ (∀ x ∈ l, t.elem x.reg w x.idx = u.accessRead x w)
         ∧ ∀ n i, (∀ x ∈ l, ¬ (x.reg = n ∧ x.idx = i)) → t.elem n w i = u.elem n w i)
       ∧ (s.vectorReady (vscaType op) → ∃ t fl, exec (.vsca m v a b sp sc o) s = .next t
         ∧ t = { u.vectorNext u.hart.v fl false 0 with
           mem := t.mem
           spad := t.spad
           badMem := t.badMem
           badSpad := t.badSpad
           trains := t.trains
           hart.l1 := u.l1After o sc }
         ∧ combined t.ackTrains))
  ∧ (∀ (s : State) (m : Bool) (v b : VReg) (a : SReg) (sc : Scope),
      s.alone → s.tileOk v.toNat s.hart.vrow → s.formOk (.indexed b) → s.vectorReady (vamoType s.hart.copOp) →
        (s.hart.status.ls ≠ .off → ∃ t, exec (.vamo m v a b .lane sc .none) s = .next t ∧ s.traps t 29 (s.x a) 0)
        ∧ (7 ≤ s.hart.copOp → ∃ t, exec (.vamo m v a b .global sc .none) s = .next t ∧ s.traps t 42 0 s.hart.pc))
  ∧ (∀ (s regs : State) (op et w : Nat) (x y : Access) (q : Phys), x.spot = .home q → x.same y = true → s.canonical →
      s.settled → s.answering (s.homeDie q.loc).1 = true → (∀ i, i < elemBytes w → s.plainPlace (q.loc.plus i)) →
      let rm := frmRM s.hart.frm
      let v := fun (z : Access) => regs.elem z.reg w z.idx
      let t := (s.combineRange regs op et w [x, y]).1.ackTrains
      t.accessRead x w = (combineOp op et rm (s.accessRead x w) ((combineOp op et rm (v x) (v y)).1 % 2 ^ w)).1 % 2 ^ w
        ∧ bytesBut s t (elemBytes w) [x])

/-- R238, R46, R104: `vrrs`, with nothing else under way, adds each active element, scaled by its block, to the destination
element of type AT at S(a) + n × wa with one rounding; over accesses that are apart each address holds its update once the
trains are acknowledged, and no other byte changes. A base that is no multiple of wa raises `MISALIGNED` (22) with `TVAL` the
address of element `VSTART`. R239, R436, R94: `vrrsq`, after its order field's release, sends the active elements of its tile
as the member's contribution to the cask at S(a), each to the slot r × `VL` + e: when no check of R128 fails and the home's
slots take it, the instruction completes with what the cask then holds. A pointer that is no multiple of 64 raises
`CASK_ALIGNMENT` (57), with `VSTART` = `VL`, and no register changes. -/
def Obligations.ContributingInstructions : Prop :=
  (∀ (s z u : State) (m : Bool) (v : VReg) (a : SReg) (sc : Scope) (o : Order) (l : List Access),
     let et := s.hart.et
     let rows := s.hart.vrow
     let scaled := decide (s.hart.sb ≠ 0)
     let ta := atType s.hart.at_
     let wa := etWidth ta / 8
     let op := s.hart.copOp
     let first := z.x a + .ofNat 64 (z.hart.vstart * wa)
     let place := fun (k : Acc) (r e : Nat) => (do
       let n := r * z.hart.vl + e
       let spot ← spotAt k .global a wa (n * wa : Nat) 0 0
       pure { pos := n, elem := e, reg := v.toNat + r, idx := e, spot := spot } : M Access)
     s.alone → s.vectorReady (fun et => vrrsPair s.hart.at_ et s.hart.sb) → s.tileOk v.toNat rows → o.acquires = false →
     (op ≤ 3 ∨ (op ≤ 6 ∧ ta = 4)) → s.scaleTrap m rows = none → (releaseCheck o sc).go s = (.ok (), z) → z.alone →
     z.settled → z.scaleTrap m rows = none → z.hart.vstart < z.hart.vl →
       (first.toNat % wa = 0 → z.resolves m rows place .atomic u l → (∀ x ∈ l, u.plainSpot x.spot) → u.canonical →
         apart wa l → ∃ t fl, exec (.vrrs m v a sc o) s = .next t
           ∧ t = { u.vectorNext u.hart.v fl false 0 with
             mem := t.mem
             spad := t.spad
             badMem := t.badMem
             badSpad := t.badSpad
             trains := t.trains }
           ∧ bytesBut u t.ackTrains wa l
           ∧ ∀ x ∈ l, t.ackTrains.accessRead x (8 * wa)
             = (reduceInto op ta et (u.accessRead x (8 * wa)) (z.elem x.reg (etWidth et) x.idx)
                 (if scaled then (z.scaleByte (z.scaleIndex (x.reg - v.toNat) x.elem) : Int) - 127 else 0)).1 % 2 ^ (8 * wa))
       ∧ (o = .none → first.toNat % wa ≠ 0 → ∃ t, exec (.vrrs m v a sc o) s = .next t ∧ s.traps t 22 first 0))
  ∧ (∀ (s z u x w : State) (m : Bool) (v : VReg) (a : SReg) (sc : Scope) (o : Order) (l : Loc) (e : Member),
      let rows := s.hart.vrow
      let items := s.contributions m v.toNat rows (fun r e => r * s.hart.vl + e) 0 s.hart.vl
      let c := ((w.tidy l).contribute l e.index e.tag items).1
      s.alone → s.vectorReady tyAny → s.tileOk v.toNat rows → o.acquires = false →
        ((if o.releases = true then (release sc).go s = (.ok (), z) else z = s) →
          (caskPlace (s.x a) 0 .train).go z = (.ok l, u) → s.hart.entry l = some e →
          (s.hart.sb ≠ 0 → s.scaleNan m rows 0 s.hart.vl = none) →
          u.contributes (s.x a) l 3 e (rows * s.hart.vl) items x w →
          exec (.vrrsq m v a sc o) s = .next (c.vectorNext c.hart.v 0 false 0))
        ∧ ((s.x a).toNat % 64 ≠ 0 → o = .none → bitOf s.hart.ptb 0 = false → (s.x a).toNat < 2 ^ 44 →
          s.backed (s.x a).toNat = true → holds s.part.regions (s.x a).toNat = true →
          ∃ t, exec (.vrrsq m v a sc o) s = .next t ∧ t.hart.cause = 57 ∧ t.hart.tval = s.x a ∧ t.hart.vstart = s.hart.vl
            ∧ t.hart.status.cvr = decide (s.hart.vstart < s.hart.vl) ∧ t.hart.v = s.hart.v))

/-- R135, R136, R233, R106, R44: the collective-mode accesses under CM = 1 with a well-formed group, with nothing else under way.
`vldc` combines the members' elements with one rounding, or takes the first member's with `COP`.OP = COPY, and stops at the first
element that raises a flag whose trap is enabled; `vstc` with COPY
and b = 0 stores the element at every member, in the order of the root with SEQ = 1, once the trains are acknowledged; and
otherwise it sends the elements to the round of the cask at S(b) and leaves its chunk addresses there if the home takes them.
Without CM they raise
`COLLECTIVE_CONFIG` (42). -/
def Obligations.CollectiveAccesses : Prop :=
  ∀ (s z u : State) (m : Bool) (v : VReg) (a b : SReg) (sc : Scope) (o : Order) (l : List Access),
    let et := s.hart.et
    let w := etWidth et
    let rows := s.hart.vrow
    let op := s.hart.copOp
    let members := if op = 0 then s.hart.group.take 1 else s.hart.group
    let spread := l.flatMap fun x => s.hart.group.map x.atMember
    s.alone → s.vectorReady tyAny → s.tileOk v.toNat rows → s.groupOk = true →
      (s.hart.cm = false →
        (o.releases = false → ∃ t, exec (.vldc m v a b sc o) s = .next t ∧ s.traps t 42 0 s.hart.pc)
        ∧ (o.acquires = false → ∃ t, exec (.vstc m v a b sc o) s = .next t ∧ s.traps t 42 0 s.hart.pc))
      ∧ (s.hart.cm = true → ¬ (op = 0 ∧ b ≠ 0) → s.hart.vstart < s.hart.vl →
        (o.releases = false → s.settled → (o.acquires = true → s.noneReleased) →
          s.resolves m rows (fun k => placeShared k a members v.toNat w) .load u l →
          let value := fun (x : Access) => combineShared op et (members.map fun g => u.accessRead (x.atMember g) w)
          (∀ pre x post c, l = pre ++ x :: post → (∀ y ∈ pre, flagCause s.hart.frm (value y).2 = none) →
            flagCause s.hart.frm (value x).2 = some c → ∃ t, exec (.vldc m v a b sc o) s = .next t
              ∧ t.hart.cause = word c ∧ t.hart.tval = word x.elem ∧ t.hart.vstart = x.elem)
          ∧ ((∀ x ∈ l, flagCause s.hart.frm (value x).2 = none) → ∃ t fl dirty, exec (.vldc m v a b sc o) s = .next t
            ∧ t = { u.vectorNext t.hart.v fl dirty 0 with
              hart.l1 := u.l1After o sc
              hart.flying := t.hart.flying }
            ∧ ∀ x ∈ l, t.elem x.reg w x.idx = (value x).1 % 2 ^ w))
        ∧ (o.acquires = false → (releaseCheck o sc).go s = (.ok (), z) → z.alone → z.settled → z.hart.copOp = op →
          z.hart.group = s.hart.group → z.hart.vstart < z.hart.vl →
          (op = 0 → z.resolves m rows (fun k => placeShared k a s.hart.group v.toNat w) .store u l →
            (∀ x ∈ spread, u.plainSpot x.spot) → u.canonical → apart (elemBytes w) spread →
            ∃ t, exec (.vstc m v a b sc o) s = .next t
              ∧ t = { u.vectorNext u.hart.v 0 false 0 with
                mem := t.mem
                badMem := t.badMem
                trains := t.trains }
              ∧ bytesBut u t.ackTrains (elemBytes w) spread
              ∧ ∀ x ∈ l, ∀ g ∈ s.hart.group, t.ackTrains.accessRead (x.atMember g) w = z.elem x.reg w x.idx)
          ∧ (op ≠ 0 → z.resolves m rows (fun k => placeShared k a [] v.toNat w) .store u l → l ≠ [] →
            ∀ (own : Phys) (pa : Nat) (y c x n : State) (cask : Loc) (e : Member),
              let k := byPosition rows z.hart.vl l
              let first := u.firstSlot w pa
              let items := u.sharedItems w first k
              let r := ((n.tidy cask).contribute cask e.index e.tag items).1
              let t := if (n.tidy cask).takes cask e.index e.tag then r.awaitChunks cask (u.chunkTargets w e.index first k) else r
              (resolveVirtual u.ctx .store (u.x a) .train).go u = (.ok own, y) → own.loc = .glob pa →
              (caskPlace (u.x b) 64 .train).go y = (.ok cask, c) → u.hart.entry cask = some e →
              c.contributes (u.x b) cask 6 e (slotsUsed items) items x n →
              exec (.vstc m v a b sc o) s = .next (t.vectorNext t.hart.v 0 false 0))))

/-! ### Tag tables, tiles and the matrix engine -/

/-- R63, R64, R240, R241: the scratchpad tag table of the hart's core. A slot from 768 on raises `SCRATCH_RANGE` (24)
with `TVAL` the operand. `sptl` finds the lowest slot that holds the address in the hart's address space, or −1;
`spti` installs an entry, gives the old one, and takes V from any other slot of the same address; `spte` clears V and
D; `sptc` sets or clears D of a valid entry; `sptr` reads. At U a valid entry of another address space is seen as 0.
R242, R243, R244: memory-tag locks. `stag` over one granule of a tagged page drains the store buffer, lets what has been checked
against the granule's lock be performed (log 119), and sets that lock to S(b)[3:0] and no other; a granule of a page that is not tagged raises the access cause (21); `ltag`
gives the pointer with the granule's lock in bits 58:55, and 0 there on an untagged page; a pointer of `stag` that is
no multiple of 32 raises `MISALIGNED` (22). -/
def Obligations.TagTables : Prop :=
  (∀ (s : State) (d a b : SReg),
     let key := fun n => s.hart.id / 4 * 768 + n
     let slot := fun (t : State) n => Tbl.get 0 t.spt (key n)
     let hit := fun (n : Nat) => (slot s n).getLsbD 63 = true ∧ ((slot s n).extractLsb' 48 13) = s.hart.asid
       ∧ (slot s n).extractLsb' 0 44 = (s.x a).extractLsb' 11 44
     let seen := fun (v : Word) => if s.hart.priv = .user ∧ v.getLsbD 63 = true ∧ v.extractLsb' 48 13 ≠ s.hart.asid then 0 else v
     let n := (s.x a).toNat
     s.canonical →
       (∃ v, exec (.sptl d a) s = .next (s.wroteNext d v)
         ∧ ((∀ k, k < 768 → ¬ hit k) → v = -1)
         ∧ ∀ k, k < 768 → hit k → (∀ j, j < k → ¬ hit j) → v = .ofNat 64 k)
       ∧ ((s.x b).toNat < 768 → ∃ t, exec (.spti d a b) s = .next t
         ∧ t = { s.wroteNext d (seen (slot s (s.x b).toNat)) with spt := t.spt }
         ∧ slot t (s.x b).toNat = .ofNat 64 (2 ^ 63 + s.hart.asid.toNat * 2 ^ 48 + (s.x a).toNat / 2 ^ 11 % 2 ^ 44)
         ∧ ∀ k, k < 768 → k ≠ (s.x b).toNat →
           (hit k → slot t k = slot s k &&& 0x7FFFFFFFFFFFFFFF) ∧ (¬ hit k → slot t k = slot s k))
       ∧ (n < 768 →
         (∃ t, exec (.spte d a) s = .next t ∧ t = { s.wroteNext d (seen (slot s n)) with spt := t.spt }
           ∧ slot t n = slot s n &&& 0x3FFFFFFFFFFFFFFF ∧ ∀ k, k ≠ n → slot t k = slot s k)
         ∧ (∃ t, exec (.sptc a b) s = .next t ∧ t = { s.wroteNext 0 0 with spt := t.spt }
           ∧ slot t n = (if (slot s n).getLsbD 63 = true then
             (if (s.x b).getLsbD 0 = true then slot s n ||| 0x4000000000000000 else slot s n &&& 0xBFFFFFFFFFFFFFFF)
             else slot s n)
           ∧ ∀ k, k ≠ n → slot t k = slot s k)
         ∧ exec (.sptr d a) s = .next (s.wroteNext d (seen (slot s n))))
       ∧ (768 ≤ n → ∀ i ∈ [Instr.spte d a, .sptc a b, .sptr d a], ∃ t, exec i s = .next t ∧ s.traps t 24 (s.x a) 0)
       ∧ (768 ≤ (s.x b).toNat → ∃ t, exec (.spti d a b) s = .next t ∧ s.traps t 24 (s.x b) 0))
  ∧ (∀ (s u : State) (d a b : SReg) (pa : Nat) (tagged : Bool), let p := s.x a
      ((lockPlace .load p).go s = (.ok (pa, tagged), u) →
        exec (.ltag d a) s
          = .next (u.wroteNext d (.ofNat 64 (p.toNat % 2 ^ 55 + p.toNat / 2 ^ 59 * 2 ^ 59
            + (if tagged then (u.lockOf pa).toNat else 0) * 2 ^ 55))))
      ∧ (p.toNat % 32 ≠ 0 → ∃ t, exec (.stag a b) s = .next t ∧ s.traps t 22 p 0)
      ∧ (p.toNat % 32 = 0 → s.hart.stall = none → s.drain.hart.buffer = [] →
        (lockPlace .store p).go s.drain = (.ok (pa, tagged), u) →
        let z := u.beforeLock (pa / 32 * 32)
        (tagged = true → (s.x b).toNat / 2 ^ 8 % 2 ^ 8 = 0 → z.canonical → ∃ t, exec (.stag a b) s = .next t
          ∧ t.lockOf pa = (s.x b).setWidth 4 ∧ (∀ q, q / 32 ≠ pa / 32 → t.lockOf q = z.lockOf q)
          ∧ t.hart = (z.wroteNext 0 0).hart ∧ (bitOf z.taghist 0 = false → t = { z.wroteNext 0 0 with locks := t.locks }))
        ∧ (tagged = false → ∃ t, exec (.stag a b) s = .next t ∧ u.traps t 21 p 0))
      ∧ (p.toNat % 32 = 0 → s.hart.stall = none → s.drain.hart.buffer = [] → ((List.range ((s.x b).toNat / 2 ^ 8 % 2 ^ 8 + 1)).forM fun g =>
          setLock (p + .ofNat 64 (32 * g)) ((s.x b).toNat % 16)).go s.drain = (.ok (), u) →
        exec (.stag a b) s = .next (u.wroteNext 0 0)))

/-- R249, R251, R252: `tld` and `tldg` load the units of an image from unit `VSTART` on into tile t, set its TET and
TSB, and make TS Dirty; no other tile and no vector register changes. `tldg` needs a mask of cores of the cluster that
holds the hart's own, else it raises `MULTICAST_GROUP` (63) with `TVAL` the mask. R250, R251, R253: `tst` stores the
units of a tile's image from unit `VSTART` on, `tclr` makes a tile of zeros with the type in force and scales 0x7F,
`tmv` copies a tile. A source that holds no image raises `TILE_SHAPE` (40) with `TVAL` 2 and the tile in bits 15:8;
with TS Off every one raises `TILE_OFF` (14). -/
def Obligations.TileTransfers : Prop :=
  (∀ (s u : State) (a b : SReg) (t : BitVec 2) (l : List Access),
     let et := s.hart.et
     let tsb := s.hart.sbCode
     let own := s.hart.id / 4 % 12
     let cluster := s.hart.id / 4 / 12 * 12
     let mask := s.x b
     let grouped := mask.toNat < 2 ^ 12 ∧ mask.getLsbD own = true
     s.alone → s.vectorReady (mxInput tsb) → s.hart.status.ts ≠ .off → s.settled →
       (resolveUnits .load a t (spanList s.hart.vstart (tileUnits et tsb)) (s.setTile t ((s.tile t).issue et tsb))
           = (u, l, none) →
         ∀ i ∈ [(Instr.tld a t, True), (.tldg a b t, grouped ∧ (s.x a).getLsbD 63 = true
             ∧ ∀ c, c < 12 → mask.getLsbD c = true → cluster + c ∈ s.part.cores)],
           i.2 → ∃ w, exec i.1 s = .next w
             ∧ w = { u.vectorNext u.hart.v 0 false 0 with hart.tile := w.hart.tile }
             ∧ (w.tile t).tet = et ∧ (w.tile t).tsb = tsb
             ∧ (∀ x ∈ l, (w.tile t).unit x.idx = leNat (u.spotBytes x.spot 64))
             ∧ ∀ k, k ≠ t → w.tile k = u.tile k)
       ∧ (¬ grouped → ∃ w, exec (.tldg a b t) s = .next w ∧ s.traps w 63 mask 0))
  ∧ (∀ (s u : State) (a : SReg) (t src : BitVec 2) (l : List Access),
      let x := s.tile src
      let set := fun (y : Tile) => Host.Outcome.next (φ := Fault) (ρ := Refusal)
        { s.vectorNext s.hart.v 0 false 0 with
          hart.status.ts := .dirty
          hart.tile := s.hart.tile.set t.toNat y t.isLt }
      s.alone → s.vectorReady tyAny →
        (s.hart.status.ts ≠ .off →
          (mxInput s.hart.sbCode s.hart.et = true →
            exec (.tclr t) s = set ⟨0, (2 ^ (8 * 2048) - 1) / 255 * 127, s.hart.et, s.hart.sbCode⟩)
          ∧ (x.tet ≠ 31 → exec (.tmv src t) s = set x
            ∧ (s.settled → resolveUnits .store a src (spanList s.hart.vstart (tileUnits x.tet x.tsb)) s = (u, l, none) →
              (∀ y ∈ l, u.plainSpot y.spot) → u.canonical →
              ∃ w, exec (.tst a src) s = .next w
                ∧ w = { u.vectorNext u.hart.v 0 false 0 with
                  mem := w.mem
                  spad := w.spad
                  badMem := w.badMem
                  badSpad := w.badSpad
                  trains := w.trains }
                ∧ storesDone u w 512 l fun y => x.unit y.idx))
          ∧ (x.tet = 31 → ∀ i ∈ [Instr.tst a src, .tmv src t], ∃ w, exec i s = .next w
            ∧ s.traps w 40 (.ofNat 64 (2 + src.toNat * 256)) s.hart.pc))
        ∧ (s.hart.status.ts = .off → ∀ i ∈ [Instr.tld a t, .tst a src, .tclr t, .tmv src t], ∃ w, exec i s = .next w
          ∧ s.traps w 14 0 s.hart.pc))

/-- R51, R254, R255, R256: `vmxa` and `vmxs` with at most 32 elements (one chunk), with no trap enabled: each of the
64 accumulators of a row takes the exact sum of the row's active products, rounded once and then added with one
rounding; with no active element it stays, a residue as R48 reads it. The tail after the 64 accumulators follows TP, and registers outside the
tile of accumulators stay. R51, R254 on integers: with accumulators of type I32, every accumulator of row r and column
j takes the sum over the active elements of X(r, e) × T(e, j), modulo 2^32, in however many chunks, and no flag is
set. R257: `tout` adds the products x × y to the rows of a tile that the mask lets through, one row of the
instruction's operand at a time, here for one row: element (k, j) takes T + x(k) × y(j) with one rounding in the
tile's type, for k below `VL`, and the other elements of the tile and every vector register stay. -/
def Obligations.MatrixProducts : Prop :=
  (∀ (s : State) (m : Bool) (d a i : VReg) (t : BitVec 2),
     let et := s.hart.et
     let w := etWidth et
     let ta := atType s.hart.at_
     let wa := etWidth ta
     let rows := s.hart.vrow
     let x := s.tile t
     let scaled := decide (s.hart.sb ≠ 0)
     let here := (List.range s.hart.vl).filter (s.active m)
     s.alone → s.vectorReady (mxTypes s.hart) → s.hart.status.ts ≠ .off → s.tileOk d.toNat rows → s.tileOk a.toNat rows →
     x.tet = et → x.tsb = s.hart.sbCode → s.hart.vl ≤ 32 → 0 < s.hart.vl → s.hart.vl ≤ tileRows et →
     (∀ f, flagCause s.hart.frm f = none) → (scaled = true → s.scaleNan m rows 0 s.hart.vl = none) →
     ∀ p ∈ [(Instr.vmxa m d a t, fun (_ e : Nat) => e), (.vmxs m d a i t, s.rowIndex i.toNat w)],
       (p.1 = .vmxs m d a i t → s.tileOk i.toNat (rows * max 1 (16 / max 1 w))) →
       (∀ r, r < rows → ∀ e ∈ here, p.2 r e < tileRows et) →
       (scaled = true → s.tileNan x m rows s.hart.vl p.2 = none) →
         ∃ u fl, exec p.1 s = .next u
           ∧ u = { s.vectorNext u.hart.v fl true 0 with hart.srseed := u.hart.srseed }
           ∧ (∀ r, r < rows → ∀ j, j < 64 →
             let input := fun e => mxValue ta et (s.elem (a.toNat + r) w e)
               (if scaled then (s.scaleByte (s.scaleIndex r e) : Int) - 127 else 0)
             let weight := fun e => mxValue ta et (x.elem w (p.2 r e) j)
               (if scaled then (x.scale (p.2 r e / max 1 (sbSize x.tsb) * 64 + j) : Int) - 127 else 0)
             let held := s.elem (d.toNat + r) wa j
             let old := if etRns ta then rnsOp ta (fun x _ _ => x) held 0 0 else held
             (here = [] → u.elem (d.toNat + r) wa j = old)
             ∧ (here ≠ [] → ∃ lfsr, u.elem (d.toNat + r) wa j
               = (accumulate ta (frmRM s.hart.frm) lfsr old (chunkSum (here.map fun e => (input e, weight e)))).1 % 2 ^ wa))
           ∧ (∀ r, r < rows → ∀ j, 64 ≤ j → (j + 1) * wa ≤ s.maxBits →
             u.elem (d.toNat + r) wa j = if s.hart.tp then 0 else s.elem (d.toNat + r) wa j)
           ∧ ∀ n, ¬ (d.toNat ≤ n ∧ n < d.toNat + rows) → u.reg n = s.reg n)
  ∧ (∀ (s : State) (m : Bool) (d a : VReg) (t : BitVec 2),
      let et := s.hart.et
      let w := etWidth et
      let rows := s.hart.vrow
      let x := s.tile t
      let here := (List.range s.hart.vl).filter (s.active m)
      s.alone → s.vectorReady (mxTypes s.hart) → s.hart.status.ts ≠ .off → s.tileOk d.toNat rows → s.tileOk a.toNat rows →
      (et = 0 ∨ et = 18) → s.hart.at_ = 2 → s.hart.sb = 0 → x.tet = et → x.tsb = 0 → 0 < s.hart.vl →
      s.hart.vl ≤ tileRows et →
        ∃ u, exec (.vmxa m d a t) s = .next u ∧ u.hart.flags = s.hart.flags ∧ u.hart.srseed = s.hart.srseed
          ∧ ∀ r, r < rows → ∀ j, j < 64 → u.elem (d.toNat + r) 32 j
            = wrap 32 (s.elem (d.toNat + r) 32 j
              + (here.map fun e => intOf et (s.elem (a.toNat + r) w e) * intOf et (x.elem w e j)).sum))
  ∧ (∀ (s : State) (m : Bool) (a i : VReg) (t : BitVec 2),
      let et := s.hart.et
      let w := etWidth et
      let x := s.tile t
      s.alone → s.vectorReady (fun et => mxTypes s.hart et && decide (s.hart.sb = 0)) → s.hart.status.ts ≠ .off →
      s.hart.vrow = 1 → s.tileOk a.toNat 1 → s.tileOk i.toNat 1 → x.tet = et → x.tsb = s.hart.sbCode →
      s.hart.vl ≤ tileRows et → (∀ f, flagCause s.hart.frm f = none) →
        (s.hart.vl = 0 → exec (.tout m a i t) s = .next (s.vectorNext s.hart.v 0 false 0))
        ∧ (0 < s.hart.vl → ∃ u fl, exec (.tout m a i t) s = .next u
          ∧ u = { s.vectorNext s.hart.v fl false 0 with
            hart.srseed := u.hart.srseed
            hart.status.ts := .dirty
            hart.tile := u.hart.tile }
          ∧ (∀ k, k ≠ t → u.tile k = s.tile k)
          ∧ ∀ k, k < tileRows et → ∀ j, j < 64 →
            (k < s.hart.vl ∧ s.active m k = true → ∃ lfsr, (u.tile t).elem w k j
              = (rankOne s.hart.frm (atType s.hart.at_) et lfsr (x.elem w k j) (s.elem a.toNat w k) (s.elem i.toNat w j)).1
                % 2 ^ w)
            ∧ (¬ (k < s.hart.vl ∧ s.active m k = true) → (u.tile t).elem w k j = x.elem w k j)))

/-! ### Copies and channels -/

/-- R260, R261, R107, R436: a copy whose pointers pass the checks at issue, whose channel can count it and for which the
engine has room beside what other harts have secured is accepted: the engine's list ends with it, its channel's BUSY steps, and the instruction completes; the
data are the engine's. A pointer refused at issue raises `COPY_SOURCE_FAULT` (45) or `COPY_DEST_FAULT` (46) with the pointer
and the reason; so does, for `cpys`, a stride that is no multiple of the element's bytes, and 4-bit elements raise
`SUBBYTE_STRIDE` (12). R76: a destination that does not join on to a range that the channel counts raises
`COPY_DEST_FAULT`. -/
def Obligations.CopiesAccepted : Prop :=
  ∀ (s : State) (ch : BitVec 3) (a b : SReg) (qa qr : Bool) (sc : Scope),
    let w := etWidth s.hart.et
    let width := max 1 (w / 8)
    let len := ceilDiv (s.hart.vl * w) 8
    let step := (s.x (a + 1)).toInt
    let pattern := if w = 4 then .ofNat 64 ((s.x a).toNat % 16 * 17) else s.x a
    let bounds := fun (k : CopyKind) => sourceBounds k len width
    let whole := fun (src dst : Word) (k : CopyKind) => s.copyOf ch k src dst qa qr sc
    let room := fun (c : Copy) => s.busyOf ch.toNat < 15 ∧ c.entries ≤ s.freeEntries (s.hart.id / 4)
    let joins := bitOf (s.x b) 63 = true → (s.channel ch).counts = true →
      normalCore (s.hart.id / 4) (bits (s.x b) 24 0) = normalCore (s.hart.id / 4) (s.channel ch).dbase + (s.channel ch).len
    s.alone → s.vectorReady (fun _ => true) →
      (s.copyPointer (s.x b) width 0 len 21 = none → joins →
        ∀ p ∈ [(Instr.cpy ch a b qa qr sc, CopyKind.plain, s.x a), (.cpys ch a b qa qr sc, .strided step, s.x a),
            (.fill ch a b qa qr sc, .fill pattern, 0)],
          (∀ v, p.2.1 ≠ .fill v → s.copyPointer (s.x a) width (bounds p.2.1).1 (bounds p.2.1).2 20 = none) →
          (∀ st, p.2.1 = .strided st → w ≠ 4 ∧ st % width = 0) → room (whole p.2.2 (s.x b) p.2.1) →
          ∃ t, exec p.1 s = .next t
            ∧ t = { s.vectorNext s.hart.v 0 false 0 with
              copies := s.copies ++ [whole p.2.2 (s.x b) p.2.1]
              nextId := s.nextId + 1
              cores := t.cores }
            ∧ (s.canonical → (t.channel ch).busy = (s.channel ch).busy + 1
              ∧ ∀ k, k ≠ ch → t.channel k = s.channel k))
      ∧ (∀ c, s.copyPointer (s.x a) width 0 len 20 = some c →
        ∃ t, exec (.cpy ch a b qa qr sc) s = .next t ∧ s.traps t 45 (s.x a) (.ofNat 64 c))
      ∧ (∀ c, s.copyPointer (s.x b) width 0 len 21 = some c →
        ∃ t, exec (.fill ch a b qa qr sc) s = .next t ∧ s.traps t 46 (s.x b) (.ofNat 64 c))
      ∧ (s.copyPointer (s.x b) width 0 len 21 = none → ¬ joins →
        ∃ t, exec (.fill ch a b qa qr sc) s = .next t ∧ s.traps t 46 (s.x b) 0)
      ∧ (w = 4 → ∃ t, exec (.cpys ch a b qa qr sc) s = .next t ∧ s.traps t 12 (s.x (a + 1)) s.hart.pc)
      ∧ (w ≠ 4 → s.copyPointer (s.x a) width (bounds (.strided step)).1 (bounds (.strided step)).2 20 = none →
        step % width ≠ 0 → ∃ t, exec (.cpys ch a b qa qr sc) s = .next t ∧ s.traps t 45 (s.x a) 22)

/-- R107, R261, R262: a copy by events, here of one byte to global memory. A byte that the engine moves is done, and its
endpoint noted; a copy whose bytes are done retires, with its channel's BUSY a step down, at once without a release and below
DOMAIN scope, and else once the endpoints that it has written to answer: with one of them silent it stays (R101); performing
it does both. R261: a copy that the engine has taken up moves a byte: byte i of its source goes to byte i of its destination,
with both sides translated, and the write changes nothing else. -/
def Obligations.CopyEvents : Prop :=
  (∀ (s : State) (c : Copy) (v : State) (ep : Endpoint),
     let ch := fun (z : State) => (z.coreAt (c.hart / 4)).ch.toList.getD c.ch {}
     let released := fun (z : State) (eps : List Endpoint) =>
       c.rel = true → c.scope = .domain → ∀ e ∈ eps, z.answering e = true
     let moved := { s with copies := [{ c with done := [(0, 1)] }] }
     s.copies = [c] → c.ready = true → c.done = [] → c.len = 1 → c.ch < 8 → s.canonical →
       (s.moveByte c 0 = (v, .ok ep) → bitOf c.dst 63 = false → v.copies = s.copies → v.cores = s.cores → c.eps = [] →
         exec (.copyDataLands 0 0 1) s = .next { v with copies := [{ c with done := [(0, 1)], eps := [ep] }] }
         ∧ (released v [ep] → ∃ t, exec (.copyPerform 0) s = .next t ∧ t = { v with copies := [], cores := t.cores }
           ∧ (ch t).busy = (ch s).busy - 1))
       ∧ (released s c.eps → ∃ t, exec (.copyRetire 0) moved = .next t ∧ t = { s with copies := [], cores := t.cores }
         ∧ (ch t).busy = (ch s).busy - 1)
       ∧ (c.rel = true → c.scope = .domain → c.eps = [ep] → ep ∈ s.silent → ep ∉ s.down → ep ∉ s.exhausted →
         exec (.copyRetire 0) moved = .next moved))
  ∧ (∀ (s t u : State) (c : Copy) (i : Nat) (p q : Phys), c.kind = .plain →
      (engineByte c .load (c.src + .ofNat 64 i)).go s = (.ok p, t) →
      (engineByte c .store (c.dst + .ofNat 64 i)).go t = (.ok q, u) → u.plainPlace q.loc → u.canonical →
        ∃ w, s.moveByte c i = (w, .ok (u.homeDie q.loc).1) ∧ w.homeByte q.loc = t.homeByte p.loc ∧ sameBytesBut u w q.loc 1 ∧ w.hart = u.hart)

/-- R263, R76: `cexp` sets EXP and EP of its channel and latches OVF; `cwm` gives WM, or 0 for a channel that counts
no scratchpad range; `cfree` clears a channel that is not busy. R77, R264: `cwait` ends at once when the channel's
fault, its overfill or its completion stands: a fault raises `COPY_SOURCE_FAULT` (45) or `COPY_DEST_FAULT` (46), an
overfill `COPY_OVERFILL` (44), completion gives status 0 with an acquire at CORE scope; a deadline in the past gives 3, one
that has come 1; and otherwise the hart waits, at most for `MAXWAIT`, with CLAMP set where that cuts the deadline (R113).
Without a time base it raises `TIME_BASE_LOST` (59). -/
def Obligations.ChannelInstructions : Prop :=
  (∀ (s : State) (ch : BitVec 3) (a : SReg),
     let k := s.channel ch
     let exp := (s.x a).toNat % 2 ^ 32
     s.alone → s.vectorReady (fun _ => true) →
       (∃ t, exec (.cexp ch a) s = .next t ∧ t = { s.vectorNext s.hart.v 0 false 0 with cores := t.cores }
         ∧ (s.canonical →
           t.channel ch = { k with
             exp := exp
             ep := true
             ovf := k.ovf || decide (exp < k.cnt) } ∧ ∀ j, j ≠ ch → t.channel j = s.channel j))
       ∧ exec (.cwm ch a) s = .next { s.wroteNext a (.ofNat 64 (if k.counts then k.wm else 0)) with hart.vstart := 0 }
       ∧ (s.busyOf ch.toNat = 0 → ∃ t, exec (.cfree ch) s = .next t ∧ t = { s.vectorNext s.hart.v 0 false 0 with cores := t.cores }
         ∧ (s.canonical → t.channel ch = {} ∧ ∀ j, j ≠ ch → t.channel j = s.channel j)))
  ∧ (∀ (s : State) (ch : BitVec 3) (a b : SReg),
      let k := s.channel ch
      let ended := fun (z : State) (code : Nat) => Host.Outcome.next (φ := Fault) (ρ := Refusal)
        (z.waitEnded b 0 (statusWord code 0 0 k.busy) none none (if code = 0 then 1 else 0))
      let limit := s.now.toNat + s.hart.maxwait.toNat
      let clamped := { s with hart.flags := s.hart.flags ||| 0x40 }
      let done := k.complete = true
      let entry := s.hart.wait = none ∧ s.locked = true
      (∀ f, k.flt = some f → (entry ∨ s.hart.wait ≠ none) → ∃ t, exec (.cwait ch a b) s = .next t
        ∧ s.traps t (if f.dest then 46 else 45) f.addr (.ofNat 64 (f.cause + ch.toNat * 2 ^ 8)))
      ∧ (k.flt = none → k.ovf = true → (entry ∨ s.hart.wait ≠ none) → ∃ t, exec (.cwait ch a b) s = .next t
        ∧ s.traps t 44 (.ofNat 64 ch.toNat) (.ofNat 64 k.cnt - .ofNat 64 k.exp))
      ∧ (k.flt = none → k.ovf = false →
        (done → s.noneReleased → (s.x a).toNat ≤ limit → entry → exec (.cwait ch a b) s = ended s 0)
        ∧ (done → s.noneReleased → limit < (s.x a).toNat → entry → exec (.cwait ch a b) s = ended clamped 0)
        ∧ (done → s.noneReleased → s.hart.wait ≠ none → exec (.cwait ch a b) s = ended s 0)
        ∧ (¬ done → (s.x a).toNat ≤ s.now.toNat → entry → exec (.cwait ch a b) s = ended s 3)
        ∧ (¬ done → s.ahead (s.x a) → entry → exec (.cwait ch a b) s = .next { s with
            hart.stall := none
            hart.wait := some { cask := none, deadline := (s.x a).toNat } })
        ∧ (¬ done → limit < (s.x a).toNat → entry → exec (.cwait ch a b) s = .next { clamped with
            hart.stall := none
            hart.wait := some { cask := none, deadline := limit } })
        ∧ (∀ w, s.hart.wait = some w → ¬ done →
          exec (.cwait ch a b) s = if w.deadline ≤ s.now.toNat then ended s 1 else .next s))
      ∧ (s.hart.wait = none → s.locked = false → ∃ t, exec (.cwait ch a b) s = .next t ∧ s.traps t 59 (.ofNat 64 ch.toNat) 0))

/-! ### Casks -/

/-- R113, R115, R116, R124, R134, R267, R270, R275, R277: a hart whose wait has been answered completes it, by the code of the
status. S(d) takes the status, v(c) the absentee set of a closure record, zeros without one and nothing for DAMAGED, `CROUND`
the round's tag unless the status reports none, and the acquire is done. A closure steps the membership entry to the next
round; LATE does so too, arrived for an instruction that arrives; `barr` is arrived; an `acq` that got the lock notes the
generation, one that a round's closure ended the lock's generation and which round it may mend. `recv` writes the entry to its
buffer, or raises the cause of bad memory there (30, 31), and `strip` its index to S(b). R431: a record that is staggered is
held back in the slot. R115, R123, R435: a wait that its home does not answer by its deadline ends with the code of its
instruction, DETAIL 0xFE and COUNT 0xFFFF: TIMEOUT (1), or EMPTY (8) for `recv`; the TAG of a wait for a round is that of the
entry (log 94); before it, it goes on. -/
def Obligations.Waits : Prop :=
  (∀ (s : State) (d a b : SReg) (c : VReg) (w : Wait) (l : Loc) (r : Answer),
     let code := r.status.toNat / 2 ^ 56
     let next := fun (m : Member) (arrived : Bool) => { m with
       tag := min (r.tag + 1) (2 ^ 48 - 1)
       arrived := arrived }
     let rounds := [(Instr.bar d a b c, true), (.qarr d a b c, true), (.barw d a b c, false), (.qwait d a b c, false)]
     let ends := fun (i : Instr) (c : VReg) (f : Member → Member) (absent round : Option Nat) (scope : Nat) =>
       exec i s = .next ((s.entered l f).waitEnded d c r.status absent round scope)
     let acq := Instr.acq d a b c
     s.hart.wait = some w → w.cask = some l → w.answer = some r → s.noneReleased →
       (s.staggerEnd l w r ≤ s.now.toNat →
         (code ≤ 1 → ∀ p ∈ rounds, ends p.1 c (next · false) r.absent (some r.tag) r.scope)
         ∧ (code = 2 → (∀ p ∈ rounds, ends p.1 c (next · p.2) r.absent (some r.tag) r.scope)
           ∧ ends acq c (fun m => { next m true with mend := none }) r.absent (some r.tag) r.scope)
         ∧ (code = 3 → ∀ p ∈ rounds,
           ends p.1 c (fun m => { m with arrived := m.arrived || p.2 }) (some 0) (some r.tag) r.scope)
         ∧ (code = 5 → ∀ p ∈ rounds, ends p.1 c id none none r.scope)
         ∧ (code = 6 → ∀ p ∈ rounds, ends p.1 c id (some 0) none r.scope)
         ∧ (code = 0 ∨ code = 3 → ends (.barr d a b) 0 (fun m => { m with arrived := true }) none (some r.tag) 0)
         ∧ (code = 2 → ends (.barr d a b) 0 (next · true) none (some r.tag) 0)
         ∧ (code = 5 ∨ code = 6 → ends (.barr d a b) 0 id none none 0)
         ∧ (code = 0 → ends acq c (fun m => { m with
             gen := r.status.toNat / 2 ^ 16 % 2 ^ 32
             mend := none }) (some 0) none r.scope)
         ∧ (code = 1 → ends acq c (fun m => { next m false with
             gen := (s.lock l).gen
             mend := some r.tag }) r.absent (some r.tag) r.scope)
         ∧ (code = 3 → ends acq c (fun m => { m with mend := none }) (some 0) none r.scope)
         ∧ (code = 5 → ends acq c (fun m => { m with mend := none }) none none r.scope))
       ∧ (s.now.toNat < s.staggerEnd l w r → ∀ i ∈ acq :: .barr d a b :: rounds.map (·.1),
         exec i s = .next { s.entered l fun m => { m with slot := some ⟨r.status, r.tag, r.absent.getD 0⟩ } with
           hart.wait := some { w with
             answer := some r
             delay := some (s.staggerEnd l w r) } })
       ∧ exec (.farmw d a b c) s = .next (s.waitEnded d c r.status r.absent none r.scope)
       ∧ exec (.strip d a b) s = .next ((s.setX b r.strip).waitEnded d 0 r.status none none r.scope)
       ∧ (w.buffer = none ∨ r.data = [] → exec (.recv d a b) s = .next (s.waitEnded d 0 r.status none none r.scope))
       ∧ (∀ q va, w.buffer = some (q, va) → r.data ≠ [] → s.upToDate →
         (s.isBad q 64 = false → exec (.recv d a b) s
           = .next ((s.homeStore q r.data (.hart s.hart.id)).waitEnded d 0 r.status none none r.scope))
         ∧ (s.isBad q 64 = true → ∃ t, exec (.recv d a b) s = .next t ∧ s.traps t (if q matches .glob _ then 30 else 31) va 0)))
  ∧ (∀ (s : State) (l : Loc) (w : Wait) (a : Answer) (t : Nat) (m : Member),
      (w.delay = some t → s.staggerEnd l w a = t)
      ∧ (w.delay = none → s.hart.entry l = some m → m.arrived = true → (s.header l).kind = 1 → 3 ≤ a.scope →
        a.status.toNat / 2 ^ 56 ≤ 1 → s.staggerEnd l w a = s.now.toNat + s.stagger.toNat * m.index / max 1 a.n))
  ∧ (∀ (s : State) (d a b : SReg) (c : VReg) (w : Wait) (l : Loc),
      let e := s.hart.entry l
      let lost := fun (code tag : Nat) => statusWord code 0xFE tag 0xFFFF
      let tag := e.map (·.tag)
      let scope := e.elim 4 (·.scope)
      let round := lost 1 (tag.getD 0)
      s.hart.wait = some w → w.cask = some l → w.answer = none → s.homeSilent l = true → s.noneReleased →
        (s.now.toNat < w.deadline → ∀ i ∈ [Instr.bar d a b c, .barr d a b, .barw d a b c, .qarr d a b c, .qwait d a b c,
          .acq d a b c, .farmw d a b c, .strip d a b, .recv d a b], exec i s = .next s)
        ∧ (w.deadline ≤ s.now.toNat →
          (∀ i ∈ [Instr.bar d a b c, .barw d a b c, .qarr d a b c, .qwait d a b c],
            exec i s = .next (s.waitEnded d c round none tag scope))
          ∧ exec (.barr d a b) s = .next (s.waitEnded d 0 round none tag 0)
          ∧ exec (.acq d a b c) s = .next ((s.entered l fun m => { m with mend := some m.tag }).waitEnded d c round none tag scope)
          ∧ exec (.farmw d a b c) s = .next (s.waitEnded d c (lost 1 0) none none scope)
          ∧ exec (.strip d a b) s = .next ((s.setX b (-1)).waitEnded d 0 (lost 1 0) none none scope)
          ∧ exec (.recv d a b) s = .next (s.waitEnded d 0 (lost 8 0) none none scope)))

/-- R124, R271, R272, R273, R283: arrivals and waits for a closure. `barr` arrives, and completes with the round that counted
it, as PAST with its deadline past; `bar` and `qarr` arrive, and stay at the instruction, waiting for the closure, while the
round is open; an arrival that closes the round itself goes on as a wait that has its record, and one of a closed round ends
with LATE and the record of the last, arrived in the open one (R302: a round that it completes itself, its deadline not due,
leaves no record in its slot). An evicted member's arrival is EVICTED (R131). `barw` and
`qwait` wait for the round of the entry, and end at once with the record when it has closed; an evicted member raises
`QUORUM_LAG_EXCEEDED` (51). R123, R124: the arrival of the
last member closes a barrier's round, in the cask: LAST and the absentee set are those of ALL, ROUND steps, PRESENT is empty,
and DEADLINE is all ones. R124, R127: an arrival that leaves a round open sets the member's bit and no other, and brings
DEADLINE forward to its own. -/
def Obligations.Arrivals : Prop :=
  (∀ (s u z w : State) (d a b : SReg) (c : VReg) (l : Loc) (e : Member) (k : Nat) (dl : Option Nat) (r : Record),
     let p := s.x a
     let h := z.header l
     let begun := fun (y : State) (round : Nat) => { y with
       hart.wait := some { cask := some l, deadline := (s.x b).toNat, round := round }
       hart.stall := none }
     let counted := w.entered l fun m => { m with arrived := true }
     let fits := c = 0 ∨ (z.vlg ≠ 0 ∧ h.n ≤ z.maxBits)
     s.hart.wait = none → u.hart.entry l = some e →
       ((caskOpen p 0 true).go s = (.ok l, u) → u.requests p l true [1] z →
         (z.ahead (s.x b) ∧ dl = some (s.x b).toNat ∨ (s.x b).toNat ≤ z.now.toNat ∧ dl = none) →
         z.arrive l e.index e.tag dl = (w, .counted k) →
         exec (.barr d a b) s = .next (counted.waitEnded d 0 (statusWord (if dl.isSome then 0 else 3) 0 k 0xFFFF)
           none (some k) 0))
       ∧ (∀ i ∈ [(Instr.bar d a b c, [1]), (.qarr d a b c, [3, 6])], e.ownRecord = none →
         (caskOpen p c true).go s = (.ok l, u) → u.requests p l true i.2 z → fits → z.ahead (s.x b) → w.now = z.now →
           let came := z.arrive l e.index e.tag (some (s.x b).toNat)
           (came = (w, .counted k) →
             (w.slotRecord l k = none → (begun counted k).dueAt l = begun counted k →
               exec i.1 s = .next (begun counted k))
             ∧ (w.slotRecord l k = some r → exec i.1 s = exec i.1 { begun counted k with
               hart.members := (counted.entered l fun m => { m with slot := e.slot }).hart.members
               hart.wait := some {
                 cask := some l
                 deadline := (s.x b).toNat
                 round := r.tag
                 answer := some { status := r.status, absent := some r.absent, n := e.n, tag := r.tag, scope := h.scope } } }))
           ∧ (came = (w, .late k r) → w.noneReleased → exec i.1 s = .next ((w.entered l fun m => { m with
               tag := k
               arrived := true
               slot := if w.now.toNat + guard (w.header l).scope < (s.x b).toNat ∧ m.slot.any (·.tag = k) then e.slot
                 else m.slot }).waitEnded d c r.status (some r.absent) (some r.tag) h.scope))
           ∧ (came = (w, .evicted) → w.noneReleased →
             exec i.1 s = .next (w.waitEnded d c (statusWord 6 0 0 0) (some 0) none h.scope)))
       ∧ ∀ i ∈ [(Instr.barw d a b c, [1]), (.qwait d a b c, [3, 6])], e.ownRecord = none →
         (caskOpen p c true).go s = (.ok l, u) → u.requests p l false i.2 z → fits → z.ahead (s.x b) →
         z.catchUp l = z → (begun z e.tag).catchUp l = begun z e.tag → z.hart.stall = none →
         let evicted := h.kind = 3 ∧ bit (z.joined l h) e.index = false
         (evicted → ∃ t, exec i.1 s = .next t ∧ z.traps t 51 p 0)
         ∧ (¬ evicted → z.openRound l = e.tag → (begun z e.tag).dueAt l = begun z e.tag →
           exec i.1 s = .next (begun z e.tag))
         ∧ (¬ evicted → e.tag < z.openRound l → z.noneReleased →
             let q := z.passedRound l e.tag
             exec i.1 s = .next ((z.entered l fun m => { m with
               tag := min (z.openRound l) (2 ^ 48 - 1)
               arrived := false }).waitEnded d c q.status (some q.absent) (some q.tag) h.scope)))
  ∧ (∀ (s : State) (l : Loc) (index : Nat) (deadline : Option Nat),
      let h := s.header l
      let c := s.roundTag l
      s.canonical → s.plainCask l → h.kind = 1 → h.dmg = false → 1 ≤ h.n → h.n ≤ 64 → index < h.n → c < 2 ^ 48 - 1 →
      (∀ x ∈ s.harts, x.parked = []) →
      (s.roundDeadline l = 2 ^ 64 - 1 ∨ s.now.toNat + guard h.scope < s.roundDeadline l) →
      s.bitmap l h 0 ||| 2 ^ index = 2 ^ h.n - 1 →
        ∃ t, s.arrive l index c deadline = (t, .counted c)
          ∧ t.roundTag l = c + 1 ∧ t.bitmap l h 0 = 0 ∧ t.bitmap l h 1 = 0 ∧ t.roundDeadline l = 2 ^ 64 - 1
          ∧ (t.header l).last = 0 ∧ (t.header l).kind = 1 ∧ (t.header l).n = h.n)
  ∧ (∀ (s : State) (l : Loc) (index dl : Nat),
      let h := s.header l
      let c := s.roundTag l
      s.canonical → s.plainCask l → h.kind = 1 → h.dmg = false → h.n ≤ 64 → index < h.n → c < 2 ^ 48 - 1 → dl < 2 ^ 64 →
      (s.roundDeadline l = 2 ^ 64 - 1 ∨ s.now.toNat + guard h.scope < s.roundDeadline l) →
      s.now.toNat + guard h.scope < dl →
      s.bitmap l h 0 ||| 2 ^ index ≠ 2 ^ h.n - 1 →
        ∃ t, s.arrive l index c (some dl) = (t, .counted c)
          ∧ t.bitmap l h 0 = s.bitmap l h 0 ||| 2 ^ index ∧ t.roundDeadline l = min dl (s.roundDeadline l)
          ∧ t.roundTag l = c ∧ t.header l = h ∧ t.hart = s.hart)

/-- R126, R275, R276, R278: locks. `acq` of a free lock takes it at once; one that the member holds already gives DETAIL 2;
one that another holds gives PAST with its deadline past, and else arrives in the waiters' round and waits; `rel` by the
holder with the current generation frees a lock that nobody awaits, or hands it to the next waiter, with status 0; a stale
generation gives 4 and leaves the lock; a hart that does not hold it raises `RELEASE_NOT_HOLDER` (55). R277: `mend` needs the
tag that the last `acq` left, or raises `MEND_REFUSED` (52); the first member to mend the round just closed while the lock is
suspect takes it with the next generation, REPAIRED set; any other gets 4. R279: `stg` stores S(b) at S(a), 8 bytes in the
cask's block, only while the caller holds the lock with the generation that S(c) names, or the farm's strip is claimed with
it, and gives 0; else it stores nothing and gives 4; a strip of ST 3 damages the farm, and `OBJECT_DAMAGED` (56) is raised. -/
def Obligations.Locks : Prop :=
  (∀ (s u v z w : State) (d a b : SReg) (c : VReg) (l : Loc) (e : Member) (n : Nat),
     let p := s.x a
     let k := z.lock l
     let h := z.header l
     let plain := z.canonical ∧ z.plainCask l ∧ e.index < 2 ^ 16
     s.hart.wait = none → u.hart.entry l = some e → u.reaches p l true [2] v → v.looked z l [2] → z.catchUp l = z →
       ((caskOpen p c true).go s = (.ok l, u) → e.ownRecord = none → (s.x b).toNat ≤ z.now.toNat + z.hart.maxwait.toNat →
         (c = 0 ∨ (z.vlg ≠ 0 ∧ h.n ≤ z.maxBits)) → z.noneReleased →
         (k.held = false →
           let taken := { k with
             holder := e.index
             held := true
             suspect := false }
           exec (.acq d a b c) s = .next (((z.setLock l taken).entered l fun m => { m with
             gen := k.gen
             mend := none }).waitEnded d c (statusWord 0 k.repaired.toNat k.gen 0) (some 0) none h.scope)
           ∧ (plain → (z.setLock l taken).lock l = taken))
         ∧ (k.held = true → k.holder = e.index → exec (.acq d a b c) s
           = .next ((z.entered l fun m => { m with mend := none }).waitEnded d c (statusWord 0 2 k.gen 0) (some 0) none h.scope))
         ∧ (k.held = true → k.holder ≠ e.index → (s.x b).toNat ≤ z.now.toNat → exec (.acq d a b c) s
           = .next ((z.entered l fun m => { m with mend := none }).waitEnded d c (statusWord 3 0 k.gen 0xFFFF) (some 0) none
             h.scope))
         ∧ (k.held = true → k.holder ≠ e.index → z.now.toNat < (s.x b).toNat →
           z.arrive l e.index e.tag (some (s.x b).toNat) = (w, .counted n) → w.slotRecord l n = none → w.now = z.now →
           let waits := { w.entered l fun m => { m with arrived := true } with
             hart.wait := some { cask := some l, deadline := (s.x b).toNat, round := n }
             hart.stall := none }
           waits.dueAt l = waits → exec (.acq d a b c) s = .next waits))
       ∧ ((caskOpen p 0 false).go s = (.ok l, u) → v.catchUp l = v →
         let done := fun (t : State) (code : Nat) =>
           exec (.rel d a) s = .next ((t.entered l fun m => { m with mend := none }).caskEnded d (statusWord code 0 k.gen 0) none)
         let waiters := z.bitmap l h 0
         let mine := e.gen = k.gen ∧ k.held = true ∧ k.holder = e.index
         let free := { k with
           held := false
           repaired := false
           suspect := false }
         (e.gen ≠ k.gen → done z 4)
         ∧ (e.gen = k.gen → k.held = false ∨ k.holder ≠ e.index → ∃ t, exec (.rel d a) s = .next t ∧ v.traps t 55 p 0)
         ∧ (mine → nextWaiter waiters h.n e.index = none → done (z.setLock l free) 0
           ∧ (plain → (z.setLock l free).lock l = free))
         ∧ (mine → ∀ m, nextWaiter waiters h.n e.index = some m → done (((z.setBitmap l h 0 (without waiters (2 ^ m))).setLock l
           { k with
             holder := m
             repaired := false
             suspect := false }).handOver l m k.gen) 0)))
  ∧ (∀ (s u y : State) (d a b : SReg) (l : Loc) (e : Member),
      let p := s.x a
      let tag := (s.x b).toNat % 2 ^ 48
      let z := y.catchUp l
      let k := z.lock l
      (caskOpen p 0 false).go s = (.ok l, u) → u.hart.entry l = some e →
        (e.mend ≠ some tag → ∃ t, exec (.mend d a b) s = .next t ∧ u.traps t 52 p 0)
        ∧ (e.mend = some tag → u.requests p l false [2] y → z.noneReleased →
          let done := fun (t : State) (code gen : Nat) => exec (.mend d a b) s = .next ((t.entered l fun m => { m with
              gen := if code = 0 then gen else m.gen
              mend := none }).caskEnded d (statusWord code 0 gen 0) (some (y.header l).scope))
          let g := (k.gen + 1) % 2 ^ 32
          let taken : Lock := ⟨g, e.index, true, true, false⟩
          let mends := tag + 1 = z.openRound l ∧ k.suspect = true ∧ k.held = true
          (mends → done (z.setLock l taken) 0 g
            ∧ (z.canonical → z.plainCask l → e.index < 2 ^ 16 → (z.setLock l taken).lock l = taken))
          ∧ (¬ mends → done z 4 k.gen)))
  ∧ (∀ (s u v z : State) (d a b c : SReg) (l : Loc) (q : Phys),
      let p := s.x d
      let k := z.lock l
      let data := leBytes (s.x b).toNat 8
      let gen := (s.x c).toNat % 2 ^ 32
      let i := (s.x c).toNat / 2 ^ 32
      let y := z.farmNow l
      let live := y.stripSt l i = 1 ∧ y.stripGen l i = gen
      let holds := gen = k.gen ∧ k.held = true ∧ ∃ e, z.hart.entry l = some e ∧ k.holder = e.index
      let done := fun (t : State) (code g : Nat) => exec (.stg d a b c) s
        = .next ((t.entered l fun m => { m with mend := none }).caskEnded d (statusWord code 0 g 0) none)
      (caskOpen p 0 false).go s = (.ok l, u) → (s.x a).toNat % 8 = 0 →
      (do let q ← resolve u.ctx .store (s.x a) 8 8 .answered; allow u.ctx .store q 8; pure q : M Phys).go u = (.ok q, v) →
      sameBlock l q.loc = true →
        (v.requests p l true [2] z →
          (holds → done (z.scalarStoreAt q.loc data) 0 k.gen) ∧ (¬ holds → done z 4 k.gen))
        ∧ (v.requests p l true [4] z → z.farmOk l = true → i < z.farmCount l →
          (y.caskBad l = false →
            (live → done ((y.serveFarm l).scalarStoreAt q.loc data) 0 (y.stripGen l i))
            ∧ (¬ live → done (y.serveFarm l) 4 (y.stripGen l i)))
          ∧ (y.caskBad l = true → ∃ t, exec (.stg d a b c) s = .next t ∧ y.traps t 56 p 0))
        ∧ (z.stripSt l i = 3 → z.expireStrip l i = z.damage l
          ∧ (z.canonical → z.plainCask l → (z.damage l).caskBad l = true))
        ∧ (z.hart.buffer = [] → z.hart.late = none → (∀ o ∈ z.posted, o.hart ≠ z.hart.id) → (∀ j, j < 8 → z.plainPlace (q.loc.plus j)) → z.canonical →
          sameBytesBut z (z.scalarStoreAt q.loc data) q.loc 8 ∧ (z.scalarStoreAt q.loc data).homeRead q.loc 8 = data))

/-- R121, R280, R282: membership. `gjoin` and `qjoin` fill the lowest free entry of the table with the open round, and
`gleave` and `qleave` empty the entry; a joined quorum member's lag is 0, and an evicted one may join again. `gjoin` of a cask
that the hart has joined, or with a full table, raises `BARRIER_CONFIG` (49). `qleave` by an evicted member gives EVICTED (6,
R131). R284: `qread` gives the record of the round that closed last, of a cask with rounds, and the absentee set in S(c);
before the first closure both are 0; a set of more than 64 members raises `ABSENTEE_BUFFER` (60). -/
def Obligations.MembershipAndRecords : Prop :=
  (∀ (s u x z : State) (d a b : SReg) (l : Loc) (e : Member) (place : Nat),
     let p := s.x a
     let h := z.header l
     let y := z.catchUp l
     let left := fun (t : State) => { t with hart.members := t.hart.members.filter fun m => m.cask ≠ l }
     let joins := fun (op : Instr) (t : State) (i : Nat) => exec op s = .next ({ t with hart.members := t.hart.members ++
       [({ place := place, cask := l, index := i, tag := t.roundTag l, scope := h.scope, n := h.n } : Member)] }.caskEnded d
         (statusWord 0 0 (t.roundTag l) 0) (some h.scope))
     let leaves := fun (op : Instr) (t : State) (status : Word) => exec op s = .next (t.caskEnded d status none)
     (caskOpen p 0 false).go s = (.ok l, u) →
       (s.hart.entry l = none → s.hart.freeMember = some place → u.requests p l false [1, 2] z → (s.x b).toNat < h.n →
         y.noneReleased → joins (.gjoin d a b) y (s.x b).toNat)
       ∧ (s.hart.entry l ≠ none ∨ s.hart.freeMember = none → ∃ t, exec (.gjoin d a b) s = .next t ∧ u.traps t 49 p 0)
       ∧ (((s.hart.entry l).map (·.place)).orElse (fun _ => s.hart.freeMember) = some place → y.noneReleased →
         (u.reaches p l false [3] x → x.looked z l [3] → (z.x b).toNat < h.n →
           (x.hart.entry l = none ∨ bit ((x.catchUp l).joined l h) (z.x b).toNat = false) →
           joins (.qjoin d a b) (left (y.setLag l h (z.x b).toNat 0)) (z.x b).toNat)
         ∧ (u.requests p l false [6] z → z.hart.cm = true → z.groupOk = true → b = 0 → h.n = z.hart.groupSize →
           z.hart.entry l = none → joins (.qjoin d a b) (left y) z.groupIndex))
       ∧ (u.hart.entry l = some e →
         (u.requests p l true [1, 2] z → leaves (.gleave d a) (left z) 0)
         ∧ (u.requests p l true [6] z → leaves (.qleave d a) (left y) 0)
         ∧ (u.requests p l true [3] z →
           (bit ((left y).joined l h) e.index = false → leaves (.qleave d a) (left y) (statusWord 6 0 0 0))
           ∧ (bit ((left y).joined l h) e.index = true → leaves (.qleave d a) ((left y).leaveQuorum l h e.index) 0
             ∧ (((left y).setLag l h e.index 3).bitmap l h 0 = 0 →
               (left y).leaveQuorum l h e.index = (left y).setLag l h e.index 3)))))
  ∧ (∀ (s u x z : State) (d a c : SReg) (l : Loc),
      let p := s.x a
      let y := z.catchUp l
      let h := y.header l
      let absent := y.bitmap l h (if h.kind = 3 then 3 else 1)
      let ends := fun (set : Word) (status : Word) => exec (.qread d a c) s = .next ((y.setX c set).caskEnded d status (some h.scope))
      (caskOpen p 0 false).go s = (.ok l, u) → u.reaches p l false [1, 3, 6] x →
        (x.looked z l [1, 3, 6] → c = 0 ∨ (z.header l).n ≤ 64 → y.noneReleased →
          (y.openRound l = 0 → ends 0 0)
          ∧ (y.openRound l ≠ 0 →
            ends (.ofNat 64 absent) (statusWord h.last 0 (y.openRound l - 1) (popcount absent h.n))))
        ∧ (c ≠ 0 → 64 < (x.header l).n → ∃ t, exec (.qread d a c) s = .next t ∧ x.traps t 60 (word (x.header l).n) 0))

/-- R137, R285, R286, R380: queue casks. `enq` puts the 64 bytes of its buffer into the ring when it is not full, and wakes
the queue of that number, or, at another endpoint, has the waiters of its ring look again; a full ring gives 7; `qpoll` takes
the entry at the head into its buffer, or gives EMPTY (8); `recv` of a ring that holds an entry completes at once, and of an
empty one is PAST with its deadline past or waits at the home; `wake` wakes the queue of the cask. R25 to R28, R132, R288,
R289: farm casks. `farm` opens one; `strip` takes the strip that is free first, once those that have expired or wait longer
have been served, and gives its index and generation; with every strip done it gives EMPTY (8) and −1, with its deadline past
3, and else it waits at the home; `sdone` reports a strip done under its generation, and a stale one gives 4; `farmw` of a
farm that is done completes at once, and else is PAST or waits. -/
def Obligations.QueuesAndFarms : Prop :=
  (∀ (s u v x z : State) (d a b : SReg) (l : Loc) (q : Phys) (data : List Byte),
     let p := s.x a
     let scope := (z.header l).scope
     let soon := (s.x b).toNat ≤ z.now.toNat + z.hart.maxwait.toNat
     (caskOpen p 0 false).go s = (.ok l, u) → s.hart.wait = none →
       ((bufferPlace .load (s.x d)).go u = (.ok q, v) → (homeLoad q 64).go v = (.ok data, x) → x.requests p l true [5] z →
         let put := (z.homeSet (z.ringSlot l (z.ringTail l)) data).setHome64 (l.plus 32) ((z.ringTail l + 1) % 2 ^ 32)
         (z.ringCount l < z.ringSize l → exec (.enq d a) s = .next ((if put.caskEp l = put.endpt
           then put.wakeQueue (put.ringQnum l) false else put.recheck (put.caskEp l) (put.ringQnum l) false).caskEnded d 0 none))
         ∧ (z.ringSize l ≤ z.ringCount l →
           exec (.enq d a) s = .next (z.caskEnded d (statusWord 7 0 0 0) none)))
       ∧ ((bufferPlace .store (s.x d)).go u = (.ok q, v) → v.requests p l false [5] z → z.upToDate → z.noneReleased →
         let taken := z.setHome64 (l.plus 24) ((z.ringHead l + 1) % 2 ^ 32)
         let entry := z.homeRead (z.ringSlot l (z.ringHead l)) 64
         let written := taken.homeStore q.loc entry (.hart z.hart.id)
         (z.ringCount l = 0 →
           exec (.qpoll d a) s = .next (z.caskEnded d (statusWord 8 0 0 0) (some scope))
           ∧ ((caskOpen p 0 true).go s = (.ok l, u) →
             ((s.x b).toNat ≤ z.now.toNat →
               exec (.recv d a b) s = .next (z.waitEnded d 0 (statusWord 3 0 0 0) none none scope))
             ∧ (z.ahead (s.x b) →
               let waits := ({ z with
                 hart.wait := some { cask := some l, deadline := (s.x b).toNat, buffer := some (q.loc, q.va) }
                 hart.stall := none } : State).queueAt l .recv (s.x b).toNat
               waits.dueAt l = waits → exec (.recv d a b) s = .next waits)))
         ∧ (z.ringCount l ≠ 0 → taken.isBad q.loc 64 = false →
           exec (.qpoll d a) s = .next (written.caskEnded d 0 (some scope))
           ∧ ((caskOpen p 0 true).go s = (.ok l, u) → soon →
             exec (.recv d a b) s = .next (written.waitEnded d 0 0 none none scope))))
       ∧ (u.requests p l true [5] z → exec (.wake a) s
         = .next ((if z.caskEp l = z.endpt ∧ z.wakeAccepted (z.ringQnum l) (.hart z.hart.id) = true
           then z.wakeQueue (z.ringQnum l) true else z).wroteNext 0 0)))
  ∧ (∀ (s u z : State) (d a b c : SReg) (v : VReg) (l : Loc),
      let p := s.x a
      let i := (s.x b).toNat
      let soon := i ≤ z.now.toNat + z.hart.maxwait.toNat
      let scope := (z.header l).scope
      let done := z.finishStrip l i ((s.x c).toNat % 2 ^ 32)
      let x := z.farmNow l
      let y := x.serveFarm l
      let f := z.serveFarm l
      let waits := fun (y : State) (verb : HomeVerb) => ({ y with
        hart.wait := some { cask := some l, deadline := i }
        hart.stall := none } : State).queueAt l verb i
      s.hart.wait = none → z.farmOk l = true →
        ((caskOpen p 0 false).go s = (.ok l, u) → u.requests p l true [4] z →
          exec (.farm d a) s = .next ((z.openFarm l).caskEnded d 0 none)
          ∧ (i < z.farmCount l → done.1.caskBad l = false → exec (.sdone d a b c) s = .next (done.1.caskEnded d done.2 none)))
        ∧ (u.requests p l false [4] z → soon → y.noneReleased → f.noneReleased →
          ((caskOpen p 0 true).go s = (.ok l, u) → x.caskBad l = false →
            (∀ j again, y.freeStrip l = some (j, again) → exec (.strip d a b) s
              = .next (((y.claimStrip l j again).setX b (.ofNat 64 j)).waitEnded d 0
                (statusWord 0 again.toNat (y.stripGen l j) 0) none none (y.header l).scope))
            ∧ (y.freeStrip l = none → y.farmDone l = y.farmCount l → exec (.strip d a b) s
              = .next ((y.setX b (-1)).waitEnded d 0 (statusWord 8 0 0 0) none none (y.header l).scope))
            ∧ (y.freeStrip l = none → y.farmDone l ≠ y.farmCount l →
              (i ≤ z.now.toNat → exec (.strip d a b) s
                = .next ((y.setX b (-1)).waitEnded d 0 (statusWord 3 0 0 0) none none scope))
              ∧ (z.now.toNat < i → y.now = z.now → (waits y .strip).dueAt l = waits y .strip →
                exec (.strip d a b) s = .next (waits y .strip))))
          ∧ ((caskOpen p v true).go s = (.ok l, u) → (v = 0 ∨ (z.vlg ≠ 0 ∧ z.farmCount l ≤ z.maxBits)) → f.caskBad l = false →
            (f.farmDone l = f.farmCount l → exec (.farmw d a b v) s = .next (f.waitEnded d v 0 (some 0) none scope))
            ∧ (f.farmDone l ≠ f.farmCount l →
              (i ≤ z.now.toNat → exec (.farmw d a b v) s
                = .next (f.waitEnded d v (statusWord 3 0 0 0xFFFF) (some 0) none scope))
              ∧ (z.now.toNat < i → f.now = z.now → (waits f .farmw).dueAt l = waits f .farmw →
                exec (.farmw d a b v) s = .next (waits f .farmw))))))

/-! ### Fences, saving, grants and records -/

/-- R88, R91, R100 to R103, R246, R332: with no failure latched, every destination that the hart has stores on their
way to answering, and nothing else awaited, a fence completes: the store buffer, the flush list and the flushes of a 65th pair
are empty, no store of the hart to one of their destinations is still on its way, and no register changes. `fence.vs` and `fence.vv` complete
once the homes have answered for every vector access. `fence.vs`, `fence.a` and `tlbia` empty the L1. `tlbi` and `tlbia` also
wait for the other harts, and no translation that they select is held any more. `flushrd` flushes the destination of its
pointer alone, at DOMAIN scope every die of its endpoint. A latched failure traps at the fence and is forgotten. -/
def Obligations.Fences : Prop :=
  ∀ (s : State) (sc : Scope) (a : SReg),
    let me := s.hart.id
    let pair := fun (p : Posted) => (epOf p.pa, dieOf (offOf p.pa))
    let kept := fun (z t : State) => t.hart.x = z.hart.x ∧ t.hart.v = z.hart.v ∧ t.hart.tile = z.hart.tile ∧ t.hart.pc = z.hart.pc + 4
      ∧ t.hart.status = z.hart.status ∧ t.hart.flags = z.hart.flags ∧ t.hart.buffer = []
    let sent := fun (z : State) => z.flushOverflow.drain
    let answer := fun (z : State) => z.flushOverflow.hart.latch = none ∧ (sent z).hart.buffer = []
      ∧ ∀ q ∈ (sent z).hart.toFlush, (sent z).pairFails q = none
    let flushed := fun (z t : State) => kept (sent z) t ∧ t.hart.toFlush = []
      ∧ ∀ p ∈ t.posted, p.hart = me → pair p ∉ (sent z).hart.toFlush
    let idle := fun (z : State) => z.ownTrains = [] ∧ z.hart.reassembly = [] ∧ z.copiesOf me = []
    let y := fun (sel : Word) => s.settleOthers.forget sel
    let f := s.flushOverflow
    let alone := fun (z : State) => answer z ∧ idle z ∧ z.othersPending = 0
    let x := s.ackTrains.landOwn
    (x.ownTrains = [] → x.hart.reassembly = [] → exec (.fenceVs sc) s = .next { x.wroteNext 0 0 with hart.l1 := [] }
      ∧ exec (.fenceVv sc) s = .next (x.wroteNext 0 0))
    ∧ (answer s → ∃ t, exec (.fenceSv sc) s = .next t ∧ flushed s t)
    ∧ (answer s → idle s → ∃ t, exec (.fenceA sc) s = .next t ∧ flushed s t ∧ t.hart.l1 = [])
    ∧ (alone (y (s.x a)) → ∃ t, exec (.tlbi a) s = .next t ∧ flushed (y (s.x a)) t
      ∧ ∀ q ∈ t.cached, s.settleOthers.selects (s.x a) q = false)
    ∧ (alone (y 0xC000) → ∃ t, exec .tlbia s = .next t ∧ flushed (y 0xC000) t ∧ t.hart.l1 = [] ∧ t.cached = [])
    ∧ (∀ l, f.hart.latch = some l → ∀ i ∈ [Instr.fenceSv sc, .fenceA sc, .flushrd a sc], ∃ t, exec i s = .next t
      ∧ ({ f with hart.latch := none } : State).traps t l.code (epDie l.ep l.die) (word l.deadline))
    ∧ ∀ (h : Endpoint × Die) (u : State), f.hart.latch = none → (homeOf (s.x a)).go f = (.ok h, u) → u.drain.hart.buffer = [] →
      let targets := if sc = .domain then (List.range 5).map fun d => (h.1, BitVec.ofNat 3 d) else [h]
      let own := (s.endpt, BitVec.ofNat 3 (dieOfCore s.hart.core))
      (∀ q ∈ targets, q ≠ own → u.drain.pairFails q = none) → ∃ t, exec (.flushrd a sc) s = .next t ∧ kept u.drain t
        ∧ (∀ p ∈ t.posted, p.hart = me → pair p ∈ targets → pair p = own)
        ∧ ∀ q ∈ t.hart.pairs, q ∈ targets → q = own

/-- R333, R334: whole-state save and restore. `vsvall` and `tsvall` write the image of the vector state and of the
tiles to their area, `vrsall` and `trsall` take it back; a clean state follows. `vrsall` under another grant raises
`LANE_GRANT_LOST` (47) with the saved count, and restores nothing. `vsvall` first takes the responses that have come, and
needs every clear group to belong to parked entries alone (R79). What `vsvall` writes is laid out as R333 says.
R326, R327, R335, R336: parking. `rapark` moves the reassembly entries and the membership entries to the context area,
notes where late responses and records go, and sets PARKED; `rarestore` takes them back and clears PARKED. With
`CTXAREA`.EN = 0 they raise the access causes (21 and 20) with `TVAL` = 0; with responses parked and VS Off `rarestore` raises
`VECTOR_OFF` (13). A parked membership entry reads back as it was. -/
def Obligations.SaveAndRestore : Prop :=
  (∀ (s u v : State) (d a : SReg) (l k : List (Phys × Nat)),
     let g := geometry s.vlg s.hart.maxvl s.hart
     let image := s.saveImage g
     let head := u.areaRead l
     let tiles := fun (t : State) (i : Fin 4) => t.hart.tile[i]
     let saved := u.areaWrite l (u.saveImage g)
     (s.landOwn.unlanded = none → (areaPlaces .store (s.x a) g.size).go s.landOwn = (.ok l, u) →
       exec (.vsvall d a) s = .next { saved.wroteNext d (word g.size) with
         hart.status.vs := if saved.hart.status.vs = .dirty then .clean else saved.hart.status.vs })
     ∧ ((∀ i x, [s.hart.vl, s.hart.vtype.toNat, s.hart.vrow, s.hart.vstart, s.hart.vcthr, s.vlg, s.hart.lcnt.toNat,
           s.hart.lbeg.toNat, s.hart.lend.toNat][i]? = some x → dwordAt image i = x % 2 ^ 64)
       ∧ ∀ r, r < g.regs → bytesAt image (0x100 + g.regs * g.bits + r * g.bytes) g.bytes = s.reg r % 2 ^ (8 * g.bytes))
     ∧ ((areaPlaces .load (s.x a) 0x100).go s = (.ok l, u) →
       (dwordAt head 5 ≠ s.vlg → ∃ t, exec (.vrsall a) s = .next t ∧ u.traps t 47 (word (dwordAt head 5)) s.hart.pc)
       ∧ (let h := { s.hart with vtype := word (dwordAt head 1) }
         dwordAt head 5 = s.vlg → (areaPlaces .load (s.x a) (geometry s.vlg (maxvlOf s.vlg h) h).size).go u = (.ok k, v) →
         exec (.vrsall a) s = .next ((v.restoreImage (v.areaRead k)).wroteNext 0 0)))
     ∧ ((areaPlaces .store (s.x a) tileArea).go s = (.ok l, u) → ∃ t bs, exec (.tsvall a) s = .next t
       ∧ t = { (u.areaWrite l bs).wroteNext 0 0 with hart.status.ts := .clean }
       ∧ bs.length = 73792 ∧ ∀ i : Fin 4, (bs.getD i 0).toNat = (tiles u i).tet % 32 + (tiles u i).tsb % 4 * 32
         ∧ bytesAt bs (64 + i * 18432) 16384 = (tiles u i).data % 2 ^ (8 * 16384)
         ∧ bytesAt bs (64 + i * 18432 + 16384) 2048 = (tiles u i).scl % 2 ^ (8 * 2048))
     ∧ ((areaPlaces .load (s.x a) tileArea).go s = (.ok l, u) → ∃ t, exec (.trsall a) s = .next t
       ∧ t = { u.wroteNext 0 0 with hart.status.ts := .clean, hart.tile := t.hart.tile }
       ∧ ∀ i : Fin 4, tiles t i = ⟨bytesAt head (64 + i * 18432) 16384, bytesAt head (64 + i * 18432 + 16384) 2048,
         (head.getD i 0).toNat % 32, (head.getD i 0).toNat / 32 % 4⟩))
  ∧ (∀ (s : State), let area := bits s.hart.ctxarea 56 13 * 8192
      (bitOf s.hart.ctxarea 0 = false → (∃ t, exec .rapark s = .next t ∧ s.traps t 21 0 0)
        ∧ ∃ t, exec .rarestore s = .next t ∧ s.traps t 20 0 0)
      ∧ (bitOf s.hart.ctxarea 0 = true → s.hart.redirects.length + s.hart.reassembly.length ≤ 64 →
        ∃ t, exec .rapark s = .next t ∧ t = { s.wroteNext 0 0 with
          mem := t.mem
          badMem := t.badMem
          hart.redirects := s.hart.redirects ++ s.hart.reassembly.map fun r => ⟨r.seq, area, r.place, r⟩
          hart.parked := (s.hart.parked.filter fun p => p.area ≠ area) ++ s.hart.members.map fun m => ⟨m.cask, area, m.place⟩
          hart.reassembly := []
          hart.members := []
          hart.status.parked := true }
          ∧ (s.canonical → ∀ m ∈ s.hart.members, (∀ n ∈ s.hart.members, n.place = m.place → n = m) → m.place < 8 →
            (∀ i, i < 64 → s.plainPlace (.glob (area + 0x40 + 64 * m.place + i))) →
            t.homeRead (.glob (area + 0x40 + 64 * m.place)) 64 = m.image))
      ∧ (bitOf s.hart.ctxarea 0 = true → (s.home64 (.glob (area + 8)) % 2 ^ 16 = 0 ∨ s.hart.status.vs ≠ .off) → s.drained →
        ∃ t, exec .rarestore s = .next t ∧ t.hart.status.parked = false ∧ t.hart.pc = s.hart.pc + 4 ∧ t.hart.x = s.hart.x
          ∧ (∀ p ∈ t.hart.parked, p.area ≠ area) ∧ (∀ r ∈ t.hart.redirects, r.area ≠ area)
          ∧ ∀ j, j < 8 → bit (s.home64 (.glob (area + 8))) (32 + j) = true →
            memberOf j (s.homeRead (.glob (area + 0x40 + 64 * j)) 64) ∈ t.hart.members)
      ∧ (bitOf s.hart.ctxarea 0 = true → s.home64 (.glob (area + 8)) % 2 ^ 16 ≠ 0 → s.hart.status.vs = .off →
        ∃ t, exec .rarestore s = .next t ∧ s.traps t 13 0 s.hart.pc)
      ∧ ∀ (m : Member), m.index < 2 ^ 16 → m.tag < 2 ^ 48 → m.gen < 2 ^ 32 → m.scope < 8 → m.n < 2 ^ 16 →
        (match m.cask with | .glob pa => pa < 2 ^ 57 | .spad c o => c < 384 ∧ o < 2 ^ 21) →
        (∀ r, m.slot = some r → r.tag < 2 ^ 48 ∧ r.absent < 2 ^ 64 ∧ m.n ≤ 64) → (∀ t, m.mend = some t → t < 2 ^ 48) →
        memberOf m.place m.image = m)

/-- R337, R338: lane grants and pre-emption requests. `lgset` gives group g of the core to hart k if MASK names it and
it is free, or another's and FORCE is 1; groups of k that MASK does not name are freed; the others stay; S(d) takes
the groups of k; this with no vector convoy of the core held. `preempt` makes the request pending at the hart it names and gives 0, or gives 1 when there is none
of that number in the partition. R290, R421, R425: `lcrs`, once the hart's vector convoys have drained, gives the count and whether it counted, and starts or stops
a new record; `mark` adds a mark record, with the low 32 bits of S(a), to the partition's ring, and nothing with
tracing off. As events: an overflow stops counting and makes `LCR_OVERFLOW` (90) pending, a sample adds a sample
record, and a halt request makes `DEBUG_HALT` (86) pending. -/
def Obligations.GrantsAndRecords : Prop :=
  (∀ (s : State) (d a : SReg),
     let c := s.hart.id / 4
     let v := (s.x a).toNat
     let k := BitVec.ofNat 2 (v / 2 ^ 8)
     let old := fun (g : Nat) => (s.coreAt c).lat.toList.getD g none
     let n := v % 2 ^ 11
     let urgent := (s.x a).getLsbD 63
     (8 ≤ s.part.quota → s.canonical →
       (s.coreAt c).latNew = none → s.hart.stall = none → (∀ j, j < 4 → (s.hartAt (4 * c + j)).vectorHeld = false) →
       ∃ t, exec (.lgset d a) s = .next t
         ∧ (∀ g, g < 8 → (t.coreAt c).lat.toList.getD g none =
           if v.testBit g then (if old g = none ∨ v.testBit 10 then some k else old g)
           else if old g = some k then none else old g)
         ∧ t.hart.x = (s.wroteNext d (word (((List.range 8).filter fun g =>
             (t.coreAt c).lat.toList.getD g none = some k).map fun g => 2 ^ g).sum)).hart.x
         ∧ t.hart.pc = s.hart.pc + 4 ∧ t.mem = s.mem ∧ t.spad = s.spad)
     ∧ (n < 1536 ∧ s.part.cores.contains (n / 4) = true → exec (.preempt d a) s = .next ((s.modHart n fun h => { h with
         pend := true
         urgp := urgent || (h.pend && h.urgp)
         pending := (h.pending.filter fun t => t.code ≠ 79) ++ [⟨79,
           (h.pending.find? fun t => t.code = 79).elim (word s.hart.id) (·.tval),
           word (urgent || (h.pend && h.urgp)).toNat⟩] }).wroteNext d 0))
     ∧ (¬ (n < 1536 ∧ s.part.cores.contains (n / 4) = true) → exec (.preempt d a) s = .next (s.wroteNext d 1)))
  ∧ (∀ (s : State) (d a : SReg),
      let h := s.hart
      let p := s.part
      let told := fun (c : Nat) => if (⟨c, 0, 0⟩ : Trap) ∈ h.pending then h.pending else h.pending ++ [⟨c, 0, 0⟩]
      let record := fun (t : State) (sampled kind members value : Nat) => t.part = { p with
          traceUsed := p.traceUsed + 1
          traceNext := (p.traceNext + 1) % p.traceSize
          sampled := sampled }
        ∧ t.hart.pending = h.pending
        ∧ t.mem = s.mem.writeN (p.traceBase + 32 * p.traceNext)
          (leBytes (kind + h.id * 2 ^ 8 + (if h.priv = .super then 2 ^ 19 else 0)) 8 ++ leBytes s.now.toNat 8
            ++ leBytes h.pc.toNat 8 ++ leBytes (members + value * 2 ^ 32) 8)
      let y := if s.openReg = none then s else s.ackTrains.landOwn
      let due := p.sampled + p.tracePeriod ≤ s.now.toNat
      (y.drained → exec (.lcrs d a) s = .next
        { y.wroteNext d (word (y.hart.lcr.on.toNat * 2 ^ 63 + y.hart.lcr.cyc)) with hart.lcr := { on := (s.x a).getLsbD 0 } })
      ∧ (p.traceSize = 0 → exec (.mark a) s = .next (s.wroteNext 0 0)
        ∧ (due → exec .traceSample s = .next { s with part.sampled := s.now.toNat }))
      ∧ (p.traceUsed < p.traceSize → p.traceLost = 0 →
        (∃ t, exec (.mark a) s = .next t ∧ t.hart.pc = h.pc + 4 ∧ record t p.sampled 2 1 ((s.x a).toNat % 2 ^ 32))
        ∧ (due → ∃ t, exec .traceSample s = .next t ∧ t.hart = h ∧ record t s.now.toNat 1 s.convoyWords 0))
      ∧ (h.lcr.on = true → exec .lcrOverflow s = .next { s with hart.lcr.on := false, hart.pending := told 90 })
      ∧ exec .debugHalt s = .next { s with hart.pending := told 86 })

/-! ### Events -/

/-- R268, R342, R344: a pending cause that a hart takes at a boundary, once its vector convoys have drained, in a wait that has no
answer, or at a stalled scalar instruction before its deadline, lands there; it is pending no more, but for a `PREEMPT_REQUEST`
with PEND set (R329), and what the entry saves and changes is that of R340. One that stops a stalled vector convoy is noted for
the step that runs it. R329, R337, R338, R342: causes that become pending at a hart. A request sets PEND and keeps the first requester; a
time slice that is armed is pending once `NOW` has reached it, with TIME as its value; host requests, firmware calls
and machine checks bring their word; a partition reset reaches every hart. -/
def Obligations.CausesAtAHart : Prop :=
  (∀ (s : State) (pos n : Nat) (c : Trap),
     let h := s.hart
     h.run = .running → (h.priv = .user ∨ h.status.ie = true) → firstPending h.pending = some c → 74 ≤ c.code → c.code ≤ 95 →
       let lands := fun (z : State) => ∃ t, exec (.asyncCauseTaken pos n) s = .next t
         ∧ t = { z.trapEntry c.code c.tval c.tval2 z.hart.pc false with
           hart.pending := if c.code = 79 ∧ z.hart.pend = true then z.hart.pending else z.hart.pending.erase c
           hart.words := t.hart.words }
       let open_ := fun (z : State) => z.hart.claimed = false ∧ z.part.traceSize = 0
       let y := s.settleOwn
       let splits := c.code ≠ 86 ∧ c.code ≠ 87 ∧ c.code ≠ 88 ∧ (c.code = 79 → c.tval2.getLsbD 0 = true ∧ h.uen = true)
       (h.stall = none → ∀ w, h.wait = some w → w.ends = false → open_ s → lands s)
       ∧ (h.stall = none → h.wait = none → (c.code ≠ 79 ∨ c.tval2.getLsbD 0 = false ∨ h.uen = false
           ∨ ∀ i, s.current = some i → i.kind.vector = false) → y.boundaryStop true = none → open_ y → lands y)
       ∧ ∀ st, h.stall = some st →
         (st.vec = false → st.kind ∈ [3, 10] → s.now.toNat < st.deadline → s.boundaryStop true = none → open_ s → lands s)
         ∧ (st.vec = false → st.kind ∉ [3, 10, 12] → splits → s.now.toNat < st.deadline → open_ s → lands s)
         ∧ (st.vec = true → splits → exec (.asyncCauseTaken pos n) s = .next { s with hart.splitAt := some (pos, n) }))
  ∧ (∀ (s : State) (v : Word) (who : BitVec 11) (urgent : Bool),
      let h := s.hart
      let told := fun (c : Trap) => Host.Outcome.next (φ := Fault) (ρ := Refusal)
        { s with hart.pending := if c ∈ h.pending then h.pending else h.pending ++ [c] }
      exec (.preemptRequest who urgent) s = .next { s with
          hart.pend := true
          hart.urgp := urgent || (h.pend && h.urgp)
          hart.pending := (h.pending.filter fun t => t.code ≠ 79) ++ [⟨79,
            (h.pending.find? fun t => t.code = 79).elim (word who.toNat) (·.tval),
            word (urgent || (h.pend && h.urgp)).toNat⟩] }
      ∧ exec (.hostRequest v) s = told ⟨93, v, 0⟩
      ∧ exec (.firmwareCall v) s = told ⟨94, v, 0⟩
      ∧ exec (.machineCheck v) s = .next { s with
          recovery := s.recovery.map fun r => { r with seen := (r.seen ++ [s.endpt]).dedup }
          hart.pending := if ⟨95, v, 0⟩ ∈ h.pending then h.pending else h.pending ++ [⟨95, v, 0⟩] }
      ∧ (h.sliceArmed = true → bitOf h.slice 63 = true → h.slice.toNat % 2 ^ 48 ≤ s.now.toNat →
        exec .timeSlice s = .next { s with
          hart.sliceArmed := false
          hart.pending := h.pending ++ [⟨81, word (h.slice.toNat % 2 ^ 48), 0⟩] })
      ∧ (h.sliceArmed = true → bitOf h.slice 63 = true → s.now.toNat < h.slice.toNat % 2 ^ 48 → h.overflow = [] →
        ∃ t, exec .timeSlice s = .next t ∧ t.now.toNat = h.slice.toNat % 2 ^ 48 ∧ t.hart = { h with
          sliceArmed := false
          pending := h.pending ++ [⟨81, word (h.slice.toNat % 2 ^ 48), 0⟩] })
      ∧ (s.stagings = [] → s.canonical → ∃ t, exec .partitionReset s = .next t ∧ t = { s with hart := t.hart, others := t.others }
        ∧ ∀ c ∈ s.part.cores, ∀ k, k < 4 → (⟨85, 0, 0⟩ : Trap) ∈ (t.hartAt (4 * c + k)).pending))

/-- R70, R74, R76, R78, R79, R337, R344: the ends of implicit stalls. What the access waits for has come (the page has
moved, the watermark has passed, the copies have retired, the register has landed): a scalar instruction's stall is over, that
of a held vector convoy or of a parked instruction is to be tried again, and nothing else changes. The event of a deadline lets time reach it; an
instruction that still stalls then raises `WAIT_EXPIRED` (48), with the kind and the object in `TVAL` and the deadline in
`TVAL2`, and for a flush `FLUSH_TIMEOUT` (62). A grant change takes effect once no hart of the core holds a vector convoy.
R123, R264, R267, R269, R431, R435: answers to a wait. An answer and a closure record are noted in the wait that awaits them,
and a record that finds no wait in the slot of its entry. At its deadline a wait that a silent home has not answered ends in
the hart; a `cwait` ends with what its channel says then (R77); at D − G the home ends the wait; a barrier's member that is
held back by a stagger delay completes after it. R123, R132, R435: what happens at a cask by itself. At DEADLINE − G the round
of a barrier closes with code 1: the members that have not arrived are the absentees, and the next round opens. A waiting
`recv` whose deadline comes is answered EMPTY by the home. A claim that is not renewed expires: its strip is free again, under
the next generation. -/
def Obligations.StallsAndWaits : Prop :=
  (∀ (s : State) (st : Stall) (o : Nat),
     let again : Stall := { st with kind := 13, object := if st.vec then 0 else st.object, deadline := 2 ^ 64 }
     let resumes := Host.Outcome.next (φ := Fault) (ρ := Refusal)
       { s with hart.stall := if st.vec = true ∨ st.kind = 4 then some again else none }
     let core := s.coreAt (s.hart.id / 4)
     (s.hart.stall = some st →
       (st.kind = 4 → (∀ o u, (translate s.ctx .load st.object).go s ≠ (.error (.stall 4 o), u)) →
         exec .parkResume s = resumes)
       ∧ (st.kind = 1 → (let k := core.ch.toList.getD st.object {}
           k.busy = 0 ∧ (k.counts = true → k.dbase + k.len ≤ k.wm)) → exec .watermarkStallResume s = resumes)
       ∧ (st.kind = 2 → (∀ c ∈ s.copies, c.hart / 4 ≠ s.hart.id / 4) → exec .scoreboardStallResume s = resumes)
       ∧ (st.kind = 3 → s.hart.flying.toList.getD st.object 0 = 0 → exec .landedBitStallResume s = resumes)
       ∧ (st.deadline ≤ s.now.toNat → exec .waitExpiredImplicit s = .next s)
       ∧ (st.kind ≠ 13 → s.now.toNat < st.deadline → st.deadline < 2 ^ 64 → ∃ t, exec .waitExpiredImplicit s = .next t
         ∧ t.now.toNat = st.deadline ∧ t.hart.pc = s.hart.pc ∧ t.hart.stall = s.hart.stall ∧ t.mem = s.mem)
       ∧ (st.deadline ≤ s.now.toNat → st.same st.kind o = true →
         s.traps (s.stallAt st.kind o) (if st.kind = 0 then 62 else 48)
           (if st.kind = 0 then word o else if st.kind = 12 then Config.responseTval o else word (st.kind * 2 ^ 56 + o % 2 ^ 56))
           (word st.deadline)))
     ∧ ∀ new, core.latNew = some new → s.canonical →
       (∀ j, j < 4 → (s.hartAt (4 * (s.hart.id / 4) + j)).vectorHeld = false) →
       ∃ t, exec .lgsetApply s = .next t ∧ (t.coreAt (s.hart.id / 4)).lat = new ∧ (t.coreAt (s.hart.id / 4)).latNew = none
         ∧ t.hart.pc = s.hart.pc ∧ t.hart.x = s.hart.x ∧ t.mem = s.mem ∧ t.spad = s.spad)
  ∧ (∀ (s : State) (w : Wait) (l : Loc) (e : Member) (st : Word) (absent tag : Nat) (data : List Byte) (d a b : SReg) (c : VReg)
        (ch : BitVec 3),
      let answered := fun (x : Answer) => Host.Outcome.next (φ := Fault) (ρ := Refusal)
        { s with hart.wait := some { w with answer := some x } }
      let code := st.toNat / 2 ^ 56
      let k := s.channel ch
      let lost := fun (i : Instr) (t : State) => s.current = some i → w.answer = none →
        w.deadline ≤ s.now.toNat → s.homeSilent l = true → s.noneReleased → exec .waitDeadlineAtHart s = .next t
      let ends := fun (n t : Nat) => statusWord n 0xFE t 0xFFFF
      s.hart.entry l = some e →
        (s.hart.wait = some w → w.cask = some l →
          (w.answer = none → exec (.caskAnswerArrival st ⟨absent, data⟩) s = answered {
              status := st
              absent := if code ≤ 2 ∧ ¬ (code = 0 ∧ (s.header l).kind = 2) then some absent else none
              n := e.n
              tag := w.round + (st.toNat / 2 ^ 16 % 2 ^ 32 + (2 ^ 32 - w.round % 2 ^ 32)) % 2 ^ 32
              scope := e.scope
              strip := word (leNat (data.take 8))
              data := data })
          ∧ (w.answer = none → w.barr = false → s.hart.parked = [] →
            exec (.closureRecordArrival l st tag absent) s
              = answered ⟨st, some absent, e.n, tag, e.scope, 0, []⟩)
          ∧ (∀ i ∈ [Instr.bar d a b c, .barw d a b c, .qarr d a b c, .qwait d a b c],
            lost i (s.waitEnded d c (ends 1 e.tag) none (some e.tag) e.scope))
          ∧ lost (.barr d a b) (s.waitEnded d 0 (ends 1 e.tag) none (some e.tag) 0)
          ∧ lost (.acq d a b c) ((s.entered l fun m => { m with mend := some m.tag }).waitEnded d c (ends 1 e.tag) none
            (some e.tag) e.scope)
          ∧ lost (.recv d a b) (s.waitEnded d 0 (ends 8 0) none none e.scope)
          ∧ lost (.strip d a b) ((s.setX b (-1)).waitEnded d 0 (ends 1 0) none none e.scope)
          ∧ lost (.farmw d a b c) (s.waitEnded d c (ends 1 0) none none e.scope)
          ∧ (∀ x t, w.answer = some x → w.delay = some t → t ≤ s.now.toNat → x.status.toNat / 2 ^ 56 ≤ 1 → s.noneReleased →
            s.current = some (.bar d a b c) ∨ s.current = some (.barw d a b c) →
            exec .staggeredCompletion s = .next ((s.entered l fun m => { m with
              tag := min (x.tag + 1) (2 ^ 48 - 1)
              arrived := false }).waitEnded d c x.status x.absent (some x.tag) x.scope)))
        ∧ (s.hart.wait = none → s.hart.parked = [] → s.hart.members = [e] →
          exec (.closureRecordArrival l st tag absent) s
            = .next { s with hart.members := [{ e with slot := some ⟨st, tag, absent⟩ }] })
        ∧ (s.hart.wait = some w → w.cask = none → w.answer = none → w.deadline ≤ s.now.toNat →
          s.current = some (.cwait ch a b) → k.flt = none → k.ovf = false → s.noneReleased →
          let done := k.complete = true
          exec .waitDeadlineAtHart s
            = .next (s.waitEnded b 0 (statusWord (if done then 0 else 1) 0 0 k.busy) none none (if done then 1 else 0))))
  ∧ (∀ (s : State) (l : Loc) (strip : Nat) (x : HomeWaiter),
      let h := s.header l
      let c := s.roundTag l
      s.canonical → s.plainCask l → s.caskBad l = false →
        (h.kind = 1 → 1 ≤ h.n → h.n ≤ 64 → c < 2 ^ 48 - 1 → (∀ x ∈ s.harts, x.parked = []) →
          s.bitmap l h 0 < 2 ^ h.n - 1 → s.roundDeadline l ≠ 2 ^ 64 - 1 → s.roundDeadline l ≤ s.now.toNat + guard h.scope →
          ∃ t, exec (.roundClosure l) s = .next t ∧ t.roundTag l = c + 1 ∧ t.bitmap l h 0 = 0
            ∧ t.bitmap l h 1 = 2 ^ h.n - 1 - s.bitmap l h 0 ∧ t.roundDeadline l = 2 ^ 64 - 1 ∧ (t.header l).last = 1
            ∧ t.hart.pc = s.hart.pc ∧ t.hart.x = s.hart.x)
        ∧ (h.kind = 5 → s.waiters = [x] → x.cask = l → x.verb = .recv → x.hart = some s.hart.id →
          x.deadline ≤ s.now.toNat + guard h.scope → ∀ w, s.hart.wait = some w → w.cask = some l → w.answer = none →
          exec (.homeWaitDeadline l) s = .next { s with
            waiters := []
            hart.wait := some { w with answer := some ⟨statusWord 8 0 0 0, none, 0, 0, h.scope, 0, []⟩ } })
        ∧ (h.kind = 4 → s.farmOk l = true → 64 ≤ s.home64 (l.plus 40) % 2 ^ 32 → strip < s.farmCount l → s.stripSt l strip = 1 →
          s.waiters = [] → s.home64 ((s.stripLoc l strip).plus 8) ≤ s.now.toNat →
          (∀ i, i < s.farmCount l → s.stripSt l i ≠ 3 ∧ ∀ j, j < 16 → s.plainPlace ((s.stripLoc l i).plus j)) →
          ∃ t, exec (.stripClaimExpiry l strip) s = .next t ∧ t.stripSt l strip = 0
            ∧ t.stripGen l strip = (s.stripGen l strip + 1) % 2 ^ 32 ∧ t.hart = s.hart))

/-- R86, R98, R99, R100 to R104: stores and flushes on their way. A buffered store leaves once none before it shares a
byte with it: to its home at once on the own die, else as a posted store whose destination the hart records; it stays while a
flush that a 65th destination brought about is unanswered. A posted
store is applied once no earlier one of its hart to its line is on its way. A flushing read applies those of its
source at its die; its answer clears the destination at the hart, and is noted for an instruction that waits for it; a flush
that a 65th pair brought about is latched when its deadline comes. The elements of a train of another endpoint are applied and
counted, one that R377 refuses is answered with its cause, and a train whose tail counts them all is acknowledged and answered;
so are those of a hart's own train at their homes, whose flags go to `FLAGS`, or to FLAGSLOT of the context that issued them
(R237, R393). R327, R335, R401, R402: responses. A response fills the positions of its entry that it names from their homes, here
one position of a vector register, and the entry is gone when none is left; one that carries what was not asked for is discarded
with its entry, and its convoy stops there with `REASSEMBLY_OVERFLOW` (70, R345), or a fault-only-first load trims (R68). A
response to a parked request goes to
its data slot in the context area, whose flags are set, and frees the redirect entry. -/
def Obligations.StoreAndResponseEvents : Prop :=
  (∀ (s : State) (i : Nat) (b : Buffered) (p : Posted) (src : Nat) (ep : Endpoint) (die : Die) (dl : Nat),
     let plain := fun (a : Nat) => s.plainPlace (.glob a)
     let here := fun (a : Nat) => (epOf a, dieOf (offOf a))
     let own := (s.endpt, BitVec.ofNat 3 (dieOfCore (s.hart.id / 4)))
     let without := s.hart.buffer.eraseIdx i
     let toward := fun (h : Nat) (q : Posted) => decide (q.hart = h ∧ here q.pa = (s.endpt, die))
     let applied := fun (h : Nat) => (s.posted.filter (toward h)).foldl (fun (t : State) q => t.homeSet (.glob q.pa) q.data) s
     let flush := decide (∃ st, s.hart.stall = some st ∧ st.kind = 0)
     (s.hart.buffer[i]? = some b → (∀ c ∈ s.hart.buffer.take i, c.meets b = false) →
       (here b.pa = own → plain b.pa →
         exec (.storeBufferDrain i) s = .next (({ s with hart.buffer := without } : State).homeSet (.glob b.pa) b.data))
       ∧ (here b.pa ≠ own → here b.pa ∈ s.hart.pairs ∨ s.hart.pairs.length < 64 →
         epOf b.pa = s.endpt ∨ (s.posted.filter fun q => epOf q.pa = epOf b.pa).length < 64 →
         (s.hart.overflow = [] → exec (.storeBufferDrain i) s = .next { s with
           hart.buffer := without
           posted := s.posted ++ [⟨s.hart.id, b.pa, b.data, s.nextId, 0⟩]
           nextId := s.nextId + 1
           hart.pairs := if here b.pa ∈ s.hart.pairs then s.hart.pairs else s.hart.pairs ++ [here b.pa]
           hart.sent := countPair (here b.pa) s.hart.sent })
         ∧ (s.hart.overflow ≠ [] → (∀ q ∈ s.hart.overflow, s.pairFails (q.1, q.2.1) = some 62) →
           exec (.storeBufferDrain i) s = .next s)))
     ∧ (s.posted[i]? = some p → (∀ q ∈ s.posted.take i, ¬ (q.hart = p.hart ∧ q.pa / 64 = p.pa / 64)) → plain p.pa →
       exec (.storeApply i) s = .next (({ s with posted := s.posted.eraseIdx i } : State).homeSet (.glob p.pa) p.data))
     ∧ ((∀ q ∈ s.posted, plain q.pa) →
       exec (.flushingRead src die) s = .next { applied src with posted := s.posted.filter fun q => !toward src q }
       ∧ exec (.flushAnswer s.endpt die) s = .next { applied s.hart.id with
         posted := s.posted.filter fun q => !toward s.hart.id q
         hart.pairs := s.hart.pairs.filter fun q => q ≠ (s.endpt, die)
         hart.overflow := s.hart.overflow.filter fun q => !(q.1 = s.endpt && q.2.1 = die)
         hart.sent := s.hart.sent.filter fun q => q.1 ≠ (s.endpt, die)
         hart.answered := if flush && !s.hart.answered.contains (s.endpt, die) then s.hart.answered ++ [(s.endpt, die)]
           else s.hart.answered })
     ∧ (s.hart.stall = none → s.hart.latch = none → s.hart.overflow = [(ep, die, dl)] → s.now.toNat < dl → dl < 2 ^ 64 →
       ∃ t, exec (.flushTimeout ep die) s = .next t ∧ t.now.toNat = dl ∧ t.hart.latch = some ⟨62, ep, die, dl⟩
         ∧ t.hart.overflow = [] ∧ t.mem = s.mem))
  ∧ (∀ (s : State) (i : Nat) (tr : Train) (x : TrainItem) (pa n h c : Nat) (data : List Byte),
      let z : State := { s with trains := [{ tr with
        items := []
        applied := tr.applied + 1 }] }
      let r := z.applyItem (some h) x
      let none_ : State := { s with trains := [] }
      let slot := Loc.glob (bits tr.ctx 56 13 * 8192)
      (s.trains[i]? = some tr → tr.hart = none → tr.tail = none → (∀ u ∈ s.trains, u.hart = none → u.complete = false) →
        let came : State := { s with trains := s.trains.set i { tr with
          die := dieOf (offOf pa)
          applied := tr.applied + 1 } }
        (s.exportStop pa data.length true = none → s.plainPlace (.glob pa) →
          exec (.trainElement i (.element pa data)) s = .next (came.homeSet (.glob pa) data))
        ∧ (s.exportStop pa data.length true = some c →
          exec (.trainElement i (.element pa data)) s = .next { came with replies := s.replies ++ [.cause c] })
        ∧ (n ≠ tr.applied ∨ tr.items ≠ [] → exec (.trainElement i (.tail n)) s
          = .next { s with trains := s.trains.set i { tr with tail := some n } }))
      ∧ (s.trains = [tr] → tr.hart = none → tr.items = [] → exec (.trainElement 0 (.tail tr.applied)) s
        = .next { s with trains := [], replies := s.replies ++ [.data []] })
      ∧ (s.trains = [tr] → tr.hart = some h → tr.items = [x] → x.loc = .glob pa →
        exec (.trainElement 0 (.element pa data)) s = .next { r.1 with trains := [{ tr with
          items := []
          applied := tr.applied + 1
          fl := tr.fl ||| r.2 }] })
      ∧ (s.trains = [tr] → tr.hart = some s.hart.id → tr.tail = some tr.applied → tr.items = [] →
        let here := bitOf tr.ctx 0 = false ∨ s.hart.ctxarea = tr.ctx
        (here → exec (.trainAck tr.ep tr.die) s = .next { none_ with hart.flags := s.hart.flags ||| .ofNat 7 tr.fl })
        ∧ (¬ here → tr.fl ≠ 0 →
          exec (.trainAck tr.ep tr.die) s = .next (none_.setHome64 slot (s.home64 slot ||| tr.fl)))))
  ∧ (∀ (s : State) (r : Reassembly) (j n : Nat) (mask : BitVec 64) (excess k d : Nat) (q : Redirect) (src : Source),
      let w := widthOfCode r.width
      let rest := s.hart.reassembly.filter fun x => x.place ≠ r.place
      let data := s.responseData q.request
      ((s.hart.reassembly.find? fun x => x.seq % 32768 = r.seq % 32768) = some r →
        (s.ownTrains = [] → (∀ x ∈ s.hart.reassembly, x.place ≠ r.place → x.shares r = false) → j < 64 → r.mask.getLsbD j = true → r.width ≠ 6 → r.reg < 32 → (r.first + j + 1) * w ≤ s.maxBits →
          (r.src.find? fun q => q.pos = r.first + j) = some src →
          ∃ t, exec (.responseArrival r.seq (1#64 <<< j) 0) s = .next t
            ∧ t = { s with
              hart.v := t.hart.v
              hart.flying := t.hart.flying
              hart.status.vs := .dirty
              hart.reassembly := t.hart.reassembly }
            ∧ t.elem r.reg w (r.first + j) = s.sourceValue w src % 2 ^ w
            ∧ (∀ e, e ≠ r.first + j → (e + 1) * w ≤ s.maxBits → t.elem r.reg w e = s.elem r.reg w e)
            ∧ (∀ n, n ≠ r.reg → t.reg n = s.reg n)
            ∧ (r.mask = 1#64 <<< j → t.hart.reassembly = rest)
            ∧ (r.mask ≠ 1#64 <<< j → t.hart.reassembly = s.hart.reassembly.map fun x =>
              if x.place = r.place then { r with mask := r.mask &&& ~~~(1#64 <<< j) } else x))
        ∧ (mask &&& ~~~r.mask ≠ 0 ∨ excess ≠ 0 →
          (r.left = true → exec (.responseArrival r.seq mask excess) s = .next { s with hart.reassembly := rest })
          ∧ (r.left = false → s.hart.reassembly = [r] → s.trains = [] → (∀ x ∈ r.src, r.first ≤ x.pos) →
            let y : State := { s with hart.reassembly := [] }
            (r.tile = some d → r.start < r.first →
              exec (.responseArrival r.seq mask excess) s = .next (y.trimLoad d r.first))
            ∧ (r.tile = none ∨ r.first ≤ r.start → s.hart.run = .running →
              ∃ t words, exec (.responseArrival r.seq mask excess) s = .next t
                ∧ ({ y with
                  hart.pc := r.head
                  hart.vstart := r.first
                  hart.lcnt := r.lcnt
                  hart.words := words } : State).trapsAt t 70 (epDie r.ep r.die) 0 r.head
                    (decide (r.start < r.first) || r.committed)))))
      ∧ ((s.hartAt n).redirects[k]? = some q → q.slot < 16 → data.length ≤ 256 → s.canonical →
          (∀ i, i < 8192 → s.plainPlace (.glob (q.area + i))) →
          ∃ t, exec (.redirectedResponse n k) s = .next t
            ∧ t = { s.modHart n fun h => { h with redirects := h.redirects.eraseIdx k } with mem := t.mem, badMem := t.badMem }
            ∧ t.homeRead (.glob (q.area + 0x800 + 256 * q.slot)) data.length = data
            ∧ bit (t.home64 (.glob (q.area + 0x240 + 32 * q.slot))) 62 = true
            ∧ bit (t.home64 (.glob (q.area + 8))) (16 + q.slot) = true))

/-- R82, R96, R117, R377: requests of other endpoints. A byte that is exported may be read, one exported for writing takes an
atomic, which answers with the old value, here of an add and of a compare-and-swap that finds another value; a withdrawn page
answers `REMOTE_PAGE_FAULT` (68), and a page that is not exported `REMOTE_ACCESS` (69); with the ingress queue full a request is
NACKed (R404). A cask request is served by the
rules of its instruction, here an acquire of a free lock and an entry taken from a ring. R366 to R375: commands to the
memory engine, here while nothing is under way and the words to be written lie in the partition's allotment. The engine takes
the head of its queue. MIGRATE marks the leaf of the page, drops its translations and notes the move; when the copy completes,
the leaf names the new page and tier, and the hart that it names is told (76); a command that is not formed as R366 has it
answers DAMAGED 1. LEND makes an offer; ACCEPT matches it and, within the limits of R373, makes the lease active, else both sides
get DAMAGED 5; RECLAIM starts the racking with the notice period, and tells the borrower (74); RETURN ends an active
lease, and answers STALE while one racks; an offer expires with code 1; racking moves a granule to the fallback, the last one
ends the lease and tells the borrower (75). -/
def Obligations.MemoryEngine : Prop :=
  (∀ (s : State) (pa n : Nat) (r : AtomicRequest) (x : Export) (q : CaskRequest) (d : Nat),
     let sends := fun (t : State) (y : Reply) => { t with replies := t.replies ++ [y] }
     let sound := fun (a k : Nat) => epOf a = s.endpt ∧ s.backed (offOf a) = true ∧ s.isBad (.glob a) k = false
       ∧ (s.exports.find? fun e => e.page = a / 65536) = some x
     let old := leNat (s.homeRead (.glob r.pa) r.bytes)
     let y := r.operand.toNat % 2 ^ (8 * r.bytes)
     let z := s.tidy q.cask
     let k := z.lock q.cask
     (s.ingressFull = true → exec (.readRequest pa n) s = .next (sends s (.nack 0))
       ∧ exec (.atomicRequest r) s = .next (sends s (.nack 0)))
     ∧ (s.ingressFull = false → (sound pa n → x.withdrawn = false →
       exec (.readRequest pa n) s = .next (sends s (.data (s.homeRead (.glob pa) n))))
     ∧ (sound pa n → x.withdrawn = true → exec (.readRequest pa n) s = .next (sends s (.cause 68)))
     ∧ (epOf pa ≠ s.endpt ∨ s.backed (offOf pa) = false → exec (.readRequest pa n) s = .next (sends s (.cause 69)))
     ∧ (sound r.pa r.bytes → x.withdrawn = false → s.plainPlace (.glob r.pa) →
       (x.writable = false → exec (.atomicRequest r) s = .next (sends s (.cause 69)))
       ∧ (x.writable = true →
         (r.op = .add → exec (.atomicRequest r) s = .next (sends
           (s.homeSet (.glob r.pa) (leBytes ((old + y) % 2 ^ (8 * r.bytes)) r.bytes)) (.data (leBytes old r.bytes))))
         ∧ (r.op = .cas → old ≠ r.expected.toNat % 2 ^ (8 * r.bytes) →
           exec (.atomicRequest r) s = .next (sends s (.data (leBytes old r.bytes)))))))
     ∧ ((∀ a, q.cask = .glob a → s.exportStop a 64 true = none) → s.caskBad q.cask = false →
       s.configOk q.cask (s.header q.cask) = true → z.header q.cask = s.header q.cask →
       ((z.header q.cask).kind = 2 → q.group = .sync → q.verb = .acquire d → k.held = false →
         exec (.caskRequest q) s = .next (sends (z.setLock q.cask { k with
           holder := q.index
           held := true
           suspect := false }) (.status (statusWord 0 k.repaired.toNat k.gen 0) 0)))
       ∧ ((z.header q.cask).kind = 5 → q.group = .que → q.verb = .poll → z.ringCount q.cask ≠ 0 →
         exec (.caskRequest q) s = .next (sends (sends (z.setHome64 (q.cask.plus 24) ((z.ringHead q.cask + 1) % 2 ^ 32))
           (.status (statusWord 0 0 0 0) 0)) (.data (z.homeRead (z.ringSlot q.cask (z.ringHead q.cask)) 64))))))
  ∧ (∀ (s : State) (c : EngineCommand) (pte leaf size asid g : Nat) (table : Word) (m : Migration) (x : Lease) (l : Loc)
      (rest : List Move),
      let h := s.hart
      let field := fun (i hi lo : Nat) => bits c.dw[i]! hi lo
      let told := fun (z : Trap) => if z ∈ h.pending then h.pending else h.pending ++ [z]
      let done := fun (t : State) (a code detail : Nat) => t.setHome64 (.glob a) (statusWord code detail 0 0).toNat
      let record := fun (t : State) (l : Lease) => ({ t with leases := [l] } : State).writeLease l
      let mine := fun (a : Nat) => s.allotted a 8 = true
      let e := ({ s with agenda := rest } : State).visit l
      (s.thermal ≠ .down → s.agenda = .engine :: rest → s.part.engine = some l → e.caskBad l = false → (e.header l).kind = 5 →
        e.configOk l (e.header l) = true → e.ringCount l ≠ 0 →
        step s = .next ((e.setHome64 (l.plus 24) ((e.ringHead l + 1) % 2 ^ 32)).command
          ⟨s.endpt, Vector.ofFn fun i => word (dwordAt (e.homeRead (e.ringSlot l (e.ringHead l)) 64) i.val)⟩))
      ∧ (let va := field 1 54 0
        let dest := field 2 56 16 * 65536
        let page := va / size * size
        field 0 3 0 = 1 → field 2 1 0 ≤ 1 → mine c.completion → s.hartOk c.endpt c.notify = true → field 0 28 16 = asid → asid < s.part.asidCount →
        s.tableOf asid = some table → s.leafOf va 2 (bits table 56 16 * 65536) = some (leaf, pte, size) →
        bit pte 10 = false → bit pte 11 = false → dest % size = 0 → s.regionOk (epOf dest) (offOf dest) size = true →
        s.racked pte size = false → s.canonical → s.quiet → (∀ i, i < 8 → s.plainPlace (.glob (leaf + i))) →
        ∃ t, exec (.migrate c) s = .next t ∧ t.home64 (.glob leaf) = pte + 2 ^ 10
          ∧ t = { s with mem := t.mem, badMem := t.badMem, cached := t.cached, migrations := t.migrations }
          ∧ (∀ y, y ∈ t.cached ↔ y ∈ s.cached ∧ ¬ ((y.asid = s.part.asidBase + asid ∨ bit y.leaf 5 = true)
            ∧ y.page < page + size ∧ page < y.page + y.size))
          ∧ ∃ y, t.migrations = s.migrations ++ [y] ∧ y.va = page ∧ y.dest = dest ∧ y.size = size ∧ y.leaf = leaf
            ∧ y.tier = field 2 1 0 ∧ y.notify = c.notify ∧ y.completion = c.completion ∧ y.evicted = false)
      ∧ (s.quiet → s.migrations = [m] → s.home64 (.glob m.leaf) = m.value.toNat → m.evicted = false →
        s.racked m.value.toNat m.size = false → s.isBad (.glob (bits m.value 56 16 * 65536)) m.size = false → mine m.completion →
        m.notify = h.id → h.id < 1536 →
        exec (.migrationDone 0) s = .next { done ((s.moveRange (bits m.value 56 16 * 65536) m.dest m.size).setHome64 (.glob m.leaf)
          (splice (splice (splice m.value.toNat 16 41 (m.dest / 65536)) 8 2 m.tier) 10 1 0)) m.completion 0 0 with
            hart.pending := told ⟨76, word m.va, 0⟩
            migrations := [] })
      ∧ (field 0 3 0 = 2 → c.id ≠ 0 → field 1 56 0 % 2 ^ 29 = 0 → field 2 56 0 ≠ 0 → s.namesOk c true = true →
        s.regionOk c.endpt (field 1 56 0) (field 2 56 0 * 2 ^ 29) = true → s.leases = [] →
        ∃ y, exec (.lend c) s = .next { s with leases := [y] } ∧ y.id = c.id ∧ y.lender = c.endpt ∧ y.borrower = c.peer
          ∧ y.state = .offered ∧ y.base = c.endpt.toNat * 2 ^ 44 + field 1 56 0 ∧ y.units = field 2 56 0
          ∧ y.notice = field 4 47 0 ∧ y.bw = field 5 31 0 ∧ y.lendDone = c.completion ∧ y.offerEnd = field 6 56 0)
      ∧ (s.leases = [] → mine c.completion →
        (field 0 3 0 ≠ 2 ∨ c.id = 0 → field 0 3 0 ≠ 1 → exec (.lend c) s = .next (done s c.completion 5 1))
        ∧ (field 0 3 0 ≠ 3 ∨ c.id = 0 → field 0 3 0 ≠ 1 → exec (.accept c) s = .next (done s c.completion 5 1))
        ∧ (field 0 3 0 ≠ 4 ∨ c.id = 0 → field 0 3 0 ≠ 1 → exec (.reclaim c) s = .next (done s c.completion 5 1))
        ∧ (field 0 3 0 ≠ 5 ∨ c.id = 0 → field 0 3 0 ≠ 1 → exec (.returnLease c) s = .next (done s c.completion 5 1)))
      ∧ (s.leases = [x] → x.id = c.id → c.id ≠ 0 →
        (let y := { x with
            state := .active
            fallback := c.endpt.toNat * 2 ^ 44 + field 1 56 0 % 2 ^ 44
            tier := field 2 1 0
            record := field 6 56 0
            notify := c.notify
            acceptDone := c.completion }
         field 0 3 0 = 3 → field 1 56 0 % 2 ^ 29 = 0 → field 2 1 0 ≤ 1 → x.lender = c.peer → x.borrower = c.endpt →
         x.state = .offered → s.now.toNat < x.offerEnd → s.namesOk c true = true →
         s.regionOk c.endpt (field 1 56 0) (x.units * 2 ^ 29) = true → s.allotted (field 6 56 0) 64 = true →
         mine x.lendDone → mine c.completion →
         (s.grants y = true → exec (.accept c) s = .next (done (done (record s y) x.lendDone 0 0) c.completion 0 0))
         ∧ (s.grants y = false →
           exec (.accept c) s = .next (done (done { s with leases := [] } x.lendDone 5 5) c.completion 5 5)))
        ∧ (field 0 3 0 = 4 → x.lender = c.endpt → x.borrower = c.peer → x.state = .active → s.namesOk c true = true → s.quiet →
          (∀ t ∈ s.cached, t.leaf < 2 ^ 64) →
          let y := { x with
            state := .racking
            noticeEnd := s.now.toNat + x.notice
            reclaimDone := c.completion }
          let kept := s.cached.filter fun t => !(bits (word t.leaf) 9 8 = 2 && bits (word t.leaf) 63 57 = x.id)
          x.borrower = s.endpt → x.notify = h.id → h.id < 1536 → exec (.reclaim c) s = .next {
            record { s with cached := kept } y with
            hart.pending := told ⟨74, word x.id, word (s.now.toNat + x.notice)⟩ })
        ∧ (field 0 3 0 = 5 → x.borrower = c.endpt → s.namesOk c false = true → mine c.completion →
          (x.state = .active → exec (.returnLease c) s = .next (done (record s { x with state := .ended }) c.completion 0 0))
          ∧ (x.state = .racking → exec (.returnLease c) s = .next (done s c.completion 4 0))))
      ∧ (s.leases = [x] →
        (x.state = .offered → x.offerEnd ≤ s.now.toNat → mine x.lendDone →
          exec (.leaseOfferExpiry 0) s = .next (done { s with leases := [] } x.lendDone 1 0))
        ∧ (x.state = .racking → x.moved = [] → x.urgent = [] → 1 ≤ x.units → s.quiet →
          exec (.rackGranuleMove 0) s = .next { s.moveRange x.base x.fallback 65536 with leases := [{ x with moved := [0] }] })
        ∧ (x.state = .racking → x.nextGranule = some g → x.urgent = [] → x.moved.length + 1 = x.units * 8192 →
          mine x.reclaimDone → x.borrower = s.endpt → x.notify = h.id → h.id < 1536 →
          let y := { x with
            moved := x.moved ++ [g]
            state := .ended }
          exec (.rackGranuleMove 0) s = .next {
            done (record (s.moveRange (x.base + g * 65536) (x.fallback + g * 65536) 65536) y) x.reclaimDone 0
              (if x.noticeEnd < s.now.toNat then 1 else 0) with
            hart.pending := told ⟨75, word x.id, 0⟩ })))

/-- R379, R380, R388, R389, R391: queues. A store to a descriptor changes the writable fields of its doubleword; a
store to a wake register that the descriptor lets in sets PEND and, if it was clear, WAIT. Charged energy adds up, and
a budget that is spent sets EXH and tells the harts of the queue's launches (80); the next period takes the budget off
and clears EXH. The communication reserve grows when a communication queue has waited for 10 µs and shrinks when a
reserved core has been idle for 100 µs. R381 to R386, R390: launches. The command at the head of a queue that is valid and pending,
when it can be placed, is taken out of the ring and starts its harts: each runs at U from the entry, with its
argument, rank and count in s10 to s12, and owns the groups chosen for it. A command that fails is
taken out too, with its completion word. A scan serves the queue, and clears PEND when the ring is empty; a head that
may be staged is. R326, R387: endings. A launched hart that would fetch at 0 at U ends once its stores have been
applied and its accesses performed: it is idle, its groups are free, FLAGSLOT takes its flags, and its end code is
noted. When every hart of a launch has ended and its copies have retired the completion word says 0, or 5 with the
lowest bad end code and how many were bad. -/
def Obligations.LaunchPath : Prop :=
  (∀ (s : State) (q : QueueNum) (v : Word) (off : BitVec 6) (a : Activity) (src : WakeSource) (n : Nat),
     let d := s.queue q.toNat
     let p := s.part
     let with_ := fun (f : Queue) => Host.Outcome.next (φ := Fault) (ρ := Refusal) { s with queues := Tbl.set {} s.queues q.toNat f }
     let f := fun (hi lo : Nat) => bits v hi lo
     let due := [(q.toNat, d)]
     (exec (.queueDescriptorWrite q 0 v) s = with_ { d with
         v := v.getLsbD 63
         pub := v.getLsbD 62
         cls := v.getLsbD 61
         cask := f 56 6 * 64
         prio := f 2 0
         credit := if d.v = false ∧ v.getLsbD 63 = true then d.weight else d.credit }
       ∧ exec (.queueDescriptorWrite q 1 v) s = with_ { d with weight := max 1 (f 47 40), agemax := f 31 0 }
       ∧ exec (.queueDescriptorWrite q 2 v) s = with_ { d with budget := f 31 0 }
       ∧ exec (.queueDescriptorWrite q 4 v) s = with_ { d with nen := v.getLsbD 63, nhart := f 10 0 }
       ∧ ∀ dw : BitVec 3, dw ∈ [3, 5, 6, 7] → exec (.queueDescriptorWrite q dw v) s = with_ d)
     ∧ (off.toNat < 8 → d.pub = true ∨ (∃ h, src = .hart h ∧ p.cores.contains (h / 4) = true ∧ d.part = p.number ∧ d.vf = p.vf)
         ∨ src = .host true → d.nen = false →
       s.waiters = [] → exec (.wakeRegister q off src) s = with_ { d with
         pend := true
         wait := if d.pend then d.wait else s.now.toNat % 2 ^ 48 })
     ∧ (let spent := d.spent + a.energy
       let beyond := d.budget ≠ 0 ∧ d.budget * 10 ^ 6 ≤ spent
       (¬ beyond ∨ d.exh = true → s.canonical → exec (.energyCharge q a) s = with_ { d with spent := spent })
       ∧ (beyond → d.exh = false → s.canonical → ∃ t, exec (.energyCharge q a) s = .next t
         ∧ t.queues = Tbl.set {} s.queues q.toNat { d with spent := spent, exh := true }
         ∧ t = { s with hart := t.hart, others := t.others, queues := t.queues }
         ∧ ∀ l ∈ s.launches, l.queue = q.toNat → ∀ h ∈ l.harts, (∀ e ∈ l.ended, e.1 ≠ h) →
           (⟨80, word q.toNat, 0⟩ : Trap) ∈ (t.hartAt h).pending))
     ∧ (s.queues = due → p.boundary + p.period ≤ s.now.toNat → p.timer = false →
       exec (.accountingPeriodBoundary false) s = .next { s with
         part.boundary := s.now.toNat
         queues := Tbl.set {} s.queues q.toNat { d with
           spent := d.spent - d.budget * 10 ^ 6
           exh := false } })
     ∧ (s.canonical → ∃ t, exec (.accountingPeriodBoundary true) s = .next t
       ∧ ∀ c ∈ p.cores, ∀ k, k < 4 → (⟨77, 0, 0⟩ : Trap) ∈ (t.hartAt (4 * c + k)).pending)
     ∧ (s.queues = due → d.cls = true → d.v = true → d.pend = true → (s.headOf q.toNat).isSome = true →
       d.wait + 10000 ≤ s.now.toNat → p.commNow < p.commMax → ((p.cores.mergeSort (· ≥ ·)).drop p.commNow).head? = some n →
       (∀ k, k < 4 → (s.hartAt (4 * n + k)).run = .idle) →
       exec .commresGrow s = .next { s with part := { p with commNow := p.commNow + 1 } })
     ∧ (p.commMin < p.commNow → n ∈ s.reserveCores → (∀ k, k < 4 → (s.hartAt (4 * n + k)).run = .idle) →
       (s.coreAt n).idleSince + 100000 ≤ s.now.toNat →
       exec .commresShrink s = .next { s with part := { p with commNow := p.commNow - 1 } }))
  ∧ (∀ (s u z : State) (q : QueueNum) (bs : List Byte) (c : Command) (l : List (Nat × List Nat)) (detail : Nat) (dq : Queue)
        (x : Launch) (y : Command) (cores : List Nat) (img : List Byte),
      let n := q.toNat
      let d := s.queue n
      let level := d.level s.now.toNat
      let cask := Loc.glob d.cask
      let served := u.served' n level
      let word7 := dwordAt bs 7 % 2 ^ 57
      let alone := s.queues = [(n, d)] ∧ d.stg = false ∧ d.prio ≤ 7 ∧ d.credit ≠ 0 ∧ d.part = s.part.number
      s.boot.ready = true → d.v = true → d.pend = true → d.exh = false → alone →
        (s.headOf n = some bs → s.parse bs = .command c → s.placing n c (fun _ => false) (decide (level < 7)) = some l →
          c.image = 0 → s.stagings = [] → s.canonical → (∀ i, i < 8 → s.plainPlace (cask.plus (24 + i))) →
          ∃ t, exec (.launch q) s = .next t ∧ t.ringHead cask = (s.ringHead cask + 1) % 2 ^ 32
            ∧ t.launches.length = s.launches.length + 1
            ∧ ∀ i, i < l.length → let p := l.getD i (0, [])
              (∀ j, j < l.length → (l.getD j (0, [])).1 = p.1 → j = i) → let h := t.hartAt p.1
              h.run = .running ∧ h.priv = .user ∧ h.pc = c.entry ∧ h.x[10] = c.arg ∧ h.x[11] = word i ∧ h.x[12] = word c.harts
                ∧ h.status = ⟨false, false, false, .initial, .initial, .initial, false, false, false⟩ ∧ h.vtype = word (c.nr * 32)
                ∧ h.ptb = c.ptb ∧ h.asid = .ofNat 13 c.asid ∧ h.ctxarea = c.ctx ∧ h.vl = 0 ∧ h.lcnt = 0 ∧ h.flags = 0
                ∧ h.members = [] ∧ h.v = .replicate 32 0 ∧ h.launch = some s.nextId
                ∧ ((∀ j, j < l.length → (l.getD j (0, [])).1 / 4 = p.1 / 4 → j = i) → ∀ g ∈ p.2, g < 8 →
                  (t.coreAt (p.1 / 4)).lat.toList.getD g none = some (.ofNat 2 p.1)))
        ∧ (s.headOf n = some bs → s.parse bs = .fails detail → s.ringCount cask = 1 → s.stagings = [] → word7 ≠ 0 → s.canonical →
          (∀ i, i < 8 → s.plainPlace (.glob (word7 + i))) → (∀ i, i < 64 → s.plainPlace (cask.plus i)) →
          (∀ i j, i < 8 → j < 64 → word7 + i ≠ d.cask + j) →
          ∃ t, exec (.commandScan (.ofNat 3 (n / 2048)) false) s = .next t ∧ (t.queue n).pend = false ∧ t.ringHead cask = (s.ringHead cask + 1) % 2 ^ 32
            ∧ t.home64 (.glob word7) = (statusWord 5 detail 0 0).toNat ∧ t.hart = s.hart ∧ t.launches = s.launches)
        ∧ (s.stagings = [] → s.serveHead n = (u, .placed) →
          served.queues = [(n, dq)] → dq.v = true → dq.pend = true → dq.exh = false → dq.stg = false → dq.part = served.part.number →
          dq.prio ≤ 7 → dq.credit ≠ 0 →
          served.headOf n = none → exec (.commandScan (.ofNat 3 (n / 2048)) false) s
            = .next { served.modQueue n fun d => { d with pend := false } with
              reserved := served.reserved.filter fun r => r.queue ≠ n })
        ∧ (∀ k : BitVec 3, exec (.commandScan k false) s = .next z →
          exec (.commandScan k true) s = .next (z.stageHead k.toNat)
          ∧ (z = s → k.toNat = n / 2048 → s.launches = [x] →
            s.stageOn n x = some (y, cores) → y.read.go s = (.ok img, s) →
            ∃ t, exec (.commandScan k true) s = .next t ∧ (t.queue n).stg = true
              ∧ t.stagings = s.stagings ++ [⟨n, x.id, x.queue, cores, x.entry, x.ctx, false, false⟩])))
  ∧ (∀ (s : State) (l : Launch),
      let h := s.hart
      let bad := (l.ended.map (·.2)).filter (· ≠ 0)
      let area := bits h.ctxarea 56 13 * 8192
      (h.run = .running → h.launch = some l.id → h.priv = .user → h.pc = 0 → h.latch = none → h.buffer = [] → h.toFlush = [] →
        h.reassembly = [] → s.ownTrains = [] → s.copiesOf h.id = [] → s.launches = [l] → s.canonical →
        ∃ t, exec .hartEnd s = .next t ∧ t.hart.run = .idle ∧ t.hart.launch = none ∧ t.hart.members = [] ∧ t.hart.x = h.x
          ∧ t.vlg = 0 ∧ t.launches = [{ l with ended := l.ended ++ [(h.id, (h.x[10]).toNat % 2 ^ 8)] }]
          ∧ (bitOf h.ctxarea 0 = false → t.mem = s.mem)
          ∧ (bitOf h.ctxarea 0 = true → s.canonical → (∀ i, i < 8 → s.plainPlace (.glob (area + i))) →
            t.home64 (.glob area) = s.home64 (.glob area) ||| h.flags.toNat))
      ∧ (s.launches = [l] → l.ended.length = l.harts.length → (∀ c ∈ s.copies, c.launch ≠ some l.id) → l.completion ≠ 0 →
        exec (.launchCompletion l.id) s = .next (({ s with launches := [] } : State).setHome64 (.glob l.completion)
          (if bad = [] then 0 else (statusWord 5 (bad.foldl min 0xFF) 0 bad.length).toNat))))

/-- R395 to R400, R403, R412: the trellis. A packet that is under way asks to be injected in the class of R397, at a stop on the die
of its home. A flit alone at its destination leaves there; one whose CRC failed is NACKed if it is a store's, and one of class 0
or a response is asked for once more. A flit alone elsewhere goes to a neighbour that is nearer, and its age grows by one. A flit
that waits is injected when a port is free, leaves in the same cycle, and clears the withholding that it asked for; at a stop that
is withheld it waits, and is counted. At age 1,023, or after 65,536 cycles of waiting, the flit is dropped and the scalar
instruction of the hart that stalls for it traps with `TRELLIS_AGE_BOUND` (71) or `INJECTION_STARVED` (73); the failure of a posted
store is latched. R405, R406: replay. A NACK counts, and sets the back-off of min(`BMIN` × 2^n, `BMAX`); at
the limit the window is exhausted and what is on its way is lost; the end of the back-off clears it; an
acknowledgement applies the store that it names and clears the count. A train that is lost so traps its hart at its convoy with
`TRAIN_NACK_LIMIT` (43), at the lowest element that an unacknowledged train of the hart carries. An endpoint reported down
loses what is on its way to it, and leases of its memory are lost, which the borrower is told (75). R407, R409, R410: links. A frame that is intact and has the counter that
its slot expects is accepted, and the counter steps; a marker under the other slot retires the old one; any other
frame is NACKed once and what follows is discarded. A sender resends three times, and then the port is down. A
switch-over installs the next key with counter 1 behind the marker; with no next key the port stops at `KEYLIM`. The keys are free
values (log 67). -/
def Obligations.FabricEvents : Prop :=
  (∀ (s : State) (f : Flit) (stop cycles : Nat) (st : Stall),
     let die := epDie s.endpt f.die
     let near := fun (p : Nat) => (p = stop + 10 ∨ p + 10 = stop ∨ p = stop + 1 ∨ p + 1 = stop) ∧ hops p f.dest + 1 = hops stop f.dest
     let adds := fun (p : Packet) (cls : Nat) => ∀ rest, s.thermal ≠ .down → s.agenda = .packet p stop :: rest →
       let z := { s with agenda := rest }
       let home := z.packetHome p
       (z.packetExists p = false → step s = .next z)
       ∧ (z.packetExists p = true → stop < 140 → (home.1 = s.endpt → stopDie stop = home.2.1.toNat) →
         ∃ y, step s = .next { z with
             nextId := s.nextId + 1
             flits := s.flits ++ [y] }
           ∧ y.cls = cls ∧ y.dest = stop ∧ y.hart = s.hart.id ∧ y.age = 0 ∧ y.waiting = some 0 ∧ y.source = y.stop
           ∧ y.ep = home.1 ∧ y.die = home.2.1)
     let struck := fun (i : Instr) (code : Nat) => s.hart.stall = some st → st.vec = false → f.hart = s.hart.id →
       f.cargo = .wait → s.part.traceSize = 0 → ∃ t, exec i s = .next t ∧ ∃ w, t = { s.trapEntry code die 0 s.hart.pc false with
         flits := []
         withheld := w }
     (adds .cask 0 ∧ adds .wake 0 ∧ (∀ e d, adds (.flush e d) 0 ∧ adds (.answer e d) 0) ∧ (∀ n, adds (.response n) 1)
       ∧ (∀ n, adds (.collective n) (if n ≤ 256 then 0 else 1))
       ∧ (∀ i, adds (.store i) 1 ∧ adds (.train i) 1 ∧ adds (.migration i) 2 ∧ adds (.rack i) 2)
       ∧ (∀ a, adds (.load a) 1 ∧ adds (.atomic a) 1)
       ∧ ∀ i c, s.copies[i]? = some c → adds (.copy i) (if 4096 ≤ c.len then 2 else 1))
     ∧ (stop < 140 → f.dest < 140 → s.flits = [f] →
       (f.stop = stop → f.waiting = none →
         (f.dest = stop → f.crc = true → exec (.flitArrival stop) s = .next { s with flits := [] })
         ∧ (∀ n, f.dest = stop → f.crc = false → f.cls ≠ 0 → f.cargo = .store n →
           exec (.flitArrival stop) s = exec (.nackReceived f.ep n) { s with flits := [] })
         ∧ (f.dest = stop → f.crc = false → f.cls = 0 ∨ f.cargo = .response → f.again = false →
           exec (.flitArrival stop) s = .next { s with
             flits := [{ f with
               again := true
               crc := true
               age := 0
               stop := f.source
               waiting := some 0 }] })
         ∧ (f.dest ≠ stop → ∃ t p, exec (.flitArrival stop) s = .next t ∧ near p
           ∧ t = { s with flits := [{ f with stop := p, age := min 1023 (f.age + 1) }], clock := s.clock + 1 }))
       ∧ (f.stop = stop → f.waiting.isSome = true → stop ∉ s.withheld → f.dest ≠ stop → ∃ t p, exec (.flitArrival stop) s = .next t
         ∧ near p ∧ t = { s with
           flits := [{ f with
             stop := p
             age := min 1023 (f.age + 1)
             waiting := none }]
           clock := s.clock + 1
           withheld := [] })
       ∧ (f.stop = stop → f.waiting.isSome = true → stop ∈ s.withheld → f.hart = s.hart.id →
         exec (.flitArrival stop) s = .next { s with
           flits := [{ f with waiting := f.waiting.map (· + 1) }]
           hart.injTotal := (s.hart.injTotal + 1) % 2 ^ 32 })
       ∧ (1023 ≤ f.age → struck (.ageBoundExceeded f.id) 71)
       ∧ (∀ n, 1023 ≤ f.age → f.cargo = .store n → f.hart = s.hart.id → s.hart.latch = none →
         exec (.ageBoundExceeded f.id) s = .next { s with
           flits := []
           posted := s.posted.filter fun p => !(p.hart = s.hart.id && p.seq = n)
           hart.latch := some ⟨71, f.ep, f.die, 0⟩ })
       ∧ (∀ n, f.waiting = some n → 65536 ≤ n → struck (.injectionStarved f.id) 73)
       ∧ (∀ n, f.stop = stop → f.waiting = some n → 1024 ≤ n →
         exec (.injectionPriority stop) s = .next { s with withheld := (s.withheld ++ neighbours stop).dedup })
       ∧ (s.canonical → ∃ t, exec (.injthrWindow cycles) s = .next t ∧ t.hart = { s.hart with injWin := min cycles 1200 }
         ∧ ∀ k, k < 4 → (t.hartAt (s.hart.id / 4 * 4 + k)).injWin = min cycles 1200)))
  ∧ (∀ (s : State) (ep : Endpoint) (seq : Nat) (p : Posted) (tr : Train) (x : Lease),
      let h := s.hart
      let w := Tbl.get {} s.windows ep.toNat
      let set := fun (x : Window) => Tbl.set {} s.windows ep.toNat x
      let away := s.posted.filter fun q => epOf q.pa ≠ ep
      let spent := if s.exhausted.contains ep then s.exhausted else s.exhausted ++ [ep]
      let awaitsNone := (∀ h ∈ s.harts, (∀ r ∈ h.reassembly, r.ep ≠ ep) ∧ (∀ q, h.late = some q → epOf q.pa ≠ ep) ∧ h.overflow = [])
        ∧ ∀ q ∈ s.posted, epOf q.pa = ep → q.hart = h.id
      let pairs := (s.posted.filter fun q => epOf q.pa = ep).foldl (fun (l : List (Endpoint × Die)) q =>
        if l.contains (ep, dieOf (offOf q.pa)) then l else l ++ [(ep, dieOf (offOf q.pa))]) h.lost
      let lost := { s with
        down := if s.down.contains ep then s.down else s.down ++ [ep]
        windows := set {}
        posted := away
        hart.lost := pairs
        recovery := s.recovery.map fun r => { r with seen := (r.seen ++ [ep]).dedup } }
      (¬ (w.resend = some seq ∧ s.limit ≤ w.nacks) → exec (.nackReceived ep seq) s = .next { s with
          windows := set ⟨w.nacks + 1, some seq, s.now.toNat + min (s.bmin * 2 ^ w.nacks) s.bmax⟩ })
      ∧ (w.resend = some seq → s.limit ≤ w.nacks → awaitsNone →
        (s.trains = [] → exec (.nackReceived ep seq) s = .next { s with
          windows := set {}
          posted := away
          hart.lost := pairs
          exhausted := spent })
        ∧ (s.trains = [tr] → tr.hart = some h.id → tr.ep = ep → tr.complete = false → tr.loose = false → tr.lowest < 2 ^ 32 →
          s.others = [] → h.undo = none → h.run = .running → s.part.traceSize = 0 → ∃ t, exec (.nackReceived ep seq) s = .next t
            ∧ t.hart.epc = tr.head &&& ~~~3 ∧ t.hart.cause = 43 ∧ t.hart.tval = epDie ep tr.die ∧ t.hart.vstart = tr.lowest
            ∧ t.hart.lcnt = tr.lcnt ∧ t.hart.status.cvr = (decide (tr.start < tr.lowest) || tr.committed)
            ∧ t.trains = [] ∧ t.posted = away ∧ t.exhausted = spent ∧ t.mem = s.mem))
      ∧ (w.resend ≠ none → w.backoff ≤ s.now.toNat →
        exec (.replayBackoffExpiry ep) s = .next { s with windows := set { w with backoff := 0 } })
      ∧ (s.posted = [p] → epOf p.pa = ep → p.seq = seq → s.plainPlace (.glob p.pa) → s.ports = [] →
        exec (.ackReceived ep seq) s = .next { (({ s with posted := [] } : State).homeSet (.glob p.pa) p.data) with
          windows := set {}
          exhausted := s.exhausted.filter (· ≠ ep) })
      ∧ (s.trains = [] → awaitsNone → (∀ h ∈ s.harts, h.wait = none) →
        (s.leases = [] → exec (.endpointDownReport ep) s = .next lost)
        ∧ (s.leases = [x] → x.takes = true → x.lender = ep → x.borrower = s.endpt → x.notify = h.id → h.id < 1536 →
          let y := { x with state := .lost }
          let told : Trap := ⟨75, word x.id, 0⟩
          exec (.endpointDownReport ep) s = .next {
            ({ lost with leases := [y] } : State).writeLease y with
            hart.pending := if told ∈ h.pending then h.pending else h.pending ++ [told] })))
  ∧ (∀ (s : State) (n : Nat) (f : Frame),
      let p := Tbl.get {} s.ports n
      let with_ := fun (q : Port) => { s with ports := Tbl.set {} s.ports n q }
      let pick := fun (v : Vector KeySlot 2) (b : Bool) => if b then v[1] else v[0]
      let put := fun (v : Vector KeySlot 2) (b : Bool) (k : KeySlot) => if b then v.set 1 k else v.set 0 k
      let k := pick p.recv f.ks
      let ok := f.intact = true ∧ k.installed = true ∧ f.counter = k.counter ∧ (f.marker = true ∨ f.ks = p.rxActive)
        ∧ (p.awaits = none ∨ p.awaits = some f.ks)
      let near := s.keyLim - s.keyMargin
      let fresh := fun (m counter : Nat) => KeySlot.mk true counter (Config.linkKey m) (Config.linkSalt m)
      let stepped := put p.recv f.ks { k with counter := k.counter + 1 }
      let sent := pick p.send p.active
      (ok → f.ks = p.rxActive → exec (.frameReceive n f) s = .next (with_ { p with
          recv := stepped
          discarding := false
          awaits := none }))
      ∧ (ok → f.ks ≠ p.rxActive → exec (.frameReceive n f) s = .next (with_ { p with
          recv := put stepped p.rxActive {}
          rxActive := f.ks
          discarding := false
          awaits := none }))
      ∧ (¬ ok → p.discarding = false →
        exec (.frameReceive n f) s = .next { with_ { p with discarding := true, awaits := some f.ks } with
          replies := s.replies ++ [.nack n] })
      ∧ (¬ ok → p.discarding = true → exec (.frameReceive n f) s = .next s)
      ∧ (p.resends < 3 → exec (.linkNack n) s = .next (with_ { p with resends := p.resends + 1 }))
      ∧ (3 ≤ p.resends → p.hart = s.hart.id → p.cargo = .wait → ∀ st, s.hart.stall = some st → st.vec = false → s.part.traceSize = 0 →
        exec (.linkNack n) s = .next ((with_ { p with up := false, resends := 0 }).trapEntry 66 (epDie p.ep p.die) 0 s.hart.pc false))
      ∧ exec (.keySwitchover n) s = .next { with_ { p with
          send := put (put p.send p.active { sent with counter := max near sent.counter }) (!p.active) (fresh (2 * s.clock + 1) 1)
          active := !p.active
          recv := if near ≤ (pick p.recv p.rxActive).counter then put p.recv (!p.rxActive) (fresh (2 * s.clock) 0) else p.recv } with
        clock := s.clock + 1 }
      ∧ ((pick p.send (!p.active)).installed = false → s.trains = [] →
        (∀ h ∈ s.harts, h.wait = none ∧ h.reassembly = [] ∧ h.late = none ∧ h.toFlush = []) →
        exec (.linkKeyExhausted n) s = .next (with_ { p with
          up := false
          send := put p.send p.active { sent with counter := s.keyLim } })))

/-- R415, R416, R419, R420, R427 to R429: health, vintages and bring-up. `RISK` takes the greatest score and its
source. Failures that the spares can replace start a new vintage, which is written to the record; filled spares make
it steady, and take the places of the members that have failed. A bring-up whose boot images verify ends READY, with the ports that trained, the endpoint number and the
time; one without a boot image stops with code 1. A nonce is answered with a report over it, signed. R114, R430, R432,
R433: the time base, power and heat. Losing and regaining the lock; a slew above 1.25 × RATE tells the power harts
(91); at 93 °C, 95 °C and 105 °C issue is limited on the hottest die, on every die with `THERMAL` (92), and the module
powered down, from when on every step faults; a limit that is lifted gives way to the next lower one; the matrix
engine goes idle. -/
def Obligations.ModuleEvents : Prop :=
  (∀ (s : State) (ecc replays droop : Nat) (margin : Int) (e : Endpoint) (r : Recovery) (b : BringUp) (nonce : BitVec 256),
     let scores := [min 65535 (64 * ecc), min 65535 (16 * replays), if 20 ≤ margin then 0 else if margin ≤ 0 then 65535
       else min 65535 (3276 * (20 - margin.toNat)), if droop ≤ 10 then 0 else min 65535 (1024 * (droop - 10))]
     let value := scores.foldl max 0
     (∃ t src, exec (.riskUpdate ecc replays margin droop) s = .next t ∧ t.risk = word (src * 2 ^ 16 + value)
       ∧ (value = 0 → src = 0) ∧ (value ≠ 0 → 1 ≤ src ∧ scores.getD (src - 1) 0 = value ∧ ∀ j, j < src - 1 → scores.getD j 0 ≠ value)
       ∧ (s.hart.riskthr.toNat < 2 ^ 16 → t.hart.pending = s.hart.pending)
       ∧ (2 ^ 16 ≤ s.hart.riskthr.toNat → s.hart.riskArmed = true → s.hart.riskthr.toNat % 2 ^ 16 < value →
         (⟨82, word value, 0⟩ : Trap) ∈ t.hart.pending ∧ t.hart.riskArmed = false))
     ∧ (s.recovery = some r → s.canonical → (∀ i, i < 40 → s.plainPlace (.glob (r.record + i))) →
       (r.state = .steady → r.seen = [] → e ∈ r.members → e ∉ r.spares → r.spares ≠ [] →
         ∃ t, exec (.failureDetectionWindow [e]) s = .next t
           ∧ t.recovery = some { r with
             vintage := r.vintage + 1
             state := .filling
             failed := [e] }
           ∧ t.home64 (.glob r.record) = (r.vintage + 1) % 2 ^ 32 + 2 * 2 ^ 32
           ∧ t.home64 (.glob (r.record + 16)) = s.home64 (.glob (r.record + 8)))
       ∧ (r.state = .filling → ∃ t n, exec .spareFilled s = .next t ∧ t.recovery = some n ∧ n.state = .steady
         ∧ n.vintage = r.vintage ∧ n.record = r.record
         ∧ ((r.members.filter r.failed.contains).length ≤ (r.spares.filter fun x => !r.failed.contains x).length →
           ∀ m ∈ n.members, m ∉ r.failed ∧ (m ∈ r.members ∨ m ∈ r.spares))
         ∧ t.home64 (.glob r.record) = r.vintage % 2 ^ 32 + 2 ^ 32))
     ∧ (b.slotA = true ∨ b.slotB = true → b.hjelny = true → ∃ t, exec (.powerGood b) s = .next t
       ∧ t.boot.ready = true ∧ t.boot.mailbox = 0 ∧ t.endpt = b.endpoint ∧ t.now = b.time ∧ t.locked = true ∧ t.hart = s.hart
       ∧ t.boot.log = b.digests ∧ t.boot.stacksOut = b.stacksOut ∧ t.boot.packagesOut = b.packagesOut)
     ∧ (b.slotA = false → b.slotB = false → ∃ t, exec (.powerGood b) s = .next t ∧ t.boot.ready = false ∧ t.boot.mailbox = 1)
     ∧ (s.boot.ready = true → ∃ t body, exec (.attestationRequest nonce) s = .next t
       ∧ t.boot.report = body ++ leBytes (Config.ed25519Sign s.boot.seed body).toNat 64
       ∧ ((body.drop 40).take 32) = leBytes nonce.toNat 32 ∧ t.hart = s.hart))
  ∧ (∀ (s : State) (x n : Nat),
      let told := fun (c : Trap) => if c ∈ s.hart.pending then s.hart.pending else s.hart.pending ++ [c]
      exec .timeBaseLost s = .next { s with locked := false }
      ∧ exec .timeBaseLock s = .next { s with locked := true }
      ∧ (s.part.powerNotify = [s.hart.id] →
        (4 * x ≤ 5 * s.slew.toNat → exec (.slewLimit x) s = .next s)
        ∧ (5 * s.slew.toNat < 4 * x → exec (.slewLimit x) s = .next { s with hart.pending := told ⟨91, word x, 0⟩ })
        ∧ (950 ≤ x → x < 1050 → s.thermal = .none ∨ s.thermal = .hottestDie →
          exec (.thermal x) s = .next { s with thermal := .everyDie, hart.pending := told ⟨92, word x, 0⟩ }))
      ∧ (930 ≤ x → x < 950 → s.thermal = .none → exec (.thermal x) s = .next { s with thermal := .hottestDie })
      ∧ (1050 ≤ x → s.thermal ≠ .down → ∃ t, exec (.thermal x) s = .next t ∧ t.thermal = .down ∧ t.hart.run = .halted
        ∧ (∀ p ∈ t.others, p.2.run = .halted) ∧ step t = .fault .poweredDown)
      ∧ (s.thermal = .everyDie → exec .thermalLimitLift s = .next { s with thermal := .hottestDie })
      ∧ (s.thermal = .hottestDie → exec .thermalLimitLift s = .next { s with thermal := .none })
      ∧ (s.canonical → n = s.hart.id / 4 → ∃ t, exec .matrixIdle s = .next t ∧ t = { s with cores := t.cores }
        ∧ t.coreAt n = { s.coreAt n with
          mxIdle := true
          mxRow := 0 }))
end

