-- ==== Sys2Proof/Laws/State.lean ====
section
/-! SUPPORT. What each update of a register leaves alone, field by field, and what it writes. Every conjunct is a rewrite
rule of its own. -/

namespace Sys2Proof.Machine

@[simp] theorem State.setX_others (s : State) (r : SReg) (v : Word) :
    (s.setX r v).others = s.others ∧ (s.setX r v).cores = s.cores ∧ (s.setX r v).mem = s.mem ∧
    (s.setX r v).spad = s.spad ∧ (s.setX r v).lane = s.lane ∧ (s.setX r v).badMem = s.badMem ∧
    (s.setX r v).badSpad = s.badSpad ∧ (s.setX r v).locks = s.locks ∧ (s.setX r v).tagged = s.tagged ∧
    (s.setX r v).notes = s.notes ∧ (s.setX r v).cached = s.cached ∧ (s.setX r v).spt = s.spt ∧
    (s.setX r v).now = s.now ∧ (s.setX r v).locked = s.locked ∧ (s.setX r v).endpt = s.endpt ∧
    (s.setX r v).risk = s.risk ∧ (s.setX r v).slew = s.slew ∧ (s.setX r v).stagger = s.stagger ∧
    (s.setX r v).shape = s.shape ∧ (s.setX r v).taghist = s.taghist ∧ (s.setX r v).tagIndex = s.tagIndex ∧
    (s.setX r v).part = s.part ∧ (s.setX r v).queues = s.queues ∧ (s.setX r v).served = s.served ∧
    (s.setX r v).reserved = s.reserved ∧ (s.setX r v).launches = s.launches ∧ (s.setX r v).stagings = s.stagings ∧
    (s.setX r v).nextId = s.nextId ∧ (s.setX r v).posted = s.posted ∧ (s.setX r v).trains = s.trains ∧
    (s.setX r v).copies = s.copies ∧ (s.setX r v).migrations = s.migrations ∧ (s.setX r v).leases = s.leases ∧
    (s.setX r v).exports = s.exports ∧ (s.setX r v).down = s.down ∧ (s.setX r v).exhausted = s.exhausted ∧
    (s.setX r v).silent = s.silent ∧ (s.setX r v).windows = s.windows ∧ (s.setX r v).bmax = s.bmax ∧
    (s.setX r v).bmin = s.bmin ∧ (s.setX r v).limit = s.limit ∧ (s.setX r v).keyLim = s.keyLim ∧
    (s.setX r v).keyMargin = s.keyMargin ∧ (s.setX r v).ingressFull = s.ingressFull ∧ (s.setX r v).flits = s.flits ∧
    (s.setX r v).withheld = s.withheld ∧ (s.setX r v).ports = s.ports ∧ (s.setX r v).recovery = s.recovery ∧
    (s.setX r v).homes = s.homes ∧ (s.setX r v).waiters = s.waiters ∧ (s.setX r v).replies = s.replies ∧
    (s.setX r v).boot = s.boot ∧ (s.setX r v).thermal = s.thermal ∧ (s.setX r v).agenda = s.agenda ∧
    (s.setX r v).clock = s.clock := by
  unfold State.setX; split <;> simp

@[simp] theorem State.setX_hart (s : State) (r : SReg) (v : Word) :
    (s.setX r v).hart.id = s.hart.id ∧ (s.setX r v).hart.run = s.hart.run ∧ (s.setX r v).hart.launch = s.hart.launch ∧
    (s.setX r v).hart.pc = s.hart.pc ∧ (s.setX r v).hart.priv = s.hart.priv ∧ (s.setX r v).hart.vl = s.hart.vl ∧
    (s.setX r v).hart.vrow = s.hart.vrow ∧ (s.setX r v).hart.vtype = s.hart.vtype ∧
    (s.setX r v).hart.vstart = s.hart.vstart ∧ (s.setX r v).hart.maxvl = s.hart.maxvl ∧
    (s.setX r v).hart.stale = s.hart.stale ∧ (s.setX r v).hart.vcthr = s.hart.vcthr ∧
    (s.setX r v).hart.flags = s.hart.flags ∧ (s.setX r v).hart.frm = s.hart.frm ∧
    (s.setX r v).hart.srseed = s.hart.srseed ∧ (s.setX r v).hart.lcnt = s.hart.lcnt ∧
    (s.setX r v).hart.lbeg = s.hart.lbeg ∧ (s.setX r v).hart.lend = s.hart.lend ∧
    (s.setX r v).hart.defdl = s.hart.defdl ∧ (s.setX r v).hart.maxwait = s.hart.maxwait ∧
    (s.setX r v).hart.cgrp0 = s.hart.cgrp0 ∧ (s.setX r v).hart.cgrp1 = s.hart.cgrp1 ∧
    (s.setX r v).hart.cop = s.hart.cop ∧ (s.setX r v).hart.cstride = s.hart.cstride ∧
    (s.setX r v).hart.cround = s.hart.cround ∧ (s.setX r v).hart.injWin = s.hart.injWin ∧
    (s.setX r v).hart.injTotal = s.hart.injTotal ∧ (s.setX r v).hart.lcr = s.hart.lcr ∧
    (s.setX r v).hart.status = s.hart.status ∧ (s.setX r v).hart.tvec = s.hart.tvec ∧
    (s.setX r v).hart.epc = s.hart.epc ∧ (s.setX r v).hart.cause = s.hart.cause ∧
    (s.setX r v).hart.tval = s.hart.tval ∧ (s.setX r v).hart.tval2 = s.hart.tval2 ∧
    (s.setX r v).hart.sscratch = s.hart.sscratch ∧ (s.setX r v).hart.asid = s.hart.asid ∧
    (s.setX r v).hart.ptb = s.hart.ptb ∧ (s.setX r v).hart.ctxarea = s.hart.ctxarea ∧
    (s.setX r v).hart.slice = s.hart.slice ∧ (s.setX r v).hart.sliceArmed = s.hart.sliceArmed ∧
    (s.setX r v).hart.urgp = s.hart.urgp ∧ (s.setX r v).hart.uen = s.hart.uen ∧ (s.setX r v).hart.pend = s.hart.pend ∧
    (s.setX r v).hart.riskthr = s.hart.riskthr ∧ (s.setX r v).hart.riskArmed = s.hart.riskArmed ∧
    (s.setX r v).hart.v = s.hart.v ∧ (s.setX r v).hart.flying = s.hart.flying ∧ (s.setX r v).hart.tile = s.hart.tile ∧
    (s.setX r v).hart.l1 = s.hart.l1 ∧ (s.setX r v).hart.buffer = s.hart.buffer ∧
    (s.setX r v).hart.pairs = s.hart.pairs ∧ (s.setX r v).hart.latch = s.hart.latch ∧
    (s.setX r v).hart.overflow = s.hart.overflow ∧ (s.setX r v).hart.answered = s.hart.answered ∧
    (s.setX r v).hart.sent = s.hart.sent ∧ (s.setX r v).hart.lost = s.hart.lost ∧
    (s.setX r v).hart.slow = s.hart.slow ∧ (s.setX r v).hart.late = s.hart.late ∧
    (s.setX r v).hart.secured = s.hart.secured ∧ (s.setX r v).hart.undo = s.hart.undo ∧
    (s.setX r v).hart.members = s.hart.members ∧ (s.setX r v).hart.reassembly = s.hart.reassembly ∧
    (s.setX r v).hart.redirects = s.hart.redirects ∧ (s.setX r v).hart.parked = s.hart.parked ∧
    (s.setX r v).hart.stall = s.hart.stall ∧ (s.setX r v).hart.wait = s.hart.wait ∧
    (s.setX r v).hart.pending = s.hart.pending ∧ (s.setX r v).hart.icmp = s.hart.icmp ∧
    (s.setX r v).hart.dcmp = s.hart.dcmp ∧ (s.setX r v).hart.stepping = s.hart.stepping ∧
    (s.setX r v).hart.claimed = s.hart.claimed ∧ (s.setX r v).hart.cv = s.hart.cv ∧
    (s.setX r v).hart.resumed = s.hart.resumed ∧ (s.setX r v).hart.retired = s.hart.retired ∧
    (s.setX r v).hart.took = s.hart.took ∧ (s.setX r v).hart.watched = s.hart.watched ∧
    (s.setX r v).hart.splitAt = s.hart.splitAt ∧ (s.setX r v).hart.words = s.hart.words := by
  unfold State.setX; split <;> simp

@[simp] theorem State.setPc_others (s : State) (a : Word) :
    (s.setPc a).others = s.others ∧ (s.setPc a).cores = s.cores ∧ (s.setPc a).mem = s.mem ∧
    (s.setPc a).spad = s.spad ∧ (s.setPc a).lane = s.lane ∧ (s.setPc a).badMem = s.badMem ∧
    (s.setPc a).badSpad = s.badSpad ∧ (s.setPc a).locks = s.locks ∧ (s.setPc a).tagged = s.tagged ∧
    (s.setPc a).notes = s.notes ∧ (s.setPc a).cached = s.cached ∧ (s.setPc a).spt = s.spt ∧ (s.setPc a).now = s.now ∧
    (s.setPc a).locked = s.locked ∧ (s.setPc a).endpt = s.endpt ∧ (s.setPc a).risk = s.risk ∧
    (s.setPc a).slew = s.slew ∧ (s.setPc a).stagger = s.stagger ∧ (s.setPc a).shape = s.shape ∧
    (s.setPc a).taghist = s.taghist ∧ (s.setPc a).tagIndex = s.tagIndex ∧ (s.setPc a).part = s.part ∧
    (s.setPc a).queues = s.queues ∧ (s.setPc a).served = s.served ∧ (s.setPc a).reserved = s.reserved ∧
    (s.setPc a).launches = s.launches ∧ (s.setPc a).stagings = s.stagings ∧ (s.setPc a).nextId = s.nextId ∧
    (s.setPc a).posted = s.posted ∧ (s.setPc a).trains = s.trains ∧ (s.setPc a).copies = s.copies ∧
    (s.setPc a).migrations = s.migrations ∧ (s.setPc a).leases = s.leases ∧ (s.setPc a).exports = s.exports ∧
    (s.setPc a).down = s.down ∧ (s.setPc a).exhausted = s.exhausted ∧ (s.setPc a).silent = s.silent ∧
    (s.setPc a).windows = s.windows ∧ (s.setPc a).bmax = s.bmax ∧ (s.setPc a).bmin = s.bmin ∧
    (s.setPc a).limit = s.limit ∧ (s.setPc a).keyLim = s.keyLim ∧ (s.setPc a).keyMargin = s.keyMargin ∧
    (s.setPc a).ingressFull = s.ingressFull ∧ (s.setPc a).flits = s.flits ∧ (s.setPc a).withheld = s.withheld ∧
    (s.setPc a).ports = s.ports ∧ (s.setPc a).recovery = s.recovery ∧ (s.setPc a).homes = s.homes ∧
    (s.setPc a).waiters = s.waiters ∧ (s.setPc a).replies = s.replies ∧ (s.setPc a).boot = s.boot ∧
    (s.setPc a).thermal = s.thermal ∧ (s.setPc a).agenda = s.agenda ∧ (s.setPc a).clock = s.clock := by
  simp [State.setPc]

@[simp] theorem State.setPc_hart (s : State) (a : Word) :
    (s.setPc a).hart.id = s.hart.id ∧ (s.setPc a).hart.run = s.hart.run ∧ (s.setPc a).hart.launch = s.hart.launch ∧
    (s.setPc a).hart.x = s.hart.x ∧ (s.setPc a).hart.priv = s.hart.priv ∧ (s.setPc a).hart.vl = s.hart.vl ∧
    (s.setPc a).hart.vrow = s.hart.vrow ∧ (s.setPc a).hart.vtype = s.hart.vtype ∧
    (s.setPc a).hart.vstart = s.hart.vstart ∧ (s.setPc a).hart.maxvl = s.hart.maxvl ∧
    (s.setPc a).hart.stale = s.hart.stale ∧ (s.setPc a).hart.vcthr = s.hart.vcthr ∧
    (s.setPc a).hart.flags = s.hart.flags ∧ (s.setPc a).hart.frm = s.hart.frm ∧
    (s.setPc a).hart.srseed = s.hart.srseed ∧ (s.setPc a).hart.lcnt = s.hart.lcnt ∧
    (s.setPc a).hart.lbeg = s.hart.lbeg ∧ (s.setPc a).hart.lend = s.hart.lend ∧
    (s.setPc a).hart.defdl = s.hart.defdl ∧ (s.setPc a).hart.maxwait = s.hart.maxwait ∧
    (s.setPc a).hart.cgrp0 = s.hart.cgrp0 ∧ (s.setPc a).hart.cgrp1 = s.hart.cgrp1 ∧
    (s.setPc a).hart.cop = s.hart.cop ∧ (s.setPc a).hart.cstride = s.hart.cstride ∧
    (s.setPc a).hart.cround = s.hart.cround ∧ (s.setPc a).hart.injWin = s.hart.injWin ∧
    (s.setPc a).hart.injTotal = s.hart.injTotal ∧ (s.setPc a).hart.lcr = s.hart.lcr ∧
    (s.setPc a).hart.status = s.hart.status ∧ (s.setPc a).hart.tvec = s.hart.tvec ∧
    (s.setPc a).hart.epc = s.hart.epc ∧ (s.setPc a).hart.cause = s.hart.cause ∧ (s.setPc a).hart.tval = s.hart.tval ∧
    (s.setPc a).hart.tval2 = s.hart.tval2 ∧ (s.setPc a).hart.sscratch = s.hart.sscratch ∧
    (s.setPc a).hart.asid = s.hart.asid ∧ (s.setPc a).hart.ptb = s.hart.ptb ∧
    (s.setPc a).hart.ctxarea = s.hart.ctxarea ∧ (s.setPc a).hart.slice = s.hart.slice ∧
    (s.setPc a).hart.sliceArmed = s.hart.sliceArmed ∧ (s.setPc a).hart.urgp = s.hart.urgp ∧
    (s.setPc a).hart.uen = s.hart.uen ∧ (s.setPc a).hart.pend = s.hart.pend ∧
    (s.setPc a).hart.riskthr = s.hart.riskthr ∧ (s.setPc a).hart.riskArmed = s.hart.riskArmed ∧
    (s.setPc a).hart.v = s.hart.v ∧ (s.setPc a).hart.flying = s.hart.flying ∧ (s.setPc a).hart.tile = s.hart.tile ∧
    (s.setPc a).hart.l1 = s.hart.l1 ∧ (s.setPc a).hart.buffer = s.hart.buffer ∧
    (s.setPc a).hart.pairs = s.hart.pairs ∧ (s.setPc a).hart.latch = s.hart.latch ∧
    (s.setPc a).hart.overflow = s.hart.overflow ∧ (s.setPc a).hart.answered = s.hart.answered ∧
    (s.setPc a).hart.sent = s.hart.sent ∧ (s.setPc a).hart.lost = s.hart.lost ∧ (s.setPc a).hart.slow = s.hart.slow ∧
    (s.setPc a).hart.late = s.hart.late ∧ (s.setPc a).hart.secured = s.hart.secured ∧
    (s.setPc a).hart.undo = s.hart.undo ∧ (s.setPc a).hart.members = s.hart.members ∧
    (s.setPc a).hart.reassembly = s.hart.reassembly ∧ (s.setPc a).hart.redirects = s.hart.redirects ∧
    (s.setPc a).hart.parked = s.hart.parked ∧ (s.setPc a).hart.stall = s.hart.stall ∧
    (s.setPc a).hart.wait = s.hart.wait ∧ (s.setPc a).hart.pending = s.hart.pending ∧
    (s.setPc a).hart.icmp = s.hart.icmp ∧ (s.setPc a).hart.dcmp = s.hart.dcmp ∧
    (s.setPc a).hart.stepping = s.hart.stepping ∧ (s.setPc a).hart.claimed = s.hart.claimed ∧
    (s.setPc a).hart.cv = s.hart.cv ∧ (s.setPc a).hart.resumed = s.hart.resumed ∧
    (s.setPc a).hart.retired = s.hart.retired ∧ (s.setPc a).hart.took = s.hart.took ∧
    (s.setPc a).hart.watched = s.hart.watched ∧ (s.setPc a).hart.splitAt = s.hart.splitAt ∧
    (s.setPc a).hart.words = s.hart.words := by
  simp [State.setPc]

@[simp] theorem State.advance_others (s : State) :
    (s.advance).others = s.others ∧ (s.advance).cores = s.cores ∧ (s.advance).mem = s.mem ∧
    (s.advance).spad = s.spad ∧ (s.advance).lane = s.lane ∧ (s.advance).badMem = s.badMem ∧
    (s.advance).badSpad = s.badSpad ∧ (s.advance).locks = s.locks ∧ (s.advance).tagged = s.tagged ∧
    (s.advance).notes = s.notes ∧ (s.advance).cached = s.cached ∧ (s.advance).spt = s.spt ∧ (s.advance).now = s.now ∧
    (s.advance).locked = s.locked ∧ (s.advance).endpt = s.endpt ∧ (s.advance).risk = s.risk ∧
    (s.advance).slew = s.slew ∧ (s.advance).stagger = s.stagger ∧ (s.advance).shape = s.shape ∧
    (s.advance).taghist = s.taghist ∧ (s.advance).tagIndex = s.tagIndex ∧ (s.advance).part = s.part ∧
    (s.advance).queues = s.queues ∧ (s.advance).served = s.served ∧ (s.advance).reserved = s.reserved ∧
    (s.advance).launches = s.launches ∧ (s.advance).stagings = s.stagings ∧ (s.advance).nextId = s.nextId ∧
    (s.advance).posted = s.posted ∧ (s.advance).trains = s.trains ∧ (s.advance).copies = s.copies ∧
    (s.advance).migrations = s.migrations ∧ (s.advance).leases = s.leases ∧ (s.advance).exports = s.exports ∧
    (s.advance).down = s.down ∧ (s.advance).exhausted = s.exhausted ∧ (s.advance).silent = s.silent ∧
    (s.advance).windows = s.windows ∧ (s.advance).bmax = s.bmax ∧ (s.advance).bmin = s.bmin ∧
    (s.advance).limit = s.limit ∧ (s.advance).keyLim = s.keyLim ∧ (s.advance).keyMargin = s.keyMargin ∧
    (s.advance).ingressFull = s.ingressFull ∧ (s.advance).flits = s.flits ∧ (s.advance).withheld = s.withheld ∧
    (s.advance).ports = s.ports ∧ (s.advance).recovery = s.recovery ∧ (s.advance).homes = s.homes ∧
    (s.advance).waiters = s.waiters ∧ (s.advance).replies = s.replies ∧ (s.advance).boot = s.boot ∧
    (s.advance).thermal = s.thermal ∧ (s.advance).agenda = s.agenda ∧ (s.advance).clock = s.clock := by
  simp [State.advance]

@[simp] theorem State.advance_hart (s : State) :
    (s.advance).hart.id = s.hart.id ∧ (s.advance).hart.run = s.hart.run ∧ (s.advance).hart.launch = s.hart.launch ∧
    (s.advance).hart.x = s.hart.x ∧ (s.advance).hart.priv = s.hart.priv ∧ (s.advance).hart.vl = s.hart.vl ∧
    (s.advance).hart.vrow = s.hart.vrow ∧ (s.advance).hart.vtype = s.hart.vtype ∧
    (s.advance).hart.vstart = s.hart.vstart ∧ (s.advance).hart.maxvl = s.hart.maxvl ∧
    (s.advance).hart.stale = s.hart.stale ∧ (s.advance).hart.vcthr = s.hart.vcthr ∧
    (s.advance).hart.flags = s.hart.flags ∧ (s.advance).hart.frm = s.hart.frm ∧
    (s.advance).hart.srseed = s.hart.srseed ∧ (s.advance).hart.lcnt = s.hart.lcnt ∧
    (s.advance).hart.lbeg = s.hart.lbeg ∧ (s.advance).hart.lend = s.hart.lend ∧
    (s.advance).hart.defdl = s.hart.defdl ∧ (s.advance).hart.maxwait = s.hart.maxwait ∧
    (s.advance).hart.cgrp0 = s.hart.cgrp0 ∧ (s.advance).hart.cgrp1 = s.hart.cgrp1 ∧
    (s.advance).hart.cop = s.hart.cop ∧ (s.advance).hart.cstride = s.hart.cstride ∧
    (s.advance).hart.cround = s.hart.cround ∧ (s.advance).hart.injWin = s.hart.injWin ∧
    (s.advance).hart.injTotal = s.hart.injTotal ∧ (s.advance).hart.lcr = s.hart.lcr ∧
    (s.advance).hart.status = s.hart.status ∧ (s.advance).hart.tvec = s.hart.tvec ∧
    (s.advance).hart.epc = s.hart.epc ∧ (s.advance).hart.cause = s.hart.cause ∧ (s.advance).hart.tval = s.hart.tval ∧
    (s.advance).hart.tval2 = s.hart.tval2 ∧ (s.advance).hart.sscratch = s.hart.sscratch ∧
    (s.advance).hart.asid = s.hart.asid ∧ (s.advance).hart.ptb = s.hart.ptb ∧
    (s.advance).hart.ctxarea = s.hart.ctxarea ∧ (s.advance).hart.slice = s.hart.slice ∧
    (s.advance).hart.sliceArmed = s.hart.sliceArmed ∧ (s.advance).hart.urgp = s.hart.urgp ∧
    (s.advance).hart.uen = s.hart.uen ∧ (s.advance).hart.pend = s.hart.pend ∧
    (s.advance).hart.riskthr = s.hart.riskthr ∧ (s.advance).hart.riskArmed = s.hart.riskArmed ∧
    (s.advance).hart.v = s.hart.v ∧ (s.advance).hart.flying = s.hart.flying ∧ (s.advance).hart.tile = s.hart.tile ∧
    (s.advance).hart.l1 = s.hart.l1 ∧ (s.advance).hart.buffer = s.hart.buffer ∧
    (s.advance).hart.pairs = s.hart.pairs ∧ (s.advance).hart.latch = s.hart.latch ∧
    (s.advance).hart.overflow = s.hart.overflow ∧ (s.advance).hart.answered = s.hart.answered ∧
    (s.advance).hart.sent = s.hart.sent ∧ (s.advance).hart.lost = s.hart.lost ∧ (s.advance).hart.slow = s.hart.slow ∧
    (s.advance).hart.late = s.hart.late ∧ (s.advance).hart.secured = s.hart.secured ∧
    (s.advance).hart.undo = s.hart.undo ∧ (s.advance).hart.members = s.hart.members ∧
    (s.advance).hart.reassembly = s.hart.reassembly ∧ (s.advance).hart.redirects = s.hart.redirects ∧
    (s.advance).hart.parked = s.hart.parked ∧ (s.advance).hart.wait = s.hart.wait ∧
    (s.advance).hart.pending = s.hart.pending ∧ (s.advance).hart.icmp = s.hart.icmp ∧
    (s.advance).hart.dcmp = s.hart.dcmp ∧ (s.advance).hart.stepping = s.hart.stepping ∧
    (s.advance).hart.claimed = s.hart.claimed ∧ (s.advance).hart.cv = s.hart.cv ∧
    (s.advance).hart.resumed = s.hart.resumed ∧ (s.advance).hart.took = s.hart.took ∧
    (s.advance).hart.watched = s.hart.watched ∧ (s.advance).hart.splitAt = s.hart.splitAt ∧
    (s.advance).hart.words = s.hart.words := by
  simp [State.advance]

@[simp] theorem State.jump_others (s : State) (a : Word) :
    (s.jump a).others = s.others ∧ (s.jump a).cores = s.cores ∧ (s.jump a).mem = s.mem ∧ (s.jump a).spad = s.spad ∧
    (s.jump a).lane = s.lane ∧ (s.jump a).badMem = s.badMem ∧ (s.jump a).badSpad = s.badSpad ∧
    (s.jump a).locks = s.locks ∧ (s.jump a).tagged = s.tagged ∧ (s.jump a).notes = s.notes ∧
    (s.jump a).cached = s.cached ∧ (s.jump a).spt = s.spt ∧ (s.jump a).now = s.now ∧ (s.jump a).locked = s.locked ∧
    (s.jump a).endpt = s.endpt ∧ (s.jump a).risk = s.risk ∧ (s.jump a).slew = s.slew ∧
    (s.jump a).stagger = s.stagger ∧ (s.jump a).shape = s.shape ∧ (s.jump a).taghist = s.taghist ∧
    (s.jump a).tagIndex = s.tagIndex ∧ (s.jump a).part = s.part ∧ (s.jump a).queues = s.queues ∧
    (s.jump a).served = s.served ∧ (s.jump a).reserved = s.reserved ∧ (s.jump a).launches = s.launches ∧
    (s.jump a).stagings = s.stagings ∧ (s.jump a).nextId = s.nextId ∧ (s.jump a).posted = s.posted ∧
    (s.jump a).trains = s.trains ∧ (s.jump a).copies = s.copies ∧ (s.jump a).migrations = s.migrations ∧
    (s.jump a).leases = s.leases ∧ (s.jump a).exports = s.exports ∧ (s.jump a).down = s.down ∧
    (s.jump a).exhausted = s.exhausted ∧ (s.jump a).silent = s.silent ∧ (s.jump a).windows = s.windows ∧
    (s.jump a).bmax = s.bmax ∧ (s.jump a).bmin = s.bmin ∧ (s.jump a).limit = s.limit ∧ (s.jump a).keyLim = s.keyLim ∧
    (s.jump a).keyMargin = s.keyMargin ∧ (s.jump a).ingressFull = s.ingressFull ∧ (s.jump a).flits = s.flits ∧
    (s.jump a).withheld = s.withheld ∧ (s.jump a).ports = s.ports ∧ (s.jump a).recovery = s.recovery ∧
    (s.jump a).homes = s.homes ∧ (s.jump a).waiters = s.waiters ∧ (s.jump a).replies = s.replies ∧
    (s.jump a).boot = s.boot ∧ (s.jump a).thermal = s.thermal ∧ (s.jump a).agenda = s.agenda ∧
    (s.jump a).clock = s.clock := by
  simp [State.jump]

@[simp] theorem State.jump_hart (s : State) (a : Word) :
    (s.jump a).hart.id = s.hart.id ∧ (s.jump a).hart.run = s.hart.run ∧ (s.jump a).hart.launch = s.hart.launch ∧
    (s.jump a).hart.x = s.hart.x ∧ (s.jump a).hart.priv = s.hart.priv ∧ (s.jump a).hart.vl = s.hart.vl ∧
    (s.jump a).hart.vrow = s.hart.vrow ∧ (s.jump a).hart.vtype = s.hart.vtype ∧
    (s.jump a).hart.vstart = s.hart.vstart ∧ (s.jump a).hart.maxvl = s.hart.maxvl ∧
    (s.jump a).hart.stale = s.hart.stale ∧ (s.jump a).hart.vcthr = s.hart.vcthr ∧
    (s.jump a).hart.flags = s.hart.flags ∧ (s.jump a).hart.frm = s.hart.frm ∧ (s.jump a).hart.srseed = s.hart.srseed ∧
    (s.jump a).hart.lcnt = s.hart.lcnt ∧ (s.jump a).hart.lbeg = s.hart.lbeg ∧ (s.jump a).hart.lend = s.hart.lend ∧
    (s.jump a).hart.defdl = s.hart.defdl ∧ (s.jump a).hart.maxwait = s.hart.maxwait ∧
    (s.jump a).hart.cgrp0 = s.hart.cgrp0 ∧ (s.jump a).hart.cgrp1 = s.hart.cgrp1 ∧ (s.jump a).hart.cop = s.hart.cop ∧
    (s.jump a).hart.cstride = s.hart.cstride ∧ (s.jump a).hart.cround = s.hart.cround ∧
    (s.jump a).hart.injWin = s.hart.injWin ∧ (s.jump a).hart.injTotal = s.hart.injTotal ∧
    (s.jump a).hart.lcr = s.hart.lcr ∧ (s.jump a).hart.status = s.hart.status ∧ (s.jump a).hart.tvec = s.hart.tvec ∧
    (s.jump a).hart.epc = s.hart.epc ∧ (s.jump a).hart.cause = s.hart.cause ∧ (s.jump a).hart.tval = s.hart.tval ∧
    (s.jump a).hart.tval2 = s.hart.tval2 ∧ (s.jump a).hart.sscratch = s.hart.sscratch ∧
    (s.jump a).hart.asid = s.hart.asid ∧ (s.jump a).hart.ptb = s.hart.ptb ∧ (s.jump a).hart.ctxarea = s.hart.ctxarea ∧
    (s.jump a).hart.slice = s.hart.slice ∧ (s.jump a).hart.sliceArmed = s.hart.sliceArmed ∧
    (s.jump a).hart.urgp = s.hart.urgp ∧ (s.jump a).hart.uen = s.hart.uen ∧ (s.jump a).hart.pend = s.hart.pend ∧
    (s.jump a).hart.riskthr = s.hart.riskthr ∧ (s.jump a).hart.riskArmed = s.hart.riskArmed ∧
    (s.jump a).hart.v = s.hart.v ∧ (s.jump a).hart.flying = s.hart.flying ∧ (s.jump a).hart.tile = s.hart.tile ∧
    (s.jump a).hart.l1 = s.hart.l1 ∧ (s.jump a).hart.buffer = s.hart.buffer ∧ (s.jump a).hart.pairs = s.hart.pairs ∧
    (s.jump a).hart.latch = s.hart.latch ∧ (s.jump a).hart.overflow = s.hart.overflow ∧
    (s.jump a).hart.answered = s.hart.answered ∧ (s.jump a).hart.sent = s.hart.sent ∧
    (s.jump a).hart.lost = s.hart.lost ∧ (s.jump a).hart.slow = s.hart.slow ∧ (s.jump a).hart.late = s.hart.late ∧
    (s.jump a).hart.secured = s.hart.secured ∧ (s.jump a).hart.undo = s.hart.undo ∧
    (s.jump a).hart.members = s.hart.members ∧ (s.jump a).hart.reassembly = s.hart.reassembly ∧
    (s.jump a).hart.redirects = s.hart.redirects ∧ (s.jump a).hart.parked = s.hart.parked ∧
    (s.jump a).hart.wait = s.hart.wait ∧ (s.jump a).hart.pending = s.hart.pending ∧
    (s.jump a).hart.icmp = s.hart.icmp ∧ (s.jump a).hart.dcmp = s.hart.dcmp ∧
    (s.jump a).hart.stepping = s.hart.stepping ∧ (s.jump a).hart.claimed = s.hart.claimed ∧
    (s.jump a).hart.cv = s.hart.cv ∧ (s.jump a).hart.resumed = s.hart.resumed ∧ (s.jump a).hart.took = s.hart.took ∧
    (s.jump a).hart.watched = s.hart.watched ∧ (s.jump a).hart.splitAt = s.hart.splitAt ∧
    (s.jump a).hart.words = s.hart.words := by
  simp [State.jump]

@[simp] theorem State.raiseFlags_others (s : State) (fl : Nat) :
    (s.raiseFlags fl).others = s.others ∧ (s.raiseFlags fl).cores = s.cores ∧ (s.raiseFlags fl).mem = s.mem ∧
    (s.raiseFlags fl).spad = s.spad ∧ (s.raiseFlags fl).lane = s.lane ∧ (s.raiseFlags fl).badMem = s.badMem ∧
    (s.raiseFlags fl).badSpad = s.badSpad ∧ (s.raiseFlags fl).locks = s.locks ∧ (s.raiseFlags fl).tagged = s.tagged ∧
    (s.raiseFlags fl).notes = s.notes ∧ (s.raiseFlags fl).cached = s.cached ∧ (s.raiseFlags fl).spt = s.spt ∧
    (s.raiseFlags fl).now = s.now ∧ (s.raiseFlags fl).locked = s.locked ∧ (s.raiseFlags fl).endpt = s.endpt ∧
    (s.raiseFlags fl).risk = s.risk ∧ (s.raiseFlags fl).slew = s.slew ∧ (s.raiseFlags fl).stagger = s.stagger ∧
    (s.raiseFlags fl).shape = s.shape ∧ (s.raiseFlags fl).taghist = s.taghist ∧
    (s.raiseFlags fl).tagIndex = s.tagIndex ∧ (s.raiseFlags fl).part = s.part ∧ (s.raiseFlags fl).queues = s.queues ∧
    (s.raiseFlags fl).served = s.served ∧ (s.raiseFlags fl).reserved = s.reserved ∧
    (s.raiseFlags fl).launches = s.launches ∧ (s.raiseFlags fl).stagings = s.stagings ∧
    (s.raiseFlags fl).nextId = s.nextId ∧ (s.raiseFlags fl).posted = s.posted ∧ (s.raiseFlags fl).trains = s.trains ∧
    (s.raiseFlags fl).copies = s.copies ∧ (s.raiseFlags fl).migrations = s.migrations ∧
    (s.raiseFlags fl).leases = s.leases ∧ (s.raiseFlags fl).exports = s.exports ∧ (s.raiseFlags fl).down = s.down ∧
    (s.raiseFlags fl).exhausted = s.exhausted ∧ (s.raiseFlags fl).silent = s.silent ∧
    (s.raiseFlags fl).windows = s.windows ∧ (s.raiseFlags fl).bmax = s.bmax ∧ (s.raiseFlags fl).bmin = s.bmin ∧
    (s.raiseFlags fl).limit = s.limit ∧ (s.raiseFlags fl).keyLim = s.keyLim ∧
    (s.raiseFlags fl).keyMargin = s.keyMargin ∧ (s.raiseFlags fl).ingressFull = s.ingressFull ∧
    (s.raiseFlags fl).flits = s.flits ∧ (s.raiseFlags fl).withheld = s.withheld ∧ (s.raiseFlags fl).ports = s.ports ∧
    (s.raiseFlags fl).recovery = s.recovery ∧ (s.raiseFlags fl).homes = s.homes ∧
    (s.raiseFlags fl).waiters = s.waiters ∧ (s.raiseFlags fl).replies = s.replies ∧ (s.raiseFlags fl).boot = s.boot ∧
    (s.raiseFlags fl).thermal = s.thermal ∧ (s.raiseFlags fl).agenda = s.agenda ∧ (s.raiseFlags fl).clock = s.clock := by
  simp [State.raiseFlags]

@[simp] theorem State.raiseFlags_hart (s : State) (fl : Nat) :
    (s.raiseFlags fl).hart.id = s.hart.id ∧ (s.raiseFlags fl).hart.run = s.hart.run ∧
    (s.raiseFlags fl).hart.launch = s.hart.launch ∧ (s.raiseFlags fl).hart.x = s.hart.x ∧
    (s.raiseFlags fl).hart.pc = s.hart.pc ∧ (s.raiseFlags fl).hart.priv = s.hart.priv ∧
    (s.raiseFlags fl).hart.vl = s.hart.vl ∧ (s.raiseFlags fl).hart.vrow = s.hart.vrow ∧
    (s.raiseFlags fl).hart.vtype = s.hart.vtype ∧ (s.raiseFlags fl).hart.vstart = s.hart.vstart ∧
    (s.raiseFlags fl).hart.maxvl = s.hart.maxvl ∧ (s.raiseFlags fl).hart.stale = s.hart.stale ∧
    (s.raiseFlags fl).hart.vcthr = s.hart.vcthr ∧ (s.raiseFlags fl).hart.frm = s.hart.frm ∧
    (s.raiseFlags fl).hart.srseed = s.hart.srseed ∧ (s.raiseFlags fl).hart.lcnt = s.hart.lcnt ∧
    (s.raiseFlags fl).hart.lbeg = s.hart.lbeg ∧ (s.raiseFlags fl).hart.lend = s.hart.lend ∧
    (s.raiseFlags fl).hart.defdl = s.hart.defdl ∧ (s.raiseFlags fl).hart.maxwait = s.hart.maxwait ∧
    (s.raiseFlags fl).hart.cgrp0 = s.hart.cgrp0 ∧ (s.raiseFlags fl).hart.cgrp1 = s.hart.cgrp1 ∧
    (s.raiseFlags fl).hart.cop = s.hart.cop ∧ (s.raiseFlags fl).hart.cstride = s.hart.cstride ∧
    (s.raiseFlags fl).hart.cround = s.hart.cround ∧ (s.raiseFlags fl).hart.injWin = s.hart.injWin ∧
    (s.raiseFlags fl).hart.injTotal = s.hart.injTotal ∧ (s.raiseFlags fl).hart.lcr = s.hart.lcr ∧
    (s.raiseFlags fl).hart.status = s.hart.status ∧ (s.raiseFlags fl).hart.tvec = s.hart.tvec ∧
    (s.raiseFlags fl).hart.epc = s.hart.epc ∧ (s.raiseFlags fl).hart.cause = s.hart.cause ∧
    (s.raiseFlags fl).hart.tval = s.hart.tval ∧ (s.raiseFlags fl).hart.tval2 = s.hart.tval2 ∧
    (s.raiseFlags fl).hart.sscratch = s.hart.sscratch ∧ (s.raiseFlags fl).hart.asid = s.hart.asid ∧
    (s.raiseFlags fl).hart.ptb = s.hart.ptb ∧ (s.raiseFlags fl).hart.ctxarea = s.hart.ctxarea ∧
    (s.raiseFlags fl).hart.slice = s.hart.slice ∧ (s.raiseFlags fl).hart.sliceArmed = s.hart.sliceArmed ∧
    (s.raiseFlags fl).hart.urgp = s.hart.urgp ∧ (s.raiseFlags fl).hart.uen = s.hart.uen ∧
    (s.raiseFlags fl).hart.pend = s.hart.pend ∧ (s.raiseFlags fl).hart.riskthr = s.hart.riskthr ∧
    (s.raiseFlags fl).hart.riskArmed = s.hart.riskArmed ∧ (s.raiseFlags fl).hart.v = s.hart.v ∧
    (s.raiseFlags fl).hart.flying = s.hart.flying ∧ (s.raiseFlags fl).hart.tile = s.hart.tile ∧
    (s.raiseFlags fl).hart.l1 = s.hart.l1 ∧ (s.raiseFlags fl).hart.buffer = s.hart.buffer ∧
    (s.raiseFlags fl).hart.pairs = s.hart.pairs ∧ (s.raiseFlags fl).hart.latch = s.hart.latch ∧
    (s.raiseFlags fl).hart.overflow = s.hart.overflow ∧ (s.raiseFlags fl).hart.answered = s.hart.answered ∧
    (s.raiseFlags fl).hart.sent = s.hart.sent ∧ (s.raiseFlags fl).hart.lost = s.hart.lost ∧
    (s.raiseFlags fl).hart.slow = s.hart.slow ∧ (s.raiseFlags fl).hart.late = s.hart.late ∧
    (s.raiseFlags fl).hart.secured = s.hart.secured ∧ (s.raiseFlags fl).hart.undo = s.hart.undo ∧
    (s.raiseFlags fl).hart.members = s.hart.members ∧ (s.raiseFlags fl).hart.reassembly = s.hart.reassembly ∧
    (s.raiseFlags fl).hart.redirects = s.hart.redirects ∧ (s.raiseFlags fl).hart.parked = s.hart.parked ∧
    (s.raiseFlags fl).hart.stall = s.hart.stall ∧ (s.raiseFlags fl).hart.wait = s.hart.wait ∧
    (s.raiseFlags fl).hart.pending = s.hart.pending ∧ (s.raiseFlags fl).hart.icmp = s.hart.icmp ∧
    (s.raiseFlags fl).hart.dcmp = s.hart.dcmp ∧ (s.raiseFlags fl).hart.stepping = s.hart.stepping ∧
    (s.raiseFlags fl).hart.claimed = s.hart.claimed ∧ (s.raiseFlags fl).hart.cv = s.hart.cv ∧
    (s.raiseFlags fl).hart.resumed = s.hart.resumed ∧ (s.raiseFlags fl).hart.retired = s.hart.retired ∧
    (s.raiseFlags fl).hart.took = s.hart.took ∧ (s.raiseFlags fl).hart.watched = s.hart.watched ∧
    (s.raiseFlags fl).hart.splitAt = s.hart.splitAt ∧ (s.raiseFlags fl).hart.words = s.hart.words := by
  simp [State.raiseFlags]

@[simp] theorem State.dirtyV_others (s : State) :
    (s.dirtyV).others = s.others ∧ (s.dirtyV).cores = s.cores ∧ (s.dirtyV).mem = s.mem ∧ (s.dirtyV).spad = s.spad ∧
    (s.dirtyV).lane = s.lane ∧ (s.dirtyV).badMem = s.badMem ∧ (s.dirtyV).badSpad = s.badSpad ∧
    (s.dirtyV).locks = s.locks ∧ (s.dirtyV).tagged = s.tagged ∧ (s.dirtyV).notes = s.notes ∧
    (s.dirtyV).cached = s.cached ∧ (s.dirtyV).spt = s.spt ∧ (s.dirtyV).now = s.now ∧ (s.dirtyV).locked = s.locked ∧
    (s.dirtyV).endpt = s.endpt ∧ (s.dirtyV).risk = s.risk ∧ (s.dirtyV).slew = s.slew ∧
    (s.dirtyV).stagger = s.stagger ∧ (s.dirtyV).shape = s.shape ∧ (s.dirtyV).taghist = s.taghist ∧
    (s.dirtyV).tagIndex = s.tagIndex ∧ (s.dirtyV).part = s.part ∧ (s.dirtyV).queues = s.queues ∧
    (s.dirtyV).served = s.served ∧ (s.dirtyV).reserved = s.reserved ∧ (s.dirtyV).launches = s.launches ∧
    (s.dirtyV).stagings = s.stagings ∧ (s.dirtyV).nextId = s.nextId ∧ (s.dirtyV).posted = s.posted ∧
    (s.dirtyV).trains = s.trains ∧ (s.dirtyV).copies = s.copies ∧ (s.dirtyV).migrations = s.migrations ∧
    (s.dirtyV).leases = s.leases ∧ (s.dirtyV).exports = s.exports ∧ (s.dirtyV).down = s.down ∧
    (s.dirtyV).exhausted = s.exhausted ∧ (s.dirtyV).silent = s.silent ∧ (s.dirtyV).windows = s.windows ∧
    (s.dirtyV).bmax = s.bmax ∧ (s.dirtyV).bmin = s.bmin ∧ (s.dirtyV).limit = s.limit ∧ (s.dirtyV).keyLim = s.keyLim ∧
    (s.dirtyV).keyMargin = s.keyMargin ∧ (s.dirtyV).ingressFull = s.ingressFull ∧ (s.dirtyV).flits = s.flits ∧
    (s.dirtyV).withheld = s.withheld ∧ (s.dirtyV).ports = s.ports ∧ (s.dirtyV).recovery = s.recovery ∧
    (s.dirtyV).homes = s.homes ∧ (s.dirtyV).waiters = s.waiters ∧ (s.dirtyV).replies = s.replies ∧
    (s.dirtyV).boot = s.boot ∧ (s.dirtyV).thermal = s.thermal ∧ (s.dirtyV).agenda = s.agenda ∧
    (s.dirtyV).clock = s.clock := by
  simp [State.dirtyV]

@[simp] theorem State.dirtyV_hart (s : State) :
    (s.dirtyV).hart.id = s.hart.id ∧ (s.dirtyV).hart.run = s.hart.run ∧ (s.dirtyV).hart.launch = s.hart.launch ∧
    (s.dirtyV).hart.x = s.hart.x ∧ (s.dirtyV).hart.pc = s.hart.pc ∧ (s.dirtyV).hart.priv = s.hart.priv ∧
    (s.dirtyV).hart.vl = s.hart.vl ∧ (s.dirtyV).hart.vrow = s.hart.vrow ∧ (s.dirtyV).hart.vtype = s.hart.vtype ∧
    (s.dirtyV).hart.vstart = s.hart.vstart ∧ (s.dirtyV).hart.maxvl = s.hart.maxvl ∧
    (s.dirtyV).hart.stale = s.hart.stale ∧ (s.dirtyV).hart.vcthr = s.hart.vcthr ∧
    (s.dirtyV).hart.flags = s.hart.flags ∧ (s.dirtyV).hart.frm = s.hart.frm ∧ (s.dirtyV).hart.srseed = s.hart.srseed ∧
    (s.dirtyV).hart.lcnt = s.hart.lcnt ∧ (s.dirtyV).hart.lbeg = s.hart.lbeg ∧ (s.dirtyV).hart.lend = s.hart.lend ∧
    (s.dirtyV).hart.defdl = s.hart.defdl ∧ (s.dirtyV).hart.maxwait = s.hart.maxwait ∧
    (s.dirtyV).hart.cgrp0 = s.hart.cgrp0 ∧ (s.dirtyV).hart.cgrp1 = s.hart.cgrp1 ∧ (s.dirtyV).hart.cop = s.hart.cop ∧
    (s.dirtyV).hart.cstride = s.hart.cstride ∧ (s.dirtyV).hart.cround = s.hart.cround ∧
    (s.dirtyV).hart.injWin = s.hart.injWin ∧ (s.dirtyV).hart.injTotal = s.hart.injTotal ∧
    (s.dirtyV).hart.lcr = s.hart.lcr ∧ (s.dirtyV).hart.tvec = s.hart.tvec ∧ (s.dirtyV).hart.epc = s.hart.epc ∧
    (s.dirtyV).hart.cause = s.hart.cause ∧ (s.dirtyV).hart.tval = s.hart.tval ∧ (s.dirtyV).hart.tval2 = s.hart.tval2 ∧
    (s.dirtyV).hart.sscratch = s.hart.sscratch ∧ (s.dirtyV).hart.asid = s.hart.asid ∧
    (s.dirtyV).hart.ptb = s.hart.ptb ∧ (s.dirtyV).hart.ctxarea = s.hart.ctxarea ∧
    (s.dirtyV).hart.slice = s.hart.slice ∧ (s.dirtyV).hart.sliceArmed = s.hart.sliceArmed ∧
    (s.dirtyV).hart.urgp = s.hart.urgp ∧ (s.dirtyV).hart.uen = s.hart.uen ∧ (s.dirtyV).hart.pend = s.hart.pend ∧
    (s.dirtyV).hart.riskthr = s.hart.riskthr ∧ (s.dirtyV).hart.riskArmed = s.hart.riskArmed ∧
    (s.dirtyV).hart.v = s.hart.v ∧ (s.dirtyV).hart.flying = s.hart.flying ∧ (s.dirtyV).hart.tile = s.hart.tile ∧
    (s.dirtyV).hart.l1 = s.hart.l1 ∧ (s.dirtyV).hart.buffer = s.hart.buffer ∧ (s.dirtyV).hart.pairs = s.hart.pairs ∧
    (s.dirtyV).hart.latch = s.hart.latch ∧ (s.dirtyV).hart.overflow = s.hart.overflow ∧
    (s.dirtyV).hart.answered = s.hart.answered ∧ (s.dirtyV).hart.sent = s.hart.sent ∧
    (s.dirtyV).hart.lost = s.hart.lost ∧ (s.dirtyV).hart.slow = s.hart.slow ∧ (s.dirtyV).hart.late = s.hart.late ∧
    (s.dirtyV).hart.secured = s.hart.secured ∧ (s.dirtyV).hart.undo = s.hart.undo ∧
    (s.dirtyV).hart.members = s.hart.members ∧ (s.dirtyV).hart.reassembly = s.hart.reassembly ∧
    (s.dirtyV).hart.redirects = s.hart.redirects ∧ (s.dirtyV).hart.parked = s.hart.parked ∧
    (s.dirtyV).hart.stall = s.hart.stall ∧ (s.dirtyV).hart.wait = s.hart.wait ∧
    (s.dirtyV).hart.pending = s.hart.pending ∧ (s.dirtyV).hart.icmp = s.hart.icmp ∧
    (s.dirtyV).hart.dcmp = s.hart.dcmp ∧ (s.dirtyV).hart.stepping = s.hart.stepping ∧
    (s.dirtyV).hart.claimed = s.hart.claimed ∧ (s.dirtyV).hart.cv = s.hart.cv ∧
    (s.dirtyV).hart.resumed = s.hart.resumed ∧ (s.dirtyV).hart.retired = s.hart.retired ∧
    (s.dirtyV).hart.took = s.hart.took ∧ (s.dirtyV).hart.watched = s.hart.watched ∧
    (s.dirtyV).hart.splitAt = s.hart.splitAt ∧ (s.dirtyV).hart.words = s.hart.words := by
  simp [State.dirtyV]

@[simp] theorem State.dirtyT_others (s : State) :
    (s.dirtyT).others = s.others ∧ (s.dirtyT).cores = s.cores ∧ (s.dirtyT).mem = s.mem ∧ (s.dirtyT).spad = s.spad ∧
    (s.dirtyT).lane = s.lane ∧ (s.dirtyT).badMem = s.badMem ∧ (s.dirtyT).badSpad = s.badSpad ∧
    (s.dirtyT).locks = s.locks ∧ (s.dirtyT).tagged = s.tagged ∧ (s.dirtyT).notes = s.notes ∧
    (s.dirtyT).cached = s.cached ∧ (s.dirtyT).spt = s.spt ∧ (s.dirtyT).now = s.now ∧ (s.dirtyT).locked = s.locked ∧
    (s.dirtyT).endpt = s.endpt ∧ (s.dirtyT).risk = s.risk ∧ (s.dirtyT).slew = s.slew ∧
    (s.dirtyT).stagger = s.stagger ∧ (s.dirtyT).shape = s.shape ∧ (s.dirtyT).taghist = s.taghist ∧
    (s.dirtyT).tagIndex = s.tagIndex ∧ (s.dirtyT).part = s.part ∧ (s.dirtyT).queues = s.queues ∧
    (s.dirtyT).served = s.served ∧ (s.dirtyT).reserved = s.reserved ∧ (s.dirtyT).launches = s.launches ∧
    (s.dirtyT).stagings = s.stagings ∧ (s.dirtyT).nextId = s.nextId ∧ (s.dirtyT).posted = s.posted ∧
    (s.dirtyT).trains = s.trains ∧ (s.dirtyT).copies = s.copies ∧ (s.dirtyT).migrations = s.migrations ∧
    (s.dirtyT).leases = s.leases ∧ (s.dirtyT).exports = s.exports ∧ (s.dirtyT).down = s.down ∧
    (s.dirtyT).exhausted = s.exhausted ∧ (s.dirtyT).silent = s.silent ∧ (s.dirtyT).windows = s.windows ∧
    (s.dirtyT).bmax = s.bmax ∧ (s.dirtyT).bmin = s.bmin ∧ (s.dirtyT).limit = s.limit ∧ (s.dirtyT).keyLim = s.keyLim ∧
    (s.dirtyT).keyMargin = s.keyMargin ∧ (s.dirtyT).ingressFull = s.ingressFull ∧ (s.dirtyT).flits = s.flits ∧
    (s.dirtyT).withheld = s.withheld ∧ (s.dirtyT).ports = s.ports ∧ (s.dirtyT).recovery = s.recovery ∧
    (s.dirtyT).homes = s.homes ∧ (s.dirtyT).waiters = s.waiters ∧ (s.dirtyT).replies = s.replies ∧
    (s.dirtyT).boot = s.boot ∧ (s.dirtyT).thermal = s.thermal ∧ (s.dirtyT).agenda = s.agenda ∧
    (s.dirtyT).clock = s.clock := by
  simp [State.dirtyT]

@[simp] theorem State.dirtyT_hart (s : State) :
    (s.dirtyT).hart.id = s.hart.id ∧ (s.dirtyT).hart.run = s.hart.run ∧ (s.dirtyT).hart.launch = s.hart.launch ∧
    (s.dirtyT).hart.x = s.hart.x ∧ (s.dirtyT).hart.pc = s.hart.pc ∧ (s.dirtyT).hart.priv = s.hart.priv ∧
    (s.dirtyT).hart.vl = s.hart.vl ∧ (s.dirtyT).hart.vrow = s.hart.vrow ∧ (s.dirtyT).hart.vtype = s.hart.vtype ∧
    (s.dirtyT).hart.vstart = s.hart.vstart ∧ (s.dirtyT).hart.maxvl = s.hart.maxvl ∧
    (s.dirtyT).hart.stale = s.hart.stale ∧ (s.dirtyT).hart.vcthr = s.hart.vcthr ∧
    (s.dirtyT).hart.flags = s.hart.flags ∧ (s.dirtyT).hart.frm = s.hart.frm ∧ (s.dirtyT).hart.srseed = s.hart.srseed ∧
    (s.dirtyT).hart.lcnt = s.hart.lcnt ∧ (s.dirtyT).hart.lbeg = s.hart.lbeg ∧ (s.dirtyT).hart.lend = s.hart.lend ∧
    (s.dirtyT).hart.defdl = s.hart.defdl ∧ (s.dirtyT).hart.maxwait = s.hart.maxwait ∧
    (s.dirtyT).hart.cgrp0 = s.hart.cgrp0 ∧ (s.dirtyT).hart.cgrp1 = s.hart.cgrp1 ∧ (s.dirtyT).hart.cop = s.hart.cop ∧
    (s.dirtyT).hart.cstride = s.hart.cstride ∧ (s.dirtyT).hart.cround = s.hart.cround ∧
    (s.dirtyT).hart.injWin = s.hart.injWin ∧ (s.dirtyT).hart.injTotal = s.hart.injTotal ∧
    (s.dirtyT).hart.lcr = s.hart.lcr ∧ (s.dirtyT).hart.tvec = s.hart.tvec ∧ (s.dirtyT).hart.epc = s.hart.epc ∧
    (s.dirtyT).hart.cause = s.hart.cause ∧ (s.dirtyT).hart.tval = s.hart.tval ∧ (s.dirtyT).hart.tval2 = s.hart.tval2 ∧
    (s.dirtyT).hart.sscratch = s.hart.sscratch ∧ (s.dirtyT).hart.asid = s.hart.asid ∧
    (s.dirtyT).hart.ptb = s.hart.ptb ∧ (s.dirtyT).hart.ctxarea = s.hart.ctxarea ∧
    (s.dirtyT).hart.slice = s.hart.slice ∧ (s.dirtyT).hart.sliceArmed = s.hart.sliceArmed ∧
    (s.dirtyT).hart.urgp = s.hart.urgp ∧ (s.dirtyT).hart.uen = s.hart.uen ∧ (s.dirtyT).hart.pend = s.hart.pend ∧
    (s.dirtyT).hart.riskthr = s.hart.riskthr ∧ (s.dirtyT).hart.riskArmed = s.hart.riskArmed ∧
    (s.dirtyT).hart.v = s.hart.v ∧ (s.dirtyT).hart.flying = s.hart.flying ∧ (s.dirtyT).hart.tile = s.hart.tile ∧
    (s.dirtyT).hart.l1 = s.hart.l1 ∧ (s.dirtyT).hart.buffer = s.hart.buffer ∧ (s.dirtyT).hart.pairs = s.hart.pairs ∧
    (s.dirtyT).hart.latch = s.hart.latch ∧ (s.dirtyT).hart.overflow = s.hart.overflow ∧
    (s.dirtyT).hart.answered = s.hart.answered ∧ (s.dirtyT).hart.sent = s.hart.sent ∧
    (s.dirtyT).hart.lost = s.hart.lost ∧ (s.dirtyT).hart.slow = s.hart.slow ∧ (s.dirtyT).hart.late = s.hart.late ∧
    (s.dirtyT).hart.secured = s.hart.secured ∧ (s.dirtyT).hart.undo = s.hart.undo ∧
    (s.dirtyT).hart.members = s.hart.members ∧ (s.dirtyT).hart.reassembly = s.hart.reassembly ∧
    (s.dirtyT).hart.redirects = s.hart.redirects ∧ (s.dirtyT).hart.parked = s.hart.parked ∧
    (s.dirtyT).hart.stall = s.hart.stall ∧ (s.dirtyT).hart.wait = s.hart.wait ∧
    (s.dirtyT).hart.pending = s.hart.pending ∧ (s.dirtyT).hart.icmp = s.hart.icmp ∧
    (s.dirtyT).hart.dcmp = s.hart.dcmp ∧ (s.dirtyT).hart.stepping = s.hart.stepping ∧
    (s.dirtyT).hart.claimed = s.hart.claimed ∧ (s.dirtyT).hart.cv = s.hart.cv ∧
    (s.dirtyT).hart.resumed = s.hart.resumed ∧ (s.dirtyT).hart.retired = s.hart.retired ∧
    (s.dirtyT).hart.took = s.hart.took ∧ (s.dirtyT).hart.watched = s.hart.watched ∧
    (s.dirtyT).hart.splitAt = s.hart.splitAt ∧ (s.dirtyT).hart.words = s.hart.words := by
  simp [State.dirtyT]

@[simp] theorem State.dirtyL_others (s : State) :
    (s.dirtyL).others = s.others ∧ (s.dirtyL).cores = s.cores ∧ (s.dirtyL).mem = s.mem ∧ (s.dirtyL).spad = s.spad ∧
    (s.dirtyL).lane = s.lane ∧ (s.dirtyL).badMem = s.badMem ∧ (s.dirtyL).badSpad = s.badSpad ∧
    (s.dirtyL).locks = s.locks ∧ (s.dirtyL).tagged = s.tagged ∧ (s.dirtyL).notes = s.notes ∧
    (s.dirtyL).cached = s.cached ∧ (s.dirtyL).spt = s.spt ∧ (s.dirtyL).now = s.now ∧ (s.dirtyL).locked = s.locked ∧
    (s.dirtyL).endpt = s.endpt ∧ (s.dirtyL).risk = s.risk ∧ (s.dirtyL).slew = s.slew ∧
    (s.dirtyL).stagger = s.stagger ∧ (s.dirtyL).shape = s.shape ∧ (s.dirtyL).taghist = s.taghist ∧
    (s.dirtyL).tagIndex = s.tagIndex ∧ (s.dirtyL).part = s.part ∧ (s.dirtyL).queues = s.queues ∧
    (s.dirtyL).served = s.served ∧ (s.dirtyL).reserved = s.reserved ∧ (s.dirtyL).launches = s.launches ∧
    (s.dirtyL).stagings = s.stagings ∧ (s.dirtyL).nextId = s.nextId ∧ (s.dirtyL).posted = s.posted ∧
    (s.dirtyL).trains = s.trains ∧ (s.dirtyL).copies = s.copies ∧ (s.dirtyL).migrations = s.migrations ∧
    (s.dirtyL).leases = s.leases ∧ (s.dirtyL).exports = s.exports ∧ (s.dirtyL).down = s.down ∧
    (s.dirtyL).exhausted = s.exhausted ∧ (s.dirtyL).silent = s.silent ∧ (s.dirtyL).windows = s.windows ∧
    (s.dirtyL).bmax = s.bmax ∧ (s.dirtyL).bmin = s.bmin ∧ (s.dirtyL).limit = s.limit ∧ (s.dirtyL).keyLim = s.keyLim ∧
    (s.dirtyL).keyMargin = s.keyMargin ∧ (s.dirtyL).ingressFull = s.ingressFull ∧ (s.dirtyL).flits = s.flits ∧
    (s.dirtyL).withheld = s.withheld ∧ (s.dirtyL).ports = s.ports ∧ (s.dirtyL).recovery = s.recovery ∧
    (s.dirtyL).homes = s.homes ∧ (s.dirtyL).waiters = s.waiters ∧ (s.dirtyL).replies = s.replies ∧
    (s.dirtyL).boot = s.boot ∧ (s.dirtyL).thermal = s.thermal ∧ (s.dirtyL).agenda = s.agenda ∧
    (s.dirtyL).clock = s.clock := by
  simp [State.dirtyL]

@[simp] theorem State.dirtyL_hart (s : State) :
    (s.dirtyL).hart.id = s.hart.id ∧ (s.dirtyL).hart.run = s.hart.run ∧ (s.dirtyL).hart.launch = s.hart.launch ∧
    (s.dirtyL).hart.x = s.hart.x ∧ (s.dirtyL).hart.pc = s.hart.pc ∧ (s.dirtyL).hart.priv = s.hart.priv ∧
    (s.dirtyL).hart.vl = s.hart.vl ∧ (s.dirtyL).hart.vrow = s.hart.vrow ∧ (s.dirtyL).hart.vtype = s.hart.vtype ∧
    (s.dirtyL).hart.vstart = s.hart.vstart ∧ (s.dirtyL).hart.maxvl = s.hart.maxvl ∧
    (s.dirtyL).hart.stale = s.hart.stale ∧ (s.dirtyL).hart.vcthr = s.hart.vcthr ∧
    (s.dirtyL).hart.flags = s.hart.flags ∧ (s.dirtyL).hart.frm = s.hart.frm ∧ (s.dirtyL).hart.srseed = s.hart.srseed ∧
    (s.dirtyL).hart.lcnt = s.hart.lcnt ∧ (s.dirtyL).hart.lbeg = s.hart.lbeg ∧ (s.dirtyL).hart.lend = s.hart.lend ∧
    (s.dirtyL).hart.defdl = s.hart.defdl ∧ (s.dirtyL).hart.maxwait = s.hart.maxwait ∧
    (s.dirtyL).hart.cgrp0 = s.hart.cgrp0 ∧ (s.dirtyL).hart.cgrp1 = s.hart.cgrp1 ∧ (s.dirtyL).hart.cop = s.hart.cop ∧
    (s.dirtyL).hart.cstride = s.hart.cstride ∧ (s.dirtyL).hart.cround = s.hart.cround ∧
    (s.dirtyL).hart.injWin = s.hart.injWin ∧ (s.dirtyL).hart.injTotal = s.hart.injTotal ∧
    (s.dirtyL).hart.lcr = s.hart.lcr ∧ (s.dirtyL).hart.tvec = s.hart.tvec ∧ (s.dirtyL).hart.epc = s.hart.epc ∧
    (s.dirtyL).hart.cause = s.hart.cause ∧ (s.dirtyL).hart.tval = s.hart.tval ∧ (s.dirtyL).hart.tval2 = s.hart.tval2 ∧
    (s.dirtyL).hart.sscratch = s.hart.sscratch ∧ (s.dirtyL).hart.asid = s.hart.asid ∧
    (s.dirtyL).hart.ptb = s.hart.ptb ∧ (s.dirtyL).hart.ctxarea = s.hart.ctxarea ∧
    (s.dirtyL).hart.slice = s.hart.slice ∧ (s.dirtyL).hart.sliceArmed = s.hart.sliceArmed ∧
    (s.dirtyL).hart.urgp = s.hart.urgp ∧ (s.dirtyL).hart.uen = s.hart.uen ∧ (s.dirtyL).hart.pend = s.hart.pend ∧
    (s.dirtyL).hart.riskthr = s.hart.riskthr ∧ (s.dirtyL).hart.riskArmed = s.hart.riskArmed ∧
    (s.dirtyL).hart.v = s.hart.v ∧ (s.dirtyL).hart.flying = s.hart.flying ∧ (s.dirtyL).hart.tile = s.hart.tile ∧
    (s.dirtyL).hart.l1 = s.hart.l1 ∧ (s.dirtyL).hart.buffer = s.hart.buffer ∧ (s.dirtyL).hart.pairs = s.hart.pairs ∧
    (s.dirtyL).hart.latch = s.hart.latch ∧ (s.dirtyL).hart.overflow = s.hart.overflow ∧
    (s.dirtyL).hart.answered = s.hart.answered ∧ (s.dirtyL).hart.sent = s.hart.sent ∧
    (s.dirtyL).hart.lost = s.hart.lost ∧ (s.dirtyL).hart.slow = s.hart.slow ∧ (s.dirtyL).hart.late = s.hart.late ∧
    (s.dirtyL).hart.secured = s.hart.secured ∧ (s.dirtyL).hart.undo = s.hart.undo ∧
    (s.dirtyL).hart.members = s.hart.members ∧ (s.dirtyL).hart.reassembly = s.hart.reassembly ∧
    (s.dirtyL).hart.redirects = s.hart.redirects ∧ (s.dirtyL).hart.parked = s.hart.parked ∧
    (s.dirtyL).hart.stall = s.hart.stall ∧ (s.dirtyL).hart.wait = s.hart.wait ∧
    (s.dirtyL).hart.pending = s.hart.pending ∧ (s.dirtyL).hart.icmp = s.hart.icmp ∧
    (s.dirtyL).hart.dcmp = s.hart.dcmp ∧ (s.dirtyL).hart.stepping = s.hart.stepping ∧
    (s.dirtyL).hart.claimed = s.hart.claimed ∧ (s.dirtyL).hart.cv = s.hart.cv ∧
    (s.dirtyL).hart.resumed = s.hart.resumed ∧ (s.dirtyL).hart.retired = s.hart.retired ∧
    (s.dirtyL).hart.took = s.hart.took ∧ (s.dirtyL).hart.watched = s.hart.watched ∧
    (s.dirtyL).hart.splitAt = s.hart.splitAt ∧ (s.dirtyL).hart.words = s.hart.words := by
  simp [State.dirtyL]

@[simp] theorem State.dirtyVIf_others (s : State) (c : Bool) :
    (s.dirtyVIf c).others = s.others ∧ (s.dirtyVIf c).cores = s.cores ∧ (s.dirtyVIf c).mem = s.mem ∧
    (s.dirtyVIf c).spad = s.spad ∧ (s.dirtyVIf c).lane = s.lane ∧ (s.dirtyVIf c).badMem = s.badMem ∧
    (s.dirtyVIf c).badSpad = s.badSpad ∧ (s.dirtyVIf c).locks = s.locks ∧ (s.dirtyVIf c).tagged = s.tagged ∧
    (s.dirtyVIf c).notes = s.notes ∧ (s.dirtyVIf c).cached = s.cached ∧ (s.dirtyVIf c).spt = s.spt ∧
    (s.dirtyVIf c).now = s.now ∧ (s.dirtyVIf c).locked = s.locked ∧ (s.dirtyVIf c).endpt = s.endpt ∧
    (s.dirtyVIf c).risk = s.risk ∧ (s.dirtyVIf c).slew = s.slew ∧ (s.dirtyVIf c).stagger = s.stagger ∧
    (s.dirtyVIf c).shape = s.shape ∧ (s.dirtyVIf c).taghist = s.taghist ∧ (s.dirtyVIf c).tagIndex = s.tagIndex ∧
    (s.dirtyVIf c).part = s.part ∧ (s.dirtyVIf c).queues = s.queues ∧ (s.dirtyVIf c).served = s.served ∧
    (s.dirtyVIf c).reserved = s.reserved ∧ (s.dirtyVIf c).launches = s.launches ∧
    (s.dirtyVIf c).stagings = s.stagings ∧ (s.dirtyVIf c).nextId = s.nextId ∧ (s.dirtyVIf c).posted = s.posted ∧
    (s.dirtyVIf c).trains = s.trains ∧ (s.dirtyVIf c).copies = s.copies ∧ (s.dirtyVIf c).migrations = s.migrations ∧
    (s.dirtyVIf c).leases = s.leases ∧ (s.dirtyVIf c).exports = s.exports ∧ (s.dirtyVIf c).down = s.down ∧
    (s.dirtyVIf c).exhausted = s.exhausted ∧ (s.dirtyVIf c).silent = s.silent ∧ (s.dirtyVIf c).windows = s.windows ∧
    (s.dirtyVIf c).bmax = s.bmax ∧ (s.dirtyVIf c).bmin = s.bmin ∧ (s.dirtyVIf c).limit = s.limit ∧
    (s.dirtyVIf c).keyLim = s.keyLim ∧ (s.dirtyVIf c).keyMargin = s.keyMargin ∧
    (s.dirtyVIf c).ingressFull = s.ingressFull ∧ (s.dirtyVIf c).flits = s.flits ∧
    (s.dirtyVIf c).withheld = s.withheld ∧ (s.dirtyVIf c).ports = s.ports ∧ (s.dirtyVIf c).recovery = s.recovery ∧
    (s.dirtyVIf c).homes = s.homes ∧ (s.dirtyVIf c).waiters = s.waiters ∧ (s.dirtyVIf c).replies = s.replies ∧
    (s.dirtyVIf c).boot = s.boot ∧ (s.dirtyVIf c).thermal = s.thermal ∧ (s.dirtyVIf c).agenda = s.agenda ∧
    (s.dirtyVIf c).clock = s.clock := by
  cases c <;> simp [State.dirtyVIf]

@[simp] theorem State.dirtyVIf_hart (s : State) (c : Bool) :
    (s.dirtyVIf c).hart.id = s.hart.id ∧ (s.dirtyVIf c).hart.run = s.hart.run ∧
    (s.dirtyVIf c).hart.launch = s.hart.launch ∧ (s.dirtyVIf c).hart.x = s.hart.x ∧
    (s.dirtyVIf c).hart.pc = s.hart.pc ∧ (s.dirtyVIf c).hart.priv = s.hart.priv ∧ (s.dirtyVIf c).hart.vl = s.hart.vl ∧
    (s.dirtyVIf c).hart.vrow = s.hart.vrow ∧ (s.dirtyVIf c).hart.vtype = s.hart.vtype ∧
    (s.dirtyVIf c).hart.vstart = s.hart.vstart ∧ (s.dirtyVIf c).hart.maxvl = s.hart.maxvl ∧
    (s.dirtyVIf c).hart.stale = s.hart.stale ∧ (s.dirtyVIf c).hart.vcthr = s.hart.vcthr ∧
    (s.dirtyVIf c).hart.flags = s.hart.flags ∧ (s.dirtyVIf c).hart.frm = s.hart.frm ∧
    (s.dirtyVIf c).hart.srseed = s.hart.srseed ∧ (s.dirtyVIf c).hart.lcnt = s.hart.lcnt ∧
    (s.dirtyVIf c).hart.lbeg = s.hart.lbeg ∧ (s.dirtyVIf c).hart.lend = s.hart.lend ∧
    (s.dirtyVIf c).hart.defdl = s.hart.defdl ∧ (s.dirtyVIf c).hart.maxwait = s.hart.maxwait ∧
    (s.dirtyVIf c).hart.cgrp0 = s.hart.cgrp0 ∧ (s.dirtyVIf c).hart.cgrp1 = s.hart.cgrp1 ∧
    (s.dirtyVIf c).hart.cop = s.hart.cop ∧ (s.dirtyVIf c).hart.cstride = s.hart.cstride ∧
    (s.dirtyVIf c).hart.cround = s.hart.cround ∧ (s.dirtyVIf c).hart.injWin = s.hart.injWin ∧
    (s.dirtyVIf c).hart.injTotal = s.hart.injTotal ∧ (s.dirtyVIf c).hart.lcr = s.hart.lcr ∧
    (s.dirtyVIf c).hart.tvec = s.hart.tvec ∧ (s.dirtyVIf c).hart.epc = s.hart.epc ∧
    (s.dirtyVIf c).hart.cause = s.hart.cause ∧ (s.dirtyVIf c).hart.tval = s.hart.tval ∧
    (s.dirtyVIf c).hart.tval2 = s.hart.tval2 ∧ (s.dirtyVIf c).hart.sscratch = s.hart.sscratch ∧
    (s.dirtyVIf c).hart.asid = s.hart.asid ∧ (s.dirtyVIf c).hart.ptb = s.hart.ptb ∧
    (s.dirtyVIf c).hart.ctxarea = s.hart.ctxarea ∧ (s.dirtyVIf c).hart.slice = s.hart.slice ∧
    (s.dirtyVIf c).hart.sliceArmed = s.hart.sliceArmed ∧ (s.dirtyVIf c).hart.urgp = s.hart.urgp ∧
    (s.dirtyVIf c).hart.uen = s.hart.uen ∧ (s.dirtyVIf c).hart.pend = s.hart.pend ∧
    (s.dirtyVIf c).hart.riskthr = s.hart.riskthr ∧ (s.dirtyVIf c).hart.riskArmed = s.hart.riskArmed ∧
    (s.dirtyVIf c).hart.v = s.hart.v ∧ (s.dirtyVIf c).hart.flying = s.hart.flying ∧
    (s.dirtyVIf c).hart.tile = s.hart.tile ∧ (s.dirtyVIf c).hart.l1 = s.hart.l1 ∧
    (s.dirtyVIf c).hart.buffer = s.hart.buffer ∧ (s.dirtyVIf c).hart.pairs = s.hart.pairs ∧
    (s.dirtyVIf c).hart.latch = s.hart.latch ∧ (s.dirtyVIf c).hart.overflow = s.hart.overflow ∧
    (s.dirtyVIf c).hart.answered = s.hart.answered ∧ (s.dirtyVIf c).hart.sent = s.hart.sent ∧
    (s.dirtyVIf c).hart.lost = s.hart.lost ∧ (s.dirtyVIf c).hart.slow = s.hart.slow ∧
    (s.dirtyVIf c).hart.late = s.hart.late ∧ (s.dirtyVIf c).hart.secured = s.hart.secured ∧
    (s.dirtyVIf c).hart.undo = s.hart.undo ∧ (s.dirtyVIf c).hart.members = s.hart.members ∧
    (s.dirtyVIf c).hart.reassembly = s.hart.reassembly ∧ (s.dirtyVIf c).hart.redirects = s.hart.redirects ∧
    (s.dirtyVIf c).hart.parked = s.hart.parked ∧ (s.dirtyVIf c).hart.stall = s.hart.stall ∧
    (s.dirtyVIf c).hart.wait = s.hart.wait ∧ (s.dirtyVIf c).hart.pending = s.hart.pending ∧
    (s.dirtyVIf c).hart.icmp = s.hart.icmp ∧ (s.dirtyVIf c).hart.dcmp = s.hart.dcmp ∧
    (s.dirtyVIf c).hart.stepping = s.hart.stepping ∧ (s.dirtyVIf c).hart.claimed = s.hart.claimed ∧
    (s.dirtyVIf c).hart.cv = s.hart.cv ∧ (s.dirtyVIf c).hart.resumed = s.hart.resumed ∧
    (s.dirtyVIf c).hart.retired = s.hart.retired ∧ (s.dirtyVIf c).hart.took = s.hart.took ∧
    (s.dirtyVIf c).hart.watched = s.hart.watched ∧ (s.dirtyVIf c).hart.splitAt = s.hart.splitAt ∧
    (s.dirtyVIf c).hart.words = s.hart.words := by
  cases c <;> simp [State.dirtyVIf]

@[simp] theorem State.setReg_others (s : State) (n v : Nat) :
    (s.setReg n v).others = s.others ∧ (s.setReg n v).cores = s.cores ∧ (s.setReg n v).mem = s.mem ∧
    (s.setReg n v).spad = s.spad ∧ (s.setReg n v).lane = s.lane ∧ (s.setReg n v).badMem = s.badMem ∧
    (s.setReg n v).badSpad = s.badSpad ∧ (s.setReg n v).locks = s.locks ∧ (s.setReg n v).tagged = s.tagged ∧
    (s.setReg n v).notes = s.notes ∧ (s.setReg n v).cached = s.cached ∧ (s.setReg n v).spt = s.spt ∧
    (s.setReg n v).now = s.now ∧ (s.setReg n v).locked = s.locked ∧ (s.setReg n v).endpt = s.endpt ∧
    (s.setReg n v).risk = s.risk ∧ (s.setReg n v).slew = s.slew ∧ (s.setReg n v).stagger = s.stagger ∧
    (s.setReg n v).shape = s.shape ∧ (s.setReg n v).taghist = s.taghist ∧ (s.setReg n v).tagIndex = s.tagIndex ∧
    (s.setReg n v).part = s.part ∧ (s.setReg n v).queues = s.queues ∧ (s.setReg n v).served = s.served ∧
    (s.setReg n v).reserved = s.reserved ∧ (s.setReg n v).launches = s.launches ∧
    (s.setReg n v).stagings = s.stagings ∧ (s.setReg n v).nextId = s.nextId ∧ (s.setReg n v).posted = s.posted ∧
    (s.setReg n v).trains = s.trains ∧ (s.setReg n v).copies = s.copies ∧ (s.setReg n v).migrations = s.migrations ∧
    (s.setReg n v).leases = s.leases ∧ (s.setReg n v).exports = s.exports ∧ (s.setReg n v).down = s.down ∧
    (s.setReg n v).exhausted = s.exhausted ∧ (s.setReg n v).silent = s.silent ∧ (s.setReg n v).windows = s.windows ∧
    (s.setReg n v).bmax = s.bmax ∧ (s.setReg n v).bmin = s.bmin ∧ (s.setReg n v).limit = s.limit ∧
    (s.setReg n v).keyLim = s.keyLim ∧ (s.setReg n v).keyMargin = s.keyMargin ∧
    (s.setReg n v).ingressFull = s.ingressFull ∧ (s.setReg n v).flits = s.flits ∧
    (s.setReg n v).withheld = s.withheld ∧ (s.setReg n v).ports = s.ports ∧ (s.setReg n v).recovery = s.recovery ∧
    (s.setReg n v).homes = s.homes ∧ (s.setReg n v).waiters = s.waiters ∧ (s.setReg n v).replies = s.replies ∧
    (s.setReg n v).boot = s.boot ∧ (s.setReg n v).thermal = s.thermal ∧ (s.setReg n v).agenda = s.agenda ∧
    (s.setReg n v).clock = s.clock := by
  unfold State.setReg; split <;> simp

@[simp] theorem State.setReg_hart (s : State) (n v : Nat) :
    (s.setReg n v).hart.id = s.hart.id ∧ (s.setReg n v).hart.run = s.hart.run ∧
    (s.setReg n v).hart.launch = s.hart.launch ∧ (s.setReg n v).hart.x = s.hart.x ∧
    (s.setReg n v).hart.pc = s.hart.pc ∧ (s.setReg n v).hart.priv = s.hart.priv ∧ (s.setReg n v).hart.vl = s.hart.vl ∧
    (s.setReg n v).hart.vrow = s.hart.vrow ∧ (s.setReg n v).hart.vtype = s.hart.vtype ∧
    (s.setReg n v).hart.vstart = s.hart.vstart ∧ (s.setReg n v).hart.maxvl = s.hart.maxvl ∧
    (s.setReg n v).hart.stale = s.hart.stale ∧ (s.setReg n v).hart.vcthr = s.hart.vcthr ∧
    (s.setReg n v).hart.flags = s.hart.flags ∧ (s.setReg n v).hart.frm = s.hart.frm ∧
    (s.setReg n v).hart.srseed = s.hart.srseed ∧ (s.setReg n v).hart.lcnt = s.hart.lcnt ∧
    (s.setReg n v).hart.lbeg = s.hart.lbeg ∧ (s.setReg n v).hart.lend = s.hart.lend ∧
    (s.setReg n v).hart.defdl = s.hart.defdl ∧ (s.setReg n v).hart.maxwait = s.hart.maxwait ∧
    (s.setReg n v).hart.cgrp0 = s.hart.cgrp0 ∧ (s.setReg n v).hart.cgrp1 = s.hart.cgrp1 ∧
    (s.setReg n v).hart.cop = s.hart.cop ∧ (s.setReg n v).hart.cstride = s.hart.cstride ∧
    (s.setReg n v).hart.cround = s.hart.cround ∧ (s.setReg n v).hart.injWin = s.hart.injWin ∧
    (s.setReg n v).hart.injTotal = s.hart.injTotal ∧ (s.setReg n v).hart.lcr = s.hart.lcr ∧
    (s.setReg n v).hart.status = s.hart.status ∧ (s.setReg n v).hart.tvec = s.hart.tvec ∧
    (s.setReg n v).hart.epc = s.hart.epc ∧ (s.setReg n v).hart.cause = s.hart.cause ∧
    (s.setReg n v).hart.tval = s.hart.tval ∧ (s.setReg n v).hart.tval2 = s.hart.tval2 ∧
    (s.setReg n v).hart.sscratch = s.hart.sscratch ∧ (s.setReg n v).hart.asid = s.hart.asid ∧
    (s.setReg n v).hart.ptb = s.hart.ptb ∧ (s.setReg n v).hart.ctxarea = s.hart.ctxarea ∧
    (s.setReg n v).hart.slice = s.hart.slice ∧ (s.setReg n v).hart.sliceArmed = s.hart.sliceArmed ∧
    (s.setReg n v).hart.urgp = s.hart.urgp ∧ (s.setReg n v).hart.uen = s.hart.uen ∧
    (s.setReg n v).hart.pend = s.hart.pend ∧ (s.setReg n v).hart.riskthr = s.hart.riskthr ∧
    (s.setReg n v).hart.riskArmed = s.hart.riskArmed ∧ (s.setReg n v).hart.flying = s.hart.flying ∧
    (s.setReg n v).hart.tile = s.hart.tile ∧ (s.setReg n v).hart.l1 = s.hart.l1 ∧
    (s.setReg n v).hart.buffer = s.hart.buffer ∧ (s.setReg n v).hart.pairs = s.hart.pairs ∧
    (s.setReg n v).hart.latch = s.hart.latch ∧ (s.setReg n v).hart.overflow = s.hart.overflow ∧
    (s.setReg n v).hart.answered = s.hart.answered ∧ (s.setReg n v).hart.sent = s.hart.sent ∧
    (s.setReg n v).hart.lost = s.hart.lost ∧ (s.setReg n v).hart.slow = s.hart.slow ∧
    (s.setReg n v).hart.late = s.hart.late ∧ (s.setReg n v).hart.secured = s.hart.secured ∧
    (s.setReg n v).hart.undo = s.hart.undo ∧ (s.setReg n v).hart.members = s.hart.members ∧
    (s.setReg n v).hart.reassembly = s.hart.reassembly ∧ (s.setReg n v).hart.redirects = s.hart.redirects ∧
    (s.setReg n v).hart.parked = s.hart.parked ∧ (s.setReg n v).hart.stall = s.hart.stall ∧
    (s.setReg n v).hart.wait = s.hart.wait ∧ (s.setReg n v).hart.pending = s.hart.pending ∧
    (s.setReg n v).hart.icmp = s.hart.icmp ∧ (s.setReg n v).hart.dcmp = s.hart.dcmp ∧
    (s.setReg n v).hart.stepping = s.hart.stepping ∧ (s.setReg n v).hart.claimed = s.hart.claimed ∧
    (s.setReg n v).hart.cv = s.hart.cv ∧ (s.setReg n v).hart.resumed = s.hart.resumed ∧
    (s.setReg n v).hart.retired = s.hart.retired ∧ (s.setReg n v).hart.took = s.hart.took ∧
    (s.setReg n v).hart.watched = s.hart.watched ∧ (s.setReg n v).hart.splitAt = s.hart.splitAt ∧
    (s.setReg n v).hart.words = s.hart.words := by
  unfold State.setReg; split <;> simp

@[simp] theorem State.setElem_others (s : State) (n w e v : Nat) :
    (s.setElem n w e v).others = s.others ∧ (s.setElem n w e v).cores = s.cores ∧ (s.setElem n w e v).mem = s.mem ∧
    (s.setElem n w e v).spad = s.spad ∧ (s.setElem n w e v).lane = s.lane ∧ (s.setElem n w e v).badMem = s.badMem ∧
    (s.setElem n w e v).badSpad = s.badSpad ∧ (s.setElem n w e v).locks = s.locks ∧
    (s.setElem n w e v).tagged = s.tagged ∧ (s.setElem n w e v).notes = s.notes ∧
    (s.setElem n w e v).cached = s.cached ∧ (s.setElem n w e v).spt = s.spt ∧ (s.setElem n w e v).now = s.now ∧
    (s.setElem n w e v).locked = s.locked ∧ (s.setElem n w e v).endpt = s.endpt ∧ (s.setElem n w e v).risk = s.risk ∧
    (s.setElem n w e v).slew = s.slew ∧ (s.setElem n w e v).stagger = s.stagger ∧
    (s.setElem n w e v).shape = s.shape ∧ (s.setElem n w e v).taghist = s.taghist ∧
    (s.setElem n w e v).tagIndex = s.tagIndex ∧ (s.setElem n w e v).part = s.part ∧
    (s.setElem n w e v).queues = s.queues ∧ (s.setElem n w e v).served = s.served ∧
    (s.setElem n w e v).reserved = s.reserved ∧ (s.setElem n w e v).launches = s.launches ∧
    (s.setElem n w e v).stagings = s.stagings ∧ (s.setElem n w e v).nextId = s.nextId ∧
    (s.setElem n w e v).posted = s.posted ∧ (s.setElem n w e v).trains = s.trains ∧
    (s.setElem n w e v).copies = s.copies ∧ (s.setElem n w e v).migrations = s.migrations ∧
    (s.setElem n w e v).leases = s.leases ∧ (s.setElem n w e v).exports = s.exports ∧
    (s.setElem n w e v).down = s.down ∧ (s.setElem n w e v).exhausted = s.exhausted ∧
    (s.setElem n w e v).silent = s.silent ∧ (s.setElem n w e v).windows = s.windows ∧
    (s.setElem n w e v).bmax = s.bmax ∧ (s.setElem n w e v).bmin = s.bmin ∧ (s.setElem n w e v).limit = s.limit ∧
    (s.setElem n w e v).keyLim = s.keyLim ∧ (s.setElem n w e v).keyMargin = s.keyMargin ∧
    (s.setElem n w e v).ingressFull = s.ingressFull ∧ (s.setElem n w e v).flits = s.flits ∧
    (s.setElem n w e v).withheld = s.withheld ∧ (s.setElem n w e v).ports = s.ports ∧
    (s.setElem n w e v).recovery = s.recovery ∧ (s.setElem n w e v).homes = s.homes ∧
    (s.setElem n w e v).waiters = s.waiters ∧ (s.setElem n w e v).replies = s.replies ∧
    (s.setElem n w e v).boot = s.boot ∧ (s.setElem n w e v).thermal = s.thermal ∧
    (s.setElem n w e v).agenda = s.agenda ∧ (s.setElem n w e v).clock = s.clock := by
  simp [State.setElem]

@[simp] theorem State.setElem_hart (s : State) (n w e v : Nat) :
    (s.setElem n w e v).hart.id = s.hart.id ∧ (s.setElem n w e v).hart.run = s.hart.run ∧
    (s.setElem n w e v).hart.launch = s.hart.launch ∧ (s.setElem n w e v).hart.x = s.hart.x ∧
    (s.setElem n w e v).hart.pc = s.hart.pc ∧ (s.setElem n w e v).hart.priv = s.hart.priv ∧
    (s.setElem n w e v).hart.vl = s.hart.vl ∧ (s.setElem n w e v).hart.vrow = s.hart.vrow ∧
    (s.setElem n w e v).hart.vtype = s.hart.vtype ∧ (s.setElem n w e v).hart.vstart = s.hart.vstart ∧
    (s.setElem n w e v).hart.maxvl = s.hart.maxvl ∧ (s.setElem n w e v).hart.stale = s.hart.stale ∧
    (s.setElem n w e v).hart.vcthr = s.hart.vcthr ∧ (s.setElem n w e v).hart.flags = s.hart.flags ∧
    (s.setElem n w e v).hart.frm = s.hart.frm ∧ (s.setElem n w e v).hart.srseed = s.hart.srseed ∧
    (s.setElem n w e v).hart.lcnt = s.hart.lcnt ∧ (s.setElem n w e v).hart.lbeg = s.hart.lbeg ∧
    (s.setElem n w e v).hart.lend = s.hart.lend ∧ (s.setElem n w e v).hart.defdl = s.hart.defdl ∧
    (s.setElem n w e v).hart.maxwait = s.hart.maxwait ∧ (s.setElem n w e v).hart.cgrp0 = s.hart.cgrp0 ∧
    (s.setElem n w e v).hart.cgrp1 = s.hart.cgrp1 ∧ (s.setElem n w e v).hart.cop = s.hart.cop ∧
    (s.setElem n w e v).hart.cstride = s.hart.cstride ∧ (s.setElem n w e v).hart.cround = s.hart.cround ∧
    (s.setElem n w e v).hart.injWin = s.hart.injWin ∧ (s.setElem n w e v).hart.injTotal = s.hart.injTotal ∧
    (s.setElem n w e v).hart.lcr = s.hart.lcr ∧ (s.setElem n w e v).hart.status = s.hart.status ∧
    (s.setElem n w e v).hart.tvec = s.hart.tvec ∧ (s.setElem n w e v).hart.epc = s.hart.epc ∧
    (s.setElem n w e v).hart.cause = s.hart.cause ∧ (s.setElem n w e v).hart.tval = s.hart.tval ∧
    (s.setElem n w e v).hart.tval2 = s.hart.tval2 ∧ (s.setElem n w e v).hart.sscratch = s.hart.sscratch ∧
    (s.setElem n w e v).hart.asid = s.hart.asid ∧ (s.setElem n w e v).hart.ptb = s.hart.ptb ∧
    (s.setElem n w e v).hart.ctxarea = s.hart.ctxarea ∧ (s.setElem n w e v).hart.slice = s.hart.slice ∧
    (s.setElem n w e v).hart.sliceArmed = s.hart.sliceArmed ∧ (s.setElem n w e v).hart.urgp = s.hart.urgp ∧
    (s.setElem n w e v).hart.uen = s.hart.uen ∧ (s.setElem n w e v).hart.pend = s.hart.pend ∧
    (s.setElem n w e v).hart.riskthr = s.hart.riskthr ∧ (s.setElem n w e v).hart.riskArmed = s.hart.riskArmed ∧
    (s.setElem n w e v).hart.flying = s.hart.flying ∧ (s.setElem n w e v).hart.tile = s.hart.tile ∧
    (s.setElem n w e v).hart.l1 = s.hart.l1 ∧ (s.setElem n w e v).hart.buffer = s.hart.buffer ∧
    (s.setElem n w e v).hart.pairs = s.hart.pairs ∧ (s.setElem n w e v).hart.latch = s.hart.latch ∧
    (s.setElem n w e v).hart.overflow = s.hart.overflow ∧ (s.setElem n w e v).hart.answered = s.hart.answered ∧
    (s.setElem n w e v).hart.sent = s.hart.sent ∧ (s.setElem n w e v).hart.lost = s.hart.lost ∧
    (s.setElem n w e v).hart.slow = s.hart.slow ∧ (s.setElem n w e v).hart.late = s.hart.late ∧
    (s.setElem n w e v).hart.secured = s.hart.secured ∧ (s.setElem n w e v).hart.undo = s.hart.undo ∧
    (s.setElem n w e v).hart.members = s.hart.members ∧ (s.setElem n w e v).hart.reassembly = s.hart.reassembly ∧
    (s.setElem n w e v).hart.redirects = s.hart.redirects ∧ (s.setElem n w e v).hart.parked = s.hart.parked ∧
    (s.setElem n w e v).hart.stall = s.hart.stall ∧ (s.setElem n w e v).hart.wait = s.hart.wait ∧
    (s.setElem n w e v).hart.pending = s.hart.pending ∧ (s.setElem n w e v).hart.icmp = s.hart.icmp ∧
    (s.setElem n w e v).hart.dcmp = s.hart.dcmp ∧ (s.setElem n w e v).hart.stepping = s.hart.stepping ∧
    (s.setElem n w e v).hart.claimed = s.hart.claimed ∧ (s.setElem n w e v).hart.cv = s.hart.cv ∧
    (s.setElem n w e v).hart.resumed = s.hart.resumed ∧ (s.setElem n w e v).hart.retired = s.hart.retired ∧
    (s.setElem n w e v).hart.took = s.hart.took ∧ (s.setElem n w e v).hart.watched = s.hart.watched ∧
    (s.setElem n w e v).hart.splitAt = s.hart.splitAt ∧ (s.setElem n w e v).hart.words = s.hart.words := by
  simp [State.setElem]

@[simp] theorem State.zeroFrom_others (s : State) (n lo : Nat) :
    (s.zeroFrom n lo).others = s.others ∧ (s.zeroFrom n lo).cores = s.cores ∧ (s.zeroFrom n lo).mem = s.mem ∧
    (s.zeroFrom n lo).spad = s.spad ∧ (s.zeroFrom n lo).lane = s.lane ∧ (s.zeroFrom n lo).badMem = s.badMem ∧
    (s.zeroFrom n lo).badSpad = s.badSpad ∧ (s.zeroFrom n lo).locks = s.locks ∧ (s.zeroFrom n lo).tagged = s.tagged ∧
    (s.zeroFrom n lo).notes = s.notes ∧ (s.zeroFrom n lo).cached = s.cached ∧ (s.zeroFrom n lo).spt = s.spt ∧
    (s.zeroFrom n lo).now = s.now ∧ (s.zeroFrom n lo).locked = s.locked ∧ (s.zeroFrom n lo).endpt = s.endpt ∧
    (s.zeroFrom n lo).risk = s.risk ∧ (s.zeroFrom n lo).slew = s.slew ∧ (s.zeroFrom n lo).stagger = s.stagger ∧
    (s.zeroFrom n lo).shape = s.shape ∧ (s.zeroFrom n lo).taghist = s.taghist ∧
    (s.zeroFrom n lo).tagIndex = s.tagIndex ∧ (s.zeroFrom n lo).part = s.part ∧ (s.zeroFrom n lo).queues = s.queues ∧
    (s.zeroFrom n lo).served = s.served ∧ (s.zeroFrom n lo).reserved = s.reserved ∧
    (s.zeroFrom n lo).launches = s.launches ∧ (s.zeroFrom n lo).stagings = s.stagings ∧
    (s.zeroFrom n lo).nextId = s.nextId ∧ (s.zeroFrom n lo).posted = s.posted ∧ (s.zeroFrom n lo).trains = s.trains ∧
    (s.zeroFrom n lo).copies = s.copies ∧ (s.zeroFrom n lo).migrations = s.migrations ∧
    (s.zeroFrom n lo).leases = s.leases ∧ (s.zeroFrom n lo).exports = s.exports ∧ (s.zeroFrom n lo).down = s.down ∧
    (s.zeroFrom n lo).exhausted = s.exhausted ∧ (s.zeroFrom n lo).silent = s.silent ∧
    (s.zeroFrom n lo).windows = s.windows ∧ (s.zeroFrom n lo).bmax = s.bmax ∧ (s.zeroFrom n lo).bmin = s.bmin ∧
    (s.zeroFrom n lo).limit = s.limit ∧ (s.zeroFrom n lo).keyLim = s.keyLim ∧
    (s.zeroFrom n lo).keyMargin = s.keyMargin ∧ (s.zeroFrom n lo).ingressFull = s.ingressFull ∧
    (s.zeroFrom n lo).flits = s.flits ∧ (s.zeroFrom n lo).withheld = s.withheld ∧ (s.zeroFrom n lo).ports = s.ports ∧
    (s.zeroFrom n lo).recovery = s.recovery ∧ (s.zeroFrom n lo).homes = s.homes ∧
    (s.zeroFrom n lo).waiters = s.waiters ∧ (s.zeroFrom n lo).replies = s.replies ∧ (s.zeroFrom n lo).boot = s.boot ∧
    (s.zeroFrom n lo).thermal = s.thermal ∧ (s.zeroFrom n lo).agenda = s.agenda ∧ (s.zeroFrom n lo).clock = s.clock := by
  simp [State.zeroFrom]

@[simp] theorem State.zeroFrom_hart (s : State) (n lo : Nat) :
    (s.zeroFrom n lo).hart.id = s.hart.id ∧ (s.zeroFrom n lo).hart.run = s.hart.run ∧
    (s.zeroFrom n lo).hart.launch = s.hart.launch ∧ (s.zeroFrom n lo).hart.x = s.hart.x ∧
    (s.zeroFrom n lo).hart.pc = s.hart.pc ∧ (s.zeroFrom n lo).hart.priv = s.hart.priv ∧
    (s.zeroFrom n lo).hart.vl = s.hart.vl ∧ (s.zeroFrom n lo).hart.vrow = s.hart.vrow ∧
    (s.zeroFrom n lo).hart.vtype = s.hart.vtype ∧ (s.zeroFrom n lo).hart.vstart = s.hart.vstart ∧
    (s.zeroFrom n lo).hart.maxvl = s.hart.maxvl ∧ (s.zeroFrom n lo).hart.stale = s.hart.stale ∧
    (s.zeroFrom n lo).hart.vcthr = s.hart.vcthr ∧ (s.zeroFrom n lo).hart.flags = s.hart.flags ∧
    (s.zeroFrom n lo).hart.frm = s.hart.frm ∧ (s.zeroFrom n lo).hart.srseed = s.hart.srseed ∧
    (s.zeroFrom n lo).hart.lcnt = s.hart.lcnt ∧ (s.zeroFrom n lo).hart.lbeg = s.hart.lbeg ∧
    (s.zeroFrom n lo).hart.lend = s.hart.lend ∧ (s.zeroFrom n lo).hart.defdl = s.hart.defdl ∧
    (s.zeroFrom n lo).hart.maxwait = s.hart.maxwait ∧ (s.zeroFrom n lo).hart.cgrp0 = s.hart.cgrp0 ∧
    (s.zeroFrom n lo).hart.cgrp1 = s.hart.cgrp1 ∧ (s.zeroFrom n lo).hart.cop = s.hart.cop ∧
    (s.zeroFrom n lo).hart.cstride = s.hart.cstride ∧ (s.zeroFrom n lo).hart.cround = s.hart.cround ∧
    (s.zeroFrom n lo).hart.injWin = s.hart.injWin ∧ (s.zeroFrom n lo).hart.injTotal = s.hart.injTotal ∧
    (s.zeroFrom n lo).hart.lcr = s.hart.lcr ∧ (s.zeroFrom n lo).hart.status = s.hart.status ∧
    (s.zeroFrom n lo).hart.tvec = s.hart.tvec ∧ (s.zeroFrom n lo).hart.epc = s.hart.epc ∧
    (s.zeroFrom n lo).hart.cause = s.hart.cause ∧ (s.zeroFrom n lo).hart.tval = s.hart.tval ∧
    (s.zeroFrom n lo).hart.tval2 = s.hart.tval2 ∧ (s.zeroFrom n lo).hart.sscratch = s.hart.sscratch ∧
    (s.zeroFrom n lo).hart.asid = s.hart.asid ∧ (s.zeroFrom n lo).hart.ptb = s.hart.ptb ∧
    (s.zeroFrom n lo).hart.ctxarea = s.hart.ctxarea ∧ (s.zeroFrom n lo).hart.slice = s.hart.slice ∧
    (s.zeroFrom n lo).hart.sliceArmed = s.hart.sliceArmed ∧ (s.zeroFrom n lo).hart.urgp = s.hart.urgp ∧
    (s.zeroFrom n lo).hart.uen = s.hart.uen ∧ (s.zeroFrom n lo).hart.pend = s.hart.pend ∧
    (s.zeroFrom n lo).hart.riskthr = s.hart.riskthr ∧ (s.zeroFrom n lo).hart.riskArmed = s.hart.riskArmed ∧
    (s.zeroFrom n lo).hart.flying = s.hart.flying ∧ (s.zeroFrom n lo).hart.tile = s.hart.tile ∧
    (s.zeroFrom n lo).hart.l1 = s.hart.l1 ∧ (s.zeroFrom n lo).hart.buffer = s.hart.buffer ∧
    (s.zeroFrom n lo).hart.pairs = s.hart.pairs ∧ (s.zeroFrom n lo).hart.latch = s.hart.latch ∧
    (s.zeroFrom n lo).hart.overflow = s.hart.overflow ∧ (s.zeroFrom n lo).hart.answered = s.hart.answered ∧
    (s.zeroFrom n lo).hart.sent = s.hart.sent ∧ (s.zeroFrom n lo).hart.lost = s.hart.lost ∧
    (s.zeroFrom n lo).hart.slow = s.hart.slow ∧ (s.zeroFrom n lo).hart.late = s.hart.late ∧
    (s.zeroFrom n lo).hart.secured = s.hart.secured ∧ (s.zeroFrom n lo).hart.undo = s.hart.undo ∧
    (s.zeroFrom n lo).hart.members = s.hart.members ∧ (s.zeroFrom n lo).hart.reassembly = s.hart.reassembly ∧
    (s.zeroFrom n lo).hart.redirects = s.hart.redirects ∧ (s.zeroFrom n lo).hart.parked = s.hart.parked ∧
    (s.zeroFrom n lo).hart.stall = s.hart.stall ∧ (s.zeroFrom n lo).hart.wait = s.hart.wait ∧
    (s.zeroFrom n lo).hart.pending = s.hart.pending ∧ (s.zeroFrom n lo).hart.icmp = s.hart.icmp ∧
    (s.zeroFrom n lo).hart.dcmp = s.hart.dcmp ∧ (s.zeroFrom n lo).hart.stepping = s.hart.stepping ∧
    (s.zeroFrom n lo).hart.claimed = s.hart.claimed ∧ (s.zeroFrom n lo).hart.cv = s.hart.cv ∧
    (s.zeroFrom n lo).hart.resumed = s.hart.resumed ∧ (s.zeroFrom n lo).hart.retired = s.hart.retired ∧
    (s.zeroFrom n lo).hart.took = s.hart.took ∧ (s.zeroFrom n lo).hart.watched = s.hart.watched ∧
    (s.zeroFrom n lo).hart.splitAt = s.hart.splitAt ∧ (s.zeroFrom n lo).hart.words = s.hart.words := by
  simp [State.zeroFrom]

@[simp] theorem State.stepLfsr_others (s : State) (n : Nat) :
    (s.stepLfsr n).others = s.others ∧ (s.stepLfsr n).cores = s.cores ∧ (s.stepLfsr n).mem = s.mem ∧
    (s.stepLfsr n).spad = s.spad ∧ (s.stepLfsr n).lane = s.lane ∧ (s.stepLfsr n).badMem = s.badMem ∧
    (s.stepLfsr n).badSpad = s.badSpad ∧ (s.stepLfsr n).locks = s.locks ∧ (s.stepLfsr n).tagged = s.tagged ∧
    (s.stepLfsr n).notes = s.notes ∧ (s.stepLfsr n).cached = s.cached ∧ (s.stepLfsr n).spt = s.spt ∧
    (s.stepLfsr n).now = s.now ∧ (s.stepLfsr n).locked = s.locked ∧ (s.stepLfsr n).endpt = s.endpt ∧
    (s.stepLfsr n).risk = s.risk ∧ (s.stepLfsr n).slew = s.slew ∧ (s.stepLfsr n).stagger = s.stagger ∧
    (s.stepLfsr n).shape = s.shape ∧ (s.stepLfsr n).taghist = s.taghist ∧ (s.stepLfsr n).tagIndex = s.tagIndex ∧
    (s.stepLfsr n).part = s.part ∧ (s.stepLfsr n).queues = s.queues ∧ (s.stepLfsr n).served = s.served ∧
    (s.stepLfsr n).reserved = s.reserved ∧ (s.stepLfsr n).launches = s.launches ∧
    (s.stepLfsr n).stagings = s.stagings ∧ (s.stepLfsr n).nextId = s.nextId ∧ (s.stepLfsr n).posted = s.posted ∧
    (s.stepLfsr n).trains = s.trains ∧ (s.stepLfsr n).copies = s.copies ∧ (s.stepLfsr n).migrations = s.migrations ∧
    (s.stepLfsr n).leases = s.leases ∧ (s.stepLfsr n).exports = s.exports ∧ (s.stepLfsr n).down = s.down ∧
    (s.stepLfsr n).exhausted = s.exhausted ∧ (s.stepLfsr n).silent = s.silent ∧ (s.stepLfsr n).windows = s.windows ∧
    (s.stepLfsr n).bmax = s.bmax ∧ (s.stepLfsr n).bmin = s.bmin ∧ (s.stepLfsr n).limit = s.limit ∧
    (s.stepLfsr n).keyLim = s.keyLim ∧ (s.stepLfsr n).keyMargin = s.keyMargin ∧
    (s.stepLfsr n).ingressFull = s.ingressFull ∧ (s.stepLfsr n).flits = s.flits ∧
    (s.stepLfsr n).withheld = s.withheld ∧ (s.stepLfsr n).ports = s.ports ∧ (s.stepLfsr n).recovery = s.recovery ∧
    (s.stepLfsr n).homes = s.homes ∧ (s.stepLfsr n).waiters = s.waiters ∧ (s.stepLfsr n).replies = s.replies ∧
    (s.stepLfsr n).boot = s.boot ∧ (s.stepLfsr n).thermal = s.thermal ∧ (s.stepLfsr n).agenda = s.agenda ∧
    (s.stepLfsr n).clock = s.clock := by
  simp [State.stepLfsr]

@[simp] theorem State.stepLfsr_hart (s : State) (n : Nat) :
    (s.stepLfsr n).hart.id = s.hart.id ∧ (s.stepLfsr n).hart.run = s.hart.run ∧
    (s.stepLfsr n).hart.launch = s.hart.launch ∧ (s.stepLfsr n).hart.x = s.hart.x ∧
    (s.stepLfsr n).hart.pc = s.hart.pc ∧ (s.stepLfsr n).hart.priv = s.hart.priv ∧ (s.stepLfsr n).hart.vl = s.hart.vl ∧
    (s.stepLfsr n).hart.vrow = s.hart.vrow ∧ (s.stepLfsr n).hart.vtype = s.hart.vtype ∧
    (s.stepLfsr n).hart.vstart = s.hart.vstart ∧ (s.stepLfsr n).hart.maxvl = s.hart.maxvl ∧
    (s.stepLfsr n).hart.stale = s.hart.stale ∧ (s.stepLfsr n).hart.vcthr = s.hart.vcthr ∧
    (s.stepLfsr n).hart.flags = s.hart.flags ∧ (s.stepLfsr n).hart.frm = s.hart.frm ∧
    (s.stepLfsr n).hart.lcnt = s.hart.lcnt ∧ (s.stepLfsr n).hart.lbeg = s.hart.lbeg ∧
    (s.stepLfsr n).hart.lend = s.hart.lend ∧ (s.stepLfsr n).hart.defdl = s.hart.defdl ∧
    (s.stepLfsr n).hart.maxwait = s.hart.maxwait ∧ (s.stepLfsr n).hart.cgrp0 = s.hart.cgrp0 ∧
    (s.stepLfsr n).hart.cgrp1 = s.hart.cgrp1 ∧ (s.stepLfsr n).hart.cop = s.hart.cop ∧
    (s.stepLfsr n).hart.cstride = s.hart.cstride ∧ (s.stepLfsr n).hart.cround = s.hart.cround ∧
    (s.stepLfsr n).hart.injWin = s.hart.injWin ∧ (s.stepLfsr n).hart.injTotal = s.hart.injTotal ∧
    (s.stepLfsr n).hart.lcr = s.hart.lcr ∧ (s.stepLfsr n).hart.status = s.hart.status ∧
    (s.stepLfsr n).hart.tvec = s.hart.tvec ∧ (s.stepLfsr n).hart.epc = s.hart.epc ∧
    (s.stepLfsr n).hart.cause = s.hart.cause ∧ (s.stepLfsr n).hart.tval = s.hart.tval ∧
    (s.stepLfsr n).hart.tval2 = s.hart.tval2 ∧ (s.stepLfsr n).hart.sscratch = s.hart.sscratch ∧
    (s.stepLfsr n).hart.asid = s.hart.asid ∧ (s.stepLfsr n).hart.ptb = s.hart.ptb ∧
    (s.stepLfsr n).hart.ctxarea = s.hart.ctxarea ∧ (s.stepLfsr n).hart.slice = s.hart.slice ∧
    (s.stepLfsr n).hart.sliceArmed = s.hart.sliceArmed ∧ (s.stepLfsr n).hart.urgp = s.hart.urgp ∧
    (s.stepLfsr n).hart.uen = s.hart.uen ∧ (s.stepLfsr n).hart.pend = s.hart.pend ∧
    (s.stepLfsr n).hart.riskthr = s.hart.riskthr ∧ (s.stepLfsr n).hart.riskArmed = s.hart.riskArmed ∧
    (s.stepLfsr n).hart.v = s.hart.v ∧ (s.stepLfsr n).hart.flying = s.hart.flying ∧
    (s.stepLfsr n).hart.tile = s.hart.tile ∧ (s.stepLfsr n).hart.l1 = s.hart.l1 ∧
    (s.stepLfsr n).hart.buffer = s.hart.buffer ∧ (s.stepLfsr n).hart.pairs = s.hart.pairs ∧
    (s.stepLfsr n).hart.latch = s.hart.latch ∧ (s.stepLfsr n).hart.overflow = s.hart.overflow ∧
    (s.stepLfsr n).hart.answered = s.hart.answered ∧ (s.stepLfsr n).hart.sent = s.hart.sent ∧
    (s.stepLfsr n).hart.lost = s.hart.lost ∧ (s.stepLfsr n).hart.slow = s.hart.slow ∧
    (s.stepLfsr n).hart.late = s.hart.late ∧ (s.stepLfsr n).hart.secured = s.hart.secured ∧
    (s.stepLfsr n).hart.undo = s.hart.undo ∧ (s.stepLfsr n).hart.members = s.hart.members ∧
    (s.stepLfsr n).hart.reassembly = s.hart.reassembly ∧ (s.stepLfsr n).hart.redirects = s.hart.redirects ∧
    (s.stepLfsr n).hart.parked = s.hart.parked ∧ (s.stepLfsr n).hart.stall = s.hart.stall ∧
    (s.stepLfsr n).hart.wait = s.hart.wait ∧ (s.stepLfsr n).hart.pending = s.hart.pending ∧
    (s.stepLfsr n).hart.icmp = s.hart.icmp ∧ (s.stepLfsr n).hart.dcmp = s.hart.dcmp ∧
    (s.stepLfsr n).hart.stepping = s.hart.stepping ∧ (s.stepLfsr n).hart.claimed = s.hart.claimed ∧
    (s.stepLfsr n).hart.cv = s.hart.cv ∧ (s.stepLfsr n).hart.resumed = s.hart.resumed ∧
    (s.stepLfsr n).hart.retired = s.hart.retired ∧ (s.stepLfsr n).hart.took = s.hart.took ∧
    (s.stepLfsr n).hart.watched = s.hart.watched ∧ (s.stepLfsr n).hart.splitAt = s.hart.splitAt ∧
    (s.stepLfsr n).hart.words = s.hart.words := by
  simp [State.stepLfsr]

@[simp] theorem State.setPc_pc (s : State) (a : Word) : (s.setPc a).hart.pc = a := rfl
@[simp] theorem State.advance_pc (s : State) : s.advance.hart.pc = s.hart.pc + 4 := rfl
@[simp] theorem State.advance_stall (s : State) : s.advance.hart.stall = none := rfl
@[simp] theorem State.advance_retired (s : State) : s.advance.hart.retired = true := rfl
@[simp] theorem State.jump_pc (s : State) (a : Word) : (s.jump a).hart.pc = a := rfl
@[simp] theorem State.jump_stall (s : State) (a : Word) : (s.jump a).hart.stall = none := rfl
@[simp] theorem State.jump_retired (s : State) (a : Word) : (s.jump a).hart.retired = true := rfl
@[simp] theorem State.raiseFlags_flags (s : State) (fl : Nat) : (s.raiseFlags fl).hart.flags = Machine.raiseFlags s.hart.flags fl := rfl
@[simp] theorem State.dirtyV_status (s : State) : s.dirtyV.hart.status = { s.hart.status with vs := .dirty } := rfl
@[simp] theorem State.dirtyT_status (s : State) : s.dirtyT.hart.status = { s.hart.status with ts := .dirty } := rfl
@[simp] theorem State.dirtyL_status (s : State) : s.dirtyL.hart.status = { s.hart.status with ls := .dirty } := rfl
@[simp] theorem State.stepLfsr_srseed (s : State) (n : Nat) : (s.stepLfsr n).hart.srseed = .ofNat 32 (lfsrSteps s.hart.srseed.toNat n) := rfl

/-- S(r) after S(r) := v; `s0` stays zero (R154). -/
theorem State.x_setX_same (s : State) (r : SReg) (v : Word) : (s.setX r v).x r = if r = 0 then 0 else v := by
  unfold State.x State.setX
  split <;> simp_all

/-- S(r) after a write to another register (R154). -/
theorem State.x_setX_other (s : State) (r q : SReg) (v : Word) (h : q ≠ r) : (s.setX r v).x q = s.x q := by
  by_cases hr : r = 0
  · simp [State.setX, hr]
  · have : ¬ r.toNat = q.toNat := fun e => h (BitVec.eq_of_toNat_eq e.symm)
    unfold State.x State.setX
    rw [if_neg hr]
    simp [this]

/-- `s0` reads as zero (R154). -/
@[simp] theorem State.x_zero (s : State) : s.x 0 = 0 := rfl

/-- A read of S(r) depends on the register file alone. -/
theorem State.x_congr (s t : State) (r : SReg) (h : s.hart.x = t.hart.x) : s.x r = t.x r := by
  simp [State.x, h]

/-- A vector register after its own write. -/
theorem State.reg_setReg_same (s : State) (n v : Nat) (h : n < 32) : (s.setReg n v).reg n = v := by
  simp [State.reg, State.setReg, h]

/-- A vector register after the write of another one. -/
theorem State.reg_setReg_other (s : State) (n k v : Nat) (h : k ≠ n) : (s.setReg n v).reg k = s.reg k := by
  unfold State.reg State.setReg
  split
  · simp [List.getD, Ne.symm h]
  · rfl

end Sys2Proof.Machine
end

