-- ==== Sys2Proof/Laws/Memory.lean ====
section
/-! SUPPORT. Tables and memories: a read after a write, and that every operation keeps the canonical form. -/

namespace Sys2Proof.Machine

variable {β : Type} [DecidableEq β]

/-- A table reads what was set. -/
theorem Tbl.get_set_same (d : β) (t : Tbl β) (n : Nat) (v : β) (lo : Nat) (h : Tbl.wfFrom d lo t = true) :
    Tbl.get d (Tbl.set d t n v) n = v := by
  induction t generalizing lo with
  | nil => unfold Tbl.set; split <;> simp_all [Tbl.get]
  | cons p t ih =>
    obtain ⟨k, w⟩ := p
    simp only [Tbl.wfFrom, Bool.and_eq_true, decide_eq_true_eq] at h
    have skip : ∀ (u : Tbl β) (lo : Nat), n < lo → Tbl.wfFrom d lo u = true → Tbl.get d u n = d := by
      intro u
      induction u with
      | nil => intros; rfl
      | cons q u ihu =>
        intro lo hlo hu
        simp only [Tbl.wfFrom, Bool.and_eq_true, decide_eq_true_eq] at hu
        rw [Tbl.get, if_neg (by omega)]
        exact ihu (q.1 + 1) (by omega) hu.2
    unfold Tbl.set
    split
    · split
      · next hv => rw [Tbl.get, if_neg (by omega), hv]; exact skip t (k + 1) (by omega) h.2
      · simp [Tbl.get]
    · split
      · next hn =>
        split
        · next hv => rw [hv]; exact skip t (k + 1) (by omega) h.2
        · simp [Tbl.get]
      · next hn => rw [Tbl.get, if_neg hn]; exact ih (k + 1) h.2

/-- A table reads elsewhere what it read before. -/
theorem Tbl.get_set_other (d : β) (t : Tbl β) (n m : Nat) (v : β) (h : m ≠ n) :
    Tbl.get d (Tbl.set d t n v) m = Tbl.get d t m := by
  induction t with
  | nil => unfold Tbl.set; split <;> simp [Tbl.get, h]
  | cons p t ih =>
    obtain ⟨k, w⟩ := p
    unfold Tbl.set
    split
    · split
      · rfl
      · simp [Tbl.get, h]
    · split
      · next hn =>
        subst hn
        split <;> simp [Tbl.get, h]
      · simp only [Tbl.get, ih]

/-- Setting an entry keeps the canonical form. -/
theorem Tbl.set_wfFrom (d : β) (t : Tbl β) (n : Nat) (v : β) (lo : Nat) (hlo : lo ≤ n)
    (h : Tbl.wfFrom d lo t = true) : Tbl.wfFrom d lo (Tbl.set d t n v) = true := by
  have weaken : ∀ (u : Tbl β) (a b : Nat), a ≤ b → Tbl.wfFrom d b u = true → Tbl.wfFrom d a u = true := by
    intro u a b hab hu
    cases u with
    | nil => rfl
    | cons q u =>
      simp only [Tbl.wfFrom, Bool.and_eq_true, decide_eq_true_eq] at hu ⊢
      exact ⟨⟨by omega, hu.1.2⟩, hu.2⟩
  induction t generalizing lo with
  | nil => unfold Tbl.set; split <;> simp_all [Tbl.wfFrom]
  | cons p t ih =>
    obtain ⟨k, w⟩ := p
    have h' := h
    simp only [Tbl.wfFrom, Bool.and_eq_true, decide_eq_true_eq] at h'
    unfold Tbl.set
    split
    · split
      · exact h
      · next hv =>
        simp only [Tbl.wfFrom, Bool.and_eq_true, decide_eq_true_eq]
        exact ⟨⟨hlo, hv⟩, ⟨by omega, h'.1.2⟩, h'.2⟩
    · split
      · next hn =>
        split
        · exact weaken t lo (k + 1) (by omega) h'.2
        · next hv =>
          simp only [Tbl.wfFrom, Bool.and_eq_true, decide_eq_true_eq]
          exact ⟨⟨hlo, hv⟩, hn ▸ h'.2⟩
      · next hn =>
        simp only [Tbl.wfFrom, Bool.and_eq_true, decide_eq_true_eq]
        exact ⟨⟨h'.1.1, h'.1.2⟩, ih (k + 1) (by omega) h'.2⟩

/-- A table without some of its entries keeps the canonical form. -/
theorem Tbl.filter_wfFrom (d : β) (t : Tbl β) (f : Nat × β → Bool) (lo : Nat) (h : Tbl.wfFrom d lo t = true) :
    Tbl.wfFrom d lo (t.filter f) = true := by
  have weaken : ∀ (u : Tbl β) (a b : Nat), a ≤ b → Tbl.wfFrom d b u = true → Tbl.wfFrom d a u = true := by
    intro u a b hab hu
    cases u with
    | nil => rfl
    | cons q u =>
      simp only [Tbl.wfFrom, Bool.and_eq_true, decide_eq_true_eq] at hu ⊢
      exact ⟨⟨by omega, hu.1.2⟩, hu.2⟩
  induction t generalizing lo with
  | nil => rfl
  | cons p t ih =>
    obtain ⟨k, w⟩ := p
    simp only [Tbl.wfFrom, Bool.and_eq_true, decide_eq_true_eq] at h
    rw [List.filter_cons]
    split
    · simp only [Tbl.wfFrom, Bool.and_eq_true, decide_eq_true_eq]
      exact ⟨h.1, ih (k + 1) h.2⟩
    · exact weaken _ lo (k + 1) (by omega) (ih (k + 1) h.2)

/-- A byte reads as it was written. -/
theorem Memory.read_write_same (m : Memory) (a : Nat) (b : Byte) (h : m.wf = true) : (m.write a b).read a = b :=
  Tbl.get_set_same unlisted m a b 0 h

/-- A byte that was not written reads as before. -/
theorem Memory.read_write_other (m : Memory) (a c : Nat) (b : Byte) (h : c ≠ a) : (m.write a b).read c = m.read c :=
  Tbl.get_set_other unlisted m a c b h

/-- A write keeps the canonical form. -/
theorem Memory.write_wf (m : Memory) (a : Nat) (b : Byte) (h : m.wf = true) : (m.write a b).wf = true :=
  Tbl.set_wfFrom unlisted m a b 0 (Nat.zero_le a) h

/-- Writes keep the canonical form. -/
theorem Memory.writeN_wf (m : Memory) (a : Nat) (bs : List Byte) (h : m.wf = true) : (m.writeN a bs).wf = true := by
  induction bs generalizing m a with
  | nil => exact h
  | cons b bs ih => exact ih _ _ (m.write_wf a b h)

/-- Bytes outside those written read as before. -/
theorem Memory.read_writeN_other (m : Memory) (a c : Nat) (bs : List Byte) (h : c < a ∨ a + bs.length ≤ c) :
    (m.writeN a bs).read c = m.read c := by
  induction bs generalizing m a with
  | nil => rfl
  | cons b bs ih =>
    simp only [List.length_cons] at h
    rw [Memory.writeN, ih _ _ (by omega), Memory.read_write_other _ _ _ _ (by omega)]

/-- Bytes read back as they were written. -/
theorem Memory.readN_writeN (m : Memory) (a : Nat) (bs : List Byte) (h : m.wf = true) :
    (m.writeN a bs).readN a bs.length = bs := by
  induction bs generalizing m a with
  | nil => rfl
  | cons b bs ih =>
    simp only [Memory.writeN, List.length_cons, Memory.readN]
    rw [ih _ _ (m.write_wf a b h), Memory.read_writeN_other _ _ _ _ (by omega), m.read_write_same a b h]

/-- The lane-private SRAM of a group cleared keeps the canonical form (R58). -/
theorem clearGroup_wf (m : Memory) (core g : Nat) (h : m.wf = true) : (clearGroup m core g).wf = true :=
  Tbl.filter_wfFrom unlisted m _ 0 h

/-- The number that bytes hold fits them. -/
theorem leNat_lt (bs : List Byte) : leNat bs < 256 ^ bs.length := by
  induction bs with
  | nil => simp [leNat]
  | cons b bs ih =>
    have := b.isLt
    simp only [leNat, List.length_cons, Nat.pow_succ]
    omega

/-- A number read back from its bytes. -/
theorem leNat_leBytes (x n : Nat) : leNat (leBytes x n) = x % 256 ^ n := by
  induction n generalizing x with
  | zero => simp [leBytes, leNat, Nat.mod_one]
  | succ n ih =>
    simp only [leBytes, leNat, ih, BitVec.toNat_ofNat]
    rw [show (256 : Nat) ^ (n + 1) = 256 * 256 ^ n from by rw [Nat.pow_succ, Nat.mul_comm], Nat.mod_mul]

/-- How many bytes there are. -/
@[simp] theorem leBytes_length (x n : Nat) : (leBytes x n).length = n := by
  induction n generalizing x with
  | zero => rfl
  | succ n ih => simp [leBytes, ih]

end Sys2Proof.Machine
end

