-- ==== Sys2Proof/Laws/Monad.lean ====
section
/-! SUPPORT. What a computation that may stop short does, one rule for each way of building one, and what a scalar
instruction makes of it. -/

namespace Sys2Proof.Machine

variable {α γ : Type}

@[simp] theorem M.go_pure (a : α) (s : State) : (pure a : M α).go s = (.ok a, s) := rfl

/-- A sequence: the second part runs in the state that the first leaves, if that one does not stop. -/
@[simp] theorem M.go_bind (m : M α) (f : α → M γ) (s : State) :
    (m >>= f).go s = match m.go s with
      | (.ok a, t) => (f a).go t
      | (.error h, t) => (.error h, t) := by
  change (ExceptT.bind m f) s = _
  simp only [ExceptT.bind, ExceptT.mk, M.go]
  change (do let x ← (m : StateT State Id _); ExceptT.bindCont f x : StateT State Id _) s = _
  simp only [bind, StateT.bind, Id]
  rcases h : m s with ⟨_ | _, t⟩ <;> rfl

@[simp] theorem M.go_map (m : M α) (f : α → γ) (s : State) :
    (f <$> m).go s = match m.go s with
      | (.ok a, t) => (.ok (f a), t)
      | (.error h, t) => (.error h, t) := by
  rw [map_eq_pure_bind]
  simp only [M.go_bind, M.go_pure]

@[simp] theorem M.go_get (s : State) : (get : M State).go s = (.ok s, s) := rfl
@[simp] theorem M.go_set (t s : State) : (set t : M PUnit).go s = (.ok ⟨⟩, t) := rfl
@[simp] theorem M.go_modify (f : State → State) (s : State) : (modify f : M PUnit).go s = (.ok ⟨⟩, f s) := rfl
@[simp] theorem M.go_throw (h : Halt) (s : State) : (throw h : M α).go s = (.error h, s) := rfl
@[simp] theorem M.go_trapM (c : Nat) (v w : Word) (s : State) :
    (trapM c v w : M α).go s = (.error (.trap ⟨c, v, w⟩), s) := rfl

@[simp] theorem M.go_checkM (ok : Bool) (h : Halt) (s : State) :
    (checkM ok h).go s = (if ok then .ok () else .error h, s) := by
  unfold checkM; cases ok <;> rfl

@[simp] theorem M.go_require (ok : Bool) (c : Nat) (v : Word) (s : State) :
    (require ok c v).go s = (if ok then .ok () else .error (.trap ⟨c, v, s.hart.pc⟩), s) := by
  unfold require; cases ok <;> rfl

@[simp] theorem M.go_ite (p : Prop) [Decidable p] (m n : M α) (s : State) :
    (if p then m else n).go s = if p then m.go s else n.go s := by split <;> rfl

/-- A handler runs where the computation stopped. -/
@[simp] theorem M.go_tryCatch (m : M α) (f : Halt → M α) (s : State) :
    (tryCatch m f).go s = match m.go s with
      | (.ok a, t) => (.ok a, t)
      | (.error h, t) => (f h).go t := by
  change (ExceptT.tryCatch m f) s = _
  simp only [ExceptT.tryCatch, ExceptT.mk, M.go]
  change (do let x ← (m : StateT State Id _); _ : StateT State Id _) s = _
  simp only [bind, StateT.bind, Id]
  rcases h : m s with ⟨_ | _, t⟩ <;> rfl

/-- A scalar instruction whose computation succeeds. -/
theorem State.runM_ok (s : State) (m : M α) (f : α → State → State) (a : α) (t : State) (h : m.go s = (.ok a, t)) :
    s.runM m f = f a t := by
  simp [State.runM, h]

/-- A scalar instruction whose computation traps. -/
theorem State.runM_trap (s : State) (m : M α) (f : α → State → State) (q : Trap) (t : State)
    (h : m.go s = (.error (.trap q), t)) : s.runM m f = t.raise q := by
  simp [State.runM, h, State.halt]

end Sys2Proof.Machine
end

