-- ==== Sys2Proof/Laws/Vector.lean ====
section
/-! SUPPORT. Elements of registers, and what the element loop of R189 leaves in a row. -/

namespace Sys2Proof.Machine

/-! ### Bits of numbers -/

/-- A bit of a number after a run of bits is replaced. -/
theorem splice_testBit (x lo w v i : Nat) :
    (splice x lo w v).testBit i = if lo ≤ i ∧ i < lo + w then v.testBit (i - lo) else x.testBit i := by
  have hdiv : x % 2 ^ lo < 2 ^ lo := Nat.mod_lt _ (Nat.two_pow_pos lo)
  have hmid : v % 2 ^ w * 2 ^ lo + x % 2 ^ lo < 2 ^ (lo + w) := by
    have h1 : v % 2 ^ w + 1 ≤ 2 ^ w := Nat.mod_lt _ (Nat.two_pow_pos w)
    calc v % 2 ^ w * 2 ^ lo + x % 2 ^ lo < (v % 2 ^ w + 1) * 2 ^ lo := by rw [Nat.add_mul]; omega
      _ ≤ 2 ^ w * 2 ^ lo := Nat.mul_le_mul_right _ h1
      _ = 2 ^ (lo + w) := by rw [← Nat.pow_add, Nat.add_comm]
  have e : splice x lo w v
      = 2 ^ (lo + w) * (x / 2 ^ (lo + w)) + (2 ^ lo * (v % 2 ^ w) + x % 2 ^ lo) := by
    unfold splice; rw [Nat.mul_comm (2 ^ (lo + w)), Nat.mul_comm (2 ^ lo), Nat.add_assoc]
  rw [e, Nat.testBit_two_pow_mul_add _ (by rw [Nat.mul_comm]; exact hmid), Nat.testBit_two_pow_mul_add _ hdiv]
  by_cases h1 : i < lo
  · rw [if_pos (by omega), if_pos h1, if_neg (by omega), Nat.testBit_mod_two_pow]
    simp [h1]
  · by_cases h2 : i < lo + w
    · rw [if_pos h2, if_neg h1, if_pos ⟨by omega, h2⟩, Nat.testBit_mod_two_pow]
      simp; omega
    · rw [if_neg h2, if_neg (by omega), Nat.testBit_div_two_pow]
      congr 1; omega

/-- A bit of an element. -/
theorem elemOf_testBit (x w e i : Nat) : (elemOf x w e).testBit i = (decide (i < w) && x.testBit (e * w + i)) := by
  rw [elemOf, Nat.testBit_mod_two_pow, Nat.testBit_div_two_pow, Nat.add_comm i]

/-- An element fits its width. -/
theorem elemOf_lt (x w e : Nat) : elemOf x w e < 2 ^ w := Nat.mod_lt _ (Nat.two_pow_pos w)

/-- Elements of one width do not meet. -/
theorem elem_apart {e k w i : Nat} (hne : e ≠ k) (hi : i < w) : ¬ (k * w ≤ e * w + i ∧ e * w + i < k * w + w) := by
  rintro ⟨h1, h2⟩
  rcases Nat.lt_or_gt_of_ne hne with h | h
  · have := Nat.mul_le_mul_right w h
    rw [Nat.succ_mul] at this
    omega
  · have := Nat.mul_le_mul_right w h
    rw [Nat.succ_mul] at this
    omega

/-- An element after its own write. -/
theorem elemOf_setElemOf_same (x w e v : Nat) : elemOf (setElemOf x w e v) w e = v % 2 ^ w := by
  apply Nat.eq_of_testBit_eq
  intro i
  rw [elemOf_testBit, setElemOf, splice_testBit, Nat.testBit_mod_two_pow]
  by_cases h : i < w
  · rw [if_pos ⟨by omega, by omega⟩]
    simp [h]
  · simp [h]

/-- An element after the write of another one. -/
theorem elemOf_setElemOf_other (x w e k v : Nat) (h : e ≠ k) : elemOf (setElemOf x w k v) w e = elemOf x w e := by
  apply Nat.eq_of_testBit_eq
  intro i
  rw [elemOf_testBit, elemOf_testBit, setElemOf, splice_testBit]
  by_cases hi : i < w
  · rw [if_neg (elem_apart h hi)]
  · simp [hi]

/-- An element below cleared bits. -/
theorem elemOf_splice_below (x w e lo n v : Nat) (h : (e + 1) * w ≤ lo) : elemOf (splice x lo n v) w e = elemOf x w e := by
  apply Nat.eq_of_testBit_eq
  intro i
  rw [elemOf_testBit, elemOf_testBit, splice_testBit]
  rw [Nat.add_mul] at h
  by_cases hi : i < w
  · rw [if_neg (by omega)]
  · simp [hi]

/-- An element among cleared bits. -/
theorem elemOf_splice_zero (x w e lo n : Nat) (h : lo ≤ e * w) (h' : (e + 1) * w ≤ lo + n) :
    elemOf (splice x lo n 0) w e = 0 := by
  apply Nat.eq_of_testBit_eq
  intro i
  rw [elemOf_testBit, splice_testBit]
  rw [Nat.add_mul] at h'
  by_cases hi : i < w
  · rw [if_pos (by omega)]
    simp
  · simp [hi]

/-! ### One row (R189) -/

/-- What the loop leaves in each element of a row. -/
theorem State.loopRow_elem (s : State) (m : Bool) (w lo hi : Nat) (f : Nat → Nat) (x e : Nat) :
    elemOf (s.loopRow m w lo hi f x) w e =
      if lo ≤ e ∧ e < hi then
        (if s.active m e then f e % 2 ^ w else if s.hart.mp then 0 else elemOf x w e)
      else elemOf x w e := by
  unfold State.loopRow
  obtain ⟨n, hn⟩ : ∃ n, hi - lo = n := ⟨_, rfl⟩
  have main : ∀ k : Nat, elemOf ((List.range k).foldl (fun x i =>
      if s.active m (lo + i) then setElemOf x w (lo + i) (f (lo + i))
      else if s.hart.mp then setElemOf x w (lo + i) 0 else x) x) w e =
      if lo ≤ e ∧ e < lo + k then
        (if s.active m e then f e % 2 ^ w else if s.hart.mp then 0 else elemOf x w e)
      else elemOf x w e := by
    intro k
    induction k with
    | zero => rw [if_neg (by omega)]; rfl
    | succ k ih =>
      rw [List.range_succ, List.foldl_append]
      simp only [List.foldl_cons, List.foldl_nil]
      by_cases he : e = lo + k
      · subst he
        rw [if_neg (by omega)] at ih
        rw [if_pos (c := lo ≤ lo + k ∧ lo + k < lo + (k + 1)) (by omega)]
        by_cases ha : s.active m (lo + k) = true
        · simp only [ha, if_true, elemOf_setElemOf_same]
        · by_cases hm : s.hart.mp = true
          · simp [ha, hm, elemOf_setElemOf_same]
          · simp only [ha, hm] at ih ⊢
            simpa using ih
      · have : (lo ≤ e ∧ e < lo + (k + 1)) ↔ (lo ≤ e ∧ e < lo + k) := by omega
        rw [if_congr this rfl rfl, ← ih]
        split
        · rw [elemOf_setElemOf_other _ _ _ _ _ he]
        · split
          · rw [elemOf_setElemOf_other _ _ _ _ _ he]
          · rfl
  have h := main (hi - lo)
  have : (lo ≤ e ∧ e < lo + (hi - lo)) ↔ (lo ≤ e ∧ e < hi) := by omega
  rw [if_congr this rfl rfl] at h
  exact h

/-! ### Rows of a tile (R198, R217) -/

@[simp] theorem State.maxBits_setReg (s : State) (n v : Nat) : (s.setReg n v).maxBits = s.maxBits := by
  simp [State.maxBits, widthBits, State.vlg, State.groups, State.coreAt, Hart.core, Hart.declared]

/-- Registers set one after the other. -/
theorem State.reg_setRegs (s : State) (n q : Nat) (g : Nat → Nat) (h : n + q ≤ 32) (k : Nat) :
    ((List.range q).foldl (fun t i => t.setReg (n + i) (g i)) s).reg k
      = if n ≤ k ∧ k < n + q then g (k - n) else s.reg k := by
  induction q with
  | zero => rw [if_neg (by omega)]; rfl
  | succ q ih =>
    rw [List.range_succ, List.foldl_append]
    simp only [List.foldl_cons, List.foldl_nil]
    by_cases hk : k = n + q
    · subst hk
      rw [State.reg_setReg_same _ _ _ (by omega), if_pos (by omega), Nat.add_sub_cancel_left]
    · rw [State.reg_setReg_other _ _ _ _ hk, ih (by omega)]
      by_cases h2 : n ≤ k ∧ k < n + q
      · rw [if_pos h2, if_pos (by omega)]
      · rw [if_neg h2, if_neg (by omega)]

/-- A register after a row is set. -/
theorem State.reg_setRow (s : State) (n q x : Nat) (h : n + q ≤ 32) (k : Nat) :
    (s.setRow n q x).reg k =
      if n ≤ k ∧ k < n + q then (if q = 1 then x else x / 2 ^ ((k - n) * s.maxBits) % 2 ^ s.maxBits) else s.reg k := by
  unfold State.setRow
  split
  · next hq =>
    subst hq
    by_cases hk : k = n
    · subst hk
      rw [State.reg_setReg_same _ _ _ (by omega), if_pos (by omega)]
    · rw [State.reg_setReg_other _ _ _ _ hk, if_neg (by omega)]
  · rw [State.reg_setRegs _ _ _ (fun i => x / 2 ^ (i * s.maxBits) % 2 ^ s.maxBits) h]

/-- Setting a row keeps the register width. -/
@[simp] theorem State.maxBits_setRow (s : State) (n q x : Nat) : (s.setRow n q x).maxBits = s.maxBits := by
  unfold State.setRow
  split
  · simp
  · have : ∀ l : List Nat, ∀ t : State, t.maxBits = s.maxBits →
        (l.foldl (fun t i => t.setReg (n + i) (x / 2 ^ (i * s.maxBits) % 2 ^ s.maxBits)) t).maxBits = s.maxBits := by
      intro l
      induction l with
      | nil => intro t h; exact h
      | cons i l ih => intro t h; exact ih _ (by simpa using h)
    exact this _ s rfl

/-- A row as the run of bits that its registers hold. -/
theorem State.row_eq (t : State) (n q x : Nat) (h : ∀ i, i < q → t.reg (n + i) = x / 2 ^ (i * t.maxBits) % 2 ^ t.maxBits) :
    t.row n q = x % 2 ^ (q * t.maxBits) := by
  unfold State.row
  induction q with
  | zero => simp [Nat.mod_one]
  | succ q ih =>
    rw [List.range_succ, List.foldl_append]
    simp only [List.foldl_cons, List.foldl_nil]
    rw [ih fun i hi => h i (by omega), h q (by omega), Nat.succ_mul, Nat.pow_add, Nat.mod_mul,
      Nat.mul_comm (2 ^ (q * t.maxBits))]

/-- An element of a row that was set. -/
theorem State.elem_row_setRow (s : State) (n q x w e : Nat) (hq : 0 < q) (h : n + q ≤ 32)
    (he : (e + 1) * w ≤ q * s.maxBits) : elemOf ((s.setRow n q x).row n q) w e = elemOf x w e := by
  have cut : elemOf (x % 2 ^ (q * s.maxBits)) w e = elemOf x w e := by
    apply Nat.eq_of_testBit_eq
    intro i
    rw [elemOf_testBit, elemOf_testBit, Nat.testBit_mod_two_pow]
    rw [Nat.add_mul] at he
    by_cases hi : i < w
    · simp [hi]; intro; omega
    · simp [hi]
  by_cases h1 : q = 1
  · subst h1
    have : (s.setRow n 1 x).row n 1 = x := by
      simp [State.row, State.reg_setRow _ _ _ _ h]
    rw [this]
  · have hr := State.row_eq (s.setRow n q x) n q x fun i hi => by
      rw [State.reg_setRow _ _ _ _ h, if_pos (by omega), if_neg h1, Nat.add_sub_cancel_left, State.maxBits_setRow]
    rw [hr, State.maxBits_setRow, cut]

/-- A row depends on its registers and on their width. -/
theorem State.row_congr (s t : State) (n q : Nat) (hb : t.maxBits = s.maxBits) (h : ∀ i, i < q → t.reg (n + i) = s.reg (n + i)) :
    t.row n q = s.row n q := by
  unfold State.row
  rw [hb]
  induction q with
  | zero => rfl
  | succ q ih =>
    rw [List.range_succ, List.foldl_append, List.foldl_append]
    simp only [List.foldl_cons, List.foldl_nil]
    rw [ih fun i hi => h i (by omega), h q (by omega)]

/-- Rows of a tile set one after the other: what each holds, and that the other registers stay. -/
theorem State.setRows (s : State) (d rows q : Nat) (g : Nat → Nat) (hq : 0 < q) (h : d + rows * q ≤ 32) :
    let t := (List.range rows).foldl (fun t r => t.setRow (d + r * q) q (g r)) s
    t.maxBits = s.maxBits
      ∧ (∀ r, r < rows → ∀ w e, (e + 1) * w ≤ q * s.maxBits → elemOf (t.row (d + r * q) q) w e = elemOf (g r) w e)
      ∧ ∀ k, ¬ (d ≤ k ∧ k < d + rows * q) → t.reg k = s.reg k := by
  induction rows with
  | zero => exact ⟨rfl, fun r hr => absurd hr (by omega), fun k _ => rfl⟩
  | succ n ih =>
    rw [Nat.succ_mul] at h
    obtain ⟨hb, hr, hk⟩ := ih (by omega)
    intro t
    simp only [t, List.range_succ, List.foldl_append, List.foldl_cons, List.foldl_nil]
    generalize (List.range n).foldl (fun t r => t.setRow (d + r * q) q (g r)) s = u at hb hr hk
    refine ⟨by rw [State.maxBits_setRow, hb], fun r hrn w e he => ?_, fun k hkn => ?_⟩
    · by_cases hrn' : r = n
      · subst hrn'
        exact State.elem_row_setRow u _ q (g r) w e hq (by omega) (by rw [hb]; exact he)
      · have hlt : r < n := by omega
        have hmul := Nat.mul_le_mul_right q hlt
        rw [Nat.succ_mul] at hmul
        rw [State.row_congr u _ _ _ (State.maxBits_setRow ..) fun i hi => by
          rw [State.reg_setRow _ _ _ _ (by omega), if_neg (by omega)]]
        exact hr r hlt w e he
    · rw [Nat.succ_mul] at hkn
      rw [State.reg_setRow _ _ _ _ (by omega), if_neg (by omega)]
      exact hk k (by omega)

end Sys2Proof.Machine
end

