-- ==== Sys2Proof/Laws/Loop.lean ====
section
/-! SUPPORT. What a vector-class instruction that goes through the element loop leaves: the one lemma that its results are
cited from. -/

namespace Sys2Proof.Machine

@[simp] theorem State.maxBits_raiseFlags (s : State) (fl : Nat) : (s.raiseFlags fl).maxBits = s.maxBits := by
  simp [State.maxBits, widthBits, State.vlg, State.groups, State.coreAt, Hart.core, Hart.declared]

@[simp] theorem State.maxBits_dirtyVIf (s : State) (c : Bool) : (s.dirtyVIf c).maxBits = s.maxBits := by
  simp [State.maxBits, widthBits, State.vlg, State.groups, State.coreAt, Hart.core, Hart.declared]

/-- A row is not touched by a write of flags, of the status, of `VSTART`, of the LFSR or of the program counter. -/
theorem State.row_of_v (s t : State) (hv : t.hart.v = s.hart.v) (hb : t.maxBits = s.maxBits) (n q : Nat) :
    t.row n q = s.row n q :=
  State.row_congr s t n q hb fun i _ => by simp [State.reg, hv]

/-- Rows set leave all but the registers. -/
theorem State.setRows_frame (s : State) (d rows q : Nat) (g : Nat → Nat) :
    let t := (List.range rows).foldl (fun t r => t.setRow (d + r * q) q (g r)) s
    t = { s with hart.v := t.hart.v } := by
  have one : ∀ (t : State) (n v : Nat), t.setReg n v = { t with hart.v := (t.setReg n v).hart.v } := by
    intro t n v
    unfold State.setReg
    split <;> rfl
  have many : ∀ (l : List Nat) (n : Nat) (x : Nat → Nat) (t : State),
      ∃ v, l.foldl (fun t i => t.setReg (n + i) (x i)) t = { t with hart.v := v } := by
    intro l n x
    induction l with
    | nil => intro t; exact ⟨t.hart.v, rfl⟩
    | cons i l ih =>
      intro t
      obtain ⟨v, hv⟩ := ih (t.setReg (n + i) (x i))
      refine ⟨v, ?_⟩
      rw [List.foldl_cons, hv, one]
  have row : ∀ (t : State) (n x : Nat), ∃ v, t.setRow n q x = { t with hart.v := v } := by
    intro t n x
    unfold State.setRow
    split
    · exact ⟨_, one t n x⟩
    · exact many _ n (fun i => x / 2 ^ (i * t.maxBits) % 2 ^ t.maxBits) t
  have rowsEq : ∀ (l : List Nat) (t : State),
      ∃ v, l.foldl (fun t r => t.setRow (d + r * q) q (g r)) t = { t with hart.v := v } := by
    intro l
    induction l with
    | nil => intro t; exact ⟨t.hart.v, rfl⟩
    | cons i l ih =>
      intro t
      obtain ⟨v, hv⟩ := row t (d + i * q) (g i)
      obtain ⟨u, hu⟩ := ih { t with hart.v := v }
      exact ⟨u, by rw [List.foldl_cons, hv, hu]⟩
  obtain ⟨v, hv⟩ := rowsEq (List.range rows) s
  intro t
  simp only [t]
  rw [hv]

/-- With no register in flight, nothing that is read is (R79). -/
theorem State.landedStop_none (s : State) (m : Bool) (rs : Reads) (lo hi : Nat) (h : s.hart.flying = .replicate 32 0) :
    s.landedStop m rs lo hi = none := by
  unfold State.landedStop
  rw [if_pos]
  rw [h]
  simp

/-- No enabled flag is raised, so the loop stops nowhere (R44). -/
theorem State.flagStop_none (s : State) (m : Bool) (rows : Nat) (f : Nat → Nat → Nat × Nat) (h : s.untrapped m rows f) :
    s.flagStop rows s.hart.vstart s.hart.vl m (fun r e => (f r e).2) = none := by
  unfold State.flagStop
  rw [List.findSome?_eq_none_iff]
  intro e he
  simp only [List.mem_map, List.mem_range] at he
  obtain ⟨i, hi, rfl⟩ := he
  split
  · next ha =>
    rw [List.findSome?_eq_none_iff]
    intro r hr
    rw [h r (List.mem_range.mp hr) _ (by omega) (by omega) ha]
    rfl
  · rfl

/-- The registers, the flags and the completion of a loop, put together. -/
theorem State.vectorNext_of (s : State) (v : Vector Nat 32) (fl steps : Nat) (dirty : Bool) :
    ({ ((({ s with hart.v := v } : State).raiseFlags fl).dirtyVIf dirty).stepLfsr steps with hart.vstart := 0 }).advance
      = s.vectorNext v fl dirty steps := by
  have h : ∀ x : State, x.wroteNext 0 0 = x.advance := fun x => by simp [State.wrote, State.advance]
  unfold State.vectorNext
  rw [h]
  cases dirty <;> simp only [State.raiseFlags, State.dirtyVIf, State.dirtyV, State.stepLfsr, State.advance, if_true,
    if_false, Machine.raiseFlags, Bool.false_eq_true]

/-- The loop itself (R189, R191): all positions from `VSTART` on, with the tail. -/
theorem State.loop_done (s : State) (m : Bool) (d rows q w steps : Nat) (f : Nat → Nat → Nat × Nat)
    (hcv : s.hart.cv = none) (hq : 0 < q) (hfit : d + rows * q ≤ 32) (hlt : s.hart.vstart < s.hart.vl)
    (hu : s.untrapped m rows f) :
    let p := s.loop m d rows q w s.hart.vstart s.hart.vl true f
    p.stop = none ∧ p.trim = none
      ∧ s.loopDone ({ p.done.stepLfsr steps with hart.vstart := 0 }).advance m d rows q w steps f := by
  have hvl : s.vlNow = s.hart.vl := by simp [State.vlNow, hcv]
  have hstop := s.flagStop_none m rows f hu
  intro p
  have hp : p = s.loop m d rows q w s.hart.vstart s.hart.vl true f := rfl
  unfold State.loop at hp
  simp only [hstop, hvl, Option.map_none, Option.elim_none, Option.isNone_none, Bool.true_and] at hp
  refine ⟨by rw [hp], by rw [hp], fun h => absurd hlt (by omega), fun _ => ?_⟩
  set g : Nat → Nat := fun r =>
    if s.hart.tp = true then
      splice (s.loopRow m w s.hart.vstart s.hart.vl (fun e => (f r e).1) (s.row (d + r * q) q)) (s.hart.vl * w)
        (q * s.maxBits - s.hart.vl * w) 0
    else s.loopRow m w s.hart.vstart s.hart.vl (fun e => (f r e).1) (s.row (d + r * q) q) with hg
  have hrows := s.setRows d rows q g hq hfit
  have hframe := s.setRows_frame d rows q g
  set u := (List.range rows).foldl (fun t r => t.setRow (d + r * q) q (g r)) s with hudef
  obtain ⟨hb, hr, hk⟩ := hrows
  set dirty := (s.touches m s.hart.vstart s.hart.vl || (s.hart.tp && decide (s.hart.vl * w < q * s.maxBits))) with hd
  set fl := s.loopFlags rows s.hart.vstart s.hart.vl m fun r e => (f r e).2 with hfl
  have hdone : p.done = (u.raiseFlags fl).dirtyVIf dirty := by rw [hp]
  have ht : ({ p.done.stepLfsr steps with hart.vstart := 0 }).advance = s.vectorNext u.hart.v fl dirty steps := by
    rw [hdone, hframe]
    exact s.vectorNext_of _ fl steps dirty
  rw [ht]
  have hv : (s.vectorNext u.hart.v fl dirty steps).hart.v = u.hart.v := rfl
  have hbm : (s.vectorNext u.hart.v fl dirty steps).maxBits = u.maxBits := by
    rw [hb]; rfl
  refine ⟨⟨dirty, rfl, ?_⟩, fun r hrlt e he => ?_, fun k hkn => ?_⟩
  · rw [hd, Bool.or_eq_true, Bool.and_eq_true, decide_eq_true_eq]
    apply or_congr _ Iff.rfl
    simp only [State.touches, List.any_map, List.any_eq_true, List.mem_range, Function.comp, Bool.or_eq_true]
    constructor
    · rintro ⟨i, hi, h⟩
      exact ⟨i + s.hart.vstart, by omega, by omega, h⟩
    · rintro ⟨e, h1, h2, h⟩
      exact ⟨e - s.hart.vstart, by omega, by rwa [Nat.sub_add_cancel h1]⟩
  · rw [State.row_of_v u _ hv hbm, hr r hrlt w e he, hg]
    simp only
    have body := s.loopRow_elem m w s.hart.vstart s.hart.vl (fun e => (f r e).1) (s.row (d + r * q) q) e
    by_cases h1 : e < s.hart.vl
    · have low : (e + 1) * w ≤ s.hart.vl * w := Nat.mul_le_mul_right w h1
      have : elemOf (if s.hart.tp = true then
          splice (s.loopRow m w s.hart.vstart s.hart.vl (fun e => (f r e).1) (s.row (d + r * q) q)) (s.hart.vl * w)
            (q * s.maxBits - s.hart.vl * w) 0
          else s.loopRow m w s.hart.vstart s.hart.vl (fun e => (f r e).1) (s.row (d + r * q) q)) w e
          = elemOf (s.loopRow m w s.hart.vstart s.hart.vl (fun e => (f r e).1) (s.row (d + r * q) q)) w e := by
        split
        · exact elemOf_splice_below _ _ _ _ _ _ low
        · rfl
      rw [this, body]
      by_cases h2 : e < s.hart.vstart
      · rw [if_neg (by omega), if_pos h2]
      · rw [if_pos (by omega), if_neg h2, if_pos h1]
    · rw [if_neg (by omega : ¬ e < s.hart.vstart), if_neg h1]
      rw [if_neg (by omega)] at body
      split
      · exact elemOf_splice_zero _ _ _ _ _ (Nat.mul_le_mul_right w (by omega)) (by omega)
      · exact body
  · have : (s.vectorNext u.hart.v fl dirty steps).reg k = u.reg k := by simp [State.reg, hv]
    rw [this, hk k hkn]

/-- A vector-class instruction that goes through the element loop, from its issue checks to its completion. -/
theorem State.member_done (s : State) (checks : M Unit) (m : Bool) (reads : State → Reads) (steps : State → Nat)
    (body : Nat → Nat → Bool → State → Pass) (d rows q w : Nat) (f : Nat → Nat → Nat × Nat)
    (ha : s.alone) (hc : checks.go s = (.ok (), s))
    (hbody : ∀ lo hi last, body lo hi last s = s.loop m d rows q w lo hi last f)
    (hq : 0 < q) (hfit : d + rows * q ≤ 32) (hu : s.untrapped m rows f) :
    s.loopDone (s.member checks State.vlNow m reads steps body) m d rows q w (steps s) f := by
  obtain ⟨hcv, hres, hst, hfly, _⟩ := ha
  have hvl : s.vlNow = s.hart.vl := by simp [State.vlNow, hcv]
  unfold State.member
  rw [hc]
  simp only [hcv, hvl, Option.elim_none, Option.bind_none, Option.getD_none, Nat.min_self, Bool.false_and,
    Bool.false_eq_true, if_false, Bool.or_false, s.landedStop_none _ _ _ _ hfly, decide_true, if_true, hres, Bool.not_false,
    Option.elim_none, Option.map_none, ite_self]
  by_cases hlt : s.hart.vstart < s.hart.vl
  · rw [if_pos (by simpa using hlt)]
    obtain ⟨h1, h2, h3⟩ := s.loop_done m d rows q w (steps s) f hcv hq hfit hlt hu
    rw [hbody, h1, h2]
    exact h3
  · rw [if_neg (by simpa using hlt)]
    refine ⟨fun _ => ?_, fun h => absurd h hlt⟩
    simp [State.vectorNext, State.wrote, State.advance, State.stepLfsr]

/-! ### Issue checks -/

/-- The common checks of a vector-class instruction (R151). -/
theorem State.vectorCheck_ok (s : State) (ty : Nat → Bool) (h : s.vectorReady ty) : (vectorCheck ty).go s = (.ok (), s) := by
  obtain ⟨⟨h1, h2⟩, h3, h4, h5⟩ := h
  simp [vectorCheck, offCheck, h1, h2, h3, h4, h5]

/-- The checks of R9. -/
theorem State.tileCheck_ok (s : State) (n h : Nat) (ok : s.tileOk n h) : (tileCheck n h).go s = (.ok (), s) := by
  obtain ⟨h1, h2, h3⟩ := ok
  have h2' : ¬ (1 < h ∧ n < 2) := fun ⟨a, b⟩ => absurd (h2 a) (by omega)
  simp only [tileCheck, M.go_bind, M.go_get, M.go_require]
  rw [if_pos (by simpa using h1)]
  simp only
  rw [if_pos (by simp only [Bool.not_eq_true', Bool.and_eq_false_iff, decide_eq_false_iff_not]; omega)]
  simp only
  rw [if_pos (by simpa using h3)]

theorem State.operandCheck_ok (s : State) (b : VOperand) (h : Nat) (ok : s.operandOk b h) :
    (operandCheck b h).go s = (.ok (), s) := by
  cases b with
  | vec v => exact s.tileCheck_ok _ _ ok
  | scal r => rfl
  | imm i => rfl

/-- A hart declares at most 32 registers (R180). -/
theorem Hart.declared_le (h : Hart) : h.declared ≤ 32 := Nat.div_le_self _ _

/-- A binary or fused form (R188, R189, R193). -/
theorem State.binary_done (s : State) (m : Bool) (d a : VReg) (b : VOperand) (ty : Nat → Bool) (zext rounds fused : Bool)
    (op : Nat → Nat → Nat → Nat → Nat → Nat → Nat × Nat) (ha : s.alone) (hr : s.vectorReady ty)
    (hd : s.tileOk d.toNat s.hart.vrow) (hs : s.tileOk a.toNat s.hart.vrow) (hb : s.operandOk b s.hart.vrow)
    (hu : s.untrapped m s.hart.vrow fun r e => op s.hart.et (frmRM s.hart.frm)
      (s.lfsrAt (rounds && etFloat s.hart.et) r e) (s.elem (a.toNat + r) (etWidth s.hart.et) e)
      (s.opB s.hart.et zext b r e) (s.elem (d.toNat + r) (etWidth s.hart.et) e)) :
    s.loopDone (s.binary m d a b ty zext rounds fused op) m d.toNat s.hart.vrow 1 (etWidth s.hart.et)
      (if s.roundsSr rounds then s.hart.vrow * s.hart.vl else 0) fun r e => op s.hart.et (frmRM s.hart.frm)
        (s.lfsrAt (rounds && etFloat s.hart.et) r e) (s.elem (a.toNat + r) (etWidth s.hart.et) e)
        (s.opB s.hart.et zext b r e) (s.elem (d.toNat + r) (etWidth s.hart.et) e) := by
  unfold State.binary
  dsimp only
  refine State.member_done s _ m _ (fun t => if t.roundsSr rounds then s.hart.vrow * t.hart.vl else 0) _ d.toNat
    s.hart.vrow 1 (etWidth s.hart.et) _ ha ?_ ?_ Nat.one_pos ?_ hu
  · simp [s.vectorCheck_ok ty hr, s.tileCheck_ok _ _ hd, s.tileCheck_ok _ _ hs, s.operandCheck_ok _ _ hb]
  · intro _ _ _
    rfl
  · have := hd.2.2
    have := s.hart.declared_le
    omega

/-- A unary form (R189, R193). -/
theorem State.unary_done (s : State) (m : Bool) (d a : VReg) (ty : Nat → Bool) (rounds : Bool)
    (op : Nat → Nat → Nat → Nat → Nat → Nat → Nat × Nat) (ha : s.alone) (hr : s.vectorReady ty)
    (hd : s.tileOk d.toNat s.hart.vrow) (hs : s.tileOk a.toNat s.hart.vrow)
    (hu : s.untrapped m s.hart.vrow fun r e => op s.hart.et (frmRM s.hart.frm)
      (s.lfsrAt (rounds && etFloat s.hart.et) r e) (s.elem (a.toNat + r) (etWidth s.hart.et) e) 0 0) :
    s.loopDone (s.unary m d a ty rounds op) m d.toNat s.hart.vrow 1 (etWidth s.hart.et)
      (if s.roundsSr rounds then s.hart.vrow * s.hart.vl else 0) fun r e => op s.hart.et (frmRM s.hart.frm)
        (s.lfsrAt (rounds && etFloat s.hart.et) r e) (s.elem (a.toNat + r) (etWidth s.hart.et) e) 0 0 := by
  unfold State.unary
  dsimp only
  refine State.member_done s _ m _ (fun t => if t.roundsSr rounds then s.hart.vrow * t.hart.vl else 0) _ d.toNat
    s.hart.vrow 1 (etWidth s.hart.et) _ ha ?_ ?_ Nat.one_pos ?_ hu
  · simp [s.vectorCheck_ok ty hr, s.tileCheck_ok _ _ hd, s.tileCheck_ok _ _ hs]
  · intro _ _ _
    rfl
  · have := hd.2.2
    have := s.hart.declared_le
    omega

end Sys2Proof.Machine
end

