-- ==== Sys2Proof/Tests/Slice0.lean ====
section
/-! SUPPORT. Tests of the model, each on one step of a small state, with the spec's own values where it gives some; and for
every statement with hypotheses a witness: a concrete state and operands that meet them together. -/

open Sys2Proof Sys2Proof.Machine

namespace Sys2Proof.Tests

set_option Elab.async false

/-! ### Helpers -/

/-- The next state of a result, if it is one. -/
def next : Result → Option State
  | .next t => some t
  | _ => none

/-- The result is a next state that passes the test. -/
def gives (r : Result) (p : State → Bool) : Bool :=
  match r with
  | .next t => p t
  | _ => false

/-- The result is exactly this next state. -/
def exactly (r : Result) (t : State) : Bool := decide (next r = some t)

/-- The value of a computation, if it ends without a trap or a stall, and the state that it leaves. -/
def value {α : Type} (m : M α) (s : State) : Option α := (m.go s).1.toOption
def after {α : Type} (m : M α) (s : State) : State := (m.go s).2

theorem ran {α : Type} {m : M α} {s : State} {a : α} (h : value m s = some a) : m.go s = (.ok a, after m s) := by
  unfold value at h
  unfold after
  generalize m.go s = r at h
  obtain ⟨x, u⟩ := r
  cases x <;> cases h
  rfl

/-- A trap: its cause, its two values, and where it landed. -/
def trapped (t : State) : Word × Word × Word × Word := (t.hart.cause, t.hart.tval, t.hart.tval2, t.hart.epc)

/-- A running hart 0 at S, with s(i) = 3i + 5, vector and tile state clean, one lane group, type I16, `VL` = 4. -/
def start : State :=
  { State.reset with
    hart.run := .running
    hart.pc := 0x1000
    hart.x := Vector.ofFn fun i => .ofNat 64 (3 * i.val + 5)
    hart.status.vs := .clean
    hart.status.ts := .clean
    hart.status.ls := .clean
    hart.vl := 4
    hart.maxvl := 512
    hart.vtype := 2
    cores := [(0, { lat := #v[some 0, none, none, none, none, none, none, none] })] }

/-! ### Well-formedness, decoding, the step -/

/-- Terms that the checks of `Instr.wf` refuse. -/
theorem test_ill_formed : ∀ i ∈ [Instr.rdc 1 0x00D, .wrc 1 0x013, .setbc 1 0x107, .clrbc 1 0x12B, .flushrd 1 .hart, .flushrd 1 .core,
    .mslu false 0 4 (.vec 5), .msld false 0 4 (.vec 5), .vslup false 2 4 (.vec 5), .vsldn false 2 4 (.vec 5),
    .vbcast false 2 4 (.vec 5), .vext 3 4 (.vec 5), .vins 4 3 (.vec 5), .vrsum false 2 4 (.imm 5), .vrosum false 2 4 (.imm 5),
    .vrmax false 2 4 (.imm 5), .vrmin false 2 4 (.imm 5), .vrand false 2 4 (.imm 5), .vror false 2 4 (.imm 5),
    .vrxor false 2 4 (.imm 5), .vcvt false 2 4 19, .vcvtr false 2 4 19, .vqmx false 2 4 31, .vrnsx false 2 4 19, .vrnsi false 2 4 19,
    .cpys 0 31 3 false false .hart, .bar 1 2 3 1, .barw 1 2 3 1, .acq 1 2 3 1, .qarr 1 2 3 1, .qwait 1 2 3 1, .farmw 1 2 3 1],
    i.wf = false := by decide

/-- R140 to R149, one word and more of each family. -/
theorem test_decode_scalar : [0x82C63400, 0x93B00006, 0x85BD8D40, 0x98556000, 0x9AB01FFD, 0x9C0FFFF8, 0xA07582D3, 0xA4060003, 0xA7A00010,
    0xA60E9006].map (fun w => (decodeWord w).toOption)
    = [.add 12 12 13, .lui 27 6, .addi 27 27 3392, .sd 5 10 0, .bne 11 0 (-3), .jal 0 (-8), .aor 7 11 0 true .device .acq, .lp 12 3,
      .rdc 26 0x010, .wrc 29 0x006].map some := by decide

theorem test_decode_system : [0xA6004002, 0xA6054003, 0xA6004004, 0xA6554005, 0xA6054006, 0xA6054007, 0xA6054008, 0xA6004009,
    0xA600400A, 0xA655400B, 0xA655400C, 0xA8000000, 0xA80000C3, 0xA8050104].map (fun w => (decodeWord w).toOption)
    = [.eret, .tlbi 10, .tlbia, .vsvall 5 10, .vrsall 10, .tsvall 10, .trsall 10, .rapark, .rarestore, .lgset 5 10, .preempt 5 10,
      .fenceSv .hart, .fenceA .device, .flushrd 10 .domain].map some := by decide

theorem test_decode_vector : [0xAAE58000, 0xAA0A0001, 0xAA029814, 0x2C621400, 0xAC621601, 0xAC82161A, 0xAC620D0D, 0xAE021404, 0xB0F00008,
    0xB004050C, 0xB050000F, 0xB2A20005, 0xB2520008, 0xB4620080, 0xB6642402].map (fun w => (decodeWord w).toOption)
    = [.svl 14 11 0, .svt 20, .scop 5 6 true, .vadd false 6 4 (.vec 5), .vsub true 6 4 (.vec 5), .vfma true 8 4 (.vec 5),
      .vsll false 6 4 (.imm 3), .vgt false 0 4 (.vec 5), .mffs false 15 0, .mslu false 0 8 (.imm 1), .vid false 5, .vcompr 10 4,
      .vmvxs 5 4, .vrsum false 6 4 (.scal 0), .vqmx false 6 8 9].map some := by decide

theorem test_decode_memory : [0x38560000, 0xB84A8080, 0xB8452C01, 0xB8652202, 0xBA668038, 0xBA668400, 0xBC652000, 0xBC65203D, 0xBE6C8001,
    0xC0550000, 0xC0652C01, 0xC2052C00, 0xC2550001, 0xC4088000, 0xC408C881, 0xC4000103, 0xC4000184, 0xC6823081, 0xC6021502].map
      (fun w => (decodeWord w).toOption)
    = [.vld false 5 12 .global .hart .none, .vld false 4 21 .spad .hart .none, .vlds false 4 10 11 .global .hart .none,
      .vldx true 6 10 8 .global .hart .none, .vst false 6 13 .global .device .rel, .vstr 6 13 .global .hart .none,
      .vsca false 6 10 8 .global .hart .none, .vamo false 6 10 8 .global .device .acqRel, .vrrsq false 6 25 .hart .none, .sptl 5 10,
      .spti 6 10 11, .stag 10 11, .ltag 5 10, .tld 17 0, .tldg 17 18 1, .tclr 2, .tmv 0 3, .vmxs false 8 4 12 1,
      .tout false 4 5 2].map some := by decide

theorem test_decode_sync : [0xC82A5400, 0xC8298003, 0xC8205804, 0xC82D6005, 0xC8200006, 0xCB8CE8E0, 0xCB8CE801, 0xCB8C8004, 0xCB8CEC05,
    0xCB8514C6, 0xCB8CA407, 0xCD8CE8E0, 0xCD8CA402, 0xCD8C8124, 0xCEAC8000, 0xCEACE801, 0xCE0C8003, 0xD18C8000, 0xD18CE801,
    0xD18CEB62, 0xD2530000, 0xD2030001].map (fun w => (decodeWord w).toOption)
    = [.cpy 2 20 21 false false .hart, .cexp 2 19, .cwm 2 22, .cwait 2 26 24, .cfree 2, .bar 24 25 26 7, .barr 24 25 26, .rel 24 25,
      .mend 24 25 27, .stg 24 10 5 6, .gjoin 24 25 9, .qarr 24 25 26 7, .qjoin 24 25 9, .qread 24 25 9, .enq 10 25, .recv 10 25 26,
      .wake 25, .farm 24 25, .strip 24 25 26, .sdone 24 25 26 27, .lcrs 5 6, .mark 6].map some := by decide

/-- R150's illegal words. -/
theorem test_decode_illegal : ([0x00000000, 0xFFFFFFFF, 0xD4000000, 0x82C63414, 0x2C621580, 0xBA668180] : List (BitVec 32)).map
    (fun w => (decodeWord w).toOption) = List.replicate 6 none := by decide +kernel

/-- A step fetches the word at the program counter and runs it: `addi s27, s27, 3392`, with the word that follows. -/
theorem test_step : gives (step (start.withFetchWord 32 0x85BD8D40))
    (fun t => t.hart.x[27] == 86 + 3392 && t.hart.pc == 0x1004) = true := by decide

/-- R151: a word that decodes to nothing raises `ILLEGAL_ENCODING`. -/
theorem test_illegal : gives (step (start.withFetchWord 32 0x82C63414))
    (fun t => trapped t == (0, 0x1000, 0x82C63414, 0x1000)) = true := by decide

/-- At U a privileged instruction raises `PRIVILEGED_INSTR`. -/
theorem test_privileged : gives (step (({ start with hart.priv := .user } : State).withFetchWord 32 0xA6004002))
    (fun t => t.hart.cause == 5 && t.hart.priv == .super) = true := by decide

/-- What `StepRunsDecoded` asks of a state: nothing else to do, and a convoy of one word. -/
theorem witness_StepRunsDecoded :
    let s := start.withFetchWord 32 0x85BD8D40
    let w : BitVec 32 := 0x85BD8D40
    s.thermal ≠ .down ∧ s.agenda = [] ∧ s.hart.run = .running ∧ s.hart.wait = none ∧ s.hart.stall = none ∧ s.atEnd = false
      ∧ (s.hart.asyncEnabled = true → firstPending s.hart.pending = none) ∧ s.hart.icmp = []
      ∧ (s.coreAt (s.hart.id / 4)).latNew = none
      ∧ value (fetchConvoy s.hart.pc) s = some [w] ∧ (after (fetchConvoy s.hart.pc) s).hart = s.hart
      ∧ (after (fetchConvoy s.hart.pc) s).cores = s.cores ∧ (after (fetchConvoy s.hart.pc) s).trains = s.trains
      ∧ (decodeWord w).toOption = some (.addi 27 27 3392) ∧ s.upToDate ∧ s.hart.lcnt = 0 ∧ s.hart.watched = []
      ∧ s.hart.stepping = false ∧ s.hart.sliceArmed = false ∧ s.hart.overflow = []
      ∧ s.hart.lcr.on = false ∧ s.part.traceSize = 0 ∧ Instr.privileged (.addi 27 27 3392) = false := by
  unfold State.upToDate; decide +kernel

/-- The same at U, with a privileged word and with one that decodes to nothing. -/
theorem witness_StepRunsDecoded_user :
    let s := ({ start with hart.priv := .user } : State).withFetchWord 32 0xA6004002
    s.atEnd = false ∧ (s.hart.asyncEnabled = true → firstPending s.hart.pending = none)
      ∧ value (fetchConvoy 0x1000) s = some [0xA6004002] ∧ (decodeWord 0xA6004002).toOption = some .eret
      ∧ Instr.privileged .eret = true := by decide +kernel

theorem witness_StepRunsDecoded_illegal :
    let s := start.withFetchWord 32 0x82C63414
    s.atEnd = false ∧ value (fetchConvoy 0x1000) s = some [0x82C63414] ∧ (decodeWord 0x82C63414).toOption = none := by decide +kernel

theorem witness_DecodeEncode : Instr.wf (.addi 27 27 3392) = true ∧ encode (.addi 27 27 3392) true = some 0x85BD8D40 := by decide

/-- `start` is in canonical form, and it steps. -/
theorem start_canonical : start.canonical := by unfold State.canonical; decide
theorem witness_StepKeepsCanonical : (next (step start)).isSome = true := by decide

/-! ### Issue checks, scalar instructions, control transfers -/

/-- The trap that a result takes: its cause and `TVAL`. -/
def stop (r : Result) : Option (Word × Word) := (next r).map fun t => (t.hart.cause, t.hart.tval)

theorem start_alone : start.alone := by unfold State.alone; decide

/-- `VectorIssueChecks`, clause by clause: VS Off, PARKED, no lane group, a reserved type, a type that is not accepted, a
misaligned tile, the registers 0 and 1 in a tile of two rows, a tile beyond the declared registers. -/
theorem witness_VectorIssueChecks :
    let off : State := { start with hart.status.vs := .off }
    let parked : State := { start with hart.status.parked := true }
    let bare : State := { start with cores := [] }
    let bad : State := { start with hart.vtype := 31 }
    let float : State := { start with hart.vtype := 9 }
    let rows : State := { start with hart.vrow := 2, hart.vtype := 0x42 }
    [stop (exec (.vadd false 2 4 (.vec 6)) off), stop (exec (.vadd false 2 4 (.vec 6)) parked), stop (exec (.vadd false 2 4 (.vec 6)) bare),
      stop (exec (.vadd false 2 4 (.vec 6)) bad), stop (exec (.vand false 2 4 (.vec 6)) float),
      stop (exec (.vadd false 2 5 (.vec 6)) rows), stop (exec (.vadd false 2 4 (.vec 0)) rows),
      stop (exec (.vadd false 8 4 (.vec 6)) rows)]
      = [(13, 0), (13, 3), (47, 0), (1, 31), (1, 9), (4, 5), (4, 0), (3, 8)].map some
    ∧ bare.vlg = 0 ∧ bad.hart.vtypeBad = true ∧ tyI 9 = false ∧ rows.hart.declared = 8 ∧ start.vlg = 1 := by decide +kernel

theorem test_add : (next (exec (.add 3 1 2) start)).map (·.hart.x[3]) = some 19 := by decide
theorem test_mulh : (next (exec (.mulh 3 1 2) { start with hart.x := start.hart.x.set 1 (-1) })).map (·.hart.x[3]) = some (-1) := by decide
theorem test_mulhsu : (next (exec (.mulhsu 3 1 2) { start with hart.x := start.hart.x.set 2 (-1) |>.set 1 (-2) })).map (·.hart.x[3])
    = some (-2) := by decide
theorem test_clz_zero : (next (exec (.clz 3 0) start)).map (·.hart.x[3]) = (next (exec (.ctz 3 0) start)).map (·.hart.x[3]) := by decide
theorem test_s0_discards : (next (exec (.add 0 1 2) start)).map (·.x 0) = some 0 := by decide

/-- R159: −2^63 by −1. -/
theorem test_div_overflow :
    let s : State := { start with hart.x := start.hart.x.set 1 0x8000000000000000 |>.set 2 (-1) }
    (next (exec (.div 3 1 2) s)).map (fun t => (t.hart.x[3], t.hart.flags)) = some (0x8000000000000000, 0)
      ∧ (next (exec (.rem 3 1 2) s)).map (fun t => (t.hart.x[3], t.hart.flags)) = some (0, 0) := by decide

theorem witness_ScalarDivision : start.x 2 ≠ 0 ∧ start.x 0 = 0 ∧ start.hart.frm.getLsbD 9 = false
    ∧ ({ start with hart.frm := 0x200 } : State).hart.frm.getLsbD 9 = true
    ∧ stop (exec (.div 3 1 0) { start with hart.frm := 0x200 }) = some (33, 0)
    ∧ (next (exec (.div 3 1 0) start)).map (fun t => (t.hart.x[3], t.hart.flags)) = some (-1, 2)
    ∧ (next (exec (.remu 3 1 0) start)).map (fun t => (t.hart.x[3], t.hart.flags)) = some (8, 2) := by decide

/-- R162: 6 × 2^15 + 3392 = 200000. -/
theorem test_lui : (next (exec (.lui 27 6) start)).map (·.hart.x[27]) = some 196608 := by decide
theorem test_lui_sign : (next (exec (.lui 27 0xFFFFF) start)).map (·.hart.x[27]) = some (-32768) := by decide
theorem test_auipc : (next (exec (.auipc 27 1) start)).map (·.hart.x[27]) = some 0x9000 := by decide
theorem test_sltiu : (next (exec (.sltiu 3 1 0x7FFF) start)).map (·.hart.x[3]) = some 1 := by decide

/-- R175, R173: the loop of R175's example, and a branch out of it. -/
def looping : State := { start with hart.lcnt := 3, hart.lbeg := 0x1000, hart.lend := 0x100D, hart.pc := 0x1004 }

theorem test_lp : (next (exec (.lp 11 3) { start with hart.x := start.hart.x.set 11 3 })).map
    (fun t => (t.hart.lbeg, t.hart.lend &&& ~~~3, t.hart.lcnt, t.hart.pc)) = some (0x1004, 0x100C, 3, 0x1004) := by decide

theorem witness_ControlTransfers :
    (next (exec (.beq 1 1 0x400) looping)).map (fun t => (t.hart.pc, t.hart.lcnt)) = some (0x2004, 0)
    ∧ (next (exec (.beq 1 1 1) looping)).map (fun t => (t.hart.pc, t.hart.lcnt)) = some (0x1008, 3)
    ∧ (next (exec (.beq 1 2 1) looping)).map (fun t => (t.hart.pc, t.hart.lcnt)) = some (0x1008, 3)
    ∧ (next (exec (.jal 5 (-1)) start)).map (fun t => (t.hart.pc, t.hart.x[5])) = some (0xFFC, 0x1004)
    ∧ (start.x 1 + (0#15).signExtend 64).toNat % 4 = 0 ∧ (start.x 2 + (0#15).signExtend 64).toNat % 4 ≠ 0
    ∧ (next (exec (.jalr 1 1 0) start)).map (fun t => (t.hart.pc, t.hart.x[1])) = some (8, 0x1004)
    ∧ stop (exec (.jalr 1 2 0) start) = some (22, 11)
    ∧ start.hart.lcnt = 0 ∧ start.x 11 ≠ 0 ∧ start.x 0 = 0
    ∧ (next (exec (.lp 0 3) start)).map (fun t => (t.hart.pc, t.hart.lcnt)) = some (0x1010, 0)
    ∧ stop (exec (.lp 1 0) start) = some (15, 0) ∧ stop (exec (.lp 1 2) looping) = some (15, 3) := by decide

theorem looping_leaves : looping.leavesLoop 0x2004 ∧ ¬ looping.leavesLoop 0x1008 := by unfold State.leavesLoop; decide

/-! ### Control registers, calls, returns, configuration -/

def user : State := { start with hart.priv := .user }

theorem witness_ControlRegisterReads : (0x100, start.hart.status.toWord) ∈ start.crReads ∧ (0x000, 4) ∈ user.crReads
    ∧ start.crOpen 0x100 ∧ user.crOpen 0x000 ∧ (next (exec (.rdc 3 0x000) user)).map (·.hart.x[3]) = some 4 := by
  unfold State.crOpen; decide

theorem witness_RegisterWrites :
    0x009 ∈ userStores.map (·.1) ∧ 0x109 ∈ superStores.map (·.1) ∧ start.crOpen 0x009 ∧ start.hart.priv = .super
    ∧ 0x009 ∈ start.crReads.map (·.1) ∧ 0x109 ∈ start.crReads.map (·.1)
    ∧ (next (exec (.wrc 1 0x009) start)).map (·.hart.srseed) = some 8
    ∧ (next (exec (.setbc 1 0x007) start)).map (·.hart.flags) = some 8
    ∧ (next (exec (.clrbc 1 0x007) { start with hart.flags := 0x7F })).map (·.hart.flags) = some 0x77 := by
  unfold State.crOpen; decide

theorem witness_RegisterWriteEffects :
    start.hart.status.vs ≠ .off ∧ (8 : Word).toNat % 2 ^ 13 < start.part.asidCount ∧ 0x101 ∈ user.crReads.map (·.1)
    ∧ ({ start with part := { start.part with asidCount := 3 } } : State).part.asidCount ≤ (8 : Word).toNat % 2 ^ 13
    ∧ stop (exec (.wrc 1 0x108) { start with part := { start.part with asidCount := 3 } }) = some (6, 0x108)
    ∧ stop (exec (.rdc 1 0x101) user) = some (6, 0x101) ∧ stop (exec (.wrc 1 0x011) user) = some (6, 0x011)
    ∧ stop (exec (.wrc 1 0x010) user) = some (6, 0x010)
    ∧ (next (exec (.wrc 1 0x010) start)).map (fun t => (t.hart.pc, t.now)) = some (0x1004, start.now)
    ∧ (next (exec (.wrc 1 0x108) start)).map (·.hart.asid) = some 8 := by decide +kernel

theorem witness_RegisterWriteEvents : start.hart.priv = .super ∧ (7 : Word).toNat % 2 ^ 13 < start.part.asidCount
    ∧ (next (exec (.frmWrite 7) start)).map (·.hart.frm) = some (start.hart.frm &&& 7)
    ∧ (next (exec (.maxwaitWrite (-1)) start)).map (·.hart.maxwait) = some 60000000000 := by decide +kernel

/-- R12: a new element type leaves `MAXVL` stale and `VL` 0. -/
theorem test_vtype : (next (exec (.vtypeWrite 3) start)).map (fun t => (t.hart.vl, t.hart.stale, t.hart.status.vs == .dirty))
    = some (0, true, true) := by decide +kernel

theorem start_vectorOn : start.vectorOn := by unfold State.vectorOn; decide

/-- `svl` with s(8) = 29 elements and s(1) = 8 groups, and with what it holds already; then on a reserved type and with VS Off. -/
theorem witness_SetVectorLength : start.hart.vtypeBad = false
    ∧ (next (exec (.svl 3 8 1) start)).map (fun t => (t.vlg, t.hart.maxvl, t.hart.vl, t.hart.x[3], t.hart.status.vs == .initial))
      = some (8, 4096, 29, 29, true)
    ∧ (next (exec (.svl 3 8 0) start)).map (fun t => (t.vlg, t.hart.vl, t.hart.status.vs == .dirty))
      = some (1, 29, true) := by decide +kernel

/-- R12: a new register count clears the registers. -/
theorem test_svt : (next (exec (.svt 1) { start with hart.x := start.hart.x.set 1 0x22, hart.v := .replicate 32 7 })).map
    (fun t => (t.hart.declared, t.hart.v[3], t.hart.vl, t.hart.status.vs == .initial)) = some (16, 0, 0, true) := by decide +kernel

theorem witness_ConfigurationInstructions :
    let off : State := { start with hart.status.vs := .off }
    ¬ off.vectorOn ∧ ({ start with hart.vtype := 31 } : State).hart.vtypeBad = true
    ∧ (next (exec (.svr 3 1) start)).map (fun t => (t.hart.vrow, t.hart.x[3])) = some (8, 8)
    ∧ (next (exec (.svr 3 2) start)).map (fun t => (t.hart.vrow, t.hart.x[3])) = some (1, 1)
    ∧ (next (exec (.scop 1 0 true) start)).map (fun t => (t.hart.cop, t.hart.cstride)) = some (72, start.hart.cstride)
    ∧ (next (exec (.scgrp 1 2) start)).map (fun t => (t.hart.cgrp0, t.hart.cgrp1)) = some (8, 11)
    ∧ stop (exec (.scgrp 1 2) off) = some (13, 0) ∧ stop (exec (.svl 3 1 2) { start with hart.vtype := 31 }) = some (1, 31) := by
  unfold State.vectorOn; decide +kernel

/-- R178: `ecall` and `eret`. -/
theorem test_ecall : stop (exec .ecall user) = some (8, 0) ∧ stop (exec .ecall start) = some (9, 0) := by decide +kernel
theorem test_eret : (next (exec .eret { start with hart.epc := 0x2002, hart.status.pp := false, hart.status.pie := true })).map
    (fun t => (t.hart.pc, t.hart.priv == .user, t.hart.status.ie, t.hart.status.pie)) = some (0x2000, true, true, true) := by decide +kernel

/-! ### Scalar memory accesses and translation -/

/-- Data in memory, on the hart's own endpoint and in its core's scratchpad. -/
def plainState : State :=
  (({ start with hart.x := start.hart.x.set 1 0x2000 |>.set 2 (0x8000000001E00040) } : State).homeSet (.glob 0x2000)
    (leBytes 0xF1E2D3C4B5A69788 8)).homeSet (.spad 0 0x40) (leBytes 0x1122334455667788 8)

/-- The place of the access of `n` bytes at s(a) + `imm`, and what its checks leave. -/
def placed (k : Acc) (p : Word) (n : Nat) : M Phys := do
  let q ← resolve start.ctx k p n n (if k = .store then .posted else .answered)
  allow start.ctx k q n
  pure q

theorem plain_ctx : plainState.ctx = start.ctx := by decide +kernel

theorem witness_ScalarLoads :
    value (placed .load 0x2000 8) plainState = some ⟨.glob 0x2000, 0x2000, false, 0⟩
    ∧ (after (placed .load 0x2000 8) plainState).isBad (.glob 0x2000) 8 = false
    ∧ (after (placed .load 0x2000 8) plainState).posted = []
    ∧ value (placed .load 0x8000000001E00040 8) plainState = some ⟨.spad 0 0x40, 0x1E00040, false, 0⟩
    ∧ [Instr.lb 3 1 0, .lbu 3 1 0, .lh 3 1 0, .lhu 3 1 0, .lw 3 1 0, .lwu 3 1 0, .ld 3 1 0, .ld 3 2 0].map
      (fun i => (next (exec i plainState)).map (·.hart.x[3]))
      = [0xFFFFFFFFFFFFFF88, 0x88, 0xFFFFFFFFFFFF9788, 0x9788, 0xFFFFFFFFB5A69788, 0xB5A69788, 0xF1E2D3C4B5A69788,
        0x1122334455667788].map some := by decide +kernel

/-- R87: a load that is to take its time, and R86's premises of the other one. -/
theorem witness_ScalarLoads_late :
    let u : State := { plainState with hart.slow := true }
    value (placed .load 0x2000 4) u = some ⟨.glob 0x2000, 0x2000, false, 0⟩
    ∧ u.defers ⟨.glob 0x2000, 0x2000, false, 0⟩ 4 = some 0x2000 ∧ plainState.defers ⟨.glob 0x2000, 0x2000, false, 0⟩ 4 = none
    ∧ plainState.readable ⟨.glob 0x2000, 0x2000, false, 0⟩ 4
    ∧ exactly (exec (.lw 3 1 0) u) { plainState.wroteNext 0 0 with hart.late := some ⟨3, 0x2000, 4, true, 0x1000⟩ } = true := by
  unfold State.readable; decide +kernel

theorem witness_ScalarStores :
    value (placed .store 0x2000 8) plainState = some ⟨.glob 0x2000, 0x2000, false, 0⟩
    ∧ value (placed .store 0x8000000001E00040 4) plainState = some ⟨.spad 0 0x40, 0x1E00040, false, 0⟩
    ∧ (next (exec (.sb 3 1 1) plainState)).map (·.hart.buffer) = some [⟨0x2001, [14]⟩]
    ∧ (next (exec (.sh 3 1 2) plainState)).map (·.hart.buffer) = some [⟨0x2002, [14, 0]⟩]
    ∧ (next (exec (.sd 3 1 0) plainState)).map (·.hart.buffer) = some [⟨0x2000, [14, 0, 0, 0, 0, 0, 0, 0]⟩]
    ∧ (next (exec (.sw 3 2 0) plainState)).map (fun t => t.homeRead (.spad 0 0x40) 8) = some [14, 0, 0, 0, 0x44, 0x33, 0x22, 0x11]
    ∧ 0x2000 % 64 + 8 ≤ 64 ∧ plainState.hart.late = none ∧ plainState.makeRoom.2 = true ∧ plainState.hart.buffer = [] ∧ plainState.hart.l1 = [] ∧ plainState.posted = []
    ∧ (leBytes 14 8).length = 8 := by decide +kernel

/-- R171: the atomics at one doubleword; here `acas` with the expected value in s(1). -/
theorem witness_ScalarAtomics :
    value (placed .atomic 0x2000 8) plainState = some ⟨.glob 0x2000, 0x2000, false, 0⟩
    ∧ plainState.hart.latch = none
    ∧ value (release .device) (after (placed .atomic 0x2000 8) plainState) = some ()
    ∧ inHub 0x2000 = false
    ∧ [Instr.aswap 3 1 3 true .device .acqRel, .aadd 3 1 3 true .hart .none, .aand 3 1 3 true .core .acq, .aor 3 1 3 true .hart .rel,
        .axor 3 1 3 true .hart .none, .amin 3 1 3 true .hart .none, .amax 3 1 3 true .hart .none, .aminu 3 1 3 true .hart .none,
        .amaxu 3 1 3 true .hart .none, .acas 3 1 3 true .hart .none].map
      (fun i => (next (exec i plainState)).map fun t => (t.hart.x[3], t.home64 (.glob 0x2000)))
      = [14, 0xF1E2D3C4B5A69796, 8, 0xF1E2D3C4B5A6978E, 0xF1E2D3C4B5A69786, 0xF1E2D3C4B5A69788, 14, 14, 0xF1E2D3C4B5A69788,
        0xF1E2D3C4B5A69788].map (fun m => some (0xF1E2D3C4B5A69788, m)) := by decide +kernel

/-- R171: a sum of 0x7FFFFFFF and 1 in a word. -/
theorem test_aadd_word :
    let s := ({ start with hart.x := start.hart.x.set 1 0x2000 |>.set 2 1 } : State).homeSet (.glob 0x2000) (leBytes 0x7FFFFFFF 4)
    (next (exec (.aadd 3 1 2 false .hart .none) s)).map (fun t => (t.hart.x[3], leNat (t.homeRead (.glob 0x2000) 4)))
      = some (0x7FFFFFFF, 0x80000000) := by decide +kernel

/-- A table of three levels: the page 64 KiB at virtual address 0x50000 is the memory at 0x120000 (R360); its leaf is not
valid in `noLeaf`, and its root entry is not in `noRoot`. -/
def paged : State :=
  (((({ start with hart.ptb := 0x10001 } : State).setHome64 (.glob 0x10000) 0x20001).setHome64 (.glob 0x20000) 0x30001).setHome64
    (.glob (0x30000 + 5 * 8)) 0x120007)
def noRoot : State := { start with hart.ptb := 0x10001 }
def elsewhere : State := { start with hart.ptb := 0x100000000001 + 2 ^ 45 }

theorem witness_AddressChecks :
    (start.x 1 + (1#12).signExtend 64).toNat % 8 ≠ 0 ∧ (start.x 2).toNat % 8 ≠ 0
    ∧ stop (exec (.ld 3 1 1) start) = some (22, 9) ∧ stop (exec (.sh 3 1 1) start) = some (22, 9)
    ∧ stop (exec (.aadd 3 2 3 true .hart .none) start) = some (22, 11)
    ∧ bitOf start.hart.ptb 0 = false ∧ bitOf noRoot.hart.ptb 0 = true ∧ noRoot.backed (offOf 0x10000) = true
    ∧ noRoot.isBad (.glob (0x10000 + 5 * 8)) 8 = false ∧ noRoot.home64 (.glob (0x10000 + 5 * 8)) % 2 = 0
    ∧ epOf (bits elsewhere.hart.ptb 56 16 * 65536) ≠ elsewhere.endpt
    ∧ stop (exec (.lb 3 1 0) noRoot) = some (17, 8) ∧ stop (exec (.sb 3 1 0) noRoot) = some (18, 8)
    ∧ stop (exec (.lb 3 1 0) elsewhere) = some (20, 8)
    ∧ stop (exec (.lb 3 1 0) { start with hart.x := start.hart.x.set 1 0x100000000000 }) = some (20, 0x100000000000)
    ∧ start.part.cores.contains 0 = true
    ∧ stop (exec (.ld 3 1 0) { start with hart.x := start.hart.x.set 1 0x8000000001F80000 }) = some (24, 0x1F80000) := by decide +kernel

theorem witness_PageWalk :
    let s := paged
    bitOf s.hart.ptb 0 = true ∧ s.backed 0x10000 = true ∧ s.backed 0x20000 = true ∧ s.backed 0x30000 = true ∧ s.endpt = 0
    ∧ s.isBad (.glob 0x10000) 8 = false ∧ s.isBad (.glob 0x20000) 8 = false ∧ s.isBad (.glob 0x30028) 8 = false
    ∧ s.home64 (.glob 0x10000) = 0x20001 ∧ s.home64 (.glob 0x20000) = 0x30001 ∧ s.home64 (.glob 0x30028) = 0x120007
    ∧ (Acc.store).allowed 0x120007 = true
    ∧ value (translate s.ctx .store 0x50010) s = some (0x120010, false)
    ∧ (after (translate s.ctx .store 0x50010) s).home64 (.glob 0x30028) = 0x1200C7 := by decide +kernel

/-- R361: a leaf for a page of another endpoint. -/
theorem test_leaf_remote :
    let s := paged.setHome64 (.glob 0x30028) 0x00005000123400D7
    value (translate s.ctx .load 0x50010) { s with hart.priv := .super } = some (0x500012340010, false) := by decide +kernel

/-! ### Vector arithmetic, compares and masks -/

/-- Registers v(i) whose 16-bit elements are i, i + 1, i + 2, …, and a mask v0 of the even positions. -/
def vec : State :=
  { start with hart.v := Vector.ofFn fun i => if i.val = 0 then 0x5555
      else (List.range 8).foldl (fun n e => n + (i.val + e) * 2 ^ (16 * e)) 0 }

/-- The first `n` elements of a register after an instruction. -/
def elems (r : Result) (n w k : Nat) : Option (List Nat) := (next r).map fun t => (List.range k).map (t.elem n w)

theorem vec_ready (ty : Nat → Bool) (h : ty 2 = true) : vec.vectorReady ty := by
  unfold State.vectorReady State.vectorOn
  exact ⟨by decide, by decide, by decide, h⟩
theorem vec_tile (n : Nat) (h : n < 32) : vec.tileOk n 1 := by
  unfold State.tileOk
  refine ⟨Nat.mod_one n, by omega, ?_⟩
  have : vec.hart.declared = 32 := by decide
  omega

/-- With no trap enabled nothing is trapped: `FRM` is 0 in these states. -/
theorem vec_untrapped (m : Bool) (rows : Nat) (f : Nat → Nat → Nat × Nat) : vec.untrapped m rows f := by
  intro r _ e _ _ _
  have h : vec.hart.frm = 0 := by decide
  have z : enabledFlags 0#15 = 0 := by decide
  simp [flagCause, h, z]

/-- Two-source instructions on v4 = 4, 5, 6, 7 and v5 = 5, 6, 7, 8, into v6 = 6, 7, 8, 9 (R188 to R197). -/
theorem witness_VectorElementResults : vec.alone ∧
    [Instr.vadd false 6 4 (.vec 5), .vsub false 6 4 (.vec 5), .vrsub false 6 4 (.vec 5), .vmul false 6 4 (.vec 5),
      .vmulh false 6 4 (.scal 1), .vdiv false 6 4 (.imm 2), .vrem false 6 4 (.imm 4), .vmin false 6 4 (.imm 5), .vmax false 6 4 (.imm 5),
      .vand false 6 4 (.vec 5), .vor false 6 4 (.vec 5), .vxor false 6 4 (.vec 5), .vsll false 6 4 (.imm 3), .vsrl false 6 4 (.imm 1),
      .vsra false 6 4 (.imm 17), .vsadd false 6 4 (.vec 5), .vssub false 6 4 (.vec 5), .vfma false 6 4 (.vec 5), .vfms false 6 4 (.vec 5),
      .vfnma false 6 4 (.vec 5), .vfnms false 6 4 (.vec 5), .vadd true 6 4 (.vec 5), .vabs false 6 4, .vneg false 6 4].map
      (fun i => elems (exec i vec) 6 16 4)
    = [[9, 11, 13, 15], [65535, 65535, 65535, 65535], [1, 1, 1, 1], [20, 30, 42, 56], [0, 0, 0, 0], [2, 2, 3, 3], [0, 1, 2, 3],
      [4, 5, 5, 5], [5, 5, 6, 7], [4, 4, 6, 0], [5, 7, 7, 15], [1, 3, 1, 15], [32, 40, 48, 56], [2, 2, 3, 3], [2, 2, 3, 3],
      [9, 11, 13, 15], [65535, 65535, 65535, 65535], [26, 37, 50, 65], [14, 23, 34, 47],
      [65510, 65499, 65486, 65471], [65522, 65513, 65502, 65489],
      [9, 7, 13, 9], [4, 5, 6, 7], [65532, 65531, 65530, 65529]].map some := by
  unfold State.alone; decide +kernel

/-- Binary32: 1.0, −2.0, 3.0, 0.5 in v4 and 2.0, 2.0, −1.0, 4.0 in v5. -/
def flt : State :=
  { start with
    hart.vtype := 9
    hart.v := Vector.ofFn fun i => if i.val = 4 then 0x3F00000040400000C00000003F800000
      else if i.val = 5 then 0x40800000BF8000004000000040000000 else if i.val = 0 then 0x5 else 0 }

theorem test_float : flt.vectorReady tyF ∧
    [Instr.vmul false 6 4 (.vec 5), .vdiv false 6 4 (.vec 5), .vsgnj false 6 4 (.vec 5), .vsgnjn false 6 4 (.vec 5),
      .vsgnjx false 6 4 (.vec 5), .vsqrt true 6 5, .vclass false 6 4, .vfma false 6 4 (.vec 5)].map (fun i => elems (exec i flt) 6 32 4)
    = [[0x40000000, 0xC0800000, 0xC0400000, 0x40000000], [0x3F000000, 0xBF800000, 0xC0400000, 0x3E000000],
      [0x3F800000, 0x40000000, 0xC0400000, 0x3F000000], [0xBF800000, 0xC0000000, 0x40400000, 0xBF000000],
      [0x3F800000, 0xC0000000, 0xC0400000, 0x3F000000], [0x3FB504F3, 0, 0x7FC00000, 0], [2, 10, 2, 2],
      [0x40000000, 0xC0800000, 0xC0400000, 0x40000000]].map some := by
  unfold State.vectorReady State.vectorOn; decide +kernel

theorem witness_CarryAndWideningResults :
    [elems (exec (.vadc 6 4 (.vec 5)) vec) 6 16 4, elems (exec (.vsbc 6 4 (.vec 5)) vec) 6 16 4, elems (exec (.vmadc 6 4 (.scal 1)) vec) 6 1 4,
      elems (exec (.vmsbc 6 4 (.vec 5)) vec) 6 1 4, elems (exec (.vmerge 6 4 (.vec 5)) vec) 6 16 4, elems (exec (.vmv false 6 (.imm 31)) vec) 6 16 4,
      elems (exec (.vwadd false 8 4 (.vec 5)) { vec with hart.vl := 2 }) 8 32 2, elems (exec (.vwmul false 8 4 (.scal 1)) vec) 8 32 4]
      = [[10, 11, 14, 15], [65534, 65535, 65534, 65535], [0, 0, 0, 0], [1, 1, 1, 1], [5, 5, 7, 7], [65535, 65535, 65535, 65535],
        [9, 11], [32, 40, 48, 56]].map some
    ∧ wideOf 2 ≠ 31 ∧ vec.hart.vrow = 1 := by decide +kernel

theorem witness_IntegerElements : (2 : Nat) < 8 ∧ (7 : Nat) < 2 ^ etWidth 2 ∧ opDiv 2 0 0 7 0 0 = (65535, 2) ∧ opRem 2 0 0 7 0 0 = (7, 2)
    ∧ satResult 2 40000 = (32767, 32) := by decide +kernel

/-- R34, R44: element 2 divides by zero with the trap of DZ enabled. -/
def dividing : State :=
  { vec with
    hart.frm := 0x200
    hart.v := (vec.hart.v.set 5 0x0001000000010001).set 6 0 }

theorem witness_ElementTraps : dividing.alone ∧ dividing.vectorReady tyIF ∧ dividing.hart.vstart ≤ 2 ∧ 2 < dividing.hart.vl
    ∧ dividing.part.traceSize = 0
    ∧ (∀ e, e < 2 → flagCause dividing.hart.frm (opDiv 2 0 0 (dividing.elem 4 16 e) (dividing.elem 5 16 e) 0).2 = none)
    ∧ flagCause dividing.hart.frm (opDiv 2 0 0 (dividing.elem 4 16 2) (dividing.elem 5 16 2) 0).2 = some 33
    ∧ stop (exec (.vdiv false 6 4 (.vec 5)) dividing) = some (33, 2)
    ∧ elems (exec (.vdiv false 6 4 (.vec 5)) dividing) 6 16 4 = some [4, 5, 0, 0] := by
  unfold State.alone State.vectorReady State.vectorOn; decide +kernel

theorem witness_CompareResults :
    [Instr.veq false 6 4 (.imm 5), .vne false 6 4 (.imm 5), .vlt false 6 4 (.imm 5), .vle false 6 4 (.imm 5), .vgt false 6 4 (.imm 5),
      .vge false 6 4 (.imm 5)].map (fun i => elems (exec i vec) 6 1 4)
      = [[0, 1, 0, 0], [1, 0, 1, 1], [1, 0, 0, 0], [1, 1, 0, 0], [0, 0, 1, 1], [0, 1, 1, 1]].map some
    ∧ elems (exec (.vunord false 6 4 (.vec 5)) { flt with hart.v := flt.hart.v.set 4 0x7FC00000 }) 6 1 4 = some [1, 0, 0, 0] := by
  decide +kernel

/-- R204 to R209: the mask of v8 is 0110, that of v9 1100, from bit 0 on. -/
def masks : State := { vec with hart.v := (vec.hart.v.set 8 6).set 9 3 }

theorem witness_MaskResults : masks.vectorReady tyAny ∧ masks.vectorReady tyI ∧
    [Instr.mand 6 8 9, .mor 6 8 9, .mxor 6 8 9, .mandn 6 8 9, .morn 6 8 9, .mnot false 6 8, .mmv false 6 8, .msbf false 6 8, .msif false 6 8,
      .mslu false 6 8 (.imm 1), .msld false 6 8 (.imm 1)].map (fun i => elems (exec i masks) 6 1 4)
      = [[0, 1, 0, 0], [1, 1, 1, 0], [1, 0, 1, 0], [0, 0, 1, 0], [0, 1, 1, 1], [1, 0, 0, 1], [0, 1, 1, 0], [1, 0, 0, 0], [1, 1, 0, 0],
        [0, 0, 1, 1], [1, 1, 0, 0]].map some
    ∧ elems (exec (.vid false 6) masks) 6 16 4 = some [0, 1, 2, 3] ∧ elems (exec (.iota false 6 8) masks) 6 16 4 = some [0, 0, 1, 2]
    ∧ [Instr.mpop false 3 8, .mffs false 3 8, .mfls false 3 8, .mffs false 3 7].map (fun i => (next (exec i masks)).map (·.hart.x[3]))
      = [2, 1, 2, 0].map some := by
  unfold State.vectorReady State.vectorOn; decide +kernel

/-! ### Permutations, reductions, conversions -/

theorem witness_PermutationResults :
    [Instr.vslup false 6 4 (.imm 1), .vsldn false 6 4 (.imm 1), .vslup1 false 6 4 1, .vsldn1 false 6 4 1,
      .vrgath false 6 4 8, .vbcast false 6 4 (.imm 2), .vrowmv 6 4].map
      (fun i => elems (exec i { vec with hart.v := vec.hart.v.set 8 0x0007000000010003 }) 6 16 4)
      = [[6, 4, 5, 6], [5, 6, 7, 0], [8, 4, 5, 6], [5, 6, 7, 8], [7, 5, 4, 0], [6, 6, 6, 6], [4, 5, 6, 7]].map some
    ∧ stop (exec (.vbcast false 6 4 (.imm 4)) vec) = some (41, 4) := by decide +kernel

/-- R212's example. -/
def packing : State :=
  { start with
    hart.vl := 8
    hart.v := ((Vector.replicate 32 0).set 0 0x26).set 4 (leNat ((List.range 8).flatMap fun e => [.ofNat 8 (10 + e), 0])) }

theorem test_vcompr : elems (exec (.vcompr 10 4) packing) 10 16 4 = some [11, 12, 15, 0] := by decide +kernel
theorem test_vexpand : elems (exec (.vexpand 12 10) ((next (exec (.vcompr 10 4) packing)).getD packing)) 12 16 8
    = some [0, 11, 12, 0, 0, 15, 0, 0] := by decide +kernel

theorem witness_PermutationResults_compress : packing.vectorReady tyAny ∧ 0 < packing.hart.vl ∧ packing.alone
    ∧ ({ packing with hart.vl := 0 } : State).hart.vl = 0 := by
  unfold State.vectorReady State.vectorOn State.alone; decide +kernel

theorem witness_PermutationResults_single :
    (next (exec (.vmvxs 3 4) vec)).map (·.hart.x[3]) = some 4
    ∧ elems (exec (.vmvsx 6 1) vec) 6 16 2 = some [8, 7] ∧ elems (exec (.vmvsx 6 1) { vec with hart.vstart := 1 }) 6 16 2 = some [6, 7]
    ∧ (next (exec (.vext 3 4 (.imm 3)) vec)).map (·.hart.x[3]) = some 7 ∧ stop (exec (.vext 3 4 (.imm 4)) vec) = some (41, 4)
    ∧ elems (exec (.vins 6 1 (.imm 3)) vec) 6 16 4 = some [6, 7, 8, 8]
    ∧ elems (exec (.vins 6 1 (.imm 3)) { vec with hart.vstart := 4 }) 6 16 4 = some [6, 7, 8, 9]
    ∧ vec.hart.vstart = 0 ∧ 3 < vec.hart.vrow * vec.hart.vl ∧ vec.hart.vrow * vec.hart.vl ≤ 4 := by decide +kernel

theorem witness_ReductionResults :
    [Instr.vrsum false 6 4 (.scal 1), .vrosum false 6 4 (.scal 1), .vrmax false 6 4 (.scal 1), .vrmin false 6 4 (.scal 1),
      .vrand false 6 4 (.vec 5), .vror false 6 4 (.scal 0), .vrxor true 6 4 (.scal 0)].map (fun i => elems (exec i vec) 6 16 2)
      = [[30, 7], [30, 7], [8, 7], [4, 7], [4, 7], [7, 7], [2, 7]].map some
    ∧ flagCause vec.hart.frm 0 = none ∧ vec.hart.vstart < vec.hart.vl
    ∧ elems (exec (.vrsum false 6 4 (.scal 1)) { vec with hart.vstart := 4 }) 6 16 1 = some [6] := by decide +kernel

/-- A sum of an infinity and its opposite traps when NV may. -/
theorem witness_ReductionResults_trap :
    let s : State := { flt with hart.frm := 0x100, hart.v := flt.hart.v.set 4 0xFF8000007F800000 }
    stop (exec (.vrsum false 6 4 (.scal 0)) s) = some (32, 0)
    ∧ flagCause s.hart.frm 1 = some 32 := by decide +kernel

/-- R221's example: FP32 900.0, −3.0, 0.1 and zeros, quantised to E4M3. -/
def quantising : State :=
  { start with
    hart.vtype := 0x8C
    hart.vl := 16
    hart.v := (Vector.replicate 32 0).set 8 0x3DCCCCCDC040000044610000 }

theorem witness_ConversionResults_vqmx : etNarrow quantising.hart.et = true ∧ quantising.hart.sb = 16
    ∧ elems (exec (.vqmx false 6 8 9) quantising) 6 8 4 = some [0x7E, 0xBC, 0x15, 0]
    ∧ elems (exec (.vqmx false 6 8 9) quantising) 1 8 2 = some [0x80, 0]
    ∧ (next (exec (.vqmx false 6 8 9) quantising)).map (·.hart.flags) = some 16
    ∧ stop (exec (.vqmx false 1 8 9) quantising) = some (4, 1) := by decide +kernel

/-- Scaled E4M3 source elements 1.0 and 448.0 × 2 to FP32 (R218, R46), then a scale that is no number. -/
def scaled : State :=
  { start with
    hart.vtype := 0x89
    hart.v := ((Vector.replicate 32 0).set 1 0x80).set 4 0x7E38 }

theorem witness_ConversionResults :
    elems (exec (.vcvt false 6 4 12) scaled) 6 32 2 = some [0x40000000, 0x44600000]
    ∧ stop (exec (.vcvt false 6 4 12) { scaled with hart.v := scaled.hart.v.set 1 0xFF }) = some (39, 0)
    ∧ elems (exec (.vcvtr false 6 4 9) { flt with hart.vtype := 4, hart.v := flt.hart.v.set 4 0xBFC000003FC00000 }) 6 32 2
      = some [1, 0xFFFFFFFF]
    ∧ scaled.scaleNan false 1 0 4 = none := by decide +kernel

/-- A residue number made from 17 and read back (R222, R223). -/
theorem test_vrns :
    let s : State := { start with hart.vtype := 15, hart.v := vec.hart.v.set 4 0x00000011 }
    let t := (next (exec (.vrnsi false 6 4 4) s)).getD s
    (next (exec (.vrnsx false 8 6 15) { t with hart.vtype := 4 })).map (·.elem 8 32 0) = some 17 := by decide +kernel

/-! ### Vector memory accesses -/

/-- Registers whose 16-bit elements are data, indices 2, 0, 3, 1 in v8, and pointers into memory, the scratchpad and a lane. -/
def moving : State :=
  (({ vec with
      hart.v := vec.hart.v.set 8 0x00000001000000030000000000000002
      hart.x := start.hart.x.set 1 0x2000 |>.set 2 0x8000000001E00040 |>.set 4 4 |>.set 6 0x100 } : State).homeSet (.glob 0x2000)
    (leBytes 0xF1E2D3C4B5A69788 8)).homeSet (.spad 0 0x40) (leBytes 0x1122334455667788 8)

theorem witness_ElementAddresses :
    bitOf moving.hart.ptb 0 = false ∧ moving.backed 0x2002 = true ∧ moving.copies = [] ∧ moving.hart.dcmp = []
    ∧ moving.isBad (.glob 0x2002) 2 = false
    ∧ value (spotAt .load .global 1 2 2 0 2) moving = some (.home ⟨.glob 0x2002, 0x2002, false, 0⟩)
    ∧ value (spotAt .load .spad 2 2 2 0 2) moving = some (.home ⟨.spad 0 0x42, 0x1E00042, false, 0⟩)
    ∧ value (spotAt .load .lane 6 2 2 1 2) moving = some (.lane (laneKey 0 1 0x102))
    ∧ stop (exec (.vld false 6 6 .lane .hart .none) { moving with hart.x := moving.hart.x.set 6 0x2000 }) = some (26, 0x2000)
    ∧ stop (exec (.vld false 6 6 .lane .hart .none) { moving with hart.x := moving.hart.x.set 6 1 }) = some (22, 1)
    ∧ stop (exec (.vld false 6 6 .global .hart .none) { moving with hart.x := moving.hart.x.set 6 1 }) = some (22, 1)
    ∧ stop (exec (.vld false 6 6 .spad .hart .none) { moving with hart.x := moving.hart.x.set 6 0x8000000001E00041 })
      = some (22, 0x1E00041) := by decide +kernel

/-- The accesses that a vector instruction resolves, if none meets a fault or a stall. -/
def places (s : State) (k : Acc) (place : Acc → Nat → Nat → M Access) : Option (List Access) :=
  let r := resolveElems (s.active false) (List.range s.hart.vrow) place k (spanList s.hart.vstart s.hart.vl) s []
  if r.2.2.isNone then some r.2.1 else none
def unitPlaces (s : State) (k : Acc) (place : Acc → Nat → M Access) : Option (List Access) :=
  let r := resolveElems (fun _ => true) [0] (fun k _ j => place k j) k (spanList s.hart.vstart s.units) s []
  if r.2.2.isNone then some r.2.1 else none

/-- Unit, strided and indexed accesses in the three spaces. -/
theorem witness_VectorLoads :
    (places moving .load (fun k => placeElem k .global 1 .unit 6 16)).map (·.length) = some 4
    ∧ (places moving .load (fun k => placeElem k .spad 2 (.strided 4) 6 16)).map (·.length) = some 4
    ∧ (places moving .load (fun k => placeElem k .global 1 (.indexed 8) 6 16)).map (·.length) = some 4
    ∧ moving.hart.vstart < moving.hart.vl ∧ moving.hart.status.ls ≠ .off ∧ moving.units ≠ 0
    ∧ [Instr.vld false 6 1 .global .hart .none, .vlds false 6 2 0 .spad .hart .none, .vldx false 6 1 8 .global .hart .none,
        .vld true 6 1 .global .core .acq, .vld false 6 6 .lane .hart .none].map (fun i => elems (exec i moving) 6 16 4)
      = [[0x9788, 0xB5A6, 0xD3C4, 0xF1E2], [0x7788, 0x7788, 0x7788, 0x7788], [0xD3C4, 0x9788, 0xF1E2, 0xB5A6],
        [0x9788, 7, 0xD3C4, 9], [0, 0, 0, 0]].map some := by decide +kernel

theorem witness_VectorLoads_formOk : moving.formOk (.strided 4) ∧ moving.formOk (.indexed 8) ∧ moving.tileOk 6 1 := by
  unfold State.formOk State.tileOk; decide +kernel

/-- The bytes at 0x2000 after a step. -/
def bytes (r : Result) (l : Loc) (n : Nat) : Option Nat := (next r).map fun t => leNat (t.homeRead l n)

theorem witness_VectorStores :
    (places moving .store (fun k => placeElem k .global 1 .unit 4 16)).map (·.length) = some 4
    ∧ value (releaseCheck .rel .device) moving = some () ∧ moving.hart.latch = none
    ∧ [Instr.vst false 4 1 .global .hart .none, .vst true 4 1 .global .device .rel, .vstx false 4 1 8 .global .hart .none].map
      (fun i => bytes (exec i moving) (.glob 0x2000) 8)
      = [0x0007000600050004, 0xF1E20006B5A60004, 0x0006000400070005].map some
    ∧ bytes (exec (.vsts false 4 2 4 .spad .hart .none) moving) (.spad 0 0x40) 16 = some 0x00000007000000061122000555660004
    ∧ (next (exec (.vst false 4 6 .lane .hart .none) moving)).map (fun t => (t.hart.status.ls == .dirty, t.lane.read (laneKey 0 1 0x100)))
      = some (true, 5) := by decide +kernel

theorem moving_canonical : moving.canonical := by unfold State.canonical; decide +kernel

theorem witness_WholeRegisterMoves :
    (unitPlaces moving .load (fun k => placeUnit k .global 1 6)).map (·.length) = some moving.units ∧ moving.hart.vstart < moving.units
    ∧ elems (exec (.vldr 6 1 .global .hart .none) moving) 6 16 5 = some [0x9788, 0xB5A6, 0xD3C4, 0xF1E2, 0]
    ∧ bytes (exec (.vstr 4 1 .global .hart .none) moving) (.glob 0x2000) 16 = some 0x000B000A000900080007000600050004
    ∧ ({ moving with hart.vstart := 4096 } : State).units ≤ 4096 := by decide +kernel

/-- R68, R69: element 2 lies in a page that the tables do not map. -/
def faulting : State := { paged with hart.x := start.hart.x.set 1 0x5FFFC }

theorem witness_FaultingElements :
    let r := fun (s : State) (k : Acc) =>
      resolveElems (s.active false) [0] (fun k => placeElem k .global 1 .unit 6 16) k (spanList s.hart.vstart s.hart.vl) s []
    let late : State := { faulting with hart.vstart := 2 }
    ((r faulting .load).2.2.map (·.1) = some 2) ∧ (r faulting .load).2.1.length = 2 ∧ (r late .load).2.2.map (·.1) = some 2
    ∧ (r faulting .store).2.2.map (·.1) = some 2
    ∧ (next (exec (.vld false 6 1 .global .hart .none) faulting)).map (fun t => (t.hart.vl, t.hart.vstart, t.hart.pc)) = some (2, 0, 0x1004)
    ∧ stop (exec (.vld false 6 1 .global .hart .none) late) = some (17, 0x60000)
    ∧ (next (exec (.vst false 6 1 .global .hart .none) faulting)).map (fun t => (t.hart.cause, t.hart.vstart, t.hart.status.cvr))
      = some (18, 2, true) := by decide +kernel

/-! ### Atomics, reductions at memory, collective accesses -/

/-- R237's example: FP32, four elements 1.0, every index 0, X = 2^24 at 0x2000. -/
def adding : State :=
  ({ start with
    hart.vtype := 9
    hart.cop := 1
    hart.x := start.hart.x.set 1 0x2000
    hart.v := ((Vector.replicate 32 0).set 6 0x3F8000003F8000003F8000003F800000).set 7 0x00000003000000020000000100000000 } : State).setHome64
      (.glob 0x2000) 0x4B800000

theorem test_vsca_one_update : bytes (exec (.vsca false 6 1 8 .global .hart .none) adding) (.glob 0x2000) 4 = some 0x4B800002 := by decide +kernel
theorem test_vamo_four_updates : bytes (exec (.vamo false 6 1 8 .global .hart .none) adding) (.glob 0x2000) 4 = some 0x4B800000
    ∧ elems (exec (.vamo false 6 1 8 .global .hart .none) adding) 6 32 4 = some [0x4B800000, 0x4B800000, 0x4B800000, 0x4B800000] := by
  decide +kernel

/-- Indices 0 to 3 are apart. -/
theorem witness_VectorAtomics :
    (places adding .atomic (fun k => placeElem k .global 1 (.indexed 7) 6 32)).map (·.length) = some 4
    ∧ vamoType adding.hart.copOp adding.hart.et = true ∧ vscaType adding.hart.copOp adding.hart.et = true
    ∧ adding.hart.copOp ≤ 6 ∧ etRns adding.hart.et = false ∧ value (releaseCheck .none .hart) adding = some ()
    ∧ adding.hart.vstart < adding.hart.vl ∧ adding.hart.status.ls ≠ .off
    ∧ bytes (exec (.vsca false 6 1 7 .global .hart .none) adding) (.glob 0x2000) 8 = some 0x3F8000004B800000
    ∧ elems (exec (.vamo false 6 1 7 .global .hart .none) adding) 6 32 2 = some [0x4B800000, 0]
    ∧ stop (exec (.vamo false 6 1 7 .lane .hart .none) adding) = some (29, 0x2000)
    ∧ stop (exec (.vamo false 6 1 7 .global .hart .none) { adding with hart.cop := 7 }) = some (42, 0) := by decide +kernel

/-- R238's example. -/
def reducing : State :=
  ({ start with
    hart.vtype := 0x8C
    hart.vl := 16
    hart.cop := 1
    hart.x := start.hart.x.set 1 0x2000
    hart.v := ((Vector.replicate 32 0).set 1 0x80).set 6 0x7E } : State).setHome64 (.glob 0x2000) 0x42C80000

theorem witness_ContributingInstructions : vrrsPair reducing.hart.at_ reducing.hart.et reducing.hart.sb = true
    ∧ bytes (exec (.vrrs false 6 1 .hart .none) reducing) (.glob 0x2000) 4 = some 0x44790000
    ∧ reducing.scaleNan false 1 0 16 = none ∧ reducing.hart.copOp ≤ 3 ∧ value (releaseCheck .none .hart) reducing = some ()
    ∧ stop (exec (.vrrs false 6 2 .hart .none) reducing) = some (22, 11)
    ∧ stop (exec (.vrrsq false 6 1 .hart .none) { reducing with hart.x := reducing.hart.x.set 1 0x2008 }) = some (57, 0x2008)
    ∧ reducing.backed 0x2008 = true := by decide +kernel

/-- A group of the hart's own endpoint alone. -/
def grouped : State := { moving with hart.vtype := 0x4002, hart.cstride := 256, hart.cgrp1 := 0x4002001 }

theorem witness_ContributingInstructions_shared : grouped.groupOk = true ∧ grouped.hart.cm = true ∧ moving.hart.cm = false
    ∧ stop (exec (.vldc false 6 1 0 .hart .none) { grouped with hart.vtype := 2 }) = some (42, 0)
    ∧ stop (exec (.vstc false 6 1 0 .hart .none) { grouped with hart.vtype := 2 }) = some (42, 0)
    ∧ (places grouped .load (fun k => placeShared k 1 (grouped.hart.group.take 1) 6 16)).map (·.length) = some 4
    ∧ elems (exec (.vldc false 6 1 0 .hart .none) grouped) 6 16 4 = some [0x9788, 0xB5A6, 0xD3C4, 0xF1E2]
    ∧ (places grouped .store (fun k => placeShared k 1 grouped.hart.group 4 16)).map (·.length) = some 4
    ∧ bytes (exec (.vstc false 4 1 0 .hart .none) grouped) (.glob 0x2000) 8 = some 0x0007000600050004 := by decide +kernel

/-! ### The common hypotheses of the statements about memory accesses -/

/-- No spot of a list lies in the hub window, as a Bool. -/
def plainSpots (s : State) (l : List Access) : Bool :=
  l.all fun x => match x.spot with
    | .home ⟨.glob pa, _, _, _⟩ => !(decide (epOf pa = s.endpt) && inHub (offOf pa))
    | _ => true

theorem plainSpots_iff {s : State} {l : List Access} (h : plainSpots s l = true) : ∀ x ∈ l, s.plainSpot x.spot := by
  intro x hx
  have hx := List.all_eq_true.mp h x hx
  revert hx
  cases x.spot with
  | lane _ => intro _; trivial
  | home q =>
    obtain ⟨loc, _, _, _⟩ := q
    cases loc with
    | spad _ _ => intro _; trivial
    | glob pa =>
      intro hp
      simp only [Bool.not_eq_true', Bool.and_eq_false_iff, decide_eq_false_iff_not] at hp
      exact fun ⟨a, b⟩ => hp.elim (fun n => n a) fun n => by simp [b] at n

/-- The states of the tests have nothing under way, and every access of theirs is outside the hub window. -/
theorem all_settled : ∀ s ∈ [start, plainState, moving, adding, reducing, grouped, faulting],
    s.upToDate ∧ s.settled ∧ s.noneReleased ∧ s.canonical := by
  unfold State.upToDate State.settled State.noneReleased State.canonical; decide +kernel

theorem all_alone : ∀ s ∈ [moving, adding, reducing, grouped, faulting], s.alone ∧ s.vectorReady tyAny := by
  unfold State.alone State.vectorReady State.vectorOn; decide +kernel

/-- The accesses that the store statements ask about are plain, and their walks leave a canonical state. -/
theorem witness_stores_plain :
    let r := fun (s : State) (k : Acc) (place : Acc → Nat → Nat → M Access) =>
      resolveElems (s.active false) [0] place k (spanList s.hart.vstart s.hart.vl) s []
    let ok := fun (x : State × List Access × Option (Nat × Halt)) =>
      x.2.2.isNone = true ∧ plainSpots x.1 x.2.1 = true ∧ x.1.canonical
    ok (r moving .store fun k => placeElem k .global 1 .unit 4 16)
    ∧ ok (r moving .store fun k => placeElem k .spad 2 (.strided 4) 4 16)
    ∧ ok (r adding .atomic fun k => placeElem k .global 1 (.indexed 7) 6 32)
    ∧ ok (r grouped .store fun k => placeShared k 1 grouped.hart.group 4 16) := by
  unfold State.canonical; decide +kernel

/-! ### Tag tables, tiles and the matrix engine -/

/-- Slot 2 of the table holds the block of 0x2000, slot 3 one of another address space. -/
def tagging : State :=
  { start with
    hart.x := start.hart.x.set 1 0x2000 |>.set 2 2 |>.set 3 3 |>.set 4 1
    spt := [(2, 0x8000000000000004), (3, 0xC001000000000004)] }

theorem witness_TagTables : tagging.canonical ∧ (tagging.x 2).toNat < 768 ∧ 768 ≤ (tagging.x 1).toNat
    ∧ (next (exec (.sptl 5 1) tagging)).map (·.hart.x[5]) = some 2
    ∧ (next (exec (.sptl 5 4) tagging)).map (·.hart.x[5]) = some (-1)
    ∧ (next (exec (.spte 5 3) tagging)).map (fun t => (t.hart.x[5], t.spt))
      = some (0xC001000000000004, [(2, 0x8000000000000004), (3, 0x0001000000000004)])
    ∧ (next (exec (.sptc 2 4) tagging)).map (·.spt) = some [(2, 0xC000000000000004), (3, 0xC001000000000004)]
    ∧ (next (exec (.sptr 5 3) { tagging with hart.priv := .user })).map (·.hart.x[5]) = some 0
    ∧ stop (exec (.sptr 5 1) tagging) = some (24, 0x2000) ∧ stop (exec (.spti 5 1 1) tagging) = some (24, 0x2000) := by
  unfold State.canonical; decide +kernel

/-- A tagged page (bit 12 of its leaf) and a pointer into it. -/
def locking : State :=
  { paged.setHome64 (.glob 0x30028) 0x1210C7 with
    hart.x := start.hart.x.set 1 0x50020 |>.set 2 0x9
    tagged := [(0x30028, 0x120000)] }

theorem witness_TagTables_locks :
    locking.hart.stall = none ∧ (start.x 2).toNat / 2 ^ 8 % 2 ^ 8 = 0
    ∧ locking.drain.hart.buffer = [] ∧ ((after (lockPlace .store 0x50020) locking.drain).beforeLock 0x120020).canonical
    ∧ value (lockPlace .load 0x50020) locking = some (0x120020, true) ∧ value (lockPlace .store 0x50020) locking.drain = some (0x120020, true)
    ∧ (start.x 2).toNat % 32 ≠ 0 ∧ bitOf locking.taghist 0 = false
    ∧ (next (exec (.stag 1 2) locking)).map (fun t => t.lockOf 0x120020) = some 9
    ∧ (next (exec (.ltag 5 1) { locking with locks := [(0x120020 / 32, 9)] })).map (·.hart.x[5]) = some 0x0480000000050020
    ∧ (next (exec (.ltag 5 1) { locking with locks := [(0x120020 / 32, 9)], tagged := [] })).map (fun t => (t.hart.x[5], t.locks))
      = some (0x50020, []) := by
  unfold State.canonical; decide +kernel

theorem witness_TagTables_untagged : value (lockPlace .store 0x2000) tagging.drain = some (0x2000, false)
    ∧ stop (exec (.stag 1 2) tagging) = some (21, 0x2000) ∧ stop (exec (.stag 2 2) start) = some (22, 11) := by decide +kernel

/-- Two granules (`S(b)`[15:8] = 1). -/
theorem witness_TagTables_granules :
    value ((List.range (0x109 / 2 ^ 8 % 2 ^ 8 + 1)).forM fun g => setLock (0x50020 + .ofNat 64 (32 * g)) (0x109 % 16)) locking.drain
      = some () := by decide +kernel

/-- R256's example with `VL` = 2 and one chunk, and tiles of E4M3. -/
def mixing : State :=
  { start with
    hart.vtype := 0x10C
    hart.vl := 2
    hart.x := start.hart.x.set 1 0x2000 |>.set 2 1 |>.set 3 0x8000000001E00040
    hart.v := ((Vector.replicate 32 0).set 1 0x80).set 4 0x3838 |>.set 6 0x10
    hart.tile := (Vector.replicate 4 Tile.reset).set 0
      ⟨(2 ^ (8 * 128) - 1) / 255 * 0x30, (2 ^ (8 * 2048) - 1) / 255 * 0x80, 12, 2⟩ }

theorem mixing_ready : mixing.vectorReady (mxTypes mixing.hart) ∧ mixing.hart.sb = 32 ∧ mixing.vectorReady (mxInput mixing.hart.sbCode)
    ∧ mixing.alone ∧ mixing.vectorReady tyAny := by
  unfold State.vectorReady State.vectorOn State.alone; decide +kernel

/-- 2 × (1.0 × 2.0) × (0.5 × 2.0) = 4.0. -/
theorem test_vmxa : elems (exec (.vmxa false 8 4 0) mixing) 8 32 2 = some [0x40800000, 0x40800000] := by decide +kernel

theorem witness_MatrixProducts : (mixing.tile 0).tet = mixing.hart.et ∧ (mixing.tile 0).tsb = mixing.hart.sbCode ∧ mixing.hart.vl ≤ 32
    ∧ mixing.hart.vl ≤ tileRows mixing.hart.et ∧ mixing.scaleNan false 1 0 2 = none
    ∧ mixing.tileNan (mixing.tile 0) false 1 2 (fun _ e => e) = none
    ∧ mixing.tileNan (mixing.tile 0) false 1 2 (mixing.rowIndex 6 8) = none
    ∧ mixing.rowIndex 6 8 0 0 = 16 ∧ mixing.rowIndex 6 8 0 1 = 0
    ∧ elems (exec (.vmxs false 8 4 6 0) mixing) 8 32 1 = some [0x40000000] := by decide +kernel

/-- I8 with accumulators of type I32: 3 × 2 + 4 × 2, and a product added to each element of row 0. -/
def summing : State :=
  { start with
    hart.vtype := 0x1000
    hart.vl := 2
    hart.v := ((Vector.replicate 32 0).set 4 0x0403).set 5 0x0505
    hart.tile := (Vector.replicate 4 Tile.reset).set 0 ⟨(2 ^ (8 * 128) - 1) / 255 * 2, 0, 0, 0⟩ }

theorem witness_MatrixProducts_integer : summing.hart.et = 0 ∧ summing.hart.at_ = 2 ∧ summing.hart.sb = 0 ∧ (summing.tile 0).tet = 0
    ∧ (summing.tile 0).tsb = 0 ∧ mxTypes summing.hart 0 = true ∧ summing.hart.vl ≤ tileRows 0
    ∧ elems (exec (.vmxa false 8 4 0) summing) 8 32 1 = some [14]
    ∧ (next (exec (.tout false 4 5 0) summing)).map (fun t => ((t.tile 0).elem 8 0 0, (t.tile 0).elem 8 1 1, (t.tile 0).elem 8 1 2))
      = some (17, 22, 2)
    ∧ ({ summing with hart.vl := 0 } : State).hart.vl = 0 := by decide +kernel

/-- The units of an image at 0x2000. -/
theorem witness_TileTransfers :
    let late : State := { mixing with hart.vstart := tileUnits 12 2 - 1 }
    ((resolveUnits .load 1 1 (spanList late.hart.vstart (tileUnits 12 2)) (late.setTile 1 ((late.tile 1).issue 12 2))).2.2.isNone = true)
    ∧ (mixing.x 2).toNat < 2 ^ 12 ∧ (mixing.x 2).getLsbD 0 = true ∧ (mixing.x 3).getLsbD 63 = true ∧ 0 ∈ mixing.part.cores
    ∧ (next (exec (.tld 1 1) late)).map (fun t => ((t.tile 1).tet, (t.tile 1).tsb, t.hart.status.ts == .dirty, t.hart.vstart))
      = some (12, 2, true, 0)
    ∧ ((next (exec (.tldg 3 2 1) late)).map (fun t => (t.tile 1).tet)) = some 12
    ∧ stop (exec (.tldg 3 0 1) mixing) = some (63, 0)
    ∧ ((resolveUnits .store 1 0 (spanList late.hart.vstart (tileUnits 12 2)) late).2.2.isNone = true)
    ∧ bytes (exec (.tst 1 0) late) (.glob (0x2000 + 64 * (tileUnits 12 2 - 1))) 2 = some 0x8080
    ∧ (next (exec (.tclr 2) mixing)).map (fun t => ((t.tile 2).tet, (t.tile 2).scale 5, (t.tile 2).elem 8 3 3)) = some (12, 0x7F, 0)
    ∧ (next (exec (.tmv 0 3) mixing)).map (fun t => t.tile 3) = some (mixing.tile 0)
    ∧ (mixing.tile 2).tet = 31 ∧ stop (exec (.tmv 2 3) mixing) = some (40, 0x202) ∧ stop (exec (.tst 1 2) mixing) = some (40, 0x202)
    ∧ stop (exec (.tclr 2) { mixing with hart.status.ts := .off }) = some (14, 0) := by decide +kernel

/-! ### Copies and channels -/

/-- One copy of a byte under way, from 0x2000 to 0x3000, on channel 1. -/
def oneByte : Copy :=
  { id := 5, hart := 0, ch := 1, kind := .plain, src := 0x2000, dst := 0x3000, len := 1, width := 1, acq := false, rel := false, scope := .hart,
    asid := 0, ptb := 0, priv := .super, tage := false, ctx := 0, launch := none, ready := true }
def busyCore : Core := { lat := #v[some 0, none, none, none, none, none, none, none], ch := (Vector.replicate 8 {}).set 1 { busy := 1 } }
def copying : State := { moving with copies := [oneByte], cores := [(0, busyCore)] }

theorem copying_ready : moving.vectorReady (fun _ => true) ∧ moving.alone ∧ copying.canonical := by
  unfold State.vectorReady State.vectorOn State.alone State.canonical; decide +kernel

/-- To memory, and to the scratchpad. -/
theorem witness_CopiesAccepted :
    moving.copyPointer (moving.x 1) 2 0 8 21 = none ∧ moving.copyPointer (moving.x 2) 2 0 8 21 = none
    ∧ bitOf (moving.x 2) 63 = true ∧ (moving.channel 1).counts = false ∧ (moving.x 4).toInt % 2 = 0
    ∧ moving.copyPointer (moving.x 2) 2 (sourceBounds .plain 8 2).1 (sourceBounds .plain 8 2).2 20 = none
    ∧ (moving.channel 1).busy < 15 ∧ (moving.copyOf 1 .plain (moving.x 2) (moving.x 1) false false .hart).entries ≤ moving.freeEntries 0 := by
  decide +kernel

theorem witness_CopiesAccepted_results :
    [Instr.cpy 1 2 1 false false .hart, .cpys 1 3 1 false false .hart, .fill 1 3 2 true true .device].map
      (fun i => (next (exec i { moving with hart.x := moving.hart.x.set 3 0x2000 |>.set 4 4 })).map fun t =>
        (t.copies.map fun c => (c.src, c.dst, c.len), (t.channel 1).busy, t.hart.pc))
      = [([(0x8000000001E00040, 0x2000, 8)], 1, 0x1004), ([(0x2000, 0x2000, 8)], 1, 0x1004), ([(0, 0x8000000001E00040, 8)], 1, 0x1004)].map some
    ∧ start.copyPointer (start.x 2) 2 0 8 20 = some 22 ∧ stop (exec (.cpy 1 2 1 false false .hart) start) = some (45, 11)
    ∧ stop (exec (.fill 1 1 2 false false .hart) start) = some (46, 11) := by decide +kernel

theorem witness_CopyEvents :
    let m := copying.moveByte oneByte 0
    m.2.toOption = some (m.1.endpt) ∧ oneByte.eps = [] ∧ oneByte.rel = false ∧ m.1.copies = copying.copies ∧ m.1.cores = copying.cores ∧ bitOf oneByte.dst 63 = false
    ∧ value (engineByte oneByte .load 0x2000) copying = some ⟨.glob 0x2000, 0x2000, false, 0⟩
    ∧ value (engineByte oneByte .store 0x3000) copying = some ⟨.glob 0x3000, 0x3000, false, 0⟩
    ∧ (next (exec (.copyDataLands 0 0 1) copying)).map (fun t => (t.copies.map (·.done), t.homeByte (.glob 0x3000))) = some ([[(0, 1)]], 0x88)
    ∧ (next (exec (.copyPerform 0) copying)).map (fun t => (t.copies, (t.channel 1).busy, t.homeByte (.glob 0x3000))) = some ([], 0, 0x88)
    ∧ (next (exec (.copyRetire 0) { copying with copies := [{ oneByte with done := [(0, 1)] }] })).map
      (fun t => (t.copies, (t.channel 1).busy)) = some ([], 0) := by decide +kernel

theorem witness_ChannelInstructions :
    (next (exec (.cexp 1 1) moving)).map (fun t => ((t.channel 1).exp, (t.channel 1).ep, (t.channel 1).ovf)) = some (0x2000, true, false)
    ∧ (next (exec (.cwm 1 3) moving)).map (·.hart.x[3]) = some 0 ∧ (moving.channel 1).busy = 0
    ∧ (next (exec (.cfree 1) { moving with cores := [(0, { busyCore with ch := busyCore.ch.set 1 { ovf := true } })] })).map (·.channel 1) = some {} := by
  decide +kernel

/-- A channel of a wait: complete, faulted, overfilled, and busy before, at and after the deadline. -/
def channelled (k : Channel) (w : Option Wait) (deadline : Word) : State :=
  { moving with
    now := 1000
    locked := true
    cores := [(0, { busyCore with ch := busyCore.ch.set 1 k })]
    hart.wait := w
    hart.x := moving.hart.x.set 1 deadline }

theorem witness_ChannelInstructions_wait :
    let wait : Wait := { cask := none, deadline := 900 }
    ({} : Channel).complete = true ∧ ({ busy := 1 } : Channel).complete = false
    ∧ stop (exec (.cwait 1 1 3) (channelled { flt := some ⟨true, 20, 0x55⟩ } none 2000)) = some (46, 0x55)
    ∧ stop (exec (.cwait 1 1 3) (channelled { ovf := true, cnt := 5, exp := 2 } none 2000)) = some (44, 1)
    ∧ (next (exec (.cwait 1 1 3) (channelled {} none 2000))).map (fun t => (t.hart.x[3], t.hart.pc)) = some (0, 0x1004)
    ∧ (next (exec (.cwait 1 1 3) (channelled {} (some wait) 2000))).map (fun t => (t.hart.x[3], t.hart.pc)) = some (0, 0x1004)
    ∧ (next (exec (.cwait 1 1 3) (channelled { busy := 1 } none 1000))).map (fun t => (t.hart.x[3], t.hart.pc))
      = some (statusWord 3 0 0 1, 0x1004)
    ∧ (next (exec (.cwait 1 1 3) (channelled { busy := 1 } none 2000))).map (fun t => (t.hart.wait, t.hart.pc))
      = some (some { cask := none, deadline := 2000 }, 0x1000)
    ∧ (next (exec (.cwait 1 1 3) (channelled { busy := 1 } (some wait) 900))).map (fun t => (t.hart.x[3], t.hart.pc))
      = some (statusWord 1 0 0 1, 0x1004) := by decide +kernel

theorem witness_ChannelInstructions_ahead : (channelled {} none 2000).ahead ((channelled {} none 2000).x 1) := by
  unfold State.ahead; decide +kernel

theorem witness_TileTransfers_settled :
    let late : State := { mixing with hart.vstart := tileUnits 12 2 - 1 }
    let r := resolveUnits .store 1 0 (spanList late.hart.vstart (tileUnits 12 2)) late
    late.settled ∧ late.noneReleased ∧ r.1.canonical ∧ plainSpots r.1 r.2.1 = true := by
  unfold State.settled State.noneReleased State.canonical; decide +kernel

/-- What the clauses about the walk of a copied byte ask. -/
theorem witness_CopyEvents_byte :
    copying.hart.wait = none ∧ oneByte.kind = .plain ∧ (copying.homeDie (.glob 0x3000)).1 = 0 ∧ oneByte.scope ≠ .domain
    ∧ (copying.plainPlace (.glob 0x3000)) ∧ { oneByte with rel := true, scope := .domain, eps := [0] }.eps = [(0 : Endpoint)]
    ∧ exactly (exec (.copyRetire 0) { copying with
        silent := [0]
        copies := [{ oneByte with rel := true, scope := .domain, eps := [0], done := [(0, 1)] }] })
      { copying with silent := [0], copies := [{ oneByte with rel := true, scope := .domain, eps := [0], done := [(0, 1)] }] } = true := by
  unfold State.plainPlace; decide +kernel

theorem witness_ChannelInstructions_released : (channelled {} none 2000).noneReleased ∧ moving.alone ∧ ({} : Channel).flt = none
    ∧ (channelled {} none 2000).locked = true
    ∧ stop (exec (.cwait 1 1 3) { channelled {} none 2000 with locked := false }) = some (59, 1) := by
  unfold State.noneReleased State.alone; decide +kernel

/-! ### Casks -/

/-- A cask at 0x2000 with its header and its doublewords 1 to 4, and the hart a member of index 1, at time 1000; s1 points to it,
s2 is a deadline ahead, s3 the member's index, s4 a buffer and s6 a strip token. -/
def caskAt : Loc := .glob 0x2000
def member : Member := { cask := caskAt, index := 1, tag := 3, gen := 5, scope := 0, n := 2 }
def casked (header d1 d2 d3 d4 : Nat) (members : List Member) : State :=
  let s : State := { start with
    now := 1000
    locked := true
    hart.members := members
    hart.x := start.hart.x.set 1 0x2000 |>.set 2 2000 |>.set 3 1 |>.set 4 0x4000 |>.set 5 0x2030 |>.set 6 0x300000005 }
  ((((s.setHome64 caskAt header).setHome64 (caskAt.plus 8) d1).setHome64 (caskAt.plus 16) d2).setHome64 (caskAt.plus 24) d3).setHome64
    (caskAt.plus 32) d4

/-- What step 6 of R266 asks of the home, as a Bool. -/
def soundB (z : State) (kinds : List Nat) : Bool :=
  !z.down.contains (epOf 0x2000) && !z.silent.contains (epOf 0x2000) && !z.caskBad caskAt
    && kinds.contains (z.header caskAt).kind && z.configOk caskAt (z.header caskAt)
theorem sound_of {z : State} {kinds : List Nat} (h : soundB z kinds = true) : z.sound caskAt kinds := by
  simp only [soundB, Bool.and_eq_true, Bool.not_eq_true', List.contains_iff_mem] at h
  obtain ⟨⟨⟨⟨a, b⟩, c⟩, e⟩, f⟩ := h
  refine ⟨fun pa hp => ?_, c, e, f⟩
  cases hp
  constructor <;> intro hm <;> simp_all

/-- The state in which the home looks at the cask: after the release, if there is one, and the hart's own accesses. -/
def request (rel : Bool) (u : State) : State :=
  let x := if rel then after (caskRelease caskAt) u else u
  (after (caskAccess 0x2000 caskAt) x).tidy caskAt
def requestB (rel : Bool) (kinds : List Nat) (u : State) : Bool :=
  let x := if rel then after (caskRelease caskAt) u else u
  let y := after (caskAccess 0x2000 caskAt) x
  (!rel || value (caskRelease caskAt) u == some ()) && value (caskAccess 0x2000 caskAt) x == some ()
    && soundB y kinds && soundB (request rel u) kinds && decide ((request rel u).header caskAt = y.header caskAt)
    && ([8, 16, 24, 32] ++ (if (y.header caskAt).kind = 4 then [40] else [])).all fun o =>
      (request rel u).home64 (caskAt.plus o) == y.home64 (caskAt.plus o)
theorem requests_of {rel : Bool} {kinds : List Nat} {u : State} (h : requestB rel kinds u = true) :
    u.requests 0x2000 caskAt rel kinds (request rel u) := by
  simp only [requestB, Bool.and_eq_true, Bool.not_eq_true', Bool.or_eq_true, beq_iff_eq] at h
  obtain ⟨⟨⟨⟨⟨a, b⟩, c⟩, d⟩, e⟩, f⟩ := h
  refine ⟨_, ⟨if rel then after (caskRelease caskAt) u else u, ?_, ran b, sound_of c⟩, rfl, sound_of d, of_decide_eq_true e, fun o ho => ?_⟩
  · cases rel
    · rfl
    · exact ran (a.resolve_left (by simp))
  · exact eq_of_beq (List.all_eq_true.1 f o ho)

theorem plain_of {z : State}
    (h : ((List.range 64).all fun i => !(decide (epOf (0x2000 + i) = z.endpt) && inHub (offOf (0x2000 + i)))) = true) :
    z.plainCask caskAt := by
  intro i hi
  rw [List.all_eq_true] at h
  have := h i (by simp [hi])
  show ¬ (epOf (0x2000 + i) = z.endpt ∧ inHub (offOf (0x2000 + i)) = true)
  intro ⟨a, b⟩
  simp [a, b] at this

/-- A wait of `w` at the cask. -/
def waiting (w : Wait) (s : State) : State := { s with hart.wait := some w }
def barrier (present : Nat) : State := casked 0x201 3 0xFFFFFFFFFFFFFFFF present 0 [member]
def answer : Answer := { status := statusWord 0 0 3 0, absent := some 2, n := 2, tag := 3, scope := 0, strip := 7 }

theorem barrier_plain : (barrier 0).plainCask caskAt ∧ (barrier 0).canonical ∧ (barrier 0).sound caskAt [1] ∧ (barrier 0).ahead 2000 :=
  ⟨plain_of (by decide +kernel), by unfold State.canonical; decide +kernel, sound_of (by decide +kernel), by unfold State.ahead; decide +kernel⟩

/-- The wait of a hart whose record has come, by the code of its status: what the entry, `CROUND` and the vector register become. -/
theorem witness_Waits :
    let at_ := fun (code : Nat) => waiting { cask := some caskAt, deadline := 2000, round := 3, answer := some { answer with status := statusWord code 0 3 0 } } (barrier 0)
    let ends := fun (i : Instr) (code : Nat) (c : VReg) (f : Member → Member) (absent round : Option Nat) (scope : Nat) =>
      exactly (exec i (at_ code)) (((at_ code).entered caskAt f).waitEnded 3 c (statusWord code 0 3 0) absent round scope)
    let rounds := [(Instr.bar 3 1 2 5, true), (.qarr 3 1 2 5, true), (.barw 3 1 2 5, false), (.qwait 3 1 2 5, false)]
    (at_ 0).stagger = 0 ∧ (at_ 0).staggerEnd caskAt { cask := some caskAt, deadline := 2000 } answer ≤ (at_ 0).now.toNat
    ∧ (∀ p ∈ rounds, ends p.1 0 5 (fun m => { m with tag := 4, arrived := false }) (some 2) (some 3) 0 = true)
    ∧ (∀ p ∈ rounds, ends p.1 2 5 (fun m => { m with tag := 4, arrived := p.2 }) (some 2) (some 3) 0 = true)
    ∧ (∀ p ∈ rounds, ends p.1 3 5 (fun m => { m with arrived := m.arrived || p.2 }) (some 0) (some 3) 0 = true)
    ∧ (∀ p ∈ rounds, ends p.1 5 5 id none none 0 = true) ∧ (∀ p ∈ rounds, ends p.1 6 5 id (some 0) none 0 = true)
    ∧ ends (.barr 3 1 2) 0 0 (fun m => { m with arrived := true }) none (some 3) 0 = true
    ∧ ends (.acq 3 1 2 5) 0 5 (fun m => { m with gen := 3, mend := none }) (some 0) none 0 = true
    ∧ ends (.acq 3 1 2 5) 1 5 (fun m => { m with tag := 4, arrived := false, gen := 0, mend := some 3 }) (some 2) (some 3) 0 = true
    ∧ ends (.acq 3 1 2 5) 2 5 (fun m => { m with tag := 4, arrived := true, mend := none }) (some 2) (some 3) 0 = true
    ∧ ends (.acq 3 1 2 5) 3 5 (fun m => { m with mend := none }) (some 0) none 0 = true
    ∧ ends (.acq 3 1 2 5) 5 5 (fun m => { m with mend := none }) none none 0 = true := by decide +kernel

theorem witness_Waits_home :
    let s := waiting { cask := some caskAt, deadline := 2000, round := 3, answer := some answer } (barrier 0)
    s.noneReleased ∧ exactly (exec (.farmw 3 1 2 5) s) (s.waitEnded 3 5 answer.status answer.absent none 0) = true
    ∧ exactly (exec (.strip 3 1 2) s) ((s.setX 2 7).waitEnded 3 0 answer.status none none 0) = true
    ∧ exactly (exec (.recv 3 1 2) s) (s.waitEnded 3 0 answer.status none none 0) = true := by
  unfold State.noneReleased; decide +kernel

/-- R431: a record held back until 1500, and the end of a stagger of 64 cycles for member 1 of 2. -/
theorem witness_Waits_staggered :
    let w : Wait := { cask := some caskAt, deadline := 2000, round := 3, answer := some answer }
    let s := waiting { w with delay := some 1500 } (barrier 0)
    let late : State := casked 0xC201 3 0xFFFFFFFFFFFFFFFF 0 0 [{ member with arrived := true, scope := 3 }]
    exactly (exec (.bar 3 1 2 5) s) ({ s.entered caskAt fun m => { m with slot := some ⟨answer.status, 3, 2⟩ } with
      hart.wait := some { w with delay := some 1500 } }) = true
    ∧ (late.header caskAt).kind = 1 ∧ ({ late with stagger := 64 } : State).staggerEnd caskAt w { answer with scope := 3 } = 1032 := by
  decide +kernel

theorem witness_Waits_entry :
    let a := { answer with data := leBytes 77 64 }
    let s := waiting { cask := some caskAt, deadline := 2000, buffer := some (.glob 0x4000, 0x4000), answer := some a } (barrier 0)
    s.upToDate ∧ s.isBad (.glob 0x4000) 64 = false ∧ exactly (exec (.recv 3 1 2) s)
      ((s.homeStore (.glob 0x4000) a.data (.hart 0)).waitEnded 3 0 a.status none none 0) = true
    ∧ stop (exec (.recv 3 1 2) { s with badMem := [0x4001] }) = some (30, 0x4000) := by
  unfold State.upToDate; decide +kernel

/-- A home that does not answer, with the deadline ahead and with one that has come. -/
theorem witness_Waits_lost :
    let s := waiting { cask := some caskAt, deadline := 1000 } { barrier 0 with silent := [0] }
    let ahead := waiting { cask := some caskAt, deadline := 1001 } { barrier 0 with silent := [0] }
    s.homeSilent caskAt = true ∧ s.noneReleased
    ∧ (∀ i ∈ [Instr.bar 3 1 2 5, .barr 3 1 2, .barw 3 1 2 5, .qarr 3 1 2 5, .qwait 3 1 2 5, .acq 3 1 2 5, .farmw 3 1 2 5, .strip 3 1 2,
        .recv 3 1 2], exactly (exec i ahead) ahead = true)
    ∧ (∀ i ∈ [Instr.bar 3 1 2 5, .barw 3 1 2 5, .qarr 3 1 2 5, .qwait 3 1 2 5],
      exactly (exec i s) (s.waitEnded 3 5 (statusWord 1 0xFE 3 0xFFFF) none (some 3) 0) = true)
    ∧ exactly (exec (.barr 3 1 2) s) (s.waitEnded 3 0 (statusWord 1 0xFE 3 0xFFFF) none (some 3) 0) = true
    ∧ exactly (exec (.acq 3 1 2 5) s)
      ((s.entered caskAt fun m => { m with mend := some 3 }).waitEnded 3 5 (statusWord 1 0xFE 3 0xFFFF) none (some 3) 0) = true
    ∧ exactly (exec (.farmw 3 1 2 5) s) (s.waitEnded 3 5 (statusWord 1 0xFE 0 0xFFFF) none none 0) = true
    ∧ exactly (exec (.strip 3 1 2) s) ((s.setX 2 (-1)).waitEnded 3 0 (statusWord 1 0xFE 0 0xFFFF) none none 0) = true
    ∧ exactly (exec (.recv 3 1 2) s) (s.waitEnded 3 0 (statusWord 8 0xFE 0 0xFFFF) none none 0) = true := by
  unfold State.noneReleased; decide +kernel

/-- Arrivals at a barrier of two: the first, then the last. -/
theorem witness_Arrivals :
    let s := barrier 0
    let u := after (caskOpen (s.x 1) 0 true) s
    let z := request true u
    let last := barrier 1
    value (caskOpen (s.x 1) 0 true) s = some caskAt ∧ u.hart.entry caskAt = some member ∧ requestB true [1] u = true
    ∧ s.hart.wait = none ∧ member.ownRecord = none ∧ (z.arrive caskAt 1 3 (some 2000)).2 = .counted 3
    ∧ (s.header caskAt).n = 2 ∧ s.bitmap caskAt (s.header caskAt) 0 ||| 2 ^ 1 ≠ 2 ^ 2 - 1
    ∧ s.now.toNat + guard 0 < 2000 ∧ last.canonical ∧ (∀ x ∈ last.harts, x.parked = [])
    ∧ last.bitmap caskAt (last.header caskAt) 0 ||| 2 ^ 1 = 2 ^ 2 - 1 ∧ last.roundDeadline caskAt = 2 ^ 64 - 1
    ∧ (next (exec (.barr 3 1 2) s)).map (fun t => (t.hart.x[3], t.hart.cround, t.bitmap caskAt (t.header caskAt) 0, t.roundDeadline caskAt))
      = some (statusWord 0 0 3 0xFFFF, 3, 2, 2000)
    ∧ (next (exec (.barr 3 1 2) (barrier 1))).map (fun t => (t.roundTag caskAt, t.bitmap caskAt (t.header caskAt) 0)) = some (4, 0)
    ∧ (next (exec (.barr 3 1 2) { s with hart.x := s.hart.x.set 2 1000 })).map (fun t => (t.hart.x[3], t.bitmap caskAt (t.header caskAt) 0))
      = some (statusWord 3 0 3 0xFFFF, 2) := by
  unfold State.canonical; decide +kernel

theorem witness_Arrivals_wait :
    let s := barrier 0
    let z := request true s
    let w := (z.arrive caskAt 1 3 (some 2000)).1
    let stays := { w.entered caskAt fun m => { m with arrived := true } with
      hart.wait := some { cask := some caskAt, deadline := 2000, round := 3 }
      hart.stall := none }
    value (caskOpen (s.x 1) 5 true) s = some caskAt ∧ (z.arrive caskAt 1 3 (some 2000)).2 = .counted 3 ∧ z.vlg ≠ 0 ∧ (z.header caskAt).n ≤ z.maxBits
    ∧ w.now = z.now ∧ w.slotRecord caskAt 3 = none ∧ stays.dueAt caskAt = stays ∧ exactly (exec (.bar 3 1 2 5) s) stays = true := by decide +kernel

/-- A wait for the round of the entry: open, and closed with the record of ALL. -/
theorem witness_Arrivals_closure :
    let s := barrier 0
    let closed := casked (0x201 + 0 * 2 ^ 52) 4 0xFFFFFFFFFFFFFFFF 0 0 [member]
    let z := request false closed
    let stays := { s with hart.wait := some { cask := some caskAt, deadline := 2000, round := 3 } }
    requestB false [1] s = true ∧ requestB false [1] closed = true ∧ z.catchUp caskAt = z ∧ z.openRound caskAt = 4 ∧ z.noneReleased
    ∧ (z.passedRound caskAt 3).tag = 3 ∧ exactly (exec (.barw 3 1 2 5) s) stays = true
    ∧ (next (exec (.barw 3 1 2 5) closed)).map (fun t => (t.hart.x[3], t.hart.cround, t.hart.members.map (·.tag)))
      = some ((z.passedRound caskAt 3).status, 3, [4]) := by
  unfold State.noneReleased; decide +kernel

/-- R302, fourth row: a LATE arrival that completes the next round leaves its record in no slot. -/
theorem test_bar_late_closes :
    let z := casked 0x201 4 0xFFFFFFFFFFFFFFFF 1 0 [member]
    (next (exec (.bar 3 1 2 0) z)).map (fun t => (t.hart.x[3].toNat / 2 ^ 56, t.roundTag caskAt, t.hart.members.map fun m => (m.tag, m.slot)))
      = some (2, 5, [(4, none)]) := by decide +kernel

/-- LATE: the round of the entry has closed, and the member arrives in the next. -/
theorem witness_Arrivals_late :
    let closed := casked 0x201 4 0xFFFFFFFFFFFFFFFF 0 0 [member]
    let z := request true closed
    let came := z.arrive caskAt 1 3 (some 2000)
    (match came.2 with | .late k r => k == 4 && r.tag == 3 | _ => false) = true ∧ came.1.noneReleased
    ∧ (next (exec (.bar 3 1 2 5) closed)).map (fun t => (t.hart.x[3].toNat / 2 ^ 56, t.hart.cround, t.hart.members.map fun m => (m.tag, m.arrived)))
      = some (2, 3, [(4, true)]) := by
  unfold State.noneReleased; decide +kernel

/-- The last arrival of a `bar` completes it in the same step. -/
theorem test_bar_last : (next (exec (.bar 3 1 2 0) (barrier 1))).map (fun t => (t.hart.x[3], t.hart.pc, t.hart.cround))
    = some (statusWord 0 0 3 0, 0x1004, 3) := by decide +kernel

/-- Locks of two members, of generation 5: free, held by the member, held by the other, held and suspect. -/
def lockOf (d4 : Nat) (ms : List Member) : State := casked 0x202 3 0xFFFFFFFFFFFFFFFF 0 d4 ms
def freeLock : State := lockOf 5 [member]
def mine : State := lockOf 0x1000100000005 [member]
def others : State := lockOf 0x1000000000005 [member]
def suspect : State := lockOf 0x5000000000005 [{ member with mend := some 2 }]

/-- The state after the checks and the release of a cask instruction. -/
def opened (wait : Bool) (s : State) : State := request true (after (caskOpen (s.x 1) 0 wait) s)

theorem witness_Locks :
    (∀ s ∈ [freeLock, mine, others], value (caskOpen (s.x 1) 0 true) s = some caskAt ∧ value (caskOpen (s.x 1) 0 false) s = some caskAt
      ∧ (after (caskOpen (s.x 1) 0 true) s).hart.entry caskAt = some member
      ∧ value (caskRelease caskAt) (after (caskOpen (s.x 1) 0 true) s) = some () ∧ requestB true [2] (after (caskOpen (s.x 1) 0 true) s) = true
      ∧ (opened true s).catchUp caskAt = opened true s ∧ (opened true s).noneReleased ∧ (opened true s).canonical)
    ∧ (freeLock.lock caskAt).held = false ∧ (mine.lock caskAt).holder = 1 ∧ nextWaiter (mine.bitmap caskAt (mine.header caskAt) 0) 2 1 = none := by
  unfold State.noneReleased State.canonical; decide +kernel

theorem witness_Locks_acquire :
    (next (exec (.acq 3 1 2 5) freeLock)).map (fun t => (t.lock caskAt, t.hart.x[3], t.hart.v[5])) = some (⟨5, 1, true, false, false⟩, statusWord 0 0 5 0, 0)
    ∧ exactly (exec (.acq 3 1 2 5) mine) (((opened true mine).entered caskAt fun m => { m with gen := 5, mend := none }).waitEnded 3 5
      (statusWord 0 2 5 0) (some 0) none 0) = true
    ∧ (next (exec (.acq 3 1 2 5) freeLock)).map (·.hart) = some (((opened true freeLock).entered caskAt fun m => { m with gen := 5, mend := none }).waitEnded
      3 5 (statusWord 0 0 5 0) (some 0) none 0).hart := by decide +kernel

theorem witness_Locks_release :
    let done := fun (s : State) (code : Nat) => (((opened false s).entered caskAt fun m => { m with mend := none }).caskEnded 3 (statusWord code 0 5 0) none).hart
    let stale : State := lockOf 0x1000100000005 [{ member with gen := 4 }]
    (next (exec (.rel 3 1) mine)).map (fun t => (t.lock caskAt, t.hart)) = some (⟨5, 1, false, false, false⟩, done mine 0)
    ∧ (next (exec (.rel 3 1) stale)).map (fun t => (t.mem, t.hart)) = some (stale.mem, done stale 4)
    ∧ stop (exec (.rel 3 1) others) = some (55, 0x2000) := by decide +kernel

/-- s2 names the round 2, which `mend` left. -/
theorem witness_Locks_mend :
    let s : State := { suspect with hart.x := suspect.hart.x.set 2 2 }
    let u := after (caskOpen (s.x 1) 0 false) s
    let late : State := { mine with hart.members := [{ member with mend := some 2 }], hart.x := suspect.hart.x.set 2 2 }
    let done := fun (u : State) (code gen : Nat) => ((u.entered caskAt fun m => { m with gen := if code = 0 then gen else m.gen, mend := none }).caskEnded
      3 (statusWord code 0 gen 0) (some 0)).hart
    value (caskOpen (s.x 1) 0 false) s = some caskAt ∧ requestB false [2] u = true ∧ (u.catchUp caskAt).openRound caskAt = 3
    ∧ ((u.catchUp caskAt).lock caskAt).suspect = true ∧ ((u.catchUp caskAt).lock caskAt).held = true
    ∧ (next (exec (.mend 3 1 2) s)).map (fun t => (t.lock caskAt, t.hart)) = some (⟨6, 1, true, true, false⟩, done u 0 6)
    ∧ (next (exec (.mend 3 1 2) late)).map (fun t => (t.lock caskAt, t.hart)) = some (late.lock caskAt, done late 4 5)
    ∧ stop (exec (.mend 3 1 2) suspect) = some (52, 0x2000) := by decide +kernel

/-- `stg` into the cask's block, at 0x2030: s3 is the cask, s5 the place, s6 the token of the generation. -/
def storing (s : State) (token : Word) : State := { s with hart.x := s.hart.x.set 3 0x2000 |>.set 6 token }
theorem witness_Locks_stg :
    let s := storing mine 5
    let u := after (caskOpen (s.x 3) 0 false) s
    let done := fun (s : State) (code : Nat) => ((s.entered caskAt fun m => { m with mend := none }).caskEnded 3 (statusWord code 0 5 0) none).hart
    value (caskOpen (s.x 3) 0 false) s = some caskAt ∧ (s.x 5).toNat % 8 = 0 ∧ sameBlock caskAt (.glob 0x2030) = true
    ∧ value (do let q ← resolve u.ctx .store (s.x 5) 8 8 .answered; allow u.ctx .store q 8; pure q : M Phys) u = some ⟨.glob 0x2030, 0x2030, false, 0⟩
    ∧ (next (exec (.stg 3 5 4 6) s)).map (fun t => (t.home64 (.glob 0x2030), t.hart)) = some (0x4000, done s 0)
    ∧ (next (exec (.stg 3 5 4 6) (storing mine 4))).map (fun t => (t.mem, t.hart)) = some (mine.mem, done (storing mine 4) 4)
    ∧ (next (exec (.stg 3 5 4 6) (storing others 5))).map (fun t => (t.mem, t.hart)) = some (others.mem, done (storing others 5) 4) := by
  decide +kernel

/-- A farm of 4 strips at 0x2100: strip 0 is claimed with generation 5 until far ahead, the others are free. -/
def farming (done : Nat) : State :=
  let s := casked 0x4 4 1 0x100 (done * 2 ^ 32 + 1) []
  (((s.setHome64 (caskAt.plus 40) 0x100).setHome64 (.glob 0x2100) (5 + 2 ^ 32)).setHome64 (.glob 0x2108) 0xFFFFFFFFFFFF)

theorem witness_Locks_stg_farm :
    let s := storing (farming 0) 5
    let z := after (caskRelease caskAt) (after (caskOpen (s.x 3) 0 false) s)
    let y := z.farmNow caskAt
    requestB true [4] s = true ∧ (5 : Nat) / 2 ^ 32 < z.farmCount caskAt ∧ y.stripSt caskAt 0 = 1 ∧ y.stripGen caskAt 0 = 5
    ∧ exactly (exec (.stg 3 5 4 6) s) ((((y.serveFarm caskAt).homeSet (.glob 0x2030) (leBytes (s.x 4).toNat 8)).entered caskAt fun m =>
      { m with mend := none }).caskEnded 3 (statusWord 0 0 5 0) none) = true
    ∧ exactly (exec (.stg 3 5 4 6) (storing (farming 0) 4)) (((storing (farming 0) 4).entered caskAt fun m =>
      { m with mend := none }).caskEnded 3 (statusWord 4 0 5 0) none) = true := by decide +kernel

/-! ### Membership, records, queues, farms -/

/-- A quorum of 2 of 2 members with FP32 slots at 0x2200, and the same cask as an eager reduction. -/
def quorum (kind : Nat) (ms : List Member) : State :=
  let s := casked (kind + 0x200 + 2 * 2 ^ 24 + 9 * 2 ^ 44 + 2 ^ 56) 3 0xFFFFFFFFFFFFFFFF 0 0 ms
  s.setHome64 (caskAt.plus 56) (0x200 + 4 * 2 ^ 32)

theorem quorum_sound : soundB (quorum 3 []) [3] = true ∧ soundB (quorum 6 []) [6] = true ∧ soundB (barrier 0) [1, 2] = true := by decide +kernel

theorem witness_MembershipAndRecords :
    let bare := casked 0x201 3 0xFFFFFFFFFFFFFFFF 0 0 []
    let q := quorum 3 []
    let h := q.header caskAt
    let joined := fun (t : State) => ({ t with hart.members := [({ place := 0, cask := caskAt, index := 1, tag := 3, scope := 0, n := 2 } : Member)] } : State)
    bare.hart.entry caskAt = none ∧ bare.hart.freeMember = some 0 ∧ (bare.x 3).toNat < (bare.header caskAt).n ∧ bare.catchUp caskAt = bare
    ∧ exactly (exec (.gjoin 5 1 3) bare) ((joined bare).caskEnded 5 (statusWord 0 0 3 0) (some 0)) = true
    ∧ q.catchUp caskAt = q ∧ (q.setLag caskAt h 1 0).roundTag caskAt = 3
    ∧ exactly (exec (.qjoin 5 1 3) q) ((joined (q.setLag caskAt h 1 0)).caskEnded 5 (statusWord 0 0 3 0) (some 0)) = true := by decide +kernel

theorem witness_MembershipAndRecords_leave :
    let left := fun (t : State) => { t with hart.members := ([] : List Member) }
    let b := opened false (barrier 0)
    let q := opened false (quorum 3 [member])
    let x := (left (q.catchUp caskAt)).setLag caskAt (q.header caskAt) 1 3
    x.bitmap caskAt (q.header caskAt) 0 = 0
    ∧ exactly (exec (.gleave 5 1) (barrier 0)) ((left b).caskEnded 5 0 none) = true
    ∧ exactly (exec (.qleave 5 1) (quorum 3 [member])) (x.caskEnded 5 0 none) = true
    ∧ exactly (exec (.qleave 5 1) (quorum 6 [member])) ((left ((opened false (quorum 6 [member])).catchUp caskAt)).caskEnded 5 0 none) = true := by
  decide +kernel

theorem witness_MembershipAndRecords_read :
    let fresh := casked 0x201 0 0xFFFFFFFFFFFFFFFF 0 0 []
    let closed := casked (0x201 + 2 ^ 52) 3 0xFFFFFFFFFFFFFFFF 0 2 []
    (fresh.catchUp caskAt).openRound caskAt = 0 ∧ (closed.catchUp caskAt).openRound caskAt = 3 ∧ (closed.header caskAt).n ≤ 64
    ∧ exactly (exec (.qread 5 1 6) fresh) ((fresh.setX 6 0).caskEnded 5 0 (some 0)) = true
    ∧ exactly (exec (.qread 5 1 6) closed) ((closed.setX 6 2).caskEnded 5 (statusWord 1 0 2 1) (some 0)) = true := by decide +kernel

/-- A ring of 2 entries at 0x2100 with the given head and tail, and an entry at 0x4000. -/
def ring (head tail : Nat) : State :=
  ((casked 0x5 0x100 2 head tail []).homeSet (.glob 0x4000) (leBytes 77 64)).homeSet (.glob 0x2100) (leBytes 99 64)

theorem witness_QueuesAndFarms_enq :
    let s := ring 0 1
    let z := opened false s
    let data := leBytes 77 64
    value (caskOpen (s.x 1) 0 false) s = some caskAt ∧ value (bufferPlace .load (s.x 4)) s = some ⟨.glob 0x4000, 0x4000, false, 0⟩
    ∧ value (homeLoad ⟨.glob 0x4000, 0x4000, false, 0⟩ 64) s = some data ∧ soundB z [5] = true
    ∧ z.ringCount caskAt < z.ringSize caskAt ∧ (ring 0 2).ringSize caskAt ≤ (ring 0 2).ringCount caskAt
    ∧ exactly (exec (.enq 4 1) s) ((z.enqueue caskAt data).1.caskEnded 4 0 none) = true
    ∧ (next (exec (.enq 4 1) s)).map (fun t => (t.ringTail caskAt, t.homeRead (.glob 0x2140) 64)) = some (2, data)
    ∧ exactly (exec (.enq 4 1) (ring 0 2)) ((opened false (ring 0 2)).caskEnded 4 (statusWord 7 0 0 0) none) = true := by decide +kernel

theorem witness_QueuesAndFarms_poll :
    let s := ring 0 1
    let written := (s.setHome64 (caskAt.plus 24) 1).homeStore (.glob 0x4000) (leBytes 99 64) (.hart 0)
    value (bufferPlace .store (s.x 4)) s = some ⟨.glob 0x4000, 0x4000, false, 0⟩ ∧ s.isBad (.glob 0x4000) 64 = false
    ∧ (ring 0 0).ringCount caskAt = 0 ∧ s.ringCount caskAt ≠ 0 ∧ value (caskOpen (s.x 1) 0 true) s = some caskAt
    ∧ exactly (exec (.qpoll 4 1) (ring 0 0)) ((ring 0 0).caskEnded 4 (statusWord 8 0 0 0) (some 0)) = true
    ∧ exactly (exec (.qpoll 4 1) s) (written.caskEnded 4 0 (some 0)) = true
    ∧ exactly (exec (.recv 4 1 2) s) (written.waitEnded 4 0 0 none none 0) = true
    ∧ exactly (exec (.wake 1) s) ((if s.wakeAccepted (s.ringQnum caskAt) (.hart 0) then s.wakeQueue (s.ringQnum caskAt) true else s).wroteNext 0 0)
      = true := by decide +kernel

theorem witness_QueuesAndFarms_farm :
    let s := farming 0
    let z := opened false s
    let full := farming 4
    soundB z [4] = true ∧ z.farmOk caskAt = true ∧ (0 : Nat) < z.farmCount caskAt ∧ (z.expireAll caskAt).freeStrip caskAt = some (1, false)
    ∧ (z.expireAll caskAt).caskBad caskAt = false ∧ (full.expireAll caskAt).farmDone caskAt = full.farmCount caskAt
    ∧ exactly (exec (.farm 5 1) s) ((z.openFarm caskAt).caskEnded 5 0 none) = true
    ∧ exactly (exec (.sdone 5 1 0 3) { s with hart.x := s.hart.x.set 3 5 }) (let y := opened false { s with hart.x := s.hart.x.set 3 5 }
      (y.finishStrip caskAt 0 5).1.caskEnded 5 (y.finishStrip caskAt 0 5).2 none) = true
    ∧ exactly (exec (.strip 5 1 2) s) ((((s.expireAll caskAt).claimStrip caskAt 1 false).setX 2 1).waitEnded 5 0 (statusWord 0 0 0 0) none none 0)
      = true
    ∧ exactly (exec (.farmw 5 1 2 7) full) ((full.expireAll caskAt).waitEnded 5 7 0 (some 0) none 0) = true := by decide +kernel

/-- Every strip is done. -/
theorem witness_QueuesAndFarms_empty :
    let s := ((((farming 4).setHome64 (.glob 0x2100) (5 + 2 ^ 33)).setHome64 (.glob 0x2110) (2 ^ 33)).setHome64 (.glob 0x2120) (2 ^ 33)).setHome64
      (.glob 0x2130) (2 ^ 33)
    let t := s.setHome64 (caskAt.plus 32) (4 * 2 ^ 32 + 4)
    (t.expireAll caskAt).freeStrip caskAt = none
    ∧ exactly (exec (.strip 5 1 2) t) (((t.expireAll caskAt).setX 2 (-1)).waitEnded 5 0 (statusWord 8 0 0 0) none none 0) = true := by decide +kernel

/-- The contributions of `vrrsq` and of `vstc` (R239, R136): FP32 slots of a quorum. -/
def contributing (kind : Nat) : State :=
  let s := quorum kind [member]
  { s with
    hart.vtype := 0x4009
    hart.cop := 1
    hart.cstride := 256
    hart.cgrp1 := 0x4002001
    hart.x := s.hart.x.set 7 0x4000
    hart.v := (Vector.replicate 32 0).set 4 0x40400000400000003F800000 }

theorem witness_ContributingInstructions_casks :
    (contributing 6).groupOk = true ∧ (contributing 6).hart.copOp ≠ 0 ∧ (places (contributing 6) .store (fun k => placeShared k 7 [] 4 32)).map (·.length) = some 4
    ∧ (value (contributeTile false 4 1 .hart .none) (contributing 3)).isSome = true
    ∧ (next (exec (.vrrsq false 4 1 .hart .none) (contributing 3))).map (fun t => (t.hart.pc, t.hart.cause)) = some (0x1004, 0)
    ∧ (next (exec (.vstc false 4 7 1 .hart .none) (contributing 6))).map (fun t => (t.hart.pc, t.hart.cause)) = some (0x1004, 0) := by
  decide +kernel

/-- R280: a cask joined already, and a full table. R284: more than 64 members. -/
theorem witness_MembershipAndRecords_refused :
    let q := quorum 3 []
    let wide := casked 0x8001 3 0xFFFFFFFFFFFFFFFF 0 0 []
    q.noneReleased ∧ requestB false [3] (after (caskOpen (q.x 1) 0 false) q) = true
    ∧ stop (exec (.gjoin 5 1 3) (barrier 0)) = some (49, 0x2000) ∧ requestB false [1, 3, 6] wide = true
    ∧ 64 < (wide.header caskAt).n ∧ stop (exec (.qread 5 1 6) wide) = some (60, 128) := by
  unfold State.noneReleased; decide +kernel

/-- R131: an evicted member of a quorum may leave, join again, and neither arrives nor waits. -/
theorem witness_MembershipAndRecords_evicted :
    let q := quorum 3 [member]
    let s := q.setLag caskAt (q.header caskAt) 1 3
    let z := request true s
    bit (z.joined caskAt (z.header caskAt)) 1 = false ∧ requestB true [3] s = true ∧ z.noneReleased
    ∧ (next (exec (.qleave 5 1) s)).map (fun t => (t.hart.x[5], t.hart.members)) = some (statusWord 6 0 0 0, [])
    ∧ (next (exec (.qjoin 5 1 3) s)).map (fun t => (t.hart.x[5], bit (t.joined caskAt (t.header caskAt)) 1)) = some (statusWord 0 0 3 0, true)
    ∧ (next (exec (.qarr 3 1 2 5) s)).map (fun t => (t.hart.x[3], t.hart.v[5])) = some (statusWord 6 0 0 0, 0)
    ∧ stop (exec (.qwait 3 1 2 5) s) = some (51, 0x2000) := by
  unfold State.noneReleased; decide +kernel

/-- A wait at an empty ring and at a farm with nothing free, with its deadline ahead and past. -/
theorem witness_QueuesAndFarms_waits :
    let s := ring 0 0
    let past := fun (s : State) => ({ s with hart.x := s.hart.x.set 2 1000 } : State)
    let stays := ({ s with hart.wait := some { cask := some caskAt, deadline := 2000, buffer := some (.glob 0x4000, 0x4000) } } : State).queueAt
      caskAt .recv 2000
    requestB false [5] s = true ∧ s.upToDate ∧ s.noneReleased ∧ stays.dueAt caskAt = stays ∧ exactly (exec (.recv 4 1 2) s) stays = true
    ∧ exactly (exec (.recv 4 1 2) (past s)) ((past s).waitEnded 4 0 (statusWord 3 0 0 0) none none 0) = true := by
  unfold State.upToDate State.noneReleased; decide +kernel

/-- Strip 0 is claimed, the three others are done. -/
theorem witness_QueuesAndFarms_claimed :
    let s := (((farming 3).setHome64 (.glob 0x2110) (2 ^ 33)).setHome64 (.glob 0x2120) (2 ^ 33)).setHome64 (.glob 0x2130) (2 ^ 33)
      |>.setHome64 (caskAt.plus 32) (3 * 2 ^ 32 + 4)
    let past : State := { s with hart.x := s.hart.x.set 2 1000 }
    let waits := fun (verb : HomeVerb) => ({ s with hart.wait := some { cask := some caskAt, deadline := 2000 } } : State).queueAt caskAt verb 2000
    requestB false [4] s = true ∧ s.farmOk caskAt = true ∧ (s.expireAll caskAt).serveFarm caskAt = s ∧ s.noneReleased
    ∧ s.freeStrip caskAt = none ∧ s.farmDone caskAt = 3 ∧ (waits .strip).dueAt caskAt = waits .strip ∧ (waits .farmw).dueAt caskAt = waits .farmw
    ∧ exactly (exec (.strip 5 1 2) s) (waits .strip) = true ∧ exactly (exec (.farmw 5 1 2 7) s) (waits .farmw) = true
    ∧ exactly (exec (.strip 5 1 2) past) ((past.setX 2 (-1)).waitEnded 5 0 (statusWord 3 0 0 0) none none 0) = true
    ∧ exactly (exec (.farmw 5 1 2 7) past) (past.waitEnded 5 7 (statusWord 3 0 0 0xFFFF) (some 0) none 0) = true := by
  unfold State.noneReleased; decide +kernel

/-- The hypothesis `contributes`, as a Bool, and what it leaves. -/
def sent (u : State) : State := after (release (scopeOfCode member.scope)) (after (caskAccess 0x2000 caskAt) u)
def contributesB (kind count : Nat) (items : List Contribution) (u : State) : Bool :=
  let x := after (caskAccess 0x2000 caskAt) u
  let w := sent u
  value (caskAccess 0x2000 caskAt) u == some () && x.copMatches (x.header caskAt) && decide (count ≤ x.capacity caskAt)
    && !((x.header caskAt).wr == 1 && !etFloat (x.header caskAt).et) && value (release (scopeOfCode member.scope)) x == some () && w.header caskAt == x.header caskAt
    && !w.exhausted.contains (w.homeDie caskAt).1 && soundB w [kind] && !((w.tidy caskAt).contribute caskAt 1 3 items).2

theorem contributes_of {kind count : Nat} {items : List Contribution} {u : State} (h : contributesB kind count items u = true) :
    u.contributes 0x2000 caskAt kind member count items (after (caskAccess 0x2000 caskAt) u) (sent u) := by
  simp only [contributesB, Bool.and_eq_true, Bool.not_eq_true', beq_iff_eq, decide_eq_true_eq, Bool.and_eq_false_imp, Bool.not_eq_false'] at h
  obtain ⟨⟨⟨⟨⟨⟨⟨⟨a, b⟩, c⟩, d⟩, e⟩, f⟩, g⟩, i⟩, j⟩ := h
  refine ⟨ran a, b, c, ?_, ran e, f, ?_, sound_of i, j⟩
  · intro ⟨p, q⟩
    exact absurd (d p) (by rw [q]; decide)
  · simpa using g

theorem witness_ContributingInstructions_tile :
    let s := { contributing 3 with hart.vtype := 9 }
    let items := s.contributions false 4 1 (fun r e => r * s.hart.vl + e) 0 s.hart.vl
    s.alone ∧ s.vectorReady tyAny ∧ s.tileOk 4 1 ∧ s.hart.entry caskAt = some member ∧ value (caskPlace (s.x 1) 0 .train) s = some caskAt
    ∧ contributesB 3 4 items s = true
    ∧ exactly (exec (.vrrsq false 4 1 .hart .none) s)
      (let c := ((sent s).tidy caskAt |>.contribute caskAt 1 3 items).1; c.vectorNext c.hart.v 0 false 0) = true := by
  unfold State.alone State.vectorReady State.vectorOn State.tileOk; decide +kernel

/-- `vldc` of the sum over a group of one, and `vstc` in the order of the root. -/
theorem witness_CollectiveAccesses :
    let s : State := { grouped with hart.cop := 1, hart.vtype := 0x4002 }
    s.alone ∧ s.vectorReady tyAny ∧ s.tileOk 6 1 ∧ s.tileOk 4 1 ∧ s.groupOk = true ∧ s.hart.cm = true ∧ s.settled ∧ s.noneReleased
    ∧ s.hart.vstart < s.hart.vl ∧ (places s .load (fun k => placeShared k 1 s.hart.group 6 16)).map (·.length) = some 4
    ∧ elems (exec (.vldc false 6 1 0 .hart .none) s) 6 16 4 = some [0x9788, 0xB5A6, 0xD3C4, 0xF1E2]
    ∧ value (releaseCheck .none .hart) grouped = some () ∧ grouped.hart.copOp = 0 ∧ grouped.hart.vstart < grouped.hart.vl := by
  unfold State.alone State.vectorReady State.vectorOn State.tileOk State.settled State.noneReleased; decide +kernel

/-- R44: the sum of the elements of two members is inexact, and that traps. -/
theorem witness_CollectiveAccesses_flag :
    let g : State := { grouped with
      exports := [⟨memberPlace 1 0x2000 / 65536, false, false⟩]
      hart.cop := 1
      hart.vtype := 0x400A
      hart.frm := 0x1000
      hart.cgrp0 := 0x2000
      hart.cgrp1 := 0x4002002 }
    let s := g.homeSet (.glob (memberPlace 1 0x2002)) [0xFF, 0x7B]
    s.hart.group = [0, 1] ∧ flagCause s.hart.frm (combineShared 1 10 [0x9788, 0]).2 = none
    ∧ flagCause s.hart.frm (combineShared 1 10 [0xB5A6, 0x7BFF]).2 = some 36
    ∧ (next (exec (.vldc false 6 1 0 .hart .none) s)).map (fun t => (t.hart.cause, t.hart.tval, t.hart.vstart)) = some (36, 1, 1) := by decide +kernel

/-- `vstc` to a round: the walks leave the state as it is, and the elements go to the cask's slots. -/
theorem witness_CollectiveAccesses_round :
    let s := contributing 6
    let r := resolveElems (s.active false) [0] (fun k => placeShared k 7 [] 4 32) .store (spanList s.hart.vstart s.hart.vl) s []
    s.alone ∧ s.settled ∧ s.vectorReady tyAny ∧ s.tileOk 4 1 ∧ value (releaseCheck .none .hart) s = some () ∧ r.2.2.isNone = true ∧ r.2.1 ≠ []
    ∧ r.1 = s := by
  unfold State.alone State.settled State.vectorReady State.vectorOn State.tileOk; decide +kernel

theorem witness_CollectiveAccesses_places :
    let s := contributing 6
    value (resolveVirtual s.ctx .store (s.x 7) .train) s = some ⟨.glob 0x4000, 0x4000, false, 0⟩
    ∧ after (resolveVirtual s.ctx .store (s.x 7) .train) s = s ∧ value (caskPlace (s.x 1) 64 .train) s = some caskAt
    ∧ after (caskPlace (s.x 1) 64 .train) s = s ∧ s.hart.entry caskAt = some member := by decide +kernel

theorem witness_CollectiveAccesses_contributes :
    let s := contributing 6
    let items := s.sharedItems 32 (s.firstSlot 32 0x4000) ((places s .store fun k => placeShared k 7 [] 4 32).getD [])
    contributesB 6 (slotsUsed items) items s = true ∧ items.length = 4 := by decide +kernel

/-- R123: the last arrival of a `bar` closes the round, and its record is the hart's own. -/
theorem witness_Arrivals_own :
    let z := request true (barrier 1)
    let w := z.arrive caskAt 1 3 (some 2000)
    w.2 = .counted 3 ∧ (w.1.slotRecord caskAt 3).isSome = true ∧ w.1.now = z.now := by decide +kernel

/-! ### Fences, saving, grants and records -/

/-- A store on its way to a die whose answer is awaited. -/
def sending : State :=
  { start with
    nextId := 1
    hart.pairs := [(0, 4)]
    hart.x := start.hart.x.set 1 0x10000000000
    posted := [⟨0, 0x10000000000, [7], 0, 0⟩] }

theorem witness_Fences :
    let x := sending.ackTrains.landOwn
    let y := sending.settleOthers.forget 0xC000
    x.ownTrains = [] ∧ x.hart.reassembly = [] ∧ sending.flushOverflow.hart.latch = none ∧ sending.flushOverflow.drain.hart.toFlush = [(0, 4)]
    ∧ sending.flushOverflow.drain.hart.buffer = [] ∧ sending.flushOverflow.drain.pairFails (0, 4) = none ∧ sending.ownTrains = [] ∧ sending.hart.reassembly = [] ∧ sending.copiesOf 0 = []
    ∧ y.flushOverflow.hart.latch = none ∧ y.othersPending = 0 ∧ y.flushOverflow.drain.hart.toFlush = [(0, 4)]
    ∧ y.flushOverflow.drain.hart.buffer = [] ∧ y.flushOverflow.drain.pairFails (0, 4) = none ∧ y.ownTrains = []
    ∧ exactly (exec (.fenceVs .device) sending) { x.wroteNext 0 0 with hart.l1 := [] } = true
    ∧ exactly (exec (.fenceVv .device) sending) (x.wroteNext 0 0) = true
    ∧ [Instr.fenceSv .device, .fenceA .device, .tlbi 1, .tlbia].map
      (fun i => (next (exec i sending)).map fun t => (t.hart.pairs, t.hart.pc, t.posted.length, t.homeByte (.glob 0x10000000000)))
      = List.replicate 4 (some ([], 0x1004, 0, 7)) := by decide +kernel

theorem witness_Fences_latched : ∀ i ∈ [Instr.fenceSv .device, .fenceA .device, .flushrd 1 .device],
    stop (exec i { sending with hart.latch := some ⟨62, 3, 1, 500⟩ }) = some (62, epDie 3 1) := by decide +kernel

theorem witness_Fences_flushrd : value (homeOf (sending.x 1)) sending.flushOverflow = some (0, 4) ∧ sending.drain.hart.buffer = []
    ∧ (∀ d, d < 5 → sending.drain.pairFails (0, BitVec.ofNat 3 d) = none)
    ∧ (next (exec (.flushrd 1 .device) sending)).map (fun t => (t.hart.pairs, t.posted.length)) = some ([], 0)
    ∧ (next (exec (.flushrd 1 .domain) sending)).map (fun t => (t.hart.pairs, t.posted.length)) = some ([], 0) := by decide +kernel

/-- R333, R334: the areas of the vector state and of the tiles at 0x10000, and what `vrsall` finds there under another grant. -/
def saving : State := { vec with hart.vtype := 0x62, hart.x := start.hart.x.set 1 0x10000, hart.status.vs := .dirty }
theorem witness_SaveAndRestore_save :
    saving.landOwn.unlanded = none ∧ (value (areaPlaces .store 0x10000 (geometry 1 512 saving.hart).size) saving.landOwn).isSome = true
    ∧ (value (areaPlaces .store 0x10000 tileArea) saving).isSome = true ∧ (value (areaPlaces .load 0x10000 tileArea) saving).isSome = true := by
  decide +kernel
def restoring : State := (saving.setHome64 (.glob 0x10008) 0x62).setHome64 (.glob 0x10028) 1
theorem witness_SaveAndRestore_restore :
    let l := (value (areaPlaces .load 0x10000 0x100) restoring).getD []
    let u := after (areaPlaces .load 0x10000 0x100) restoring
    (value (areaPlaces .load 0x10000 0x100) restoring).isSome = true ∧ dwordAt (u.areaRead l) 5 = restoring.vlg
    ∧ (value (areaPlaces .load 0x10000 (geometry 1 (maxvlOf 1 { restoring.hart with vtype := 0x62 }) restoring.hart).size) u).isSome = true
    ∧ stop (exec (.vrsall 1) saving) = some (47, 0) := by decide +kernel

/-- R327, R335: two membership entries and a context area at 0x20000. -/
def parkedEntry : Member := { member with place := 2, slot := some ⟨statusWord 1 0 3 1, 3, 2⟩, mend := some 3 }
def parking : State :=
  { start with
    hart.ctxarea := 0x20001
    hart.members := [parkedEntry, { member with place := 0, cask := .spad 0 0x40 }] }
theorem witness_SaveAndRestore_parking :
    bitOf parking.hart.ctxarea 0 = true ∧ parking.hart.redirects.length + parking.hart.reassembly.length ≤ 64
    ∧ (next (exec .rapark parking)).map (fun t => (t.hart.members, t.hart.status.parked, t.hart.parked.length, leNat (t.homeRead (.glob 0x200C0) 64)))
      = some ([], true, 2, leNat parkedEntry.image)
    ∧ (next (exec .rarestore ((next (exec .rapark parking)).getD start))).map (fun t => (t.hart.members.length, t.hart.status.parked, t.hart.parked))
      = some (2, false, [])
    ∧ memberOf 2 parkedEntry.image = parkedEntry
    ∧ bitOf start.hart.ctxarea 0 = false ∧ stop (exec .rapark start) = some (21, 0) ∧ stop (exec .rarestore start) = some (20, 0) := by decide +kernel

/-- R337's example: LATVIEW 0x00098888, and the requests 0x1F0 and 0x50C. -/
def granting (request : Word) : State :=
  { start with
    hart.x := start.hart.x.set 1 request
    cores := [(0, { lat := #v[some 0, some 0, some 0, some 0, some 1, none, none, none] })] }
theorem test_lgset : (next (exec (.lgset 3 1) (granting 0x1F0))).map (fun t => (t.hart.x[3], latView (t.coreAt 0).lat)) = some (0xF0, 0x99998888) := by
  decide +kernel
theorem test_lgset_force :
    let s : State := { granting 0x50C with cores := [(0, { lat := #v[some 0, some 0, some 0, some 0, some 1, some 1, some 1, some 1] })] }
    (next (exec (.lgset 3 1) s)).map (fun t => (t.hart.x[3], latView (t.coreAt 0).lat)) = some (0x0C, 0x00009988) := by decide +kernel

theorem witness_GrantsAndRecords :
    let s := granting 5
    8 ≤ s.part.quota ∧ s.hart.stall = none ∧ s.part.cores.contains (5 / 4) = true
    ∧ exactly (exec (.preempt 3 1) s) ((s.modHart 5 fun h => { h with pend := true, pending := [⟨79, 0, 0⟩] }).wroteNext 3 0) = true
    ∧ exactly (exec (.preempt 3 1) (granting 1536)) ((granting 1536).wroteNext 3 1) = true
    ∧ s.canonical ∧ (s.coreAt 0).latNew = none ∧ (∀ j, j < 4 → (s.hartAt (4 * 0 + j)).vectorHeld = false) ∧ s.ownTrains = []
    ∧ s.ackTrains.landOwn.hart.reassembly = [] ∧ exactly (exec (.lcrs 3 1) s) { s.ackTrains.landOwn.wroteNext 3 0 with hart.lcr := { on := true } } = true
    ∧ s.part.traceSize = 0 ∧ exactly (exec (.mark 1) s) (s.wroteNext 0 0) = true
    ∧ exactly (exec .traceSample s) s = true := by
  unfold State.canonical; decide +kernel

/-- A trace ring of 2 records at 0x3000, and a counting record. -/
def tracing : State := { start with part := { start.part with traceBase := 0x3000, traceSize := 2 }, hart.lcr := { on := true, cyc := 9 } }
theorem witness_GrantsAndRecords_trace :
    tracing.openReg = none ∧ tracing.part.sampled + tracing.part.tracePeriod ≤ tracing.now.toNat
    ∧ tracing.part.traceUsed < tracing.part.traceSize ∧ tracing.part.traceLost = 0 ∧ tracing.hart.lcr.on = true
    ∧ (next (exec (.mark 1) tracing)).map (fun t => (t.home64 (.glob 0x3000), t.home64 (.glob 0x3010), t.home64 (.glob 0x3018), t.part.traceUsed))
      = some (2 + 2 ^ 19, 0x1000, 1 + 8 * 2 ^ 32, 1)
    ∧ (next (exec .traceSample tracing)).map (fun t => (t.home64 (.glob 0x3000), t.part.traceUsed, t.hart.pc)) = some (1 + 2 ^ 19, 1, 0x1000)
    ∧ exactly (exec .lcrOverflow tracing) { tracing with hart.lcr.on := false, hart.pending := [⟨90, 0, 0⟩] } = true
    ∧ exactly (exec .debugHalt tracing) { tracing with hart.pending := [⟨86, 0, 0⟩] } = true := by decide +kernel

/-- A witness of the clauses about one parked entry, and about an area with nothing parked. -/
theorem witness_SaveAndRestore_entries :
    parking.canonical ∧ (∀ m ∈ parking.hart.members, (∀ n ∈ parking.hart.members, n.place = m.place → n = m) ∧ m.place < 8)
    ∧ ((List.range 64).all fun i => !(decide (epOf (0x20000 + 0x40 + 64 * 2 + i) = parking.endpt)
      && inHub (offOf (0x20000 + 0x40 + 64 * 2 + i)))) = true
    ∧ parking.home64 (.glob 0x20008) % 2 ^ 16 = 0
    ∧ stop (exec .rarestore { parking.setHome64 (.glob 0x20008) 1 with hart.status.vs := .off }) = some (13, 0)
    ∧ parkedEntry.index < 2 ^ 16 ∧ parkedEntry.tag < 2 ^ 48 ∧ parkedEntry.gen < 2 ^ 32 ∧ parkedEntry.scope < 8 ∧ parkedEntry.n < 2 ^ 16
    ∧ parkedEntry.cask = .glob 0x2000 ∧ parkedEntry.mend = some 3 := by
  unfold State.canonical; decide +kernel

/-! ### Events -/

/-- A pending firmware call, at S with IE and at a stalled vector instruction. -/
def called : State := { start with hart.status.ie := true, hart.pending := [⟨94, 7, 0⟩] }
def stalledVector : State := { called with hart.stall := some { kind := 1, object := 1, deadline := 2000, vec := true } }

theorem witness_CausesAtAHart :
    firstPending called.hart.pending = some ⟨94, 7, 0⟩ ∧ called.settleOwn.boundaryStop true = none ∧ called.settleOwn.hart.claimed = false
    ∧ called.hart.claimed = false ∧ called.part.traceSize = 0
    ∧ (next (exec (.asyncCauseTaken 2 1) called)).map (fun t => (t.hart.cause, t.hart.tval, t.hart.epc, t.hart.pending))
      = some (0x800000000000005E, 7, 0x1000, [])
    ∧ exactly (exec (.asyncCauseTaken 2 1) called) { called.trapEntry 94 7 0 0x1000 false with
      hart.pending := []
      hart.words := ((next (exec (.asyncCauseTaken 2 1) called)).getD start).hart.words } = true
    ∧ exactly (exec (.asyncCauseTaken 2 1) stalledVector) { stalledVector with hart.splitAt := some (2, 1) } = true := by decide +kernel

/-- The same at a stalled scalar instruction, and a request whose PEND stays set. -/
theorem witness_CausesAtAHart_scalar :
    let s : State := { called with hart.stall := some { kind := 0, object := 1, deadline := 2000 } }
    let p : State := { start with
      hart.status.ie := true
      hart.pend := true
      hart.pending := [⟨79, 5, 0⟩] }
    let r : State := { called with hart.stall := some { kind := 3, object := 6, deadline := 2000 } }
    let w : State := { called with hart.wait := some { cask := some caskAt, deadline := 2000 } }
    ([s, r, w].map fun s => (next (exec (.asyncCauseTaken 2 1) s)).map fun t => (t.hart.cause, t.hart.epc, t.hart.stall))
      = List.replicate 3 (some (0x800000000000005E, 0x1000, none))
    ∧ r.boundaryStop true = none ∧ r.now.toNat < 2000
    ∧ p.hart.priv = .super ∧ (next (exec (.asyncCauseTaken 0 0) p)).map (fun t => (t.hart.cause, t.hart.pending, t.hart.pend))
      = some (0x800000000000004F, [⟨79, 5, 0⟩], true) := by decide +kernel

/-- A time slice that has been reached, and one that has not. -/
def slicing (t : Word) : State := { start with now := 1000, hart.sliceArmed := true, hart.slice := 0x8000000000000000 + t }
theorem witness_CausesAtAHart_pending :
    let s := slicing 900
    exactly (exec (.preemptRequest 5 true) s) { s with hart.pend := true, hart.urgp := true, hart.pending := [⟨79, 5, 1⟩] } = true
    ∧ exactly (exec (.hostRequest 5) s) { s with hart.pending := [⟨93, 5, 0⟩] } = true
    ∧ exactly (exec (.firmwareCall 5) s) { s with hart.pending := [⟨94, 5, 0⟩] } = true
    ∧ exactly (exec (.machineCheck 5) s) { s with hart.pending := [⟨95, 5, 0⟩] } = true
    ∧ exactly (exec .timeSlice s) { s with hart.sliceArmed := false, hart.pending := [⟨81, 900, 0⟩] } = true
    ∧ (next (exec .timeSlice (slicing 3000))).map (fun t => (t.now, t.hart.pending)) = some (3000, [⟨81, 3000, 0⟩]) := by decide +kernel

theorem witness_CausesAtAHart_reset : start.stagings = [] ∧ 0 ∈ start.part.cores
    ∧ (next (exec .partitionReset { start with part := { start.part with cores := [0] } })).map (fun t => (t.hart.pending, (t.hartAt 3).pending))
      = some ([⟨85, 0, 0⟩], [⟨85, 0, 0⟩]) := by decide +kernel

/-- Stalls of each kind, with nothing left to wait for. -/
def stalledOn (kind object : Nat) : State := { copying with
    now := 1000
    copies := []
    cores := [(0, { busyCore with ch := busyCore.ch.set 1 { counts := true, dbase := 0x40, len := 8, wm := 0x48 } })]
    hart.stall := some { kind := kind, object := object, deadline := 900 } }
theorem witness_StallsAndWaits :
    let k := (stalledOn 1 1).channel 1
    k.busy = 0 ∧ k.dbase + k.len ≤ k.wm ∧ (stalledOn 3 5).hart.flying.toList.getD 5 0 = 0
    ∧ value (translate start.ctx .load 0x2000) (stalledOn 4 0x2000) = some (0x2000, false)
    ∧ exactly (exec .parkResume (stalledOn 4 0x2000)) { stalledOn 4 0x2000 with
      hart.stall := some { kind := 13, object := 0x2000, deadline := 2 ^ 64 } } = true
    ∧ exactly (exec .watermarkStallResume (stalledOn 1 1)) { stalledOn 1 1 with hart.stall := none } = true
    ∧ exactly (exec .scoreboardStallResume (stalledOn 2 0)) { stalledOn 2 0 with hart.stall := none } = true
    ∧ exactly (exec .landedBitStallResume (stalledOn 3 5)) { stalledOn 3 5 with hart.stall := none } = true
    ∧ exactly (exec .waitExpiredImplicit (stalledOn 1 1)) (stalledOn 1 1) = true
    ∧ exactly (.next ((stalledOn 1 1).stallAt 1 1)) ((stalledOn 1 1).trapEntry 48 (word (2 ^ 56 + 1)) 900 0x1000 false) = true
    ∧ exactly (.next ((stalledOn 0 1).stallAt 0 1)) ((stalledOn 0 1).trapEntry 62 1 900 0x1000 false) = true
    ∧ (next (exec .waitExpiredImplicit { stalledOn 1 1 with now := 800 })).map (fun t => (t.now, t.hart.stall))
      = some (900, (stalledOn 1 1).hart.stall)
    ∧ exactly (exec .parkResume { stalledOn 4 0x2000 with hart.stall := some { kind := 4, object := 0x2000, deadline := 900, vec := true, start := 3 } })
      { stalledOn 4 0x2000 with hart.stall := some { kind := 13, object := 0, deadline := 2 ^ 64, vec := true, start := 3 } } = true := by
  decide +kernel

theorem witness_StallsAndWaits_grant :
    let new : Vector (Option (BitVec 2)) 8 := #v[none, some 1, some 0, none, none, none, none, none]
    let s : State := { start with cores := [(0, { lat := #v[some 0, none, none, none, none, none, none, none], latNew := some new })] }
    s.canonical ∧ (∀ j, j < 4 → (s.hartAt (4 * 0 + j)).vectorHeld = false)
    ∧ (next (exec .lgsetApply s)).map (fun t => ((t.coreAt 0).lat, (t.coreAt 0).latNew, t.hart.pc)) = some (new, none, 0x1000) := by
  unfold State.canonical; decide +kernel

/-- A wait at the barrier, at the instruction with this word. -/
def waitingAt (w : BitVec 32) (x : Wait) : State := waiting x ((barrier 0).withFetchWord 32 w.toNat)
theorem witness_StallsAndWaits_answers :
    let w : Wait := { cask := some caskAt, deadline := 900, round := 3 }
    let s := waitingAt 0xCB8CE8E0 w
    let answered := fun (s : State) (x : Answer) => ({ s with hart.wait := some { w with answer := some x } } : State)
    s.hart.entry caskAt = some member ∧ s.hart.parked = []
    ∧ exactly (exec (.caskAnswerArrival (statusWord 0 0 3 0) ⟨2, [7]⟩) s) (answered s ⟨statusWord 0 0 3 0, some 2, 2, 3, 0, 7, [7]⟩) = true
    ∧ exactly (exec (.closureRecordArrival caskAt (statusWord 0 0 3 0) 3 2) s) (answered s ⟨statusWord 0 0 3 0, some 2, 2, 3, 0, 0, []⟩) = true
    ∧ exactly (exec (.closureRecordArrival caskAt (statusWord 0 0 3 0) 3 2) (barrier 0))
      { barrier 0 with hart.members := [{ member with slot := some ⟨statusWord 0 0 3 0, 3, 2⟩ }] } = true := by decide +kernel

/-- A wait whose home does not answer by its deadline, at each of the instructions. -/
theorem witness_StallsAndWaits_lost :
    let far : Loc := .glob 0x500000002000
    let at_ := fun (w : BitVec 32) => ({ waitingAt w { cask := some far, deadline := 900, round := 3 } with
      silent := [5]
      hart.members := [{ member with cask := far }] } : State)
    let lost := fun (w : BitVec 32) (i : Instr) (f : State → State) => decide ((at_ w).current = some i) && (at_ w).homeSilent far
      && exactly (exec .waitDeadlineAtHart (at_ w)) (f (at_ w))
    let ends := fun (n t : Nat) => statusWord n 0xFE t 0xFFFF
    (at_ 0).noneReleased ∧ lost 0xCB8CE8E0 (.bar 24 25 26 7) (·.waitEnded 24 7 (ends 1 3) none (some 3) 0) = true
    ∧ lost 0xCD8CE8E0 (.qarr 24 25 26 7) (·.waitEnded 24 7 (ends 1 3) none (some 3) 0) = true
    ∧ lost 0xCB8CE801 (.barr 24 25 26) (·.waitEnded 24 0 (ends 1 3) none (some 3) 0) = true
    ∧ lost 0xCEACE801 (.recv 10 25 26) (·.waitEnded 10 0 (ends 8 0) none none 0) = true
    ∧ lost 0xD18CE801 (.strip 24 25 26) (fun t => (t.setX 26 (-1)).waitEnded 24 0 (ends 1 0) none none 0) = true
    ∧ lost 0xD18CE8E3 (.farmw 24 25 26 7) (·.waitEnded 24 7 (ends 1 0) none none 0) = true := by
  unfold State.noneReleased; decide +kernel

/-- R431: a record that has been held back. R77: a `cwait` at its deadline. -/
theorem witness_StallsAndWaits_others :
    let w : Wait := { cask := some caskAt, deadline := 900, round := 3 }
    let g := waitingAt 0xCB8CE8E0 { w with answer := some answer, delay := some 950 }
    let c := fun (k : Channel) => { waitingAt 0xC82D6005 { cask := none, deadline := 900 } with cores := [(0, { busyCore with ch := busyCore.ch.set 2 k })] }
    g.current = some (.bar 24 25 26 7) ∧ (c {}).current = some (.cwait 2 26 24)
    ∧ exactly (exec .waitDeadlineAtHart (c { busy := 1 })) ((c { busy := 1 }).waitEnded 24 0 (statusWord 1 0 0 1) none none 0) = true
    ∧ exactly (exec .waitDeadlineAtHart (c {})) ((c {}).waitEnded 24 0 0 none none 1) = true
    ∧ exactly (exec .staggeredCompletion g) ((g.entered caskAt fun m => { m with tag := 4, arrived := false }).waitEnded 24 7 answer.status answer.absent
      (some 3) 0) = true := by decide +kernel

/-- R123, R132: a barrier at its deadline, a `recv` that waits, a claim that has run out. -/
theorem witness_StallsAndWaits_home :
    let b := casked 0x201 3 1050 1 0 []
    let w : Wait := { cask := some caskAt, deadline := 1050 }
    let q := { waiting w (ring 0 0) with waiters := [⟨caskAt, some 0, 0, .recv, 1050⟩] }
    let f := (farming 0).setHome64 (.glob 0x2108) 900
    b.canonical ∧ q.canonical ∧ f.canonical ∧ (∀ x ∈ b.harts, x.parked = []) ∧ b.bitmap caskAt (b.header caskAt) 0 < 2 ^ 2 - 1 ∧ b.roundDeadline caskAt ≤ b.now.toNat + guard 0
    ∧ (next (exec (.roundClosure caskAt) b)).map (fun t => (t.roundTag caskAt, t.bitmap caskAt (t.header caskAt) 1, (t.header caskAt).last))
      = some (4, 2, 1)
    ∧ exactly (exec (.homeWaitDeadline caskAt) q) { q with
      waiters := []
      hart.wait := some { w with answer := some ⟨statusWord 8 0 0 0, none, 0, 0, 0, 0, []⟩ } } = true
    ∧ f.stripSt caskAt 0 = 1 ∧ f.home64 ((f.stripLoc caskAt 0).plus 8) ≤ f.now.toNat ∧ f.waiters = []
    ∧ (next (exec (.stripClaimExpiry caskAt 0) f)).map (fun t => (t.stripSt caskAt 0, t.stripGen caskAt 0)) = some (0, 6) := by
  unfold State.canonical; decide +kernel

/-- A store in the buffer, one on its way, and a train. -/
def buffered (pa : Nat) : State := { start with hart.buffer := [⟨pa, [7]⟩] }
def posted : State := { start with nextId := 4, hart.pairs := [(0, 0)], posted := [⟨0, 0x2000, [7], 3, 0⟩] }
def foreign : Train := { hart := none, ep := 5, die := 0 }
def training : State := { start with trains := [foreign], exports := [⟨0, true, false⟩] }

theorem witness_StoreAndResponseEvents :
    let own := ((0 : Endpoint), BitVec.ofNat 3 (dieOfCore 0))
    (epOf 0x2000, dieOf (offOf 0x2000)) = own ∧ (epOf 0x10000000000, dieOf (offOf 0x10000000000)) ≠ own
    ∧ exactly (exec (.storeBufferDrain 0) (buffered 0x2000)) { buffered 0x2000 with hart.buffer := [], mem := start.mem.writeN 0x2000 [7] } = true
    ∧ exactly (exec (.storeBufferDrain 0) (buffered 0x10000000000)) { buffered 0x10000000000 with
      hart.buffer := []
      posted := [⟨0, 0x10000000000, [7], 0, 0⟩]
      nextId := 1
      hart.pairs := [(0, 4)]
      hart.sent := [((0, 4), 1)] } = true
    ∧ exactly (exec (.storeApply 0) posted) { posted with posted := [], mem := start.mem.writeN 0x2000 [7] } = true
    ∧ exactly (exec (.flushingRead 0 0) posted) { posted with posted := [], mem := start.mem.writeN 0x2000 [7] } = true
    ∧ exactly (exec (.flushAnswer 0 0) posted) { posted with posted := [], hart.pairs := [], mem := start.mem.writeN 0x2000 [7] } = true
    ∧ (next (exec (.flushTimeout 3 1) { start with hart.overflow := [(3, 1, 500)] })).map (fun t => (t.now, t.hart.latch, t.hart.overflow))
      = some (500, some ⟨62, 3, 1, 500⟩, []) := by decide +kernel

theorem witness_StoreAndResponseEvents_trains :
    let own := dieOf (offOf 0x2000)
    let x : TrainItem := { pos := 0, loc := .glob 0x2000, data := [7] }
    let mine : Train := { hart := some 0, ep := 0, die := 0, items := [x] }
    exactly (exec (.trainElement 0 (.element 0x2000 [7])) training) { training with
      trains := [{ foreign with die := own, applied := 1 }]
      mem := start.mem.writeN 0x2000 [7] } = true
    ∧ exactly (exec (.trainElement 0 (.tail 3)) training) { training with trains := [{ foreign with tail := some 3 }] } = true
    ∧ exactly (exec (.trainElement 0 (.tail 0)) training) { training with trains := [], replies := [.data []] } = true
    ∧ training.exportStop 0x2000 1 true = none ∧ start.exportStop 0x2000 1 true = some 69
    ∧ exactly (exec (.trainElement 0 (.element 0x2000 [7])) { start with trains := [mine] })
      { (({ start with trains := [{ mine with items := [], applied := 1 }] } : State).applyItem (some 0) x).1 with
        trains := [{ mine with items := [], applied := 1 }] } = true
    ∧ (({ start with trains := [] } : State).applyItem (some 0) x).1.homeByte (.glob 0x2000) = 7
    ∧ exactly (exec (.trainAck 0 0) { start with trains := [{ mine with items := [], applied := 3, tail := some 3 }] }) start = true := by decide +kernel

/-- Two positions of v6 await data at 0x2000 and 0x2002. -/
def entry (mask : BitVec 64) : Reassembly :=
  { place := 2, reg := 6, width := 1, first := 0, mask := mask, seq := 9, ep := 0, die := 0, src := [⟨0, .glob 0x2000, none⟩, ⟨1, .glob 0x2002, none⟩],
    head := 0x1000 }
def awaiting (mask : BitVec 64) : State := { plainState with
    hart.flying := (Vector.replicate 32 0).set 6 1
    hart.reassembly := [entry mask] }
theorem witness_StoreAndResponseEvents_responses :
    widthOfCode 1 = 16 ∧ (0 + 0 + 1) * 16 ≤ (awaiting 3).maxBits ∧ (entry 3).src.find? (fun q => q.pos = 0 + 0) = some ⟨0, .glob 0x2000, none⟩
    ∧ (next (exec (.responseArrival 9 1 0) (awaiting 3))).map (fun t => (t.elem 6 16 0, t.hart.reassembly.map (·.mask), t.hart.status.vs == .dirty))
      = some (0x9788, [2], true)
    ∧ (next (exec (.responseArrival 9 1 0) (awaiting 1))).map (·.hart.reassembly) = some []
    ∧ exactly (exec (.responseArrival 9 4 0) { awaiting 3 with hart.reassembly := [{ entry 3 with left := true }] })
      { awaiting 3 with hart.reassembly := [] } = true
    ∧ (next (exec (.responseArrival 9 4 0) { awaiting 3 with hart.reassembly := [{ entry 3 with tile := some 6, first := 2, src := [] }] })).map
      (fun t => (t.hart.vl, t.hart.reassembly)) = some (2, [])
    ∧ (next (exec (.responseArrival 9 4 0) (awaiting 3))).map (fun t => (t.hart.cause, t.hart.epc)) = some (70, 0x1000) := by decide +kernel

/-- R152, R322: vector state is written once earlier vector convoys have drained: `v6` awaits data of a home that does not answer. -/
def undrained : State := { awaiting 3 with
    silent := [5]
    hart.vtype := 2
    hart.vstart := 0
    hart.priv := .super
    hart.status.vs := .initial
    hart.reassembly := [{ entry 3 with ep := 5, src := [⟨0, .glob 0x500000002000, none⟩, ⟨1, .glob 0x500000002002, none⟩] }] }
theorem witness_ConfigurationInstructions_drained :
    start.openReg = none ∧ plainState.openReg = none ∧ saving.openReg = none ∧ parking.openReg = none ∧ undrained.openReg = some 6
    ∧ undrained.ackTrains.landOwn.openReg = some 6
    ∧ (∀ i ∈ [Instr.svl 3 1 2, .svt 1, .svr 3 1, .scgrp 1 2, .scop 1 2 false],
      exactly (exec i undrained) (undrained.ackTrains.landOwn.stallAt 3 6) = true) := by decide +kernel
theorem witness_RegisterWriteEffects_drained : ∀ n ∈ ([0x100, 0x108, 0x002] : List (BitVec 12)),
    exactly (exec (.wrc 1 n) undrained) (undrained.ackTrains.landOwn.stallAt 3 6) = true := by decide +kernel

/-- R100: a store whose destination would be the 65th waits for the flushes of the one before it. R405: so does a 65th packet. -/
theorem witness_StoreAndResponseEvents_overflow :
    let s : State := { buffered 0x10000000000 with silent := [3], hart.overflow := [(3, 1, 500)] }
    (∀ q ∈ s.hart.overflow, s.pairFails (q.1, q.2.1) = some 62) ∧ exactly (exec (.storeBufferDrain 0) s) s = true
    ∧ exactly (exec (.flushAnswer 0 4) { start with hart.pairs := [(0, 4)], hart.sent := [((0, 4), 1)] }) start = true := by decide +kernel

/-- R404: a request that finds the ingress queue full. -/
theorem witness_MemoryEngine_full :
    let s : State := { start with ingressFull := true }
    exactly (exec (.readRequest 0x2000 8) s) { s with replies := [.nack 0] } = true := by decide +kernel

theorem witness_StoreAndResponseEvents_redirected :
    let s : State := { plainState with hart.redirects := [⟨9, 0x20000, 3, entry 3⟩] }
    let data := s.responseData (entry 3)
    s.canonical ∧ data.length ≤ 256 ∧ leNat data = 0xB5A69788 ∧ (next (exec (.redirectedResponse 0 0) s)).map (fun t =>
      (t.hart.redirects, leNat (t.homeRead (.glob 0x20B00) data.length), bit (t.home64 (.glob 0x202A0)) 62, bit (t.home64 (.glob 0x20008)) 19))
      = some ([], 0xB5A69788, true, true) := by
  unfold State.canonical; decide +kernel

/-- R82, R96: a page exported for reading, one for writing, one withdrawn. -/
def exporting (w d : Bool) : State := { plainState with exports := [⟨0, w, d⟩] }
theorem witness_MemoryEngine :
    let sends := fun (t : State) (y : Reply) => { t with replies := t.replies ++ [y] }
    let data := Reply.data (leBytes 0xF1E2D3C4B5A69788 8)
    epOf 0x2000 = start.endpt ∧ plainState.backed (offOf 0x2000) = true ∧ plainState.isBad (.glob 0x2000) 8 = false ∧ inHub 0x2000 = false
    ∧ exactly (exec (.readRequest 0x2000 8) (exporting false false)) (sends (exporting false false) data) = true
    ∧ exactly (exec (.readRequest 0x2000 8) (exporting false true)) (sends (exporting false true) (.cause 68)) = true
    ∧ exactly (exec (.readRequest 0x500000002000 8) (exporting false false)) (sends (exporting false false) (.cause 69)) = true
    ∧ exactly (exec (.atomicRequest ⟨0x2000, 8, .add, 2, 0⟩) (exporting false false)) (sends (exporting false false) (.cause 69)) = true
    ∧ exactly (exec (.atomicRequest ⟨0x2000, 8, .add, 2, 0⟩) (exporting true false))
      (sends { exporting true false with mem := plainState.mem.writeN 0x2000 (leBytes 0xF1E2D3C4B5A6978A 8) } data) = true
    ∧ exactly (exec (.atomicRequest ⟨0x2000, 8, .cas, 2, 5⟩) (exporting true false)) (sends (exporting true false) data) = true := by decide +kernel

theorem witness_MemoryEngine_casks :
    let sends := fun (t : State) (y : Reply) => { t with replies := t.replies ++ [y] }
    let open_ := fun (s : State) => ({ s with exports := [⟨0, true, false⟩] } : State)
    let l := open_ freeLock
    let r := open_ (ring 0 1)
    l.exportStop 0x2000 64 true = none ∧ l.caskBad caskAt = false ∧ l.configOk caskAt (l.header caskAt) = true ∧ l.visit caskAt = l
    ∧ r.visit caskAt = r
    ∧ exactly (exec (.caskRequest ⟨caskAt, 9, 1, 3, .sync, .acquire 2000⟩) l) (sends (l.setLock caskAt ⟨5, 1, true, false, false⟩)
      (.status (statusWord 0 0 5 0) 0)) = true
    ∧ exactly (exec (.caskRequest ⟨caskAt, 9, 1, 3, .que, .poll⟩) r) (sends (sends (r.setHome64 (caskAt.plus 24) 1)
      (.status (statusWord 0 0 0 0) 0)) (.data (leBytes 99 64))) = true := by decide +kernel

/-! ### The memory engine -/

def order (dw : List Word) : EngineCommand := ⟨0, Vector.ofFn fun i => dw.getD i.val 0⟩

/-- MIGRATE of the page at 0x50000 to 0x140000, tier 1, with hart 0 notified and the completion word at 0x3000. -/
def migrating : EngineCommand := order [1, 0x50000, 0x140001, 0, 0, 0, 0, 0x3000]
def moved : Migration := ⟨0x50000, 0x30028, 0x120407, 0x140000, 1, 65536, 0, 0x3000, false⟩
theorem witness_MemoryEngine_migrate :
    let c := migrating
    paged.hartOk 0 c.notify = true ∧ paged.tableOf 0 = some 0x10001 ∧ paged.leafOf 0x50000 2 0x10000 = some (0x30028, 0x120007, 65536)
    ∧ paged.regionOk 0 0x140000 65536 = true ∧ paged.racked 0x120007 65536 = false ∧ paged.canonical ∧ paged.quiet
    ∧ ((List.range 8).all fun i => !(decide (epOf (0x30028 + i) = paged.endpt) && inHub (offOf (0x30028 + i)))) = true
    ∧ (next (exec (.migrate c) paged)).map (fun t => (t.home64 (.glob 0x30028), t.migrations)) = some (0x120407, [moved])
    ∧ (next (exec (.migrate c) { paged with cached := [⟨0, 0, 0x50000, 65536, 0x120007⟩, ⟨0, 0, 0x60000, 65536, 7⟩] })).map (·.cached.length) = some 1 := by
  unfold State.canonical State.quiet; decide +kernel

def arriving : State := { paged with mem := (paged.setHome64 (.glob 0x30028) 0x120407).mem, migrations := [moved] }
theorem witness_MemoryEngine_done :
    arriving.home64 (.glob 0x30028) = 0x120407 ∧ arriving.quiet ∧ arriving.racked 0x120407 65536 = false ∧ arriving.allotted 0x3000 8 = true ∧ arriving.isBad (.glob 0x120000) 65536 = false
    ∧ exactly (exec (.migrationDone 0) arriving) { ((arriving.moveRange 0x120000 0x140000 65536).setHome64 (.glob 0x30028) 0x140107).setHome64
      (.glob 0x3000) 0 with
      hart.pending := [⟨76, 0x50000, 0⟩]
      migrations := [] } = true := by
  unfold State.quiet; decide +kernel

/-- Leases of 512 MiB at 0x20000000: offered to endpoint 5, and taken from it. -/
def offered : Lease := ⟨7, 0, 5, .offered, 0x20000000, 1, 600000000, 1000, 0, 0, 0, 0, 0, 0x3000, 0, 0, 900, [], []⟩
def lent (state : LeaseState) : Lease := { offered with lender := 5, borrower := 0, state := state, base := 0x500020000000, fallback := 0x40000000, record := 0x3100, lendDone := 0x3000, offerEnd := 5000 }
def leasing (l : Lease) : State := { start with now := 1000, leases := [l] }

theorem witness_MemoryEngine_lend :
    let c := order [2 + 7 * 256, 0x20000000, 1, 5, 600000000, 1000, 900, 0x3000]
    c.id = 7 ∧ start.namesOk c true = true ∧ (leasing offered).allotted 0x3000 8 = true ∧ start.regionOk 0 0x20000000 (2 ^ 29) = true ∧ c.peer = 5
    ∧ (next (exec (.lend c) start)).map (·.leases) = some [offered]
    ∧ (offered.offerEnd ≤ (leasing offered).now.toNat) ∧ exactly (exec (.leaseOfferExpiry 0) (leasing offered))
      (({ leasing offered with leases := [] } : State).setHome64 (.glob 0x3000) (statusWord 1 0 0 0).toNat) = true := by decide +kernel

theorem witness_MemoryEngine_accept :
    let s := leasing (lent .offered)
    let c := order [3 + 7 * 256, 0x40000000, 0, 5, 0, 0, 0x3100, 0x3200]
    let y := { lent .offered with state := LeaseState.active, fallback := 0x40000000, tier := 0, record := 0x3100, notify := 0, acceptDone := 0x3200 }
    c.peer = 5 ∧ s.namesOk c true = true ∧ s.now.toNat < (lent .offered).offerEnd ∧ s.regionOk 0 0x40000000 (2 ^ 29) = true
    ∧ s.allotted 0x3100 64 = true ∧ s.allotted 0x3000 8 = true ∧ s.allotted 0x3200 8 = true ∧ s.grants y = true
    ∧ exactly (exec (.accept c) s) (((({ s with leases := [y] } : State).writeLease y).setHome64 (.glob 0x3000) 0).setHome64 (.glob 0x3200) 0) = true := by
  decide +kernel

/-- R373: a notice period too short; R366: a command of no valid form; the engine's queue at the head of its agenda. -/
theorem witness_MemoryEngine_refused :
    let x := { lent .offered with notice := 5 }
    let y := { x with state := LeaseState.active, fallback := 0x40000000, tier := 0, record := 0x3100, notify := 0, acceptDone := 0x3200 }
    let s := leasing x
    let bad := fun (t : State) (a detail : Nat) => t.setHome64 (.glob a) (statusWord 5 detail 0 0).toNat
    let m := order [7 + 7 * 256, 0, 0, 5, 0, 0, 0, 0x3000]
    s.grants y = false
    ∧ exactly (exec (.accept (order [3 + 7 * 256, 0x40000000, 0, 5, 0, 0, 0x3100, 0x3200])) s) (bad (bad { s with leases := [] } 0x3000 5) 0x3200 5) = true
    ∧ start.leases = [] ∧ start.allotted 0x3000 8 = true
    ∧ (∀ i ∈ [Instr.lend m, .accept m, .reclaim m, .returnLease m], exactly (exec i start) (bad start 0x3000 1) = true) := by decide +kernel

theorem witness_MemoryEngine_queue :
    let s : State := { ring 0 1 with part := { (ring 0 1).part with engine := some caskAt }, agenda := [.engine] }
    let e := ({ s with agenda := [] } : State).visit caskAt
    s.thermal ≠ .down ∧ e.caskBad caskAt = false ∧ (e.header caskAt).kind = 5 ∧ e.configOk caskAt (e.header caskAt) = true ∧ e.ringCount caskAt ≠ 0
    ∧ (next (step s)).map (fun t => (t.ringHead caskAt, t.agenda)) = some (1, []) := by decide +kernel

theorem witness_MemoryEngine_reclaim :
    let x := { lent .active with lender := 0 }
    let y := { x with state := LeaseState.racking, noticeEnd := 1000 + x.notice, reclaimDone := 0x3300 }
    (leasing x).quiet ∧ (leasing x).namesOk (order [4 + 7 * 256]) true = true ∧ exactly (exec (.reclaim (order [4 + 7 * 256, 0, 0, 0, 0, 0, 0, 0x3300])) (leasing x)) { ({ leasing x with leases := [y] } : State).writeLease y with
      hart.pending := [⟨74, 7, word (1000 + x.notice)⟩] } = true := by
  unfold State.quiet; decide +kernel

theorem witness_MemoryEngine_return :
    let c := order [5 + 7 * 256, 0, 0, 5, 0, 0, 0, 0x3300]
    let y := { lent .active with state := LeaseState.ended }
    (lent .active).borrower = c.endpt ∧ (leasing (lent .active)).namesOk c false = true ∧ (leasing (lent .active)).allotted 0x3300 8 = true
    ∧ exactly (exec (.returnLease c) (leasing (lent .active))) ((({ leasing y with leases := [y] } : State).writeLease y).setHome64 (.glob 0x3300) 0) = true
    ∧ exactly (exec (.returnLease c) (leasing (lent .racking))) ((leasing (lent .racking)).setHome64 (.glob 0x3300) (statusWord 4 0 0 0).toNat) = true := by
  decide +kernel

theorem witness_MemoryEngine_rack :
    let x := lent .racking
    x.moved = [] ∧ x.urgent = [] ∧ 1 ≤ x.units ∧ (leasing x).quiet ∧ exactly (exec (.rackGranuleMove 0) (leasing x))
      { (leasing x).moveRange 0x500020000000 0x40000000 65536 with leases := [{ x with moved := [0] }] } = true := by
  unfold State.quiet; decide +kernel

/-- A lease of which one granule is left. -/
theorem witness_MemoryEngine_last : ∃ l : Lease, l.state = .racking ∧ l.nextGranule = some 1 ∧ l.urgent = []
    ∧ l.moved.length + 1 = l.units * 8192 := by
  have key : ∀ (n : Nat) (l : Lease), 0 < n → l.moved = List.replicate n 0 → l.urgent = [] → 1 < l.units * 8192 →
      l.nextGranule = some 1 := by
    intro n l hn hm hu hl
    unfold Lease.nextGranule
    rw [hu, hm]
    show (List.range (l.units * 8192)).find? (fun g => !(List.replicate n 0).contains g) = some 1
    rw [List.find?_range_eq_some]
    refine ⟨by simp, by simp [hl], fun j hj => ?_⟩
    have : j = 0 := by omega
    subst this
    simp; omega
  exact ⟨{ lent .racking with moved := List.replicate 8191 0 }, rfl, key 8191 _ (by decide) rfl rfl (by decide), rfl,
    congrArg (· + 1) List.length_replicate⟩

/-! ### Queues and launches -/

def descriptor : Queue := { v := true, pend := true, cask := 0x2000, weight := 3, credit := 3, budget := 2, prio := 4 }

/-- Queue 5 of the one core, its ring at 0x2100 with one command: 1 hart, 1 group, entry 0x8000, argument 77; `q0` is its first word. -/
def queued (q0 : Nat) (d : Queue) : State :=
  let s := (casked 0x5 0x100 2 0 1 []).setHome64 (caskAt.plus 40) 5
  let s := ((s.setHome64 (.glob 0x2100) q0).setHome64 (.glob 0x2108) 0x8000).setHome64 (.glob 0x2128) 77
  { s.setHome64 (.glob 0x2138) 0x3000 with
    part := { s.part with cores := [0], commMax := 1 }
    queues := [(5, d)]
    boot := { s.boot with ready := true } }
def good : Nat := 0x10011

theorem witness_LaunchPath_registers :
    let s := queued good descriptor
    let set := fun (f : Queue → Queue) => ({ s with queues := [(5, f descriptor)] } : State)
    exactly (exec (.queueDescriptorWrite 5 1 0x20000000009) s) (set fun d => { d with weight := 2, agemax := 9 }) = true
    ∧ exactly (exec (.queueDescriptorWrite 5 2 9) s) (set fun d => { d with budget := 9 }) = true
    ∧ exactly (exec (.queueDescriptorWrite 5 4 0x8000000000000003) s) (set fun d => { d with nen := true, nhart := 3 }) = true
    ∧ exactly (exec (.queueDescriptorWrite 5 0 0xE000000000002001) s) (set fun d => { d with pub := true, cls := true, cask := 0x2000, prio := 1 }) = true
    ∧ exactly (exec (.queueDescriptorWrite 5 3 9) s) s = true
    ∧ exactly (exec (.wakeRegister 5 0 (.hart 3)) { s with queues := [(5, { descriptor with pend := false })] }) (set fun d => { d with wait := 1000 }) = true := by
  decide +kernel

theorem witness_LaunchPath_energy :
    let s := queued good descriptor
    let launched := { s with launches := [⟨9, 5, [0], [], 0x3000, 0x8000, 0, 0, 0⟩] }
    exactly (exec (.energyCharge 5 (.scalar 399999)) s) { s with queues := [(5, { descriptor with spent := 1999995 })] } = true
    ∧ (next (exec (.energyCharge 5 (.scalar 400000)) launched)).map (fun t => (t.queues, t.hart.pending))
      = some ([(5, { descriptor with spent := 2000000, exh := true })], [⟨80, 5, 0⟩])
    ∧ exactly (exec (.accountingPeriodBoundary false) { s with now := 1000000, queues := [(5, { descriptor with spent := 2000009, exh := true })] })
      { s with now := 1000000, part.boundary := 1000000, queues := [(5, { descriptor with spent := 9 })] } = true
    ∧ (next (exec (.accountingPeriodBoundary true) s)).map (fun t => (t.hartAt 3).pending) = some [⟨77, 0, 0⟩] := by decide +kernel

/-- A communication queue that has waited for 10 µs, and a reserve of one core. -/
theorem witness_LaunchPath_reserve :
    let s := { queued good { descriptor with cls := true } with now := 20000, hart.run := .idle }
    let t := { s with part := { s.part with commNow := 1 } }
    (s.headOf 5).isSome = true ∧ s.part.commNow < s.part.commMax ∧ (s.hartAt 3).run = .idle ∧ 0 ∈ t.reserveCores
    ∧ exactly (exec .commresGrow s) t = true ∧ (t.coreAt 0).idleSince = 0
    ∧ exactly (exec .commresShrink { t with now := 100000 }) { s with now := 100000 } = true := by decide +kernel

def queueing : State := queued good descriptor
def failing : State := queued 0x10012 descriptor
/-- The command at the head of queue 5, and the harts that it would be placed on. -/
def headCommand (s : State) : Option Command :=
  match (s.headOf 5).map s.parse with
  | some (.command c) => some c
  | _ => none
def placedOn (s : State) : Option (List Nat) :=
  (headCommand s).bind fun c => (s.placing 5 c (fun _ => false) true).map (·.map (·.1))

theorem witness_LaunchPath_launch :
    queueing.boot.ready = true ∧ queueing.queues = [(5, descriptor)] ∧ queueing.part.number = descriptor.part ∧ failing.ringCount caskAt = 1
    ∧ queueing.stagings = [] ∧ queueing.reserved = [] ∧ (headCommand queueing).map (·.image) = some 0
    ∧ placedOn queueing = some [1] ∧ (failing.headOf 5).map failing.parse = some (.fails 1) := by decide +kernel
theorem witness_LaunchPath_placed :
    (next (exec (.launch 5) queueing)).map (fun t => ([t.ringHead caskAt, t.launches.length], [(t.hartAt 1).pc, (t.hartAt 1).x[10], (t.hartAt 1).x[11],
      (t.hartAt 1).x[12], (t.hartAt 1).vtype])) = some ([1, 1], [0x8000, 77, 0, 1, 0]) := by decide +kernel
theorem witness_LaunchPath_started :
    (next (exec (.launch 5) queueing)).map (fun t => ((t.hartAt 1).run == .running && (t.hartAt 1).priv == .user,
      (t.hartAt 1).status == ⟨false, false, false, .initial, .initial, .initial, false, false, false⟩)) = some (true, true) := by decide +kernel
theorem witness_LaunchPath_failed :
    (next (exec (.commandScan 0 false) failing)).map (fun t => (t.ringHead caskAt, t.home64 (.glob 0x3000), t.launches.length, (t.queue 5).pend))
      = some (1, (statusWord 5 1 0 0).toNat, 0, false) := by decide +kernel

/-- A scan that serves the one queue, whose ring is then empty. -/
theorem witness_LaunchPath_scan :
    let r := queueing.serveHead 5
    let served := r.1.served' 5 4
    r.2 = .placed ∧ descriptor.level 1000 = 4 ∧ served.queues = [(5, { descriptor with credit := 2, wait := 1000 })] ∧ served.headOf 5 = none
    ∧ exactly (exec (.commandScan 0 false) queueing) { served.modQueue 5 fun d => { d with pend := false } with
      reserved := served.reserved.filter fun r => r.queue ≠ 5 } = true := by decide +kernel

/-- A launch of another queue that ends on the core, and a head that may be staged behind it. -/
def first : Launch := ⟨9, 6, [0, 1, 2, 3], [], 0, 0x8000, 0, 0x1000, 1⟩
def staging : State :=
  { queued 0x40411 descriptor with
    launches := [first]
    others := [1, 2, 3].map fun k => (k, ({ id := k, run := .running, launch := some 9 } : Hart))
    hart.launch := some 9 }

theorem witness_LaunchPath_staging :
    (staging.stageOn 5 first).map (·.2) = some [0] ∧ exactly (exec (.commandScan 0 false) staging) staging = true
    ∧ (headCommand staging).map (fun c => value c.read staging) = some (some [])
    ∧ (next (exec (.commandScan 0 true) staging)).map (fun t => ((t.queue 5).stg, t.stagings))
      = some (true, [⟨5, 9, 6, [0], 0x8000, 0, false, false⟩]) := by decide +kernel

/-- A hart of a launch at address 0, at U. -/
def ending : State :=
  { start with
    hart.launch := some 9
    hart.priv := .user
    hart.pc := 0
    hart.x := start.hart.x.set 10 6
    hart.flags := 3
    launches := [{ first with harts := [0], completion := 0x3000 }] }
theorem witness_LaunchPath_end :
    ending.hart.latch = none ∧ ending.hart.buffer = [] ∧ ending.hart.pairs = [] ∧ ending.hart.reassembly = [] ∧ ending.copies = []
    ∧ (next (exec .hartEnd ending)).map (fun t => (t.hart.run == .idle, t.vlg, t.launches)) = some (true, 0, [{ first with
      harts := [0]
      completion := 0x3000
      ended := [(0, 6)] }])
    ∧ (next (exec .hartEnd { ending with hart.ctxarea := 0x20001 })).map (·.home64 (.glob 0x20000)) = some 3 := by decide +kernel

theorem witness_LaunchPath_completion :
    let s := { start with launches := [{ first with ended := [(0, 0), (1, 6), (2, 5), (3, 0)], completion := 0x3000 }] }
    exactly (exec (.launchCompletion 9) s) (({ s with launches := [] } : State).setHome64 (.glob 0x3000) (statusWord 5 5 0 2).toNat) = true := by
  decide +kernel

theorem witness_LaunchPath_groups :
    queueing.canonical ∧ failing.canonical ∧ ending.canonical ∧ ending.ownTrains = [] ∧ ending.copiesOf 0 = []
    ∧ (∀ i, i < 8 → 0x3000 + i < 0x10000) ∧ ((headCommand queueing).bind fun c => queueing.placing 5 c (fun _ => false) true) = some [(1, [1])]
    ∧ (next (exec (.launch 5) queueing)).map (fun t => ((t.coreAt 0).lat.toList.getD 1 none)) = some (some 1) := by
  unfold State.canonical; decide +kernel

/-! ### The fabric and the module -/

/-- One flit from stop 3 to stop 25, for which hart 0 waits. -/
def flit : Flit :=
  { id := 1, stop := 3, dest := 25, cls := 0, age := 7, source := 3, seq := 0, hart := 0, ep := 0, die := 1, addr := 0, crc := true, again := false,
    waiting := none, cargo := .wait }
def flying (f : Flit) : State := { start with
    flits := [f]
    hart.stall := some { kind := 0, object := 0, deadline := 0 } }

theorem witness_FabricEvents :
    let bad : Flit := { flit with stop := 25, crc := false }
    let holding : Flit := { flit with waiting := some 5 }
    exactly (exec (.flitArrival 25) (flying { flit with stop := 25 })) { flying flit with flits := [] } = true
    ∧ exactly (exec (.flitArrival 25) (flying bad))
      { flying flit with flits := [{ bad with again := true, crc := true, age := 0, stop := 3, waiting := some 0 }] } = true
    ∧ next (exec (.flitArrival 25) (flying { bad with cls := 1, cargo := .store 3 }))
      = next (exec (.nackReceived 0 3) { flying flit with flits := [] })
    ∧ (flying flit).flits = [flit] ∧ flit.stop = 3 ∧ flit.dest ≠ 3 ∧ hops 13 25 + 1 = hops 3 25 ∧ (flying holding).withheld = []
    ∧ exactly (exec (.flitArrival 3) { flying holding with withheld := [3] }) { flying holding with
      withheld := [3]
      flits := [{ flit with waiting := some 6 }]
      hart.injTotal := (flying holding).hart.injTotal + 1 } = true
    ∧ exactly (exec (.injectionPriority 3) (flying { flit with waiting := some 1024 })) { flying { flit with waiting := some 1024 } with
      withheld := (neighbours 3).dedup } = true
    ∧ (next (exec (.injthrWindow 900) start)).map (fun t => (t.hart.injWin, (t.hartAt 3).injWin)) = some (900, 900) := by decide +kernel

/-- A stalled scalar instruction whose flit is dropped, and a store whose flit is. -/
theorem witness_FabricEvents_dropped :
    let old := flying { flit with age := 1023 }
    let starved := flying { flit with waiting := some 65536 }
    let store := { flying { flit with age := 1023, cargo := .store 3, ep := 5 } with posted := [⟨0, 0x500000000000, [7], 3, 0⟩] }
    old.part.traceSize = 0 ∧ exactly (exec (.ageBoundExceeded 1) old) { old.trapEntry 71 (epDie 0 1) 0 0x1000 false with flits := [] } = true
    ∧ (next (exec (.injectionStarved 1) starved)).map (fun t => (t.hart.cause, t.hart.tval, t.flits)) = some (73, epDie 0 1, [])
    ∧ exactly (exec (.ageBoundExceeded 1) store) { store with flits := [], posted := [], hart.latch := some ⟨71, 5, 1, 0⟩ } = true := by decide +kernel

/-- R405, R406: a store on its way to endpoint 5. -/
def replaying (w : Window) : State :=
  { start with
    now := 1000
    windows := [(5, w)]
    posted := [⟨0, 0x500000000000, [7], 3, 0⟩] }
theorem witness_FabricEvents_replay :
    let s := replaying ⟨2, some 3, 500⟩
    let t := replaying ⟨s.limit, some 3, 500⟩
    s.ports = [] ∧ s.leases = [] ∧ s.trains = [] ∧ (∀ h ∈ s.harts, h.reassembly = [] ∧ h.late = none ∧ h.overflow = [] ∧ h.wait = none)
    ∧ exactly (exec (.nackReceived 5 3) s) { s with windows := [(5, ⟨3, some 3, 1000 + min (s.bmin * 4) s.bmax⟩)] } = true
    ∧ exactly (exec (.nackReceived 5 3) t) { t with windows := [], posted := [], exhausted := [5], hart.lost := [(5, 0)] } = true
    ∧ exactly (exec (.replayBackoffExpiry 5) s) { s with windows := [(5, ⟨2, some 3, 0⟩)] } = true
    ∧ exactly (exec (.ackReceived 5 3) { s with exhausted := [5] })
      { s with windows := [], posted := [], mem := start.mem.writeN 0x500000000000 [7] } = true
    ∧ exactly (exec (.endpointDownReport 5) s) { s with windows := [], posted := [], down := [5], hart.lost := [(5, 0)] } = true := by decide +kernel

/-- R405, R105: a train of hart 0 to endpoint 5 is lost. R406: a lease of the memory of endpoint 5. -/
theorem witness_FabricEvents_lost :
    let x : TrainItem := { pos := 3, loc := .glob 0x500000000000, data := [7] }
    let tr : Train := { hart := some 0, ep := 5, die := 1, lowest := 3, items := [x], head := 0x1000, lcnt := 4 }
    let s := { replaying ⟨(replaying {}).limit, some 3, 500⟩ with trains := [tr] }
    let l := { replaying {} with leases := [lent .active] }
    s.others = [] ∧ s.hart.run = .running ∧ s.hart.undo = none ∧ s.part.traceSize = 0 ∧ tr.complete = false ∧ tr.loose = false
    ∧ (∀ h ∈ s.harts, h.reassembly = [] ∧ h.late = none ∧ h.overflow = [])
    ∧ (next (exec (.nackReceived 5 3) s)).map (fun t => (t.hart.cause, t.hart.tval, t.hart.vstart, t.hart.lcnt, t.hart.status.cvr))
      = some (43, epDie 5 1, 3, 4, true)
    ∧ (∀ h ∈ l.harts, h.wait = none) ∧ l.trains = [] ∧ (lent .active).takes = true
    ∧ (next (exec (.endpointDownReport 5) l)).map (fun t => (t.leases, t.hart.pending, t.down)) = some ([lent .lost], [⟨75, 7, 0⟩], [5]) := by
  decide +kernel

/-- R397: the requests that a stop injects, by class, at a stop on the die of the home; and one that is not under way. -/
theorem witness_FabricEvents_classes :
    let s : State := { start with
      copies := [{ oneByte with len := 4096 }, oneByte]
      posted := [⟨0, 0x500000000000, [7], 3, 0⟩]
      leases := [lent .racking]
      hart.members := [member]
      hart.wait := some { cask := some caskAt, deadline := 2000 } }
    let adds := fun (p : Packet) (n : Nat) => s.packetExists p && gives (step { s with agenda := [.packet p 5] }) fun t =>
      t.flits.map (fun f => (f.cls, f.dest, f.waiting)) == [(n, 5, some 0)]
    decide (s.thermal = .down) = false ∧ stopDie 5 = 0 ∧ adds .cask 0 = true ∧ adds (.store 0) 1 = true ∧ adds (.collective 257) 1 = true
    ∧ adds (.copy 0) 2 = true ∧ adds (.copy 1) 1 = true ∧ adds (.rack 0) 2 = true ∧ adds (.answer 5 1) 0 = true ∧ adds (.response 64) 1 = true
    ∧ s.packetExists (.train 0) = false
    ∧ (next (step { s with agenda := [.packet (.train 0) 5] })).map (·.flits) = some [] := by decide +kernel

/-- R409, R410: a port with its first slots in use. -/
def port : Port := { up := true, send := #v[⟨true, 9, 0, 0⟩, {}], recv := #v[⟨true, 4, 0, 0⟩, ⟨true, 1, 0, 0⟩], cargo := .wait }
def linked (p : Port) : State := { start with ports := [(2, p)], hart.stall := some { kind := 0, object := 0, deadline := 0 } }
theorem witness_FabricEvents_links :
    let s := linked port
    let lost : Port := { port with discarding := true, awaits := some false }
    s.part.traceSize = 0
    ∧ exactly (exec (.frameReceive 2 ⟨false, 4, false, true⟩) s) (linked { port with recv := #v[⟨true, 5, 0, 0⟩, ⟨true, 1, 0, 0⟩] }) = true
    ∧ exactly (exec (.frameReceive 2 ⟨true, 1, true, true⟩) s) (linked { port with recv := #v[{}, ⟨true, 2, 0, 0⟩], rxActive := true }) = true
    ∧ exactly (exec (.frameReceive 2 ⟨false, 7, false, true⟩) s) { linked lost with replies := [.nack 2] } = true
    ∧ exactly (exec (.frameReceive 2 ⟨false, 7, false, true⟩) (linked lost)) (linked lost) = true
    ∧ exactly (exec (.frameReceive 2 ⟨true, 1, true, true⟩) (linked lost)) (linked lost) = true
    ∧ exactly (exec (.frameReceive 2 ⟨false, 4, false, true⟩) (linked lost)) (linked { port with recv := #v[⟨true, 5, 0, 0⟩, ⟨true, 1, 0, 0⟩] }) = true
    ∧ exactly (exec (.linkNack 2) s) (linked { port with resends := 1 }) = true
    ∧ exactly (exec (.linkNack 2) (linked { port with resends := 3 })) ((linked { port with up := false }).trapEntry 66 (epDie 0 0) 0 0x1000 false) = true := by
  decide +kernel
theorem witness_FabricEvents_keys :
    (next (exec (.keySwitchover 2) (linked port))).map (fun t => ((t.port 2).active, (t.port 2).send.map (·.counter), t.clock))
      = some (true, #v[(linked port).keyLim - (linked port).keyMargin, 1], 1)
    ∧ (∀ h ∈ (linked port).harts, h.wait = none ∧ h.reassembly = [] ∧ h.late = none ∧ h.toFlush = [])
    ∧ exactly (exec (.linkKeyExhausted 2) (linked port)) (linked { port with
      up := false
      send := #v[⟨true, (linked port).keyLim, 0, 0⟩, {}] }) = true := by decide +kernel

/-- R415: the replays give the greatest score. -/
theorem witness_ModuleEvents_risk :
    (next (exec (.riskUpdate 1 100 20 0) start)).map (·.risk) = some (word (2 * 2 ^ 16 + 1600))
    ∧ (next (exec (.riskUpdate 1 100 20 0) { start with hart.riskthr := 0x10010, hart.riskArmed := true })).map (fun t => (t.hart.pending, t.hart.riskArmed))
      = some ([⟨82, 1600, 0⟩], false) := by decide +kernel

def recovering (v : Vintage) : State := { start with recovery := some ⟨[1, 2], [8], [3, 4, 5], 0x3000, 4, v, [], []⟩ }
theorem witness_ModuleEvents_recovery :
    (next (exec (.failureDetectionWindow [2]) (recovering .steady))).map (fun t => (t.recovery, t.home64 (.glob 0x3000)))
      = some (some ⟨[1, 2], [8], [3, 4, 5], 0x3000, 5, .filling, [2], []⟩, 5 + 2 * 2 ^ 32)
    ∧ (next (exec .spareFilled (recovering .filling))).map (fun t => (t.recovery, t.home64 (.glob 0x3000)))
      = some (some ⟨[1, 2], [8], [3, 4, 5], 0x3000, 4, .steady, [], []⟩, 4 + 2 ^ 32) := by decide +kernel

/-- R427, R428: a bring-up with one boot image, and with none. -/
def bringing (a : Bool) : BringUp := ⟨a, false, true, [], [], [0], [0], 9, 500, [], 0⟩
theorem witness_ModuleEvents_bringUp :
    (next (exec (.powerGood (bringing true)) start)).map (fun t => (t.boot.ready, t.boot.mailbox, t.endpt, t.now, t.locked)) = some (true, 0, 9, 500, true)
    ∧ (next (exec (.powerGood (bringing false)) start)).map (fun t => (t.boot.ready, t.boot.mailbox)) = some (false, 1)
    ∧ (next (exec (.attestationRequest 7) { start with boot := { start.boot with ready := true } })).isSome = true := by decide +kernel

theorem witness_ModuleEvents :
    let s := { start with part := { start.part with powerNotify := [0] } }
    exactly (exec (.slewLimit 250) s) s = true ∧ 4 * 250 ≤ 5 * s.slew.toNat
    ∧ exactly (exec (.slewLimit 251) s) { s with hart.pending := [⟨91, 251, 0⟩] } = true
    ∧ exactly (exec (.thermal 950) s) { s with thermal := .everyDie, hart.pending := [⟨92, 950, 0⟩] } = true
    ∧ exactly (exec (.thermal 930) s) { s with thermal := .hottestDie } = true
    ∧ (next (exec (.thermal 1050) s)).map (fun t => (t.thermal == .down, t.hart.run == .halted, match step t with | .fault f => f == .poweredDown | _ => false))
      = some (true, true, true)
    ∧ exactly (exec .thermalLimitLift { s with thermal := .everyDie }) { s with thermal := .hottestDie } = true
    ∧ exactly (exec .thermalLimitLift { s with thermal := .hottestDie }) s = true
    ∧ exactly (exec .timeBaseLost { s with locked := true }) { s with locked := false } = true
    ∧ (next (exec .matrixIdle s)).map (fun t => (t.coreAt 0).mxIdle) = some true := by decide +kernel

end Sys2Proof.Tests
end

section
/-! SUPPORT. Words as numbers, trace records, and the entry of a trap (R340, R425): what every instruction that traps leaves. -/

namespace Sys2Proof.Machine

/-! ### Words as numbers -/

/-- The bits of a word from bit 0 on, as a number. -/
theorem bits_low (v : Word) (n : Nat) : bits v n 0 = v.toNat % 2 ^ (n + 1) := by
  simp [bits]

/-- The bits of a word from bit 0 on are the word cut to their width. -/
theorem ofNat_bits_low (v : Word) (n : Nat) : BitVec.ofNat (n + 1) (bits v n 0) = v.setWidth (n + 1) := by
  apply BitVec.eq_of_toNat_eq
  simp [bits]

/-- The same as a word again. -/
theorem word_bits_low (v : Word) (n : Nat) : word (bits v n 0) = (v.setWidth (n + 1)).setWidth 64 := by
  apply BitVec.eq_of_toNat_eq
  simp [bits]

/-- A shorter bit vector as a word. -/
theorem word_toNat {n : Nat} (v : BitVec n) : word v.toNat = v.zeroExtend 64 := by
  apply BitVec.eq_of_toNat_eq
  simp

/-- A bit of a word (R3). -/
theorem bitOf_eq_getLsbD (w : Word) (i : Nat) : bitOf w i = w.getLsbD i := by
  rw [bitOf, BitVec.getLsbD, Nat.testBit_eq_decide_div_mod_eq, beq_eq_decide]

/-- Reserved bits are masked off (R4). -/
theorem keep_eq_and (v : Word) (m : Nat) : keep v m = v &&& word m := by
  apply BitVec.eq_of_getLsbD_eq
  intro i hi
  simp [keep, hi]

/-- A word whose `k` low bits are taken from another one. -/
theorem word_low_replaced (v y : Word) (k : Nat) :
    word (v.toNat / 2 ^ k * 2 ^ k + y.toNat % 2 ^ k) = (v &&& ~~~(word (2 ^ k - 1))) ||| (y &&& word (2 ^ k - 1)) := by
  apply BitVec.eq_of_getLsbD_eq
  intro i hi
  have low : (word (2 ^ k - 1)).getLsbD i = decide (i < k) := by
    rw [BitVec.getLsbD_ofNat, Nat.testBit_two_pow_sub_one]; simp [hi]
  rw [Nat.mul_comm, BitVec.getLsbD_ofNat, Nat.testBit_two_pow_mul_add _ (Nat.mod_lt _ (Nat.two_pow_pos k)),
    BitVec.getLsbD_or, BitVec.getLsbD_and, BitVec.getLsbD_and, BitVec.getLsbD_not, low]
  by_cases h : i < k
  · simp [hi, h, Nat.testBit_mod_two_pow, BitVec.getLsbD]
  · simp [hi, h, Nat.testBit_div_two_pow, BitVec.getLsbD, Nat.sub_add_cancel (Nat.le_of_not_lt h)]

/-- A multiple of 4 (R331, R340). -/
theorem word_div_four (v : Word) : word (v.toNat / 4 * 4) = v &&& ~~~3 := by
  have h := word_low_replaced v 0 2
  rw [show (0 : Word) = 0#64 from rfl, BitVec.zero_and, BitVec.or_zero] at h
  exact h

/-! ### Traps (R340, R425) -/

/-- The state with another memory, another state of the partition and other pending causes of its hart: all that a trace record
may change (R425). -/
def State.ringed (s : State) (m : Memory) (q : Partition) (p : List Trap) : State :=
  { s with
    mem := m
    part := q
    hart.pending := p }

/-- The partition changed once more. -/
theorem State.ringed_part (s : State) (m : Memory) (q r : Partition) (p : List Trap) :
    { s.ringed m q p with part := r } = s.ringed m r p := rfl

/-- A post to the current hart changes its pending causes alone. -/
theorem State.post_self (s : State) (t : Trap) :
    s.post s.hart.id t = s.ringed s.mem s.part (if t ∈ s.hart.pending then s.hart.pending else s.hart.pending ++ [t]) := by
  by_cases h : t ∈ s.hart.pending <;> simp only [State.post, State.modHart, State.ringed, h, if_true, if_false]

/-- A lost record changes no more (R425). -/
theorem State.loseTrace_ringed (s : State) : ∃ q p, s.loseTrace = s.ringed s.mem q p := by
  unfold State.loseTrace
  dsimp only
  by_cases h : s.part.traceLost = 0
  · rw [if_pos h]
    exact ⟨_, _, State.post_self _ _⟩
  · rw [if_neg h]
    exact ⟨{ s.part with traceLost := s.part.traceLost + 1 }, s.hart.pending, rfl⟩

/-- A record put into the ring changes memory and the ring (R425). -/
theorem State.putTrace_ringed (s : State) (bs : List Byte) :
    s.putTrace bs = s.ringed (s.mem.writeN (s.part.traceBase + 32 * s.part.traceNext) bs)
      { s.part with traceUsed := s.part.traceUsed + 1, traceNext := (s.part.traceNext + 1) % s.part.traceSize }
      s.hart.pending := rfl

/-- So does the record of those lost. -/
theorem State.noteLost_ringed (s : State) (head : Word) : ∃ m q, s.noteLost head = s.ringed m q s.hart.pending := by
  unfold State.noteLost
  by_cases h : (s.part.traceLost = 0 || s.part.traceSize ≤ s.part.traceUsed) = true
  · rw [if_pos h]
    exact ⟨s.mem, s.part, rfl⟩
  · rw [if_neg h, s.putTrace_ringed]
    exact ⟨_, _, State.ringed_part ..⟩

/-- A trace record changes memory, the trace ring of the partition and the pending causes of the hart alone (R425). -/
theorem State.trace_ringed (s : State) (kind : Nat) (head : Word) (members value : Nat) :
    ∃ m q p, s.trace kind head members value = s.ringed m q p := by
  unfold State.trace
  by_cases h : s.part.traceSize = 0
  · rw [if_pos h]
    exact ⟨s.mem, s.part, s.hart.pending, rfl⟩
  · rw [if_neg h]
    obtain ⟨m, q, hn⟩ := s.noteLost_ringed head
    dsimp only
    rw [hn]
    by_cases hf : (s.ringed m q s.hart.pending).part.traceSize ≤ (s.ringed m q s.hart.pending).part.traceUsed
    · rw [if_pos hf]
      obtain ⟨q', p, hl⟩ := (s.ringed m q s.hart.pending).loseTrace_ringed
      exact ⟨_, q', p, hl⟩
    · rw [if_neg hf]
      exact ⟨_, _, _, State.putTrace_ringed _ _⟩

/-- With tracing off there is no record (R425). -/
theorem State.trace_off (s : State) (kind : Nat) (head : Word) (members value : Nat) (h : s.part.traceSize = 0) :
    s.trace kind head members value = s := by
  rw [State.trace, if_pos h]

/-- `CAUSE` has its top bit for an asynchronous cause (R340). -/
theorem trapCause_eq (code : Nat) :
    word ((if (decide (74 ≤ code) && decide (code ≤ 95)) = true then 2 ^ 63 else 0) + code)
      = if 74 ≤ code ∧ code ≤ 95 then 0x8000000000000000 + .ofNat 64 code else .ofNat 64 code := by
  by_cases h : 74 ≤ code ∧ code ≤ 95
  · simp [h, BitVec.ofNat_add]
  · rw [if_neg (by simpa using h), if_neg h, Nat.zero_add]

/-- MODE 1 of `TVEC` sends an asynchronous cause to an entry of its own (R340). -/
theorem vectored_iff (tvec : Word) (code : Nat) :
    (decide (tvec.toNat % 4 = 1) && (decide (74 ≤ code) && decide (code ≤ 95))) = true
      ↔ tvec &&& 3 = 1 ∧ 74 ≤ code ∧ code ≤ 95 := by
  have h : tvec.toNat % 4 = 1 ↔ tvec &&& 3 = 1 := by
    rw [← BitVec.toNat_inj, BitVec.toNat_and]
    exact iff_of_eq (congrArg (· = 1) (Nat.and_two_pow_sub_one_eq_mod tvec.toNat 2).symm)
  simp [h]

/-- A trap entry without its trace record is that of R340. -/
theorem State.enterTrap_of_trace (s : State) (t : Trap) (epc : Word) (cvr : Bool) (m : Memory) (q : Partition) (p : List Trap)
    (h : s.trace 3 epc s.hart.words t.code = s.ringed m q p) :
    s.enterTrap t epc cvr = (s.trapEntry t.code t.tval t.tval2 epc cvr).ringed m q p := by
  have hepc := word_div_four epc
  have hbase := word_div_four s.hart.tvec
  unfold State.enterTrap State.trapEntry
  dsimp only
  rw [h, hepc, hbase, trapCause_eq, if_congr (vectored_iff s.hart.tvec t.code) rfl rfl, beq_eq_decide]
  rfl

/-- A trap of the current hart that lands at `epc` (R340). -/
theorem State.enterTrap_trapsAt (s : State) (t : Trap) (epc : Word) (cvr : Bool) :
    s.trapsAt (s.enterTrap t epc cvr) t.code t.tval t.tval2 epc cvr := by
  obtain ⟨m, q, p, h⟩ := s.trace_ringed 3 epc s.hart.words t.code
  have he := s.enterTrap_of_trace t epc cvr m q p h
  refine ⟨by rw [he]; rfl, fun hoff => ?_⟩
  rw [s.enterTrap_of_trace t epc cvr s.mem s.part s.hart.pending (s.trace_off 3 epc s.hart.words t.code hoff)]
  rfl

/-- A trap that lands at the instruction itself (R344). -/
theorem State.raise_traps (s : State) (code : Nat) (tval tval2 : Word) : s.traps (s.raise ⟨code, tval, tval2⟩) code tval tval2 :=
  s.enterTrap_trapsAt ⟨code, tval, tval2⟩ s.hart.pc false

end Sys2Proof.Machine
end

section
/-! SUPPORT. What a write of each control register stores (R177), register by register. -/

namespace Sys2Proof.Machine

/-! ### What a write of a control register stores -/

/-- RM joins the other fields of `FRM` as the three bits below them (R38). -/
theorem frm_joined (v : Word) (y : BitVec 15) :
    BitVec.ofNat 15 ((v.toNat &&& 0x7F08) + y.toNat % 8) = (v.setWidth 15 &&& 0x7F08) ||| (y &&& 7) := by
  have h8 : v.toNat &&& 0x7F08 = 2 ^ 3 * ((v.toNat &&& 0x7F08) / 2 ^ 3) := by
    rw [Nat.mul_div_cancel']
    apply Nat.dvd_of_mod_eq_zero
    rw [← Nat.and_two_pow_sub_one_eq_mod, Nat.and_assoc]
    simp
  rw [h8, Nat.two_pow_add_eq_or_of_lt (Nat.mod_lt _ (by decide)), ← h8]
  apply BitVec.eq_of_toNat_eq
  rw [← Nat.and_two_pow_sub_one_eq_mod y.toNat 3]
  simp

/-- `FRM` (R38). -/
theorem State.storeFrm_eq (s : State) (v : Word) :
    s.storeFrm v = { s with hart.frm := (v.setWidth 15 &&& 0x7F08)
      ||| ((if 6 ≤ v.toNat % 8 then s.hart.frm else v.setWidth 15) &&& 7) } := by
  refine congrArg (fun f => ({ s with hart.frm := f } : State)) ?_
  have hb : bits v 2 0 = v.toNat % 8 := by simp [bits]
  have hm : (v.setWidth 15).toNat % 8 = v.toNat % 8 := by
    rw [BitVec.toNat_setWidth]; omega
  rw [hb, frmRM, ← frm_joined]
  by_cases h : 6 ≤ v.toNat % 8
  · rw [if_pos (by omega), if_pos h]
  · rw [if_neg (by omega), if_neg h, hm]

/-- `SRSEED` (R41). -/
theorem State.storeSrseed_eq (s : State) (v : Word) :
    s.storeSrseed v = { s with hart.srseed := if v.setWidth 32 = 0 then 1 else v.setWidth 32 } := by
  have h : bits v 31 0 = 0 ↔ v.setWidth 32 = 0 := by
    rw [← BitVec.toNat_inj]; simp [bits]
  rw [State.storeSrseed, ofNat_bits_low, if_congr h rfl rfl]

/-- `VROW` (R181, R185). -/
theorem State.storeVrow_eq (s : State) (v : Word) :
    s.storeVrow v.toNat = { s with hart.vrow := if v = 1 ∨ v = 2 ∨ v = 4 ∨ v = 8 then v.toNat else s.hart.vrow } := by
  have h : (v.toNat = 1 || v.toNat = 2 || v.toNat = 4 || v.toNat = 8) = true ↔ v = 1 ∨ v = 2 ∨ v = 4 ∨ v = 8 := by
    simp [← BitVec.toNat_inj, or_assoc]
  rw [State.storeVrow, if_congr h rfl rfl]
  by_cases hv : v = 1 ∨ v = 2 ∨ v = 4 ∨ v = 8
  · rw [if_pos hv, if_pos hv]
  · rw [if_neg hv, if_neg hv]

/-- `VL` (R12, R181). -/
theorem State.storeVl_eq (s : State) (v : Word) :
    s.storeVl v = { s with
      hart.vl := if s.vlg = 0 ∨ s.hart.stale = true then 0 else min (v.toNat % 2 ^ 32) s.hart.maxvl } := by
  refine congrArg (fun n => ({ s with hart.vl := n } : State)) ?_
  simp [bits]

/-- The loop registers (R173). -/
theorem State.storeLoop_eq (s : State) (v : Word) :
    s.storeLoop .lcnt v = { s with hart.lcnt := v }
      ∧ s.storeLoop .lbeg v = { s with hart.lbeg := v &&& ~~~3 }
      ∧ s.storeLoop .lend v = { s with hart.lend := v &&& ~~~(if s.hart.priv = .super then 2 else 3) } := by
  refine ⟨rfl, congrArg (fun n => ({ s with hart.lbeg := n } : State)) (keep_eq_and ..),
    congrArg (fun n => ({ s with hart.lend := n } : State)) ?_⟩
  rw [keep_eq_and]
  by_cases h : s.hart.priv = .super
  · rw [if_pos h, if_pos h]; rfl
  · rw [if_neg h, if_neg h]; rfl

/-- `TVEC` (R324). -/
theorem State.storeTvec_eq (s : State) (v : Word) :
    s.storeTvec v = { s with hart.tvec := (v &&& ~~~3) ||| ((if 2 ≤ v.toNat % 4 then s.hart.tvec else v) &&& 3) } := by
  refine congrArg (fun n => ({ s with hart.tvec := n } : State)) ?_
  by_cases h : 2 ≤ v.toNat % 4
  · rw [if_pos h, if_pos (show 1 < v.toNat % 4 from h)]
    exact word_low_replaced v s.hart.tvec 2
  · rw [if_neg h, if_neg (show ¬ 1 < v.toNat % 4 from h)]
    exact word_low_replaced v v 2

/-- A write that is no more than an update of the state. -/
theorem modify_go_eq {f : State → State} {s t : State} (h : f s = t) : (modify f : M PUnit).go s = (.ok (), t) := by
  rw [M.go_modify, h]

/-- What a write of a user register stores (R177, R181). -/
theorem storeUser_go (s : State) (v : Word) : ∀ q ∈ userStores, (storeUser q.1 v).go s = (.ok (), q.2 s v) := by
  simp only [userStores, List.forall_mem_cons, List.not_mem_nil, false_implies, implies_true, and_true]
  refine ⟨modify_go_eq (s.dirtyV.storeVl_eq v), modify_go_eq (s.dirtyV.storeVrow_eq v), modify_go_eq ?_, modify_go_eq ?_,
    modify_go_eq ?_, modify_go_eq (s.storeFrm_eq v), modify_go_eq (s.storeSrseed_eq v),
    modify_go_eq (s.storeLoop_eq v).1, modify_go_eq (s.storeLoop_eq v).2.1, modify_go_eq (s.storeLoop_eq v).2.2,
    modify_go_eq ?_, modify_go_eq ?_, modify_go_eq ?_, modify_go_eq ?_, modify_go_eq ?_⟩
  · exact congrArg (fun n => ({ s.dirtyV with hart.vstart := n } : State)) (bits_low v 31)
  · exact congrArg (fun n => ({ s.dirtyV with hart.vcthr := n } : State)) (bits_low v 31)
  · exact congrArg (fun n => ({ s with hart.flags := n } : State)) (ofNat_bits_low v 6)
  · exact congrArg (fun n => ({ s with hart.defdl := n } : State)) (ofNat_bits_low v 47)
  · exact congrArg (fun n => ({ s with hart.cgrp0 := n } : State)) (word_bits_low v 51)
  · exact congrArg (fun n => ({ s with hart.cgrp1 := n } : State)) (word_bits_low v 38)
  · exact congrArg (fun n => ({ s with hart.cop := n } : State)) (ofNat_bits_low v 6)
  · exact congrArg (fun n => ({ s with hart.cstride := n } : State)) (ofNat_bits_low v 31)

/-- `MAXWAIT` at S (R112). -/
theorem storeMaxwait_go (s : State) (v : Word) (h : s.hart.priv = .super) :
    (storeMaxwait v).go s = (.ok (), { s with hart.maxwait := .ofNat 48 (min (v.toNat % 2 ^ 48) 60000000000) }) := by
  simp only [storeMaxwait, M.go_bind, M.go_get, M.go_checkM, h, decide_true, if_true, M.go_modify, bits_low]

/-- `MAXWAIT` at U (R112). -/
theorem storeMaxwait_user (s : State) (v : Word) (h : s.hart.priv = .user) :
    (storeMaxwait v).go s = (.error (.trap ⟨6, 0x011, 0⟩), s) := by
  simp [storeMaxwait, h]

/-- What a write at S stores in `MAXWAIT` and in the privileged registers that hold what is stored (R112, R322 to R329). -/
theorem storeCr_super_go (s : State) (v c : Word) (h : s.hart.priv = .super) :
    ∀ q ∈ superStores, (storeCr q.1 v c).go s = (.ok (), q.2 s v) := by
  simp only [superStores, List.forall_mem_cons, List.not_mem_nil, false_implies, implies_true, and_true]
  refine ⟨storeMaxwait_go s v h, modify_go_eq (s.storeTvec_eq v), modify_go_eq ?_, modify_go_eq ?_, modify_go_eq rfl,
    modify_go_eq rfl, modify_go_eq rfl, modify_go_eq ?_, modify_go_eq ?_, modify_go_eq ?_, modify_go_eq ?_,
    modify_go_eq ?_, modify_go_eq ?_⟩
  · exact congrArg (fun n => ({ s with hart.epc := n } : State)) (keep_eq_and v _)
  · exact congrArg (fun n => ({ s with hart.cause := n } : State)) (keep_eq_and v _)
  · exact congrArg (fun n => ({ s.dropL1 with hart.ptb := n } : State)) (keep_eq_and v _)
  · exact congrArg (fun n => ({ s with hart.ctxarea := n } : State)) (keep_eq_and v _)
  · exact congrArg (fun n => ({ s with taghist := n, tagIndex := 0 } : State)) (keep_eq_and v _)
  · exact congrArg (fun n => ({ s with hart.riskthr := n, hart.riskArmed := true } : State)) (ofNat_bits_low v 16)
  · exact congrArg (fun n => ({ s with stagger := .ofNat 16 (min n 50000) } : State)) (bits_low v 15)
  · exact congrArg (fun n => ({ s with shape := n } : State)) (ofNat_bits_low v 23)

/-- A write of a user register that a program may write (R177). -/
theorem storeCr_user_go (s : State) (v c : Word) : ∀ q ∈ userStores, (storeCr q.1 v c).go s = (.ok (), q.2 s v) := by
  intro q hq
  have hlt : ∀ q ∈ userStores, q.1 < 0x100 := by
    simp only [userStores, List.forall_mem_cons, List.not_mem_nil, false_implies, implies_true, and_true]
    decide
  rw [storeCr, if_pos (hlt q hq)]
  exact storeUser_go s v q hq

/-! ### Registers with effects of their own -/

/-- `STATUS` (R323). -/
theorem State.storeStatus_eq (s : State) (v : Word) : s.storeStatus v = s.statusStored v := by
  unfold State.storeStatus State.clearInitial State.statusStored
  by_cases h1 : (Status.ofWord v).vs = .initial <;> by_cases h2 : (Status.ofWord v).ts = .initial <;>
    by_cases h3 : (Status.ofWord v).ls = .initial <;> simp only [h1, h2, h3, if_true, if_false] <;> rfl

/-- The time that `SLICE` names, and whether it names one, are of the value written (R329). -/
theorem slice_fields (v : Word) :
    bits (v &&& 0x8000FFFFFFFFFFFF) 47 0 = v.toNat % 2 ^ 48 ∧ bitOf (v &&& 0x8000FFFFFFFFFFFF) 63 = v.getLsbD 63 := by
  refine ⟨?_, by rw [bitOf_eq_getLsbD]; simp⟩
  rw [bits_low, BitVec.toNat_and]
  apply Nat.eq_of_testBit_eq
  intro i
  rw [Nat.testBit_mod_two_pow, Nat.testBit_mod_two_pow, Nat.testBit_and]
  by_cases h : i < 48
  · have set : Nat.testBit 0x8000FFFFFFFFFFFF i = true := by interval_cases i <;> rfl
    simp [set]
  · simp [h]

/-- `SLICE` (R329). -/
theorem State.storeSlice_eq (s : State) (v : Word) : s.storeSlice v = s.sliceStored v := by
  obtain ⟨htime, hset⟩ := slice_fields v
  have hkeep : keep v 0x8000FFFFFFFFFFFF = v &&& 0x8000FFFFFFFFFFFF := keep_eq_and v _
  unfold State.storeSlice State.sliceStored sliceDue
  dsimp only
  rw [hkeep, htime, hset]
  by_cases h : v.getLsbD 63 = true ∧ v.toNat % 2 ^ 48 ≤ s.now.toNat
  · rw [if_pos h, if_pos h, if_pos (by simpa using h)]
  · rw [if_neg h, if_neg h, if_neg (by simpa using h)]

/-- `PREEMPT` (R177, R329). -/
theorem State.storePreempt_eq (s : State) (v w : Word) : s.storePreempt v w = s.preemptStored v w := by
  unfold State.storePreempt State.preemptStored
  dsimp only
  rw [bitOf_eq_getLsbD, bitOf_eq_getLsbD]
  cases w.getLsbD 1 <;> rfl

/-- `VTYPE` (R12). -/
theorem State.storeVtype_eq (s : State) (v : Word) : s.dirtyV.storeVtype v = s.vtypeStored v := by
  have hr : bits v 6 5 ≠ bits s.dirtyV.hart.vtype 6 5 ↔ v.toNat / 32 % 4 ≠ s.hart.vtype.toNat / 32 % 4 := Iff.rfl
  have he : bits v 4 0 ≠ s.dirtyV.hart.et ↔ v.toNat % 32 ≠ s.hart.vtype.toNat % 32 := by
    rw [Hart.et, bits_low, bits_low]; exact Iff.rfl
  unfold State.storeVtype State.vtypeStored
  dsimp only
  rw [if_congr hr rfl (if_congr he rfl rfl)]
  by_cases h1 : v.toNat / 32 % 4 ≠ s.hart.vtype.toNat / 32 % 4
  · rw [if_pos h1, if_pos h1]; rfl
  · rw [if_neg h1, if_neg h1]
    by_cases h2 : v.toNat % 32 ≠ s.hart.vtype.toNat % 32
    · rw [if_pos h2, if_pos h2]; rfl
    · rw [if_neg h2, if_neg h2]; rfl

end Sys2Proof.Machine
end

section
/-! SUPPORT. The writes of registers as events. -/

namespace Sys2Proof.Machine

/-! ### The writes as events -/

/-- A write as an event whose store meets no check. -/
theorem State.storeEvent_of_go (s : State) (m : M Unit) (t : State) (h : m.go s = (.ok (), t)) : s.storeEvent m = t :=
  s.runM_ok m (fun _ t => t) () t h

/-- The events that write a user register store what a write of it does. -/
theorem userWriteEvents (s : State) (v : Word) :
    ∀ p ∈ [(0x000, Instr.vlWrite v), (0x001, .vrowWrite v), (0x003, .vstartWrite v), (0x008, .frmWrite v),
      (0x009, .srseedWrite v), (0x00A, .loopRegisterWrite .lcnt v), (0x00B, .loopRegisterWrite .lbeg v),
      (0x00C, .loopRegisterWrite .lend v)], exec p.2 s = .next (s.storeEvent (storeCr p.1 v 0)) := by
  simp only [List.forall_mem_cons, List.not_mem_nil, false_implies, implies_true, and_true]
  exact ⟨rfl, rfl, rfl, rfl, rfl, rfl, rfl, rfl⟩

/-- So do those that write a register at S. -/
theorem superWriteEvents (s : State) (v : Word) :
    ∀ p ∈ [(0x011, Instr.maxwaitWrite v), (0x101, .tvecWrite v), (0x109, .ptbWrite v), (0x118, .taghistWrite v),
      (0x120, .riskthrWrite v), (0x128, .staggerWrite v)], exec p.2 s = .next (s.storeEvent (storeCr p.1 v 0)) := by
  simp only [List.forall_mem_cons, List.not_mem_nil, false_implies, implies_true, and_true]
  exact ⟨rfl, rfl, rfl, rfl, rfl, rfl⟩

/-- `ASID` below the partition's count (R325). -/
theorem storeAsid_go (s : State) (v : Word) (h : v.toNat % 2 ^ 13 < s.part.asidCount) :
    (storeAsid v).go s = (.ok (), { s with hart.asid := v.setWidth 13, hart.l1 := [] }) := by
  have hb : bits v 12 0 < s.part.asidCount := by rwa [bits_low]
  simp only [storeAsid, M.go_bind, M.go_get, M.go_checkM, hb, decide_true, if_true]
  exact modify_go_eq (congrArg (fun n => ({ s.dropL1 with hart.asid := n } : State)) (ofNat_bits_low v 12))

/-- `ASID` at or above the partition's count (R325). -/
theorem storeAsid_refused (s : State) (v : Word) (h : s.part.asidCount ≤ v.toNat % 2 ^ 13) :
    (storeAsid v).go s = (.error (.trap ⟨6, 0x108, 0⟩), s) := by
  have hb : ¬ bits v 12 0 < s.part.asidCount := by rw [bits_low]; omega
  simp only [storeAsid, M.go_bind, M.go_get, M.go_checkM, hb, decide_false, Bool.false_eq_true, if_false]

/-- Settles O14: an event that writes a register is its store, and the store is the one that the statement gives. -/
theorem registerWriteEvents : Obligations.RegisterWriteEvents := by
  unfold Obligations.RegisterWriteEvents
  refine fun s v => ⟨fun p hp q hq hn => ?_, fun hs => ⟨fun p hp q hq hn => ?_, ?_, ?_, ?_, fun h => ?_⟩, ?_⟩
  · rw [userWriteEvents s v p hp, ← hn, s.storeEvent_of_go _ _ (storeCr_user_go s v 0 q hq)]
  · rw [superWriteEvents s v p hp, ← hn, s.storeEvent_of_go _ _ (storeCr_super_go s v 0 hs q hq)]
  · exact congrArg Host.Outcome.next (s.storeStatus_eq v)
  · exact congrArg Host.Outcome.next (s.storeSlice_eq v)
  · exact congrArg Host.Outcome.next (s.storePreempt_eq v v)
  · exact congrArg Host.Outcome.next (s.storeEvent_of_go _ _ (storeAsid_go s v h))
  · exact congrArg Host.Outcome.next (s.storeVtype_eq v)

end Sys2Proof.Machine
end

section
/-! SUPPORT. Accesses to control registers by number: their checks, the wait for earlier vector convoys, the store (R152, R177, R322). -/

namespace Sys2Proof.Machine

/-! ### Accesses by number (R177) -/

/-- Every assigned register reads as the list of R177 says. -/
theorem State.readCr_of_mem (s : State) : ∀ p ∈ s.crReads, s.readCr p.1 = some p.2 := by
  simp only [State.crReads, List.forall_mem_cons, List.not_mem_nil, false_implies, implies_true, and_true]
  and_intros <;> rfl

/-- An assigned number reads as some value. -/
theorem State.readCr_assigned (s : State) (n : Nat) (h : n ∈ s.crReads.map (·.1)) : ∃ v, s.readCr n = some v := by
  obtain ⟨p, hp, rfl⟩ := List.mem_map.mp h
  exact ⟨p.2, s.readCr_of_mem p hp⟩

/-- The user registers that no program may write at U are assigned. -/
theorem State.readCr_readOnly (s : State) : ∀ n ∈ 0x011 :: crReadOnly, ∃ v, s.readCr n = some v := by
  simp only [crReadOnly, List.forall_mem_cons, List.not_mem_nil, false_implies, implies_true, and_true]
  and_intros <;> exact ⟨_, rfl⟩

/-- An access that meets no check gives the register's value. -/
theorem accessCr_go (s : State) (n : Nat) (v : Word) (hv : s.readCr n = some v) (ho : s.crOpen n) :
    (accessCr n).go s = (.ok v, s) := by
  obtain ⟨hvec, hpriv⟩ := ho
  have h1 : (!(decide (n ≤ 6) && decide (s.hart.status.vs = .off))) = true := by
    by_cases hn : n ≤ 6
    · simp [hvec hn]
    · simp [hn]
  have h2 : (decide (n < 0x100) || decide (s.hart.priv = .super)) = true := by
    by_cases hn : n < 0x100
    · simp [hn]
    · simp [hpriv (by omega)]
  simp only [accessCr, M.go_bind, M.go_get, hv, M.go_require, M.go_checkM, h1, h2, if_true, M.go_pure]

/-- An access to a privileged register at U (R177, R320). -/
theorem accessCr_privileged (s : State) (n : Nat) (v : Word) (hv : s.readCr n = some v) (hu : s.hart.priv = .user)
    (hn : 0x100 ≤ n) : (accessCr n).go s = (.error (.trap ⟨6, word n, 0⟩), s) := by
  have h1 : (!(decide (n ≤ 6) && decide (s.hart.status.vs = .off))) = true := by simp [show ¬ n ≤ 6 by omega]
  have h2 : (decide (n < 0x100) || decide (s.hart.priv = .super)) = false := by
    simp [hu, show ¬ n < 0x100 by omega]
  simp only [accessCr, M.go_bind, M.go_get, hv, M.go_require, M.go_checkM, h1, h2, if_true, Bool.false_eq_true, if_false]

/-! ### The wait for earlier vector convoys (R152, R322) -/

/-- Once they have drained nothing is waited for. -/
theorem vectorDrained_go (s : State) (h : s.drained) : vectorDrained.go s = (.ok (), s) := by
  have hn : s.openReg = none := h
  simp only [vectorDrained, M.go_bind, M.go_get, hn, Option.isSome_none, Bool.false_eq_true, if_false, M.go_pure]

/-- A register that one of them has still to fill is waited for. -/
theorem vectorDrained_stalls (s : State) (r : Nat) (h : ¬ s.drained) (hr : s.ackTrains.landOwn.openReg = some r) :
    vectorDrained.go s = (.error (.stall 3 r), s.ackTrains.landOwn) := by
  have hs : s.openReg.isSome = true := Option.isSome_iff_ne_none.mpr h
  simp only [vectorDrained, M.go_bind, M.go_get, hs, if_true, M.go_modify, hr, M.go_throw]

/-! ### Writes by number (R177) -/

/-- A write that passes the checks before its store is that store, and the next word follows. -/
theorem State.writeCr_eq (s : State) (n : Nat) (clears old : Word) (f : Word → Word) (hv : s.readCr n = some old)
    (ho : s.crOpen n) (hw : readOnlyCr n = false) (hd : drainedCr n = true → s.drained) :
    s.writeCr n clears f = s.runM (storeCr n (f old) clears) fun _ t => t.advance := by
  unfold State.writeCr State.runM
  simp only [M.go_bind, accessCr_go s n old hv ho, hw, Bool.false_eq_true, if_false, M.go_ite]
  by_cases h : drainedCr n = true
  · simp only [h, if_true, vectorDrained_go s (hd h)]
  · simp only [h, if_false, Bool.false_eq_true]

/-- A write whose access is refused traps. -/
theorem State.writeCr_closed (s : State) (n : Nat) (clears : Word) (f : Word → Word) (q : Trap)
    (h : (accessCr n).go s = (.error (.trap q), s)) : s.writeCr n clears f = s.raise q := by
  refine s.runM_trap _ _ q s ?_
  simp only [M.go_bind, h]

/-- A write that has to wait for a register stalls (R152, R322). -/
theorem State.writeCr_stalls (s : State) (n : Nat) (clears old : Word) (f : Word → Word) (r : Nat) (hv : s.readCr n = some old)
    (ho : s.crOpen n) (hw : readOnlyCr n = false) (hdr : drainedCr n = true) (hd : ¬ s.drained)
    (hr : s.ackTrains.landOwn.openReg = some r) : s.writeCr n clears f = s.ackTrains.landOwn.stallAt 3 r := by
  unfold State.writeCr State.runM
  simp only [M.go_bind, accessCr_go s n old hv ho, hw, Bool.false_eq_true, if_false, hdr, if_true,
    vectorDrained_stalls s r hd hr]
  rfl

/-- A write of a read-only register at S is ignored (R177). -/
theorem State.writeCr_ignored (s : State) (n : Nat) (clears old : Word) (f : Word → Word) (hv : s.readCr n = some old)
    (ho : s.crOpen n) (hw : readOnlyCr n = true) (hs : s.hart.priv = .super) : s.writeCr n clears f = s.advance := by
  refine s.runM_ok _ _ () s ?_
  simp only [M.go_bind, accessCr_go s n old hv ho, hw, if_true, M.go_get, hs, M.go_checkM, decide_true]

/-- At U it is refused (R177). -/
theorem State.writeCr_readOnly (s : State) (n : Nat) (clears old : Word) (f : Word → Word) (hv : s.readCr n = some old)
    (ho : s.crOpen n) (hw : readOnlyCr n = true) (hu : s.hart.priv = .user) : s.writeCr n clears f = s.raise ⟨6, word n, 0⟩ := by
  refine s.runM_trap _ _ _ s ?_
  simp [accessCr_go s n old hv ho, hw, hu]

/-- A write of a register that may be written, once earlier vector convoys have drained, is its store (R152, R177, R322). -/
theorem State.wrc_stores (s t : State) (a : SReg) (n : BitVec 12) (old : Word) (hv : s.readCr n.toNat = some old)
    (ho : s.crOpen n.toNat) (hw : readOnlyCr n.toNat = false) (hd : s.drained)
    (hst : (storeCr n.toNat (s.x a) (s.x a)).go s = (.ok (), t)) : exec (.wrc a n) s = .next t.advance := by
  refine congrArg Host.Outcome.next ?_
  rw [s.writeCr_eq n.toNat (s.x a) old _ hv ho hw fun _ => hd, s.runM_ok _ _ () t hst]

/-- So is one that clears bits; it writes no 1 to a write-1-clears field (R177). -/
theorem State.clrbc_stores (s t : State) (a : SReg) (n : BitVec 12) (old : Word) (hv : s.readCr n.toNat = some old)
    (ho : s.crOpen n.toNat) (hw : readOnlyCr n.toNat = false) (hd : s.drained)
    (hst : (storeCr n.toNat (old &&& ~~~(s.x a)) 0).go s = (.ok (), t)) : exec (.clrbc a n) s = .next t.advance := by
  refine congrArg Host.Outcome.next ?_
  rw [s.writeCr_eq n.toNat 0 old _ hv ho hw fun _ => hd, s.runM_ok _ _ () t hst]

/-- A refused access is refused to each instruction that writes (R177). -/
theorem State.writes_refused (s : State) (a : SReg) (n : BitVec 12) (code : Nat) (tval tval2 : Word)
    (h : ∀ (c : Word) (f : Word → Word), s.writeCr n.toNat c f = s.raise ⟨code, tval, tval2⟩) :
    (∃ t, exec (.wrc a n) s = .next t ∧ s.traps t code tval tval2)
      ∧ (∃ t, exec (.setbc a n) s = .next t ∧ s.traps t code tval tval2)
      ∧ ∃ t, exec (.clrbc a n) s = .next t ∧ s.traps t code tval tval2 := by
  have traps : ∀ c f, s.traps (s.writeCr n.toNat c f) code tval tval2 := fun c f => by
    rw [h]
    exact s.raise_traps code tval tval2
  exact ⟨⟨_, rfl, traps ..⟩, ⟨_, rfl, traps ..⟩, ⟨_, rfl, traps ..⟩⟩

/-- UEN of the old value of `PREEMPT` with some bits cleared (R329). -/
theorem preemptWord_cleared (h : Hart) (x : Word) :
    (h.preemptWord &&& ~~~x).getLsbD 0 = (word h.uen.toNat &&& ~~~x).getLsbD 0 := by
  have hw : h.preemptWord.getLsbD 0 = (word h.uen.toNat).getLsbD 0 := by
    unfold Hart.preemptWord
    cases h.uen <;> cases h.pend <;> cases h.urgp <;> rfl
  rw [BitVec.getLsbD_and, BitVec.getLsbD_and, hw]

/-- An instruction without a result that completes does no more than go on (R139). -/
theorem State.wroteNext_zero (s : State) : s.wroteNext 0 0 = s.advance := by
  simp [State.wrote, State.advance]

/-- `PREEMPT` takes UEN alone of the value (R329). -/
theorem State.preemptStored_congr (s : State) (v w c : Word) (h : v.getLsbD 0 = w.getLsbD 0) :
    s.preemptStored v c = s.preemptStored w c := by
  rw [State.preemptStored, State.preemptStored, h]

theorem State.preemptStored_advance (s : State) (v w : Word) : (s.preemptStored v w).advance = s.advance.preemptStored v w := by
  rw [State.preemptStored, apply_ite State.advance]
  rfl

theorem State.vtypeStored_advance (s : State) (v : Word) : (s.vtypeStored v).advance = s.advance.vtypeStored v := by
  rw [State.vtypeStored, apply_ite State.advance, apply_ite State.advance]
  rfl

/-- The writes at S with an effect of their own, once earlier vector convoys have drained (R323, R325, R329). -/
theorem State.effectWrites_super (s : State) (a : SReg) (hp : s.hart.priv = .super) (hd : s.drained) :
    exec (.wrc a 0x100) s = .next ((s.wroteNext 0 0).statusStored (s.x a))
      ∧ exec (.wrc a 0x110) s = .next ((s.wroteNext 0 0).sliceStored (s.x a))
      ∧ exec (.wrc a 0x111) s = .next ((s.wroteNext 0 0).preemptStored (s.x a) (s.x a))
      ∧ exec (.clrbc a 0x111) s = .next ((s.wroteNext 0 0).preemptStored (word s.hart.uen.toNat &&& ~~~(s.x a)) 0)
      ∧ ((s.x a).toNat % 2 ^ 13 < s.part.asidCount →
        exec (.wrc a 0x108) s = .next { s.wroteNext 0 0 with hart.asid := (s.x a).setWidth 13, hart.l1 := [] })
      ∧ (s.part.asidCount ≤ (s.x a).toNat % 2 ^ 13 → ∃ t, exec (.wrc a 0x108) s = .next t ∧ s.traps t 6 0x108 0) := by
  have ho : ∀ n : Nat, 0x100 ≤ n → s.crOpen n := fun n hn => ⟨fun h => absurd hn (by omega), fun _ => hp⟩
  rw [s.wroteNext_zero]
  refine ⟨?_, ?_, ?_, ?_, fun h => ?_, fun h => ?_⟩
  · exact s.wrc_stores _ a 0x100 _ rfl (ho _ (by decide)) rfl hd (modify_go_eq (s.storeStatus_eq _))
  · exact s.wrc_stores _ a 0x110 _ rfl (ho _ (by decide)) rfl hd (modify_go_eq (s.storeSlice_eq _))
  · rw [s.wrc_stores _ a 0x111 _ rfl (ho _ (by decide)) rfl hd (modify_go_eq (s.storePreempt_eq _ _)),
      State.preemptStored_advance]
  · rw [s.clrbc_stores _ a 0x111 _ rfl (ho _ (by decide)) rfl hd (modify_go_eq (s.storePreempt_eq _ _)),
      State.preemptStored_advance, State.preemptStored_congr _ _ _ _ (preemptWord_cleared s.hart (s.x a))]
  · exact s.wrc_stores _ a 0x108 _ rfl (ho _ (by decide)) rfl hd (storeAsid_go s _ h)
  · refine ⟨_, congrArg Host.Outcome.next ?_, s.raise_traps 6 0x108 0⟩
    rw [s.writeCr_eq _ _ _ _ rfl (ho _ (by decide)) rfl fun _ => hd]
    exact s.runM_trap _ _ _ s (storeAsid_refused s _ h)

/-- `VTYPE` (R12), once earlier vector convoys have drained. -/
theorem State.wrc_vtype (s : State) (a : SReg) (hvs : s.hart.status.vs ≠ .off) (hd : s.drained) :
    exec (.wrc a 0x002) s = .next ((s.wroteNext 0 0).vtypeStored (s.x a)) := by
  rw [s.wroteNext_zero, ← State.vtypeStored_advance]
  exact s.wrc_stores _ a 0x002 _ rfl ⟨fun _ => hvs, fun h => absurd h (by decide)⟩ rfl hd (modify_go_eq (s.storeVtype_eq _))

/-- A write that waits for the drain stalls while a register is still to be filled (R152, R322). -/
theorem State.wrc_stalls (s : State) (a : SReg) (r : Nat) (hd : ¬ s.drained) (hr : s.ackTrains.landOwn.openReg = some r) :
    ∀ n ∈ ([0x100, 0x108, 0x002] : List (BitVec 12)), s.crOpen n.toNat →
      exec (.wrc a n) s = .next (s.ackTrains.landOwn.stallAt 3 r) := by
  simp only [List.forall_mem_cons, List.not_mem_nil, false_implies, implies_true, and_true]
  refine ⟨fun ho => ?_, fun ho => ?_, fun ho => ?_⟩ <;>
    exact congrArg Host.Outcome.next (s.writeCr_stalls _ _ _ _ r rfl ho rfl rfl hd hr)

/-- A write at U of a register that U may not write (R177). -/
theorem State.writeCr_user (s : State) (n : Nat) (hn : n ∈ 0x011 :: crReadOnly) (hu : s.hart.priv = .user) (ho : s.crOpen n)
    (c : Word) (f : Word → Word) : s.writeCr n c f = s.raise ⟨6, word n, 0⟩ := by
  obtain ⟨old, hv⟩ := s.readCr_readOnly n hn
  rcases List.mem_cons.mp hn with rfl | hro
  · rw [s.writeCr_eq _ c old f hv ho rfl fun h => absurd h (by decide)]
    exact s.runM_trap _ _ _ s (storeMaxwait_user s _ hu)
  · exact s.writeCr_readOnly n c old f hv ho (List.contains_iff_mem.mpr hro) hu

/-- Settles O13: each write is the store that the lemmas above give, and each refused access traps before it. -/
theorem registerWriteEffects : Obligations.RegisterWriteEffects := by
  unfold Obligations.RegisterWriteEffects
  refine ⟨fun s a => ⟨fun hp hd => s.effectWrites_super a hp hd, fun hvs hd => s.wrc_vtype a hvs hd,
    fun r hd hr => s.wrc_stalls a r hd hr⟩, fun s d a n => ⟨fun hu hn hm => ?_, fun hu hn ho => ?_, fun hp hn ho => ?_⟩⟩
  · obtain ⟨v, hv⟩ := s.readCr_assigned _ hm
    have closed := accessCr_privileged s n.toNat v hv hu hn
    rw [← word_toNat]
    exact ⟨⟨_, congrArg Host.Outcome.next (s.runM_trap _ _ _ s closed), s.raise_traps 6 (word n.toNat) 0⟩,
      s.writes_refused a n 6 (word n.toNat) 0 fun c f => s.writeCr_closed n.toNat c f _ closed⟩
  · rw [← word_toNat]
    exact s.writes_refused a n 6 (word n.toNat) 0 (s.writeCr_user n.toNat hn hu ho)
  · obtain ⟨old, hv⟩ := s.readCr_readOnly _ (List.mem_cons_of_mem _ hn)
    have ignored := fun c f => s.writeCr_ignored n.toNat c old f hv ho (List.contains_iff_mem.mpr hn) hp
    simp only [List.forall_mem_cons, List.not_mem_nil, false_implies, implies_true, and_true, s.wroteNext_zero]
    exact ⟨congrArg Host.Outcome.next (ignored ..), congrArg Host.Outcome.next (ignored ..),
      congrArg Host.Outcome.next (ignored ..)⟩

end Sys2Proof.Machine
end

section
/-! SUPPORT. The CFG instructions but `svl` (R183 to R187). -/

namespace Sys2Proof.Machine

/-! ### CFG (R183) -/

/-- S(d) := v as one update of the register file (R154). -/
theorem State.setX_eq (s : State) (d : SReg) (v : Word) :
    s.setX d v = { s with hart.x := if d = 0 then s.hart.x else s.hart.x.set d.toNat v d.isLt } := by
  by_cases h : d = 0
  · rw [State.setX, if_pos h, if_pos h]
  · rw [State.setX, if_neg h, if_neg h]

/-- With VS on and PARKED = 0 nothing is raised (R323). -/
theorem offCheck_go (s : State) (h : s.vectorOn) : offCheck.go s = (.ok (), s) := by
  obtain ⟨hvs, hpk⟩ := h
  simp [offCheck, hvs, hpk]

/-- Else `VECTOR_OFF` is (R323). -/
theorem offCheck_off (s : State) (h : ¬ s.vectorOn) :
    offCheck.go s = (.error (.trap ⟨13, if s.hart.status.vs = .off then 0 else 3, s.hart.pc⟩), s) := by
  by_cases hvs : s.hart.status.vs = .off
  · simp [offCheck, hvs]
  · have hpk : s.hart.status.parked = true := by
      by_contra hn
      exact h ⟨hvs, by simpa using hn⟩
    simp [offCheck, hvs, hpk]

/-- A CFG instruction that passes its checks: its effect, VS Dirty before it, `VSTART` = 0, the next word (R183). -/
theorem State.cfg_done (s : State) (own : M Unit) (f : State → State) (hon : s.vectorOn) (hd : s.drained)
    (hown : own.go s = (.ok (), s)) : s.cfg own f = ({ f s.dirtyV with hart.vstart := 0 } : State).advance := by
  refine s.runM_ok _ _ () s ?_
  simp only [M.go_bind, offCheck_go s hon, vectorDrained_go s hd, hown]

/-- One whose own check fails once earlier vector convoys have drained. -/
theorem State.cfg_refused (s : State) (own : M Unit) (f : State → State) (q : Trap) (hon : s.vectorOn) (hd : s.drained)
    (hown : own.go s = (.error (.trap q), s)) : s.cfg own f = s.raise q := by
  refine s.runM_trap _ _ q s ?_
  simp only [M.go_bind, offCheck_go s hon, vectorDrained_go s hd, hown]

/-- One with VS Off or PARKED (R323). -/
theorem State.cfg_off (s : State) (own : M Unit) (f : State → State) (h : ¬ s.vectorOn) :
    s.cfg own f = s.raise ⟨13, if s.hart.status.vs = .off then 0 else 3, s.hart.pc⟩ := by
  refine s.runM_trap _ _ _ s ?_
  simp only [M.go_bind, offCheck_off s h]

/-- One that waits for a register that an earlier vector convoy has still to fill (R152). -/
theorem State.cfg_stalls (s : State) (own : M Unit) (f : State → State) (r : Nat) (hon : s.vectorOn) (hd : ¬ s.drained)
    (hr : s.ackTrains.landOwn.openReg = some r) : s.cfg own f = s.ackTrains.landOwn.stallAt 3 r := by
  unfold State.cfg State.runM
  simp only [M.go_bind, offCheck_go s hon, vectorDrained_stalls s r hd hr]
  rfl

/-- `svl` checks `VTYPE` first (R184). -/
theorem vtypeCheck_go (s : State) (h : s.hart.vtypeBad = false) :
    (require (!s.hart.vtypeBad) cIllegalVtype s.hart.vtype).go s = (.ok (), s) := by
  simp [h]

/-- `svt` (R12, R186). -/
theorem State.svt_done (s : State) (a : SReg) (hon : s.vectorOn) (hd : s.drained) :
    exec (.svt a) s = .next { (s.wroteNext 0 0).vtypeStored (s.x a) with hart.vstart := 0 } := by
  refine congrArg Host.Outcome.next ?_
  rw [s.cfg_done _ _ hon hd (M.go_pure ..), s.storeVtype_eq, s.wroteNext_zero, ← State.vtypeStored_advance]
  rfl

/-- `svr` (R185). -/
theorem State.svr_done (s : State) (d a : SReg) (hon : s.vectorOn) (hd : s.drained) :
    let rows := if s.x a = 1 ∨ s.x a = 2 ∨ s.x a = 4 ∨ s.x a = 8 then (s.x a).toNat else s.hart.vrow
    exec (.svr d a) s = .next { s.wroteNext d (word rows) with
      hart.vrow := rows
      hart.status.vs := .dirty
      hart.vstart := 0 } := by
  refine congrArg Host.Outcome.next ?_
  rw [s.cfg_done _ _ hon hd (M.go_pure ..)]
  simp only [State.storeVrow_eq, State.setX_eq]
  rfl

/-- `scgrp` (R187). -/
theorem State.scgrp_done (s : State) (a b : SReg) (hon : s.vectorOn) (hd : s.drained) :
    exec (.scgrp a b) s = .next { s.cfgNext with
      hart.cgrp0 := ((s.x a).setWidth 52).setWidth 64
      hart.cgrp1 := ((s.x b).setWidth 39).setWidth 64 } := by
  refine congrArg Host.Outcome.next ?_
  rw [s.cfg_done _ _ hon hd (M.go_pure ..), State.cfgNext, s.wroteNext_zero, ← word_bits_low, ← word_bits_low]
  rfl

/-- The fields of `COP` that `scop` writes (R187). -/
theorem cop_joined (x : Word) (seq : Bool) :
    BitVec.ofNat 7 (bits x 5 0 + seq.toNat * 64) = (x.setWidth 6 |>.setWidth 7 |>.or (if seq then 64 else 0)) := by
  have hlt : x.toNat % 2 ^ 6 < 2 ^ 6 := Nat.mod_lt _ (by decide)
  have hor : x.toNat % 2 ^ 6 + 64 = x.toNat % 2 ^ 6 ||| 64 := by
    rw [Nat.add_comm, Nat.or_comm]
    exact Nat.two_pow_add_eq_or_of_lt hlt 1
  rw [bits_low]
  apply BitVec.eq_of_toNat_eq
  cases seq with
  | false => simp
  | true =>
    rw [Bool.toNat_true, Nat.one_mul, hor]
    simp

/-- `scop` (R187). -/
theorem State.scop_done (s : State) (a b : SReg) (seq : Bool) (hon : s.vectorOn) (hd : s.drained) :
    exec (.scop a b seq) s = .next { s.cfgNext with
      hart.cop := (s.x a).setWidth 6 |>.setWidth 7 |>.or (if seq then 64 else 0)
      hart.cstride := if b = 0 then s.hart.cstride else (s.x b).setWidth 32 } := by
  refine congrArg Host.Outcome.next ?_
  rw [s.cfg_done _ _ hon hd (M.go_pure ..), State.cfgNext, s.wroteNext_zero, ← cop_joined]
  by_cases h : b = 0
  · simp only [if_pos h]
    rfl
  · simp only [if_neg h]
    rfl

/-- Settles O16: the effects by `State.cfg_done`, the checks by the other lemmas about `State.cfg`. -/
theorem configurationInstructions : Obligations.ConfigurationInstructions := by
  unfold Obligations.ConfigurationInstructions
  refine ⟨fun s d a b seq hon hd => ⟨s.svt_done a hon hd, s.svr_done d a hon hd, s.scgrp_done a b hon hd,
    s.scop_done a b seq hon hd⟩, fun s d a b seq => ⟨fun hoff => ?_, fun hon hd hbad => ?_, fun r hon hd hr => ?_⟩⟩
  · have off : ∀ own f, ∃ t, Host.Outcome.next (φ := Fault) (ρ := Refusal) (s.cfg own f) = .next t
        ∧ s.traps t 13 (if s.hart.status.vs = .off then 0 else 3) s.hart.pc := fun own f =>
      ⟨_, congrArg Host.Outcome.next (s.cfg_off own f hoff), s.raise_traps ..⟩
    simp only [List.forall_mem_cons, List.not_mem_nil, false_implies, implies_true, and_true]
    exact ⟨off .., off .., off .., off .., off ..⟩
  · refine ⟨_, congrArg Host.Outcome.next (s.cfg_refused _ _ _ hon hd ?_), s.raise_traps ..⟩
    simp [hbad]
  · simp only [List.forall_mem_cons, List.not_mem_nil, false_implies, implies_true, and_true]
    and_intros <;> exact congrArg Host.Outcome.next (s.cfg_stalls _ _ r hon hd hr)

end Sys2Proof.Machine
end

section
/-! SUPPORT. `svl`: the lane allocation table, and what a changed grant does to the harts of a core (R13 to R16, R184). -/

namespace Sys2Proof.Machine

/-! ### Groups of a lane allocation table (R13) -/

/-- The owner of group `g` in a table. -/
def ownerOf (lat : Vector (Option (BitVec 2)) 8) (g : Nat) : Option (BitVec 2) := lat.toList.getD g none

/-- The numbered items of a list whose value passes a test, as numbers. -/
theorem enum_filterMap {α : Type} (l : List α) (d : α) (p : α → Bool) :
    ((enum l).filterMap fun q => if p q.2 then some q.1 else none) = (List.range l.length).filter fun g => p (l.getD g d) := by
  have he : enum l = (List.range l.length).map fun i => (i, l.getD i d) := by
    apply List.ext_getElem
    · simp [enum]
    · intro i h1 h2
      have hi : i < l.length := by simpa [enum] using h1
      simp [enum, List.getD, hi]
  rw [he, List.filterMap_map, ← List.filterMap_eq_filter]
  rfl

/-- The groups of a hart are those that name it. -/
theorem groupsOf_eq (lat : Vector (Option (BitVec 2)) 8) (k : Nat) :
    groupsOf lat k = (List.range 8).filter fun g => ownerOf lat g = some (BitVec.ofNat 2 k) := by
  have h := enum_filterMap lat.toList none fun o => decide (o = some (BitVec.ofNat 2 k))
  simp only [decide_eq_true_eq, Vector.length_toList] at h
  exact h

/-- A hart is named by the two low bits of its number. -/
theorem hart_named (k : Nat) : BitVec.ofNat 2 (k % 4) = BitVec.ofNat 2 k := by
  apply BitVec.eq_of_toNat_eq
  simp

theorem groupsOf_mod (lat : Vector (Option (BitVec 2)) 8) (k : Nat) : groupsOf lat (k % 4) = groupsOf lat k := by
  rw [groupsOf, groupsOf, hart_named]

/-- Free groups, ascending. -/
def freeGroups (lat : Vector (Option (BitVec 2)) 8) : List Nat := (List.range 8).filter fun g => ownerOf lat g = none

/-- The model's list of them. -/
theorem freeGroups_eq (lat : Vector (Option (BitVec 2)) 8) :
    ((enum lat.toList).filterMap fun p => if p.2.isNone then some p.1 else none) = freeGroups lat := by
  have h := enum_filterMap lat.toList none fun o => o.isNone
  rw [Vector.length_toList] at h
  rw [h]
  apply List.filter_congr
  intro g _
  rw [Bool.eq_iff_iff, Option.isNone_iff_eq_none, decide_eq_true_eq]
  rfl

/-- The owner of a group after some groups have been assigned. -/
theorem ownerOf_assign (lat : Vector (Option (BitVec 2)) 8) (gs : List Nat) (o : Option (BitVec 2)) (g : Nat) (hg : g < 8) :
    ownerOf (assign lat gs o) g = if g ∈ gs then o else ownerOf lat g := by
  simp [ownerOf, assign, List.getD, hg]

/-! ### What `svl` asks for (R15, R184) -/

/-- The groups that a request for `q` groups gives back: those of highest number. -/
def givenGroups (lat : Vector (Option (BitVec 2)) 8) (k q : Nat) : List Nat :=
  if min q 8 = 0 then [] else (groupsOf lat k).drop (min q 8)

/-- The groups that it takes: free ones of lowest number, as far as there is room. -/
def takenGroups (lat : Vector (Option (BitVec 2)) 8) (k q room : Nat) : List Nat :=
  (freeGroups lat).take (min (min q 8 - (groupsOf lat k).length) room)

/-- A group given back had been the hart's. -/
theorem owner_of_given (lat : Vector (Option (BitVec 2)) 8) (k q g : Nat) (h : g ∈ givenGroups lat k q) :
    ownerOf lat g = some (BitVec.ofNat 2 k) := by
  have hm : g ∈ groupsOf lat k := by
    unfold givenGroups at h
    split at h
    · exact absurd h (List.not_mem_nil)
    · exact List.mem_of_mem_drop h
  rw [groupsOf_eq] at hm
  simpa using (List.mem_filter.mp hm).2

/-- A group taken had been free. -/
theorem owner_of_taken (lat : Vector (Option (BitVec 2)) 8) (k q room g : Nat) (h : g ∈ takenGroups lat k q room) :
    ownerOf lat g = none := by
  simpa using (List.mem_filter.mp (List.mem_of_mem_take h)).2

/-- So no group is both. -/
theorem not_taken_of_given (lat : Vector (Option (BitVec 2)) 8) (k q room g : Nat) (h : g ∈ givenGroups lat k q) :
    g ∉ takenGroups lat k q room := fun h' => by
  have := owner_of_given lat k q g h
  rw [owner_of_taken lat k q room g h'] at this
  exact absurd this (by simp)

/-- The owners after the request. -/
theorem ownerOf_regroup (lat : Vector (Option (BitVec 2)) 8) (k q room g : Nat) (hg : g < 8) :
    ownerOf (regroup lat k q room) g = if g ∈ givenGroups lat k q then none
      else if g ∈ takenGroups lat k q room then some (BitVec.ofNat 2 k) else ownerOf lat g := by
  unfold regroup givenGroups takenGroups
  rw [freeGroups_eq]
  dsimp only
  by_cases hgive : min q 8 ≠ 0 ∧ min q 8 < (groupsOf lat k).length
  · rw [if_pos (by simpa using hgive), ownerOf_assign _ _ _ _ hg, if_neg hgive.1,
      show min q 8 - (groupsOf lat k).length = 0 by omega]
    simp
  · rw [if_neg (by simpa using hgive)]
    have hdrop : (if min q 8 = 0 then [] else (groupsOf lat k).drop (min q 8)) = [] := by
      split
      · rfl
      · exact List.drop_eq_nil_of_le (by omega)
    rw [hdrop]
    by_cases htake : (groupsOf lat k).length < min q 8
    · rw [if_pos htake, ownerOf_assign _ _ _ _ hg]
      simp
    · rw [if_neg htake, show min q 8 - (groupsOf lat k).length = 0 by omega]
      simp

/-- Another hart of the core keeps its groups. -/
theorem groupsOf_regroup_other (lat : Vector (Option (BitVec 2)) 8) (k j q room : Nat) (hj : BitVec.ofNat 2 j ≠ BitVec.ofNat 2 k) :
    groupsOf (regroup lat k q room) j = groupsOf lat j := by
  rw [groupsOf_eq, groupsOf_eq]
  apply List.filter_congr
  intro g hg
  rw [ownerOf_regroup lat k q room g (List.mem_range.mp hg)]
  by_cases h1 : g ∈ givenGroups lat k q
  · simp [h1, owner_of_given lat k q g h1, hj.symm]
  · by_cases h2 : g ∈ takenGroups lat k q room
    · simp [h1, h2, owner_of_taken lat k q room g h2, hj.symm]
    · simp [h1, h2]

/-- How many groups the hart has after the request. -/
theorem groupsOf_regroup_length (lat : Vector (Option (BitVec 2)) 8) (k q room : Nat) :
    (groupsOf (regroup lat k q room) k).length
      = (groupsOf lat k).length - (givenGroups lat k q).length + (takenGroups lat k q room).length := by
  have hrange : (List.range 8).Nodup := List.nodup_range
  have hmine : (groupsOf lat k).Nodup := by rw [groupsOf_eq]; exact hrange.filter _
  have hnew : (groupsOf (regroup lat k q room) k).Nodup := by rw [groupsOf_eq]; exact hrange.filter _
  have hgive : (givenGroups lat k q).Nodup := by
    unfold givenGroups
    split
    · exact List.nodup_nil
    · exact hmine.sublist (List.drop_sublist _ _)
  have htake : (takenGroups lat k q room).Nodup := (hrange.filter _).sublist (List.take_sublist _ _)
  have hlt : ∀ g, g ∈ takenGroups lat k q room → g < 8 := fun g h =>
    List.mem_range.mp (List.mem_filter.mp (List.mem_of_mem_take h)).1
  have mem : ∀ (l : Vector (Option (BitVec 2)) 8) g, g ∈ groupsOf l k ↔ g < 8 ∧ ownerOf l g = some (BitVec.ofNat 2 k) :=
    fun l g => by rw [groupsOf_eq]; simp
  have hsub : (givenGroups lat k q).toFinset ⊆ (groupsOf lat k).toFinset := fun g h => by
    rw [List.mem_toFinset] at h ⊢
    unfold givenGroups at h
    split at h
    · exact absurd h (List.not_mem_nil)
    · exact List.mem_of_mem_drop h
  have hdis : Disjoint ((groupsOf lat k).toFinset \ (givenGroups lat k q).toFinset) (takenGroups lat k q room).toFinset := by
    rw [Finset.disjoint_left]
    intro g h1 h2
    rw [Finset.mem_sdiff, List.mem_toFinset, mem] at h1
    rw [List.mem_toFinset] at h2
    rw [owner_of_taken lat k q room g h2] at h1
    exact absurd h1.1.2 (by simp)
  have hset : (groupsOf (regroup lat k q room) k).toFinset
      = ((groupsOf lat k).toFinset \ (givenGroups lat k q).toFinset) ∪ (takenGroups lat k q room).toFinset := by
    ext g
    rw [Finset.mem_union, Finset.mem_sdiff, List.mem_toFinset, List.mem_toFinset, List.mem_toFinset, List.mem_toFinset,
      mem, mem]
    by_cases hg : g < 8
    · rw [ownerOf_regroup lat k q room g hg]
      by_cases h1 : g ∈ givenGroups lat k q
      · simp [h1, not_taken_of_given lat k q room g h1]
      · by_cases h2 : g ∈ takenGroups lat k q room <;> simp [h1, h2, hg]
    · simp only [hg, false_and, false_or, false_iff]
      exact fun h => hg (hlt g h)
  rw [← List.toFinset_card_of_nodup hnew, hset, Finset.card_union_of_disjoint hdis, Finset.card_sdiff_of_subset hsub,
    List.toFinset_card_of_nodup hmine, List.toFinset_card_of_nodup hgive, List.toFinset_card_of_nodup htake]

/-- The groups that pass to another owner are those taken, in ascending order (R58). -/
theorem taken_eq_filter (lat : Vector (Option (BitVec 2)) 8) (k q room : Nat) :
    ((List.range 8).filter fun g => ownerOf (regroup lat k q room) g ≠ none
      && ownerOf (regroup lat k q room) g ≠ ownerOf lat g) = takenGroups lat k q room := by
  have hfree : (freeGroups lat).Nodup := List.nodup_range.filter _
  have htaken : takenGroups lat k q room
      = (List.range 8).filter fun g => List.elem g (takenGroups lat k q room) && decide (ownerOf lat g = none) := by
    conv_lhs => rw [takenGroups, hfree.take_eq_filter_mem, freeGroups, List.filter_filter]
    rfl
  rw [htaken]
  apply List.filter_congr
  intro g hg
  rw [ownerOf_regroup lat k q room g (List.mem_range.mp hg)]
  by_cases h1 : g ∈ givenGroups lat k q
  · simp [h1, owner_of_given lat k q g h1]
  · by_cases h2 : g ∈ takenGroups lat k q room
    · simp [h1, h2, owner_of_taken lat k q room g h2]
    · simp [h1, h2]

/-! ### The table set (R14, R58) -/

/-- Steps of a fold that leave the state as it is. -/
theorem foldl_unchanged {α β : Type} (f : β → α → β) (l : List α) (b : β) (h : ∀ a ∈ l, ∀ c, f c a = c) : l.foldl f b = b := by
  induction l generalizing b with
  | nil => rfl
  | cons a l ih =>
    rw [List.foldl_cons, h a List.mem_cons_self]
    exact ih b fun x hx => h x (List.mem_cons_of_mem _ hx)

/-- A fold of which one step alone changes the state. -/
theorem foldl_single {α β : Type} (f : β → α → β) (l : List α) (b : β) (a : α) (ha : a ∈ l) (hn : l.Nodup)
    (h : ∀ x ∈ l, x ≠ a → ∀ c, f c x = c) : l.foldl f b = f b a := by
  obtain ⟨l1, l2, rfl⟩ := List.append_of_mem ha
  rw [List.nodup_append] at hn
  obtain ⟨_, hn2, hd⟩ := hn
  have hne1 : ∀ x ∈ l1, x ≠ a := fun x hx => hd x hx a List.mem_cons_self
  have hne2 : ∀ x ∈ l2, x ≠ a := fun x hx e => (List.nodup_cons.mp hn2).1 (e ▸ hx)
  rw [List.foldl_append, foldl_unchanged f l1 b fun x hx => h x (by simp [hx]) (hne1 x hx), List.foldl_cons,
    foldl_unchanged f l2 _ fun x hx => h x (by simp [hx]) (hne2 x hx)]

/-- The current hart changed. -/
theorem State.modHart_self (s : State) (n : Nat) (f : Hart → Hart) (h : n = s.hart.id) :
    s.modHart n f = { s with hart := f s.hart } := by
  rw [State.modHart, if_pos h]

/-- A core with a table set: a grant request under way keeps what changes (R337). -/
def Core.withLat (k : Core) (new : Vector (Option (BitVec 2)) 8) : Core :=
  { k with
    lat := new
    latNew := k.latNew.map (mergeLat k.lat new) }

/-- The same, of the core that it gives. -/
theorem Core.eq_of_withLat {k k' : Core} {new : Vector (Option (BitVec 2)) 8} (h : k' = k.withLat new) :
    k' = { k with lat := k'.lat, latNew := k.latNew.map (mergeLat k.lat k'.lat) } := by
  subst h
  rfl

/-- The hart once it has `n` groups where it had `m`: a changed count has the effects of R14. -/
def Hart.regranted (h : Hart) (n m : Nat) : Hart :=
  { h with
    v := if n = m then h.v else .replicate 32 0
    flying := if n = m then h.flying else .replicate 32 0
    status.vs := if n = m then h.status.vs else .initial
    maxvl := if n = m then h.maxvl else maxvlOf n h
    vl := if n = m then h.vl else min h.vl (maxvlOf n h)
    stale := if n = m then h.stale else false }

/-- The model's case split on the count. -/
theorem Hart.regranted_eq (h : Hart) (n m : Nat) : h.regranted n m = if n = m then h else grantChanged n h := by
  by_cases e : n = m
  · simp only [Hart.regranted, if_pos e]
  · simp only [Hart.regranted, if_neg e, grantChanged]

/-- A core's table set to `new`, where the current hart alone gets another number of groups, `n` where it had `m`, and the groups
`taken` pass to another owner (R14, R58). -/
def State.withTable (s : State) (new : Vector (Option (BitVec 2)) 8) (n m : Nat) (taken : List Nat) : State :=
  { s with
    lane := taken.foldl (fun x g => clearGroup x s.hart.core g) s.lane
    cores := Tbl.set {} s.cores s.hart.core ((s.coreAt s.hart.core).withLat new)
    hart := s.hart.regranted n m }

/-- That is what the model does if the other harts of the core keep their number of groups. -/
theorem State.setLat_own (s : State) (new : Vector (Option (BitVec 2)) 8) (n m : Nat) (taken : List Nat)
    (hn : (groupsOf new s.hart.id).length = n) (hm : (groupsOf (s.coreAt s.hart.core).lat s.hart.id).length = m)
    (ht : ((List.range 8).filter fun g => ownerOf new g ≠ none
      && ownerOf new g ≠ ownerOf (s.coreAt s.hart.core).lat g) = taken)
    (h : ∀ j, j < 4 → j ≠ s.hart.id % 4 → (groupsOf new j).length = (groupsOf (s.coreAt s.hart.core).lat j).length) :
    s.setLat s.hart.core new = s.withTable new n m taken := by
  have hid : 4 * s.hart.core + s.hart.id % 4 = s.hart.id := Nat.div_add_mod s.hart.id 4
  unfold State.setLat State.withTable
  dsimp only
  rw [foldl_single _ (List.range 4) _ (s.hart.id % 4) (List.mem_range.mpr (Nat.mod_lt _ (by decide))) List.nodup_range
    fun j hj hne c => if_pos (h j (List.mem_range.mp hj) hne), groupsOf_mod, groupsOf_mod, hid, hn, hm, ← ht,
    List.foldl_filter, Hart.regranted_eq]
  by_cases hlen : n = m
  · rw [if_pos hlen, if_pos hlen]
    rfl
  · rw [if_neg hlen, if_neg hlen]
    exact (State.modHart_self _ _ _ rfl).trans rfl

/-- The core's entry under the table. -/
theorem State.coreAt_withTable (s : State) (new : Vector (Option (BitVec 2)) 8) (n m : Nat) (taken : List Nat)
    (hw : Tbl.wfFrom {} 0 s.cores = true) :
    (s.withTable new n m taken).coreAt s.hart.core = (s.coreAt s.hart.core).withLat new :=
  Tbl.get_set_same _ _ _ _ 0 hw

/-- `MAXVL` computed anew under the table (R11). -/
theorem State.remax_withTable (s : State) (new : Vector (Option (BitVec 2)) 8) (n m : Nat) (taken : List Nat)
    (hw : Tbl.wfFrom {} 0 s.cores = true) (hn : (groupsOf new s.hart.id).length = n) :
    (s.withTable new n m taken).remax.vlg = n
      ∧ (s.withTable new n m taken).remax = { s.withTable new n m taken with
        hart.maxvl := maxvlOf n s.hart
        hart.stale := false } := by
  have hv : (s.withTable new n m taken).vlg = n := by
    rw [State.vlg, State.groups, show (s.withTable new n m taken).hart.core = s.hart.core from rfl,
      s.coreAt_withTable new n m taken hw]
    exact hn
  refine ⟨hv, ?_⟩
  rw [State.remax, hv]
  rfl

/-! ### `svl` (R15, R184) -/

/-- Types that are not reserved have a width (R32). -/
theorem etWidth_pos (et : Nat) (h : et < 19) : etWidth et ≠ 0 := by
  interval_cases et <;> decide

/-- `MAXVL` under a type that is not reserved (R11). -/
theorem maxvlOf_eq (groups : Nat) (h : Hart) (hb : h.vtypeBad = false) :
    maxvlOf groups h = groups * 8 * 32768 / h.declared / etWidth h.et := by
  have het : h.et < 19 := by
    simp only [Hart.vtypeBad, Bool.or_eq_false_iff, decide_eq_false_iff_not, not_le] at hb
    exact hb.1
  rw [maxvlOf, if_neg (etWidth_pos _ het), widthBits]

/-- `MAXVL` does not depend on VS. -/
theorem maxvlOf_dirtyV (groups : Nat) (s : State) : maxvlOf groups s.dirtyV.hart = maxvlOf groups s.hart := by
  unfold maxvlOf widthBits Hart.et Hart.declared
  rfl

/-- The table that `svl` sets for a request of `q` groups (R15). -/
def State.svlTable (s : State) (q : Nat) : Vector (Option (BitVec 2)) 8 :=
  regroup (s.coreAt s.hart.core).lat (s.hart.id % 4) q (s.room (s.coreAt s.hart.core).lat)

/-- The other harts of the core keep their groups. -/
theorem State.svlTable_other (s : State) (q j : Nat) (hj : j < 4) (hne : j ≠ s.hart.id % 4) :
    groupsOf (s.svlTable q) j = groupsOf (s.coreAt s.hart.core).lat j := by
  refine groupsOf_regroup_other _ _ _ _ _ fun e => hne ?_
  have h := congrArg BitVec.toNat e
  simp only [BitVec.toNat_ofNat] at h
  omega

/-- `svl` that passes its checks (R15, R184): `new` is the table that it sets, `n` the number of groups that the hart has
then where it had `m`, `taken` the groups that are new, and `vl` the new `VL`. -/
theorem State.svl_done (s : State) (d a b : SReg) (new : Vector (Option (BitVec 2)) 8) (n m vl : Nat) (taken : List Nat)
    (hcan : s.canonical) (hon : s.vectorOn) (hbad : s.hart.vtypeBad = false) (hd : s.drained)
    (hnew : s.svlTable (s.x b).toNat = new) (hn : (groupsOf new s.hart.id).length = n)
    (hm : (groupsOf (s.coreAt s.hart.core).lat s.hart.id).length = m)
    (ht : ((List.range 8).filter fun g => ownerOf new g ≠ none
      && ownerOf new g ≠ ownerOf (s.coreAt s.hart.core).lat g) = taken)
    (hvl : (if n = 0 then 0 else min (s.x a).toNat (maxvlOf n s.hart)) = vl) :
    exec (.svl d a b) s = .next { s.wroteNext d (word vl) with
      hart.maxvl := maxvlOf n s.hart
      hart.stale := false
      hart.vl := vl
      hart.vstart := 0
      hart.v := if n = m then s.hart.v else .replicate 32 0
      hart.flying := if n = m then s.hart.flying else .replicate 32 0
      hart.status.vs := if n = m then .dirty else .initial
      lane := taken.foldl (fun x g => clearGroup x s.hart.core g) s.lane
      cores := (s.withTable new n m taken).cores } := by
  obtain ⟨-, -, -, -, -, hcores, -, -⟩ := hcan
  obtain ⟨hvlg, hremax⟩ := s.dirtyV.remax_withTable new n m taken hcores hn
  have hset : s.dirtyV.setLat s.dirtyV.hart.core (regroup (s.dirtyV.coreAt s.dirtyV.hart.core).lat (s.dirtyV.hart.id % 4)
      (s.x b).toNat (s.dirtyV.room (s.dirtyV.coreAt s.dirtyV.hart.core).lat)) = s.dirtyV.withTable new n m taken := by
    subst hnew
    exact s.dirtyV.setLat_own _ n m taken hn hm ht fun j hj hne => congrArg List.length (s.svlTable_other _ j hj hne)
  rw [maxvlOf_dirtyV] at hremax
  refine congrArg Host.Outcome.next ?_
  rw [s.cfg_done _ _ hon hd (vtypeCheck_go s hbad)]
  dsimp only
  rw [hset, hvlg, hremax, hvl, State.setX_eq]
  rfl

/-- Settles O15: the table is `regroup`'s, its owners are those of `ownerOf_regroup`, and the rest is `State.svl_done`. -/
theorem setVectorLength : Obligations.SetVectorLength := by
  unfold Obligations.SetVectorLength
  intro s d a b hcan hon hbad hd c me lat owned mine free held q given taken groups maxvl vl
  have hmine : mine = groupsOf lat (s.hart.id % 4) := by
    rw [groupsOf_mod, groupsOf_eq]
    rfl
  have hgiven : given = givenGroups lat (s.hart.id % 4) (s.x b).toNat := by
    rw [givenGroups, ← hmine]
  have htaken : taken = takenGroups lat (s.hart.id % 4) (s.x b).toNat (s.room lat) := by
    rw [takenGroups, ← hmine]
    rfl
  have hn : (groupsOf (s.svlTable (s.x b).toNat) s.hart.id).length = groups := by
    rw [← groupsOf_mod]
    refine (groupsOf_regroup_length lat _ _ (s.room lat)).trans ?_
    rw [← hmine, ← hgiven, ← htaken]
  have hmax : maxvl = maxvlOf groups s.hart := (maxvlOf_eq groups s.hart hbad).symm
  have hdone := s.svl_done d a b _ groups held vl taken hcan hon hbad hd rfl hn
    (by rw [← groupsOf_mod]; exact congrArg List.length hmine.symm) ((taken_eq_filter _ _ _ _).trans htaken.symm) (by rw [← hmax])
  obtain ⟨-, -, -, -, -, hcores, -, -⟩ := hcan
  rw [← hmax] at hdone
  have hc := s.coreAt_withTable (s.svlTable (s.x b).toNat) groups held taken hcores
  refine ⟨_, hdone, rfl, fun k hk => Tbl.get_set_other _ _ _ _ _ hk, ?_, fun g hg => ?_⟩
  · exact Core.eq_of_withLat hc
  · refine (congrArg (ownerOf · g) (congrArg Core.lat hc)).trans ((ownerOf_regroup lat _ _ (s.room lat) g hg).trans ?_)
    rw [← hgiven, ← htaken, hart_named]
    rfl

end Sys2Proof.Machine
end

section
/-! SUPPORT. The issue checks of vector instructions (R9, R151, R323). -/

namespace Sys2Proof.Machine

/-! ### What the issue checks raise (R9, R151 item 5, R323) -/

/-- VS Off or PARKED comes first (R323). -/
theorem vectorCheck_off (s : State) (ty : Nat → Bool) (h : ¬ s.vectorOn) :
    (vectorCheck ty).go s = (.error (.trap ⟨13, if s.hart.status.vs = .off then 0 else 3, s.hart.pc⟩), s) := by
  rw [vectorCheck, M.go_bind, offCheck_off s h]

/-- Then the lane grant (R16). -/
theorem vectorCheck_noGrant (s : State) (ty : Nat → Bool) (hon : s.vectorOn) (hg : s.vlg = 0) :
    (vectorCheck ty).go s = (.error (.trap ⟨47, 0, s.hart.pc⟩), s) := by
  rw [vectorCheck, M.go_bind, offCheck_go s hon]
  simp [hg]

/-- Then the type (R151, R153). -/
theorem vectorCheck_type (s : State) (ty : Nat → Bool) (hon : s.vectorOn) (hg : s.vlg ≠ 0)
    (hty : s.hart.vtypeBad = true ∨ ty s.hart.et = false) :
    (vectorCheck ty).go s = (.error (.trap ⟨1, s.hart.vtype, s.hart.pc⟩), s) := by
  have hbad : (!s.hart.vtypeBad && ty s.hart.et) = false := by
    rcases hty with h | h <;> simp [h]
  rw [vectorCheck, M.go_bind, offCheck_go s hon]
  simp [hg, hbad]

/-- A tile that is not aligned, or reaches into the mask register's pair (R9). -/
theorem tileCheck_misaligned (s : State) (n h : Nat) (hn : n % h ≠ 0 ∨ (1 < h ∧ n < 2)) :
    (tileCheck n h).go s = (.error (.trap ⟨4, word n, s.hart.pc⟩), s) := by
  simp only [tileCheck, M.go_bind, M.go_get, M.go_require]
  by_cases hm : n % h = 0
  · have hlow : 1 < h ∧ n < 2 := hn.resolve_left fun e => e hm
    simp [hm, hlow]
  · simp [hm]

/-- A tile beyond the declared registers (R9). -/
theorem tileCheck_beyond (s : State) (n h : Nat) (hm : n % h = 0) (hlow : ¬ (1 < h ∧ n < 2)) (hb : s.hart.declared < n + h) :
    (tileCheck n h).go s = (.error (.trap ⟨3, word n, s.hart.pc⟩), s) := by
  have h2 : (!(decide (1 < h) && decide (n < 2))) = true := by
    rw [Bool.not_eq_true', Bool.and_eq_false_iff, decide_eq_false_iff_not, decide_eq_false_iff_not]
    omega
  have h3 : ¬ n + h ≤ s.hart.declared := by omega
  simp only [tileCheck, M.go_bind, M.go_get, M.go_require, hm, h2, h3, decide_true, decide_false, if_true,
    Bool.false_eq_true, if_false]

/-! ### The tiles of an instruction, in order -/

/-- The tiles that a second operand names. -/
def operandTiles (b : VOperand) : List Nat :=
  match b with
  | .vec v => [v.toNat]
  | _ => []

/-- The checks of R9 on tiles of height `h`, one after another. -/
def tilesCheck (h : Nat) : List Nat → M Unit
  | [] => pure ()
  | n :: l => do
    tileCheck n h
    tilesCheck h l

/-- The issue checks of an instruction with destination, source and second operand (R151 item 5). -/
def issueChecks (ty : Nat → Bool) (d a : VReg) (b : VOperand) (h : Nat) : M Unit := do
  vectorCheck ty
  tileCheck d.toNat h
  tileCheck a.toNat h
  operandCheck b h

/-- What a check before the registers' raises. -/
theorem issueChecks_early (s : State) (ty : Nat → Bool) (d a : VReg) (b : VOperand) (h : Nat) (q : Trap)
    (he : (vectorCheck ty).go s = (.error (.trap q), s)) : (issueChecks ty d a b h).go s = (.error (.trap q), s) := by
  rw [issueChecks, M.go_bind, he]

/-- After those the tiles are checked in their order. -/
theorem issueChecks_tiles (s : State) (ty : Nat → Bool) (d a : VReg) (b : VOperand) (h : Nat) (hr : s.vectorReady ty) :
    (issueChecks ty d a b h).go s = (tilesCheck h ([d.toNat, a.toNat] ++ operandTiles b)).go s := by
  rw [issueChecks, M.go_bind, s.vectorCheck_ok ty hr]
  cases b with
  | vec v => simp only [operandTiles, operandCheck, List.cons_append, List.nil_append, tilesCheck, bind_pure_unit]
  | scal r => rfl
  | imm i => rfl

/-- The first tile that is forbidden decides. -/
theorem tilesCheck_first (s : State) (h : Nat) (pre post : List Nat) (n : Nat) (q : Trap) (hpre : ∀ k ∈ pre, s.tileOk k h)
    (hn : (tileCheck n h).go s = (.error (.trap q), s)) : (tilesCheck h (pre ++ n :: post)).go s = (.error (.trap q), s) := by
  induction pre with
  | nil => rw [List.nil_append, tilesCheck, M.go_bind, hn]
  | cons k pre ih =>
    rw [List.cons_append, tilesCheck, M.go_bind, s.tileCheck_ok k h (hpre k List.mem_cons_self)]
    exact ih fun j hj => hpre j (List.mem_cons_of_mem k hj)

/-- A member alone in its convoy whose issue checks raise a cause traps at itself, and nothing of it is performed (R344). -/
theorem State.member_trap (s : State) (checks : M Unit) (count : State → Nat) (m : Bool) (reads : State → Reads)
    (steps : State → Nat) (body : Nat → Nat → Bool → State → Pass) (always : Bool) (fin : State → State) (q : Trap)
    (hcv : s.hart.cv = none) (h : checks.go s = (.error (.trap q), s)) :
    s.member checks count m reads steps body always fin = s.raise q := by
  unfold State.member
  simp only [h, hcv]

/-- A binary form that fails its issue checks (R188). -/
theorem State.binary_trap (s : State) (m : Bool) (d a : VReg) (b : VOperand) (ty : Nat → Bool) (zext rounds fused : Bool)
    (f : Nat → Nat → Nat → Nat → Nat → Nat → Nat × Nat) (q : Trap) (hcv : s.hart.cv = none)
    (h : (issueChecks ty d a b s.hart.vrow).go s = (.error (.trap q), s)) :
    s.binary m d a b ty zext rounds fused f = s.raise q := by
  unfold State.binary
  exact s.member_trap _ _ _ _ _ _ _ _ q hcv h

/-- A reduction that fails them, on row 0 alone (R215). -/
theorem State.reduce_trap (s : State) (m : Bool) (d a : VReg) (b : VOperand) (ty : Nat → Bool) (f : Combine) (q : Trap)
    (hcv : s.hart.cv = none) (h : (issueChecks ty d a b 1).go s = (.error (.trap q), s)) :
    s.reduce m d a b ty f = s.raise q := by
  unfold State.reduce State.wholeMember
  exact s.member_trap _ _ _ _ _ _ _ _ q hcv h

/-- `vadd`, `vand` and `vrsum` trap with what their issue checks raise. -/
theorem exec_issueChecks (s : State) (m : Bool) (d a : VReg) (b : VOperand) (hcv : s.hart.cv = none) :
    ∀ p ∈ [(Instr.vadd m d a b, tyIFR, s.hart.vrow), (.vand m d a b, tyI, s.hart.vrow), (.vrsum m d a b, tyIFR, 1)],
      ∀ q, (issueChecks p.2.1 d a b p.2.2).go s = (.error (.trap q), s) → exec p.1 s = .next (s.raise q) := by
  simp only [List.forall_mem_cons, List.not_mem_nil, false_implies, implies_true, and_true]
  exact ⟨fun q h => congrArg Host.Outcome.next (s.binary_trap _ _ _ _ _ _ _ _ _ q hcv h),
    fun q h => congrArg Host.Outcome.next (s.binary_trap _ _ _ _ _ _ _ _ _ q hcv h),
    fun q h => congrArg Host.Outcome.next (s.reduce_trap _ _ _ _ _ _ q hcv h)⟩

/-- Settles O6: each clause is what one check raises, those before it passing. -/
theorem vectorIssueChecks : Obligations.VectorIssueChecks := by
  unfold Obligations.VectorIssueChecks
  intro s m d a b rows stops tiles ⟨hcv, _⟩ p hp
  have traps : ∀ code v, (issueChecks p.2.1 d a b p.2.2).go s = (.error (.trap ⟨code, v, s.hart.pc⟩), s) →
      stops p.1 code v := fun code v h => ⟨_, exec_issueChecks s m d a b hcv p hp _ h, s.raise_traps ..⟩
  have early := fun q => issueChecks_early s p.2.1 d a b p.2.2 q
  refine ⟨fun hoff => traps _ _ (early _ ?_), fun hvs hpk => traps _ _ (early _ ?_), fun hon hg => ?_, fun hon hg hty => ?_,
    fun hr pre n post ht hpre => ?_⟩
  · rw [vectorCheck_off s _ fun h => h.1 hoff, if_pos hoff]
  · rw [vectorCheck_off s _ fun h => by simp [h.2] at hpk, if_neg hvs]
  · exact traps _ _ (early _ (vectorCheck_noGrant s _ hon hg))
  · exact traps _ _ (early _ (vectorCheck_type s _ hon hg hty))
  · have htiles : [d.toNat, a.toNat] ++ operandTiles b = pre ++ n :: post := ht
    have first : ∀ q, (tileCheck n p.2.2).go s = (.error (.trap q), s) →
        (issueChecks p.2.1 d a b p.2.2).go s = (.error (.trap q), s) := fun q h => by
      rw [issueChecks_tiles s _ d a b _ hr, htiles]
      exact tilesCheck_first s _ pre post n q hpre h
    exact ⟨fun h => traps _ _ (first _ (tileCheck_misaligned s n _ h)),
      fun hm hlow hb => traps _ _ (first _ (tileCheck_beyond s n _ hm hlow hb))⟩

end Sys2Proof.Machine
end

section
/-! SUPPORT. A step of a hart with nothing before it and nothing of its own under way (R17, R151). -/

namespace Sys2Proof.Machine

/-! ### A hart with nothing under way (R84, R87, R104, R401) -/

/-- Where nothing is chosen, nothing has to come before it. -/
theorem withEarlier_none (chosen : (Nat × Nat) × Option Nat × TrainItem → Bool) (l : List ((Nat × Nat) × Option Nat × TrainItem))
    (h : ∀ x, chosen x = false) : withEarlier chosen l = [] := by
  induction l with
  | nil => rfl
  | cons x l ih =>
    unfold withEarlier at ih ⊢
    rw [List.foldr_cons, ih, if_neg]
    simp [h]

/-- No train of a kind: none is acknowledged. -/
theorem State.settleTrains_none (s : State) (p : Train → Bool) (h : ∀ t ∈ s.trains, p t = false) : s.settleTrains p = s := by
  have hland : (s.landItems fun x => (s.trains[x.1.1]?).elim false p) = s := by
    rw [State.landItems, withEarlier_none]
    · rfl
    · intro x
      cases hx : s.trains[x.1.1]? with
      | none => rfl
      | some t => exact h t (List.mem_of_getElem? hx)
  have hstart : (if s.trains.any Train.spreads then s.landItems fun x => (s.trains[x.1.1]?).elim false p else s) = s := by
    rw [hland, ite_self]
  have hnone : s.trains.filter p = [] := List.filter_eq_nil_iff.mpr fun t ht => by simp [h t ht]
  unfold State.settleTrains
  rw [hstart]
  dsimp only
  rw [hnone]
  rfl

/-- A hart without trains has none acknowledged (R104). -/
theorem State.ackTrains_none (s : State) (h : s.ownTrains = []) : s.ackTrains = s := by
  refine s.settleTrains_none _ fun t ht => ?_
  have hown : ¬ decide (t.hart = some s.hart.id) = true := List.filter_eq_nil_iff.mp h t ht
  simp only [hown, Bool.false_and]

/-- A hart that is up to date settles nothing. -/
theorem State.settleOwn_upToDate (s : State) (h : s.upToDate) : s.settleOwn = s := by
  obtain ⟨hl, ht, hr⟩ := h
  have hlate : s.landLate = s := by rw [State.landLate, hl]
  rw [State.settleOwn, hlate, s.ackTrains_none ht, State.landOwn, hr]
  rfl

theorem State.keepUp_upToDate (s : State) (h : s.upToDate) : s.keepUp = s := by
  rw [State.keepUp, s.settleOwn_upToDate h, ite_self]

/-- Nothing keeps it at a boundary (R105, R343). -/
theorem State.boundaryStop_upToDate (s : State) (h : s.upToDate) (drained : Bool) :
    s.openReg = none ∧ s.boundaryStop drained = none := by
  obtain ⟨-, ht, hr⟩ := h
  have hopen : s.openReg = none := by rw [State.openReg, ht, hr]; rfl
  refine ⟨hopen, ?_⟩
  rw [State.boundaryStop, State.unacked, ht, hr, hopen]
  cases drained <;> rfl

/-- A running hart at a convoy boundary: nothing of its own is under way, it awaits nothing, and no cause is to be taken. -/
structure State.AtBoundary (s : State) : Prop where
  running : s.hart.run = .running
  awaitsNothing : s.hart.wait = none
  noStall : s.hart.stall = none
  current : s.upToDate
  goesOn : s.atEnd = false
  noCause : s.hart.asyncEnabled = true → firstPending s.hart.pending = none

/-- Its turn is that of the convoy at `pc` (R17). -/
theorem State.turn_atBoundary (s : State) (ex : Exec) (h : s.AtBoundary) : s.turn ex = s.convoyTurn ex none none 0 := by
  obtain ⟨hrun, hwait, hstall, hup, hend, hasync⟩ := h
  have hcand : s.hart.candidate = none := by
    rw [Hart.candidate]
    by_cases ha : s.hart.asyncEnabled = true
    · rw [if_pos ha, hasync ha]
    · rw [if_neg ha]
  obtain ⟨hopen, -⟩ := s.boundaryStop_upToDate hup false
  have hbound : s.boundaryTurn ex = s.convoyTurn ex none none 0 := by
    unfold State.boundaryTurn
    simp only [hcand, hopen, (s.boundaryStop_upToDate hup _).2, Option.filter_none, Option.bind_none, Option.isSome_none,
      Bool.and_false, Bool.false_eq_true, if_false, ite_self, State.passBoundary, hstall]
  unfold State.turn
  simp only [hrun, hstall, hwait, Option.isSome_none, Bool.or_self, Bool.false_eq_true, if_false, s.keepUp_upToDate hup, hend]
  unfold State.runningTurn
  simp only [hwait, hstall, hbound]

/-! ### A convoy of one word (R17, R19, R151) -/

/-- None of the convoy causes, nor that of a loop, applies to one word (R19, R175). -/
theorem decodeConvoy_single (h : Hart) (a : Word) (w : BitVec 32) (i : Instr) (hd : decodeWord w = .ok i) :
    decodeConvoy h a [w] = (privilegeCause h [⟨a, w, i⟩]).elim (.ok [⟨a, w, i⟩]) .error := by
  have hwords : decodeWords a [w] = .ok [⟨a, w, i⟩] := by simp only [decodeWords, hd]
  have hconvoy : convoyCause [⟨a, w, i⟩] = none := by
    simp [convoyCause, secondOfClass]
  have hloop : loopCause h [⟨a, w, i⟩] = none := by simp [loopCause]
  unfold decodeConvoy
  simp only [hwords, hconvoy, hloop]
  cases privilegeCause h [⟨a, w, i⟩] <;> rfl

/-- A word that decodes and may run (R151). -/
theorem decodeConvoy_ok (h : Hart) (a : Word) (w : BitVec 32) (i : Instr) (hd : decodeWord w = .ok i)
    (hp : h.priv = .super ∨ i.privileged = false) : decodeConvoy h a [w] = .ok [⟨a, w, i⟩] := by
  have hnone : privilegeCause h [⟨a, w, i⟩] = none := by
    rcases hp with hp | hp
    · simp [privilegeCause, hp]
    · simp [privilegeCause, hp]
  rw [decodeConvoy_single h a w i hd, hnone, Option.elim_none]

/-- A privileged instruction at U (R151 item 4). -/
theorem decodeConvoy_privileged (h : Hart) (a : Word) (w : BitVec 32) (i : Instr) (hd : decodeWord w = .ok i)
    (hu : h.priv = .user) (hp : i.privileged = true) : decodeConvoy h a [w] = .error (wordTrap 5 a w) := by
  have hsome : privilegeCause h [⟨a, w, i⟩] = some (wordTrap 5 a w) := by simp [privilegeCause, hu, hp]
  rw [decodeConvoy_single h a w i hd, hsome, Option.elim_some]

/-- A word that decodes to nothing (R151 item 2). -/
theorem decodeConvoy_illegal (h : Hart) (a : Word) (w : BitVec 32) (e : Reject) (hd : decodeWord w = .error e) :
    decodeConvoy h a [w] = .error (wordTrap 0 a w) := by
  have hwords : decodeWords a [w] = .error (wordTrap 0 a w) := by simp only [decodeWords, hd]
  simp only [decodeConvoy, hwords]

/-- The turn of a convoy of one word that is fetched at a quiet hart: `u` is the state that the fetch leaves (R17, R151). -/
theorem State.convoyTurn_single (s u : State) (ex : Exec) (w : BitVec 32) (hf : (fetchConvoy s.hart.pc).go s = (.ok [w], u))
    (hh : u.hart = s.hart) (hc : u.cores = s.cores) (hstall : s.hart.stall = none) (hlate : s.hart.late = none)
    (hicmp : s.hart.icmp = []) (hlat : (s.coreAt s.hart.core).latNew = none) :
    let z := { u with hart.words := 1 }
    (∀ t, decodeConvoy z.hart s.hart.pc [w] = .error t → s.convoyTurn ex none none 0 = (z.raise t, none))
    ∧ ∀ f, decodeConvoy z.hart s.hart.pc [w] = .ok [f] → s.convoyTurn ex none none 0
        = ((runOn ex f.instr z).finish s.hart.pc [f], some (z, [f], issuedTo z (runOn ex f.instr z))) := by
  intro z
  have hpc : z.hart.pc = s.hart.pc := show u.hart.pc = s.hart.pc from congrArg Hart.pc hh
  have hzstall : z.hart.stall = none := (congrArg Hart.stall hh).trans hstall
  have hhit : ∀ n, z.comparatorHit n = false := fun n => by
    have hi : z.hart.icmp = [] := (congrArg Hart.icmp hh).trans hicmp
    simp [State.comparatorHit, hi]
  have hheld : ∀ fs, z.heldForGrant fs = false := fun fs => by
    have hcore : z.coreAt z.hart.core = s.coreAt s.hart.core :=
      show Tbl.get {} u.cores (u.hart.id / 4) = Tbl.get {} s.cores (s.hart.id / 4) by rw [hh, hc]
    have hl : (z.coreAt z.hart.core).latNew = none := by rw [hcore, hlat]
    simp only [State.heldForGrant, hl]
  have hopen : ∀ fs, z.openLoad fs = z := fun fs => by
    have hl : z.hart.late = none := (congrArg Hart.late hh).trans hlate
    simp only [State.openLoad, hl]
  have hrun : ∀ f : Fetched, z.runFetched ex [f] none none 0 = runOn ex f.instr z := fun f => by
    simp only [State.runFetched, hzstall, Option.bind_none]
  have hz : ({ u with hart.words := min 8 (max 1 [w].length) } : State) = z := rfl
  refine ⟨fun t ht => ?_, fun f hd => ?_⟩
  · unfold State.convoyTurn
    simp only [hf, hz, hhit, hstall, Bool.and_false, Bool.false_and, Bool.false_eq_true, if_false, hpc, ht]
  · unfold State.convoyTurn
    simp only [hf, hz, hhit, hstall, Bool.and_false, Bool.false_and, Bool.false_eq_true, if_false, hpc, hd, hheld, hopen,
      Option.bind_none, hrun]

/-! ### After the turn (R111, R175, R422, R426) -/

/-- With no move of another agent before it, a step is the turn of the current hart and time that passes (R433). -/
theorem step_of_turn (s : State) (hth : s.thermal ≠ .down) (hag : s.agenda = []) : step s = .next (s.takeTurn exec).lapse := by
  unfold step stepWith
  rw [if_neg hth, hag]

/-- A hart that does not count slots counts none (R422). -/
theorem State.countStep_off (ex : Exec) (t s : State) (ms : List Fetched) (hi : Option Nat) (h : s.hart.lcr.on = false) :
    t.countStep ex s ms hi = t := by
  simp [State.countStep, h]

/-- Time changes of a hart the causes that it makes pending and the flushes that it gives up alone (R100, R111, R329). -/
theorem Hart.due_frame (h : Hart) (now : Nat) : ∃ armed pending overflow sent latch, h.due now = { h with
    sliceArmed := armed
    pending := pending
    overflow := overflow
    sent := sent
    latch := latch } := by
  have hslice : ∃ armed pending, sliceDue now h = { h with sliceArmed := armed, pending := pending } := by
    unfold sliceDue
    by_cases hc : (h.sliceArmed && bitOf h.slice 63 && bits h.slice 47 0 ≤ now) = true
    · exact ⟨_, _, if_pos hc⟩
    · exact ⟨h.sliceArmed, h.pending, if_neg hc⟩
  obtain ⟨armed, pending, hs⟩ := hslice
  rw [Hart.due, hs, overflowDue]
  cases List.find? (fun q => decide (q.2.2 ≤ now)) h.overflow with
  | none => exact ⟨armed, pending, h.overflow, h.sent, h.latch, rfl⟩
  | some q => exact ⟨armed, pending, _, _, _, rfl⟩

/-- Time changes nothing of a hart that has no slice armed and awaits no such flush. -/
theorem Hart.due_quiet (h : Hart) (now : Nat) (ha : h.sliceArmed = false) (ho : h.overflow = []) : h.due now = h := by
  simp [Hart.due, sliceDue, overflowDue, ha, ho]

/-- Nothing is watched and no step is single: no debug cause is posted (R426). -/
theorem State.debugAfter_none (t : State) (head : Word) (hw : t.hart.watched = []) (hs : t.hart.stepping = false) :
    t.debugAfter head = t := by
  have hfilter : ∀ p : Word × Word → Bool, t.hart.watched.filter p = t.hart.watched := fun p => by rw [hw]; rfl
  have hsame : ({ t with hart.watched := t.hart.watched.filter fun w => w.1 ≠ head } : State) = t :=
    congrArg (fun l => ({ t with hart.watched := l } : State)) (hfilter _)
  unfold State.debugAfter
  rw [hsame, hfilter, hw]
  exact if_neg (by rw [List.foldl_nil, hs]; exact Bool.false_ne_true)

/-- A completion outside the loop, with nothing watched and no single step (R175, R426). -/
theorem State.finish_plain (t : State) (head : Word) (f : Fetched) (hl : t.hart.lcnt = 0) (hw : t.hart.watched = [])
    (hs : t.hart.stepping = false) : t.finish head [f] = if t.hart.retired = true then { t with
      hart.retired := false
      hart.took := false
      hart.resumed := t.hart.resumed && f.returns
      hart.splitAt := none } else t := by
  have hloop : t.loopBack f = t := by simp [State.loopBack, hl]
  unfold State.finish
  rw [List.getLast?_singleton]
  dsimp only
  rw [hloop, t.debugAfter_none head hw hs]
  rfl

/-! ### The step -/

/-- What the fetch of a convoy of one word needs at a running hart with nothing before it: `u` is the state it leaves. -/
structure State.FetchesOne (s u : State) (w : BitVec 32) : Prop where
  awake : s.thermal ≠ .down
  first : s.agenda = []
  boundary : s.AtBoundary
  unwatched : s.hart.icmp = []
  granted : (s.coreAt s.hart.core).latNew = none
  fetched : (fetchConvoy s.hart.pc).go s = (.ok [w], u)
  keepsHart : u.hart = s.hart
  keepsCores : u.cores = s.cores

/-- The state in which its word runs. -/
def State.withOneWord (u : State) : State := { u with hart.words := 1 }

/-- What the fetch keeps of the hart that runs it. -/
theorem State.FetchesOne.kept {s u : State} {w : BitVec 32} (h : s.FetchesOne u w) :
    u.withOneWord.hart.pc = s.hart.pc ∧ u.withOneWord.hart.priv = s.hart.priv ∧ u.withOneWord.hart.lcr = s.hart.lcr
      ∧ u.withOneWord.hart.x = s.hart.x ∧ u.withOneWord.hart.v = s.hart.v := by
  rw [State.withOneWord, h.keepsHart]
  exact ⟨rfl, rfl, rfl, rfl, rfl⟩

/-- A step of a convoy of one word that may run is that of its instruction (R17). -/
theorem step_single_ok (s u : State) (w : BitVec 32) (f : Fetched) (v : State) (h : s.FetchesOne u w)
    (hd : decodeConvoy u.withOneWord.hart s.hart.pc [w] = .ok [f]) (hv : exec f.instr u.withOneWord = .next v) :
    step s = .next ((v.finish s.hart.pc [f]).countStep exec u.withOneWord [f] (issuedTo u.withOneWord v)).lapse := by
  have hturn : s.turn exec = (v.finish s.hart.pc [f], some (u.withOneWord, [f], issuedTo u.withOneWord v)) := by
    have hrun : runOn exec f.instr u.withOneWord = v := by rw [runOn, hv]
    rw [s.turn_atBoundary exec h.boundary, ← hrun]
    exact (s.convoyTurn_single u exec w h.fetched h.keepsHart h.keepsCores h.boundary.noStall h.boundary.current.1
      h.unwatched h.granted).2 f hd
  rw [step_of_turn s h.awake h.first, State.takeTurn, hturn]

/-- A step of a convoy of one word that does not decode, or may not run, is its trap (R151). -/
theorem step_single_error (s u : State) (w : BitVec 32) (t : Trap) (h : s.FetchesOne u w) (hlcr : s.hart.lcr.on = false)
    (hd : decodeConvoy u.withOneWord.hart s.hart.pc [w] = .error t) : step s = .next (u.withOneWord.raise t).lapse := by
  have hturn : s.turn exec = (u.withOneWord.raise t, none) := by
    rw [s.turn_atBoundary exec h.boundary]
    exact (s.convoyTurn_single u exec w h.fetched h.keepsHart h.keepsCores h.boundary.noStall h.boundary.current.1
      h.unwatched h.granted).1 t hd
  have hoff : (u.withOneWord.raise t).hart.lcr.on = false := by
    rw [(u.withOneWord.raise_traps t.code t.tval t.tval2).1]
    obtain ⟨-, -, hkept, -, -⟩ := h.kept
    exact (congrArg Lcr.on hkept).trans hlcr
  rw [step_of_turn s h.awake h.first, State.takeTurn, hturn]
  dsimp only
  rw [State.countStep_off _ _ _ _ _ hoff]

/-- The trap of a word, as it stands after the step that takes it (R151, R340). -/
theorem step_single_trap (s u : State) (w : BitVec 32) (code : Nat) (hcode : ¬ (74 ≤ code ∧ code ≤ 95)) (h : s.FetchesOne u w)
    (hlcr : s.hart.lcr.on = false) (hoff : u.part.traceSize = 0)
    (hd : decodeConvoy u.withOneWord.hart s.hart.pc [w] = .error (wordTrap code s.hart.pc w)) :
    ∃ t, step s = .next t ∧ t.hart.cause = word code ∧ t.hart.tval = s.hart.pc ∧ t.hart.tval2 = w.zeroExtend 64
      ∧ t.hart.epc = s.hart.pc &&& ~~~3 ∧ t.hart.priv = .super ∧ t.hart.x = s.hart.x ∧ t.hart.v = s.hart.v ∧ t.mem = u.mem := by
  have htrap : u.withOneWord.raise (wordTrap code s.hart.pc w)
      = u.withOneWord.trapEntry code s.hart.pc (w.zeroExtend 64) u.withOneWord.hart.pc false :=
    (u.withOneWord.raise_traps code s.hart.pc (w.zeroExtend 64)).2 hoff
  refine ⟨_, step_single_error s u w _ h hlcr hd, ?_⟩
  rw [htrap]
  generalize hq : u.withOneWord.trapEntry code s.hart.pc (w.zeroExtend 64) u.withOneWord.hart.pc false = q
  obtain ⟨armed, pending, overflow, sent, latch, hdue⟩ :=
    Hart.due_frame q.hart (q.othersStall.now + word (Config.elapsed q.clock)).toNat
  have hlapse : q.lapse.hart = { q.hart with
      sliceArmed := armed
      pending := pending
      overflow := overflow
      sent := sent
      latch := latch } := hdue
  have hmem : q.lapse.mem = q.mem := rfl
  obtain ⟨hpc, -, -, hx, hv⟩ := h.kept
  rw [hlapse, hmem, ← hq]
  exact ⟨if_neg hcode, rfl, rfl, congrArg (· &&& ~~~3) hpc, rfl, hx, hv, rfl⟩

/-- A completion with nothing to follow it, after the time that passes (R175, R426, R433). -/
theorem State.lapse_finish_plain (v : State) (head : Word) (f : Fetched) (hl : v.hart.lcnt = 0) (hw : v.hart.watched = [])
    (hs : v.hart.stepping = false) (ha : v.hart.sliceArmed = false) (ho : v.hart.overflow = []) :
    let t := (v.finish head [f]).lapse
    t.mem = v.mem ∧ t.spad = v.spad ∧ t.lane = v.lane
      ∧ t.hart = if v.hart.retired = true then { v.hart with
          retired := false
          took := false
          resumed := v.hart.resumed && f.returns
          splitAt := none } else v.hart := by
  intro t
  have ht : t = (v.finish head [f]).lapse := rfl
  rw [v.finish_plain head f hl hw hs] at ht
  by_cases hr : v.hart.retired = true
  · rw [if_pos hr] at ht
    rw [if_pos hr, ht]
    exact ⟨rfl, rfl, rfl, Hart.due_quiet _ _ ha ho⟩
  · rw [if_neg hr] at ht
    rw [if_neg hr, ht]
    exact ⟨rfl, rfl, rfl, Hart.due_quiet _ _ ha ho⟩

/-- Settles O3: the hypotheses make the turn that of the convoy at `pc`, and a convoy of one word is its `decodeWord`. -/
theorem stepRunsDecoded : Obligations.StepRunsDecoded := by
  unfold Obligations.StepRunsDecoded
  intro s u w h hawake hfirst hrun hwait hstall hup hend hasync hicmp hgrant hfetch hhart hcores _
  have hf : s.FetchesOne u w :=
    ⟨hawake, hfirst, ⟨hrun, hwait, hstall, hup, hend, hasync⟩, hicmp, hgrant, hfetch, hhart, hcores⟩
  obtain ⟨-, hpriv, hkept, -, -⟩ := hf.kept
  refine ⟨fun i hd hp v hv => ?_, fun i hd hu hp hlcr hoff => ?_, fun e hd hlcr hoff => ?_⟩
  · have hok := decodeConvoy_ok u.withOneWord.hart h.pc w i hd (hp.imp_left hpriv.trans)
    have hstep := step_single_ok s u w ⟨h.pc, w, i⟩ v hf hok hv
    refine ⟨hstep, fun hl hw hs hlcr ha ho => ⟨_, hstep, ?_⟩⟩
    have hoff : u.withOneWord.hart.lcr.on = false := (congrArg Lcr.on hkept).trans hlcr
    rw [State.countStep_off _ _ _ _ _ hoff]
    exact v.lapse_finish_plain h.pc ⟨h.pc, w, i⟩ hl hw hs ha ho
  · exact step_single_trap s u w 5 (by decide) hf hlcr hoff
      (decodeConvoy_privileged u.withOneWord.hart h.pc w i hd (hpriv.trans hu) hp)
  · exact step_single_trap s u w 0 (by decide) hf hlcr hoff (decodeConvoy_illegal u.withOneWord.hart h.pc w e hd)

end Sys2Proof.Machine
end

section
/-! SUPPORT. The state after reset, and integer elements (R34, R247). -/

namespace Sys2Proof.Machine

/-! ### Reset -/

/-- One more byte of 0x7F below the others. -/
theorem ones7F_succ (n : Nat) : ones7F (n + 1) = ones7F n * 256 + 0x7F := by
  obtain ⟨q, hq⟩ : ∃ q, 2 ^ (8 * n) = 255 * q + 1 := by
    induction n with
    | zero => exact ⟨0, rfl⟩
    | succ n ih =>
      obtain ⟨q, hq⟩ := ih
      exact ⟨256 * q + 1, by rw [Nat.mul_succ, Nat.pow_add, hq]; omega⟩
  have hs : 2 ^ (8 * (n + 1)) = (255 * q + 1) * 256 := by rw [Nat.mul_succ, Nat.pow_add, hq]
  rw [ones7F, ones7F, hs, hq]
  omega

/-- Every byte of a run of 0x7F is 0x7F. -/
theorem elemOf_ones7F (n i : Nat) (h : i < n) : elemOf (ones7F n) 8 i = 0x7F := by
  induction i generalizing n with
  | zero =>
    obtain ⟨k, rfl⟩ : ∃ k, n = k + 1 := ⟨n - 1, by omega⟩
    rw [ones7F_succ, elemOf]
    omega
  | succ i ih =>
    obtain ⟨k, rfl⟩ : ∃ k, n = k + 1 := ⟨n - 1, by omega⟩
    have hk : (ones7F k * 256 + 0x7F) / 2 ^ 8 = ones7F k := by omega
    have step : elemOf (ones7F k * 256 + 0x7F) 8 (i + 1) = elemOf (ones7F k) 8 i := by
      rw [elemOf, elemOf, Nat.succ_mul, Nat.add_comm (i * 8), Nat.pow_add, ← Nat.div_div_eq_div_mul, hk]
    rw [ones7F_succ, step, ih k (by omega)]

/-- The memories and the tables of the machine after reset are in their canonical form. -/
theorem State.reset_canonical : State.reset.canonical :=
  ⟨rfl, rfl, rfl, rfl, rfl, rfl, rfl, List.Pairwise.nil⟩

/-- Every tile register is in its reset value (R247). -/
theorem State.reset_tile (t : BitVec 2) : State.reset.tile t = Tile.reset :=
  Vector.getElem_replicate ..

/-- Settles O5: the fields of `State.reset`, and the scales of `Tile.reset` byte by byte. -/
theorem resetState : Obligations.ResetState := by
  unfold Obligations.ResetState
  refine ⟨State.reset_canonical, rfl, rfl, rfl, rfl, rfl, rfl, rfl, rfl, rfl, rfl, rfl, rfl, rfl, fun t => ?_, rfl, rfl, rfl⟩
  rw [State.reset_tile]
  exact ⟨rfl, elemOf_ones7F 2048⟩

/-! ### Integer elements (R34) -/

/-- The low bits of an integer, as an integer. -/
theorem wrap_cast (w : Nat) (x : Int) : (wrap w x : Int) = x % 2 ^ w := by
  rw [wrap, Int.toNat_of_nonneg (Int.emod_nonneg _ (by positivity))]
  push_cast
  rfl

/-- They fit their width. -/
theorem wrap_lt (w : Nat) (x : Int) : wrap w x < 2 ^ w := by
  have h : (wrap w x : Int) < 2 ^ w := by
    rw [wrap_cast]
    exact Int.emod_lt_of_pos _ (by positivity)
  exact_mod_cast h

/-- An element of an integer type is congruent to its code. -/
theorem intOf_modEq (et x : Nat) : intOf et x ≡ x [ZMOD 2 ^ etWidth et] := by
  have hmod : ((x % 2 ^ etWidth et : Nat) : Int) ≡ x [ZMOD 2 ^ etWidth et] := by
    push_cast
    exact Int.mod_modEq ..
  unfold intOf signed
  split
  · split
    · exact hmod
    · refine Int.ModEq.trans ?_ hmod
      rw [Int.modEq_iff_dvd]
      exact ⟨1, by push_cast; ring⟩
  · exact hmod

/-- An integer result is any integer that it is congruent to, modulo 2^w, and raises no flag. -/
theorem intResult_wraps (et : Nat) {u v : Int} (h : u ≡ v [ZMOD 2 ^ etWidth et]) :
    (intResult et u).1 < 2 ^ etWidth et ∧ (((intResult et u).1 : Int) - v) % 2 ^ etWidth et = 0 ∧ (intResult et u).2 = 0 := by
  refine ⟨wrap_lt _ _, ?_, rfl⟩
  rw [intResult, wrap_cast]
  exact Int.emod_eq_zero_of_dvd (((Int.mod_modEq u _).trans h).symm.dvd)

/-- The integer types (R193). -/
theorem etInt_of_lt {et : Nat} (h : et < 8) : etInt et = true := decide_eq_true h

/-- A saturated result: the nearer bound of the type, with SAT, or the value itself (R34). -/
theorem satResult_eq (et : Nat) (v : Int) : satResult et v =
    if v < intMin et then (wrap (etWidth et) (intMin et), 32)
    else if intMax et < v then (wrap (etWidth et) (intMax et), 32) else (wrap (etWidth et) v, 0) := by
  unfold satResult clampInt
  split
  · rfl
  · split <;> rfl

/-- Settles O25: on an integer type each operation is the integer operation on `intOf`, which is congruent to the code. -/
theorem integerElements : Obligations.IntegerElements := by
  unfold Obligations.IntegerElements
  intro et rm l a b z het _ _ w wraps
  have hi := etInt_of_lt het
  have ha := intOf_modEq et a
  have hb := intOf_modEq et b
  have hz := intOf_modEq et z
  have hadd : opAdd et rm l a b z = intResult et (intOf et a + intOf et b) := by rw [opAdd, if_pos hi]
  have hsub : opSub et rm l a b z = intResult et (intOf et a - intOf et b) := by rw [opSub, if_pos hi]
  have hmul : opMul et rm l a b z = intResult et (intOf et a * intOf et b) := by rw [opMul, if_pos hi]
  have hneg : opNeg et rm l a b z = intResult et (-intOf et a) := by rw [opNeg, if_pos hi]
  have hfma : opFused false false et rm l a b z = intResult et (intOf et a * intOf et b + intOf et z) := by
    simp only [opFused, if_pos hi, Bool.false_eq_true, if_false]
  refine ⟨?_, ?_, ?_, ?_, ?_, rfl, rfl, fun h0 => ⟨?_, ?_⟩, fun h0 => ⟨?_, ?_⟩, satResult_eq et⟩
  · exact hadd ▸ intResult_wraps et (ha.add hb)
  · exact hsub ▸ intResult_wraps et (ha.sub hb)
  · exact hmul ▸ intResult_wraps et (ha.mul hb)
  · exact hneg ▸ intResult_wraps et ha.neg
  · exact hfma ▸ intResult_wraps et ((ha.mul hb).add hz)
  · rw [opDiv, if_pos hi, if_pos h0]
  · rw [opRem, if_pos h0]
  · rw [opDiv, if_pos hi, if_neg h0]
    exact intResult_wraps et (Int.ModEq.refl _)
  · rw [opRem, if_neg h0]
    exact intResult_wraps et (Int.ModEq.refl _)

end Sys2Proof.Machine
end

section
/-! SUPPORT. Stops at an element: where the element loop stops, and what it leaves (R44, R345). -/

namespace Sys2Proof.Machine

/-! ### A member that stands alone in its convoy -/

/-- No train of the hart waits for an acknowledgement (R105), so a trap lands at once (R344, R345). -/
theorem State.landAt_acked (u : State) (start p : Nat) (committed : Bool) (cause : Trap) (h : u.unacked = []) :
    u.landAt start p committed cause = u.enterTrap cause u.hart.pc (decide (start < p) || committed) := by
  rw [State.landAt, if_pos h]

/-- A member that stands alone starts at `VSTART`. -/
theorem State.convoyStart_alone (s : State) (ha : s.alone) : s.convoyStart = s.hart.vstart := by
  obtain ⟨-, -, hst, -, -⟩ := ha
  simp [State.convoyStart, hst]

/-- The state with other registers, flags and `STATUS`.VS: all that a body without a memory access changes. -/
def State.withVector (s : State) (v : Vector Nat 32) (fl : BitVec 7) (vs : Lazy) : State :=
  { s with
    hart.v := v
    hart.flags := fl
    hart.status.vs := vs }

/-- It lands on a trap at position `k` with `VSTART` = `k`, the registers and flags as they are below the stop, and the LFSR as the
member found it (R345). -/
theorem State.stopAt_trap (s : State) (v : Vector Nat 32) (fl : BitVec 7) (vs : Lazy) (k : Nat) (t : Trap) (ha : s.alone) :
    s.stopAt (s.withVector v fl vs) k (.trap t)
      = ({ s.withVector v fl vs with hart.vstart := k } : State).enterTrap t s.hart.pc (decide (s.hart.vstart < k)) := by
  have hstart := s.convoyStart_alone ha
  obtain ⟨hcv, -, hst, -, hun⟩ := ha
  simp only [State.stopAt, State.pause, State.withVector, hcv, State.ackSent, hst, Option.isNone_none, Bool.and_true, decide_true, if_true,
    BitVec.ofNat_eq_ofNat, BitVec.or_zero]
  rw [State.landAt_acked _ _ _ _ _ (by exact hun), hstart, Bool.or_false]

/-- A trap before the first position leaves the state as it was (R345). -/
theorem State.stopAt_start (s : State) (t : Trap) (ha : s.alone) : s.stopAt s s.hart.vstart (.trap t) = s.raise t := by
  have h := s.stopAt_trap s.hart.v s.hart.flags s.hart.status.vs s.hart.vstart t ha
  rwa [decide_eq_false (Nat.lt_irrefl _)] at h

section
variable (s z : State) (checks : M Unit) (count : State → Nat) (m : Bool) (reads : State → Reads) (steps : State → Nat)
  (body : Nat → Nat → Bool → State → Pass) (always : Bool) (fin : State → State)

/-- Once its checks have left `z`, its body runs over all its positions; where that stops, it stops (R345). -/
theorem State.member_stops (hc : checks.go s = (.ok (), z)) (ha : z.alone) (hb : z.hart.vstart < count z ∨ always = true)
    (k : Nat) (h : Halt) (r : Pass) (hr : body z.hart.vstart (count z) true z = r) (hs : r.stop = some (k, h)) :
    s.member checks count m reads steps body always fin = z.stopAt r.done k h := by
  obtain ⟨hcv, hres, -, hfly, -⟩ := ha
  have hrun : (decide (z.hart.vstart < count z) || always) = true := by
    rcases hb with h | h <;> simp [h]
  unfold State.member
  rw [hc]
  simp only [hcv, hres, Option.elim_none, Option.bind_none, Option.getD_none, Nat.min_self, Bool.false_and, Bool.false_eq_true,
    if_false, z.landedStop_none _ _ _ _ hfly, Option.map_none, ite_self, Option.isNone_none, Bool.or_false, Bool.and_true, hrun,
    if_true, decide_true, hr, hs]

/-- A member whose body stops nowhere completes (R189). -/
theorem State.member_completes (hc : checks.go s = (.ok (), z)) (ha : z.alone) (hb : z.hart.vstart < count z ∨ always = true)
    (r : Pass) (hr : body z.hart.vstart (count z) true z = r) (hs : r.stop = none) (ht : r.trim = none) :
    s.member checks count m reads steps body always fin = { fin (r.done.stepLfsr (steps z)) with hart.vstart := 0 }.advance := by
  obtain ⟨hcv, hres, -, hfly, -⟩ := ha
  have hrun : (decide (z.hart.vstart < count z) || always) = true := by
    rcases hb with h | h <;> simp [h]
  unfold State.member
  rw [hc]
  simp only [hcv, hres, Option.elim_none, Option.bind_none, Option.getD_none, Nat.min_self, Bool.false_and, Bool.false_eq_true,
    if_false, z.landedStop_none _ _ _ _ hfly, Option.map_none, ite_self, Option.isNone_none, Bool.or_false, Bool.and_true, hrun,
    if_true, decide_true, hr, hs, ht]

end

/-! ### Where the element loop stops (R44) -/

/-- An enabled flag gives one of the causes 32 to 38 (R44). -/
theorem flagCause_lt {frm : BitVec 15} {fl c : Nat} (h : flagCause frm fl = some c) : c < 74 := by
  unfold flagCause at h
  dsimp only at h
  split_ifs at h <;> (injection h; omega)

/-- The first element of a span at which something is found, when nothing is found below it. -/
theorem findSome?_span {α : Type} (f : Nat → Option α) (lo hi k : Nat) (x : α) (hlo : lo ≤ k) (hhi : k < hi)
    (hbelow : ∀ e, lo ≤ e → e < k → f e = none) (hk : f k = some x) :
    ((List.range (hi - lo)).map (· + lo)).findSome? f = some x := by
  have hsplit : (List.range (hi - lo)).map (· + lo)
      = (List.range (k - lo)).map (· + lo) ++ k :: (List.range (hi - (k + 1))).map (· + (k + 1)) := by
    have h1 : hi - lo = (k - lo) + (1 + (hi - (k + 1))) := by omega
    rw [h1, List.range_add, List.range_add, List.map_append, List.map_append, List.map_append, List.map_map, List.map_map,
      List.map_map]
    simp only [List.range_one, List.map_cons, List.map_nil, List.singleton_append, Function.comp_apply]
    congr 2
    · omega
    · exact List.map_congr_left fun i _ => by simp only [Function.comp_apply]; omega
  rw [hsplit, List.findSome?_append, List.findSome?_eq_none_iff.mpr, List.findSome?_cons, hk]
  · rfl
  · intro e he
    obtain ⟨i, hi, rfl⟩ := List.mem_map.mp he
    exact hbelow _ (by omega) (by have := List.mem_range.mp hi; omega)

/-- The first element in ascending order at which the lowest row raises an enabled flag (R44). -/
theorem State.flagStop_first (s : State) (rows lo hi : Nat) (m : Bool) (fl : Nat → Nat → Nat) (k i c : Nat) (hlo : lo ≤ k)
    (hhi : k < hi)
    (hbelow : ∀ e, lo ≤ e → e < k → s.active m e = true → ∀ i, i < rows → flagCause s.hart.frm (fl i e) = none)
    (hk : s.active m k = true) (hi' : i < rows) (hc : flagCause s.hart.frm (fl i k) = some c)
    (hrows : ∀ j, j < i → flagCause s.hart.frm (fl j k) = none) : s.flagStop rows lo hi m fl = some (k, c) := by
  refine findSome?_span _ lo hi k _ hlo hhi (fun e he1 he2 => ?_) ?_
  · split
    · next ha =>
      rw [List.findSome?_eq_none_iff]
      intro r hr
      rw [hbelow e he1 he2 ha r (List.mem_range.mp hr)]
      rfl
    · rfl
  · rw [if_pos hk]
    have hrow := findSome?_span (fun r => (flagCause s.hart.frm (fl r k)).map fun c => (k, c)) 0 rows i (k, c) (Nat.zero_le _)
      hi' (fun j _ hj => by rw [hrows j hj]; rfl) (by rw [hc]; rfl)
    simpa using hrow

/-- A register as a row of one. -/
theorem State.row_one (s : State) (n : Nat) : s.row n 1 = s.reg n := by
  simp [State.row]

/-- `STATUS`.VS set to Dirty or not, as one update. -/
theorem State.dirtyVIf_eq (s : State) (c : Bool) :
    s.dirtyVIf c = { s with hart.status.vs := if c then .dirty else s.hart.status.vs } := by
  cases c <;> rfl

/-- What the element loop leaves when it stops at element `k`: the elements below `k` and their flags (R44). -/
theorem State.loop_stops (s : State) (m : Bool) (d rows q w lo hi : Nat) (f : Nat → Nat → Nat × Nat) (k c : Nat) (hq : 0 < q)
    (hfit : d + rows * q ≤ 32) (hstop : s.flagStop rows lo hi m (fun r e => (f r e).2) = some (k, c)) :
    let p := s.loop m d rows q w lo hi true f
    p.stop = some (k, .trap ⟨c, word k, s.hart.pc⟩)
      ∧ (∃ vs, p.done = s.withVector p.done.hart.v
          (s.hart.flags ||| .ofNat 7 (s.loopFlags rows lo k m fun r e => (f r e).2)) vs)
      ∧ (∀ r, r < rows → ∀ e, (e + 1) * w ≤ q * s.maxBits → elemOf (p.done.row (d + r * q) q) w e =
          if lo ≤ e ∧ e < k then
            (if s.active m e then (f r e).1 % 2 ^ w else if s.hart.mp then 0 else elemOf (s.row (d + r * q) q) w e)
          else elemOf (s.row (d + r * q) q) w e)
      ∧ ∀ n, ¬ (d ≤ n ∧ n < d + rows * q) → p.done.reg n = s.reg n := by
  intro p
  have hp : p = s.loop m d rows q w lo hi true f := rfl
  unfold State.loop at hp
  simp only [hstop, Option.map_some, Option.elim_some, Option.isNone_some, Bool.and_false, Bool.false_and, Bool.false_eq_true,
    if_false, Bool.or_false] at hp
  have hrows := s.setRows d rows q (fun r => s.loopRow m w lo k (fun e => (f r e).1) (s.row (d + r * q) q)) hq hfit
  have hframe := s.setRows_frame d rows q fun r => s.loopRow m w lo k (fun e => (f r e).1) (s.row (d + r * q) q)
  dsimp only at hrows hframe
  generalize (List.range rows).foldl (fun t r => t.setRow (d + r * q) q
    (s.loopRow m w lo k (fun e => (f r e).1) (s.row (d + r * q) q))) s = u at hp hrows hframe
  obtain ⟨hb, helem, hreg⟩ := hrows
  have hv : p.done.hart.v = u.hart.v := by
    rw [hp, State.dirtyVIf_eq]
    rfl
  have hmax : p.done.maxBits = u.maxBits := by rw [hp, State.maxBits_dirtyVIf, State.maxBits_raiseFlags]
  refine ⟨by rw [hp], ⟨if s.touches m lo k then .dirty else s.hart.status.vs, ?_⟩, fun r hr e he => ?_, fun n hn => ?_⟩
  · rw [hv, hp, State.dirtyVIf_eq, hframe]
    rfl
  · rw [u.row_of_v p.done hv hmax, helem r hr w e he, State.loopRow_elem]
  · rw [← hreg n hn]
    simp [State.reg, hv]

/-- An element-wise instruction that stops at element `k` traps there, with everything below `k` performed (R44, R345). -/
theorem State.member_trapsAt (s : State) (checks : M Unit) (m : Bool) (reads : State → Reads) (steps : State → Nat)
    (body : Nat → Nat → Bool → State → Pass) (d rows w : Nat) (f : Nat → Nat → Nat × Nat) (k c : Nat) (ha : s.alone)
    (hc : checks.go s = (.ok (), s)) (hbody : ∀ lo hi last, body lo hi last s = s.loop m d rows 1 w lo hi last f)
    (hfit : d + rows ≤ 32) (hlt : s.hart.vstart < s.hart.vl) (hcode : c < 74) (hoff : s.part.traceSize = 0)
    (hstop : s.flagStop rows s.hart.vstart s.hart.vl m (fun r e => (f r e).2) = some (k, c)) :
    let t := s.member checks State.vlNow m reads steps body
    t.hart.cause = word c ∧ t.hart.tval = word k ∧ t.hart.tval2 = s.hart.pc ∧ t.hart.epc = s.hart.pc &&& ~~~3
      ∧ t.hart.vstart = k ∧ t.hart.status.cvr = decide (s.hart.vstart < k)
      ∧ t.hart.x = s.hart.x ∧ t.hart.srseed = s.hart.srseed
      ∧ t.hart.flags = s.hart.flags ||| .ofNat 7 (s.loopFlags rows s.hart.vstart k m fun r e => (f r e).2)
      ∧ (∀ i, i < rows → ∀ e, (e + 1) * w ≤ s.maxBits → t.elem (d + i) w e =
        if s.hart.vstart ≤ e ∧ e < k then
          (if s.active m e then (f i e).1 % 2 ^ w else if s.hart.mp then 0 else s.elem (d + i) w e)
        else s.elem (d + i) w e)
      ∧ ∀ n, ¬ (d ≤ n ∧ n < d + rows) → t.reg n = s.reg n := by
  intro t
  have hvl : s.vlNow = s.hart.vl := by
    obtain ⟨hcv, -⟩ := ha
    simp [State.vlNow, hcv]
  obtain ⟨hs, ⟨vs, hdone⟩, helem, hreg⟩ :=
    s.loop_stops m d rows 1 w s.hart.vstart s.hart.vl f k c Nat.one_pos (by omega) hstop
  generalize hp : s.loop m d rows 1 w s.hart.vstart s.hart.vl true f = p at hs hdone helem hreg
  have ht : t = ({ s.withVector p.done.hart.v
      (s.hart.flags ||| .ofNat 7 (s.loopFlags rows s.hart.vstart k m fun r e => (f r e).2)) vs with hart.vstart := k } : State).trapEntry
        c (word k) s.hart.pc s.hart.pc (decide (s.hart.vstart < k)) := by
    have hm := s.member_stops s checks State.vlNow m reads steps body false id hc ha (Or.inl (hvl.symm ▸ hlt)) k _ p
      (by rw [hbody, hvl, hp]) hs
    rw [hdone, s.stopAt_trap _ _ _ _ _ ha] at hm
    exact hm.trans ((State.enterTrap_trapsAt _ _ _ _).2 hoff)
  have hv : t.hart.v = p.done.hart.v := by rw [ht]; rfl
  have hr : ∀ n, t.reg n = p.done.reg n := fun n => by simp [State.reg, hv]
  refine ⟨?_, ?_, ?_, ?_, ?_, ?_, ?_, ?_, ?_, fun i hi e he => ?_, fun n hn => ?_⟩
  · rw [ht]
    exact if_neg fun h => absurd h.1 (by omega)
  · rw [ht]; rfl
  · rw [ht]; rfl
  · rw [ht]; rfl
  · rw [ht]; rfl
  · rw [ht]; rfl
  · rw [ht]; rfl
  · rw [ht]; rfl
  · rw [ht]; rfl
  · have h := helem i hi e (by omega)
    rw [Nat.mul_one, State.row_one, State.row_one] at h
    rw [State.elem, hr, h]
    rfl
  · rw [hr, hreg n (by omega)]

/-- Settles O26: `vdiv` goes through the element loop, whose first element with an enabled flag is `k`. -/
theorem elementTraps : Obligations.ElementTraps := by
  unfold Obligations.ElementTraps
  intro s m d a b k c et w rows f ha hr hd hs hb hlo hhi hoff hbelow hk ⟨i, hi, hc, hrows⟩
  have hfit : d.toNat + rows ≤ 32 := hd.2.2.trans s.hart.declared_le
  have hstop := s.flagStop_first rows s.hart.vstart s.hart.vl m (fun r e => (f r e).2) k i c hlo hhi hbelow hk hi hc hrows
  refine ⟨_, rfl, ?_⟩
  unfold State.binary
  refine State.member_trapsAt s _ m _ _ _ d.toNat rows w f k c ha ?_ (fun _ _ _ => rfl) hfit (by omega) (flagCause_lt hc) hoff
    hstop
  simp [s.vectorCheck_ok _ hr, s.tileCheck_ok _ _ hd, s.tileCheck_ok _ _ hs, s.operandCheck_ok _ _ hb, rows]

end Sys2Proof.Machine
end

section
/-! SUPPORT. Reductions of row 0 (R52, R53, R214, R215). -/

namespace Sys2Proof.Machine

/-! ### Members that act as a whole (R346) -/

/-- Nothing done: `VSTART` = 0 and the next word. -/
theorem State.vectorNext_idle (s : State) (n : Nat) :
    ({ s.stepLfsr n with hart.vstart := 0 } : State).advance = s.vectorNext s.hart.v 0 false n := by
  simp [State.vectorNext, State.wrote, State.advance, State.stepLfsr]

/-- A hart alone in its convoy sees the `VL` at issue (R345). -/
theorem State.vlNow_alone (s : State) (ha : s.alone) : s.vlNow = s.hart.vl := by
  obtain ⟨hcv, -⟩ := ha
  simp [State.vlNow, hcv]

section
variable (s : State) (checks : M Unit) (m : Bool) (reads : State → Reads) (body : Nat → Nat → State → Pass) (r : Pass)

/-- A member that acts as a whole and stops on a trap has done nothing (R346). -/
theorem State.wholeMember_traps (ha : s.alone) (hc : checks.go s = (.ok (), s)) (hr : body s.hart.vstart s.hart.vl s = r)
    (k code : Nat) (tval : Word) (hs : r.stop = some (k, .trap ⟨code, tval, s.hart.pc⟩)) :
    s.traps (s.wholeMember checks m reads body) code tval s.hart.pc := by
  have hres : s.hart.resumed = false := ha.2.1
  have h : s.wholeMember checks m reads body = s.stopAt s s.hart.vstart (.trap ⟨code, tval, s.hart.pc⟩) := by
    unfold State.wholeMember
    refine s.member_stops s checks _ m reads _ _ true id hc ha (Or.inr rfl) s.hart.vstart _ ⟨s, _, none⟩ ?_ rfl
    simp only [s.vlNow_alone ha, hres, Bool.false_eq_true, if_false, hr, hs]
  rw [h, s.stopAt_start _ ha]
  exact s.raise_traps code tval s.hart.pc

/-- A member that acts as a whole and stops nowhere completes. -/
theorem State.wholeMember_completes (ha : s.alone) (hc : checks.go s = (.ok (), s)) (hr : body s.hart.vstart s.hart.vl s = r)
    (hs : r.stop = none) (ht : r.trim = none) :
    s.wholeMember checks m reads body = ({ r.done.stepLfsr 0 with hart.vstart := 0 } : State).advance := by
  have hres : s.hart.resumed = false := ha.2.1
  unfold State.wholeMember
  refine s.member_completes s checks _ m reads _ _ true id hc ha (Or.inr rfl) r ?_ hs ht
  simp only [s.vlNow_alone ha, hres, Bool.false_eq_true, if_false, hr, hs]

end

/-! ### Reductions of row 0 (R214, R215) -/

/-- The leaves of a reduction: the active elements from `VSTART` to `VL` − 1 (R52). -/
def State.leaves (s : State) (m : Bool) (a : VReg) : List (Option Nat) :=
  (List.range s.hart.vl).map fun e =>
    if s.hart.vstart ≤ e ∧ s.active m e = true then some (s.elem a.toNat (etWidth s.hart.et) e) else none

/-- A register whose element 0 is written, its tail cleared under TP (R215). -/
def State.reduced (s : State) (d : VReg) (x : Nat) : State :=
  let t := s.setElem d.toNat (etWidth s.hart.et) 0 x
  if s.hart.tp then t.zeroFrom d.toNat (etWidth s.hart.et) else t

/-- It leaves all but the registers. -/
theorem State.reduced_frame (s : State) (d : VReg) (x : Nat) : s.reduced d x = { s with hart.v := (s.reduced d x).hart.v } := by
  unfold State.reduced State.zeroFrom State.setElem State.setReg
  have hd : d.toNat < 32 := d.isLt
  simp only [dif_pos hd]
  split <;> rfl

/-- The elements of the destination. -/
theorem State.reduced_elem (s : State) (d : VReg) (x e : Nat) (he : e ≠ 0 → (e + 1) * etWidth s.hart.et ≤ s.maxBits) :
    (s.reduced d x).elem d.toNat (etWidth s.hart.et) e =
      if e = 0 then x % 2 ^ etWidth s.hart.et
      else if s.hart.tp then 0 else s.elem d.toNat (etWidth s.hart.et) e := by
  have hd : d.toNat < 32 := d.isLt
  generalize hw : etWidth s.hart.et = w at he ⊢
  have hrow : (s.reduced d x).reg d.toNat =
      if s.hart.tp then splice (setElemOf (s.reg d.toNat) w 0 x) w (s.maxBits - w) 0 else setElemOf (s.reg d.toNat) w 0 x := by
    unfold State.reduced
    dsimp only
    rw [hw]
    split
    · rw [State.zeroFrom, State.reg_setReg_same _ _ _ hd, State.setElem, State.reg_setReg_same _ _ _ hd, State.maxBits_setReg]
    · rw [State.setElem, State.reg_setReg_same _ _ _ hd]
  rw [State.elem, hrow]
  by_cases h0 : e = 0
  · subst h0
    rw [if_pos rfl]
    split
    · rw [elemOf_splice_below _ _ _ _ _ _ (by omega), elemOf_setElemOf_same]
    · rw [elemOf_setElemOf_same]
  · have hlow : w ≤ e * w := Nat.le_mul_of_pos_left w (by omega)
    rw [if_neg h0]
    split
    · exact elemOf_splice_zero _ _ _ _ _ hlow (by have := he h0; omega)
    · exact elemOf_setElemOf_other _ _ _ _ _ h0

/-- The other registers stay. -/
theorem State.reduced_reg (s : State) (d : VReg) (x n : Nat) (h : n ≠ d.toNat) : (s.reduced d x).reg n = s.reg n := by
  unfold State.reduced
  dsimp only
  split
  · rw [State.zeroFrom, State.reg_setReg_other _ _ _ _ h, State.setElem, State.reg_setReg_other _ _ _ _ h]
  · rw [State.setElem, State.reg_setReg_other _ _ _ _ h]

/-- What a reduction makes of its leaves. -/
abbrev State.reduction (s : State) (m : Bool) (a : VReg) (b : VOperand) (f : Combine) : Sum × Nat :=
  f s.hart.et (frmRM s.hart.frm) ⟨s.hart.srseed.toNat, 0⟩ (s.opB s.hart.et false b 0 0) (s.leaves m a)

section
variable (s : State) (m : Bool) (d a : VReg) (b : VOperand) (ty : Nat → Bool) (f : Combine)

/-- A reduction, once its checks have passed: nothing with no position left, a trap of an enabled flag, or its result (R215). -/
theorem State.reduce_done (ha : s.alone) (hr : s.vectorReady ty) (hd : s.tileOk d.toNat 1) (hs : s.tileOk a.toNat 1)
    (hb : s.operandOk b 1) :
    (s.hart.vl ≤ s.hart.vstart → s.reduce m d a b ty f = s.vectorNext s.hart.v 0 false 0)
      ∧ (s.hart.vstart < s.hart.vl →
        (∀ c, flagCause s.hart.frm (s.reduction m a b f).1.flags = some c → s.traps (s.reduce m d a b ty f) c 0 s.hart.pc)
        ∧ (flagCause s.hart.frm (s.reduction m a b f).1.flags = none → s.reduce m d a b ty f =
          { s.vectorNext (s.reduced d (s.reduction m a b f).2).hart.v (s.reduction m a b f).1.flags true 0 with
            hart.srseed := .ofNat 32 (s.reduction m a b f).1.lfsr })) := by
  have hchecks : (do vectorCheck ty; tileCheck d.toNat 1; tileCheck a.toNat 1; operandCheck b 1 : M Unit).go s = (.ok (), s) := by
    simp [s.vectorCheck_ok ty hr, s.tileCheck_ok _ _ hd, s.tileCheck_ok _ _ hs, s.operandCheck_ok _ _ hb]
  have hleaves : ((List.range s.hart.vl).map fun e => if (decide (s.hart.vstart ≤ e) && s.active m e) = true
      then some (s.elem a.toNat (etWidth s.hart.et) e) else none) = s.leaves m a := by
    simp [State.leaves]
  unfold State.reduce
  dsimp only
  refine ⟨fun hle => ?_, fun hlt => ⟨fun c hc => ?_, fun hn => ?_⟩⟩
  · rw [s.wholeMember_completes _ m _ _ ⟨s, none, none⟩ ha hchecks (if_pos hle) rfl rfl, s.vectorNext_idle]
  · refine s.wholeMember_traps _ m _ _ _ ha hchecks (if_neg (by omega)) s.hart.vstart c 0 ?_
    rw [hleaves, hc]
  · rw [s.wholeMember_completes _ m _ _ _ ha hchecks (if_neg (by omega)), hleaves, hn]
    · change (({ (({ s.reduced d (s.reduction m a b f).2 with hart.srseed := _ } : State).raiseFlags _).dirtyV.stepLfsr 0 with
        hart.vstart := 0 } : State).advance = _)
      rw [s.reduced_frame]
      simp [State.raiseFlags, State.dirtyV, State.stepLfsr, State.advance, State.vectorNext, State.wrote, Machine.raiseFlags,
        lfsrSteps]
      exact BitVec.eq_of_toNat_eq (by simp)
    · rw [hleaves, hn]
    · rw [hleaves, hn]

end

/-! ### Integer sums (R52, R53) -/

/-- An addition of integer codes is one modulo 2^w, with no flag and no step of the LFSR. -/
theorem addCodes_int {et : Nat} (het : et < 8) (rm : Nat) (c : Sum) (a b : Nat) :
    addCodes et rm c a b = (c, (a + b) % 2 ^ etWidth et) := by
  have hint := etInt_of_lt het
  have hfloat : etFloat et = false := by
    have : ¬ 8 ≤ et := by omega
    simp [etFloat, this]
  have hwrap : wrap (etWidth et) (intOf et a + intOf et b) = (a + b) % 2 ^ etWidth et := by
    have h : (wrap (etWidth et) (intOf et a + intOf et b) : Int) = ((a + b) % 2 ^ etWidth et : Nat) := by
      rw [wrap_cast, (intOf_modEq et a).add (intOf_modEq et b)]
      push_cast
      rfl
    exact_mod_cast h
  simp [addCodes, opAdd, hint, hfloat, intResult, hwrap]

/-- What the nodes of a level hold. -/
def nodeSum (l : List (Option Nat)) : Nat := l.reduceOption.sum

/-- A node more. -/
theorem nodeSum_some (a : Nat) (l : List (Option Nat)) : nodeSum (some a :: l) = a + nodeSum l := by
  simp [nodeSum]

/-- An empty node more. -/
theorem nodeSum_none (l : List (Option Nat)) : nodeSum (none :: l) = nodeSum l := by
  simp [nodeSum]

/-- A level of the tree keeps the sum of its nodes modulo 2^w, and has half as many. -/
theorem treeLevel_int {et : Nat} (het : et < 8) (rm : Nat) (c : Sum) (l : List (Option Nat)) :
    (treeLevel et rm c l).1 = c ∧ nodeSum (treeLevel et rm c l).2 ≡ nodeSum l [MOD 2 ^ etWidth et]
      ∧ (treeLevel et rm c l).2.length = (l.length + 1) / 2 := by
  induction c, l using treeLevel.induct et rm with
  | case1 c a b t r ih =>
    have hadd : r = (c, (a + b) % 2 ^ etWidth et) := addCodes_int het rm c a b
    have hr : addCodes et rm c a b = (c, (a + b) % 2 ^ etWidth et) := addCodes_int het rm c a b
    rw [hadd] at ih
    obtain ⟨hc, hsum, hlen⟩ := ih
    simp only [treeLevel, hr, nodeSum_some, ← Nat.add_assoc, List.length_cons, hlen]
    exact ⟨hc, (Nat.mod_modEq _ _).add hsum, by omega⟩
  | case2 c a t ih =>
    obtain ⟨hc, hsum, hlen⟩ := ih
    simp only [treeLevel, nodeSum_some, nodeSum_none, List.length_cons, hlen]
    exact ⟨hc, hsum.add_left a, by omega⟩
  | case3 c x t ih =>
    obtain ⟨hc, hsum, hlen⟩ := ih
    simp only [treeLevel, nodeSum_none, List.length_cons, hlen]
    refine ⟨hc, ?_, by omega⟩
    cases x with
    | none => simpa only [nodeSum_none] using hsum
    | some a => simpa only [nodeSum_some] using hsum.add_left a
  | case4 c t h1 h2 h3 =>
    rcases t with _ | ⟨x, _ | ⟨y, t⟩⟩
    · exact ⟨rfl, rfl, rfl⟩
    · cases x <;> simp [treeLevel, Nat.ModEq]
    · rcases x with _ | a
      · exact (h3 y t rfl).elim
      · rcases y with _ | b
        · exact (h2 a t rfl).elim
        · exact (h1 a b t rfl).elim

/-- The root holds the sum of the leaves modulo 2^w, when the levels are those of their number. -/
theorem treeRoot_int {et : Nat} (het : et < 8) (rm n : Nat) (c : Sum) (l : List (Option Nat)) (hl : l.length = 2 ^ n) :
    (treeRoot et rm n c l).1 = c ∧ (treeRoot et rm n c l).2.getD 0 ≡ nodeSum l [MOD 2 ^ etWidth et] := by
  induction n generalizing l with
  | zero =>
    obtain ⟨x, rfl⟩ := List.length_eq_one_iff.mp hl
    refine ⟨rfl, ?_⟩
    cases x <;> simp [treeRoot, nodeSum, Nat.ModEq]
  | succ n ih =>
    obtain ⟨hc, hsum, hlen⟩ := treeLevel_int het rm c l
    rw [treeRoot, hc]
    obtain ⟨hc', hsum'⟩ := ih (treeLevel et rm c l).2 (by rw [hlen, hl, Nat.pow_succ]; omega)
    exact ⟨hc', hsum'.trans hsum⟩

/-- Padding adds nothing. -/
theorem nodeSum_padded (l : List (Option Nat)) (n : Nat) : nodeSum (l ++ List.replicate n none) = nodeSum l := by
  simp [nodeSum, List.reduceOption_append, List.reduceOption_replicate_none]

/-- The levels of a tree have room for its leaves (R52). -/
theorem le_two_pow_treeLevels (n : Nat) : n ≤ 2 ^ treeLevels n := by
  unfold treeLevels msb
  split
  · simpa using ‹n ≤ 1›
  · have := Nat.lt_log2_self (n := n - 1)
    omega

/-- The tree sum of integers (R52). -/
theorem combineTree_int {et : Nat} (het : et < 8) (rm init : Nat) (c : Sum) (l : List (Option Nat)) :
    combineTree et rm c init l = (c, (init + nodeSum l) % 2 ^ etWidth et) := by
  have hroom := le_two_pow_treeLevels l.length
  obtain ⟨hc, hsum⟩ := treeRoot_int het rm (treeLevels l.length) c
    (l ++ List.replicate (2 ^ treeLevels l.length - l.length) none) (by simp; omega)
  rw [nodeSum_padded] at hsum
  unfold combineTree
  dsimp only
  rw [hc, addCodes_int het, Nat.add_comm init]
  exact Prod.ext rfl (hsum.add_right init)

/-- The sequential sum of integers (R53). -/
theorem combineOrder_int {et : Nat} (het : et < 8) (rm init : Nat) (c : Sum) (l : List (Option Nat)) (hinit : init < 2 ^ etWidth et) :
    combineOrder et rm c init l = (c, (init + nodeSum l) % 2 ^ etWidth et) := by
  have hrns : etRns et = false := by
    have h15 : et ≠ 15 := by omega
    have h16 : et ≠ 16 := by omega
    simp [etRns, h15, h16]
  have hfold : ∀ (xs : List Nat) (acc : Nat), acc < 2 ^ etWidth et →
      xs.foldl (fun p x => addCodes et rm p.1 p.2 x) (c, acc) = (c, (acc + xs.sum) % 2 ^ etWidth et) := by
    intro xs
    induction xs with
    | nil => intro acc hacc; rw [List.foldl_nil, List.sum_nil, Nat.add_zero, Nat.mod_eq_of_lt hacc]
    | cons x xs ih =>
      intro acc _
      rw [List.foldl_cons, addCodes_int het, ih _ (Nat.mod_lt _ (Nat.two_pow_pos _)), Nat.mod_add_mod, List.sum_cons, Nat.add_assoc]
  unfold combineOrder
  dsimp only
  rw [hrns, if_neg Bool.false_ne_true]
  exact hfold _ init hinit

/-- Settles O30: a reduction is its combination of the leaves, and addition of integers modulo 2^w has no order. -/
theorem reductionResults : Obligations.ReductionResults := by
  unfold Obligations.ReductionResults
  constructor
  · intro s m d a b w leaves ha hd hs hb p hp hr r
    have hexec : exec p.1 s = .next (s.reduce m d a b p.2.1 p.2.2) := by
      revert p
      simp only [List.forall_mem_cons, List.not_mem_nil, false_implies, implies_true, and_true]
      exact ⟨fun _ => rfl, fun _ => rfl, fun _ => rfl, fun _ => rfl, fun _ => rfl, fun _ => rfl, fun _ => rfl⟩
    obtain ⟨hidle, hrun⟩ := s.reduce_done m d a b p.2.1 p.2.2 ha hr hd hs hb
    rw [hexec]
    refine ⟨fun hle => congrArg Host.Outcome.next (hidle hle), fun hlt => ⟨fun c hc => ⟨_, rfl, (hrun hlt).1 c hc⟩, fun hn => ?_⟩⟩
    refine ⟨_, congrArg Host.Outcome.next ((hrun hlt).2 hn), rfl, ?_, fun e he hfit => ?_, fun n hne => s.reduced_reg d _ n hne⟩
    · exact s.reduced_elem d _ 0 fun h => absurd rfl h
    · exact (s.reduced_elem d _ e fun _ => hfit).trans (if_neg (by omega))
  · intro et rm init c l het total
    exact ⟨combineTree_int het rm init c l, combineOrder_int het rm init c l⟩

end Sys2Proof.Machine
end

section
/-! SUPPORT. Conversions and quantisation with block scales (R46, R217 to R223). -/

namespace Sys2Proof.Machine

/-! ### The element loop as the body of a member -/

/-- The element loop leaves all but registers, flags and `STATUS`.VS. -/
theorem State.loop_frame (s : State) (m : Bool) (d rows q w lo hi : Nat) (last : Bool) (f : Nat → Nat → Nat × Nat) :
    ∃ v fl vs, (s.loop m d rows q w lo hi last f).done = s.withVector v fl vs := by
  unfold State.loop
  dsimp only
  rw [s.setRows_frame, State.dirtyVIf_eq]
  exact ⟨_, _, _, rfl⟩

section
variable (s : State) (checks : M Unit) (m : Bool) (reads : State → Reads) (steps : State → Nat)
  (body : Nat → Nat → Bool → State → Pass) (d rows q w : Nat) (f : Nat → Nat → Nat × Nat)

/-- With no position left a member that has positions does nothing (R189). -/
theorem State.member_idle (ha : s.alone) (hc : checks.go s = (.ok (), s)) (hle : s.hart.vl ≤ s.hart.vstart) :
    s.member checks State.vlNow m reads steps body = s.vectorNext s.hart.v 0 false (steps s) := by
  obtain ⟨hcv, hres, -, hfly, -⟩ := ha
  have hvl : s.vlNow = s.hart.vl := by simp [State.vlNow, hcv]
  have hlt : ¬ s.hart.vstart < s.hart.vl := by omega
  unfold State.member
  rw [hc]
  simp only [hcv, hvl, hlt, Option.elim_none, Option.bind_none, Option.getD_none, Nat.min_self, Bool.false_and, Bool.false_eq_true,
    if_false, s.landedStop_none _ _ _ _ hfly, Option.map_none, ite_self, Bool.or_false, Bool.not_false, if_true, decide_false]
  exact s.vectorNext_idle _

/-- A member whose body is the element loop from `VSTART` to `VL` (R189). -/
theorem State.member_loops (ha : s.alone) (hc : checks.go s = (.ok (), s))
    (hbody : s.hart.vstart < s.hart.vl →
      body s.hart.vstart s.hart.vl true s = s.loop m d rows q w s.hart.vstart s.hart.vl true f)
    (hq : 0 < q) (hfit : d + rows * q ≤ 32) (hu : s.untrapped m rows f) :
    s.loopDone (s.member checks State.vlNow m reads steps body) m d rows q w (steps s) f := by
  rcases Nat.lt_or_ge s.hart.vstart s.hart.vl with hlt | hle
  · have hvl := s.vlNow_alone ha
    obtain ⟨hs, ht, hdone⟩ := s.loop_done m d rows q w (steps s) f ha.1 hq hfit hlt hu
    rw [s.member_completes s checks State.vlNow m reads steps body false id hc ha (Or.inl (hvl.symm ▸ hlt)) _
      (by rw [hvl, hbody hlt]) hs ht]
    exact hdone
  · rw [s.member_idle checks m reads steps body ha hc hle]
    exact ⟨fun _ => rfl, fun h => absurd h (by omega)⟩

end

/-- The steps of the LFSR that follow a loop without any. -/
theorem State.loopDone_stepLfsr (s t : State) (m : Bool) (d rows q w n : Nat) (f : Nat → Nat → Nat × Nat)
    (h : s.loopDone t m d rows q w 0 f) : s.loopDone (t.stepLfsr n) m d rows q w n f := by
  have hstep : ∀ v fl dirty, (s.vectorNext v fl dirty 0).stepLfsr n = s.vectorNext v fl dirty n := fun v fl dirty => by
    simp [State.vectorNext, State.wrote, State.stepLfsr, lfsrSteps]
  obtain ⟨hidle, hrun⟩ := h
  refine ⟨fun hle => by rw [hidle hle, hstep], fun hlt => ?_⟩
  obtain ⟨⟨dirty, ht, hd⟩, helem, hreg⟩ := hrun hlt
  exact ⟨⟨dirty, (congrArg (·.stepLfsr n) ht).trans (hstep ..), hd⟩, helem, hreg⟩

/-- With no position the loop writes nothing, whatever it would write (R189). -/
theorem State.loopDone_empty (s t : State) (m : Bool) (d rows q w n : Nat) (f g : Nat → Nat → Nat × Nat)
    (hle : s.hart.vl ≤ s.hart.vstart) (h : s.loopDone t m d rows q w n f) : s.loopDone t m d rows q w n g :=
  ⟨h.1, fun hlt => absurd hlt (by omega)⟩

/-! ### Conversions (R217, R46) -/

/-- A scale of 0xFF for a block with an active element stops an instruction before its first element (R46). -/
theorem State.scalesFirst_nan (s : State) (m : Bool) (rows : Nat) (p : Pass) (i : Nat) (ha : s.alone) (hsb : s.hart.sb ≠ 0)
    (h : s.scaleNan m rows s.hart.vstart s.hart.vl = some i) :
    s.scalesFirst m rows s.hart.vstart p = ⟨s, some (s.hart.vstart, .trap ⟨39, word i, s.hart.pc⟩), none⟩ := by
  rw [State.scalesFirst, if_neg hsb, s.landedStop_none _ _ _ _ ha.2.2.2.1, s.vlNow_alone ha, h]

/-- Without such a scale it goes on. -/
theorem State.scalesFirst_none (s : State) (m : Bool) (rows : Nat) (p : Pass) (ha : s.alone)
    (h : s.hart.sb ≠ 0 → s.scaleNan m rows s.hart.vstart s.hart.vl = none) : s.scalesFirst m rows s.hart.vstart p = p := by
  by_cases hsb : s.hart.sb = 0
  · rw [State.scalesFirst, if_pos hsb]
  · rw [State.scalesFirst, if_neg hsb, s.landedStop_none _ _ _ _ ha.2.2.2.1, s.vlNow_alone ha, h hsb]

section
variable (s : State) (m : Bool) (d a : VReg) (ty : TypeCode) (pair : Nat → Bool) (scaled rounds : Bool)
  (f : (r e x : Nat) → (k : Int) → Nat × Nat) (note : (lo k : Nat) → State → State)

/-- What a conversion makes of element `e` of row `r` (R217, R46). -/
def State.converted (r e : Nat) : Nat × Nat :=
  f r e (s.wideElem a (srcRegs (etWidth ty.toNat) (etWidth s.hart.et)) (etWidth ty.toNat) r e)
    (if scaled then (s.scaleByte (s.scaleIndex r e) : Int) - 127 else 0)

/-- The scale that stops a conversion: one of 0xFF for a block with an active element, where scales are read (R46). -/
def State.nanScale : Option Nat := if scaled then s.scaleNan m s.hart.vrow s.hart.vstart s.hart.vl else none

/-- A conversion, once its checks have passed: the element loop, or a trap of a scale (R46, R217). -/
theorem State.convert_done (ha : s.alone) (hr : s.vectorReady pair) (hd : s.tileOk d.toNat s.hart.vrow)
    (hs : s.tileOk a.toNat (s.hart.vrow * srcRegs (etWidth ty.toNat) (etWidth s.hart.et))) (hsb : scaled = true → s.hart.sb ≠ 0)
    (hnote : ∀ v fl vs, note s.hart.vstart s.hart.vl (s.withVector v fl vs) = s.withVector v fl vs) :
    (s.nanScale m scaled = none → s.untrapped m s.hart.vrow (s.converted a ty scaled f) →
        s.loopDone (s.convert m d a ty pair scaled rounds f note) m d.toNat s.hart.vrow 1 (etWidth s.hart.et)
          (if rounds && s.sr then s.hart.vrow * s.hart.vl else 0) (s.converted a ty scaled f))
      ∧ (∀ n, s.nanScale m scaled = some n → s.hart.vstart < s.hart.vl →
        s.traps (s.convert m d a ty pair scaled rounds f note) 39 (word n) s.hart.pc) := by
  have hvl := s.vlNow_alone ha
  have hfit : d.toNat + s.hart.vrow * 1 ≤ 32 := by
    have := hd.2.2
    have := s.hart.declared_le
    omega
  have hchecks : (do
      vectorCheck pair
      tileCheck d.toNat s.hart.vrow
      tileCheck a.toNat (s.hart.vrow * srcRegs (etWidth ty.toNat) (etWidth s.hart.et)) : M Unit).go s = (.ok (), s) := by
    simp [s.vectorCheck_ok pair hr, s.tileCheck_ok _ _ hd, s.tileCheck_ok _ _ hs]
  have hloop : s.loop m d.toNat s.hart.vrow 1 (etWidth s.hart.et) s.hart.vstart s.hart.vl true (s.converted a ty scaled f)
      = s.loop m d.toNat s.hart.vrow 1 (etWidth s.hart.et) s.hart.vstart s.hart.vl true fun r e =>
        f r e (s.wideElem a (srcRegs (etWidth ty.toNat) (etWidth s.hart.et)) (etWidth ty.toNat) r e)
          (if scaled = true then scaleExp (s.scaleByte (s.scaleIndex r e)) else 0) := rfl
  unfold State.convert
  dsimp only
  refine ⟨fun hn hu => ?_, fun n hn hlt => ?_⟩
  · refine s.member_loops _ m _ (fun t => if rounds && t.sr then s.hart.vrow * t.hart.vl else 0) _ _ _ _ _ _ ha hchecks
      (fun hlt => ?_) Nat.one_pos hfit hu
    rw [← hloop]
    obtain ⟨hstop, -⟩ := s.loop_done m d.toNat s.hart.vrow 1 (etWidth s.hart.et) 0 _ ha.1 Nat.one_pos hfit hlt hu
    obtain ⟨v, fl, vs, hdone⟩ := s.loop_frame m d.toNat s.hart.vrow 1 (etWidth s.hart.et) s.hart.vstart s.hart.vl true
      (s.converted a ty scaled f)
    generalize s.loop m d.toNat s.hart.vrow 1 (etWidth s.hart.et) s.hart.vstart s.hart.vl true (s.converted a ty scaled f) = p
      at hstop hdone ⊢
    have hkept : note s.hart.vstart (p.stop.elim s.hart.vl (·.1)) p.done = p.done := by
      rw [hstop, hdone, Option.elim_none, hnote, ← hdone]
    rw [hkept]
    cases scaled with
    | false => rfl
    | true => exact s.scalesFirst_none m _ p ha fun _ => hn
  · cases scaled with
    | false => cases hn
    | true =>
      rw [s.member_stops s _ State.vlNow m _ _ _ false id hchecks ha (Or.inl (hvl.symm ▸ hlt)) s.hart.vstart _ _ rfl
        (by rw [if_pos rfl, s.scalesFirst_nan m _ _ n ha (hsb rfl) hn]), if_pos rfl, s.scalesFirst_nan m _ _ n ha (hsb rfl) hn,
        s.stopAt_start _ ha]
      exact s.raise_traps ..

end

/-- An instruction that a loop has completed has retired. -/
theorem State.loopDone_retired (s t : State) (m : Bool) (d rows q w n : Nat) (f : Nat → Nat → Nat × Nat)
    (h : s.loopDone t m d rows q w n f) : t.hart.retired = true := by
  rcases Nat.lt_or_ge s.hart.vstart s.hart.vl with hlt | hle
  · obtain ⟨⟨dirty, ht, -⟩, -⟩ := h.2 hlt
    rw [ht]
    rfl
  · rw [h.1 hle]
    rfl

/-- One that has trapped has not. -/
theorem State.traps_retired (s t : State) (code : Nat) (tval tval2 : Word) (h : s.traps t code tval tval2) :
    t.hart.retired = false := by
  rw [h.1]
  rfl

/-- How many positions come before one depends on the elements below `VL` alone. -/
theorem countBefore_congr (vl r e : Nat) (p q : Nat → Nat → Bool) (h : ∀ r e, e < vl → p r e = q r e) (hpos : 0 < vl ∨ e = 0) :
    countBefore vl r e p = countBefore vl r e q := by
  unfold countBefore
  rcases Nat.eq_zero_or_pos vl with h0 | h0
  · obtain rfl : e = 0 := hpos.resolve_left (by omega)
    subst h0
    simp
  · refine congrArg List.length (List.filter_congr fun n _ => h _ _ ?_)
    have := Nat.mod_lt n (show 0 < max 1 vl by omega)
    omega

/-- With no note of the member at `pc` there is none to take back. -/
theorem State.setNote_none (s : State) (h : s.note = none) : s.setNote s.hart.pc none = s := by
  have hkeep : (s.notes.filter fun n => !(n.ctx = s.noteCtx && n.addr = s.hart.pc)) = s.notes :=
    List.filter_eq_self.mpr fun n hn => by
      have := List.find?_eq_none.mp h n hn
      simpa [imp_iff_not_or] using this
  simp only [State.setNote, hkeep, Option.map_none, Option.toList_none, List.append_nil]

/-- The exact value that `vrnsx` gives a residue, scaled (R222). -/
def rnsScaled (src x : Nat) (k : Int) : FVal :=
  (FVal.fin (decide (rnsValue src x < 0)) (rnsValue src x).natAbs 0 false).scale k

/-- What `vrnsx` finds inexact: the active elements whose value does not fit the type (R222). -/
def State.lossy (s : State) (m : Bool) (a : VReg) (src r e : Nat) : Bool :=
  s.active m e && inexactInto s.hart.et (rnsScaled src
    (s.wideElem a (srcRegs (etWidth src) (etWidth s.hart.et)) (etWidth src) r e)
    (if s.hart.sb ≠ 0 then (s.scaleByte (s.scaleIndex r e) : Int) - 127 else 0))

/-- How many positions before element `e` of row `r` have stepped the LFSR (R222). -/
def State.lossyBefore (s : State) (m : Bool) (a : VReg) (src r e : Nat) : Nat :=
  if s.sr then countBefore s.hart.vl r e (s.lossy m a src) else 0

/-- What `vrnsx` makes of an element, when `before` counts the positions before it that have stepped the LFSR (R222). -/
def State.rnsToType (s : State) (src : Nat) (before : Nat → Nat → Nat) (r e x : Nat) (k : Int) : Nat × Nat :=
  let c := toType s.hart.et (frmRM s.hart.frm) (if s.sr then lfsrSteps s.hart.srseed.toNat (before r e) else 0)
    (frmSATN s.hart.frm) (rnsScaled src x k)
  (c.1, c.2 ||| rnsFlag src x)

/-- What `vrnsx` notes once it has performed the positions below `k` (R41). -/
def State.noteInexact (s : State) (found : Nat → Nat) (k : Nat) (t : State) : State :=
  if s.sr then t.setNote s.hart.pc (if k < t.vlNow then some ⟨0, 0, found k, 0, [], []⟩ else none) else t

/-- Once it has performed all of them it notes nothing. -/
theorem State.noteInexact_done (s : State) (found : Nat → Nat) (v : Vector Nat 32) (fl : BitVec 7) (vs : Lazy) (ha : s.alone)
    (hn : s.note = none) : s.noteInexact found s.hart.vl (s.withVector v fl vs) = s.withVector v fl vs := by
  have hvl : (s.withVector v fl vs).vlNow = s.hart.vl := s.vlNow_alone ha
  unfold State.noteInexact
  split
  · rw [hvl, if_neg (Nat.lt_irrefl _)]
    exact (s.withVector v fl vs).setNote_none hn
  · rfl

/-- A member that stands alone goes on from nothing (R344). -/
theorem State.continuing_alone (s : State) (ha : s.alone) : s.continuing = false := by
  have hres : s.hart.resumed = false := ha.2.1
  simp [State.continuing, hres, s.convoyStart_alone ha]

section
variable (s : State) (m : Bool) (d a : VReg) (ty : TypeCode)

/-- The types that `vrnsx` takes and gives (R222). -/
def rnsxPair (src et : Nat) : Bool := etRns src && ((2 ≤ et && et ≤ 7) || etFloat et)

/-- The conversion that `vrnsx` is, from the positions `lost` that it counts as inexact and the number `found` that it notes of
them (R222). -/
def State.vrnsxFrom (s : State) (m : Bool) (d a : VReg) (ty : TypeCode) (lost : Nat → Nat → Bool) (found : Nat → Nat) : State :=
  s.convert m d a ty (rnsxPair ty.toNat) (decide (s.hart.sb ≠ 0)) false
    (s.rnsToType ty.toNat fun r e => countBefore s.hart.vl r e lost) fun _ => s.noteInexact found

/-- `vrnsx` of a hart alone in its convoy counts the active elements that lose something (R222). -/
theorem State.exec_vrnsx (ha : s.alone) : ∃ lost found, (∀ r e, e < s.hart.vl → lost r e = s.lossy m a ty.toNat r e)
    ∧ exec (.vrnsx m d a ty) s = .next (if (s.vrnsxFrom m d a ty lost found).hart.retired
        && !(s.hart.cv.elim false (·.checking))
      then (s.vrnsxFrom m d a ty lost found).stepLfsr (if s.sr then countBefore s.hart.vl s.hart.vrow 0 lost else 0)
      else s.vrnsxFrom m d a ty lost found) := by
  refine ⟨_, _, fun r e he => ?_, rfl⟩
  simp only [s.continuing_alone ha, s.vlNow_alone ha, he, Bool.and_false, Bool.false_eq_true, if_false, decide_true,
    Bool.true_and]
  rfl

/-- `vrnsx`, once its checks have passed: the element loop with one step of the LFSR for each inexact position, or a trap of a
scale (R222, R46). -/
theorem State.vrnsx_done (ha : s.alone) (hr : s.vectorReady (rnsxPair ty.toNat)) (hd : s.tileOk d.toNat s.hart.vrow)
    (hs : s.tileOk a.toNat (s.hart.vrow * srcRegs (etWidth ty.toNat) (etWidth s.hart.et))) (hn : s.note = none) :
    (s.nanScale m (decide (s.hart.sb ≠ 0)) = none →
        s.untrapped m s.hart.vrow (s.converted a ty (decide (s.hart.sb ≠ 0)) (s.rnsToType ty.toNat (s.lossyBefore m a ty.toNat))) →
        ∃ t, exec (.vrnsx m d a ty) s = .next t ∧ s.loopDone t m d.toNat s.hart.vrow 1 (etWidth s.hart.et)
          (s.lossyBefore m a ty.toNat s.hart.vrow 0) (s.converted a ty (decide (s.hart.sb ≠ 0)) (s.rnsToType ty.toNat (s.lossyBefore m a ty.toNat))))
      ∧ (∀ n, s.nanScale m (decide (s.hart.sb ≠ 0)) = some n → s.hart.vstart < s.hart.vl →
        ∃ t, exec (.vrnsx m d a ty) s = .next t ∧ s.traps t 39 (word n) s.hart.pc) := by
  obtain ⟨lost, found, hlost, hexec⟩ := s.exec_vrnsx m d a ty ha
  have hcv : s.hart.cv.elim false (·.checking) = false := by rw [ha.1]; rfl
  have hcount : countBefore s.hart.vl s.hart.vrow 0 lost = countBefore s.hart.vl s.hart.vrow 0 (s.lossy m a ty.toNat) :=
    countBefore_congr _ _ _ _ _ hlost (Or.inr rfl)
  obtain ⟨hloop, htrap⟩ := s.convert_done m d a ty _ (decide (s.hart.sb ≠ 0)) false
    (s.rnsToType ty.toNat fun r e => countBefore s.hart.vl r e lost) (fun _ => s.noteInexact found) ha hr hd hs of_decide_eq_true
    fun v fl vs => s.noteInexact_done found v fl vs ha hn
  rw [hexec]
  refine ⟨fun hnan hu => ⟨_, rfl, ?_⟩, fun n hnan hlt => ⟨_, rfl, ?_⟩⟩
  · have hdone : s.loopDone (s.vrnsxFrom m d a ty lost found) m d.toNat s.hart.vrow 1 (etWidth s.hart.et) 0
        (s.converted a ty (decide (s.hart.sb ≠ 0)) (s.rnsToType ty.toNat (s.lossyBefore m a ty.toNat))) := by
      rcases Nat.eq_zero_or_pos s.hart.vl with h0 | h0
      · exact s.loopDone_empty _ m _ _ _ _ _ _ _ (by omega) (hloop hnan fun r _ e _ he => absurd he (by omega))
      · have hf : s.rnsToType ty.toNat (fun r e => countBefore s.hart.vl r e lost)
            = s.rnsToType ty.toNat (s.lossyBefore m a ty.toNat) := by
          funext r e x k
          have hcount := countBefore_congr _ r e _ _ hlost (Or.inl h0)
          unfold State.rnsToType State.lossyBefore
          simp only [hcount]
          split <;> rfl
        rw [← hf] at hu ⊢
        exact hloop hnan hu
    have hret : (s.vrnsxFrom m d a ty lost found).hart.retired = true := s.loopDone_retired _ m _ _ _ _ _ _ hdone
    simp only [hret, hcv, Bool.not_false, Bool.and_true, if_true, hcount]
    exact s.loopDone_stepLfsr _ m _ _ _ _ _ _ hdone
  · have h := htrap n hnan hlt
    have hret : (s.vrnsxFrom m d a ty lost found).hart.retired = false := s.traps_retired _ _ _ _ h
    simp only [hret, Bool.false_and, Bool.false_eq_true, if_false]
    exact h

end

end Sys2Proof.Machine
end

section
/-! SUPPORT. Quantisation with block scales (R221). -/

namespace Sys2Proof.Machine

/-! ### Elements written one after another -/

/-- A list with one more item, with the indexes. -/
theorem enum_concat {α : Type} (l : List α) (a : α) : enum (l ++ [a]) = enum l ++ [(l.length, a)] := by
  simp [enum, List.zipIdx_append]

/-- Elements written in order, from the first on. -/
theorem elemOf_setAll {α : Type} (w : Nat) (g : α → Nat) (l : List α) (x i : Nat) :
    elemOf ((enum l).foldl (fun y p => setElemOf y w p.1 (g p.2)) x) w i = (l[i]?).elim (elemOf x w i) fun a => g a % 2 ^ w := by
  induction l using List.reverseRecOn with
  | nil => rfl
  | append_singleton l a ih =>
    rw [enum_concat, List.foldl_append]
    simp only [List.foldl_cons, List.foldl_nil]
    by_cases h : i = l.length
    · subst h
      rw [elemOf_setElemOf_same, List.getElem?_append_right (Nat.le_refl _), Nat.sub_self]
      rfl
    · rw [elemOf_setElemOf_other _ _ _ _ _ h, ih]
      rcases Nat.lt_or_gt_of_ne h with hlt | hgt
      · rw [List.getElem?_append_left hlt]
      · rw [List.getElem?_eq_none (by omega), List.getElem?_eq_none (by simp; omega)]

/-- A write of a register leaves all but the registers. -/
theorem State.setReg_frame (s : State) (n v : Nat) : s.setReg n v = { s with hart.v := (s.setReg n v).hart.v } := by
  unfold State.setReg
  split <;> rfl

/-- An element of a register whose tail is cleared under a condition (R191). -/
theorem State.elem_clearTail (s : State) (x w k e : Nat) (he : (e + 1) * w ≤ s.maxBits) :
    elemOf (if s.hart.tp then s.clearTail x w k else x) w e = if e < k then elemOf x w e else if s.hart.tp then 0 else elemOf x w e := by
  unfold State.clearTail
  by_cases hk : e < k
  · have hlow : (e + 1) * w ≤ k * w := Nat.mul_le_mul_right w hk
    rw [if_pos hk]
    split
    · exact elemOf_splice_below _ _ _ _ _ _ hlow
    · rfl
  · have hlow : k * w ≤ e * w := Nat.mul_le_mul_right w (by omega)
    rw [if_neg hk]
    split
    · exact elemOf_splice_zero _ _ _ _ _ hlow (by omega)
    · rfl

/-- The loop's elements depend on what is written below its end alone. -/
theorem State.loopRow_congr (s : State) (m : Bool) (w lo hi : Nat) (f g : Nat → Nat) (x : Nat) (h : ∀ e, e < hi → f e = g e) :
    s.loopRow m w lo hi f x = s.loopRow m w lo hi g x := by
  unfold State.loopRow
  refine List.foldl_ext _ _ _ fun y i hi' => ?_
  have := List.mem_range.mp hi'
  dsimp only
  rw [h (lo + i) (by omega)]

/-- So do its flags. -/
theorem State.loopFlags_congr (s : State) (rows lo hi : Nat) (m : Bool) (f g : Nat → Nat → Nat) (h : ∀ r e, e < hi → f r e = g r e) :
    s.loopFlags rows lo hi m f = s.loopFlags rows lo hi m g := by
  unfold State.loopFlags
  refine List.foldl_ext _ _ _ fun y r _ => List.foldl_ext _ _ _ fun z i hi' => ?_
  have := List.mem_range.mp hi'
  rw [h r (lo + i) (by omega)]

/-! ### Block scales (R221) -/

/-- A block scale is a byte. -/
theorem blockScale_lt (et : Nat) (l : List FVal) : blockScale et l < 256 := by
  unfold blockScale
  split
  · omega
  · dsimp only
    split <;> omega

section
variable (s : State) (m : Bool) (d a : VReg) (ty : TypeCode)

/-- The exact value of element `e` of row 0 of the source (R217). -/
def State.quantSource (e : Nat) : FVal :=
  (fmtOf ty.toNat).decode (s.wideElem a (srcRegs (etWidth ty.toNat) (etWidth s.hart.et)) (etWidth ty.toNat) 0 e)

/-- The scale of block `i` (R221). -/
def State.quantScale (i : Nat) : Nat :=
  blockScale s.hart.et (((((List.range (min s.hart.sb (s.hart.vl - i * s.hart.sb))).map (· + i * s.hart.sb))).filter
    fun e => decide (s.hart.vstart ≤ e) && s.active m e).map (s.quantSource a ty))

/-- The blocks of row 0. -/
abbrev State.quantBlocks : Nat := ceilDiv s.hart.vl s.hart.sb

/-- What `vqmx` makes of element `e`, given the scale `c` of its block. -/
def State.quantElem (c e : Nat) : Nat × Nat :=
  if c = 0xFF then quantiseNan s.hart.et
  else quantise s.hart.et (frmRM s.hart.frm) (s.lfsrAt true 0 e) ((s.quantSource a ty e).scale (127 - (c : Int)))

/-- The flags of `vqmx`. -/
def State.quantFlags : Nat :=
  s.loopFlags 1 s.hart.vstart s.hart.vl m (fun _ e => (s.quantElem a ty (s.quantScale m a ty (e / s.hart.sb)) e).2)
    ||| if ((List.range s.quantBlocks).map (s.quantScale m a ty)).contains 0xFF then 1 else 0

/-- The scales of the blocks of row 0, in order. -/
abbrev State.quantScales : List Nat := (List.range s.quantBlocks).map (s.quantScale m a ty)

/-- The block of an element below `VL` has a scale. -/
theorem State.quantScales_getD (hsb : s.hart.sb ≠ 0) (e : Nat) (he : e < s.hart.vl) :
    (s.quantScales m a ty).getD (e / s.hart.sb) 127 = s.quantScale m a ty (e / s.hart.sb) := by
  have hblock : e / s.hart.sb < s.quantBlocks := by
    have hpos := Nat.pos_of_ne_zero hsb
    have hceil : ceilDiv s.hart.vl s.hart.sb = (s.hart.vl - 1) / s.hart.sb + 1 := by
      rw [ceilDiv, if_neg hsb, ← Nat.add_div_right _ hpos]
      congr 1
      omega
    rw [State.quantBlocks, hceil]
    exact Nat.lt_succ_of_le (Nat.div_le_div_right (by omega))
  simp [List.getD, hblock]

/-- The register that `vqmx` leaves for its destination. -/
def State.quantRow : Nat :=
  let x := s.loopRow m (etWidth s.hart.et) s.hart.vstart s.hart.vl
    (fun e => (s.quantElem a ty (s.quantScale m a ty (e / s.hart.sb)) e).1) (s.reg d.toNat)
  if s.hart.tp then s.clearTail x (etWidth s.hart.et) s.hart.vl else x

/-- The register that it leaves for the scales. -/
def State.quantScaleRow : Nat :=
  let x := (enum (s.quantScales m a ty)).foldl (fun v p => setElemOf v 8 p.1 p.2) (s.reg 1)
  if s.hart.tp then s.clearTail x 8 (s.quantScales m a ty).length else x

/-- `vqmx`, once its checks have passed (R221). -/
theorem State.vqmx_done (ha : s.alone)
    (hr : s.vectorReady fun et => (etNarrow et || et == 18 || et == 0) && etFloat ty.toNat && decide (s.hart.sb ≠ 0))
    (hd : s.tileOk d.toNat 1) (hs : s.tileOk a.toNat (srcRegs (etWidth ty.toNat) (etWidth s.hart.et))) :
    (d = 1 → ∃ t, exec (.vqmx m d a ty) s = .next t ∧ s.traps t 4 1 s.hart.pc)
      ∧ (d ≠ 1 → s.hart.vl ≤ s.hart.vstart → exec (.vqmx m d a ty) s = .next (s.vectorNext s.hart.v 0 false 0))
      ∧ (d ≠ 1 → s.hart.vstart < s.hart.vl → flagCause s.hart.frm (s.quantFlags m a ty) = none →
        exec (.vqmx m d a ty) s = .next (s.vectorNext ((s.setReg d.toNat (s.quantRow m d a ty)).setReg 1 (s.quantScaleRow m a ty)).hart.v
          (s.quantFlags m a ty) true (if s.sr then s.hart.vl else 0))) := by
  have hsb : s.hart.sb ≠ 0 := by
    obtain ⟨-, -, -, hty⟩ := hr
    simp only [Bool.and_eq_true, decide_eq_true_eq] at hty
    exact hty.2
  have hearly : (do
      vectorCheck fun et => (etNarrow et || et == 18 || et == 0) && etFloat ty.toNat && decide (s.hart.sb ≠ 0)
      tileCheck d.toNat 1
      tileCheck a.toNat (srcRegs (etWidth ty.toNat) (etWidth s.hart.et))
      require (d ≠ 1) cRegMisaligned 1 : M Unit).go s
        = if d ≠ 1 then (.ok (), s) else (.error (.trap ⟨4, 1, s.hart.pc⟩), s) := by
    simp only [M.go_bind, s.vectorCheck_ok _ hr, s.tileCheck_ok _ _ hd, s.tileCheck_ok _ _ hs, M.go_require]
    by_cases h : d = 1
    · subst h
      rfl
    · simp only [ne_eq, h, not_false_eq_true, decide_true, if_true]
  refine ⟨fun h1 => ⟨s.raise ⟨4, 1, s.hart.pc⟩, congrArg Host.Outcome.next ?_, s.raise_traps ..⟩,
    fun h1 hle => congrArg Host.Outcome.next ?_, fun h1 hlt hn => congrArg Host.Outcome.next ?_⟩
  · exact s.member_trap _ _ _ _ _ _ _ _ _ ha.1 (hearly.trans (if_neg (not_not.mpr h1)))
  · rw [s.wholeMember_completes _ m _ _ ⟨s, none, none⟩ ha (hearly.trans (if_pos h1)) (if_pos hle) rfl rfl, s.vectorNext_idle]
  · have helem : ∀ e, e < s.hart.vl → s.quantElem a ty ((s.quantScales m a ty).getD (e / s.hart.sb) 127) e
        = s.quantElem a ty (s.quantScale m a ty (e / s.hart.sb)) e := fun e he => by rw [s.quantScales_getD m a ty hsb e he]
    have hfl : (s.loopFlags 1 s.hart.vstart s.hart.vl m
          (fun _ e => (s.quantElem a ty ((s.quantScales m a ty).getD (e / s.hart.sb) 127) e).2)
        ||| if (s.quantScales m a ty).contains 0xFF then 1 else 0) = s.quantFlags m a ty := by
      rw [s.loopFlags_congr 1 _ _ m _ _ fun _ e he => congrArg Prod.snd (helem e he)]
      rfl
    have hrow : (if s.hart.tp then s.clearTail (s.loopRow m (etWidth s.hart.et) s.hart.vstart s.hart.vl
          (fun e => (s.quantElem a ty ((s.quantScales m a ty).getD (e / s.hart.sb) 127) e).1) (s.reg d.toNat))
          (etWidth s.hart.et) s.hart.vl
        else s.loopRow m (etWidth s.hart.et) s.hart.vstart s.hart.vl
          (fun e => (s.quantElem a ty ((s.quantScales m a ty).getD (e / s.hart.sb) 127) e).1) (s.reg d.toNat))
        = s.quantRow m d a ty := by
      rw [s.loopRow_congr m _ _ _ _ _ _ fun e he => congrArg Prod.fst (helem e he)]
      rfl
    refine (s.wholeMember_completes _ m _ _ ⟨((((s.setReg d.toNat (s.quantRow m d a ty)).setReg 1 (s.quantScaleRow m a ty)).stepLfsr
      (if s.sr then s.hart.vl else 0)).raiseFlags (s.quantFlags m a ty)).dirtyV, none, none⟩ ha (hearly.trans (if_pos h1))
      ((if_neg (by omega)).trans ?_) rfl rfl).trans ?_
    · rw [← hfl] at hn ⊢
      rw [← hrow]
      dsimp only
      split
      · next c hc => exact absurd (hc.symm.trans hn) (by simp)
      · rfl
    · dsimp only
      rw [State.setReg_frame, State.setReg_frame s]
      simp [State.raiseFlags, State.dirtyV, State.stepLfsr, State.advance, State.vectorNext, State.wrote, Machine.raiseFlags,
        lfsrSteps]
      exact BitVec.eq_of_toNat_eq (by simp)

/-- The elements that `vqmx` leaves in its destination. -/
theorem State.quantRow_elem (e : Nat) (he : (e + 1) * etWidth s.hart.et ≤ s.maxBits) (hlt : s.hart.vstart < s.hart.vl) :
    elemOf (s.quantRow m d a ty) (etWidth s.hart.et) e =
      if e < s.hart.vstart then s.elem d.toNat (etWidth s.hart.et) e
      else if e < s.hart.vl then
        (if s.active m e then (s.quantElem a ty (s.quantScale m a ty (e / s.hart.sb)) e).1 % 2 ^ etWidth s.hart.et
          else if s.hart.mp then 0 else s.elem d.toNat (etWidth s.hart.et) e)
      else if s.hart.tp then 0 else s.elem d.toNat (etWidth s.hart.et) e := by
  rw [State.quantRow, s.elem_clearTail _ _ _ _ he, State.loopRow_elem]
  by_cases h2 : e < s.hart.vl
  · by_cases h1 : e < s.hart.vstart
    · rw [if_pos h2, if_neg (by omega), if_pos h1]
      rfl
    · rw [if_pos h2, if_pos ⟨by omega, h2⟩, if_neg h1, if_pos h2]
      rfl
  · have hrange : ¬ (s.hart.vstart ≤ e ∧ e < s.hart.vl) := fun h => h2 h.2
    have h1 : ¬ e < s.hart.vstart := by omega
    rw [if_neg h2, if_neg hrange, if_neg h1, if_neg h2]
    rfl

/-- The scales that it leaves. -/
theorem State.quantScaleRow_elem (i : Nat) (hi : (i + 1) * 8 ≤ s.maxBits) : elemOf (s.quantScaleRow m a ty) 8 i =
    if i < s.quantBlocks then s.quantScale m a ty i else if s.hart.tp then 0 else s.elem 1 8 i := by
  have hall := elemOf_setAll 8 (fun x => x) (s.quantScales m a ty) (s.reg 1) i
  have hlen : (s.quantScales m a ty).length = s.quantBlocks := by simp
  rw [State.quantScaleRow, s.elem_clearTail _ _ _ _ hi, hall, hlen]
  by_cases h : i < s.quantBlocks
  · rw [if_pos h, if_pos h, List.getElem?_map, List.getElem?_range h]
    exact Nat.mod_eq_of_lt (blockScale_lt _ _)
  · rw [if_neg h, if_neg h, List.getElem?_eq_none (by omega)]
    rfl

end

/-- Settles O31: the conversions go through the element loop, `vrnsx` with its own steps of the LFSR, and `vqmx` writes a row and
its scales. -/
theorem conversionResults : Obligations.ConversionResults := by
  unfold Obligations.ConversionResults
  constructor
  · intro s m d a ty et src rows q done scaled plain rounds cvt rm ha hd hs
    have hdone : ∀ (i : Instr) (pair : Nat → Bool) (sc rnd : Bool) (steps : Nat) (f : Nat → Nat → Nat → Int → Nat × Nat),
        (sc = true → s.hart.sb ≠ 0) → exec i s = .next (s.convert m d a ty pair sc rnd f) →
        (if rnd && s.sr then rows * s.hart.vl else 0) = steps → done i pair sc steps f := by
      intro i pair sc rnd steps f hsb hi hsteps hr
      obtain ⟨hloop, htrap⟩ := s.convert_done m d a ty pair sc rnd f (fun _ _ s => s) ha hr hd hs hsb fun _ _ _ => rfl
      rw [hi, ← hsteps]
      exact ⟨fun hn hu => ⟨_, rfl, hloop hn hu⟩, fun n hn hlt => ⟨_, rfl, htrap n hn hlt⟩⟩
    have hscaled : scaled = true → s.hart.sb ≠ 0 := fun h => of_decide_eq_true (Bool.and_eq_true .. |>.mp h).1
    refine ⟨hdone _ _ _ (rounds rm) _ _ hscaled rfl rfl, hdone _ _ _ (rounds 1) _ _ hscaled rfl rfl, ?_, ?_⟩
    · intro value lost upto hnote hr
      exact s.vrnsx_done m d a ty ha hr hd hs hnote
    · refine hdone (.vrnsi m d a ty) _ false false 0 (fun _ _ x _ => (rnsOfInt et (intOf src x),
        if intOf src x < -(rnsM et / 2 : Int) ∨ (rnsM et / 2 : Int) ≤ intOf src x then fSAT else 0))
        (fun h => absurd h Bool.false_ne_true) ?_ (by simp)
      simp only [exec, execVrnsi, Bool.or_eq_true, decide_eq_true_eq]
      rfl
  · intro s m d a ty et src w q sb x scale f n fl ha hr hd hs
    obtain ⟨htrap, hidle, hrun⟩ := s.vqmx_done m d a ty ha hr hd hs
    refine ⟨htrap, hidle, fun h1 hlt hn => ?_⟩
    have hd1 : d.toNat ≠ 1 := fun h => h1 (BitVec.eq_of_toNat_eq h)
    refine ⟨_, hrun h1 hlt hn, rfl, fun e he => ?_, fun i hi => ?_, fun k hk hk1 => ?_⟩
    · exact (congrArg (elemOf · w e) (((s.setReg d.toNat _).reg_setReg_other 1 _ _ hd1).trans
        (s.reg_setReg_same _ _ d.isLt))).trans (s.quantRow_elem m d a ty e he hlt)
    · exact (congrArg (elemOf · 8 i) ((s.setReg d.toNat _).reg_setReg_same 1 _ (by omega))).trans (s.quantScaleRow_elem m a ty i hi)
    · exact ((s.setReg d.toNat _).reg_setReg_other 1 k _ hk1).trans (s.reg_setReg_other _ _ _ hk)

end Sys2Proof.Machine
end

section
/-! SUPPORT. Rows times tile and rank-one products (R51, R254 to R257). -/

namespace Sys2Proof.Machine

/-! ### Checks of the matrix instructions (R250) -/

/-- The checks of a matrix instruction pass where those of a vector instruction do and the tiles are on. -/
theorem State.matrixCheck_ok (s : State) (ty : Nat → Bool) (h : s.vectorReady ty) (hts : s.hart.status.ts ≠ .off) :
    (vectorCheck ty (matrix := true)).go s = (.ok (), s) := by
  obtain ⟨⟨h1, h2⟩, h3, h4, h5⟩ := h
  simp [vectorCheck, offCheck, h1, h2, h3, h4, h5, hts]

/-- The checks of the tile pass. -/
theorem State.mxShape_ok (s : State) (t : BitVec 2) (hvl : s.hart.vl ≤ tileRows s.hart.et) (het : (s.tile t).tet = s.hart.et)
    (hsb : (s.tile t).tsb = s.hart.sbCode) : (mxShape t).go s = (.ok (), s) := by
  simp [mxShape, shapeCheck, hvl, het, hsb]

/-- A tile of registers that passes its checks lies in the register file. -/
theorem State.tileOk_bound {s : State} {n h : Nat} (ok : s.tileOk n h) : n + h ≤ 32 := by
  obtain ⟨-, -, hle⟩ := ok
  exact hle.trans (Nat.div_le_self ..)

/-- The later of two writes of a register counts. -/
theorem State.setReg_setReg (s : State) (n x y : Nat) : (s.setReg n x).setReg n y = s.setReg n y := by
  by_cases h : n < 32
  · simp [State.setReg, h]
  · simp [State.setReg, h]

/-! ### Accumulators written to their registers (R51, R254) -/

section
variable (s : State) (d wa : Nat)

/-- A register with the accumulators `l` from element 0 on, its tail cleared under TP. -/
def State.accRow (x : Nat) (l : List (Nat × Nat)) : Nat :=
  let y := (enum l).foldl (fun y q => setElemOf y wa q.1 q.2.1) x
  if s.hart.tp then s.clearTail y wa 64 else y

/-- An accumulator of a row. -/
theorem State.accRow_elem (x : Nat) (l : List (Nat × Nat)) (j : Nat) (hj : j < 64) (hl : j < l.length) :
    elemOf (s.accRow wa x l) wa j = l[j].1 % 2 ^ wa := by
  have hall := elemOf_setAll wa (fun c : Nat × Nat => c.1) l x j
  rw [List.getElem?_eq_getElem hl] at hall
  have hlow : (j + 1) * wa ≤ 64 * wa := Nat.mul_le_mul_right wa hj
  unfold State.accRow
  dsimp only
  split
  · rw [State.clearTail, elemOf_splice_below _ _ _ _ _ _ hlow, hall]
    rfl
  · rw [hall]
    rfl

/-- An element after the accumulators. -/
theorem State.accRow_tail (x : Nat) (l : List (Nat × Nat)) (j : Nat) (hj : 64 ≤ j) (hl : l.length = 64)
    (hfit : (j + 1) * wa ≤ s.maxBits) : elemOf (s.accRow wa x l) wa j = if s.hart.tp then 0 else elemOf x wa j := by
  have hall := elemOf_setAll wa (fun c : Nat × Nat => c.1) l x j
  rw [List.getElem?_eq_none (by omega)] at hall
  rw [State.accRow, s.elem_clearTail _ _ _ _ hfit, if_neg (by omega), hall]
  rfl

/-- Rows of accumulators written to the registers from `d` on. -/
def State.accWrite (out : List (List (Nat × Nat))) : State :=
  (enum out).foldl (fun u p =>
    let y := (enum p.2).foldl (fun y q => setElemOf y wa q.1 q.2.1) (u.reg (d + p.1))
    let u := u.setReg (d + p.1) y
    if s.hart.tp then u.zeroFrom (d + p.1) (64 * wa) else u) s

/-- It writes registers alone. -/
theorem State.accWrite_frame (out : List (List (Nat × Nat))) :
    s.accWrite d wa out = { s with hart.v := (s.accWrite d wa out).hart.v } := by
  unfold State.accWrite
  induction out using List.reverseRecOn with
  | nil => rfl
  | append_singleton out l ih =>
    rw [enum_concat, List.foldl_append]
    simp only [List.foldl_cons, List.foldl_nil]
    rw [ih]
    split
    · rw [State.zeroFrom, State.setReg_frame, State.setReg_frame]
    · rw [State.setReg_frame]

/-- The registers after it. -/
theorem State.accWrite_reg (out : List (List (Nat × Nat))) (h : d + out.length ≤ 32) (n : Nat) :
    (s.accWrite d wa out).reg n =
      if hn : d ≤ n ∧ n - d < out.length then s.accRow wa (s.reg n) (out[n - d]'hn.2) else s.reg n := by
  induction out using List.reverseRecOn generalizing n with
  | nil => rw [dif_neg fun hn => Nat.not_lt_zero _ hn.2]; rfl
  | append_singleton out l ih =>
    rw [List.length_append, List.length_singleton] at h
    have hbits : (s.accWrite d wa out).maxBits = s.maxBits := by rw [s.accWrite_frame]; rfl
    have hstep : s.accWrite d wa (out ++ [l]) = (s.accWrite d wa out).setReg (d + out.length) (s.accRow wa (s.reg (d + out.length)) l) := by
      have hreg : (s.accWrite d wa out).reg (d + out.length) = s.reg (d + out.length) := by
        rw [ih (by omega), dif_neg (by omega)]
      have hfold : s.accWrite d wa (out ++ [l]) =
          let y := (enum l).foldl (fun y q => setElemOf y wa q.1 q.2.1) ((s.accWrite d wa out).reg (d + out.length))
          let u := (s.accWrite d wa out).setReg (d + out.length) y
          if s.hart.tp then u.zeroFrom (d + out.length) (64 * wa) else u := by
        rw [State.accWrite, enum_concat, List.foldl_append]
        rfl
      rw [hfold, hreg]
      unfold State.accRow
      dsimp only
      split
      · rw [State.zeroFrom, State.reg_setReg_same _ _ _ (by omega), State.setReg_setReg, State.maxBits_setReg, hbits]
        rfl
      · rfl
    rw [hstep]
    by_cases hn : n = d + out.length
    · subst hn
      rw [State.reg_setReg_same _ _ _ (by omega)]
      simp
    · rw [State.reg_setReg_other _ _ _ _ hn, ih (by omega)]
      by_cases hin : d ≤ n ∧ n - d < out.length
      · have hlen : d ≤ n ∧ n - d < (out ++ [l]).length := ⟨hin.1, by simp; omega⟩
        rw [dif_pos hin, dif_pos hlen, List.getElem_append_left hin.2]
      · have hlen : ¬ (d ≤ n ∧ n - d < (out ++ [l]).length) := by simp; omega
        rw [dif_neg hin, dif_neg hlen]

end

/-- What is numbered is an item of the list. -/
theorem enum_mem {α : Type} {l : List α} {p : Nat × α} (h : p ∈ enum l) : p.2 ∈ l := by
  obtain ⟨q, hq, rfl⟩ := List.mem_map.mp h
  exact List.fst_mem_of_mem_zipIdx hq

/-! ### Chunks (R51) -/

/-- One chunk added to the accumulator of one column: `c j` is the chunk's sum in column `j`. -/
def addColumn (ta rm : Nat) (c : Nat → FVal × Nat) (b : Accumulators) (p : Nat × (Nat × Nat)) : Accumulators :=
  let r := accumulate ta rm b.lfsr p.2.1 (c p.1)
  { lfsr := if rm = 5 && etFloat ta then lfsrStep b.lfsr else b.lfsr
    acc := b.acc ++ [(r.1, p.2.2 ||| r.2)] }

/-- A chunk of at least one element is added column by column. -/
theorem addChunk_columns (ta rm : Nat) (x : Nat → FVal × Nat) (t : Nat → Nat → FVal × Nat) (a : Accumulators) (es : List Nat)
    (hes : es ≠ []) : addChunk ta rm x t a es =
      (enum a.acc).foldl (addColumn ta rm fun j => chunkSum (es.map fun e => (x e, t e j))) ⟨a.lfsr, []⟩ := if_neg hes

/-- What the columns then hold. -/
theorem addColumn_at (ta rm l0 : Nat) (c : Nat → FVal × Nat) (acc : List (Nat × Nat)) :
    let q := (enum acc).foldl (addColumn ta rm c) ⟨l0, []⟩
    q.acc.length = acc.length ∧ ∀ j (hj : j < acc.length), ∃ l, (q.acc[j]?).map Prod.fst = some (accumulate ta rm l acc[j].1 (c j)).1 := by
  intro q
  induction acc using List.reverseRecOn with
  | nil => exact ⟨rfl, fun j hj => absurd hj (Nat.not_lt_zero j)⟩
  | append_singleton acc p ih =>
    obtain ⟨hlen, hat⟩ := ih
    have hq : q = addColumn ta rm c ((enum acc).foldl (addColumn ta rm c) ⟨l0, []⟩) (acc.length, p) := by
      rw [show q = (enum (acc ++ [p])).foldl (addColumn ta rm c) ⟨l0, []⟩ from rfl, enum_concat, List.foldl_append]
      rfl
    generalize (enum acc).foldl (addColumn ta rm c) ⟨l0, []⟩ = b at hq hlen hat
    rw [hq]
    refine ⟨by simp [addColumn, hlen], fun j hj => ?_⟩
    rw [List.length_append, List.length_singleton] at hj
    by_cases h : j = acc.length
    · subst h
      exact ⟨b.lfsr, by simp [addColumn, ← hlen]⟩
    · obtain ⟨l, hl⟩ := hat j (by omega)
      refine ⟨l, ?_⟩
      rw [addColumn, List.getElem?_append_left (by omega), List.getElem_append_left (by omega)]
      exact hl

section
variable (s : State) (m : Bool) (d a : Nat) (t : BitVec 2) (n : Nat) (idx : Nat → Nat → Nat)

/-- The active elements below `n`. -/
abbrev State.activeBelow : List Nat := (List.range n).filter (s.active m)

/-- Up to 32 elements are one chunk. -/
theorem State.chunks_one (h0 : 0 < n) (h : n ≤ 32) : s.chunks m n = [s.activeBelow m n] := by
  have hone : ceilDiv n 32 = 1 := by
    rw [ceilDiv, if_neg (by omega)]
    omega
  rw [State.chunks, hone]
  simp [spanList, Nat.min_eq_left h]

/-- A span that goes on where a range ends. -/
theorem range_append_spanList {lo hi : Nat} (h : lo ≤ hi) : List.range lo ++ spanList lo hi = List.range hi := by
  obtain ⟨k, rfl⟩ := Nat.exists_eq_add_of_le h
  simp [spanList, List.range_add, Nat.add_comm]

/-- The chunks hold the active elements, in order. -/
theorem State.chunks_flatten : (s.chunks m n).flatten = s.activeBelow m n := by
  have hspans : ∀ c, ((List.range c).map fun c => spanList (32 * c) (min n (32 * c + 32))).flatten = List.range (min n (32 * c)) := by
    intro c
    induction c with
    | zero => simp
    | succ c ih =>
      rw [List.range_succ, List.map_append, List.flatten_append, ih]
      simp only [List.map_cons, List.map_nil, List.flatten_cons, List.flatten_nil, List.append_nil]
      rcases Nat.le_total n (32 * c) with h | h
      · rw [show min n (32 * (c + 1)) = n by omega, show min n (32 * c) = n by omega]
        simp [spanList, show min n (32 * c + 32) - 32 * c = 0 by omega]
      · rw [Nat.min_eq_right h, range_append_spanList (by omega), Nat.mul_succ]
  have hcount : min n (32 * ceilDiv n 32) = n := by
    rw [ceilDiv, if_neg (by omega)]
    omega
  have hmap : s.chunks m n
      = ((List.range (ceilDiv n 32)).map fun c => spanList (32 * c) (min n (32 * c + 32))).map (List.filter (s.active m)) := by
    rw [List.map_map]
    rfl
  rw [hmap, ← List.filter_flatten, hspans, hcount]

/-- An element of a row of the operand as the engine reads it (R50, R256). -/
def State.mxInputAt (r e : Nat) : FVal × Nat :=
  mxValue (atType s.hart.at_) s.hart.et (s.elem (a + r) (etWidth s.hart.et) e)
    (if s.hart.sb ≠ 0 then scaleExp (s.scaleByte (s.scaleIndex r e)) else 0)

/-- The tile element of column `j` that meets element `e` of row `r`. -/
def State.mxWeightAt (r e j : Nat) : FVal × Nat :=
  mxValue (atType s.hart.at_) s.hart.et ((s.tile t).elem (etWidth s.hart.et) (idx r e) j)
    (if s.hart.sb ≠ 0 then scaleExp ((s.tile t).scale (idx r e / max 1 (sbSize (s.tile t).tsb) * 64 + j)) else 0)

/-- An accumulator before the instruction, a residue as R48 reads it, with its flags. -/
def State.mxHeld (r j : Nat) : Nat × Nat :=
  let ta := atType s.hart.at_
  let c := s.elem (d + r) (etWidth ta) j
  if etRns ta then (rnsOp ta (fun p _ _ => p) c 0 0, rnsFlag ta c) else (c, 0)

/-- The accumulators of row `r` after the instruction, from the LFSR `l` on. -/
def State.mxRow (r l : Nat) : Accumulators :=
  (s.chunks m n).foldl (addChunk (atType s.hart.at_) (frmRM s.hart.frm) (s.mxInputAt a r) (s.mxWeightAt t idx r))
    ⟨l, (List.range 64).map (s.mxHeld d r)⟩

/-- The accumulators of the first `k` rows, and the LFSR after them. -/
def State.mxRows (k : Nat) : Nat × List (List (Nat × Nat)) :=
  (List.range k).foldl (fun p r => ((s.mxRow m d a t n idx r p.1).lfsr, p.2 ++ [(s.mxRow m d a t n idx r p.1).acc]))
    (s.hart.srseed.toNat, [])

/-- Each row comes from some LFSR. -/
theorem State.mxRows_at (k : Nat) : (s.mxRows m d a t n idx k).2.length = k ∧
    ∀ r, r < k → ∃ l, (s.mxRows m d a t n idx k).2[r]? = some (s.mxRow m d a t n idx r l).acc := by
  induction k with
  | zero => exact ⟨rfl, fun r hr => absurd hr (Nat.not_lt_zero r)⟩
  | succ k ih =>
    obtain ⟨hlen, hat⟩ := ih
    have hsucc : (s.mxRows m d a t n idx (k + 1)).2
        = (s.mxRows m d a t n idx k).2 ++ [(s.mxRow m d a t n idx k (s.mxRows m d a t n idx k).1).acc] := by
      rw [State.mxRows, List.range_succ, List.foldl_append]
      rfl
    rw [hsucc]
    refine ⟨by simp [hlen], fun r hr => ?_⟩
    by_cases h : r = k
    · subst h
      exact ⟨(s.mxRows m d a t n idx r).1, by rw [List.getElem?_append_right (by omega), hlen]; simp⟩
    · obtain ⟨l, hl⟩ := hat r (by omega)
      exact ⟨l, by rw [List.getElem?_append_left (by omega)]; exact hl⟩

/-- No index of an active element leaves the tile (R255). -/
def State.mxIndexed : Prop := ∀ r, r < s.hart.vrow → ∀ e ∈ s.activeBelow m n, idx r e < tileRows s.hart.et

/-- No scale that an active element reads is 0xFF (R256). -/
def State.mxScaled : Prop :=
  s.hart.sb ≠ 0 → s.scaleNan m s.hart.vrow 0 n = none ∧ s.tileNan (s.tile t) m s.hart.vrow n idx = none

/-- The flags of all accumulators. -/
abbrev State.mxFlags : Nat := (s.mxRows m d a t n idx s.hart.vrow).2.flatten.foldl (fun f p => f ||| p.2) 0

/-- The product of rows and a tile where nothing stops it (R254 to R256). -/
theorem State.rowsTimesTile_done (hidx : s.mxIndexed m n idx) (hsc : s.mxScaled m t n idx)
    (hf : ∀ q ∈ (s.mxRows m d a t n idx s.hart.vrow).2.flatten, flagCause s.hart.frm q.2 = none) :
    s.rowsTimesTile m d a t n idx = ⟨((({ s.accWrite d (etWidth (atType s.hart.at_)) (s.mxRows m d a t n idx s.hart.vrow).2 with
      hart.srseed := .ofNat 32 (s.mxRows m d a t n idx s.hart.vrow).1 } : State).raiseFlags (s.mxFlags m d a t n idx)).dirtyV),
      none, none⟩ := by
  have h1 : ((List.range s.hart.vrow).findSome? fun r => (s.activeBelow m n).findSome? fun e =>
      if tileRows s.hart.et ≤ idx r e then some (r * s.hart.vl + e) else none) = none := by
    simp only [List.findSome?_eq_none_iff]
    intro r hr e he
    rw [if_neg (Nat.not_le_of_lt (hidx r (List.mem_range.mp hr) e he))]
  have h2 : (if s.hart.sb ≠ 0 then s.scaleNan m s.hart.vrow 0 n else none) = none := by
    split
    · next h => exact (hsc h).1
    · rfl
  have h3 : (if s.hart.sb ≠ 0 then s.tileNan (s.tile t) m s.hart.vrow n idx else none) = none := by
    split
    · next h => exact (hsc h).2
    · rfl
  have h4 : ((enum (s.mxRows m d a t n idx s.hart.vrow).2.flatten).findSome? fun p =>
      (flagCause s.hart.frm p.2.2).map fun c => (p.1, c)) = none := by
    simp only [List.findSome?_eq_none_iff]
    intro p hp
    rw [hf _ (enum_mem hp)]
    rfl
  unfold State.rowsTimesTile
  dsimp only
  rw [h1, h2, h3]
  dsimp only
  split
  · next i c hc => exact absurd (hc.symm.trans h4) (by simp)
  · rfl

end

section
variable (s : State) (m : Bool) (d a : VReg) (t : BitVec 2) (idx : Nat → Nat → Nat) (checks : M Unit) (reads : State → Reads)
  (body : Nat → Nat → State → Pass)

/-- The registers after the product of rows and a tile. -/
abbrev State.mxRegs (n : Nat) : Vector Nat 32 :=
  (s.accWrite d.toNat (etWidth (atType s.hart.at_)) (s.mxRows m d.toNat a.toNat t n idx s.hart.vrow).2).hart.v

/-- A matrix instruction whose checks pass and whose product nothing stops (R254 to R256). -/
theorem State.matrix_done (ha : s.alone) (hc : checks.go s = (.ok (), s))
    (hb : body s.hart.vstart s.hart.vl s = s.rowsTimesTile m d.toNat a.toNat t s.hart.vl idx)
    (hidx : s.mxIndexed m s.hart.vl idx) (hsc : s.mxScaled m t s.hart.vl idx)
    (hf : ∀ q ∈ (s.mxRows m d.toNat a.toNat t s.hart.vl idx s.hart.vrow).2.flatten, flagCause s.hart.frm q.2 = none) :
    s.wholeMember checks m reads body = { s.vectorNext (s.mxRegs m d a t idx s.hart.vl) (s.mxFlags m d.toNat a.toNat t s.hart.vl idx) true 0 with
          hart.srseed := .ofNat 32 (s.mxRows m d.toNat a.toNat t s.hart.vl idx s.hart.vrow).1 } := by
  rw [s.wholeMember_completes _ m _ _ _ ha hc (hb.trans (s.rowsTimesTile_done m d.toNat a.toNat t s.hart.vl idx hidx hsc hf)) rfl rfl]
  dsimp only
  rw [State.accWrite_frame]
  simp [State.raiseFlags, State.dirtyV, State.stepLfsr, State.advance, State.vectorNext, State.wrote, Machine.raiseFlags, lfsrSteps]
  exact BitVec.eq_of_toNat_eq (by simp)

/-- The row of accumulators in a register that the product writes. -/
theorem State.mxRegs_row (u : State) (n : Nat) (hu : u.hart.v = s.mxRegs m d a t idx n) (hd : d.toNat + s.hart.vrow ≤ 32)
    (r : Nat) (hr : r < s.hart.vrow) : ∃ l, u.reg (d.toNat + r) = s.accRow (etWidth (atType s.hart.at_)) (s.reg (d.toNat + r))
      (s.mxRow m d.toNat a.toNat t n idx r l).acc := by
  obtain ⟨hlen, hat⟩ := s.mxRows_at m d.toNat a.toNat t n idx s.hart.vrow
  obtain ⟨l, hl⟩ := hat r hr
  obtain ⟨hlt, hget⟩ := List.getElem?_eq_some_iff.mp hl
  have hreg : u.reg (d.toNat + r) = _ := (congrArg (fun v : Vector Nat 32 => v.toList.getD (d.toNat + r) 0) hu).trans
    (s.accWrite_reg d.toNat (etWidth (atType s.hart.at_)) _ (by omega) (d.toNat + r))
  refine ⟨l, hreg.trans ?_⟩
  rw [dif_pos ⟨by omega, by omega⟩]
  simp only [Nat.add_sub_cancel_left, hget]

/-- The registers that it leaves. -/
theorem State.mxRegs_other (u : State) (n : Nat) (hu : u.hart.v = s.mxRegs m d a t idx n) (hd : d.toNat + s.hart.vrow ≤ 32)
    (k : Nat) (hk : ¬ (d.toNat ≤ k ∧ k < d.toNat + s.hart.vrow)) : u.reg k = s.reg k := by
  obtain ⟨hlen, -⟩ := s.mxRows_at m d.toNat a.toNat t n idx s.hart.vrow
  have hreg : u.reg k = _ := (congrArg (fun v : Vector Nat 32 => v.toList.getD k 0) hu).trans
    (s.accWrite_reg d.toNat (etWidth (atType s.hart.at_)) _ (by omega) k)
  rw [hreg, dif_neg (by omega)]

end

/-! ### Up to 32 elements: one chunk -/

/-- A residue element fits its type. -/
theorem rnsPack_lt {et : Nat} (h : etRns et = true) (c : Nat × Nat × Nat) : rnsPack et c < 2 ^ etWidth et := by
  have hcases : et = 15 ∨ et = 16 := by simpa [etRns] using h
  rcases hcases with rfl | rfl
  · have h1 := Nat.mod_lt c.1 (show 31 > 0 by omega)
    have h2 := Nat.mod_lt c.2.1 (show 32 > 0 by omega)
    have h3 := Nat.mod_lt c.2.2 (show 63 > 0 by omega)
    simp only [rnsPack, rnsMod, etWidth, if_true]
    omega
  · have h1 := Nat.mod_lt c.1 (show 1023 > 0 by omega)
    have h2 := Nat.mod_lt c.2.1 (show 1024 > 0 by omega)
    have h3 := Nat.mod_lt c.2.2 (show 2047 > 0 by omega)
    have hne : (16 : Nat) ≠ 15 := by omega
    simp only [rnsPack, rnsMod, etWidth, if_neg hne]
    omega

section
variable (s : State) (m : Bool) (d a : Nat) (t : BitVec 2) (n : Nat) (idx : Nat → Nat → Nat)

/-- An accumulator as it is held fits its type. -/
theorem State.mxHeld_lt (r j : Nat) : (s.mxHeld d r j).1 < 2 ^ etWidth (atType s.hart.at_) := by
  unfold State.mxHeld
  dsimp only
  split
  · next h => exact rnsPack_lt h _
  · exact elemOf_lt ..

/-- The row of one chunk: as held where no element is active, else one addition to each accumulator. -/
theorem State.mxRow_chunk (h0 : 0 < n) (h : n ≤ 32) (r l : Nat) : (s.mxRow m d a t n idx r l).acc.length = 64 ∧
    ∀ j (hj : j < (s.mxRow m d a t n idx r l).acc.length),
      (s.activeBelow m n = [] → (s.mxRow m d a t n idx r l).acc[j].1 = (s.mxHeld d r j).1)
      ∧ (s.activeBelow m n ≠ [] → ∃ l', (s.mxRow m d a t n idx r l).acc[j].1
        = (accumulate (atType s.hart.at_) (frmRM s.hart.frm) l' (s.mxHeld d r j).1
            (chunkSum ((s.activeBelow m n).map fun e => (s.mxInputAt a r e, s.mxWeightAt t idx r e j)))).1) := by
  have hrow : s.mxRow m d a t n idx r l = addChunk (atType s.hart.at_) (frmRM s.hart.frm) (s.mxInputAt a r) (s.mxWeightAt t idx r)
      ⟨l, (List.range 64).map (s.mxHeld d r)⟩ (s.activeBelow m n) := by
    rw [State.mxRow, s.chunks_one m n h0 h]
    rfl
  by_cases hes : s.activeBelow m n = []
  · have hheld : s.mxRow m d a t n idx r l = ⟨l, (List.range 64).map (s.mxHeld d r)⟩ := hrow.trans (if_pos hes)
    rw [hheld]
    refine ⟨by simp, fun j hj => ⟨fun _ => by simp, fun h => absurd hes h⟩⟩
  · rw [hrow, addChunk_columns _ _ _ _ _ _ hes]
    obtain ⟨hlen, hat⟩ := addColumn_at (atType s.hart.at_) (frmRM s.hart.frm) l
      (fun j => chunkSum ((s.activeBelow m n).map fun e => (s.mxInputAt a r e, s.mxWeightAt t idx r e j)))
      ((List.range 64).map (s.mxHeld d r))
    refine ⟨hlen.trans (by simp), fun j hj => ⟨fun h => absurd h hes, fun _ => ?_⟩⟩
    obtain ⟨l', hl'⟩ := hat j (hlen ▸ hj)
    refine ⟨l', ?_⟩
    rw [List.getElem?_eq_getElem hj, Option.map_some, Option.some.injEq, List.getElem_map, List.getElem_range] at hl'
    exact hl'

end

end Sys2Proof.Machine
end

section
/-! SUPPORT. Matrix instructions (R51, R254 to R257). -/

namespace Sys2Proof.Machine

/-! ### The instructions as products of rows and a tile -/

section
variable (s : State) (m : Bool) (d a i : VReg) (t : BitVec 2)

/-- What both instructions need of the state (R250, R254): the hart alone, the types, the operands and the tile. -/
structure State.mxReady : Prop where
  alone : s.alone
  types : s.vectorReady (mxTypes s.hart)
  tiles : s.hart.status.ts ≠ .off
  dest : s.tileOk d.toNat s.hart.vrow
  source : s.tileOk a.toNat s.hart.vrow
  tet : (s.tile t).tet = s.hart.et
  tsb : (s.tile t).tsb = s.hart.sbCode
  vl : 0 < s.hart.vl
  fits : s.hart.vl ≤ tileRows s.hart.et

/-- The state that a product leaves. -/
abbrev State.mxNext (idx : Nat → Nat → Nat) : State :=
  { s.vectorNext (s.mxRegs m d a t idx s.hart.vl) (s.mxFlags m d.toNat a.toNat t s.hart.vl idx) true 0 with
    hart.srseed := .ofNat 32 (s.mxRows m d.toNat a.toNat t s.hart.vl idx s.hart.vrow).1 }

/-- `vmxa` where nothing stops it. -/
theorem State.vmxa_done (h : s.mxReady d a t) (hsc : s.mxScaled m t s.hart.vl fun _ e => e)
    (hf : ∀ q ∈ (s.mxRows m d.toNat a.toNat t s.hart.vl (fun _ e => e) s.hart.vrow).2.flatten, flagCause s.hart.frm q.2 = none) :
    exec (.vmxa m d a t) s = .next (s.mxNext m d a t fun _ e => e) := by
  obtain ⟨ha, hty, hts, hd, hs, het, hsb, hvl, hfit⟩ := h
  refine congrArg Host.Outcome.next (s.matrix_done m d a t _ _ _ _ ha ?_ (if_neg (by omega)) (fun _ _ e he => ?_) hsc hf)
  · simp only [M.go_bind, s.matrixCheck_ok _ hty hts, s.tileCheck_ok _ _ hd, s.tileCheck_ok _ _ hs, s.mxShape_ok t hfit het hsb]
  · have := List.mem_range.mp (List.mem_filter.mp he).1
    omega

/-- `vmxs` where nothing stops it. -/
theorem State.vmxs_done (h : s.mxReady d a t)
    (hi : s.tileOk i.toNat (s.hart.vrow * max 1 (16 / max 1 (etWidth s.hart.et))))
    (hidx : s.mxIndexed m s.hart.vl (s.rowIndex i.toNat (etWidth s.hart.et)))
    (hsc : s.mxScaled m t s.hart.vl (s.rowIndex i.toNat (etWidth s.hart.et)))
    (hf : ∀ q ∈ (s.mxRows m d.toNat a.toNat t s.hart.vl (s.rowIndex i.toNat (etWidth s.hart.et)) s.hart.vrow).2.flatten,
      flagCause s.hart.frm q.2 = none) :
    exec (.vmxs m d a i t) s = .next (s.mxNext m d a t (s.rowIndex i.toNat (etWidth s.hart.et))) := by
  obtain ⟨ha, hty, hts, hd, hs, het, hsb, hvl, hfit⟩ := h
  refine congrArg Host.Outcome.next (s.matrix_done m d a t _ _ _ _ ha ?_ (if_neg (by omega)) hidx hsc hf)
  simp only [M.go_bind, s.matrixCheck_ok _ hty hts, s.tileCheck_ok _ _ hd, s.tileCheck_ok _ _ hs, s.tileCheck_ok _ _ hi,
    s.mxShape_ok t hfit het hsb]

/-- The accumulators that a product of one chunk leaves. -/
theorem State.mxNext_elem (h : s.mxReady d a t) (h32 : s.hart.vl ≤ 32) (idx : Nat → Nat → Nat) (r j : Nat) (hr : r < s.hart.vrow)
    (hj : j < 64) :
    let ta := atType s.hart.at_
    let u := s.mxNext m d a t idx
    (s.activeBelow m s.hart.vl = [] → u.elem (d.toNat + r) (etWidth ta) j = (s.mxHeld d.toNat r j).1)
    ∧ (s.activeBelow m s.hart.vl ≠ [] → ∃ l, u.elem (d.toNat + r) (etWidth ta) j
      = (accumulate ta (frmRM s.hart.frm) l (s.mxHeld d.toNat r j).1
          (chunkSum ((s.activeBelow m s.hart.vl).map fun e => (s.mxInputAt a.toNat r e, s.mxWeightAt t idx r e j)))).1 % 2 ^ etWidth ta) := by
  intro ta u
  obtain ⟨l, hrow⟩ := s.mxRegs_row m d a t idx u s.hart.vl rfl (State.tileOk_bound h.dest) r hr
  obtain ⟨hlen, hat⟩ := s.mxRow_chunk m d.toNat a.toNat t s.hart.vl idx h.vl h32 r l
  obtain ⟨hnone, hsome⟩ := hat j (by omega)
  have helem : u.elem (d.toNat + r) (etWidth ta) j = _ := (congrArg (elemOf · (etWidth ta) j) hrow).trans
    (s.accRow_elem (etWidth ta) _ _ j hj (by omega))
  refine ⟨fun hes => ?_, fun hes => ?_⟩
  · rw [helem, hnone hes]
    exact Nat.mod_eq_of_lt (s.mxHeld_lt ..)
  · obtain ⟨l', hl'⟩ := hsome hes
    exact ⟨l', by rw [helem, hl']⟩

/-- The elements after them. -/
theorem State.mxNext_tail (h : s.mxReady d a t) (h32 : s.hart.vl ≤ 32) (idx : Nat → Nat → Nat) (r j : Nat) (hr : r < s.hart.vrow)
    (hj : 64 ≤ j) (hfit : (j + 1) * etWidth (atType s.hart.at_) ≤ s.maxBits) :
    (s.mxNext m d a t idx).elem (d.toNat + r) (etWidth (atType s.hart.at_)) j
      = if s.hart.tp then 0 else s.elem (d.toNat + r) (etWidth (atType s.hart.at_)) j := by
  obtain ⟨l, hrow⟩ := s.mxRegs_row m d a t idx (s.mxNext m d a t idx) s.hart.vl rfl (State.tileOk_bound h.dest) r hr
  obtain ⟨hlen, -⟩ := s.mxRow_chunk m d.toNat a.toNat t s.hart.vl idx h.vl h32 r l
  exact (congrArg (elemOf · (etWidth (atType s.hart.at_)) j) hrow).trans (s.accRow_tail _ _ _ j hj hlen hfit)

end

end Sys2Proof.Machine
end

section
/-! SUPPORT. Rows times tile on integers (R51, R254). -/

namespace Sys2Proof.Machine

/-! ### Exact sums of integer products -/

/-- A value, with no flag, that is the integer `v`. -/
def FVal.holdsInt (x : FVal × Nat) (v : Int) : Prop := ∃ neg n, x = (.fin neg n 0 false, 0) ∧ unitsOf neg n 0 0 = v

/-- An integer as a value. -/
theorem FVal.holdsInt_ofInt (v : Int) : FVal.holdsInt (.fin (decide (v < 0)) v.natAbs 0 false, 0) v := by
  refine ⟨_, _, rfl, ?_⟩
  simp only [unitsOf, decide_eq_true_eq]
  split <;> simp <;> grind

/-- What an integer value is as an integer. -/
theorem FVal.toInt_of_holdsInt {x : FVal × Nat} {v : Int} (h : FVal.holdsInt x v) : x.1.toInt = v ∧ x.2 = 0 := by
  obtain ⟨neg, n, rfl, hv⟩ := h
  exact ⟨hv, rfl⟩

/-- Products of integers are exact. -/
theorem FVal.holdsInt_mul {x y : FVal × Nat} {a b : Int} (hx : FVal.holdsInt x a) (hy : FVal.holdsInt y b) :
    FVal.holdsInt ((FVal.mul x.1 y.1).1, (FVal.mul x.1 y.1).2 ||| x.2 ||| y.2) (a * b) := by
  obtain ⟨p, n, rfl, rfl⟩ := hx
  obtain ⟨q, k, rfl, rfl⟩ := hy
  refine ⟨p != q, n * k, by simp [FVal.mul], ?_⟩
  cases p <;> cases q <;> simp [unitsOf]

/-- Sums of integers are exact. -/
theorem FVal.holdsInt_add {x y : FVal × Nat} {a b : Int} (hx : FVal.holdsInt x a) (hy : FVal.holdsInt y b) :
    FVal.holdsInt ((FVal.add false x.1 y.1).1, x.2 ||| y.2 ||| (FVal.add false x.1 y.1).2) (a + b) := by
  obtain ⟨p, n, rfl, ha⟩ := hx
  obtain ⟨q, k, rfl, hb⟩ := hy
  by_cases h0 : (decide (n = 0) && decide (k = 0)) = true
  · have hzero : n = 0 ∧ k = 0 := by simpa using h0
    obtain ⟨rfl, rfl⟩ := hzero
    refine ⟨p && q, 0, by cases p <;> cases q <;> simp [FVal.add], ?_⟩
    rw [← ha, ← hb]
    simp [unitsOf]
  · have hadd : FVal.add false (.fin p n 0 false) (.fin q k 0 false)
        = if a + b = 0 then (.fin false 0 0 false, 0) else (.fin (decide (a + b < 0)) (a + b).natAbs 0 false, 0) := by
      simp only [FVal.add, h0, Bool.false_eq_true, if_false, Int.min_self, ha, hb]
    rw [hadd]
    by_cases hs : a + b = 0
    · rw [if_pos hs, hs]
      exact ⟨false, 0, by simp, rfl⟩
    · rw [if_neg hs]
      simpa using FVal.holdsInt_ofInt (a + b)

/-- One product more in the sum of a chunk. -/
def addProduct (z : FVal × Nat) (q : (FVal × Nat) × (FVal × Nat)) : FVal × Nat :=
  let y := ((FVal.mul q.1.1 q.2.1).1, (FVal.mul q.1.1 q.2.1).2 ||| q.1.2 ||| q.2.2)
  let w := FVal.add false z.1 y.1
  (w.1, z.2 ||| y.2 ||| w.2)

section
variable (x y : Nat → FVal × Nat) (a b : Nat → Int)
variable (hx : ∀ e, FVal.holdsInt (x e) (a e)) (hy : ∀ e, FVal.holdsInt (y e) (b e))
include hx hy

/-- Integer products added one after another. -/
theorem addProducts_int (es : List Nat) : ∀ (z : FVal × Nat) (v : Int), FVal.holdsInt z v →
    FVal.holdsInt ((es.map fun e => (x e, y e)).foldl addProduct z) (v + (es.map fun e => a e * b e).sum) := by
  induction es with
  | nil => intro z v hz; simpa using hz
  | cons e es ih =>
    intro z v hz
    rw [List.map_cons, List.map_cons, List.sum_cons, ← Int.add_assoc]
    exact ih _ _ (FVal.holdsInt_add hz (FVal.holdsInt_mul (hx e) (hy e)))

/-- The sum of a chunk of integer products is exact (R51). -/
theorem chunkSum_int (es : List Nat) :
    FVal.holdsInt (chunkSum (es.map fun e => (x e, y e))) ((es.map fun e => a e * b e).sum) := by
  cases es with
  | nil => exact ⟨false, 0, rfl, rfl⟩
  | cons e es => exact addProducts_int x y a b hx hy es _ _ (FVal.holdsInt_mul (hx e) (hy e))

end

/-- A chunk that holds an integer, added to an accumulator of type I32. -/
theorem accumulate_int (rm l acc : Nat) {c : FVal × Nat} {v : Int} (h : FVal.holdsInt c v) :
    accumulate 4 rm l acc c = (wrap 32 (acc + v), 0) := by
  obtain ⟨hv, hfl⟩ := FVal.toInt_of_holdsInt h
  rw [← hv, ← hfl]
  rfl

/-- Wrapping before an addition changes nothing. -/
theorem wrap_add_wrap (w : Nat) (x y : Int) : wrap w ((wrap w x : Nat) + y) = wrap w (x + y) := by
  apply Int.ofNat.inj
  change ((wrap w _ : Nat) : Int) = (wrap w _ : Nat)
  rw [wrap_cast, wrap_cast, wrap_cast, Int.emod_add_emod]

/-- Accumulators that hold the integers `g 0`, `g 1`, … modulo 2^32, with no flag. -/
def intAccumulators (k : Nat) (g : Nat → Int) : List (Nat × Nat) := (List.range k).map fun j => (wrap 32 (g j), 0)

/-- One more of them. -/
theorem intAccumulators_succ (k : Nat) (g : Nat → Int) : intAccumulators (k + 1) g = intAccumulators k g ++ [(wrap 32 (g k), 0)] := by
  simp [intAccumulators, List.range_succ]

/-- Integer sums added column by column. -/
theorem addColumns_int (rm l k : Nat) (g v : Nat → Int) (c : Nat → FVal × Nat) (hc : ∀ j, FVal.holdsInt (c j) (v j)) :
    (enum (intAccumulators k g)).foldl (addColumn 4 rm c) ⟨l, []⟩ = ⟨l, intAccumulators k fun j => g j + v j⟩ := by
  induction k with
  | zero => rfl
  | succ k ih =>
    have hlen : (intAccumulators k g).length = k := by simp [intAccumulators]
    have hfloat : etFloat 4 = false := rfl
    rw [intAccumulators_succ, enum_concat, List.foldl_append, ih, intAccumulators_succ, hlen]
    simp [addColumn, accumulate_int _ _ _ (hc k), hfloat, wrap_add_wrap]

section
variable (rm : Nat) (x : Nat → FVal × Nat) (y : Nat → Nat → FVal × Nat) (a : Nat → Int) (b : Nat → Nat → Int)
variable (hx : ∀ e, FVal.holdsInt (x e) (a e)) (hy : ∀ e j, FVal.holdsInt (y e j) (b e j))
include hx hy

/-- A chunk of integers added to a row. -/
theorem addChunk_int (l k : Nat) (g : Nat → Int) (es : List Nat) :
    addChunk 4 rm x y ⟨l, intAccumulators k g⟩ es
      = ⟨l, intAccumulators k fun j => g j + (es.map fun e => a e * b e j).sum⟩ := by
  by_cases hes : es = []
  · subst hes
    simp [addChunk]
  · rw [addChunk_columns _ _ _ _ _ _ hes]
    exact addColumns_int _ _ _ _ _ _ fun j => chunkSum_int x (fun e => y e j) a (fun e => b e j) hx (fun e => hy e j) es

/-- However many chunks there are, their elements' products are added. -/
theorem addChunks_int (l k : Nat) (cs : List (List Nat)) : ∀ g : Nat → Int,
    cs.foldl (addChunk 4 rm x y) ⟨l, intAccumulators k g⟩
      = ⟨l, intAccumulators k fun j => g j + (cs.flatten.map fun e => a e * b e j).sum⟩ := by
  induction cs with
  | nil => intro g; simp
  | cons es cs ih =>
    intro g
    rw [List.foldl_cons, addChunk_int rm x y a b hx hy, ih]
    simp [Int.add_assoc]

end

/-! ### Integer rows times tile -/

/-- An input of an integer type as the engine reads it. -/
theorem mxValue_int {ta et : Nat} (hta : ta ≠ 15) (het : cvI et = true) (x : Nat) : FVal.holdsInt (mxValue ta et x 0) (intOf et x) := by
  have hval : mxValue ta et x 0 = (.fin (decide (intOf et x < 0)) (intOf et x).natAbs 0 false, 0) := by
    rw [mxValue, if_neg (by simp [hta]), valueOf, if_pos het]
    rfl
  rw [hval]
  exact FVal.holdsInt_ofInt _

section
variable (s : State) (m : Bool) (d a : Nat) (t : BitVec 2) (n : Nat) (idx : Nat → Nat → Nat)
variable (het : cvI s.hart.et = true) (hat : s.hart.at_ = 2) (hsb : s.hart.sb = 0)

/-- The sum of row `r` and column `j` (R254). -/
def State.mxTotal (r j : Nat) : Int :=
  s.elem (d + r) 32 j + ((s.activeBelow m n).map fun e =>
    intOf s.hart.et (s.elem (a + r) (etWidth s.hart.et) e) * intOf s.hart.et ((s.tile t).elem (etWidth s.hart.et) (idx r e) j)).sum

include het hat hsb

/-- A row of integers. -/
theorem State.mxRow_int (r l : Nat) : s.mxRow m d a t n idx r l = ⟨l, intAccumulators 64 (s.mxTotal m d a t n idx r)⟩ := by
  have hheld : (List.range 64).map (s.mxHeld d r) = intAccumulators 64 fun j => s.elem (d + r) 32 j := by
    refine List.map_congr_left fun j _ => ?_
    have hlt : s.elem (d + r) 32 j < 2 ^ 32 := elemOf_lt ..
    have hwrap : wrap 32 (s.elem (d + r) 32 j) = s.elem (d + r) 32 j := by
      unfold wrap
      omega
    rw [State.mxHeld, hat, hwrap]
    rfl
  have hx : ∀ e, FVal.holdsInt (s.mxInputAt a r e) (intOf s.hart.et (s.elem (a + r) (etWidth s.hart.et) e)) := by
    intro e
    rw [State.mxInputAt, if_neg (by omega), hat]
    exact mxValue_int (by decide) het _
  have hy : ∀ e j, FVal.holdsInt (s.mxWeightAt t idx r e j) (intOf s.hart.et ((s.tile t).elem (etWidth s.hart.et) (idx r e) j)) := by
    intro e j
    rw [State.mxWeightAt, if_neg (by omega), hat]
    exact mxValue_int (by decide) het _
  rw [State.mxRow, hheld, hat, show atType 2 = 4 from rfl, addChunks_int _ _ _ _ _ hx hy, s.chunks_flatten]
  rfl

/-- The rows of integers: the LFSR stays. -/
theorem State.mxRows_int (k : Nat) : s.mxRows m d a t n idx k
    = (s.hart.srseed.toNat, (List.range k).map fun r => intAccumulators 64 (s.mxTotal m d a t n idx r)) := by
  induction k with
  | zero => rfl
  | succ k ih =>
    have hsucc : s.mxRows m d a t n idx (k + 1) = ((s.mxRow m d a t n idx k (s.mxRows m d a t n idx k).1).lfsr,
        (s.mxRows m d a t n idx k).2 ++ [(s.mxRow m d a t n idx k (s.mxRows m d a t n idx k).1).acc]) := by
      rw [State.mxRows, List.range_succ, List.foldl_append]
      rfl
    rw [hsucc, ih, s.mxRow_int m d a t n idx het hat hsb]
    simp [List.range_succ]

/-- No accumulator raises a flag. -/
theorem State.mxRows_int_flags (k : Nat) : ∀ q ∈ (s.mxRows m d a t n idx k).2.flatten, q.2 = 0 := by
  rw [s.mxRows_int m d a t n idx het hat hsb]
  intro q hq
  obtain ⟨row, hrow, hmem⟩ := List.mem_flatten.mp hq
  obtain ⟨r, -, rfl⟩ := List.mem_map.mp hrow
  obtain ⟨j, -, rfl⟩ := List.mem_map.mp hmem
  rfl

end

/-- No flag gives no cause. -/
theorem flagCause_zero (frm : BitVec 15) : flagCause frm 0 = none := by
  simp [flagCause]

/-- The flags of a list that has none. -/
theorem flags_zero (l : List (Nat × Nat)) (h : ∀ q ∈ l, q.2 = 0) : l.foldl (fun f p => f ||| p.2) 0 = 0 := by
  induction l with
  | nil => rfl
  | cons q l ih =>
    rw [List.foldl_cons, h q (List.mem_cons_self ..)]
    exact ih fun p hp => h p (List.mem_cons_of_mem _ hp)

/-- `vmxa` on integers: sums modulo 2^32, no flag, no step of the LFSR (R51, R254). -/
theorem State.vmxa_int (s : State) (m : Bool) (d a : VReg) (t : BitVec 2) (h : s.mxReady d a t) (het : cvI s.hart.et = true)
    (hat : s.hart.at_ = 2) (hsb : s.hart.sb = 0) :
    ∃ u, exec (.vmxa m d a t) s = .next u ∧ u.hart.flags = s.hart.flags ∧ u.hart.srseed = s.hart.srseed
      ∧ ∀ r, r < s.hart.vrow → ∀ j, j < 64 → u.elem (d.toNat + r) 32 j
        = wrap 32 (s.mxTotal m d.toNat a.toNat t s.hart.vl (fun _ e => e) r j) := by
  have hzero := s.mxRows_int_flags m d.toNat a.toNat t s.hart.vl (fun _ e => e) het hat hsb s.hart.vrow
  refine ⟨_, s.vmxa_done m d a t h (fun hne => absurd hsb hne) fun q hq => ?_, ?_, ?_, fun r hr j hj => ?_⟩
  · rw [hzero q hq]
    exact flagCause_zero _
  · change s.hart.flags ||| .ofNat 7 (s.mxFlags m d.toNat a.toNat t s.hart.vl fun _ e => e) = s.hart.flags
    rw [State.mxFlags, flags_zero _ hzero]
    simp
  · change BitVec.ofNat 32 (s.mxRows m d.toNat a.toNat t s.hart.vl (fun _ e => e) s.hart.vrow).1 = s.hart.srseed
    rw [s.mxRows_int m d.toNat a.toNat t s.hart.vl _ het hat hsb]
    simp
  · obtain ⟨l, hrow⟩ := s.mxRegs_row m d a t (fun _ e => e) (s.mxNext m d a t fun _ e => e) s.hart.vl rfl
      (State.tileOk_bound h.dest) r hr
    rw [s.mxRow_int m d.toNat a.toNat t s.hart.vl _ het hat hsb, hat] at hrow
    refine (congrArg (elemOf · 32 j) hrow).trans ((s.accRow_elem 32 _ _ j hj (by simp [intAccumulators]; omega)).trans ?_)
    simp only [intAccumulators, List.getElem_map, List.getElem_range]
    exact Nat.mod_eq_of_lt (wrap_lt ..)

end Sys2Proof.Machine
end

section
/-! SUPPORT. Rank-one products, and the matrix instructions together (R257). -/

namespace Sys2Proof.Machine

/-! ### Rank-one products (R257) -/

section
variable (s : State) (m : Bool) (a i : Nat)

/-- One element of `tout` in row 0 of the instruction: element (k, j) of the tile. -/
def State.rankStep (k : Nat) (q : Rank) (j : Nat) : Rank :=
  let w := etWidth s.hart.et
  let p := k * 64 + j
  let c := rankOne s.hart.frm (atType s.hart.at_) s.hart.et q.lfsr (elemOf q.data w p) (s.elem a w k) (s.elem i w j)
  { data := setElemOf q.data w p c.1
    lfsr := if frmRM s.hart.frm = 5 && !cvI s.hart.et then lfsrStep q.lfsr else q.lfsr
    flags := if c.2 = 0 then q.flags else q.flags ++ [(p, c.2)] }

/-- One row of the tile. -/
def State.rankRow (n : Nat) (q : Rank) (k : Nat) : Rank := (List.range n).foldl (s.rankStep a i k) q

/-- One column more. -/
theorem State.rankRow_succ (n : Nat) (q : Rank) (k : Nat) : s.rankRow a i (n + 1) q k = s.rankStep a i k (s.rankRow a i n q k) n := by
  rw [State.rankRow, List.range_succ, List.foldl_append]
  rfl

/-- A row writes its own elements alone. -/
theorem State.rankRow_other (n : Nat) (q : Rank) (k p : Nat) (hp : p < k * 64 ∨ k * 64 + n ≤ p) :
    elemOf (s.rankRow a i n q k).data (etWidth s.hart.et) p = elemOf q.data (etWidth s.hart.et) p := by
  induction n with
  | zero => rfl
  | succ n ih =>
    rw [State.rankRow_succ, State.rankStep]
    exact (elemOf_setElemOf_other _ _ _ _ _ (by omega)).trans (ih (by omega))

/-- Element `old` of the tile after the update with row `k` and column `j`, for some LFSR. -/
def State.rankedAt (k j old new : Nat) : Prop := ∃ l,
  new = (rankOne s.hart.frm (atType s.hart.at_) s.hart.et l old (s.elem a (etWidth s.hart.et) k)
    (s.elem i (etWidth s.hart.et) j)).1 % 2 ^ etWidth s.hart.et

/-- A row updates each of its elements. -/
theorem State.rankRow_at (n : Nat) (q : Rank) (k j : Nat) (hj : j < n) :
    s.rankedAt a i k j (elemOf q.data (etWidth s.hart.et) (k * 64 + j))
      (elemOf (s.rankRow a i n q k).data (etWidth s.hart.et) (k * 64 + j)) := by
  induction n with
  | zero => exact absurd hj (Nat.not_lt_zero j)
  | succ n ih =>
    rw [State.rankRow_succ, State.rankStep]
    dsimp only
    by_cases h : j = n
    · subst h
      rw [elemOf_setElemOf_same, s.rankRow_other a i j q k _ (by omega)]
      exact ⟨_, rfl⟩
    · rw [elemOf_setElemOf_other _ _ _ _ _ (by omega)]
      exact ih (by omega)

/-- Rows of the tile one after another: each is updated once, the others stay. -/
theorem State.rankRows_at (ks : List Nat) (hnd : ks.Nodup) (j : Nat) (hj : j < 64) : ∀ (q : Rank) (k : Nat),
    (k ∈ ks → s.rankedAt a i k j (elemOf q.data (etWidth s.hart.et) (k * 64 + j))
      (elemOf (ks.foldl (s.rankRow a i 64) q).data (etWidth s.hart.et) (k * 64 + j)))
    ∧ (k ∉ ks → elemOf (ks.foldl (s.rankRow a i 64) q).data (etWidth s.hart.et) (k * 64 + j)
        = elemOf q.data (etWidth s.hart.et) (k * 64 + j)) := by
  induction ks with
  | nil => exact fun q k => ⟨fun h => absurd h (List.not_mem_nil), fun _ => rfl⟩
  | cons c ks ih =>
    intro q k
    obtain ⟨hc, hks⟩ := List.nodup_cons.mp hnd
    obtain ⟨hin, hout⟩ := ih hks (s.rankRow a i 64 q c) k
    rw [List.foldl_cons]
    by_cases h : k = c
    · subst h
      refine ⟨fun _ => ?_, fun hn => absurd (List.mem_cons_self ..) hn⟩
      rw [hout hc]
      exact s.rankRow_at a i 64 q k j hj
    · have hsame := s.rankRow_other a i 64 q c (k * 64 + j) (by omega)
      rw [hsame] at hin hout
      exact ⟨fun hk => hin ((List.mem_cons.mp hk).resolve_left h), fun hk => hout fun hm => hk (List.mem_cons_of_mem _ hm)⟩

/-- `tout` with one row goes through the tile rows that the mask lets through. -/
theorem State.rank_rows (t : BitVec 2) (n : Nat) (hrow : s.hart.vrow = 1) :
    s.rank m a i t n = (s.activeBelow m n).foldl (s.rankRow a i 64) { data := (s.tile t).data, lfsr := s.hart.srseed.toNat } := by
  rw [State.rank]
  dsimp only
  rw [hrow, List.range_one, List.foldl_cons, List.foldl_nil]
  rfl

end

/-- No scale block is coded 0. -/
theorem Hart.sbCode_zero (h : Hart) (hsb : h.sb = 0) : h.sbCode = 0 := by
  unfold Hart.sb at hsb
  unfold Hart.sbCode
  split at hsb
  · assumption
  all_goals omega

/-- A tile register set, and another one. -/
theorem State.tile_setTile (s : State) (t k : BitVec 2) (x : Tile) : (s.setTile t x).tile k = if k = t then x else s.tile k := by
  unfold State.setTile State.tile
  by_cases h : k = t
  · subst h
    simp
  · have hne : t.toNat ≠ k.toNat := fun e => h (BitVec.eq_of_toNat_eq e.symm)
    simp [h, hne]

section
variable (s : State) (m : Bool) (a i : VReg) (t : BitVec 2)

/-- The flags of all elements of `tout`. -/
def State.rankFlags : Nat := (s.rank m a.toNat i.toNat t s.hart.vl).flags.foldl (fun f x => f ||| x.2) 0

/-- The state with the tile updated. -/
def State.ranked : State :=
  let q := s.rank m a.toNat i.toNat t s.hart.vl
  let u := s.setTile t { s.tile t with data := q.data }
  ({ u with hart.srseed := .ofNat 32 q.lfsr } : State).raiseFlags (s.rankFlags m a i t)

/-- The state that it completes in: the tile and the LFSR beside flags. -/
def State.rankNext : State :=
  let q := s.rank m a.toNat i.toNat t s.hart.vl
  { s.vectorNext s.hart.v (s.rankFlags m a i t) false 0 with
    hart.srseed := .ofNat 32 q.lfsr
    hart.status.ts := .dirty
    hart.tile := s.hart.tile.set t.toNat { s.tile t with data := q.data } t.isLt }

/-- The instruction goes on from there. -/
theorem State.ranked_next : ({ (s.ranked m a i t).stepLfsr 0 with hart.vstart := 0 } : State).advance = s.rankNext m a i t := by
  unfold State.ranked State.rankNext
  generalize s.rankFlags m a i t = fl
  generalize s.rank m a.toNat i.toNat t s.hart.vl = q
  obtain ⟨data, lfsr, flags⟩ := q
  simp [State.raiseFlags, State.setTile, State.dirtyT, State.stepLfsr, State.advance, State.vectorNext, State.wrote,
    Machine.raiseFlags, lfsrSteps]
  exact BitVec.eq_of_toNat_eq (by simp)

/-- Its tiles. -/
theorem State.rankNext_tile (k : BitVec 2) : (s.rankNext m a i t).tile k =
    if k = t then { s.tile t with data := (s.rank m a.toNat i.toNat t s.hart.vl).data } else s.tile k :=
  s.tile_setTile t k _

/-- `tout` with one row, no enabled flag and at least one row of the tile (R257). -/
theorem State.tout_done (ha : s.alone) (hty : s.vectorReady fun et => mxTypes s.hart et && decide (s.hart.sb = 0))
    (hts : s.hart.status.ts ≠ .off) (hrow : s.hart.vrow = 1) (hs : s.tileOk a.toNat 1) (hi : s.tileOk i.toNat 1)
    (htet : (s.tile t).tet = s.hart.et) (htsb : (s.tile t).tsb = s.hart.sbCode) (hfit : s.hart.vl ≤ tileRows s.hart.et)
    (hfrm : ∀ f, flagCause s.hart.frm f = none) :
    (s.hart.vl = 0 → exec (.tout m a i t) s = .next (s.vectorNext s.hart.v 0 false 0))
    ∧ (0 < s.hart.vl → ∃ u fl, exec (.tout m a i t) s = .next u
      ∧ u = { s.vectorNext s.hart.v fl false 0 with
        hart.srseed := u.hart.srseed
        hart.status.ts := .dirty
        hart.tile := u.hart.tile }
      ∧ (∀ k, k ≠ t → u.tile k = s.tile k)
      ∧ ∀ k, k < tileRows s.hart.et → ∀ j, j < 64 →
        (k < s.hart.vl ∧ s.active m k = true →
          s.rankedAt a.toNat i.toNat k j ((s.tile t).elem (etWidth s.hart.et) k j) ((u.tile t).elem (etWidth s.hart.et) k j))
        ∧ (¬ (k < s.hart.vl ∧ s.active m k = true) →
          (u.tile t).elem (etWidth s.hart.et) k j = (s.tile t).elem (etWidth s.hart.et) k j)) := by
  have hchecks : (do
      vectorCheck (fun et => mxTypes s.hart et && s.hart.sb = 0) (matrix := true)
      tileCheck a.toNat s.hart.vrow
      tileCheck i.toNat s.hart.vrow
      mxShape t : M Unit).go s = (.ok (), s) := by
    rw [hrow]
    simp only [M.go_bind, s.matrixCheck_ok _ hty hts, s.tileCheck_ok _ _ hs, s.tileCheck_ok _ _ hi, s.mxShape_ok t hfit htet htsb]
  have hhits : (((s.rank m a.toNat i.toNat t s.hart.vl).flags.filter fun p => (flagCause s.hart.frm p.2).isSome).map (·.1)).min? = none := by
    simp [hfrm]
  refine ⟨fun h0 => congrArg Host.Outcome.next ?_, fun hpos => ?_⟩
  · refine (s.wholeMember_completes _ m _ _ ⟨s, none, none⟩ ha hchecks ?_ rfl rfl).trans (s.vectorNext_idle 0)
    dsimp only
    rw [hhits]
    exact if_pos h0
  · refine ⟨s.rankNext m a i t, s.rankFlags m a i t, congrArg Host.Outcome.next ((s.wholeMember_completes _ m _ _
      ⟨s.ranked m a i t, none, none⟩ ha hchecks ?_ rfl rfl).trans (s.ranked_next m a i t)), rfl, fun k hk => ?_, fun k hk j hj => ?_⟩
    · dsimp only
      rw [hhits]
      exact if_neg (by omega)
    · exact (s.rankNext_tile m a i t k).trans (if_neg hk)
    · have hdata : (s.rankNext m a i t).tile t = _ := (s.rankNext_tile m a i t t).trans (if_pos rfl)
      obtain ⟨hin, hout⟩ := s.rankRows_at a.toNat i.toNat (s.activeBelow m s.hart.vl) (List.nodup_range.filter _) j hj
        { data := (s.tile t).data, lfsr := s.hart.srseed.toNat } k
      rw [← s.rank_rows m a.toNat i.toNat t s.hart.vl hrow] at hin hout
      rw [hdata]
      exact ⟨fun h => hin (List.mem_filter.mpr ⟨List.mem_range.mpr h.1, h.2⟩),
        fun h => hout fun hm => h ⟨List.mem_range.mp (List.mem_filter.mp hm).1, (List.mem_filter.mp hm).2⟩⟩

end

/-- Settles O42: the product of rows and a tile is one sum per accumulator and chunk, exact on integers, and `tout` goes
element by element. -/
theorem matrixProducts : Obligations.MatrixProducts := by
  unfold Obligations.MatrixProducts
  refine ⟨?_, ?_, ?_⟩
  · intro s m d a i t et w ta wa rows x scaled here ha hty hts hd hs htet htsb h32 hvl hfit hfrm hnan p hp hi hidx htile
    have hready : s.mxReady d a t := ⟨ha, hty, hts, hd, hs, htet, htsb, hvl, hfit⟩
    have hsc : s.mxScaled m t s.hart.vl p.2 := fun h => ⟨hnan (decide_eq_true h), htile (decide_eq_true h)⟩
    have hexec : exec p.1 s = .next (s.mxNext m d a t p.2) := by
      rcases List.mem_pair.mp hp with rfl | rfl
      · exact s.vmxa_done m d a t hready hsc fun _ _ => hfrm _
      · exact s.vmxs_done m d a i t hready (hi rfl) hidx hsc fun _ _ => hfrm _
    refine ⟨_, s.mxFlags m d.toNat a.toNat t s.hart.vl p.2, hexec, rfl, fun r hr j hj => ?_, fun r hr j hj hmax => ?_, fun n hn => ?_⟩
    · intro input weight held old
      have hin : input = s.mxInputAt a.toNat r := by
        funext e
        simp only [input, scaled, decide_eq_true_eq]
        rfl
      have hwt : weight = fun e => s.mxWeightAt t p.2 r e j := by
        funext e
        simp only [weight, scaled, decide_eq_true_eq]
        rfl
      have hold : old = (s.mxHeld d.toNat r j).1 := by
        unfold State.mxHeld
        dsimp only
        split
        · next h => exact if_pos h
        · next h => exact if_neg h
      rw [hin, hwt, hold]
      exact s.mxNext_elem m d a t hready h32 p.2 r j hr hj
    · exact s.mxNext_tail m d a t hready h32 p.2 r j hr hj hmax
    · exact s.mxRegs_other m d a t p.2 _ s.hart.vl rfl (State.tileOk_bound hd) n hn
  · intro s m d a t et w rows x here ha hty hts hd hs het hat hsb htet htsb hvl hfit
    have hcv : cvI s.hart.et = true := by
      rcases het with h | h
      · exact congrArg cvI h
      · exact congrArg cvI h
    have hcode : x.tsb = s.hart.sbCode := htsb.trans (s.hart.sbCode_zero hsb).symm
    exact s.vmxa_int m d a t ⟨ha, hty, hts, hd, hs, htet, hcode, hvl, hfit⟩ hcv hat hsb
  · intro s m a i t et w x ha hty hts hrow hs hi htet htsb hfit hfrm
    exact s.tout_done m a i t ha hty hts hrow hs hi htet htsb hfit hfrm

end Sys2Proof.Machine
end

section
/-! SUPPORT. A state in which an element train is never acknowledged (R104, R238, R406). -/

namespace Sys2Proof.Machine

/-! ### An update that stays under way

Trains are acknowledged by endpoints that answer, and an endpoint that is down does not answer (R102, R104). Accesses to another
endpoint that is down fault (R406), but those to another die of the hart's own endpoint do not: with the own endpoint itself
listed as down, the train of a `vrrs` to such a die is sent and its update never arrives. -/

/-- `vrrs` of one FP32 element, 1.0, added to the word at 0x2400000000, which lies on die 1, from a core of die 0, while the own
endpoint is listed as down. -/
def ownDown : State :=
  { State.reset with
    hart.run := .running
    hart.pc := 0x1000
    hart.x := Vector.replicate 32 0x2400000000
    hart.v := Vector.replicate 32 0x3F800000
    hart.status.vs := .clean
    hart.vl := 1
    hart.maxvl := 512
    hart.vtype := 9
    hart.cop := 1
    cores := [(0, { lat := #v[some 0, none, none, none, none, none, none, none] })]
    down := [0] }

/-- Its only access. -/
def ownDownAccess : Access := ⟨0, 0, 6, 0, .home ⟨.glob 0x2400000000, 0x2400000000, false, 0⟩, none⟩

/-- What the word of that access holds once the trains of the next state are acknowledged. -/
def readAcked : Result → Option Nat
  | .next t => some (t.ackTrains.accessRead ownDownAccess 32)
  | _ => none

/-- The word keeps its old value 0. -/
theorem ownDown_unchanged : readAcked (exec (.vrrs false 6 1 .hart .none) ownDown) = some 0 := by decide +kernel

/-- The reduction would leave 1.0. -/
theorem ownDown_update : (reduceInto 1 9 9 (ownDown.accessRead ownDownAccess 32) (ownDown.elem 6 32 0) 0).1 % 2 ^ 32 = 0x3F800000 := by
  decide +kernel

/-- The hart and its instruction meet the conditions at issue. -/
theorem ownDown_ready : ownDown.alone ∧ ownDown.vectorReady (fun et => vrrsPair ownDown.hart.at_ et ownDown.hart.sb)
    ∧ ownDown.tileOk 6 1 ∧ ownDown.settled ∧ ownDown.canonical := by
  unfold State.alone State.vectorReady State.vectorOn State.tileOk State.settled State.canonical
  decide +kernel

/-- Its access meets no fault and no stall, and leaves the state as it is. -/
theorem ownDown_resolves : resolveElems (ownDown.active false) (List.range 1) (fun (k : Acc) (r e : Nat) => (do
      let n := r * ownDown.hart.vl + e
      let spot ← spotAt k .global 1 4 (n * 4 : Nat) 0 0
      pure { pos := n, elem := e, reg := 6 + r, idx := e, spot := spot } : M Access)) .atomic (spanList 0 1) ownDown []
    = (ownDown, [ownDownAccess], none) := by
  decide +kernel

/-- Refutes O38: nothing in the statement keeps the hart's own endpoint out of the list of those that are down, and then the update of
`vrrs` on another die of that endpoint never arrives: in `ownDown` the word reads 0 and not 1.0. -/
theorem not_contributingInstructions : ¬ Obligations.ContributingInstructions := by
  unfold Obligations.ContributingInstructions
  intro h
  obtain ⟨halone, hready, htile, hsettled, hcanon⟩ := ownDown_ready
  have hplain : ∀ x ∈ [ownDownAccess], ownDown.plainSpot x.spot := by
    intro x hx
    rw [List.mem_singleton.mp hx]
    exact fun ⟨_, hub⟩ => absurd hub (by decide)
  have hapart : apart 4 [ownDownAccess] := fun x hx y hy hne =>
    absurd ((List.mem_singleton.mp hy).trans (List.mem_singleton.mp hx).symm) hne
  obtain ⟨t, fl, hexec, -, -, hread⟩ := (h.1 ownDown ownDown ownDown false 6 1 .hart .none [ownDownAccess] halone hready htile rfl
    (Or.inl (by decide)) rfl rfl halone hsettled rfl (by decide)).1 (by decide) ownDown_resolves hplain hcanon hapart
  have hkept := ownDown_unchanged
  rw [hexec] at hkept
  have hnew := (hread ownDownAccess (List.mem_singleton.mpr rfl)).trans ownDown_update
  exact absurd ((Option.some.inj hkept).symm.trans hnew) (by decide)

end Sys2Proof.Machine
end

section
/-! SUPPORT. The canonical form of the memories and the tables, and the operations that write them. Every other operation of the
model changes them through these. -/

namespace Sys2Proof.Machine

/-! ### Tables whose keys rise -/

/-- An entry set or removed leaves the keys of a table rising. -/
theorem Tbl.set_keys_rise {β : Type} [DecidableEq β] (d : β) (t : Tbl β) (n : Nat) (v : β)
    (h : (t.map (·.1)).Pairwise (· < ·)) : ((Tbl.set d t n v).map (·.1)).Pairwise (· < ·) := by
  have keys : ∀ (u : Tbl β) (k : Nat), k ∈ (Tbl.set d u n v).map (·.1) → k = n ∨ k ∈ u.map (·.1) := by
    intro u k
    induction u with
    | nil => grind [Tbl.set]
    | cons p u ih => grind [Tbl.set]
  induction t with
  | nil => grind [Tbl.set]
  | cons p t ih =>
    obtain ⟨k, w⟩ := p
    obtain ⟨hp, ht⟩ := List.pairwise_cons.mp h
    unfold Tbl.set
    split
    · next hn =>
      have hfirst : ∀ j ∈ k :: t.map (·.1), n < j := by
        intro j hj
        rcases List.mem_cons.mp hj with rfl | hj
        · exact hn
        · exact hn.trans (hp j hj)
      split
      · exact h
      · exact List.pairwise_cons.mpr ⟨hfirst, h⟩
    · split
      · next hn =>
        split
        · exact ht
        · exact List.pairwise_cons.mpr ⟨hn ▸ hp, ht⟩
      · refine List.pairwise_cons.mpr ⟨fun j hj => ?_, ih ht⟩
        rcases keys t j hj with rfl | hj
        · show k < j
          omega
        · exact hp j hj

namespace State.canonical

variable {s : State}

/-- A state with the same memories and tables is canonical as well. -/
theorem of_same {t : State} (h : s.canonical) (hm : t.mem = s.mem) (hsp : t.spad = s.spad) (hl : t.lane = s.lane)
    (ht : t.spt = s.spt) (hk : t.locks = s.locks) (hc : t.cores = s.cores) (hq : t.queues = s.queues)
    (ho : t.others = s.others) : t.canonical := by
  unfold State.canonical at *
  rwa [hm, hsp, hl, ht, hk, hc, hq, ho]

theorem withHart (h : s.canonical) (x : Hart) : { s with hart := x }.canonical := h

section
variable {m : Memory}

theorem withMem : s.canonical → m.wf = true → { s with mem := m }.canonical
  | ⟨_, hs⟩, hm => ⟨hm, hs⟩

theorem withSpad : s.canonical → m.wf = true → { s with spad := m }.canonical
  | ⟨hmem, _, hs⟩, hm => ⟨hmem, hm, hs⟩

theorem withLane : s.canonical → m.wf = true → { s with lane := m }.canonical
  | ⟨hmem, hspad, _, hs⟩, hm => ⟨hmem, hspad, hm, hs⟩

theorem withSpt {t : Tbl Word} : s.canonical → Tbl.wfFrom 0 0 t = true → { s with spt := t }.canonical
  | ⟨hmem, hspad, hlane, _, hs⟩, ht => ⟨hmem, hspad, hlane, ht, hs⟩

theorem withLocks {t : Tbl (BitVec 4)} : s.canonical → Tbl.wfFrom 0 0 t = true → { s with locks := t }.canonical
  | ⟨hmem, hspad, hlane, hspt, _, hs⟩, ht => ⟨hmem, hspad, hlane, hspt, ht, hs⟩

theorem withCores {t : Tbl Core} : s.canonical → Tbl.wfFrom {} 0 t = true → { s with cores := t }.canonical
  | ⟨hmem, hspad, hlane, hspt, hlocks, _, hs⟩, ht => ⟨hmem, hspad, hlane, hspt, hlocks, ht, hs⟩

theorem withQueues {t : Tbl Queue} : s.canonical → Tbl.wfFrom {} 0 t = true → { s with queues := t }.canonical
  | ⟨hmem, hspad, hlane, hspt, hlocks, hcores, _, ho⟩, ht => ⟨hmem, hspad, hlane, hspt, hlocks, hcores, ht, ho⟩

theorem withOthers {t : Tbl Hart} : s.canonical → (t.map (·.1)).Pairwise (· < ·) → { s with others := t }.canonical
  | ⟨hmem, hspad, hlane, hspt, hlocks, hcores, hqueues, _⟩, ho => ⟨hmem, hspad, hlane, hspt, hlocks, hcores, hqueues, ho⟩

end

/-- The harts that do not step may change, one by one. -/
theorem mapOthers {f : Nat × Hart → Nat × Hart} (h : s.canonical) (hf : ∀ p, (f p).1 = p.1) :
    { s with others := s.others.map f }.canonical := by
  obtain ⟨-, -, -, -, -, -, -, ho⟩ := id h
  refine h.withOthers ?_
  rwa [List.map_map, show Prod.fst ∘ f = Prod.fst from funext hf]

theorem modHart (h : s.canonical) (n : Nat) (f : Hart → Hart) : (s.modHart n f).canonical := by
  obtain ⟨-, -, -, -, -, -, -, ho⟩ := id h
  unfold State.modHart
  split
  · exact h
  · exact h.withOthers (Tbl.set_keys_rise _ _ _ _ ho)

theorem switchTo (h : s.canonical) (n : Nat) : (s.switchTo n).canonical := by
  obtain ⟨-, -, -, -, -, -, -, ho⟩ := id h
  unfold State.switchTo
  split
  · exact h
  · exact h.withOthers (Tbl.set_keys_rise _ _ _ _ (Tbl.set_keys_rise _ _ _ _ ho))

theorem modCore (h : s.canonical) (c : Nat) (f : Core → Core) : (s.modCore c f).canonical := by
  obtain ⟨-, -, -, -, -, hcores, -⟩ := id h
  exact h.withCores (Tbl.set_wfFrom _ _ _ _ 0 (Nat.zero_le _) hcores)

theorem modQueue (h : s.canonical) (q : Nat) (f : Queue → Queue) : (s.modQueue q f).canonical := by
  obtain ⟨-, -, -, -, -, -, hqueues, -⟩ := id h
  exact h.withQueues (Tbl.set_wfFrom _ _ _ _ 0 (Nat.zero_le _) hqueues)

theorem putTrace (h : s.canonical) (bs : List Byte) : (s.putTrace bs).canonical := by
  obtain ⟨hmem, -⟩ := id h
  exact h.withMem (Memory.writeN_wf _ _ _ hmem)

theorem homeSet (h : s.canonical) (l : Loc) (bs : List Byte) : (s.homeSet l bs).canonical := by
  obtain ⟨hmem, hspad, -⟩ := id h
  cases l with
  | glob pa => exact h.withMem (Memory.writeN_wf _ _ _ hmem)
  | spad c o => exact h.withSpad (Memory.writeN_wf _ _ _ hspad)

theorem setLat (h : s.canonical) (c : Nat) (new : Vector (Option (BitVec 2)) 8) : (s.setLat c new).canonical := by
  obtain ⟨-, -, hlane, -⟩ := id h
  have cleared : { s with lane := (List.range 8).foldl (fun m g =>
      if new.toList.getD g none ≠ none && new.toList.getD g none ≠ (s.coreAt c).lat.toList.getD g none
      then clearGroup m c g else m) s.lane }.canonical := by
    refine h.withLane (List.foldlRecOn (motive := fun m : Memory => m.wf = true) _ _ hlane fun (m : Memory) hm g _ => ?_)
    split
    · exact clearGroup_wf m c g hm
    · exact hm
  refine List.foldlRecOn (motive := State.canonical) _ _ (cleared.modCore c _) fun t ht k _ => ?_
  split
  · exact ht
  · exact ht.modHart ..

theorem pass (h : s.canonical) (n : Nat) : (s.pass n).canonical :=
  h.mapOthers fun _ => rfl

theorem othersStall (h : s.canonical) : s.othersStall.canonical := h.mapOthers fun _ => rfl

theorem mapTagged (h : s.canonical) (a p : Nat) : (s.mapTagged a p).canonical := by
  obtain ⟨-, -, -, -, hlocks, -⟩ := id h
  have cleared (c : Bool) (f : Nat × BitVec 4 → Bool) : Tbl.wfFrom 0 0 (if c then s.locks else s.locks.filter f) = true := by
    cases c
    · exact Tbl.filter_wfFrom _ _ _ 0 hlocks
    · exact hlocks
  unfold State.mapTagged
  split
  · exact h
  · exact h.withLocks (cleared _ _)

theorem setSlot (h : s.canonical) (n : Nat) (v : Word) : (s.setSlot n v).canonical := by
  obtain ⟨-, -, -, hspt, -⟩ := id h
  exact h.withSpt (Tbl.set_wfFrom _ _ _ _ 0 (Nat.zero_le _) hspt)

theorem allot (h : s.canonical) (cores : List Nat) : (s.allot cores).canonical := by
  obtain ⟨-, -, -, hspt, -⟩ := id h
  exact h.withSpt (Tbl.filter_wfFrom _ _ _ 0 hspt)

theorem clearInitial (h : s.canonical) (st : Status) : (s.clearInitial st).canonical := by
  have cleared : ∀ t : State, t.canonical →
      { t with lane := t.groups.foldl (fun m g => clearGroup m t.hart.core g) t.lane }.canonical := by
    intro t ht
    obtain ⟨-, -, hlane, -⟩ := id ht
    exact ht.withLane (List.foldlRecOn (motive := fun m : Memory => m.wf = true) _ _ hlane fun m hm g _ => clearGroup_wf m _ g hm)
  unfold State.clearInitial
  dsimp only
  split
  · refine cleared _ ?_
    split <;> split <;> exact h
  · split <;> split <;> exact h

theorem copyBytes (h : s.canonical) (src dst n : Nat) : (s.copyBytes src dst n).canonical := by
  obtain ⟨hmem, -, -, -, hlocks, -⟩ := id h
  have mem_wf : (s.mem.copyRange src dst n).wf = true :=
    List.foldlRecOn (motive := fun m : Memory => m.wf = true) _ _ (Tbl.filter_wfFrom _ _ _ 0 hmem) fun m hm c _ => m.write_wf _ _ hm
  have locks_wf : Tbl.wfFrom 0 0 (copyLocks s.locks (src / 32) (dst / 32) (n / 32)) = true :=
    List.foldlRecOn (motive := fun t => Tbl.wfFrom 0 0 t = true) _ _ (Tbl.filter_wfFrom _ _ _ 0 hlocks) fun t ht c _ =>
      Tbl.set_wfFrom _ _ _ _ 0 (Nat.zero_le _) ht
  exact (h.withMem mem_wf).withLocks locks_wf

end State.canonical

end Sys2Proof.Machine
end

section
/-! SUPPORT. Computations that keep the canonical form: one rule for each way to build one. -/

namespace Sys2Proof.Machine

variable {α γ : Type} {s t : State}

/-- The canonical form as a predicate of the eight stores alone: a state that has the stores of another is canonical as that
is, whatever else was written. -/
def storesWf (mem spad lane : Memory) (spt : Tbl Word) (locks : Tbl (BitVec 4)) (cores : Tbl Core) (queues : Tbl Queue)
    (others : Tbl Hart) : Prop :=
  mem.wf = true ∧ spad.wf = true ∧ lane.wf = true ∧ Tbl.wfFrom 0 0 spt = true ∧ Tbl.wfFrom 0 0 locks = true
    ∧ Tbl.wfFrom {} 0 cores = true ∧ Tbl.wfFrom {} 0 queues = true
    ∧ (others.map (·.1)).Pairwise (· < ·)

theorem State.canonical_iff (s : State) :
    s.canonical ↔ storesWf s.mem s.spad s.lane s.spt s.locks s.cores s.queues s.others := Iff.rfl

/-! ### Folds -/

theorem foldl_canonical {f : State → γ → State} (hf : ∀ s x, s.canonical → (f s x).canonical) (h : s.canonical)
    (l : List γ) : (l.foldl f s).canonical :=
  List.foldlRecOn (motive := State.canonical) l f h fun t ht x _ => hf t x ht

theorem foldl_fst_canonical {f : State × α → γ → State × α} {p : State × α}
    (hf : ∀ p x, p.1.canonical → (f p x).1.canonical) (h : p.1.canonical) (l : List γ) : (l.foldl f p).1.canonical :=
  List.foldlRecOn (motive := fun p : State × α => p.1.canonical) l f h fun t ht x _ => hf t x ht

theorem elim_canonical {f : γ → State} (o : Option γ) (h : s.canonical) (hf : ∀ x, (f x).canonical) :
    (o.elim s f).canonical := by
  cases o with
  | none => exact h
  | some x => exact hf x

/-! ### Computations -/

/-- Run from `s`, the computation ends in a state in canonical form, with a result or a halt. -/
def M.keeps (m : M α) (s : State) : Prop := (m.go s).2.canonical

theorem M.keeps.left {m : M α} {r : Except Halt α} (hm : m.keeps s) (e : m.go s = (r, t)) : t.canonical := by
  unfold M.keeps at hm
  rwa [e] at hm

theorem M.keeps_pure (h : s.canonical) (a : α) : (pure a : M α).keeps s := h

theorem M.keeps_throw (h : s.canonical) (e : Halt) : (throw e : M α).keeps s := h

theorem M.keeps_trapM (h : s.canonical) (c v w) : (trapM c v w : M α).keeps s := h

theorem M.keeps_set (h : t.canonical) : (set t : M PUnit).keeps s := h

theorem M.keeps_get (h : s.canonical) : (get : M State).keeps s := h

theorem M.keeps_modify {f : State → State} (h : (f s).canonical) : (modify f : M PUnit).keeps s := h

theorem M.keeps_checkM (h : s.canonical) (c e) : (checkM c e).keeps s := by
  unfold M.keeps
  rwa [M.go_checkM]

theorem M.keeps_require (h : s.canonical) (c e v) : (require c e v).keeps s := by
  unfold M.keeps
  rwa [M.go_require]

theorem M.keeps_get_bind {f : State → M γ} (hf : (f s).keeps s) : (get >>= f).keeps s := hf

theorem M.keeps_bind {m : M α} {f : α → M γ} (hm : m.keeps s) (hf : ∀ a t, t.canonical → (f a).keeps t) :
    (m >>= f).keeps s := by
  unfold M.keeps at *
  rw [M.go_bind]
  split
  · next a t e => exact hf a t (by simpa [e] using hm)
  · next e t e' => simpa [e'] using hm

theorem M.keeps_tryCatch {m : M α} {f : Halt → M α} (hm : m.keeps s) (hf : ∀ e t, t.canonical → (f e).keeps t) :
    (tryCatch m f).keeps s := by
  unfold M.keeps at *
  rw [M.go_tryCatch]
  split
  · next a t e => simpa [e] using hm
  · next a t e => exact hf _ _ (by simpa [e] using hm)

theorem M.keeps_forM {l : List γ} {f : γ → M PUnit} (hf : ∀ x t, t.canonical → (f x).keeps t) :
    ∀ {s : State}, s.canonical → (l.forM f).keeps s := by
  induction l with
  | nil => exact fun h => h
  | cons x l ih => exact fun h => keeps_bind (hf x _ h) fun _ _ ht => ih ht

theorem M.keeps_mapM {l : List γ} {f : γ → M α} (hf : ∀ x t, t.canonical → (f x).keeps t) :
    ∀ {s : State}, s.canonical → (l.mapM f).keeps s := by
  induction l with
  | nil => exact fun h => h
  | cons x l ih =>
    intro s h
    rw [List.mapM_cons]
    exact keeps_bind (hf x _ h) fun _ _ ht => keeps_bind (ih ht) fun _ _ hu => hu

end Sys2Proof.Machine
end

section
/-! SUPPORT. No operation of the model leaves the canonical form, file by file: each writes through operations of which that is
known already. -/

-- One proof at a time: in parallel, this many take more memory than the check gives.
set_option Elab.async false

namespace Sys2Proof.Machine

variable {s : State}

/-! ### Machine/Ops -/

theorem State.canonical.setX (h : s.canonical) (r v) : (s.setX r v).canonical := by
  grind only [State.setX, State.canonical_iff]

theorem State.canonical.advance (h : s.canonical) : s.advance.canonical := by
  grind only [State.advance, State.canonical_iff]

theorem State.canonical.jump (h : s.canonical) (a) : (s.jump a).canonical := by
  grind only [State.jump, State.canonical_iff]

theorem State.canonical.raiseFlags (h : s.canonical) (fl) : (s.raiseFlags fl).canonical := by
  grind only [State.raiseFlags, State.canonical_iff]

theorem State.canonical.dirtyV (h : s.canonical) : s.dirtyV.canonical := by
  grind only [State.dirtyV, State.canonical_iff]

theorem State.canonical.dirtyVIf (h : s.canonical) (c) : (s.dirtyVIf c).canonical := by
  grind only [State.dirtyVIf, dirtyV]

theorem State.canonical.dirtyT (h : s.canonical) : s.dirtyT.canonical := by
  grind only [State.dirtyT, State.canonical_iff]

theorem State.canonical.post (h : s.canonical) (n t) : (s.post n t).canonical := by
  grind only [State.post, modHart]

theorem State.canonical.loseTrace (h : s.canonical) : s.loseTrace.canonical := by
  grind only [State.loseTrace, post, State.canonical_iff]

theorem State.canonical.noteLost (h : s.canonical) (head) : (s.noteLost head).canonical := by
  grind only [State.noteLost, putTrace, State.canonical_iff]

theorem State.canonical.trace (h : s.canonical) (kind head members value) :
    (s.trace kind head members value).canonical := by
  grind only [State.trace, noteLost, loseTrace, putTrace]

theorem State.canonical.enterTrap (h : s.canonical) (t epc cvr) : (s.enterTrap t epc cvr).canonical := by
  grind only [State.enterTrap, trace, State.canonical_iff]

theorem State.canonical.raise (h : s.canonical) (t) : (s.raise t).canonical := by
  grind only [State.raise, enterTrap]

theorem State.canonical.landHere (h : s.canonical) (t) : (s.landHere t).canonical := by
  grind only [State.landHere, enterTrap, raise]

theorem State.canonical.returnFromTrap (h : s.canonical) : s.returnFromTrap.canonical := by
  grind only [State.returnFromTrap, State.canonical_iff]

theorem State.canonical.stallClamp (h : s.canonical) (kind object) : (s.stallClamp kind object).canonical := by
  grind only [State.stallClamp, raiseFlags]

theorem State.canonical.stallAt (h : s.canonical) (kind object) : (s.stallAt kind object).canonical := by
  grind only [State.stallAt, stallClamp, raise, State.canonical_iff]

theorem State.canonical.halt (h : s.canonical) (a) : (s.halt a).canonical := by
  unfold State.halt
  grind only [raise, stallAt]

theorem State.canonical.unpost (h : s.canonical) (t) : (s.unpost t).canonical := by
  grind only [State.unpost, State.canonical_iff]

theorem State.canonical.takeAsync (h : s.canonical) (t) : (s.takeAsync t).canonical := by
  grind only [State.takeAsync, unpost, trace, enterTrap, State.canonical_iff]

/-! ### Machine/Home -/

theorem State.canonical.setHome64 (h : s.canonical) (l v) : (s.setHome64 l v).canonical := by
  grind only [State.setHome64, homeSet]

theorem State.canonical.setBitmap (h : s.canonical) (l a1 i v) : (s.setBitmap l a1 i v).canonical := by
  grind only [State.setBitmap, homeSet]

theorem State.canonical.reply (h : s.canonical) (r) : (s.reply r).canonical := by
  grind only [State.reply, State.canonical_iff]

theorem State.canonical.answerHart (h : s.canonical) (id l a) : (s.answerHart id l a).canonical := by
  grind only [State.answerHart, modHart]

theorem State.canonical.answerWaiter (h : s.canonical) (w a) : (s.answerWaiter w a).canonical := by
  grind only [State.answerWaiter, answerHart, reply]

theorem State.canonical.answerAll (h : s.canonical) (l a) : (s.answerAll l a).canonical := by
  grind only [State.answerAll, answerWaiter, answerHart, State.canonical_iff, foldl_canonical]

theorem State.canonical.damage (h : s.canonical) (l) : (s.damage l).canonical := by
  grind only [State.damage, answerAll, setHome64]

theorem State.canonical.noteDamage (h : s.canonical) (l) : (s.noteDamage l).canonical := by
  grind only [State.noteDamage, damage]

theorem State.canonical.tidy (h : s.canonical) (l) : (s.tidy l).canonical := by
  unfold State.tidy
  refine foldl_canonical (fun t o ht => ?_) ?_ _
  · grind only [State.canonical.setHome64]
  · split
    · exact h
    · exact h.setHome64 ..

theorem State.canonical.modHome (h : s.canonical) (l f) : (s.modHome l f).canonical := by
  grind only [State.modHome, State.canonical_iff]

theorem State.canonical.addSlot (h : s.canonical) (l a1 i x k sc) : (s.addSlot l a1 i x k sc).canonical := by
  grind only [State.addSlot, modHome, homeSet, elim_canonical]

theorem State.canonical.closeSlots (h : s.canonical) (l a1) : (s.closeSlots l a1).1.canonical := by
  grind only [State.closeSlots, homeSet, modHome, State.canonical_iff, foldl_canonical, foldl_fst_canonical,
    elim_canonical]

theorem State.canonical.recordParked (h : s.canonical) (area slot r n) : (s.recordParked area slot r n).canonical := by
  grind only [State.recordParked, setHome64]

theorem State.canonical.deliver (h : s.canonical) (l present r n scope) : (s.deliver l present r n scope).canonical := by
  grind only [State.deliver, recordParked, modHart, foldl_canonical]

theorem State.canonical.stepLags (h : s.canonical) (l a1 present) : (s.stepLags l a1 present).canonical := by
  grind only [State.stepLags, setBitmap, foldl_canonical]

theorem State.canonical.writeChunks (h : s.canonical) (l a1) : (s.writeChunks l a1).canonical := by
  grind only [State.writeChunks, homeSet, modHome, setHome64, foldl_canonical]

theorem State.canonical.releaseForeign (h : s.canonical) (l r) : (s.releaseForeign l r).canonical := by
  grind only [State.releaseForeign, reply, State.canonical_iff, foldl_canonical]

theorem State.canonical.closeRound (h : s.canonical) (l all) : (s.closeRound l all).canonical := by
  grind only [State.closeRound, closeSlots, modHome, writeChunks, setHome64, setBitmap, stepLags, deliver, releaseForeign,
    foldl_canonical]

theorem State.canonical.closeRounds (h : s.canonical) (l all) : (s.closeRounds l all).canonical := by
  grind only [State.closeRounds, closeRound]

theorem State.canonical.settle (h : s.canonical) (l) : (s.settle l).canonical := by
  grind only [State.settle, closeRounds]

theorem State.canonical.catchUp (h : s.canonical) (l) : (s.catchUp l).canonical := by
  grind only [State.catchUp, settle]

theorem State.canonical.arrive (h : s.canonical) (l index tag deadline) :
    (s.arrive l index tag deadline).1.canonical := by
  grind only [State.arrive, catchUp, damage, setBitmap, setHome64, settle]

theorem State.canonical.setLock (h : s.canonical) (l k) : (s.setLock l k).canonical := by
  grind only [State.setLock, setHome64]

theorem State.canonical.handOver (h : s.canonical) (l index gen) : (s.handOver l index gen).canonical := by
  grind only [State.handOver, reply, modHart, State.canonical_iff, foldl_canonical]

theorem State.canonical.releaseLock (h : s.canonical) (l index gen) : (s.releaseLock l index gen).1.canonical := by
  grind only [State.releaseLock, catchUp, setBitmap, handOver, setLock]

theorem State.canonical.mendLock (h : s.canonical) (l index tag) : (s.mendLock l index tag).1.canonical := by
  grind only [State.mendLock, setLock]

theorem State.canonical.expireStrip (h : s.canonical) (l i) : (s.expireStrip l i).canonical := by
  grind only [State.expireStrip, damage, setHome64]

theorem State.canonical.expireAll (h : s.canonical) (l) : (s.expireAll l).canonical := by
  grind only [State.expireAll, expireStrip, foldl_canonical]

theorem State.canonical.claimStrip (h : s.canonical) (l i again) : (s.claimStrip l i again).canonical := by
  grind only [State.claimStrip, setHome64]

theorem State.canonical.claimNow (h : s.canonical) (l) : (s.claimNow l).1.canonical := by
  grind only [State.claimNow, claimStrip]

theorem State.canonical.homeDeadlines (h : s.canonical) (l) : (s.homeDeadlines l).canonical := by
  grind only [State.homeDeadlines, answerWaiter, State.canonical_iff, foldl_canonical]

theorem State.canonical.endDue (h : s.canonical) (l) : (s.endDue l).canonical := by
  grind only [State.endDue, damage, homeDeadlines]

theorem State.canonical.serveWaiting (h : s.canonical) (l) : (s.serveWaiting l).canonical := by
  grind only [State.serveWaiting, claimNow, answerWaiter, State.canonical_iff, foldl_canonical]

theorem State.canonical.farmInstant (h : s.canonical) (l t) : (s.farmInstant l t).canonical := by
  grind only [State.farmInstant, serveWaiting, expireAll, homeDeadlines, State.canonical_iff]

theorem State.canonical.farmUpTo (l : Loc) (n : Nat) (h : s.canonical) : (State.farmUpTo l n s).canonical := by
  induction n generalizing s with
  | zero => exact h
  | succ n ih => grind only [State.farmUpTo, State.canonical.farmInstant]

theorem State.canonical.farmNow (h : s.canonical) (l) : (s.farmNow l).canonical := by
  grind only [State.farmNow, expireAll, farmUpTo]

theorem State.canonical.serveFarm (h : s.canonical) (l) : (s.serveFarm l).canonical := by
  grind only [State.serveFarm, damage, serveWaiting, farmNow]

theorem State.canonical.dequeue (h : s.canonical) (l) : (s.dequeue l).1.canonical := by
  grind only [State.dequeue, setHome64]

theorem State.canonical.recheck (h : s.canonical) (ep : Endpoint) (q : Nat) (explicit : Bool) :
    (s.recheck ep q explicit).canonical := by
  refine foldl_canonical (fun t w ht => ?_) (foldl_canonical (fun t w ht => ?_) h _) _
  · have drop : { t with waiters := t.waiters.erase w }.canonical := ht
    split
    · exact ht
    · split
      · exact (drop.dequeue _).answerWaiter ..
      · split
        · exact drop.answerWaiter ..
        · exact ht
  · split
    · exact ht.endDue _
    · exact ht

theorem State.canonical.wakeQueue (h : s.canonical) (q explicit) : (s.wakeQueue q explicit).canonical := by
  grind only [State.wakeQueue, modQueue, post, recheck]

theorem State.canonical.hubStore (h : s.canonical) (off : Nat) (bs : List Byte) (src : WakeSource) :
    (s.hubStore off bs src).canonical := by
  unfold State.hubStore
  dsimp only
  split
  · split
    · exact h.wakeQueue ..
    · exact h
  · exact h.modQueue ..

theorem State.canonical.homeStore (h : s.canonical) (l bs src) : (s.homeStore l bs src).canonical := by
  unfold State.homeStore
  grind only [hubStore, homeSet]

theorem State.canonical.enqueue (h : s.canonical) (l data) : (s.enqueue l data).1.canonical := by
  unfold State.enqueue
  split
  · dsimp only
    split
    · exact ((h.homeSet ..).setHome64 ..).wakeQueue ..
    · exact ((h.homeSet ..).setHome64 ..).recheck ..
  · exact h

theorem State.canonical.dueAt (h : s.canonical) (l) : (s.dueAt l).canonical := by
  grind only [State.dueAt, damage, serveFarm, homeDeadlines, catchUp]

/-! ### Machine/Registers -/

theorem State.canonical.setReg (h : s.canonical) (n v) : (s.setReg n v).canonical := by
  grind only [State.setReg, State.canonical_iff]

theorem State.canonical.setElem (h : s.canonical) (n w e v) : (s.setElem n w e v).canonical := by
  grind only [State.setElem, setReg]

theorem State.canonical.zeroFrom (h : s.canonical) (n lo) : (s.zeroFrom n lo).canonical := by
  grind only [State.zeroFrom, setReg]

theorem State.canonical.setTile (h : s.canonical) (t v) : (s.setTile t v).canonical := by
  grind only [State.setTile, dirtyT, State.canonical_iff]

theorem State.canonical.putPosition (h : s.canonical) (r n v) : (s.putPosition r n v).canonical := by
  grind only [State.putPosition, setTile, setElem, dirtyV]

theorem State.canonical.putAll (h : s.canonical) (r data) : (s.putAll r data).canonical := by
  grind only [State.putAll, putPosition, foldl_canonical]

theorem State.canonical.markLanded (h : s.canonical) (n g) : (s.markLanded n g).canonical := by
  grind only [State.markLanded, State.canonical_iff]

theorem State.canonical.landEntry (h : s.canonical) (r) : (s.landEntry r).canonical := by
  grind only [State.landEntry, markLanded, foldl_canonical]

theorem State.canonical.respond (h : s.canonical) (r mask) : (s.respond r mask).canonical := by
  grind only [State.respond, putPosition, landEntry, State.canonical_iff, foldl_canonical]

/-! ### Machine/Memory -/

theorem State.canonical.reportGranule (h : s.canonical) (l g who) : (s.reportGranule l g who).canonical := by
  unfold State.reportGranule
  grind only [post, State.canonical_iff]

theorem leaseCheck_keeps (h : s.canonical) (c k va size pte) : (leaseCheck c k va size pte).keeps s := by
  grind only [leaseCheck, State.canonical.reportGranule, M.keeps_pure, M.keeps_trapM, M.keeps_modify, M.keeps_get_bind,
    M.keeps_bind]

theorem State.canonical.writeLeaf (h : s.canonical) (leafAt old new) : (s.writeLeaf leafAt old new).canonical := by
  grind only [State.writeLeaf, setHome64, State.canonical_iff]

theorem State.canonical.dropTagged (h : s.canonical) (leafAt) : (s.dropTagged leafAt).canonical := by
  grind only [State.dropTagged, State.canonical_iff]

theorem State.canonical.noteTagged (h : s.canonical) (leafAt page on) : (s.noteTagged leafAt page on).canonical := by
  grind only [State.noteTagged, mapTagged, State.canonical_iff]

theorem leaf_keeps (h : s.canonical) (c k va leafAt level pte) : (leaf c k va leafAt level pte).keeps s := by
  grind only [leaf, State.canonical.noteTagged, State.canonical.writeLeaf, leaseCheck_keeps, M.keeps_pure, M.keeps_throw,
    M.keeps_trapM, M.keeps_checkM, M.keeps_modify, M.keeps_bind]

theorem walk_keeps (h : s.canonical) (c : Ctx) (k : Acc) (va level base : Nat) : (walk c k va level base).keeps s := by
  induction level generalizing s base with
  | zero =>
    unfold walk
    repeat' with_reducible first | refine M.keeps_get_bind ?_ | refine M.keeps_bind ?_ fun _ _ _ => ?_ | split
    all_goals grind only [leaf_keeps, State.canonical.dropTagged, M.keeps_throw, M.keeps_checkM, M.keeps_modify]
  | succ n ih =>
    unfold walk
    repeat' with_reducible first | refine M.keeps_get_bind ?_ | refine M.keeps_bind ?_ fun _ _ _ => ?_ | split
    all_goals grind only [leaf_keeps, State.canonical.dropTagged, M.keeps_throw, M.keeps_checkM, M.keeps_modify]

theorem translate_keeps (h : s.canonical) (c k va) : (translate c k va).keeps s := by
  grind only [translate, walk_keeps, M.keeps_pure, M.keeps_checkM, M.keeps_get_bind, M.keeps_bind]

theorem reachable_keeps (h : s.canonical) (k pa va way) : (reachable k pa va way).keeps s := by
  grind only [reachable, M.keeps_checkM, M.keeps_get_bind, M.keeps_bind]

theorem scratch_keeps (h : s.canonical) (hart a n tv) : (scratch hart a n tv).keeps s := by
  grind only [scratch, M.keeps_pure, M.keeps_checkM, M.keeps_get_bind, M.keeps_bind]

theorem State.canonical.tagRecord (h : s.canonical) (hart pa kind a b) : (s.tagRecord hart pa kind a b).canonical := by
  grind only [State.tagRecord, setHome64, State.canonical_iff]

theorem tagCheck_keeps (h : s.canonical) (c p n) : (tagCheck c p n).keeps s := by
  unfold tagCheck
  all_goals grind only [State.canonical.tagRecord, M.keeps_pure, M.keeps_trapM, M.keeps_modify, M.keeps_get_bind,
    M.keeps_bind]

theorem resolveVirtual_keeps (h : s.canonical) (c k p way) : (resolveVirtual c k p way).keeps s := by
  grind only [resolveVirtual, translate_keeps, reachable_keeps, M.keeps_pure, M.keeps_checkM, M.keeps_bind]

theorem resolve_keeps (h : s.canonical) (c k p n al way) : (resolve c k p n al way).keeps s := by
  grind only [resolve, scratch_keeps, resolveVirtual_keeps, M.keeps_pure, M.keeps_checkM, M.keeps_bind]

theorem copyCheck_keeps (h : s.canonical) (c store p n) : (copyCheck c store p n).keeps s := by
  grind only [copyCheck, M.keeps_pure, M.keeps_throw, M.keeps_get_bind, M.keeps_bind]

theorem watch_keeps (h : s.canonical) (p n) : (watch p n).keeps s := by
  grind only [watch, State.canonical_iff, M.keeps_modify]

theorem allow_keeps (h : s.canonical) (c k p n) : (allow c k p n).keeps s := by
  grind only [allow, tagCheck_keeps, copyCheck_keeps, watch_keeps, M.keeps_bind]

theorem answered_keeps (h : s.canonical) (l) : (answered l).keeps s := by
  grind only [answered, M.keeps_checkM, M.keeps_get_bind, M.keeps_bind]

theorem dataCheck_keeps (h : s.canonical) (p n) : (dataCheck p n).keeps s := by
  grind only [dataCheck, M.keeps_checkM, M.keeps_get_bind, M.keeps_bind]

theorem State.canonical.applyPosted (h : s.canonical) (p) : (s.applyPosted p).canonical := by
  grind only [State.applyPosted, homeStore]

theorem State.canonical.applyTo (h : s.canonical) (hart ep die) : (s.applyTo hart ep die).canonical := by
  grind only [State.applyTo, applyPosted, State.canonical_iff, foldl_canonical]

theorem State.canonical.applyLine (h : s.canonical) (hart line) : (s.applyLine hart line).canonical := by
  grind only [State.applyLine, applyPosted, State.canonical_iff, foldl_canonical]

theorem State.canonical.flushed (h : s.canonical) (q) : (s.flushed q).canonical := by
  grind only [State.flushed, applyTo, State.canonical_iff]

theorem State.canonical.latchFlush (h : s.canonical) (code q) : (s.latchFlush code q).canonical := by
  grind only [State.latchFlush, State.canonical_iff]

theorem State.canonical.flushOverflow (h : s.canonical) : s.flushOverflow.canonical := by
  grind only [State.flushOverflow, flushed, latchFlush, foldl_canonical]

theorem flushSome_keeps (h : s.canonical) (l : List (Endpoint × Die)) : (flushSome l).keeps s := by
  induction l generalizing s with
  | nil => exact h
  | cons q qs ih => grind only [flushSome, State.canonical.flushed, M.keeps_pure, M.keeps_trapM, M.keeps_get_bind,
    M.keeps_modify, M.keeps_bind]

theorem State.canonical.flushesDone (h : s.canonical) : s.flushesDone.canonical := by
  grind only [State.flushesDone, State.canonical_iff]

theorem flushAll_keeps (h : s.canonical) (qs) : (flushAll qs).keeps s := by
  grind only [flushAll, flushSome_keeps, State.canonical.flushesDone, M.keeps_throw, M.keeps_modify, M.keeps_bind]

theorem State.canonical.overflowFlush (h : s.canonical) : s.overflowFlush.canonical := by
  grind only [State.overflowFlush, flushOverflow, State.canonical_iff]

theorem State.canonical.postStore (h : s.canonical) (b) : (s.postStore b).canonical := by
  grind only [State.postStore, State.canonical_iff]

theorem State.canonical.windowRoom (h : s.canonical) (ep) : (s.windowRoom ep).1.canonical := by
  grind only [State.windowRoom, applyLine]

theorem State.canonical.sendStore (h : s.canonical) (b) : (s.sendStore b).1.canonical := by
  grind only [State.sendStore, homeStore, flushOverflow, overflowFlush, windowRoom, postStore]

theorem State.canonical.sendStores (h : s.canonical) (l : List Buffered) : (s.sendStores l).1.canonical := by
  induction l generalizing s with
  | nil => exact h
  | cons b bs ih => grind only [State.sendStores, State.canonical.sendStore]

theorem State.canonical.drain (h : s.canonical) : s.drain.canonical := by
  grind only [State.drain, sendStores, State.canonical_iff]

theorem drainAll_keeps (h : s.canonical) : drainAll.keeps s := by
  unfold drainAll
  repeat' with_reducible first | refine M.keeps_get_bind ?_ | refine M.keeps_bind ?_ fun _ _ _ => ?_
  all_goals grind only [State.canonical.drain, M.keeps_checkM, M.keeps_modify, M.keeps_get_bind, M.keeps_bind]

theorem State.canonical.makeRoom (h : s.canonical) : (s.makeRoom).1.canonical := by
  grind only [State.makeRoom, sendStore, State.canonical_iff]

theorem State.canonical.applyAt (h : s.canonical) (src i l) : (s.applyAt src i l).1.canonical := by
  grind only [State.applyAt, homeStore]

theorem State.canonical.giveOld (h : s.canonical) (n reg idx w v) : (s.giveOld n reg idx w v).canonical := by
  grind only [State.giveOld, modHart, elim_canonical]

theorem State.canonical.applyItem (h : s.canonical) (hart i) : (s.applyItem hart i).1.canonical := by
  unfold State.applyItem
  grind only [applyAt, giveOld, foldl_canonical, elim_canonical]

theorem State.canonical.flagsTo (h : s.canonical) (hart ctx fl) : (s.flagsTo hart ctx fl).canonical := by
  unfold State.flagsTo
  grind only [modHart, setHome64]

theorem State.canonical.applyItems (h : s.canonical) (l) : (s.applyItems l).canonical := by
  grind only [State.applyItems, applyItem, State.canonical_iff, foldl_canonical]

theorem State.canonical.landItems (h : s.canonical) (chosen) : (s.landItems chosen).canonical := by
  grind only [State.landItems, applyItems]

theorem State.canonical.applyTrain (h : s.canonical) (t) : (s.applyTrain t).1.canonical := by
  grind only [State.applyTrain, applyItem, State.canonical_iff, foldl_canonical, foldl_fst_canonical, elim_canonical]

theorem State.canonical.settleTrain (h : s.canonical) (t) : (s.settleTrain t).canonical := by
  grind only [State.settleTrain, applyTrain, flagsTo, State.canonical_iff]

theorem State.canonical.settleTrains (h : s.canonical) (p) : (s.settleTrains p).canonical := by
  grind only [State.settleTrains, landItems, settleTrain, foldl_canonical, elim_canonical]

theorem State.canonical.ackTrains (h : s.canonical) : s.ackTrains.canonical := by
  grind only [State.ackTrains, settleTrains]

theorem State.canonical.agreeTrains (h : s.canonical) (a0 l n) : (s.agreeTrains a0 l n).canonical := by
  grind only [State.agreeTrains, settleTrains]

theorem State.canonical.answer (h : s.canonical) (r mask) : (s.answer r mask).canonical := by
  grind only [State.answer, agreeTrains, respond, foldl_canonical]

theorem State.canonical.answerRequests (h : s.canonical) (l) : (s.answerRequests l).canonical := by
  grind only [State.answerRequests, answer, foldl_canonical]

theorem State.canonical.landOwn (h : s.canonical) : s.landOwn.canonical := by
  grind only [State.landOwn, answerRequests]

theorem State.canonical.agreeLoads (h : s.canonical) (l n) : (s.agreeLoads l n).canonical := by
  grind only [State.agreeLoads, answerRequests]

theorem State.canonical.sendItem (h : s.canonical) (i) : (s.sendItem i).canonical := by
  grind only [State.sendItem, State.canonical_iff, elim_canonical]

theorem State.canonical.closeTrains (h : s.canonical) : s.closeTrains.canonical := by
  grind only [State.closeTrains, State.canonical_iff]

theorem State.canonical.agree (h : s.canonical) (l n) : (s.agree l n).canonical := by
  grind only [State.agree, agreeLoads, agreeTrains]

theorem State.canonical.vectorWrite (h : s.canonical) (slow i) : (s.vectorWrite slow i).canonical := by
  grind only [State.vectorWrite, applyItem, agree, raiseFlags, sendItem, agreeLoads]

theorem vectorData_keeps (h : s.canonical) (p n) : (vectorData p n).keeps s := by
  grind only [vectorData, M.keeps_checkM, M.keeps_get_bind, M.keeps_bind]

theorem State.canonical.fillLine (h : s.canonical) (base) : (s.fillLine base).canonical := by
  grind only [State.fillLine, applyLine, State.canonical_iff, foldl_canonical]

theorem State.canonical.scalarRead (h : s.canonical) (pa n) : (s.scalarRead pa n).1.canonical := by
  grind only [State.scalarRead, applyLine, drain, fillLine, foldl_canonical, elim_canonical]

theorem State.canonical.fetchRead (h : s.canonical) (pa n) : (s.fetchRead pa n).1.canonical := by
  grind only [State.fetchRead, applyLine, foldl_canonical]

theorem State.canonical.landLate (h : s.canonical) : s.landLate.canonical := by
  grind only [State.landLate, scalarRead, setX, State.canonical_iff]

theorem State.canonical.lateFirst (h : s.canonical) (l) : (s.lateFirst l).canonical := by
  unfold State.lateFirst
  grind only [landLate]

theorem homeCheck_keeps (h : s.canonical) (p pa n) : (homeCheck p pa n).keeps s := by
  grind only [homeCheck, M.keeps_pure, M.keeps_checkM, M.keeps_get_bind, M.keeps_bind]

theorem State.canonical.loadRead (h : s.canonical) (pa n) : (s.loadRead pa n).1.canonical := by
  grind only [State.loadRead, fetchRead, scalarRead]

theorem scalarData_keeps (h : s.canonical) (p pa n) : (scalarData p pa n).keeps s := by
  grind only [scalarData, State.canonical.lateFirst, homeCheck_keeps, State.canonical.loadRead, drainAll_keeps,
    M.keeps_pure, M.keeps_modify, M.keeps_set, M.keeps_get_bind, M.keeps_bind]

theorem State.canonical.scalarWrite (h : s.canonical) (pa bs) : (s.scalarWrite pa bs).canonical := by
  grind only [State.scalarWrite, State.canonical_iff]

theorem State.canonical.dropL1 (h : s.canonical) : s.dropL1.canonical := by
  grind only [State.dropL1, State.canonical_iff]

theorem latchCheck_keeps (h : s.canonical) : latchCheck.keeps s := by
  grind only [latchCheck, State.canonical_iff, M.keeps_pure, M.keeps_trapM, M.keeps_modify, M.keeps_get_bind,
    M.keeps_bind]

theorem State.canonical.markReleased (h : s.canonical) (sc) : (s.markReleased sc).canonical := by
  grind only [State.markReleased, State.canonical_iff]

theorem vectorDone_keeps (h : s.canonical) : vectorDone.keeps s := by
  grind only [vectorDone, State.canonical.landOwn, State.canonical.ackTrains, M.keeps_pure, M.keeps_throw, M.keeps_modify,
    M.keeps_get_bind, M.keeps_bind]

theorem release_keeps (h : s.canonical) (sc) : (release sc).keeps s := by
  unfold release
  repeat' with_reducible first | refine M.keeps_get_bind ?_ | refine M.keeps_bind ?_ fun _ _ _ => ?_ | split
  all_goals grind only [State.canonical.flushOverflow, State.canonical.drain, State.canonical.landLate, vectorDone_keeps,
    State.canonical.markReleased, flushAll_keeps, latchCheck_keeps, M.keeps_checkM, M.keeps_modify, M.keeps_get_bind,
    M.keeps_bind]

theorem State.canonical.takeReleased (h : s.canonical) (sc) : (s.takeReleased sc).canonical := by
  grind only [State.takeReleased, applyPosted, State.canonical_iff, foldl_canonical]

theorem State.canonical.acquire (h : s.canonical) (sc) : (s.acquire sc).canonical := by
  grind only [State.acquire, dropL1, takeReleased]

theorem fetchWord_keeps (h : s.canonical) (a) : (fetchWord a).keeps s := by
  unfold fetchWord
  repeat' with_reducible first | refine M.keeps_get_bind ?_ | refine M.keeps_bind ?_ fun _ _ _ => ?_
  all_goals grind only [resolve_keeps, State.canonical.lateFirst, homeCheck_keeps, State.canonical.fetchRead,
    M.keeps_pure, M.keeps_modify, M.keeps_set, M.keeps_get_bind, M.keeps_bind]

theorem scalarPlace_keeps (h : s.canonical) (p n) : (scalarPlace p n).keeps s := by
  grind only [scalarPlace, resolve_keeps, allow_keeps, M.keeps_pure, M.keeps_get_bind, M.keeps_bind]

theorem scalarValue_keeps (h : s.canonical) (q n) : (scalarValue q n).keeps s := by
  grind only [scalarValue, scalarData_keeps, dataCheck_keeps, M.keeps_pure, M.keeps_get_bind, M.keeps_bind]

theorem scalarStore_keeps (h : s.canonical) (p n v) : (scalarStore p n v).keeps s := by
  unfold scalarStore
  repeat' with_reducible first | refine M.keeps_get_bind ?_ | refine M.keeps_bind ?_ fun _ _ _ => ?_
  all_goals grind only [resolve_keeps, allow_keeps, State.canonical.lateFirst, State.canonical.makeRoom,
    State.canonical.scalarWrite, State.canonical.homeSet, M.keeps_checkM, M.keeps_modify, M.keeps_set, M.keeps_get_bind,
    M.keeps_bind]

theorem homeLoad_keeps (h : s.canonical) (q n) : (homeLoad q n).keeps s := by
  grind only [homeLoad, vectorData_keeps, State.canonical.agree, M.keeps_pure, M.keeps_modify, M.keeps_get_bind,
    M.keeps_bind]

theorem State.canonical.ownFirst (h : s.canonical) (l) : (s.ownFirst l).canonical := by
  unfold State.ownFirst
  grind only [applyLine, drain, lateFirst]

theorem State.canonical.scalarStoreAt (h : s.canonical) (l bs) : (s.scalarStoreAt l bs).canonical := by
  unfold State.scalarStoreAt
  grind only [ownFirst, homeStore, homeSet, State.canonical_iff]

/-! ### Machine/Scalar -/

theorem State.canonical.result (h : s.canonical) (d v) : (s.result d v).canonical := by
  grind only [State.result, advance, setX]

theorem State.canonical.divide (h : s.canonical) (d y q z) : (s.divide d y q z).canonical := by
  grind only [State.divide, raise, result, raiseFlags]

theorem State.canonical.transfer (h : s.canonical) (target) : (s.transfer target).canonical := by
  grind only [State.transfer, jump, State.canonical_iff]

theorem State.canonical.branch (h : s.canonical) (taken o) : (s.branch taken o).canonical := by
  grind only [State.branch, transfer, advance]

/-! ### Machine/ScalarMem -/

theorem State.canonical.runM {α : Type} {m : M α} {f : α → State → State} (hm : m.keeps s)
    (hf : ∀ a t, t.canonical → (f a t).canonical) : (s.runM m f).canonical := by
  grind only [State.runM, M.keeps, State.canonical.halt]

theorem State.canonical.load (h : s.canonical) (d a i n sx) : (s.load d a i n sx).canonical := by
  grind only [State.load, runM, scalarPlace_keeps, advance, landLate, scalarValue_keeps, result, State.canonical_iff]

theorem State.canonical.store (h : s.canonical) (r a i n) : (s.store r a i n).canonical := by
  grind only [State.store, runM, scalarStore_keeps, advance]

theorem State.canonical.atomicAt (h : s.canonical) (l n op y expected src) :
    (s.atomicAt l n op y expected src).1.canonical := by
  grind only [State.atomicAt, homeStore]

theorem State.canonical.dropLine (h : s.canonical) (l) : (s.dropLine l).canonical := by
  unfold State.dropLine
  grind only [applyLine, lateFirst, State.canonical_iff]

theorem scalarAtomic_keeps (h : s.canonical) (p n op y expected sc o) :
    (scalarAtomic p n op y expected sc o).keeps s := by
  unfold scalarAtomic
  repeat' with_reducible first | refine M.keeps_get_bind ?_ | refine M.keeps_bind ?_ fun _ _ _ => ?_ | split
  all_goals grind only [resolve_keeps, allow_keeps, answered_keeps, drainAll_keeps, State.canonical.dropLine,
    dataCheck_keeps, State.canonical.atomicAt, State.canonical.acquire, release_keeps, latchCheck_keeps, M.keeps_pure,
    M.keeps_modify, M.keeps_set, M.keeps_get_bind, M.keeps_bind]

theorem State.canonical.samo (h : s.canonical) (d a b w sc o op) : (s.samo d a b w sc o op).canonical := by
  grind only [State.samo, runM, scalarAtomic_keeps, result]

/-! ### Machine/VectorCore -/

theorem memberTrap_keeps {α : Type} (h : s.canonical) (c : Nat) (v : Word) : (memberTrap c v : M α).keeps s := h

theorem offCheck_keeps (h : s.canonical) : offCheck.keeps s := by
  grind only [offCheck, M.keeps_require, M.keeps_get_bind, M.keeps_bind]

theorem vectorCheck_keeps (h : s.canonical) (typeOk lane matrix) : (vectorCheck typeOk lane matrix).keeps s := by
  grind only [vectorCheck, offCheck_keeps, M.keeps_require, M.keeps_get_bind, M.keeps_bind]

theorem tileCheck_keeps (h : s.canonical) (n a1) : (tileCheck n a1).keeps s := by
  grind only [tileCheck, M.keeps_require, M.keeps_get_bind, M.keeps_bind]

theorem operandCheck_keeps (h : s.canonical) (b a1) : (operandCheck b a1).keeps s := by
  unfold operandCheck
  all_goals grind only [tileCheck_keeps, M.keeps_pure]

theorem State.canonical.ackSent (h : s.canonical) (t : State) : (s.ackSent t).canonical := by
  grind only [State.ackSent, State.canonical.ackTrains]

theorem State.canonical.settleOwn (h : s.canonical) : s.settleOwn.canonical := by
  grind only [State.settleOwn, landOwn, ackTrains, landLate]

theorem State.canonical.loosen (h : s.canonical) : s.loosen.canonical := by
  grind only [State.loosen, State.canonical_iff]

theorem State.canonical.drainSplit (h : s.canonical) (st p cause) : (s.drainSplit st p cause).canonical := by
  grind only [State.drainSplit, ackTrains, enterTrap, unpost, loosen, State.canonical_iff]

theorem State.canonical.landAt (h : s.canonical) (start p committed cause) :
    (s.landAt start p committed cause).canonical := by
  grind only [State.landAt, enterTrap, loosen, drainSplit, stallClamp]

theorem State.canonical.stopAt (s : State) {t : State} (h : t.canonical) (k : Nat) (e : Halt) :
    (s.stopAt t k e).canonical := by
  unfold State.stopAt
  dsimp only
  split
  · exact State.canonical.landAt (State.canonical.ackSent (h.withHart _) _) ..
  all_goals exact h.withHart _

theorem State.canonical.stepLfsr (h : s.canonical) (n) : (s.stepLfsr n).canonical := by
  grind only [State.stepLfsr, State.canonical_iff]

theorem State.canonical.member {checks : M Unit} {count : State → Nat} {m : Bool} {reads : State → Reads}
    {steps : State → Nat}
    {body : Nat → Nat → Bool → State → Pass} {always : Bool} {fin : State → State} (hc : checks.keeps s)
    (hb : ∀ lo hi last t, t.canonical → (body lo hi last t).done.canonical) (hf : ∀ t, t.canonical → (fin t).canonical) :
    (s.member checks count m reads steps body always fin).canonical := by
  have hm : (checks.go s).2.canonical := hc
  unfold State.member
  split
  · next e t hgo =>
    rw [hgo] at hm
    split
    · split
      · exact hm.raise _
      · exact hm
    · exact stopAt s hm ..
  · next u t hgo =>
    rw [hgo] at hm
    have hdone : ∀ (c : Bool) (lo hi : Nat) (last : Bool), (if c then body lo hi last t else { done := t }).done.canonical := by
      intro c lo hi last
      split
      · exact hb _ _ _ _ hm
      · exact hm
    split
    · exact hm.advance
    · dsimp only
      split
      · exact stopAt _ (hdone ..) ..
      · split
        · exact stopAt _ (hdone ..) ..
        · have next : ∀ (r : Pass) (d : State), r.done.canonical → d = r.done.stepLfsr (steps t) → d.canonical :=
            fun r d hr hd => hd ▸ hr.stepLfsr _
          have trimmed : ∀ (r : Pass), r.done.canonical → (match r.trim, t.hart.cv with
              | none, _ => r.done.stepLfsr (steps t)
              | some v, none => { r.done.stepLfsr (steps t) with hart.vl := v }
              | some v, some c => { r.done.stepLfsr (steps t) with hart.cv := some { c with trim := some v } }).canonical := by
            intro r hr
            split <;> exact hr.stepLfsr (steps t)
          split
          · exact advance (s := { fin _ with hart.vstart := 0 }) (hf _ (trimmed _ (hdone ..)))
          · exact (trimmed _ (hdone ..)).advance

theorem State.canonical.setNote (h : s.canonical) (addr n) : (s.setNote addr n).canonical := by
  grind only [State.setNote, State.canonical_iff]

theorem State.canonical.wholeMember {checks : M Unit} {m : Bool} {reads : State → Reads} {body : Nat → Nat → State → Pass}
    (hc : checks.keeps s) (hb : ∀ lo hi t, t.canonical → (body lo hi t).done.canonical) :
    (s.wholeMember checks m reads body).canonical := by
  refine State.canonical.member hc (fun lo hi _ t ht => ?_) fun _ ht => ht
  have := hb lo hi t ht
  dsimp only
  split
  · exact ht
  · split <;> assumption

theorem State.canonical.setRow (h : s.canonical) (n q x) : (s.setRow n q x).canonical := by
  grind only [State.setRow, setReg, foldl_canonical]

theorem State.canonical.loop (h : s.canonical) (m d rows q w lo hi last f) :
    (s.loop m d rows q w lo hi last f).done.canonical := by
  grind only [State.loop, setRow, dirtyVIf, raiseFlags, foldl_canonical, elim_canonical]

/-! ### Machine/VArith -/

theorem State.canonical.binary (h : s.canonical) (m : Bool) (d a : VReg) (b : VOperand) (ty : Nat → Bool)
    (zext rounds fused : Bool)
    (f : Nat → Nat → Nat → Nat → Nat → Nat → Nat × Nat) :
    (s.binary m d a b ty zext rounds fused f).canonical := by
  refine member ?_ (fun _ _ _ _ ht => ht.loop ..) fun _ ht => ht
  grind only [vectorCheck_keeps, tileCheck_keeps, operandCheck_keeps, M.keeps_bind, M.keeps_require]

theorem State.canonical.unary (h : s.canonical) (m : Bool) (d a : VReg) (ty : Nat → Bool) (rounds : Bool)
    (f : Nat → Nat → Nat → Nat → Nat → Nat → Nat × Nat) :
    (s.unary m d a ty rounds f).canonical := by
  refine member ?_ (fun _ _ _ _ ht => ht.loop ..) fun _ ht => ht
  grind only [vectorCheck_keeps, tileCheck_keeps, operandCheck_keeps, M.keeps_bind, M.keeps_require]

theorem State.canonical.carry (h : s.canonical) (d a : VReg) (b : VOperand) (carryOut : Bool)
    (f : Nat → Nat → Nat → Nat → Nat) :
    (s.carry d a b carryOut f).canonical := by
  refine member ?_ (fun _ _ _ _ ht => ht.loop ..) fun _ ht => ht
  grind only [vectorCheck_keeps, tileCheck_keeps, operandCheck_keeps, M.keeps_bind, M.keeps_require]

theorem State.canonical.widen (h : s.canonical) (m : Bool) (d a : VReg) (b : VOperand) (rounds : Nat → Bool)
    (fi : Int → Int → Int)
    (ff : Bool → FVal → FVal → FVal × Nat) :
    (s.widen m d a b rounds fi ff).canonical := by
  refine member ?_ (fun _ _ _ _ ht => ht.loop ..) fun _ ht => ht
  grind only [vectorCheck_keeps, tileCheck_keeps, operandCheck_keeps, M.keeps_bind, M.keeps_require]

/-! ### Machine/VCompare -/

theorem State.canonical.compare (h : s.canonical) (m : Bool) (d a : VReg) (b : VOperand) (ty : Nat → Bool)
    (test : Int → Bool)
    (ordered unordered : Bool) :
    (s.compare m d a b ty test ordered unordered).canonical := by
  refine member ?_ (fun _ _ _ _ ht => ht.loop ..) fun _ ht => ht
  grind only [vectorCheck_keeps, tileCheck_keeps, operandCheck_keeps, M.keeps_bind, M.keeps_require]

/-! ### Machine/VMask -/

theorem maskCheck_keeps (h : s.canonical) (ty tiles) : (maskCheck ty tiles).keeps s := by
  grind only [maskCheck, vectorCheck_keeps, tileCheck_keeps, M.keeps_forM, M.keeps_bind]

theorem State.canonical.maskAlgebra (h : s.canonical) (m : Bool) (d : VReg) (srcs : List VReg) (f : Bool → Bool → Bool) :
    (s.maskAlgebra m d srcs f).canonical :=
  member (maskCheck_keeps h _ _) (fun _ _ _ _ ht => ht.loop ..) fun _ ht => ht

theorem State.canonical.maskToScalar (h : s.canonical) (m : Bool) (d : SReg) (a : VReg) (f : List Nat → Word) :
    (s.maskToScalar m d a f).canonical :=
  wholeMember (maskCheck_keeps h _ _) fun _ _ _ ht => ht.setX ..

theorem State.canonical.maskWhole (h : s.canonical) (m : Bool) (d a : VReg) (ty : Nat → Bool) (w : Nat)
    (f : State → Nat → Nat → Nat → Nat) : (s.maskWhole m d a ty w f).canonical :=
  wholeMember (maskCheck_keeps h _ _) fun lo hi t ht => by
    grind only [State.canonical.loop]

/-! ### Machine/VPermute -/

theorem State.canonical.permute (h : s.canonical) (m : Bool) (d : VReg) (srcs : List VReg) {own : M Unit}
    (ho : ∀ t, t.canonical → own.keeps t) (f : State → Nat → Nat → Nat) : (s.permute m d srcs own f).canonical := by
  refine State.canonical.wholeMember ?_ ?_
  · grind only [vectorCheck_keeps, tileCheck_keeps, M.keeps_forM, M.keeps_bind]
  · grind only [State.canonical.loop]

theorem State.canonical.packed (h : s.canonical) (d a : VReg) (policy : Bool) (f : State → Nat → Nat → Nat → Nat) :
    (s.packed d a policy f).canonical := by
  refine State.canonical.wholeMember ?_ ?_
  · grind only [vectorCheck_keeps, tileCheck_keeps, M.keeps_bind]
  · grind only [State.canonical.setReg, State.canonical.dirtyVIf, foldl_canonical]

theorem State.canonical.onceLanded (h : s.canonical) (n i : Nat) {t : State} (ht : t.canonical) :
    (s.onceLanded n i t).done.canonical := by
  unfold State.onceLanded
  split
  · exact h
  · exact ht

theorem indexCheck_keeps (h : s.canonical) (k) : (indexCheck k).keeps s := by
  grind only [indexCheck, M.keeps_require, M.keeps_get_bind, M.keeps_bind]

/-! ### Machine/VReduce -/

theorem State.canonical.reduce (h : s.canonical) (m : Bool) (d a : VReg) (b : VOperand) (ty : Nat → Bool) (f : Combine) :
    (s.reduce m d a b ty f).canonical := by
  refine wholeMember ?_ fun lo hi t ht => ?_
  · grind only [vectorCheck_keeps, tileCheck_keeps, operandCheck_keeps, M.keeps_bind, M.keeps_require]
  · grind only [State.canonical.setElem, State.canonical.zeroFrom, State.canonical.raiseFlags, State.canonical.dirtyV,
      State.canonical_iff]

/-! ### Machine/VConvert -/

theorem State.canonical.scalesFirst (h : s.canonical) (m : Bool) (rows lo : Nat) {body : Pass}
    (hb : body.done.canonical) :
    (s.scalesFirst m rows lo body).done.canonical := by
  grind only [State.scalesFirst]

theorem State.canonical.convert (h : s.canonical) (m : Bool) (d a : VReg) (t : TypeCode) (pair : Nat → Bool)
    (scaled rounds : Bool)
    (f : (r e x : Nat) → (k : Int) → Nat × Nat) {note : (lo k : Nat) → State → State}
    (hn : ∀ lo k t, t.canonical → (note lo k t).canonical) : (s.convert m d a t pair scaled rounds f note).canonical := by
  refine State.canonical.member ?_ ?_ fun _ ht => ht
  · grind only [vectorCheck_keeps, tileCheck_keeps, M.keeps_bind]
  · grind only [State.canonical.loop, State.canonical.scalesFirst]

theorem State.canonical.cvt (h : s.canonical) (m d a t rm) : (s.cvt m d a t rm).canonical := by
  grind only [State.cvt, convert]

/-! ### Machine/VMemory -/

theorem spotAt_keeps (h : s.canonical) (k sp a n off lane laneOff) : (spotAt k sp a n off lane laneOff).keeps s := by
  unfold spotAt
  repeat' with_reducible first | refine M.keeps_get_bind ?_ | refine M.keeps_bind ?_ fun _ _ _ => ?_
  all_goals grind only [resolveVirtual_keeps, allow_keeps, vectorData_keeps, scratch_keeps, M.keeps_pure, M.keeps_checkM,
    M.keeps_get_bind, M.keeps_bind]

theorem placeElem_keeps (h : s.canonical) (k sp a f v w r e) : (placeElem k sp a f v w r e).keeps s := by
  grind only [placeElem, spotAt_keeps, M.keeps_pure, M.keeps_get_bind, M.keeps_bind]

theorem placeUnit_keeps (h : s.canonical) (k sp a v j) : (placeUnit k sp a v j).keeps s := by
  grind only [placeUnit, spotAt_keeps, M.keeps_pure, M.keeps_get_bind, M.keeps_bind]

theorem placeRows_keeps (h : s.canonical) (rows : List Nat) {place : Acc → Nat → M Access} (k : Acc)
    (hp : ∀ k r t, t.canonical → (place k r).keeps t) : (placeRows rows place k).keeps s := by
  grind only [placeRows, M.keeps_mapM, M.keeps_bind]

theorem State.canonical.resolveElems (h : s.canonical) (act : Nat → Bool) (rows : List Nat)
    {place : Acc → Nat → Nat → M Access}
    (hp : ∀ k r e t, t.canonical → (place k r e).keeps t) (k : Acc) (l : List Nat) (acc : List Access) :
    (Machine.resolveElems act rows place k l s acc).1.canonical := by
  induction l generalizing s acc with
  | nil => exact h
  | cons e es ih =>
    have hr : ((placeRows rows (fun k r => place k r e) k).go s).2.canonical := placeRows_keeps h rows k fun k r t ht => hp k r e t ht
    grind only [Machine.resolveElems]

theorem State.canonical.accessWrite (h : s.canonical) (slow : Bool) (a : Access) (w v : Nat) (how : Update) :
    (s.accessWrite slow a w v how).canonical := by
  obtain ⟨-, -, hlane, -⟩ := id h
  unfold State.accessWrite
  split
  · exact h.vectorWrite ..
  · exact h.withLane (Memory.writeN_wf _ _ _ hlane)

theorem State.canonical.landReg (h : s.canonical) (will n lo k hi) : (s.landReg will n lo k hi).canonical := by
  grind only [State.landReg, State.canonical_iff]

theorem State.canonical.landStop (h : s.canonical) (l) : (s.landStop l).canonical := by
  grind only [State.landStop, State.canonical_iff, foldl_canonical]

theorem State.canonical.landTile (h : s.canonical) (d rows w lo k n will) :
    (s.landTile d rows w lo k n will).canonical := by
  grind only [State.landTile, landReg, foldl_canonical]

theorem State.canonical.landUnits (h : s.canonical) (d rows lo k) : (s.landUnits d rows lo k).canonical := by
  grind only [State.landUnits, landReg, foldl_canonical]

theorem State.canonical.markFlying (h : s.canonical) (n g) : (s.markFlying n g).canonical := by
  grind only [State.markFlying, State.canonical_iff]

theorem State.canonical.markEntries (h : s.canonical) (es) : (s.markEntries es).canonical := by
  grind only [State.markEntries, markFlying, foldl_canonical]

theorem State.canonical.enter (h : s.canonical) (es) : (s.enter es).canonical := by
  grind only [State.enter, markEntries, State.canonical_iff, foldl_canonical, elim_canonical]

theorem State.canonical.leave (h : s.canonical) (w l gone) : (s.leave w l gone).canonical := by
  grind only [State.leave, enter]

theorem State.canonical.supersede (h : s.canonical) (l rows) : (s.supersede l rows).canonical := by
  grind only [State.supersede, State.canonical_iff]

theorem State.canonical.readAccess (h : s.canonical) (w a) : (s.readAccess w a).canonical := by
  grind only [State.readAccess, agree, setElem]

theorem State.canonical.readAll (h : s.canonical) (w rows may l) : (s.readAll w rows may l).1.canonical := by
  grind only [State.readAll, supersede, readAccess, enter, State.canonical_iff, foldl_canonical, elim_canonical]

theorem State.canonical.zeroMasked (h : s.canonical) (act d rows w lo k) :
    (s.zeroMasked act d rows w lo k).canonical := by
  grind only [State.zeroMasked, setElem, foldl_canonical]

theorem State.canonical.zeroTail (h : s.canonical) (d rows w k) : (s.zeroTail d rows w k).canonical := by
  grind only [State.zeroTail, dirtyVIf, zeroFrom, foldl_canonical]

theorem State.canonical.loadBody (h : s.canonical) (m may : Bool) (d rows w : Nat) {place : Acc → Nat → Nat → M Access}
    (hp : ∀ k r e t, t.canonical → (place k r e).keeps t) (lo hi : Nat) (last : Bool) :
    (s.loadBody m may d rows w place lo hi last).done.canonical := by
  have hr := h.resolveElems (s.active m) (List.range rows) hp .load (spanList lo hi) []
  grind only [State.loadBody, State.canonical.resolveElems, State.canonical.readAll, State.canonical.zeroMasked,
    State.canonical.dirtyVIf, State.canonical.landTile, State.canonical.markEntries, State.canonical.zeroTail, State.canonical.leave]

theorem State.canonical.sent (h : s.canonical) : s.sent.canonical := by
  grind only [State.sent, closeTrains, State.canonical_iff]

theorem State.canonical.sendAll (h : s.canonical) (w l) : (s.sendAll w l).canonical := by
  grind only [State.sendAll, sent, accessWrite, foldl_canonical]

theorem State.canonical.storeBody (h : s.canonical) (m : Bool) (rows w : Nat) {place : Acc → Nat → Nat → M Access}
    (hp : ∀ k r e t, t.canonical → (place k r e).keeps t) (lo hi : Nat) : (s.storeBody m rows w place lo hi).done.canonical :=
  (h.resolveElems (s.active m) (List.range rows) hp .store (spanList lo hi) []).sendAll ..

theorem releaseCheck_keeps (h : s.canonical) (o sc) : (releaseCheck o sc).keeps s := by
  grind only [releaseCheck, release_keeps, elim_canonical, M.keeps_pure, M.keeps_get_bind, M.keeps_bind]

theorem State.canonical.acquired (h : s.canonical) (o sc) : (s.acquired o sc).canonical := by
  grind only [State.acquired, acquire]

theorem indexTileCheck_keeps (h : s.canonical) (f) : (indexTileCheck f).keeps s := by
  grind only [indexTileCheck, tileCheck_keeps, M.keeps_pure, M.keeps_get_bind, M.keeps_bind]

theorem strideCheck_keeps (h : s.canonical) (f) : (strideCheck f).keeps s := by
  grind only [strideCheck, M.keeps_pure, M.keeps_require, M.keeps_get_bind, M.keeps_bind]

theorem State.canonical.vload (h : s.canonical) (m : Bool) (v : VReg) (a : SReg) (f : Form) (sp : Space) (sc : Scope)
    (o : Order) :
    (s.vload m v a f sp sc o).canonical := by
  refine member ?_ (fun lo hi last t ht => ht.loadBody _ _ _ _ _ (fun k _ _ _ hu => placeElem_keeps hu ..) ..)
    fun _ ht => ht.acquired ..
  grind only [vectorCheck_keeps, tileCheck_keeps, operandCheck_keeps, M.keeps_bind, M.keeps_require,
    indexTileCheck_keeps, strideCheck_keeps]

theorem State.canonical.vstore (h : s.canonical) (m : Bool) (v : VReg) (a : SReg) (f : Form) (sp : Space)
    (sc : Scope) (o : Order) :
    (s.vstore m v a f sp sc o).canonical := by
  refine member ?_ (fun lo hi _ t ht => ht.storeBody _ _ _ (fun k _ _ _ hu => placeElem_keeps hu ..) ..) fun _ ht => ht
  grind only [vectorCheck_keeps, tileCheck_keeps, operandCheck_keeps, M.keeps_bind, M.keeps_require,
    indexTileCheck_keeps, strideCheck_keeps, releaseCheck_keeps]

/-! ### Machine/Cask -/

theorem withPointer_keeps {α : Type} (p : Word) {m : M α} (hm : m.keeps s) : (withPointer p m).keeps s :=
  M.keeps_tryCatch hm fun _ _ ht => ht

theorem caskPlace_keeps (h : s.canonical) (p n way) : (caskPlace p n way).keeps s := by
  grind only [caskPlace, withPointer_keeps, resolve_keeps, M.keeps_pure, M.keeps_checkM, M.keeps_get_bind, M.keeps_bind]

theorem caskAccess_keeps (h : s.canonical) (p l) : (caskAccess p l).keeps s := by
  grind only [caskAccess, copyCheck_keeps, State.canonical.ownFirst, State.canonical_iff, M.keeps_pure, M.keeps_throw,
    M.keeps_trapM, M.keeps_checkM, M.keeps_require, M.keeps_modify, M.keeps_set, M.keeps_get, M.keeps_get_bind,
    M.keeps_bind, M.keeps_tryCatch, M.keeps_forM, M.keeps_mapM]

theorem State.canonical.contribute (h : s.canonical) (l index tag items) :
    (s.contribute l index tag items).1.canonical := by
  grind only [State.contribute, catchUp, damage, modHome, addSlot, foldl_canonical]

/-! ### Machine/Tables -/

theorem slotCheck_keeps (h : s.canonical) (v) : (slotCheck v).keeps s := by
  grind only [slotCheck, M.keeps_pure, M.keeps_checkM, M.keeps_bind]

theorem lockPlace_keeps (h : s.canonical) (k p) : (lockPlace k p).keeps s := by
  unfold lockPlace
  repeat' with_reducible first | refine M.keeps_get_bind ?_ | refine M.keeps_bind ?_ fun _ _ _ => ?_
  all_goals grind only [resolveVirtual_keeps, M.keeps_pure, M.keeps_trapM, M.keeps_checkM, M.keeps_get_bind, M.keeps_bind]

theorem State.canonical.settleGranule (h : s.canonical) (g) : (s.settleGranule g).canonical := by
  grind only [State.settleGranule, agreeLoads, lateFirst, drain]

theorem State.canonical.beforeLock (h : s.canonical) (g) : (s.beforeLock g).canonical := by
  grind only [State.beforeLock, switchTo, settleGranule, landItems, applyPosted, State.canonical_iff, foldl_canonical]

theorem setLock_keeps (h : s.canonical) (p : Word) (v : Nat) : (setLock p v).keeps s := by
  have hset : ∀ {t : State} g w, t.canonical → { t with locks := Tbl.set 0 t.locks g w }.canonical := by
    intro t g w ht
    obtain ⟨-, -, -, -, hlocks, -⟩ := id ht
    exact ht.withLocks (Tbl.set_wfFrom _ _ _ _ 0 (Nat.zero_le _) hlocks)
  refine M.keeps_bind (withPointer_keeps _ (lockPlace_keeps h _ _)) fun q t ht => ?_
  refine M.keeps_bind (M.keeps_checkM ht _ _) fun _ t ht => M.keeps_modify ?_
  exact (hset _ _ (ht.beforeLock _)).tagRecord ..

/-! ### Machine/Fence -/

theorem vectorDrained_keeps (h : s.canonical) : vectorDrained.keeps s := by
  grind only [vectorDrained, State.canonical.landOwn, State.canonical.ackTrains, M.keeps_pure, M.keeps_throw,
    M.keeps_modify, M.keeps_get_bind, M.keeps_bind]

theorem fenceVector_keeps (h : s.canonical) : fenceVector.keeps s := by
  unfold fenceVector
  repeat' with_reducible first | refine M.keeps_get_bind ?_ | refine M.keeps_bind ?_ fun _ _ _ => ?_
  all_goals grind only [State.canonical.landOwn, State.canonical.ackTrains, M.keeps_checkM, M.keeps_modify,
    M.keeps_get_bind, M.keeps_bind]

theorem fenceStores_keeps (h : s.canonical) (kind : Nat) (all : Bool) (more : State → Nat) :
    (fenceStores kind all more).keeps s := by
  unfold fenceStores
  repeat' with_reducible first | refine M.keeps_get_bind ?_ | refine M.keeps_bind ?_ fun _ _ _ => ?_ | split
  all_goals grind only [State.canonical.flushOverflow, State.canonical.drain, State.canonical.ackTrains,
    State.canonical.landOwn, State.canonical.flushesDone, latchCheck_keeps, flushSome_keeps, M.keeps_checkM,
    M.keeps_modify, M.keeps_get_bind, M.keeps_bind]

theorem homeOf_keeps (h : s.canonical) (p) : (homeOf p).keeps s := by
  grind only [homeOf, withPointer_keeps, resolve_keeps, translate_keeps, M.keeps_pure, M.keeps_checkM, M.keeps_get_bind,
    M.keeps_bind]

/-! ### Machine/TypeState -/

theorem State.canonical.storeVtype (h : s.canonical) (v) : (s.storeVtype v).canonical := by
  grind only [State.storeVtype, State.canonical_iff]

theorem State.canonical.storeVrow (h : s.canonical) (n) : (s.storeVrow n).canonical := by
  grind only [State.storeVrow, State.canonical_iff]

theorem State.canonical.remax (h : s.canonical) : s.remax.canonical := by
  grind only [State.remax, State.canonical_iff]

theorem State.canonical.cfg (h : s.canonical) {own : M Unit} {f : State → State} (ho : ∀ t, t.canonical → own.keeps t)
    (hf : ∀ t, t.canonical → (f t).canonical) : (s.cfg own f).canonical := by
  refine State.canonical.runM ?_ fun _ t ht => hf _ ht
  grind only [offCheck_keeps, vectorDrained_keeps, M.keeps_bind]

theorem State.canonical.storeGroup (h : s.canonical) (g0 g1) : (s.storeGroup g0 g1).canonical := by
  grind only [State.storeGroup, State.canonical_iff]

/-! ### Machine/Control -/

theorem State.canonical.storeVl (h : s.canonical) (v) : (s.storeVl v).canonical := by
  grind only [State.storeVl, State.canonical_iff]

theorem State.canonical.storeFrm (h : s.canonical) (v) : (s.storeFrm v).canonical := by
  grind only [State.storeFrm, State.canonical_iff]

theorem State.canonical.storeSrseed (h : s.canonical) (v) : (s.storeSrseed v).canonical := by
  grind only [State.storeSrseed, State.canonical_iff]

theorem storeMaxwait_keeps (h : s.canonical) (v) : (storeMaxwait v).keeps s := by
  grind only [storeMaxwait, State.canonical_iff, M.keeps_pure, M.keeps_throw, M.keeps_trapM, M.keeps_checkM,
    M.keeps_require, M.keeps_modify, M.keeps_set, M.keeps_get, M.keeps_get_bind, M.keeps_bind, 
    M.keeps_tryCatch, M.keeps_forM, M.keeps_mapM]

theorem State.canonical.storeStatus (h : s.canonical) (v) : (s.storeStatus v).canonical := by
  grind only [State.storeStatus, clearInitial, State.canonical_iff]

theorem State.canonical.storeTvec (h : s.canonical) (v) : (s.storeTvec v).canonical := by
  grind only [State.storeTvec, State.canonical_iff]

theorem storeAsid_keeps (h : s.canonical) (v) : (storeAsid v).keeps s := by
  grind only [storeAsid, State.canonical.dropL1, State.canonical_iff, M.keeps_pure, M.keeps_throw, M.keeps_trapM,
    M.keeps_checkM, M.keeps_require, M.keeps_modify, M.keeps_set, M.keeps_get, M.keeps_get_bind, M.keeps_bind,
    M.keeps_tryCatch, M.keeps_forM, M.keeps_mapM]

theorem State.canonical.storePtb (h : s.canonical) (v) : (s.storePtb v).canonical := by
  grind only [State.storePtb, dropL1, State.canonical_iff]

theorem State.canonical.storeSlice (h : s.canonical) (v) : (s.storeSlice v).canonical := by
  grind only [State.storeSlice, State.canonical_iff]

theorem State.canonical.storePreempt (h : s.canonical) (v clears) : (s.storePreempt v clears).canonical := by
  grind only [State.storePreempt, State.canonical_iff]

theorem State.canonical.storeStagger (h : s.canonical) (v) : (s.storeStagger v).canonical := by
  grind only [State.storeStagger, State.canonical_iff]

theorem State.canonical.storeRiskthr (h : s.canonical) (v) : (s.storeRiskthr v).canonical := by
  grind only [State.storeRiskthr, State.canonical_iff]

theorem State.canonical.storeTaghist (h : s.canonical) (v) : (s.storeTaghist v).canonical := by
  grind only [State.storeTaghist, State.canonical_iff]

theorem State.canonical.storeLoop (h : s.canonical) (r v) : (s.storeLoop r v).canonical := by
  unfold State.storeLoop
  grind only [State.canonical_iff]

theorem State.canonical.configured (h : s.canonical) {f : State → State} (hf : ∀ t, t.canonical → (f t).canonical) :
    (s.configured f).canonical := hf _ h

theorem storeUser_keeps (h : s.canonical) (n v) : (storeUser n v).keeps s := by
  unfold storeUser
  all_goals grind only [State.canonical.configured, State.canonical.storeVl, State.canonical.storeVrow,
    State.canonical.storeVtype, State.canonical.dirtyV, State.canonical.storeFrm, State.canonical.storeSrseed,
    State.canonical.storeLoop, storeMaxwait_keeps, State.canonical_iff, M.keeps_pure, M.keeps_modify]

theorem storePriv_keeps (h : s.canonical) (n v clears) : (storePriv n v clears).keeps s := by
  unfold storePriv
  all_goals grind only [State.canonical.storeStatus, State.canonical.storeTvec, storeAsid_keeps, State.canonical.storePtb,
    State.canonical.storeSlice, State.canonical.storePreempt, State.canonical.storeTaghist, State.canonical.storeRiskthr,
    State.canonical.storeStagger, State.canonical_iff, M.keeps_pure, M.keeps_modify]

theorem storeCr_keeps (h : s.canonical) (n v clears) : (storeCr n v clears).keeps s := by
  grind only [storeCr, storeUser_keeps, storePriv_keeps]

theorem accessCr_keeps (h : s.canonical) (n) : (accessCr n).keeps s := by
  grind only [accessCr, M.keeps_pure, M.keeps_trapM, M.keeps_checkM, M.keeps_require, M.keeps_get_bind, M.keeps_bind]

theorem State.canonical.writeCr (h : s.canonical) (n clears f) : (s.writeCr n clears f).canonical := by
  grind only [State.writeCr, runM, accessCr_keeps, storeCr_keeps, vectorDrained_keeps, advance, State.canonical_iff,
    M.keeps_pure, M.keeps_throw, M.keeps_trapM, M.keeps_checkM, M.keeps_require, M.keeps_modify, M.keeps_set, M.keeps_get,
    M.keeps_get_bind, M.keeps_bind, M.keeps_tryCatch, M.keeps_forM, M.keeps_mapM]

theorem State.canonical.storeEvent {m : M Unit} (hm : m.keeps s) : (s.storeEvent m).canonical := runM hm fun _ _ ht => ht

/-! ### Machine/VAtomic -/

theorem dataTrap_keeps (h : s.canonical) (m : Bool) (reads : Reads) (f : State → Option Trap) :
    (dataTrap m reads f).keeps s := by
  grind only [dataTrap, M.keeps_pure, M.keeps_throw, M.keeps_get_bind, M.keeps_bind]

theorem State.canonical.unlessTrap (h : s.canonical) (lo : Nat) (t : Option Trap) {body : Pass}
    (hb : body.done.canonical) :
    (s.unlessTrap lo t body).done.canonical := by
  cases t with
  | none => exact hb
  | some t => exact h

theorem vamoCheck_keeps (h : s.canonical) (ty m v a b sp) : (vamoCheck ty m v a b sp).keeps s := by
  grind only [vamoCheck, vectorCheck_keeps, tileCheck_keeps, indexTileCheck_keeps, dataTrap_keeps, M.keeps_checkM,
    M.keeps_require, M.keeps_get_bind, M.keeps_bind]

theorem State.canonical.combineRange (h : s.canonical) (regs : State) (op et w : Nat) (l : List Access) :
    (s.combineRange regs op et w l).1.canonical :=
  foldl_fst_canonical (fun _ _ hp => hp.accessWrite ..) h _

theorem State.canonical.allLanded (h : s.canonical) (m : Bool) (reads : Reads) (lo hi : Nat) {body : Pass}
    (hb : body.done.canonical) : (s.allLanded m reads lo hi body).done.canonical := by
  grind only [State.allLanded]

theorem State.canonical.swapAccess (h : s.canonical) (a w op et v) : (s.swapAccess a w op et v).1.canonical := by
  grind only [State.swapAccess, agree, applyItem, raiseFlags]

theorem State.canonical.swapSend (h : s.canonical) (a w op et v) : (s.swapSend a w op et v).canonical := by
  grind only [State.swapSend, sendItem, agreeLoads]

theorem State.canonical.awaitOld (h : s.canonical) (slow l) : (s.awaitOld slow l).canonical := by
  grind only [State.awaitOld, sent, markFlying, ackTrains, foldl_canonical]

theorem trainCheck_keeps (h : s.canonical) (l) : (trainCheck l).keeps s := by
  grind only [trainCheck, M.keeps_checkM, M.keeps_get_bind, M.keeps_bind]

theorem sendContribution_keeps (h : s.canonical) (p l kind code tv e count items) :
    (Machine.sendContribution p l kind code tv e count items).keeps s := by
  unfold Machine.sendContribution
  dsimp only
  refine M.keeps_bind (caskAccess_keeps h ..) fun _ t ht => M.keeps_get_bind ?_
  refine M.keeps_bind (M.keeps_checkM ht ..) fun _ t ht => ?_
  refine M.keeps_bind (release_keeps ht ..) fun _ t ht => ?_
  refine M.keeps_bind (trainCheck_keeps ht ..) fun _ t ht => ?_
  refine M.keeps_bind (answered_keeps ht ..) fun _ t ht => ?_
  refine M.keeps_bind (M.keeps_modify (ht.noteDamage _)) fun _ v hv => M.keeps_get_bind ?_
  refine M.keeps_bind (M.keeps_checkM hv ..) fun _ t ht => ?_
  refine M.keeps_bind (M.keeps_checkM ht ..) fun _ t ht => ?_
  refine M.keeps_bind (M.keeps_set ((hv.tidy _).contribute ..)) fun _ u hu => ?_
  exact M.keeps_bind (M.keeps_checkM hu ..) fun _ _ hu => M.keeps_pure hu _

theorem contributeTile_keeps (h : s.canonical) (m : Bool) (v : VReg) (a : SReg) (sc : Scope) (o : Order) :
    (contributeTile m v a sc o).keeps s := by
  unfold contributeTile
  refine M.keeps_get_bind ?_
  dsimp only
  generalize s.landedStop _ _ _ _ = landed
  generalize (if s.hart.sb = 0 then none else s.scaleNan m s.hart.vrow 0 s.vlNow) = nan
  cases landed
  all_goals
    repeat' with_reducible first | refine M.keeps_get_bind ?_ | refine M.keeps_bind ?_ fun _ _ _ => ?_ | split
    all_goals grind only [release_keeps, caskPlace_keeps, sendContribution_keeps, M.keeps_pure, M.keeps_throw,
      M.keeps_trapM, M.keeps_get_bind, M.keeps_bind]

theorem collectiveCheck_keeps (h : s.canonical) (b) : (collectiveCheck b).keeps s := by
  grind only [collectiveCheck, M.keeps_require, M.keeps_get_bind, M.keeps_bind]

theorem placeShared_keeps (h : s.canonical) (k a members v w r e) : (placeShared k a members v w r e).keeps s := by
  unfold placeShared
  repeat' with_reducible first | refine M.keeps_get_bind ?_ | refine M.keeps_bind ?_ fun _ _ _ => ?_
  all_goals grind only [placeElem_keeps, reachable_keeps, dataCheck_keeps, M.keeps_pure, M.keeps_forM, M.keeps_bind]

theorem State.canonical.multicast (h : s.canonical) (regs : State) (w : Nat) (l : List Access) :
    (s.multicast regs w l).canonical :=
  (foldl_canonical (fun _ _ ht => ht.accessWrite ..) h l).sent

theorem State.canonical.awaitChunks (h : s.canonical) (cask targets) : (s.awaitChunks cask targets).canonical := by
  grind only [State.awaitChunks, modHome, settle, setHome64]

theorem contributeShared_keeps (h : s.canonical) (a b w l) : (contributeShared a b w l).keeps s := by
  unfold contributeShared
  repeat' with_reducible first | refine M.keeps_get_bind ?_ | refine M.keeps_bind ?_ fun _ _ _ => ?_
  all_goals grind only [resolveVirtual_keeps, caskPlace_keeps, sendContribution_keeps, State.canonical.awaitChunks,
    M.keeps_pure, M.keeps_trapM, M.keeps_modify, M.keeps_get_bind, M.keeps_bind]

/-! ### Machine/Matrix -/

theorem placeTile_keeps (h : s.canonical) (k a t j) : (placeTile k a t j).keeps s := by
  grind only [placeTile, resolve_keeps, allow_keeps, dataCheck_keeps, M.keeps_pure, M.keeps_get_bind, M.keeps_bind]

theorem State.canonical.resolveUnits (h : s.canonical) (k : Acc) (a : SReg) (t : BitVec 2) (js : List Nat) :
    (Machine.resolveUnits k a t js s).1.canonical :=
  h.resolveElems _ _ (fun k _ j _ ht => placeTile_keeps ht k a t j) k js []

theorem State.canonical.readUnit (h : s.canonical) (t a) : (s.readUnit t a).canonical := by
  grind only [State.readUnit, agree, setTile]

theorem State.canonical.supersedeUnits (h : s.canonical) (t l) : (s.supersedeUnits t l).canonical := by
  grind only [State.supersedeUnits, State.canonical_iff]

theorem State.canonical.tileLoad (h : s.canonical) (a : SReg) (t : BitVec 2) {own : M Unit}
    (ho : ∀ t, t.canonical → own.keeps t) :
    (s.tileLoad a t own).canonical := by
  refine State.canonical.member ?_ ?_ fun _ ht => ht
  · grind only [vectorCheck_keeps, M.keeps_bind]
  · grind only [State.canonical.resolveUnits, State.canonical.setTile, State.canonical.supersedeUnits,
      State.canonical.readUnit, foldl_canonical, State.canonical.leave]

theorem shapeCheck_keeps (h : s.canonical) (t ok reason) : (shapeCheck t ok reason).keeps s := by
  grind only [shapeCheck, M.keeps_require]

theorem State.canonical.tileMember {checks : M Unit} {f : State → State} (hc : checks.keeps s)
    (hf : ∀ t, t.canonical → (f t).canonical) : (s.tileMember checks f).canonical :=
  member hc (fun _ _ _ t ht => hf t ht) fun _ ht => ht

theorem State.canonical.rowsTimesTile (h : s.canonical) (m d a t n idx) :
    (s.rowsTimesTile m d a t n idx).done.canonical := by
  grind only [State.rowsTimesTile, setReg, zeroFrom, dirtyV, raiseFlags, State.canonical_iff, foldl_canonical]

theorem mxShape_keeps (h : s.canonical) (t) : (mxShape t).keeps s := by
  grind only [mxShape, shapeCheck_keeps, M.keeps_get_bind, M.keeps_bind]

/-! ### Machine/System -/

theorem State.canonical.settleAs (h : s.canonical) (n) : (s.settleAs n).canonical := by
  grind only [State.settleAs, switchTo, landOwn, ackTrains, landLate, drain]

theorem State.canonical.settleOthers (h : s.canonical) : s.settleOthers.canonical := by
  grind only [State.settleOthers, settleAs, applyPosted, State.canonical_iff, foldl_canonical]

theorem State.canonical.forget (h : s.canonical) (sel) : (s.forget sel).canonical := by
  grind only [State.forget, State.canonical_iff]

theorem invalidate_keeps (h : s.canonical) (sel) : (invalidate sel).keeps s := by
  grind only [invalidate, State.canonical.forget, State.canonical.settleOthers, fenceStores_keeps, M.keeps_modify,
    M.keeps_bind]

theorem areaPlaces_keeps (h : s.canonical) (k : Acc) (p : Word) (n : Nat) : (areaPlaces k p n).keeps s := by
  refine M.keeps_bind (M.keeps_checkM h _ _) fun _ t ht => M.keeps_mapM (fun q t ht => ?_) ht
  repeat' with_reducible first | refine M.keeps_get_bind ?_ | refine M.keeps_bind ?_ fun _ _ _ => ?_ | split
  all_goals grind only [resolve_keeps, allow_keeps, dataCheck_keeps, answered_keeps, State.canonical.agree,
    M.keeps_pure, M.keeps_checkM, M.keeps_modify, M.keeps_mapM, M.keeps_get_bind, M.keeps_bind]

theorem State.canonical.areaWrite (h : s.canonical) (l : List (Phys × Nat)) (bs : List Byte) :
    (s.areaWrite l bs).canonical := by
  induction l generalizing s bs with
  | nil => exact h
  | cons q l ih => exact ih (h.homeStore ..) _

theorem State.canonical.restoreImage (h : s.canonical) (bs) : (s.restoreImage bs).canonical := by
  grind only [State.restoreImage, remax, storeVrow, State.canonical_iff]

theorem State.canonical.park (h : s.canonical) : s.park.canonical := by
  grind only [State.park, homeSet, setHome64, State.canonical_iff, foldl_canonical]

theorem State.canonical.modHarts (h : s.canonical) (f) : (s.modHarts f).canonical := by
  grind only [State.modHarts, modHart, foldl_canonical]

theorem State.canonical.unpark (h : s.canonical) : s.unpark.canonical := by
  grind only [State.unpark, putAll, markLanded, modHarts, setHome64, State.canonical_iff, foldl_canonical]

theorem State.canonical.stepGrants (h : s.canonical) (c) : (s.stepGrants c).canonical := by
  grind only [State.stepGrants, modCore, setLat]

/-! ### Machine/Stream -/

theorem copyCheckIssue_keeps (h : s.canonical) (side p bad) : (copyCheckIssue side p bad).keeps s := by
  unfold copyCheckIssue
  all_goals grind only [M.keeps_pure, M.keeps_trapM]

theorem State.canonical.modChannel (h : s.canonical) (core ch f) : (s.modChannel core ch f).canonical := by
  grind only [State.modChannel, modCore]

theorem State.canonical.accept (h : s.canonical) (c) : (s.accept c).canonical := by
  grind only [State.accept, modChannel, State.canonical_iff]

theorem State.canonical.copyMember (h : s.canonical) {checks : M Unit} {act : State → State}
    (hc : ∀ t, t.canonical → checks.keeps t) (ha : ∀ t, t.canonical → (act t).canonical) : (s.copyMember checks act).canonical := by
  refine State.canonical.member ?_ (fun _ _ _ t ht => ht) ha
  grind only [vectorCheck_keeps, M.keeps_bind]

theorem State.canonical.copy (h : s.canonical) (ch : BitVec 3) (k : CopyKind) (src dst : Word) (qa qr : Bool)
    (sc : Scope) :
    (s.copy ch k src dst qa qr sc).canonical := by
  refine h.copyMember (fun t ht => ?_) fun t ht => ht.accept _
  cases k
  all_goals grind only [copyCheckIssue_keeps, M.keeps_checkM, M.keeps_require, M.keeps_bind]

theorem engineByte_keeps (h : s.canonical) (c k p) : (engineByte c k p).keeps s := by
  grind only [engineByte, resolve_keeps, tagCheck_keeps, answered_keeps, State.canonical.agreeTrains, dataCheck_keeps,
    M.keeps_pure, M.keeps_modify, M.keeps_bind]

theorem State.canonical.moveByte (h : s.canonical) (c : Copy) (i : Nat) : (s.moveByte c i).1.canonical := by
  have hread : (match c.kind with
      | .fill v => pure (fillByte v c.width i)
      | _ => do
        let q ← engineByte c .load (c.sourceByte i)
        pure ((← get).homeByte q.loc) : M Byte).keeps s := by
    split
    · exact h
    · exact M.keeps_bind (engineByte_keeps h ..) fun _ _ ht => ht
  unfold State.moveByte
  dsimp only
  split
  · next e => exact M.keeps.left hread e
  · next b t e =>
    have hwrite := engineByte_keeps (M.keeps.left hread e) c .store (c.dst + word i)
    split
    · next e => exact hwrite.left e
    · next e => exact (hwrite.left e).homeStore ..

theorem State.canonical.putCopy (h : s.canonical) (c) : (s.putCopy c).canonical := by
  grind only [State.putCopy, State.canonical_iff]

theorem State.canonical.retire (h : s.canonical) (c) : (s.retire c).canonical := by
  grind only [State.retire, modChannel, State.canonical_iff]

theorem State.canonical.copyFails (h : s.canonical) (c dest t p) : (s.copyFails c dest t p).canonical := by
  grind only [State.copyFails, retire, modChannel]

theorem State.canonical.moveBytes (h : s.canonical) (id : Nat) (l : List Nat) : (s.moveBytes id l).canonical := by
  induction l generalizing s with
  | nil => exact h
  | cons i is ih =>
    have hm : ∀ c, (s.moveByte c i).1.canonical := fun c => h.moveByte c i
    grind only [State.moveBytes, State.canonical.putCopy, State.canonical.modChannel, State.canonical.copyFails]

theorem State.canonical.drainFor (h : s.canonical) (c : Copy) {t : State} (ht : s.drainFor c = .ok t) : t.canonical := by
  unfold State.drainFor at ht
  dsimp only at ht
  split at ht
  · next hgo =>
    cases ht
    refine State.canonical.switchTo (M.keeps.left ?_ hgo) _
    have hs := h.switchTo c.hart
    repeat' with_reducible first | refine M.keeps_get_bind ?_ | refine M.keeps_bind ?_ fun _ _ _ => ?_
    all_goals grind only [State.canonical.landLate, State.canonical.flushOverflow, State.canonical.drain,
      flushAll_keeps, vectorDone_keeps, M.keeps_checkM, M.keeps_modify, M.keeps_get_bind, M.keeps_bind]
  · cases ht

theorem State.canonical.startCopy (h : s.canonical) (id : Nat) : (s.startCopy id).canonical := by
  unfold State.startCopy
  split
  · exact h
  · split
    · exact h
    · split
      · exact h.putCopy _
      · split
        · exact h
        · split
          · next hd => exact (drainFor h _ hd).putCopy _
          · split
            · exact h.copyFails ..
            · exact h.copyFails ..
          · exact h

theorem State.canonical.finishCopy (h : s.canonical) (id) : (s.finishCopy id).canonical := by
  grind only [State.finishCopy, retire, copyFails]

theorem State.canonical.performCopy (h : s.canonical) (id) : (s.performCopy id).canonical := by
  grind only [State.performCopy, startCopy, finishCopy, moveBytes]

theorem State.canonical.engine (h : s.canonical) : s.engine.canonical := by
  grind only [State.engine, performCopy, foldl_canonical]

/-! ### Machine/Wait -/

theorem caskOpen_keeps (h : s.canonical) (p c wait) : (caskOpen p c wait).keeps s := by
  grind only [caskOpen, offCheck_keeps, caskPlace_keeps, M.keeps_pure, M.keeps_checkM, M.keeps_require, M.keeps_get_bind,
    M.keeps_bind]

theorem needEntry_keeps (h : s.canonical) (l cause p) : (needEntry l cause p).keeps s := by
  grind only [needEntry, M.keeps_pure, M.keeps_trapM, M.keeps_get_bind, M.keeps_bind]

theorem downCheck_keeps (h : s.canonical) (l) : (downCheck l).keeps s := by
  unfold downCheck
  all_goals grind only [M.keeps_pure, M.keeps_checkM, M.keeps_get_bind, M.keeps_bind]

theorem caskRelease_keeps (h : s.canonical) (l) : (caskRelease l).keeps s := by
  grind only [caskRelease, release_keeps, elim_canonical, M.keeps_get_bind, M.keeps_bind]

theorem State.canonical.visit (h : s.canonical) (l) : (s.visit l).canonical := by
  grind only [State.visit, noteDamage, tidy]

theorem kindCheck_keeps (h : s.canonical) (p l kinds cause) : (kindCheck p l kinds cause).keeps s := by
  grind only [kindCheck, M.keeps_pure, M.keeps_checkM, M.keeps_get_bind, M.keeps_bind]

theorem homeChecks_keeps (h : s.canonical) (p : Word) (l : Loc) (kinds : List Nat) (cause : Nat) {more : Header → M Unit}
    (hm : ∀ a t, t.canonical → (more a).keeps t) : (homeChecks p l kinds cause more).keeps s := by
  grind only [homeChecks, kindCheck_keeps, State.canonical.tidy, M.keeps_pure, M.keeps_modify, M.keeps_bind]

theorem caskAnswers_keeps (h : s.canonical) (p : Word) (l : Loc) (kinds : List Nat) (cause : Nat) {more : Header → M Unit}
    (hm : ∀ a t, t.canonical → (more a).keeps t) : (caskAnswers p l kinds cause more).keeps s := by
  unfold caskAnswers
  repeat' with_reducible first | refine M.keeps_get_bind ?_ | refine M.keeps_bind ?_ fun _ _ _ => ?_ | split
  all_goals grind only [homeChecks_keeps, downCheck_keeps, caskAccess_keeps, State.canonical.noteDamage, M.keeps_checkM,
    M.keeps_modify, M.keeps_get_bind, M.keeps_bind]

theorem waitAnswers_keeps (h : s.canonical) (p : Word) (l : Loc) (kinds : List Nat) (cause : Nat) {more : Header → M Unit}
    (hm : ∀ a t, t.canonical → (more a).keeps t) : (waitAnswers p l kinds cause more).keeps s := by
  unfold waitAnswers
  repeat' with_reducible first | refine M.keeps_get_bind ?_ | refine M.keeps_bind ?_ fun _ _ _ => ?_ | split
  all_goals grind only [homeChecks_keeps, downCheck_keeps, caskAccess_keeps, State.canonical.noteDamage, M.keeps_pure,
    M.keeps_modify, M.keeps_get_bind, M.keeps_bind]

theorem fitCheck_keeps (h : s.canonical) (c n) : (fitCheck c n).keeps s := by
  grind only [fitCheck, M.keeps_checkM, M.keeps_get_bind, M.keeps_bind]

theorem fixDeadline_keeps (h : s.canonical) (d) : (fixDeadline d).keeps s := by
  grind only [fixDeadline, State.canonical.raiseFlags, M.keeps_pure, M.keeps_modify, M.keeps_get_bind, M.keeps_bind]

theorem State.canonical.acquireAt (h : s.canonical) (scope) : (s.acquireAt scope).canonical := by
  grind only [State.acquireAt, acquire]

theorem State.canonical.endWait (h : s.canonical) (d c e) : (s.endWait d c e).canonical := by
  grind only [State.endWait, acquireAt, dirtyV, setX, advance, State.canonical_iff]

theorem beginWait_keeps (h : s.canonical) (l deadline round buffer barr) :
    (beginWait l deadline round buffer barr).keeps s := by
  grind only [beginWait, State.canonical_iff, M.keeps_modify]

theorem State.canonical.modEntry (h : s.canonical) (l f) : (s.modEntry l f).canonical := by
  grind only [State.modEntry, State.canonical_iff]

theorem State.canonical.runWait (h : s.canonical) (d : SReg) (c : VReg) {enter : M (Option Ending)} {go : State → State}
    (he : enter.keeps s) (hg : ∀ t, t.canonical → (go t).canonical) : (s.runWait d c enter go).canonical := by
  have hm : (enter.go s).2.canonical := he
  grind only [State.runWait, State.canonical.halt, State.canonical.endWait, State.canonical_iff]

theorem silentWait_keeps (h : s.canonical) (l : Loc) (d : Word) (past : State → Ending) (round : Nat)
    (buffer : Option (Loc × Word))
    (barr : Bool) : (silentWait l d past round buffer barr).keeps s := by
  grind only [silentWait, fixDeadline_keeps, beginWait_keeps, M.keeps_pure, M.keeps_get_bind, M.keeps_bind]

theorem State.canonical.takeAnswer (h : s.canonical) (l verb a) : (s.takeAnswer l verb a).1.canonical := by
  grind only [State.takeAnswer, modEntry]

theorem State.canonical.holdBack (h : s.canonical) (l w a t) : (s.holdBack l w a t).canonical := by
  grind only [State.holdBack, modEntry, State.canonical_iff]

theorem State.canonical.loseRound (h : s.canonical) (d c l verb) : (s.loseRound d c l verb).canonical := by
  grind only [State.loseRound, endWait, modEntry]

theorem State.canonical.goRound (h : s.canonical) (d c verb) : (s.goRound d c verb).canonical := by
  grind only [State.goRound, dueAt, takeAnswer, endWait, holdBack, loseRound]

theorem slotEnding_keeps (h : s.canonical) (d l e r c verb) : (slotEnding d l e r c verb).keeps s := by
  unfold slotEnding
  repeat' with_reducible first | refine M.keeps_get_bind ?_ | refine M.keeps_bind ?_ fun _ _ _ => ?_
  all_goals grind only [fitCheck_keeps, fixDeadline_keeps, State.canonical.modEntry, State.canonical.takeAnswer,
    M.keeps_pure, M.keeps_modify, M.keeps_set, M.keeps_get_bind, M.keeps_bind]

theorem answeredWait_keeps (h : s.canonical) (l e r scope deadline) : (answeredWait l e r scope deadline).keeps s := by
  unfold answeredWait
  repeat' with_reducible first | refine M.keeps_get_bind ?_ | refine M.keeps_bind ?_ fun _ _ _ => ?_
  all_goals grind only [beginWait_keeps, State.canonical.modEntry, State.canonical_iff, M.keeps_modify, M.keeps_bind]

theorem arrived_keeps (h : s.canonical) (p l e scope dl stays a) : (arrived p l e scope dl stays a).keeps s := by
  unfold arrived
  repeat' with_reducible first | refine M.keeps_get_bind ?_ | refine M.keeps_bind ?_ fun _ _ _ => ?_ | split
  all_goals grind only [State.canonical.modEntry, answeredWait_keeps, beginWait_keeps, M.keeps_pure, M.keeps_trapM,
    M.keeps_modify, M.keeps_get_bind, M.keeps_bind]

theorem arrival_keeps (h : s.canonical) (kinds cause p d c stays) : (arrival kinds cause p d c stays).keeps s := by
  unfold arrival
  repeat' with_reducible first | refine M.keeps_get_bind ?_ | refine M.keeps_bind ?_ fun _ _ _ => ?_ | split
  all_goals grind only [caskOpen_keeps, needEntry_keeps, slotEnding_keeps, caskRelease_keeps, waitAnswers_keeps,
    fitCheck_keeps, silentWait_keeps, fixDeadline_keeps, State.canonical.arrive, arrived_keeps, M.keeps_pure, M.keeps_set,
    M.keeps_get_bind, M.keeps_bind]

theorem waitRound_keeps (h : s.canonical) (kinds cause p d c) : (waitRound kinds cause p d c).keeps s := by
  unfold waitRound
  repeat' with_reducible first | refine M.keeps_get_bind ?_ | refine M.keeps_bind ?_ fun _ _ _ => ?_ | split
  all_goals grind only [caskOpen_keeps, needEntry_keeps, slotEnding_keeps, waitAnswers_keeps, fitCheck_keeps,
    silentWait_keeps, State.canonical.catchUp, fixDeadline_keeps, beginWait_keeps, State.canonical.damage,
    State.canonical.modEntry, M.keeps_pure, M.keeps_trapM, M.keeps_modify, M.keeps_set, M.keeps_get_bind, M.keeps_bind]

theorem State.canonical.queueAt (h : s.canonical) (l verb deadline) : (s.queueAt l verb deadline).canonical := by
  grind only [State.queueAt, State.canonical_iff]

theorem State.canonical.goHome (h : s.canonical) (d : SReg) (c : VReg) (code : Nat)
    {finish : Answer → Wait → State → State}
    {lost : State → State} (hf : ∀ a w t, t.canonical → (finish a w t).canonical) (hl : ∀ t, t.canonical → (lost t).canonical) :
    (s.goHome d c code finish lost).canonical := by
  grind only [State.goHome, State.canonical.dueAt, State.canonical.endWait]

theorem State.canonical.endCask (h : s.canonical) (d status scope) : (s.endCask d status scope).canonical := by
  grind only [State.endCask, advance, setX, acquireAt, elim_canonical]

/-! ### Machine/Sync -/

theorem State.canonical.unmend (h : s.canonical) (l) : (s.unmend l).canonical := by
  grind only [State.unmend, modEntry]

theorem joinWaiters_keeps (h : s.canonical) (p l e scope deadline) :
    (Machine.joinWaiters p l e scope deadline).keeps s := by
  unfold joinWaiters
  refine M.keeps_get_bind (M.keeps_bind ?_ fun _ _ ht => arrived_keeps ht ..)
  refine M.keeps_set ?_
  split
  · exact h.arrive ..
  · exact h.arrive ..
  · exact (h.arrive ..).unmend ..

theorem acquireLock_keeps (h : s.canonical) (p d l e a4) : (acquireLock p d l e a4).keeps s := by
  unfold acquireLock
  repeat' with_reducible first | refine M.keeps_get_bind ?_ | refine M.keeps_bind ?_ fun _ _ _ => ?_
  all_goals grind only [State.canonical.catchUp, fixDeadline_keeps, State.canonical.modEntry, State.canonical.setLock,
    State.canonical.unmend, joinWaiters_keeps, M.keeps_pure, M.keeps_modify, M.keeps_get_bind, M.keeps_bind]

theorem State.canonical.guardHolds (h : s.canonical) (l a1 g index) : (s.guardHolds l a1 g index).1.canonical := by
  grind only [State.guardHolds, farmNow]

theorem guardCheck_keeps (h : s.canonical) (p l t kind strip) : (guardCheck p l t kind strip).keeps s := by
  grind only [guardCheck, M.keeps_checkM, M.keeps_get_bind, M.keeps_bind]

theorem State.canonical.join (h : s.canonical) (l a1 place index) : (s.join l a1 place index).canonical := by
  grind only [State.join, State.canonical_iff]

theorem State.canonical.unjoin (h : s.canonical) (l) : (s.unjoin l).canonical := by
  grind only [State.unjoin, State.canonical_iff]

theorem channelEnd_keeps (h : s.canonical) (ch) : (channelEnd ch).keeps s := by
  grind only [channelEnd, M.keeps_pure, M.keeps_trapM, M.keeps_checkM, M.keeps_get_bind, M.keeps_bind]

theorem State.canonical.endChannel (h : s.canonical) (d ch code) : (s.endChannel d ch code).canonical := by
  grind only [State.endChannel, endWait]

/-! ### Machine/Quorum -/

theorem State.canonical.setLag (h : s.canonical) (l a1 i v) : (s.setLag l a1 i v).canonical := by
  grind only [State.setLag, setBitmap]

theorem joinIndex_keeps (h : s.canonical) (p b a2) : (joinIndex p b a2).keeps s := by
  grind only [joinIndex, M.keeps_pure, M.keeps_checkM, M.keeps_get_bind, M.keeps_bind]

theorem joinCheck_keeps (h : s.canonical) (p b l a3) : (joinCheck p b l a3).keeps s := by
  grind only [joinCheck, joinIndex_keeps, State.canonical.catchUp, M.keeps_checkM, M.keeps_get_bind, M.keeps_bind]

theorem State.canonical.leaveQuorum (h : s.canonical) (l a1 index) : (s.leaveQuorum l a1 index).canonical := by
  grind only [State.leaveQuorum, setLag, settle]

/-! ### Machine/Queue -/

theorem bufferPlace_keeps (h : s.canonical) (k p) : (bufferPlace k p).keeps s := by
  grind only [bufferPlace, resolve_keeps, allow_keeps, answered_keeps, State.canonical_iff, M.keeps_pure, M.keeps_throw,
    M.keeps_trapM, M.keeps_checkM, M.keeps_require, M.keeps_modify, M.keeps_set, M.keeps_get, M.keeps_get_bind,
    M.keeps_bind, M.keeps_tryCatch, M.keeps_forM, M.keeps_mapM]

theorem writeEntry_keeps (h : s.canonical) (l va data) : (writeEntry l va data).keeps s := by
  unfold writeEntry
  repeat' with_reducible first | refine M.keeps_get_bind ?_ | refine M.keeps_bind ?_ fun _ _ _ => ?_
  all_goals grind only [State.canonical.homeStore, State.canonical.agree, M.keeps_checkM, M.keeps_modify,
    M.keeps_get_bind, M.keeps_bind]

/-! ### Machine/Farm -/

theorem farmCheck_keeps (h : s.canonical) (p l) : (farmCheck p l).keeps s := by
  grind only [farmCheck, M.keeps_checkM, M.keeps_get_bind, M.keeps_bind]

theorem State.canonical.openFarm (h : s.canonical) (l) : (s.openFarm l).canonical := by
  grind only [State.openFarm, farmNow, setHome64, serveFarm, foldl_canonical]

theorem State.canonical.finishStrip (h : s.canonical) (l i gen) : (s.finishStrip l i gen).1.canonical := by
  grind only [State.finishStrip, farmNow, setHome64, serveFarm]

/-! ### Machine/Fetch -/

theorem fetchWords_keeps (h : s.canonical) (n : Nat) (a : Word) : (fetchWords n a).keeps s := by
  induction n generalizing s a with
  | zero => exact h
  | succ n ih => grind only [fetchWords, fetchWord_keeps, M.keeps_pure, M.keeps_throw, M.keeps_get_bind, M.keeps_bind,
    M.keeps_tryCatch]

theorem fetchConvoy_keeps (h : s.canonical) (a) : (fetchConvoy a).keeps s := by
  grind only [fetchConvoy, fetchWords_keeps]

/-! ### Machine/EventHart -/

theorem State.canonical.passUntil (h : s.canonical) (t) : (s.passUntil t).canonical := by
  grind only [State.passUntil, pass]

theorem State.canonical.landAsync (h : s.canonical) (t) : (s.landAsync t).canonical := by
  grind only [State.landAsync, takeAsync, State.canonical_iff]

theorem State.canonical.endStall (h : s.canonical) (kind ends) : (s.endStall kind ends).canonical := by
  grind only [State.endStall, State.canonical_iff]

theorem State.canonical.answers (h : s.canonical) (l) : (s.answers l).canonical := by
  unfold State.answers
  grind only [State.canonical_iff]

theorem State.canonical.lostWait (h : s.canonical) (l a) : (s.lostWait l a).canonical := by
  unfold State.lostWait
  grind only [loseRound, endWait, setX]

/-! ### Machine/EventMemory -/

theorem State.canonical.strike (h : s.canonical) (n t) : (s.strike n t).canonical := by
  grind only [State.strike, switchTo, landHere]

theorem State.canonical.strikeStore (h : s.canonical) (n code ep die) : (s.strikeStore n code ep die).canonical := by
  grind only [State.strikeStore, modHart]

theorem State.canonical.failConvoy (h : s.canonical) (head lcnt start p committed cause) :
    (s.failConvoy head lcnt start p committed cause).canonical := by
  grind only [State.failConvoy, enterTrap, State.canonical_iff]

theorem State.canonical.trimLoad (h : s.canonical) (d p) : (s.trimLoad d p).canonical := by
  grind only [State.trimLoad, zeroTail, State.canonical_iff, foldl_canonical]

theorem State.canonical.failLoad (h : s.canonical) (n r cause) : (s.failLoad n r cause).canonical := by
  grind only [State.failLoad, switchTo, answerRequests, ackTrains, trimLoad, failConvoy, State.canonical_iff,
    foldl_canonical]

theorem State.canonical.failLate (h : s.canonical) (n l cause) : (s.failLate n l cause).canonical := by
  grind only [State.failLate, switchTo, failConvoy, State.canonical_iff]

theorem State.canonical.itemArrives (h : s.canonical) (i pa) : (s.itemArrives i pa).canonical := by
  grind only [State.itemArrives, landItems]

theorem State.canonical.ackForeign (h : s.canonical) : s.ackForeign.canonical := by
  grind only [State.ackForeign, reply, State.canonical_iff, foldl_canonical]

theorem State.canonical.ingress (h : s.canonical) {f : State → State} (hf : ∀ t, t.canonical → (f t).canonical) :
    (s.ingress f).canonical := by
  grind only [State.ingress, State.canonical.reply]

theorem State.canonical.queueForeign (h : s.canonical) (l index verb deadline) :
    (s.queueForeign l index verb deadline).canonical := by
  grind only [State.queueForeign, State.canonical_iff]

theorem State.canonical.foreignContribution (h : s.canonical) (r items deadline) :
    (s.foreignContribution r items deadline).canonical := by
  grind only [State.foreignContribution, contribute, reply, modHome, settle, setHome64]

theorem State.canonical.serveCask (h : s.canonical) (r) : (s.serveCask r).canonical := by
  have hc := h.catchUp r.cask
  unfold State.serveCask
  dsimp only
  split
  case h_3 =>
    have hq := fun d => (hc.queueForeign r.cask r.index .acq d).arrive r.cask r.index r.tag (some d)
    split
    · exact (hc.setLock ..).reply _
    · split
      · exact hc.reply _
      · split
        · exact hc.reply _
        · split
          · exact hq _
          · exact (hc.arrive ..).reply _
  case h_11 =>
    split
    · exact h.reply _
    · exact ((h.dequeue _).reply _).reply _
  case h_12 =>
    split
    · exact ((h.dequeue _).reply _).reply _
    · split
      · exact h.reply _
      · exact h.queueForeign ..
  all_goals grind only [State.canonical.reply, State.canonical.arrive, State.canonical.catchUp,
    State.canonical.queueForeign, State.canonical.damage, State.canonical.releaseLock, State.canonical.mendLock,
    State.canonical.guardHolds, State.canonical.serveFarm, State.canonical.homeStore, State.canonical.setLag,
    State.canonical.leaveQuorum, State.canonical.enqueue, State.canonical.foreignContribution, State.canonical.openFarm,
    State.canonical.claimNow, State.canonical.finishStrip]

theorem State.canonical.answerDamaged (h : s.canonical) (r) : (s.answerDamaged r).canonical := by
  grind only [State.answerDamaged, reply]

theorem State.canonical.complete' (h : s.canonical) (at_ code detail) : (s.complete' at_ code detail).canonical := by
  grind only [State.complete', setHome64]

theorem State.canonical.notifyHart (h : s.canonical) (ep n t) : (s.notifyHart ep n t).canonical := by
  grind only [State.notifyHart, post]

theorem State.canonical.moveRange (h : s.canonical) (src dst n) : (s.moveRange src dst n).canonical := by
  grind only [State.moveRange, copyBytes, State.canonical_iff]

theorem State.canonical.settleAll (h : s.canonical) : s.settleAll.canonical := by
  grind only [State.settleAll, settleOthers, settleOwn, drain]

theorem State.canonical.refuse (h : s.canonical) (c detail) : (s.refuse c detail).canonical := by
  grind only [State.refuse, complete', notifyHart]

theorem State.canonical.endMigration (h : s.canonical) (m code detail) : (s.endMigration m code detail).canonical := by
  grind only [State.endMigration, notifyHart, complete', State.canonical_iff]

theorem State.canonical.markLeaf (h : s.canonical) (at_ pte va size asid) :
    (s.markLeaf at_ pte va size asid).canonical := by
  grind only [State.markLeaf, setHome64, State.canonical_iff]

theorem State.canonical.migrate (h : s.canonical) (c) : (s.migrate c).canonical := by
  grind only [State.migrate, refuse, settleAll, markLeaf, endMigration, setHome64, State.canonical_iff]

theorem State.canonical.writeLease (h : s.canonical) (l) : (s.writeLease l).canonical := by
  grind only [State.writeLease, homeSet]

theorem State.canonical.putLease (h : s.canonical) (l) : (s.putLease l).canonical := by
  grind only [State.putLease, writeLease, State.canonical_iff]

theorem State.canonical.expireOffers (h : s.canonical) : s.expireOffers.canonical := by
  grind only [State.expireOffers, complete', State.canonical_iff, foldl_canonical]

theorem State.canonical.lend (h : s.canonical) (c) : (s.lend c).canonical := by
  grind only [State.lend, expireOffers, refuse, State.canonical_iff]

theorem State.canonical.takeOffer (h : s.canonical) (c) : (s.takeOffer c).canonical := by
  grind only [State.takeOffer, expireOffers, refuse, complete', putLease, State.canonical_iff]

theorem State.canonical.reclaim (h : s.canonical) (c) : (s.reclaim c).canonical := by
  grind only [State.reclaim, refuse, settleAll, notifyHart, putLease, State.canonical_iff]

theorem State.canonical.giveBack (h : s.canonical) (c) : (s.giveBack c).canonical := by
  grind only [State.giveBack, refuse, complete', putLease]

theorem State.canonical.command (h : s.canonical) (c) : (s.command c).canonical := by
  grind only [State.command, migrate, lend, takeOffer, reclaim, giveBack, refuse]

theorem State.canonical.serveEngine (h : s.canonical) : s.serveEngine.canonical := by
  grind only [State.serveEngine, visit, dequeue, command]

/-! ### Machine/EventSched -/

theorem readUnder_keeps (h : s.canonical) (asid ptb p n) : (readUnder asid ptb p n).keeps s := by
  grind only [readUnder, resolve_keeps, dataCheck_keeps, M.keeps_pure, M.keeps_mapM, M.keeps_get_bind, M.keeps_bind]

theorem State.canonical.finishWord (h : s.canonical) (at_ code detail count) :
    (s.finishWord at_ code detail count).canonical := by
  grind only [State.finishWord, setHome64]

theorem State.canonical.hold (h : s.canonical) (q g firm l) : (s.hold q g firm l).canonical := by
  grind only [State.hold, State.canonical_iff]

theorem State.canonical.reserve (h : s.canonical) (q c) : (s.reserve q c).canonical := by
  grind only [State.reserve, hold]

theorem State.canonical.grantAll (h : s.canonical) (l) : (s.grantAll l).canonical := by
  grind only [State.grantAll, setLat, foldl_canonical]

theorem State.canonical.copyImage (h : s.canonical) (cores soff img) : (s.copyImage cores soff img).canonical := by
  grind only [State.copyImage, homeSet, foldl_canonical]

theorem State.canonical.start (h : s.canonical) (q c l) : (s.start q c l).canonical := by
  grind only [State.start, grantAll, modHart, State.canonical_iff, foldl_canonical]

theorem State.canonical.rerunPlaced (h : s.canonical) (q c id) : (s.rerunPlaced q c id).canonical := by
  grind only [State.rerunPlaced, modQueue, State.canonical_iff, foldl_canonical]

theorem State.canonical.unstage (h : s.canonical) (q) : (s.unstage q).canonical := by
  grind only [State.unstage, modQueue, State.canonical_iff]

theorem Command.read_keeps (h : s.canonical) (c : Command) : c.read.keeps s := by
  unfold Command.read
  split
  · exact h
  · exact readUnder_keeps h _ _ _ _

theorem State.canonical.takeHead (h : s.canonical) (q) : (s.takeHead q).canonical := by
  grind only [State.takeHead, dequeue, State.canonical_iff]

theorem State.canonical.startHead (h : s.canonical) (q : Nat) (c : Command) (l : List (Nat × List Nat))
    (cores : List Nat) :
    (s.startHead q c l cores).1.canonical := by
  have hm : ∀ new : List Nat, (if new = [] then pure [] else c.read : M (List Byte)).keeps s := by
    intro new
    split
    · exact h
    · exact Command.read_keeps h c
  unfold State.startHead
  dsimp only
  split
  · next e => exact ((hm _).left e).hold ..
  · next e => exact ((((hm _).left e).takeHead _).finishWord ..).unstage _
  · next e => exact ((((((hm _).left e).takeHead _).copyImage ..).start ..).unstage _).rerunPlaced ..

theorem State.canonical.serveHead (h : s.canonical) (q) : (s.serveHead q).1.canonical := by
  grind only [State.serveHead, modQueue, unstage, finishWord, takeHead, reserve, startHead, State.canonical_iff]

theorem State.canonical.served' (h : s.canonical) (q level) : (s.served' q level).canonical := by
  grind only [State.served', modQueue, State.canonical_iff]

theorem State.canonical.tryQueue (h : s.canonical) (n q : Nat) : (State.tryQueue n q s).1.canonical := by
  induction n generalizing s with
  | zero => exact h
  | succ n ih =>
    have hq := h.serveHead q
    grind only [State.tryQueue, State.canonical.served']

theorem State.canonical.refill (h : s.canonical) (qs) : (s.refill qs).canonical := by
  grind only [State.refill, modQueue, foldl_canonical]

/-- `State.scanQueues` over any way to try a queue: its equation does not look into `State.tryQueue`, whose unfolding is too deep for
the kernel. -/
def scanWith (attempt : Nat → Nat → State → State × Bool) : List Nat → State → State × Option Nat
  | [], s => (s, none)
  | q :: qs, s =>
    if (s.queue q).credit = 0 then scanWith attempt qs s
    else
      match attempt (s.waiting q + 1) q s with
      | (t, true) => (t, some q)
      | (t, false) => scanWith attempt qs t

theorem scanQueues_eq_scanWith : State.scanQueues = scanWith State.tryQueue := by
  delta State.scanQueues scanWith
  rfl

theorem scanWith_canonical {attempt : Nat → Nat → State → State × Bool}
    (ha : ∀ n q t, t.canonical → (attempt n q t).1.canonical) (l : List Nat) (h : s.canonical) :
    (scanWith attempt l s).1.canonical := by
  induction l generalizing s with
  | nil => exact h
  | cons q l ih => grind only [scanWith]

theorem State.canonical.scanQueues (h : s.canonical) (l : List Nat) : (State.scanQueues l s).1.canonical := by
  rw [scanQueues_eq_scanWith]
  exact scanWith_canonical (fun n q _ ht => ht.tryQueue n q) l h

theorem State.canonical.scanLevels (h : s.canonical) (k : Nat) (l : List Nat) : (State.scanLevels k l s).1.canonical := by
  induction l generalizing s with
  | nil => exact h
  | cons a l ih => 
    have hl := (h.refill (s.atLevel k a)).scanQueues (s.atLevel k a)
    grind only [State.scanLevels]

theorem State.canonical.scan (h : s.canonical) (k n : Nat) : (State.scan k n s).canonical := by
  induction n generalizing s with
  | zero => exact h
  | succ n ih =>
    have hl := h.scanLevels k levels
    grind only [State.scan]

theorem State.canonical.placeStaged (h : s.canonical) (st : Staging) : (s.placeStaged st).canonical := by
  unfold State.placeStaged
  split
  · dsimp only
    split
    · exact (h.startHead ..).modQueue ..
    · generalize s.placing _ _ _ _ = placed
      cases placed with
      | none => exact h
      | some l => exact h.hold ..
  · exact h.serveHead _

theorem State.canonical.serveStaged (h : s.canonical) (k) : (s.serveStaged k).canonical := by
  grind only [State.serveStaged, placeStaged, foldl_canonical]

theorem State.canonical.stageHead (h : s.canonical) (k : Nat) : (s.stageHead k).canonical := by
  unfold State.stageHead
  dsimp only
  split
  · exact h
  · next q x c cores _ =>
    split
    · exact h
    · next img t e =>
      have ht : t.canonical := (Command.read_keeps h c).left e
      have staged := (ht.copyImage cores c.soff img).modQueue q fun d => { d with stg := true }
      exact staged

theorem State.canonical.freeGroups (h : s.canonical) (a0) : (s.freeGroups a0).canonical := by
  grind only [State.freeGroups, setLat]

theorem State.canonical.orFlagSlot (h : s.canonical) : s.orFlagSlot.canonical := by
  grind only [State.orFlagSlot, setHome64]

theorem State.canonical.endHart (h : s.canonical) (code) : (s.endHart code).canonical := by
  grind only [State.endHart, orFlagSlot, freeGroups, modCore, State.canonical_iff]

theorem State.canonical.hartEnd (h : s.canonical) : s.hartEnd.canonical := by
  have hm := fenceStores_keeps h 5 true fun _ => 0
  grind only [State.hartEnd, M.keeps, State.canonical.endHart, State.canonical_iff]

theorem State.canonical.postAll (h : s.canonical) (t) : (s.postAll t).canonical := by
  grind only [State.postAll, post, foldl_canonical]

/-! ### Machine/EventFabric -/

theorem State.canonical.dropFlit (h : s.canonical) (id) : (s.dropFlit id).canonical := by
  grind only [State.dropFlit, State.canonical_iff]

theorem State.canonical.modFlit (h : s.canonical) (id f) : (s.modFlit id f).canonical := by
  grind only [State.modFlit, State.canonical_iff]

theorem State.canonical.askInject (h : s.canonical) (p dest) : (s.askInject p dest).canonical := by
  grind only [State.askInject, State.canonical_iff, elim_canonical]

theorem State.canonical.setWindow (h : s.canonical) (ep w) : (s.setWindow ep w).canonical := by
  grind only [State.setWindow, State.canonical_iff]

theorem State.canonical.failTrain (h : s.canonical) (n t low cause) : (s.failTrain n t low cause).canonical := by
  grind only [State.failTrain, switchTo, loosen, failConvoy, State.canonical_iff]

theorem State.canonical.loseTrains (h : s.canonical) (gone cause) : (s.loseTrains gone cause).canonical := by
  grind only [State.loseTrains, failTrain, State.canonical_iff, foldl_canonical]

theorem State.canonical.loseLoads (h : s.canonical) (n ep die code) : (s.loseLoads n ep die code).canonical := by
  grind only [State.loseLoads, failLoad, failLate, elim_canonical]

theorem State.canonical.strikeCargo (h : s.canonical) (n c t ep die) : (s.strikeCargo n c t ep die).canonical := by
  unfold State.strikeCargo
  grind only [strikeStore, loseTrains, loseLoads, strike, State.canonical_iff, elim_canonical]

theorem State.canonical.overflowAll (h : s.canonical) : s.overflowAll.canonical := by
  grind only [State.overflowAll, switchTo, flushOverflow, foldl_canonical]

theorem State.canonical.abandon (h : s.canonical) (ep train other) : (s.abandon ep train other).canonical := by
  grind only [State.abandon, setWindow, modHart, loseLoads, overflowAll, loseTrains, State.canonical_iff, foldl_canonical]

theorem State.canonical.strikeWaiters (h : s.canonical) (ep cause) : (s.strikeWaiters ep cause).canonical := by
  grind only [State.strikeWaiters, strike, foldl_canonical, elim_canonical]

theorem State.canonical.nacked (h : s.canonical) (ep seq) : (s.nacked ep seq).canonical := by
  grind only [State.nacked, abandon, setWindow, State.canonical_iff]

theorem State.canonical.eject (h : s.canonical) (f) : (s.eject f).canonical := by
  grind only [State.eject, dropFlit, nacked, strikeCargo, modFlit]

theorem State.canonical.route (stop : Nat) (l : List Flit) (ejected : Bool) (ports : List Nat) (h : s.canonical) :
    (State.route stop l ejected ports s).1.canonical := by
  induction l generalizing s ejected ports with
  | nil => exact h
  | cons f fs ih => grind only [State.route, State.canonical.eject, State.canonical.modFlit, State.canonical_iff]

theorem State.canonical.waitInject (h : s.canonical) (l) : (s.waitInject l).canonical := by
  grind only [State.waitInject, modFlit, modHart, foldl_canonical]

theorem State.canonical.freeWithheld (h : s.canonical) : s.freeWithheld.canonical := by
  grind only [State.freeWithheld, State.canonical_iff, elim_canonical]

theorem State.canonical.applyAcked (h : s.canonical) (ep seq) : (s.applyAcked ep seq).canonical := by
  grind only [State.applyAcked, applyPosted, State.canonical_iff, foldl_canonical]

theorem State.canonical.setPort (h : s.canonical) (p v) : (s.setPort p v).canonical := by
  grind only [State.setPort, State.canonical_iff]

theorem State.canonical.sendFlit (h : s.canonical) (hart ep die cargo) : (s.sendFlit hart ep die cargo).canonical := by
  grind only [State.sendFlit, setPort]

theorem State.canonical.keysGone (h : s.canonical) (ep) : (s.keysGone ep).canonical := by
  grind only [State.keysGone, loseLoads, loseTrains, strike, strikeWaiters, foldl_canonical, elim_canonical]

/-! ### Machine/EventModule -/

theorem State.canonical.writeVintage (h : s.canonical) (r fills) : (s.writeVintage r fills).canonical := by
  grind only [State.writeVintage, setHome64, homeSet]

theorem State.canonical.notifyGroup (h : s.canonical) (r spares t) : (s.notifyGroup r spares t).canonical := by
  grind only [State.notifyGroup, post, foldl_canonical]

theorem State.canonical.recover (h : s.canonical) (stage code) : (s.recover stage code).canonical := by
  grind only [State.recover, State.canonical_iff]

theorem State.canonical.postPower (h : s.canonical) (t) : (s.postPower t).canonical := by
  grind only [State.postPower, post, foldl_canonical]

theorem State.canonical.apply (h : s.canonical) (a) : (s.apply a).canonical := by
  unfold State.apply
  grind only [modHart, noteLost, writeVintage, sendFlit, setPort, modQueue, State.canonical_iff]

/-! ### Machine/Convoy -/

theorem State.canonical.adopt (h : s.canonical) (a b : State) : (s.adopt a b).canonical := by
  simpa only [State.canonical_iff, State.adopt] using h

theorem State.canonical.noteResults (h : s.canonical) (rs) : (s.noteResults rs).canonical := by
  grind only [State.noteResults, setNote, foldl_canonical]

theorem State.canonical.keepResults (h : s.canonical) (s0 : State) (a : Word) : (s.keepResults s0 a).canonical := by
  unfold State.keepResults
  split
  · exact h
  · exact h.withHart _

theorem State.canonical.keepTagEntry (h : s.canonical) (t : State) (c : Trap) : (s.keepTagEntry t c).canonical := by
  grind only [State.keepTagEntry, homeSet, State.canonical_iff]

theorem State.canonical.keepFinding (h : s.canonical) (t : State) (how : Pause) : (s.keepFinding t how).canonical := by
  unfold State.keepFinding
  split
  · exact h.keepTagEntry ..
  · split
    · exact translate_keeps h ..
    · exact h

theorem State.canonical.landConvoy (h : s.canonical) (s0 : State) (un : Undo) (p : Nat) (cause : Trap)
    (committed : Bool) (vl : Option Nat) :
    (s.landConvoy s0 un p cause committed vl).canonical := by
  have hu : (((s.landStop (s.hart.cv.elim [] (·.toLand))).atStop s0 p vl).ackTrains).canonical :=
    ackTrains (s := State.atStop _ _ _ _) (h.landStop _)
  unfold State.landConvoy
  dsimp only
  split
  · exact ((hu.unpost _).loosen).enterTrap ..
  · exact hu

theorem State.canonical.stopConvoy (h : s.canonical) (s0 : State) (un : Undo) (p : Nat) (how : Pause)
    (committed : Bool) (vl : Option Nat) :
    (s.stopConvoy s0 un p how committed vl).canonical := by
  cases how with
  | trap c => exact h.landConvoy ..
  | hold st => exact h

/-! ### Machine/Turn -/

theorem State.canonical.loopBack (h : s.canonical) (f) : (s.loopBack f).canonical := by
  grind only [State.loopBack, State.canonical_iff]

theorem State.canonical.debugAfter (h : s.canonical) (head) : (s.debugAfter head).canonical := by
  grind only [State.debugAfter, post, State.canonical_iff, foldl_canonical]

theorem State.canonical.finish (h : s.canonical) (head fs) : (s.finish head fs).canonical := by
  grind only [State.finish, loopBack, debugAfter, State.canonical_iff, elim_canonical]

theorem State.canonical.keepUp (h : s.canonical) : s.keepUp.canonical := by
  grind only [State.keepUp, settleOwn]

theorem State.canonical.openLoad (h : s.canonical) (fs) : (s.openLoad fs).canonical := by
  grind only [State.openLoad, landLate]

theorem State.canonical.holdBoundary (h : s.canonical) (kd o) : (s.holdBoundary kd o).canonical := by
  grind only [State.holdBoundary, stallClamp, failTrain, raise, State.canonical_iff]

theorem State.canonical.passBoundary (h : s.canonical) (vec) : (s.passBoundary vec).canonical := by
  grind only [State.passBoundary, State.canonical_iff]

theorem State.canonical.lapse (h : s.canonical) : s.lapse.canonical := by
  grind only [State.lapse, pass, othersStall, State.canonical_iff]

theorem State.canonical.cacheLeaf (h : s.canonical) (va : Nat) : (s.cacheLeaf va).canonical := by
  have hm := walk_keeps h s.ctx .load va 2 (bits s.hart.ptb 56 16 * 65536)
  grind only [State.cacheLeaf, M.keeps, State.canonical_iff]

end Sys2Proof.Machine
end

section
/-! SUPPORT. No instruction and no event leaves the canonical form. -/

-- One proof at a time: in parallel, this many take more memory than the check gives.
set_option Elab.async false

namespace Sys2Proof.Machine

variable {s : State}

/-- Where the instruction goes on, it leaves a state in canonical form. -/
def Leaves (r : Result) : Prop := match r with | .next t => t.canonical | _ => True
theorem leaves_next {t : State} (h : t.canonical) : Leaves (.next t) := h

theorem execJal_leaves (h : s.canonical) (d i) : Leaves (execJal d i s) := by
  grind only [execJal, leaves_next, State.canonical.transfer, State.canonical.setX]

theorem execJalr_leaves (h : s.canonical) (d a i) : Leaves (execJalr d a i s) := by
  grind only [execJalr, leaves_next, State.canonical.transfer, State.canonical.setX, State.canonical.raise]

theorem execLp_leaves (h : s.canonical) (a n) : Leaves (execLp a n s) := by
  grind only [execLp, leaves_next, State.canonical.raise, State.canonical.jump, State.canonical.advance,
    State.canonical_iff]

theorem execVmerge_leaves (h : s.canonical) (d a b) : Leaves (execVmerge d a b s) := by
  refine leaves_next (State.canonical.member ?_ (fun lo hi last t ht => ht.loop ..) fun _ ht => ht)
  repeat' with_reducible refine M.keeps_bind ?_ fun _ _ _ => ?_
  all_goals grind only [vectorCheck_keeps, tileCheck_keeps, operandCheck_keeps]

theorem execVmv_leaves (h : s.canonical) (m d b) : Leaves (execVmv m d b s) := by
  refine leaves_next (State.canonical.member ?_ (fun lo hi last t ht => ht.loop ..) fun _ ht => ht)
  repeat' with_reducible refine M.keeps_bind ?_ fun _ _ _ => ?_
  all_goals grind only [vectorCheck_keeps, tileCheck_keeps, operandCheck_keeps]

theorem execVid_leaves (h : s.canonical) (m d) : Leaves (execVid m d s) :=
  leaves_next (State.canonical.member (maskCheck_keeps h ..) (fun _ _ _ _ ht => ht.loop ..) fun _ ht => ht)

theorem execVslup_leaves (h : s.canonical) (m d a b) : Leaves (execVslup m d a b s) := by
  unfold execVslup
  refine leaves_next (State.canonical.permute h _ _ _ ?_ _)
  all_goals intros
  all_goals grind only [M.keeps_pure]

theorem execVsldn_leaves (h : s.canonical) (m d a b) : Leaves (execVsldn m d a b s) := by
  unfold execVsldn
  refine leaves_next (State.canonical.permute h _ _ _ ?_ _)
  all_goals intros
  all_goals grind only [M.keeps_pure]

theorem execVslup1_leaves (h : s.canonical) (m d a b) : Leaves (execVslup1 m d a b s) := by
  unfold execVslup1
  refine leaves_next (State.canonical.permute h _ _ _ ?_ _)
  all_goals intros
  all_goals grind only [M.keeps_pure]

theorem execVsldn1_leaves (h : s.canonical) (m d a b) : Leaves (execVsldn1 m d a b s) := by
  unfold execVsldn1
  refine leaves_next (State.canonical.permute h _ _ _ ?_ _)
  all_goals intros
  all_goals grind only [M.keeps_pure]

theorem execVrgath_leaves (h : s.canonical) (m d a b) : Leaves (execVrgath m d a b s) := by
  unfold execVrgath
  refine leaves_next (State.canonical.permute h _ _ _ ?_ _)
  all_goals intros
  all_goals grind only [M.keeps_pure]

theorem execVbcast_leaves (h : s.canonical) (m d a b) : Leaves (execVbcast m d a b s) := by
  grind only [execVbcast, leaves_next, State.canonical.permute, M.keeps_require]

theorem execVrowmv_leaves (h : s.canonical) (d a) : Leaves (execVrowmv d a s) := by
  refine leaves_next (State.canonical.member ?_ (fun lo hi last t ht => ht.loop ..) fun _ ht => ht)
  repeat' with_reducible refine M.keeps_bind ?_ fun _ _ _ => ?_
  all_goals grind only [vectorCheck_keeps, tileCheck_keeps]

theorem execVmvxs_leaves (h : s.canonical) (d a) : Leaves (execVmvxs d a s) := by
  unfold execVmvxs
  refine leaves_next (State.canonical.wholeMember ?_ ?_)
  all_goals
    intros
    repeat' with_reducible first | refine M.keeps_get_bind ?_ | refine M.keeps_bind ?_ fun _ _ _ => ?_ | split
  all_goals grind only [vectorCheck_keeps, tileCheck_keeps, State.canonical.onceLanded, State.canonical.setX,
    M.keeps_bind]

theorem execVmvsx_leaves (h : s.canonical) (d b) : Leaves (execVmvsx d b s) := by
  refine leaves_next (State.canonical.member ?_ (fun lo hi last t ht => ?_) fun _ ht => ht)
  · exact M.keeps_bind (vectorCheck_keeps h ..) fun _ _ ht => tileCheck_keeps ht ..
  · split
    · have h1 : (if lo = 0 then t.setElem d.toNat (etWidth s.hart.et) 0 (t.scalarElem b) else t).canonical := by
        split
        · exact ht.setElem ..
        · exact ht
      have h2 := fun (l : List Nat) =>
        foldl_canonical (fun (t : State) (e : Nat) ht => State.canonical.setElem ht d.toNat (etWidth s.hart.et) e 0) h1 l
      refine State.canonical.dirtyV ?_
      grind only [State.canonical.zeroFrom]
    · exact ht

theorem execVext_leaves (h : s.canonical) (d a b) : Leaves (execVext d a b s) := by
  unfold execVext
  refine leaves_next (State.canonical.wholeMember ?_ ?_)
  all_goals
    intros
    repeat' with_reducible first | refine M.keeps_get_bind ?_ | refine M.keeps_bind ?_ fun _ _ _ => ?_ | split
  all_goals grind only [vectorCheck_keeps, tileCheck_keeps, indexCheck_keeps, State.canonical.onceLanded,
    State.canonical.setX, M.keeps_bind]

theorem execVins_leaves (h : s.canonical) (d a b) : Leaves (execVins d a b s) := by
  refine leaves_next (State.canonical.member ?_ (fun lo hi last t ht => ?_) fun _ ht => ht)
  · repeat' with_reducible refine M.keeps_bind ?_ fun _ _ _ => ?_
    all_goals grind only [vectorCheck_keeps, tileCheck_keeps, indexCheck_keeps]
  · split
    · exact (ht.setElem ..).dirtyV
    · exact ht

theorem execVqmx_leaves (h : s.canonical) (m d a t) : Leaves (execVqmx m d a t s) := by
  unfold execVqmx
  refine leaves_next (State.canonical.wholeMember ?_ ?_)
  all_goals
    intros
    repeat' with_reducible first | refine M.keeps_get_bind ?_ | refine M.keeps_bind ?_ fun _ _ _ => ?_ | split
  all_goals grind only [vectorCheck_keeps, tileCheck_keeps, State.canonical.dirtyV, State.canonical.raiseFlags,
    State.canonical.stepLfsr, State.canonical.setReg, foldl_canonical, M.keeps_require, M.keeps_bind]

theorem execVrnsx_leaves (h : s.canonical) (m d a t) : Leaves (execVrnsx m d a t s) := by
  grind only [execVrnsx, leaves_next, State.canonical.convert, State.canonical.setNote, State.canonical.stepLfsr,
    foldl_canonical, elim_canonical]

theorem execVrnsi_leaves (h : s.canonical) (m d a t) : Leaves (execVrnsi m d a t s) := by
  grind only [execVrnsi, leaves_next, State.canonical.convert]

theorem execVldr_leaves (h : s.canonical) (v a sp sc o) : Leaves (execVldr v a sp sc o s) := by
  unfold execVldr
  refine leaves_next (State.canonical.member ?_ ?_ ?_)
  all_goals
    intros
    repeat' with_reducible first | refine M.keeps_get_bind ?_ | refine M.keeps_bind ?_ fun _ _ _ => ?_ | split
  all_goals grind only [vectorCheck_keeps, tileCheck_keeps, placeUnit_keeps, State.canonical.resolveElems,
    State.canonical.readAll, State.canonical.markEntries, State.canonical.dirtyVIf, State.canonical.landUnits,
    State.canonical.leave, State.canonical.acquired, elim_canonical, M.keeps_require, M.keeps_bind]

theorem execVstr_leaves (h : s.canonical) (v a sp sc o) : Leaves (execVstr v a sp sc o s) := by
  refine leaves_next (State.canonical.member ?_ (fun lo hi last t ht => ?_) fun _ ht => ht)
  · repeat' with_reducible refine M.keeps_bind ?_ fun _ _ _ => ?_
    all_goals grind only [vectorCheck_keeps, tileCheck_keeps, M.keeps_require, releaseCheck_keeps]
  · have hr := (ht.resolveElems (fun _ => true) [0] (place := fun k _ j => placeUnit k sp a v.toNat j)
      (fun k _ j t ht => placeUnit_keeps ht ..) .store (spanList lo hi) []).sendAll 64
    dsimp only
    split
    · exact (hr _).withHart _
    · exact hr _

theorem execSpti_leaves (h : s.canonical) (d a b) : Leaves (execSpti d a b s) := by
  grind only [execSpti, leaves_next, State.canonical.runM, slotCheck_keeps, State.canonical.setSlot,
    State.canonical.result, foldl_canonical]

theorem execSpte_leaves (h : s.canonical) (d a) : Leaves (execSpte d a s) := by
  grind only [execSpte, leaves_next, State.canonical.runM, slotCheck_keeps, State.canonical.result,
    State.canonical.setSlot]

theorem execSptc_leaves (h : s.canonical) (a b) : Leaves (execSptc a b s) := by
  grind only [execSptc, leaves_next, State.canonical.runM, slotCheck_keeps, State.canonical.advance,
    State.canonical.setSlot]

theorem execSptr_leaves (h : s.canonical) (d a) : Leaves (execSptr d a s) := by
  grind only [execSptr, leaves_next, State.canonical.runM, slotCheck_keeps, State.canonical.result]

theorem execStag_leaves (h : s.canonical) (a b) : Leaves (execStag a b s) := by
  refine leaves_next (State.canonical.runM ?_ fun _ _ ht => ht.advance)
  refine M.keeps_bind (M.keeps_checkM h ..) fun _ _ ht => ?_
  exact M.keeps_bind (drainAll_keeps ht) fun _ _ hu => M.keeps_forM (fun g t ht => setLock_keeps ht ..) hu

theorem execLtag_leaves (h : s.canonical) (d a) : Leaves (execLtag d a s) := by
  grind only [execLtag, leaves_next, State.canonical.runM, withPointer_keeps, lockPlace_keeps, State.canonical.result]

theorem execFenceSv_leaves (h : s.canonical) (_sc) : Leaves (execFenceSv _sc s) := by
  grind only [execFenceSv, leaves_next, State.canonical.runM, fenceStores_keeps, State.canonical.advance]

theorem execFenceVs_leaves (h : s.canonical) (_sc) : Leaves (execFenceVs _sc s) := by
  grind only [execFenceVs, leaves_next, State.canonical.runM, fenceVector_keeps, State.canonical.advance,
    State.canonical.dropL1]

theorem execFenceVv_leaves (h : s.canonical) (_sc) : Leaves (execFenceVv _sc s) := by
  grind only [execFenceVv, leaves_next, State.canonical.runM, fenceVector_keeps, State.canonical.advance]

theorem execFenceA_leaves (h : s.canonical) (_sc) : Leaves (execFenceA _sc s) := by
  grind only [execFenceA, leaves_next, State.canonical.runM, fenceStores_keeps, State.canonical.advance,
    State.canonical.dropL1]

theorem execFlushrd_leaves (h : s.canonical) (a sc) : Leaves (execFlushrd a sc s) := by
  unfold execFlushrd
  refine leaves_next (State.canonical.runM ?_ ?_)
  all_goals
    intros
    repeat' with_reducible first | refine M.keeps_get_bind ?_ | refine M.keeps_bind ?_ fun _ _ _ => ?_ | split
  all_goals grind only [State.canonical.flushOverflow, latchCheck_keeps, homeOf_keeps, drainAll_keeps, flushAll_keeps,
    State.canonical.advance, M.keeps_modify, M.keeps_bind]

theorem execSvl_leaves (h : s.canonical) (d a b) : Leaves (execSvl d a b s) := by
  grind only [execSvl, leaves_next, State.canonical.cfg, State.canonical.remax, State.canonical.setLat,
    State.canonical.setX, State.canonical_iff, M.keeps_require]

theorem execSvt_leaves (h : s.canonical) (a) : Leaves (execSvt a s) := by
  unfold execSvt
  refine leaves_next (State.canonical.cfg h ?_ ?_)
  all_goals intros
  all_goals grind only [State.canonical.storeVtype, M.keeps_pure]

theorem execSvr_leaves (h : s.canonical) (d a) : Leaves (execSvr d a s) := by
  unfold execSvr
  refine leaves_next (State.canonical.cfg h ?_ ?_)
  all_goals intros
  all_goals grind only [State.canonical.storeVrow, State.canonical.setX, M.keeps_pure]

theorem execScgrp_leaves (h : s.canonical) (a b) : Leaves (execScgrp a b s) := by
  unfold execScgrp
  refine leaves_next (State.canonical.cfg h ?_ ?_)
  all_goals intros
  all_goals grind only [State.canonical.storeGroup, M.keeps_pure]

theorem execScop_leaves (h : s.canonical) (a b seq) : Leaves (execScop a b seq s) := by
  unfold execScop
  refine leaves_next (State.canonical.cfg h ?_ ?_)
  all_goals
    intros
    repeat' with_reducible first | refine M.keeps_get_bind ?_ | refine M.keeps_bind ?_ fun _ _ _ => ?_ | split
  all_goals grind only [State.canonical_iff, M.keeps_pure]

theorem execRdc_leaves (h : s.canonical) (d n) : Leaves (execRdc d n s) := by
  grind only [execRdc, leaves_next, State.canonical.runM, accessCr_keeps, State.canonical.result]

theorem execVlWrite_leaves (h : s.canonical) (v) : Leaves (execVlWrite v s) := by
  grind only [execVlWrite, leaves_next, State.canonical.storeEvent, storeCr_keeps]

theorem execVrowWrite_leaves (h : s.canonical) (v) : Leaves (execVrowWrite v s) := by
  grind only [execVrowWrite, leaves_next, State.canonical.storeEvent, storeCr_keeps]

theorem execVtypeWrite_leaves (h : s.canonical) (v) : Leaves (execVtypeWrite v s) := by
  grind only [execVtypeWrite, leaves_next, State.canonical.storeEvent, storeCr_keeps]

theorem execVstartWrite_leaves (h : s.canonical) (v) : Leaves (execVstartWrite v s) := by
  grind only [execVstartWrite, leaves_next, State.canonical.storeEvent, storeCr_keeps]

theorem execFrmWrite_leaves (h : s.canonical) (v) : Leaves (execFrmWrite v s) := by
  grind only [execFrmWrite, leaves_next, State.canonical.storeEvent, storeCr_keeps]

theorem execSrseedWrite_leaves (h : s.canonical) (v) : Leaves (execSrseedWrite v s) := by
  grind only [execSrseedWrite, leaves_next, State.canonical.storeEvent, storeCr_keeps]

theorem execMaxwaitWrite_leaves (h : s.canonical) (v) : Leaves (execMaxwaitWrite v s) := by
  grind only [execMaxwaitWrite, leaves_next, State.canonical.storeEvent, storeCr_keeps]

theorem execStatusWrite_leaves (h : s.canonical) (v) : Leaves (execStatusWrite v s) := by
  grind only [execStatusWrite, leaves_next, State.canonical.storeEvent, storeCr_keeps]

theorem execTvecWrite_leaves (h : s.canonical) (v) : Leaves (execTvecWrite v s) := by
  grind only [execTvecWrite, leaves_next, State.canonical.storeEvent, storeCr_keeps]

theorem execAsidWrite_leaves (h : s.canonical) (v) : Leaves (execAsidWrite v s) := by
  grind only [execAsidWrite, leaves_next, State.canonical.storeEvent, storeCr_keeps]

theorem execPtbWrite_leaves (h : s.canonical) (v) : Leaves (execPtbWrite v s) := by
  grind only [execPtbWrite, leaves_next, State.canonical.storeEvent, storeCr_keeps]

theorem execSliceWrite_leaves (h : s.canonical) (v) : Leaves (execSliceWrite v s) := by
  grind only [execSliceWrite, leaves_next, State.canonical.storeEvent, storeCr_keeps]

theorem execPreemptWrite_leaves (h : s.canonical) (v) : Leaves (execPreemptWrite v s) := by
  grind only [execPreemptWrite, leaves_next, State.canonical.storeEvent, storeCr_keeps]

theorem execStaggerWrite_leaves (h : s.canonical) (v) : Leaves (execStaggerWrite v s) := by
  grind only [execStaggerWrite, leaves_next, State.canonical.storeEvent, storeCr_keeps]

theorem execRiskthrWrite_leaves (h : s.canonical) (v) : Leaves (execRiskthrWrite v s) := by
  grind only [execRiskthrWrite, leaves_next, State.canonical.storeEvent, storeCr_keeps]

theorem execTaghistWrite_leaves (h : s.canonical) (v) : Leaves (execTaghistWrite v s) := by
  grind only [execTaghistWrite, leaves_next, State.canonical.storeEvent, storeCr_keeps]

theorem execLoopRegisterWrite_leaves (h : s.canonical) (r v) : Leaves (execLoopRegisterWrite r v s) :=
  leaves_next (State.canonical.storeEvent (M.keeps_modify (h.storeLoop r v)))

theorem execVsca_leaves (h : s.canonical) (m v a b sp sc o) : Leaves (execVsca m v a b sp sc o s) := by
  unfold execVsca
  refine leaves_next (State.canonical.member ?_ ?_ ?_)
  all_goals
    intros
    repeat' with_reducible first | refine M.keeps_get_bind ?_ | refine M.keeps_bind ?_ fun _ _ _ => ?_ | split
  all_goals grind only [vamoCheck_keeps, releaseCheck_keeps, State.canonical.allLanded, State.canonical.unlessTrap,
    State.canonical.resolveElems, placeElem_keeps, State.canonical.combineRange, State.canonical.raiseFlags,
    State.canonical.sent, State.canonical.acquired, State.canonical_iff, foldl_canonical, foldl_fst_canonical,
    elim_canonical, M.keeps_pure, M.keeps_throw, M.keeps_trapM, M.keeps_checkM, M.keeps_require, M.keeps_modify,
    M.keeps_set, M.keeps_get, M.keeps_get_bind, M.keeps_bind, M.keeps_tryCatch, M.keeps_forM, M.keeps_mapM]

theorem execVamo_leaves (h : s.canonical) (m v a b sp sc o) : Leaves (execVamo m v a b sp sc o s) := by
  unfold execVamo
  refine leaves_next (State.canonical.member ?_ ?_ ?_)
  all_goals
    intros
    repeat' with_reducible first | refine M.keeps_get_bind ?_ | refine M.keeps_bind ?_ fun _ _ _ => ?_ | split
  all_goals grind only [vamoCheck_keeps, releaseCheck_keeps, State.canonical.unlessTrap, State.canonical.resolveElems,
    placeElem_keeps, State.canonical.swapAccess, State.canonical.swapSend, State.canonical.setElem,
    State.canonical.dirtyVIf, State.canonical.landTile, State.canonical.awaitOld, State.canonical.acquired,
    State.canonical_iff, foldl_canonical, foldl_fst_canonical, elim_canonical, M.keeps_pure, M.keeps_throw, M.keeps_trapM,
    M.keeps_checkM, M.keeps_require, M.keeps_modify, M.keeps_set, M.keeps_get, M.keeps_get_bind, M.keeps_bind,
    M.keeps_tryCatch, M.keeps_forM, M.keeps_mapM]

theorem execVrrs_leaves (h : s.canonical) (m v a sc o) : Leaves (execVrrs m v a sc o s) := by
  refine leaves_next (State.canonical.member ?_ (fun lo hi last t ht => ?_) fun _ ht => ht)
  · repeat' with_reducible refine M.keeps_bind ?_ fun _ _ _ => ?_
    all_goals grind only [vectorCheck_keeps, tileCheck_keeps, M.keeps_require, dataTrap_keeps, releaseCheck_keeps]
  · refine ht.scalesFirst _ _ _ (ht.unlessTrap _ _ (State.canonical.sent ?_))
    refine foldl_canonical (fun t x ht => ht.accessWrite ..) (ht.resolveElems _ _ (fun k r e t ht => ?_) ..) _
    exact M.keeps_bind (spotAt_keeps ht ..) fun _ _ hu => M.keeps_pure hu _

theorem execVrrsq_leaves (h : s.canonical) (m v a sc o) : Leaves (execVrrsq m v a sc o s) := by
  refine leaves_next (State.canonical.member ?_ (fun lo hi last t ht => ?_) fun _ ht => ht)
  · repeat' with_reducible refine M.keeps_bind ?_ fun _ _ _ => ?_
    all_goals grind only [vectorCheck_keeps, tileCheck_keeps, M.keeps_require]
  · have hk := contributeTile_keeps ht m v a sc o
    split
    · next e => exact hk.left e
    · next e => exact hk.left e

theorem execVldc_leaves (h : s.canonical) (m v a b sc o) : Leaves (execVldc m v a b sc o s) := by
  unfold execVldc
  refine leaves_next (State.canonical.member ?_ ?_ ?_)
  all_goals
    intros
    repeat' with_reducible first | refine M.keeps_get_bind ?_ | refine M.keeps_bind ?_ fun _ _ _ => ?_ | split
  all_goals grind only [vectorCheck_keeps, tileCheck_keeps, collectiveCheck_keeps, State.canonical.resolveElems,
    placeShared_keeps, State.canonical.agree, State.canonical.setElem, State.canonical.raiseFlags,
    State.canonical.landTile, State.canonical.zeroMasked, State.canonical.dirtyVIf, State.canonical.zeroTail,
    State.canonical.acquired, State.canonical_iff, foldl_canonical, foldl_fst_canonical, elim_canonical, M.keeps_pure,
    M.keeps_throw, M.keeps_trapM, M.keeps_checkM, M.keeps_require, M.keeps_modify, M.keeps_set, M.keeps_get,
    M.keeps_get_bind, M.keeps_bind, M.keeps_tryCatch, M.keeps_forM, M.keeps_mapM]

theorem execVstc_leaves (h : s.canonical) (m v a b sc o) : Leaves (execVstc m v a b sc o s) := by
  refine leaves_next (State.canonical.member ?_ (fun lo hi last t ht => ?_) fun _ ht => ht)
  · repeat' with_reducible refine M.keeps_bind ?_ fun _ _ _ => ?_
    all_goals grind only [vectorCheck_keeps, tileCheck_keeps, M.keeps_require, collectiveCheck_keeps, releaseCheck_keeps]
  · have hr := ht.resolveElems (t.active m) (List.range s.hart.vrow)
      (place := fun k => placeShared k a (if t.hart.copOp = 0 then t.hart.group else []) v.toNat (etWidth s.hart.et))
      (fun k r e t ht => placeShared_keeps ht ..) .store (spanList lo hi) []
    have hk := fun l => contributeShared_keeps hr a b (etWidth s.hart.et) l
    dsimp only
    generalize resolveElems _ _ _ _ _ _ _ = r at *
    split
    · exact hr.multicast ..
    · split
      · exact hr
      · split
        · next e => exact (hk _).left e
        · next e => exact (hk _).left e

theorem execTld_leaves (h : s.canonical) (a t) : Leaves (execTld a t s) := by
  unfold execTld
  refine leaves_next (State.canonical.tileLoad h _ _ ?_)
  all_goals intros
  all_goals grind only [M.keeps_pure]

theorem execTldg_leaves (h : s.canonical) (a b t) : Leaves (execTldg a b t s) := by
  grind only [execTldg, leaves_next, State.canonical.tileLoad, memberTrap_keeps, M.keeps_pure, M.keeps_checkM,
    M.keeps_bind]

theorem execTst_leaves (h : s.canonical) (a t) : Leaves (execTst a t s) := by
  refine leaves_next (State.canonical.member ?_ (fun lo hi last u hu => ?_) fun _ ht => ht)
  · exact M.keeps_bind (vectorCheck_keeps h ..) fun _ _ ht => shapeCheck_keeps ht ..
  · exact (foldl_canonical (fun t x ht => ht.accessWrite ..) (hu.resolveUnits ..) _).sent

theorem execTclr_leaves (h : s.canonical) (t) : Leaves (execTclr t s) := by
  grind only [execTclr, leaves_next, State.canonical.tileMember, vectorCheck_keeps, State.canonical.setTile]

theorem execTmv_leaves (h : s.canonical) (src t) : Leaves (execTmv src t s) := by
  unfold execTmv
  refine leaves_next (State.canonical.tileMember ?_ ?_)
  all_goals
    intros
    repeat' with_reducible first | refine M.keeps_get_bind ?_ | refine M.keeps_bind ?_ fun _ _ _ => ?_ | split
  all_goals grind only [vectorCheck_keeps, shapeCheck_keeps, State.canonical.setTile, M.keeps_bind]

theorem execVmxa_leaves (h : s.canonical) (m d a t) : Leaves (execVmxa m d a t s) := by
  unfold execVmxa
  refine leaves_next (State.canonical.wholeMember ?_ ?_)
  all_goals
    intros
    repeat' with_reducible first | refine M.keeps_get_bind ?_ | refine M.keeps_bind ?_ fun _ _ _ => ?_ | split
  all_goals grind only [vectorCheck_keeps, tileCheck_keeps, mxShape_keeps, State.canonical.rowsTimesTile, M.keeps_bind]

theorem execVmxs_leaves (h : s.canonical) (m d a i t) : Leaves (execVmxs m d a i t s) := by
  unfold execVmxs
  refine leaves_next (State.canonical.wholeMember ?_ ?_)
  all_goals
    intros
    repeat' with_reducible first | refine M.keeps_get_bind ?_ | refine M.keeps_bind ?_ fun _ _ _ => ?_ | split
  all_goals grind only [vectorCheck_keeps, tileCheck_keeps, mxShape_keeps, State.canonical.rowsTimesTile, M.keeps_bind]

theorem execTout_leaves (h : s.canonical) (m a i t) : Leaves (execTout m a i t s) := by
  unfold execTout
  refine leaves_next (State.canonical.wholeMember ?_ ?_)
  all_goals
    intros
    repeat' with_reducible first | refine M.keeps_get_bind ?_ | refine M.keeps_bind ?_ fun _ _ _ => ?_ | split
  all_goals grind only [vectorCheck_keeps, tileCheck_keeps, mxShape_keeps, State.canonical.setTile,
    State.canonical.raiseFlags, State.canonical_iff, foldl_canonical, M.keeps_bind]

theorem execTlbi_leaves (h : s.canonical) (a) : Leaves (execTlbi a s) := by
  grind only [execTlbi, leaves_next, State.canonical.runM, invalidate_keeps, State.canonical.advance]

theorem execTlbia_leaves (h : s.canonical) : Leaves (execTlbia s) := by
  grind only [execTlbia, leaves_next, State.canonical.runM, invalidate_keeps, State.canonical.advance,
    State.canonical.dropL1]

theorem execVsvall_leaves (h : s.canonical) (d a) : Leaves (execVsvall d a s) := by
  unfold execVsvall
  refine leaves_next (State.canonical.runM ?_ ?_)
  all_goals
    intros
    repeat' with_reducible first | refine M.keeps_get_bind ?_ | refine M.keeps_bind ?_ fun _ _ _ => ?_ | split
  all_goals grind only [State.canonical.landOwn, areaPlaces_keeps, State.canonical.areaWrite, State.canonical.advance,
    State.canonical.setX, State.canonical_iff, M.keeps_throw, M.keeps_modify, M.keeps_get_bind, M.keeps_bind]

theorem execVrsall_leaves (h : s.canonical) (a) : Leaves (execVrsall a s) := by
  unfold execVrsall
  refine leaves_next (State.canonical.runM ?_ ?_)
  all_goals
    intros
    repeat' with_reducible first | refine M.keeps_get_bind ?_ | refine M.keeps_bind ?_ fun _ _ _ => ?_ | split
  all_goals grind only [areaPlaces_keeps, State.canonical.advance, State.canonical.restoreImage, M.keeps_pure,
    M.keeps_checkM, M.keeps_get_bind, M.keeps_bind]

theorem execTsvall_leaves (h : s.canonical) (a) : Leaves (execTsvall a s) := by
  grind only [execTsvall, leaves_next, State.canonical.runM, areaPlaces_keeps, State.canonical.areaWrite,
    State.canonical.advance, State.canonical_iff, M.keeps_modify, M.keeps_get_bind, M.keeps_bind]

theorem execTrsall_leaves (h : s.canonical) (a) : Leaves (execTrsall a s) := by
  grind only [execTrsall, leaves_next, State.canonical.runM, areaPlaces_keeps, State.canonical.advance,
    State.canonical_iff, M.keeps_pure, M.keeps_get_bind, M.keeps_bind]

theorem execRapark_leaves (h : s.canonical) : Leaves (execRapark s) := by
  unfold execRapark
  refine leaves_next (State.canonical.runM ?_ ?_)
  all_goals
    intros
    repeat' with_reducible first | refine M.keeps_get_bind ?_ | refine M.keeps_bind ?_ fun _ _ _ => ?_ | split
  all_goals grind only [State.canonical.advance, State.canonical.park, M.keeps_checkM, M.keeps_bind]

theorem execRarestore_leaves (h : s.canonical) : Leaves (execRarestore s) := by
  unfold execRarestore
  refine leaves_next (State.canonical.runM ?_ ?_)
  all_goals
    intros
    repeat' with_reducible first | refine M.keeps_get_bind ?_ | refine M.keeps_bind ?_ fun _ _ _ => ?_ | split
  all_goals grind only [vectorDrained_keeps, State.canonical.advance, State.canonical.unpark, M.keeps_checkM,
    M.keeps_bind]

theorem execLgset_leaves (h : s.canonical) (d a) : Leaves (execLgset d a s) := by
  grind only [execLgset, leaves_next, State.canonical.stepGrants, State.canonical.modCore, State.canonical.stallAt,
    State.canonical.advance, State.canonical.setX]

theorem execPreempt_leaves (h : s.canonical) (d a) : Leaves (execPreempt d a s) := by
  grind only [execPreempt, leaves_next, State.canonical.modHart, State.canonical.advance, State.canonical.setX]

theorem execCexp_leaves (h : s.canonical) (ch a) : Leaves (execCexp ch a s) := by
  unfold execCexp
  refine leaves_next (State.canonical.copyMember h ?_ ?_)
  all_goals intros
  all_goals grind only [State.canonical.modChannel, M.keeps_pure]

theorem execCwm_leaves (h : s.canonical) (ch b) : Leaves (execCwm ch b s) := by
  unfold execCwm
  refine leaves_next (State.canonical.copyMember h ?_ ?_)
  all_goals intros
  all_goals grind only [State.canonical.setX, M.keeps_pure]

theorem execCfree_leaves (h : s.canonical) (ch) : Leaves (execCfree ch s) := by
  grind only [execCfree, leaves_next, State.canonical.copyMember, State.canonical.modChannel, M.keeps_checkM]

theorem execBar_leaves (h : s.canonical) (d a b c) : Leaves (execBar d a b c s) := by
  grind only [execBar, leaves_next, State.canonical.runWait, arrival_keeps, State.canonical.goRound]

theorem execBarr_leaves (h : s.canonical) (d a b) : Leaves (execBarr d a b s) := by
  grind only [execBarr, leaves_next, State.canonical.runWait, arrival_keeps, State.canonical.goRound]

theorem execBarw_leaves (h : s.canonical) (d a b c) : Leaves (execBarw d a b c s) := by
  grind only [execBarw, leaves_next, State.canonical.runWait, waitRound_keeps, State.canonical.goRound]

theorem execAcq_leaves (h : s.canonical) (d a b c) : Leaves (execAcq d a b c s) := by
  unfold execAcq
  refine leaves_next (State.canonical.runWait h _ _ ?_ ?_)
  all_goals
    intros
    repeat' with_reducible first | refine M.keeps_get_bind ?_ | refine M.keeps_bind ?_ fun _ _ _ => ?_ | split
  all_goals grind only [caskOpen_keeps, needEntry_keeps, slotEnding_keeps, caskRelease_keeps, waitAnswers_keeps,
    fitCheck_keeps, silentWait_keeps, State.canonical.unmend, acquireLock_keeps, State.canonical.goRound, M.keeps_pure,
    M.keeps_modify, M.keeps_get_bind, M.keeps_bind]

theorem execRel_leaves (h : s.canonical) (d a) : Leaves (execRel d a s) := by
  unfold execRel
  refine leaves_next (State.canonical.runM ?_ ?_)
  all_goals
    intros
    repeat' with_reducible first | refine M.keeps_get_bind ?_ | refine M.keeps_bind ?_ fun _ _ _ => ?_ | split
  all_goals grind only [caskOpen_keeps, needEntry_keeps, caskRelease_keeps, caskAnswers_keeps,
    State.canonical.releaseLock, State.canonical.unmend, State.canonical.endCask, M.keeps_pure, M.keeps_checkM,
    M.keeps_set, M.keeps_get_bind, M.keeps_bind]

theorem execMend_leaves (h : s.canonical) (d a b) : Leaves (execMend d a b s) := by
  unfold execMend
  refine leaves_next (State.canonical.runM ?_ ?_)
  all_goals
    intros
    repeat' with_reducible first | refine M.keeps_get_bind ?_ | refine M.keeps_bind ?_ fun _ _ _ => ?_ | split
  all_goals grind only [caskOpen_keeps, needEntry_keeps, caskAnswers_keeps, State.canonical.catchUp,
    State.canonical.mendLock, State.canonical.modEntry, State.canonical.endCask, M.keeps_pure, M.keeps_checkM,
    M.keeps_modify, M.keeps_set, M.keeps_get_bind, M.keeps_bind]

theorem execStg_leaves (h : s.canonical) (d a b c) : Leaves (execStg d a b c s) := by
  unfold execStg
  refine leaves_next (State.canonical.runM ?_ ?_)
  all_goals
    intros
    repeat' with_reducible first | refine M.keeps_get_bind ?_ | refine M.keeps_bind ?_ fun _ _ _ => ?_ | split
  all_goals grind only [caskOpen_keeps, resolve_keeps, allow_keeps, caskRelease_keeps, caskAnswers_keeps,
    guardCheck_keeps, State.canonical.guardHolds, State.canonical.serveFarm, State.canonical.scalarStoreAt,
    State.canonical.unmend, State.canonical.endCask, M.keeps_pure, M.keeps_checkM, M.keeps_set, M.keeps_get_bind,
    M.keeps_bind]

theorem execGjoin_leaves (h : s.canonical) (d a b) : Leaves (execGjoin d a b s) := by
  unfold execGjoin
  refine leaves_next (State.canonical.runM ?_ ?_)
  all_goals
    intros
    repeat' with_reducible first | refine M.keeps_get_bind ?_ | refine M.keeps_bind ?_ fun _ _ _ => ?_ | split
  all_goals grind only [caskOpen_keeps, caskAnswers_keeps, State.canonical.join, State.canonical.catchUp,
    State.canonical.endCask, M.keeps_pure, M.keeps_trapM, M.keeps_checkM, M.keeps_modify, M.keeps_get_bind, M.keeps_bind]

theorem execGleave_leaves (h : s.canonical) (d a) : Leaves (execGleave d a s) := by
  unfold execGleave
  refine leaves_next (State.canonical.runM ?_ ?_)
  all_goals
    intros
    repeat' with_reducible first | refine M.keeps_get_bind ?_ | refine M.keeps_bind ?_ fun _ _ _ => ?_ | split
  all_goals grind only [caskOpen_keeps, needEntry_keeps, caskRelease_keeps, caskAnswers_keeps, State.canonical.unjoin,
    State.canonical.endCask, M.keeps_pure, M.keeps_modify, M.keeps_bind]

theorem execCwait_leaves (h : s.canonical) (ch a b) : Leaves (execCwait ch a b s) := by
  unfold execCwait
  refine leaves_next ?_
  split
  · refine State.canonical.runM (channelEnd_keeps h ch) fun d t ht => ?_
    grind only [State.canonical.endChannel]
  · refine State.canonical.runM ?_ fun code t ht => ?_
    · refine M.keeps_bind (M.keeps_checkM h ..) fun _ _ ht => M.keeps_bind (channelEnd_keeps ht ch) fun d _ hu => ?_
      refine M.keeps_bind (fixDeadline_keeps hu _) fun dl _ hv => ?_
      split
      · exact M.keeps_pure hv _
      · split
        · exact M.keeps_pure hv _
        · exact M.keeps_bind (beginWait_keeps hv ..) fun _ _ hw => M.keeps_pure hw _
    · split
      · exact ht.endChannel ..
      · exact ht.withHart _

theorem execQarr_leaves (h : s.canonical) (d a b c) : Leaves (execQarr d a b c s) := by
  grind only [execQarr, leaves_next, State.canonical.runWait, arrival_keeps, State.canonical.goRound]

theorem execQwait_leaves (h : s.canonical) (d a b c) : Leaves (execQwait d a b c s) := by
  grind only [execQwait, leaves_next, State.canonical.runWait, waitRound_keeps, State.canonical.goRound]

theorem execQjoin_leaves (h : s.canonical) (d a b) : Leaves (execQjoin d a b s) := by
  refine leaves_next (State.canonical.runM ?_ fun _ _ ht => ht.endCask ..)
  refine M.keeps_bind (caskOpen_keeps h ..) fun l t ht => ?_
  dsimp only
  split
  · exact M.keeps_trapM ht ..
  · refine M.keeps_bind (caskAnswers_keeps ht _ _ _ _ fun hd t ht => joinCheck_keeps ht ..) fun hd t ht => ?_
    refine M.keeps_bind (joinIndex_keeps ht ..) fun i t ht => ?_
    refine M.keeps_bind (M.keeps_modify (ht.catchUp l)) fun _ t ht => ?_
    refine M.keeps_bind (M.keeps_modify ?_) fun _ t ht => ?_
    · split
      · exact ht.setLag ..
      · exact ht
    · exact M.keeps_bind (M.keeps_modify ((ht.unjoin l).join ..)) fun _ t ht => M.keeps_get_bind (M.keeps_pure ht _)

theorem execQleave_leaves (h : s.canonical) (d a) : Leaves (execQleave d a s) := by
  unfold execQleave
  refine leaves_next (State.canonical.runM ?_ ?_)
  all_goals
    intros
    repeat' with_reducible first | refine M.keeps_get_bind ?_ | refine M.keeps_bind ?_ fun _ _ _ => ?_ | split
  all_goals grind only [caskOpen_keeps, needEntry_keeps, caskRelease_keeps, caskAnswers_keeps, State.canonical.unjoin,
    State.canonical.catchUp, State.canonical.leaveQuorum, State.canonical.endCask, M.keeps_pure, M.keeps_modify,
    M.keeps_set, M.keeps_get_bind, M.keeps_bind]

theorem execQread_leaves (h : s.canonical) (d a c) : Leaves (execQread d a c s) := by
  unfold execQread
  refine leaves_next (State.canonical.runM ?_ ?_)
  all_goals
    intros
    repeat' with_reducible first | refine M.keeps_get_bind ?_ | refine M.keeps_bind ?_ fun _ _ _ => ?_ | split
  all_goals grind only [caskOpen_keeps, caskAnswers_keeps, State.canonical.catchUp, State.canonical.setX,
    State.canonical.endCask, M.keeps_pure, M.keeps_checkM, M.keeps_modify, M.keeps_get_bind, M.keeps_bind]

theorem execEnq_leaves (h : s.canonical) (d a) : Leaves (execEnq d a s) := by
  unfold execEnq
  refine leaves_next (State.canonical.runM ?_ ?_)
  all_goals
    intros
    repeat' with_reducible first | refine M.keeps_get_bind ?_ | refine M.keeps_bind ?_ fun _ _ _ => ?_ | split
  all_goals grind only [caskOpen_keeps, bufferPlace_keeps, homeLoad_keeps, caskRelease_keeps, caskAnswers_keeps,
    State.canonical.enqueue, State.canonical.endCask, M.keeps_pure, M.keeps_set, M.keeps_get_bind, M.keeps_bind]

theorem execRecv_leaves (h : s.canonical) (d a b) : Leaves (execRecv d a b s) := by
  refine leaves_next (State.canonical.runWait h _ _ ?_ fun t ht => ht.goHome _ _ _ (fun ans w u hu => ?_) fun _ hu => hu)
  · refine M.keeps_bind (caskOpen_keeps h ..) fun l t ht => M.keeps_bind (bufferPlace_keeps ht ..) fun q t ht => ?_
    refine M.keeps_bind (waitAnswers_keeps ht _ _ _ _ fun hd t ht => M.keeps_pure ht _) fun r t ht => ?_
    split
    · exact silentWait_keeps ht ..
    · exact M.keeps_get_bind (M.keeps_pure ht _)
    · refine M.keeps_bind (fixDeadline_keeps ht ..) fun dl t ht => M.keeps_get_bind ?_
      split
      · refine M.keeps_get_bind (M.keeps_bind (M.keeps_set (ht.dequeue l)) fun _ t ht => ?_)
        exact M.keeps_bind (writeEntry_keeps ht ..) fun _ t ht => M.keeps_pure ht _
      · split
        · exact M.keeps_pure ht _
        · refine M.keeps_bind (beginWait_keeps ht ..) fun _ t ht => ?_
          exact M.keeps_bind (M.keeps_modify (ht.queueAt ..)) fun _ t ht => M.keeps_pure ht _
  · dsimp only
    split
    · split
      · exact hu.endWait ..
      · exact State.canonical.runM (writeEntry_keeps hu ..) fun _ v hv => hv.endWait ..
    · exact hu.endWait ..

theorem execQpoll_leaves (h : s.canonical) (d a) : Leaves (execQpoll d a s) := by
  unfold execQpoll
  refine leaves_next (State.canonical.runM ?_ ?_)
  all_goals
    intros
    repeat' with_reducible first | refine M.keeps_get_bind ?_ | refine M.keeps_bind ?_ fun _ _ _ => ?_ | split
  all_goals grind only [caskOpen_keeps, bufferPlace_keeps, caskAnswers_keeps, State.canonical.dequeue, writeEntry_keeps,
    State.canonical.endCask, M.keeps_pure, M.keeps_set, M.keeps_get_bind, M.keeps_bind]

theorem execWake_leaves (h : s.canonical) (a) : Leaves (execWake a s) := by
  unfold execWake
  refine leaves_next (State.canonical.runM ?_ ?_)
  all_goals
    intros
    repeat' with_reducible first | refine M.keeps_get_bind ?_ | refine M.keeps_bind ?_ fun _ _ _ => ?_ | split
  all_goals grind only [caskOpen_keeps, caskRelease_keeps, caskAnswers_keeps, State.canonical.wakeQueue,
    State.canonical.advance, M.keeps_pure, M.keeps_modify, M.keeps_bind]

theorem execFarm_leaves (h : s.canonical) (d a) : Leaves (execFarm d a s) := by
  unfold execFarm
  refine leaves_next (State.canonical.runM ?_ ?_)
  all_goals
    intros
    repeat' with_reducible first | refine M.keeps_get_bind ?_ | refine M.keeps_bind ?_ fun _ _ _ => ?_ | split
  all_goals grind only [caskOpen_keeps, caskRelease_keeps, caskAnswers_keeps, farmCheck_keeps, State.canonical.openFarm,
    State.canonical.endCask, M.keeps_modify, M.keeps_bind]

theorem execStrip_leaves (h : s.canonical) (d a b) : Leaves (execStrip d a b s) := by
  unfold execStrip
  refine leaves_next (State.canonical.runWait h _ _ ?_ ?_)
  all_goals
    intros
    repeat' with_reducible first | refine M.keeps_get_bind ?_ | refine M.keeps_bind ?_ fun _ _ _ => ?_ | split
  all_goals grind only [caskOpen_keeps, waitAnswers_keeps, farmCheck_keeps, silentWait_keeps, State.canonical.setX,
    fixDeadline_keeps, State.canonical.farmNow, State.canonical.serveFarm, State.canonical.claimNow, beginWait_keeps,
    State.canonical.queueAt, State.canonical.goHome, State.canonical.endWait, M.keeps_pure, M.keeps_modify, M.keeps_set,
    M.keeps_get_bind, M.keeps_bind]

theorem execSdone_leaves (h : s.canonical) (d a b c) : Leaves (execSdone d a b c s) := by
  unfold execSdone
  refine leaves_next (State.canonical.runM ?_ ?_)
  all_goals
    intros
    repeat' with_reducible first | refine M.keeps_get_bind ?_ | refine M.keeps_bind ?_ fun _ _ _ => ?_ | split
  all_goals grind only [caskOpen_keeps, caskRelease_keeps, caskAnswers_keeps, farmCheck_keeps,
    State.canonical.finishStrip, State.canonical.endCask, M.keeps_pure, M.keeps_checkM, M.keeps_set, M.keeps_get_bind,
    M.keeps_bind]

theorem execFarmw_leaves (h : s.canonical) (d a b c) : Leaves (execFarmw d a b c s) := by
  refine leaves_next (State.canonical.runWait h _ _ ?_ fun t ht => ht.goHome _ _ _ (fun ans w u hu => hu.endWait ..) fun _ hu => hu)
  refine M.keeps_bind (caskOpen_keeps h ..) fun l t ht => ?_
  refine M.keeps_bind (waitAnswers_keeps ht _ _ _ _ fun hd t ht => ?_) fun r t ht => ?_
  · exact M.keeps_bind (farmCheck_keeps ht ..) fun _ t ht => M.keeps_get_bind (fitCheck_keeps ht ..)
  · split
    · exact silentWait_keeps ht ..
    · exact M.keeps_get_bind (M.keeps_pure ht _)
    · refine M.keeps_bind (fixDeadline_keeps ht ..) fun dl t ht => ?_
      refine M.keeps_bind (M.keeps_modify (ht.serveFarm l)) fun _ t ht => M.keeps_get_bind ?_
      split
      · exact M.keeps_pure ht _
      · split
        · exact M.keeps_pure ht _
        · split
          · exact M.keeps_pure ht _
          · refine M.keeps_bind (beginWait_keeps ht ..) fun _ t ht => ?_
            exact M.keeps_bind (M.keeps_modify (ht.queueAt ..)) fun _ t ht => M.keeps_pure ht _

theorem execLcrs_leaves (h : s.canonical) (d a) : Leaves (execLcrs d a s) := by
  grind only [execLcrs, leaves_next, State.canonical.runM, vectorDrained_keeps, State.canonical.result,
    State.canonical_iff]

theorem execLcrOverflow_leaves (h : s.canonical) : Leaves (execLcrOverflow s) := by
  grind only [execLcrOverflow, leaves_next, State.canonical.post, State.canonical_iff]

theorem execTraceSample_leaves (h : s.canonical) : Leaves (execTraceSample s) := by
  grind only [execTraceSample, leaves_next, State.canonical.pass, State.canonical.trace, State.canonical_iff]

theorem execAsyncCauseTaken_leaves (h : s.canonical) (pos outstanding) : Leaves
    (execAsyncCauseTaken pos outstanding s) := by
  grind only [execAsyncCauseTaken, leaves_next, State.canonical.landAsync, State.canonical.settleOwn, State.canonical_iff,
    elim_canonical]

theorem execPreemptRequest_leaves (h : s.canonical) (requester urgent) : Leaves
    (execPreemptRequest requester urgent s) := by
  grind only [execPreemptRequest, leaves_next, State.canonical_iff]

theorem execTimeSlice_leaves (h : s.canonical) : Leaves (execTimeSlice s) := by
  grind only [execTimeSlice, leaves_next, State.canonical.passUntil, State.canonical_iff]

theorem execWaitExpiredImplicit_leaves (h : s.canonical) : Leaves (execWaitExpiredImplicit s) := by
  grind only [execWaitExpiredImplicit, leaves_next, State.canonical.passUntil]

theorem execCaskAnswerArrival_leaves (h : s.canonical) (status carried) : Leaves
    (execCaskAnswerArrival status carried s) := by
  grind only [execCaskAnswerArrival, leaves_next, caskPlace_keeps, State.canonical.answers, State.canonical_iff,
    elim_canonical]

theorem execClosureRecordArrival_leaves (h : s.canonical) (cask status tag absent) : Leaves
    (execClosureRecordArrival cask status tag absent s) := by
  grind only [execClosureRecordArrival, leaves_next, State.canonical.recordParked, State.canonical_iff, foldl_canonical]

theorem execWaitDeadlineAtHart_leaves (h : s.canonical) : Leaves (execWaitDeadlineAtHart s) := by
  grind only [execWaitDeadlineAtHart, leaves_next, State.canonical.passUntil, State.canonical.dueAt,
    State.canonical.lostWait, State.canonical.runM, channelEnd_keeps, State.canonical.endChannel]

theorem execStaggeredCompletion_leaves (h : s.canonical) : Leaves (execStaggeredCompletion s) := by
  grind only [execStaggeredCompletion, leaves_next, State.canonical.goRound, State.canonical.passUntil]

theorem execRoundClosure_leaves (h : s.canonical) (cask) : Leaves (execRoundClosure cask s) := by
  grind only [execRoundClosure, leaves_next, State.canonical.passUntil, State.canonical.settle,
    State.canonical.noteDamage]

theorem execHomeWaitDeadline_leaves (h : s.canonical) (cask) : Leaves (execHomeWaitDeadline cask s) := by
  grind only [execHomeWaitDeadline, leaves_next, State.canonical.dueAt, State.canonical.passUntil, foldl_canonical]

theorem execStripClaimExpiry_leaves (h : s.canonical) (cask strip) : Leaves (execStripClaimExpiry cask strip s) := by
  grind only [execStripClaimExpiry, leaves_next, State.canonical.serveFarm, State.canonical.passUntil]

theorem execStoreBufferDrain_leaves (h : s.canonical) (i) : Leaves (execStoreBufferDrain i s) := by
  grind only [execStoreBufferDrain, leaves_next, State.canonical.sendStore, State.canonical_iff]

theorem execStoreApply_leaves (h : s.canonical) (i) : Leaves (execStoreApply i s) := by
  grind only [execStoreApply, leaves_next, State.canonical.applyPosted, State.canonical_iff]

theorem execFlushAnswer_leaves (h : s.canonical) (ep die) : Leaves (execFlushAnswer ep die s) := by
  grind only [execFlushAnswer, leaves_next, State.canonical.flushed, State.canonical_iff, elim_canonical]

theorem execFlushTimeout_leaves (h : s.canonical) (ep die) : Leaves (execFlushTimeout ep die s) := by
  grind only [execFlushTimeout, leaves_next, State.canonical.passUntil, elim_canonical]

theorem execTrainElement_leaves (h : s.canonical) (train part) : Leaves (execTrainElement train part s) := by
  unfold execTrainElement
  dsimp only
  split
  all_goals grind only [leaves_next, State.canonical.itemArrives, State.canonical.ackForeign, State.canonical.reply,
    State.canonical.homeStore, State.canonical_iff]

theorem execTrainAck_leaves (h : s.canonical) (ep die) : Leaves (execTrainAck ep die s) := by
  grind only [execTrainAck, leaves_next, State.canonical.flagsTo, State.canonical_iff]

theorem execResponseArrival_leaves (h : s.canonical) (seq mask excess) : Leaves
    (execResponseArrival seq mask excess s) := by
  grind only [execResponseArrival, leaves_next, State.canonical.answer, State.canonical.failLoad]

theorem execRedirectedResponse_leaves (h : s.canonical) (hart entry) : Leaves (execRedirectedResponse hart entry s) := by
  grind only [execRedirectedResponse, leaves_next, State.canonical.homeSet, State.canonical.setHome64,
    State.canonical.modHart]

theorem execCopyPerform_leaves (h : s.canonical) (i) : Leaves (execCopyPerform i s) := by
  grind only [execCopyPerform, leaves_next, State.canonical.performCopy]

theorem execCopyDataLands_leaves (h : s.canonical) (i off n) : Leaves (execCopyDataLands i off n s) := by
  grind only [execCopyDataLands, leaves_next, State.canonical.moveBytes, State.canonical.startCopy]

theorem execCopyRetire_leaves (h : s.canonical) (i) : Leaves (execCopyRetire i s) := by
  grind only [execCopyRetire, leaves_next, State.canonical.finishCopy]

theorem execReadRequest_leaves (h : s.canonical) (pa n) : Leaves (execReadRequest pa n s) := by
  grind only [execReadRequest, leaves_next, State.canonical.ingress, State.canonical.reply]

theorem execAtomicRequest_leaves (h : s.canonical) (r) : Leaves (execAtomicRequest r s) := by
  grind only [execAtomicRequest, leaves_next, State.canonical.ingress, State.canonical.reply, State.canonical.atomicAt]

theorem execCaskRequest_leaves (h : s.canonical) (r) : Leaves (execCaskRequest r s) := by
  grind only [execCaskRequest, leaves_next, State.canonical.reply, State.canonical.noteDamage,
    State.canonical.answerDamaged, State.canonical.damage, State.canonical.farmNow, State.canonical.serveCask,
    State.canonical.tidy]

theorem execMigrationDone_leaves (h : s.canonical) (i) : Leaves (execMigrationDone i s) := by
  grind only [execMigrationDone, leaves_next, State.canonical.settleAll, State.canonical.endMigration,
    State.canonical.setHome64, State.canonical.copyBytes, State.canonical.moveRange]

theorem execLeaseOfferExpiry_leaves (h : s.canonical) (lease) : Leaves (execLeaseOfferExpiry lease s) := by
  grind only [execLeaseOfferExpiry, leaves_next, State.canonical.passUntil, State.canonical.complete',
    State.canonical_iff]

theorem execRackGranuleMove_leaves (h : s.canonical) (lease) : Leaves (execRackGranuleMove lease s) := by
  unfold execRackGranuleMove
  dsimp only
  split
  all_goals grind only [leaves_next, State.canonical.settleAll, State.canonical.moveRange, State.canonical.notifyHart,
    State.canonical.complete', State.canonical.putLease, State.canonical_iff, foldl_canonical]

theorem execWakeRegister_leaves (h : s.canonical) (q off src) : Leaves (execWakeRegister q off src s) := by
  grind only [execWakeRegister, leaves_next, State.canonical.wakeQueue]

theorem execCommandScan_leaves (h : s.canonical) (k stage) : Leaves (execCommandScan k stage s) := by
  grind only [execCommandScan, leaves_next, State.canonical.scan, State.canonical.serveStaged, State.canonical.stageHead]

theorem execLaunch_leaves (h : s.canonical) (q) : Leaves (execLaunch q s) := by
  grind only [execLaunch, leaves_next, State.canonical.scanLevels, State.canonical.serveStaged]

theorem execHartEnd_leaves (h : s.canonical) : Leaves (execHartEnd s) := by
  grind only [execHartEnd, leaves_next, State.canonical.hartEnd]

theorem execLaunchCompletion_leaves (h : s.canonical) (id) : Leaves (execLaunchCompletion id s) := by
  grind only [execLaunchCompletion, leaves_next, State.canonical.finishWord, State.canonical_iff]

theorem execCommresGrow_leaves (h : s.canonical) : Leaves (execCommresGrow s) := by
  grind only [execCommresGrow, leaves_next, State.canonical.passUntil, State.canonical_iff, foldl_canonical]

theorem execCommresShrink_leaves (h : s.canonical) : Leaves (execCommresShrink s) := by
  grind only [execCommresShrink, leaves_next, State.canonical.passUntil, State.canonical_iff]

theorem execEnergyCharge_leaves (h : s.canonical) (q a) : Leaves (execEnergyCharge q a s) := by
  grind only [execEnergyCharge, leaves_next, State.canonical.modQueue, State.canonical.post, foldl_canonical]

theorem execAccountingPeriodBoundary_leaves (h : s.canonical) (timer) : Leaves
    (execAccountingPeriodBoundary timer s) := by
  grind only [execAccountingPeriodBoundary, leaves_next, State.canonical.passUntil, State.canonical.modQueue,
    State.canonical.postAll, State.canonical_iff, foldl_canonical]

theorem execFlitArrival_leaves (h : s.canonical) (stop) : Leaves (execFlitArrival stop s) := by
  grind only [execFlitArrival, leaves_next, State.canonical.route, State.canonical.freeWithheld,
    State.canonical.waitInject]

theorem execAgeBoundExceeded_leaves (h : s.canonical) (flit) : Leaves (execAgeBoundExceeded flit s) := by
  grind only [execAgeBoundExceeded, leaves_next, State.canonical.strikeCargo, State.canonical.dropFlit]

theorem execInjectionPriority_leaves (h : s.canonical) (stop) : Leaves (execInjectionPriority stop s) := by
  grind only [execInjectionPriority, leaves_next, State.canonical_iff, elim_canonical]

theorem execInjectionStarved_leaves (h : s.canonical) (flit) : Leaves (execInjectionStarved flit s) := by
  grind only [execInjectionStarved, leaves_next, State.canonical.strikeCargo, State.canonical.freeWithheld,
    State.canonical.dropFlit, elim_canonical]

theorem execInjthrWindow_leaves (h : s.canonical) (cycles) : Leaves (execInjthrWindow cycles s) := by
  grind only [execInjthrWindow, leaves_next, State.canonical.modHart, foldl_canonical]

theorem execReplayBackoffExpiry_leaves (h : s.canonical) (ep) : Leaves (execReplayBackoffExpiry ep s) := by
  grind only [execReplayBackoffExpiry, leaves_next, State.canonical.passUntil, State.canonical.setWindow]

theorem execAckReceived_leaves (h : s.canonical) (ep seq) : Leaves (execAckReceived ep seq s) := by
  grind only [execAckReceived, leaves_next, State.canonical.applyAcked, State.canonical.setWindow, State.canonical_iff]

theorem execEndpointDownReport_leaves (h : s.canonical) (ep) : Leaves (execEndpointDownReport ep s) := by
  grind only [execEndpointDownReport, leaves_next, State.canonical.strikeWaiters, State.canonical.abandon,
    State.canonical.notifyHart, State.canonical.putLease, State.canonical_iff, foldl_canonical]

theorem execFrameReceive_leaves (h : s.canonical) (port f) : Leaves (execFrameReceive port f s) := by
  grind only [execFrameReceive, leaves_next, State.canonical.setPort, State.canonical.reply, elim_canonical]

theorem execLinkNack_leaves (h : s.canonical) (port) : Leaves (execLinkNack port s) := by
  grind only [execLinkNack, leaves_next, State.canonical.setPort, State.canonical.strikeCargo]

theorem execKeySwitchover_leaves (h : s.canonical) (port) : Leaves (execKeySwitchover port s) := by
  grind only [execKeySwitchover, leaves_next, State.canonical.setPort, State.canonical_iff]

theorem execLinkKeyExhausted_leaves (h : s.canonical) (port) : Leaves (execLinkKeyExhausted port s) := by
  grind only [execLinkKeyExhausted, leaves_next, State.canonical.setPort, State.canonical.keysGone, foldl_canonical]

theorem execRiskUpdate_leaves (h : s.canonical) (ecc replays margin droop) : Leaves
    (execRiskUpdate ecc replays margin droop s) :=
  leaves_next ((h.withHart _).mapOthers fun _ => rfl)

theorem execFailureDetectionWindow_leaves (h : s.canonical) (failed) : Leaves (execFailureDetectionWindow failed s) := by
  grind only [execFailureDetectionWindow, leaves_next, State.canonical.writeVintage, State.canonical.notifyGroup,
    State.canonical_iff]

theorem execSpareFilled_leaves (h : s.canonical) : Leaves (execSpareFilled s) := by
  grind only [execSpareFilled, leaves_next, State.canonical.writeVintage, State.canonical.notifyGroup,
    State.canonical_iff]

theorem execPowerGood_leaves (h : s.canonical) (b) : Leaves (execPowerGood b s) := by
  grind only [execPowerGood, leaves_next, State.canonical.recover, State.canonical_iff, foldl_canonical]

theorem execAttestationRequest_leaves (h : s.canonical) (nonce) : Leaves (execAttestationRequest nonce s) := by
  grind only [execAttestationRequest, leaves_next, State.canonical_iff]

theorem execTimeBaseLost_leaves (h : s.canonical) : Leaves (execTimeBaseLost s) := by
  grind only [execTimeBaseLost, leaves_next, State.canonical_iff]

theorem execTimeBaseLock_leaves (h : s.canonical) : Leaves (execTimeBaseLock s) := by
  grind only [execTimeBaseLock, leaves_next, State.canonical_iff]

theorem execSlewLimit_leaves (h : s.canonical) (measured) : Leaves (execSlewLimit measured s) := by
  grind only [execSlewLimit, leaves_next, State.canonical.postPower]

theorem execThermal_leaves (h : s.canonical) (tenths : Nat) : Leaves (execThermal tenths s) := by
  unfold execThermal
  refine leaves_next ?_
  dsimp only
  split
  · exact h
  · split
    · exact ((h.postAll _).withHart _).mapOthers fun _ => rfl
    · split
      · split
        · exact h
        · have h' : { s with thermal := Thermal.everyDie }.canonical := h.of_same rfl rfl rfl rfl rfl rfl rfl rfl
          exact h'.postPower _
      · split
        · exact h.of_same rfl rfl rfl rfl rfl rfl rfl rfl
        · exact h

theorem execThermalLimitLift_leaves (h : s.canonical) : Leaves (execThermalLimitLift s) := by
  grind only [execThermalLimitLift, leaves_next, State.canonical_iff]

theorem execPartitionReset_leaves (h : s.canonical) : Leaves (execPartitionReset s) := by
  grind only [execPartitionReset, leaves_next, State.canonical.postAll, State.canonical.unstage, foldl_canonical]

theorem execMachineCheck_leaves (h : s.canonical) (syndrome) : Leaves (execMachineCheck syndrome s) := by
  grind only [execMachineCheck, leaves_next, State.canonical.post, State.canonical_iff]

theorem exec_leaves (h : s.canonical) (i : Instr) : Leaves (exec i s) := by
  cases i with
  | add | sub | and | or | xor | andn | orn | sll | srl | sra | slt | sltu | min | max | minu | maxu | clz | ctz | popc |
    bswap | mul | mulh | mulhu | mulhsu | addi | andi | ori | xori | slti | sltiu | slli | srli | srai | lui | auipc |
    sptl => exact h.result ..
  | div | divu | rem | remu => exact h.divide ..
  | lb | lbu | lh | lhu | lw | lwu | ld => exact h.load ..
  | sb | sh | sw | sd => exact h.store ..
  | beq | bne | blt | bge | bltu | bgeu => exact h.branch ..
  | aswap | aadd | aand | aor | axor | amin | amax | aminu | amaxu | acas => exact h.samo ..
  | wrc | setbc | clrbc => exact h.writeCr ..
  | ecall | ebreak => exact h.raise ..
  | eret => exact h.returnFromTrap ..
  | vadd | vsub | vrsub | vmul | vmulh | vmulhu | vdiv | vrem | vmin | vmax | vand | vor | vxor | vsll | vsrl | vsra |
    vsadd | vssub | vfma | vfms | vfnma | vfnms | vsgnj | vsgnjn | vsgnjx => exact h.binary ..
  | vadc | vsbc | vmadc | vmsbc => exact h.carry ..
  | vabs | vneg | vsqrt | vclass => exact h.unary ..
  | vwadd | vwmul => exact h.widen ..
  | veq | vne | vlt | vle | vgt | vge | vunord => exact h.compare ..
  | mand | mor | mxor | mandn | morn | mnot | mmv => exact h.maskAlgebra ..
  | mpop | mffs | mfls => exact h.maskToScalar ..
  | msbf | msif | mslu | msld | iota => exact h.maskWhole ..
  | vcompr | vexpand => exact h.packed ..
  | vrsum | vrosum | vrmax | vrmin | vrand | vror | vrxor => exact h.reduce ..
  | vcvt | vcvtr => exact h.cvt ..
  | vld | vlds | vldx => exact h.vload ..
  | vst | vsts | vstx => exact h.vstore ..
  | cpy | cpys | fill => exact h.copy ..
  | mark => exact h.trace ..
  | queueDescriptorWrite => exact h.modQueue ..
  | lgsetApply => exact h.stepGrants ..
  | parkResume | watermarkStallResume | scoreboardStallResume | landedBitStallResume => exact h.endStall ..
  | flushingRead => exact h.applyTo ..
  | nackReceived => exact h.nacked ..
  | migrate => exact h.migrate ..
  | lend => exact h.lend ..
  | accept => exact h.takeOffer ..
  | reclaim => exact h.reclaim ..
  | returnLease => exact h.giveBack ..
  | debugHalt | hostRequest | firmwareCall => exact h.post ..
  | matrixIdle => exact h.modCore ..
  | jal => exact execJal_leaves h ..
  | jalr => exact execJalr_leaves h ..
  | lp => exact execLp_leaves h ..
  | rdc => exact execRdc_leaves h ..
  | tlbi => exact execTlbi_leaves h ..
  | tlbia => exact execTlbia_leaves h
  | vsvall => exact execVsvall_leaves h ..
  | vrsall => exact execVrsall_leaves h ..
  | tsvall => exact execTsvall_leaves h ..
  | trsall => exact execTrsall_leaves h ..
  | rapark => exact execRapark_leaves h
  | rarestore => exact execRarestore_leaves h
  | lgset => exact execLgset_leaves h ..
  | preempt => exact execPreempt_leaves h ..
  | fenceSv sc => exact execFenceSv_leaves h sc
  | fenceVs sc => exact execFenceVs_leaves h sc
  | fenceVv sc => exact execFenceVv_leaves h sc
  | fenceA sc => exact execFenceA_leaves h sc
  | flushrd => exact execFlushrd_leaves h ..
  | svl => exact execSvl_leaves h ..
  | svt => exact execSvt_leaves h ..
  | svr => exact execSvr_leaves h ..
  | scgrp => exact execScgrp_leaves h ..
  | scop => exact execScop_leaves h ..
  | vmerge => exact execVmerge_leaves h ..
  | vmv => exact execVmv_leaves h ..
  | vid => exact execVid_leaves h ..
  | vslup => exact execVslup_leaves h ..
  | vsldn => exact execVsldn_leaves h ..
  | vslup1 => exact execVslup1_leaves h ..
  | vsldn1 => exact execVsldn1_leaves h ..
  | vrgath => exact execVrgath_leaves h ..
  | vbcast => exact execVbcast_leaves h ..
  | vmvxs => exact execVmvxs_leaves h ..
  | vmvsx => exact execVmvsx_leaves h ..
  | vext => exact execVext_leaves h ..
  | vins => exact execVins_leaves h ..
  | vrowmv => exact execVrowmv_leaves h ..
  | vqmx => exact execVqmx_leaves h ..
  | vrnsx => exact execVrnsx_leaves h ..
  | vrnsi => exact execVrnsi_leaves h ..
  | vldr => exact execVldr_leaves h ..
  | vldc => exact execVldc_leaves h ..
  | vstr => exact execVstr_leaves h ..
  | vstc => exact execVstc_leaves h ..
  | vsca => exact execVsca_leaves h ..
  | vamo => exact execVamo_leaves h ..
  | vrrs => exact execVrrs_leaves h ..
  | vrrsq => exact execVrrsq_leaves h ..
  | spti => exact execSpti_leaves h ..
  | spte => exact execSpte_leaves h ..
  | sptc => exact execSptc_leaves h ..
  | sptr => exact execSptr_leaves h ..
  | stag => exact execStag_leaves h ..
  | ltag => exact execLtag_leaves h ..
  | tld => exact execTld_leaves h ..
  | tldg => exact execTldg_leaves h ..
  | tst => exact execTst_leaves h ..
  | tclr => exact execTclr_leaves h ..
  | tmv => exact execTmv_leaves h ..
  | vmxa => exact execVmxa_leaves h ..
  | vmxs => exact execVmxs_leaves h ..
  | tout => exact execTout_leaves h ..
  | cexp => exact execCexp_leaves h ..
  | cwm => exact execCwm_leaves h ..
  | cwait => exact execCwait_leaves h ..
  | cfree => exact execCfree_leaves h ..
  | bar => exact execBar_leaves h ..
  | barr => exact execBarr_leaves h ..
  | barw => exact execBarw_leaves h ..
  | acq => exact execAcq_leaves h ..
  | rel => exact execRel_leaves h ..
  | mend => exact execMend_leaves h ..
  | stg => exact execStg_leaves h ..
  | gjoin => exact execGjoin_leaves h ..
  | gleave => exact execGleave_leaves h ..
  | qarr => exact execQarr_leaves h ..
  | qwait => exact execQwait_leaves h ..
  | qjoin => exact execQjoin_leaves h ..
  | qleave => exact execQleave_leaves h ..
  | qread => exact execQread_leaves h ..
  | enq => exact execEnq_leaves h ..
  | recv => exact execRecv_leaves h ..
  | qpoll => exact execQpoll_leaves h ..
  | wake => exact execWake_leaves h ..
  | farm => exact execFarm_leaves h ..
  | strip => exact execStrip_leaves h ..
  | sdone => exact execSdone_leaves h ..
  | farmw => exact execFarmw_leaves h ..
  | lcrs => exact execLcrs_leaves h ..
  | vlWrite => exact execVlWrite_leaves h ..
  | vrowWrite => exact execVrowWrite_leaves h ..
  | vtypeWrite => exact execVtypeWrite_leaves h ..
  | vstartWrite => exact execVstartWrite_leaves h ..
  | frmWrite => exact execFrmWrite_leaves h ..
  | srseedWrite => exact execSrseedWrite_leaves h ..
  | maxwaitWrite => exact execMaxwaitWrite_leaves h ..
  | statusWrite => exact execStatusWrite_leaves h ..
  | tvecWrite => exact execTvecWrite_leaves h ..
  | asidWrite => exact execAsidWrite_leaves h ..
  | ptbWrite => exact execPtbWrite_leaves h ..
  | sliceWrite => exact execSliceWrite_leaves h ..
  | preemptWrite => exact execPreemptWrite_leaves h ..
  | staggerWrite => exact execStaggerWrite_leaves h ..
  | riskthrWrite => exact execRiskthrWrite_leaves h ..
  | taghistWrite => exact execTaghistWrite_leaves h ..
  | loopRegisterWrite => exact execLoopRegisterWrite_leaves h ..
  | wakeRegister => exact execWakeRegister_leaves h ..
  | launch => exact execLaunch_leaves h ..
  | commandScan => exact execCommandScan_leaves h ..
  | hartEnd => exact execHartEnd_leaves h
  | launchCompletion => exact execLaunchCompletion_leaves h ..
  | commresGrow => exact execCommresGrow_leaves h
  | commresShrink => exact execCommresShrink_leaves h
  | energyCharge => exact execEnergyCharge_leaves h ..
  | accountingPeriodBoundary => exact execAccountingPeriodBoundary_leaves h ..
  | asyncCauseTaken => exact execAsyncCauseTaken_leaves h ..
  | preemptRequest => exact execPreemptRequest_leaves h ..
  | timeSlice => exact execTimeSlice_leaves h
  | waitExpiredImplicit => exact execWaitExpiredImplicit_leaves h
  | storeBufferDrain => exact execStoreBufferDrain_leaves h ..
  | storeApply => exact execStoreApply_leaves h ..
  | flushAnswer => exact execFlushAnswer_leaves h ..
  | flushTimeout => exact execFlushTimeout_leaves h ..
  | trainElement => exact execTrainElement_leaves h ..
  | trainAck => exact execTrainAck_leaves h ..
  | responseArrival => exact execResponseArrival_leaves h ..
  | redirectedResponse => exact execRedirectedResponse_leaves h ..
  | caskAnswerArrival => exact execCaskAnswerArrival_leaves h ..
  | closureRecordArrival => exact execClosureRecordArrival_leaves h ..
  | roundClosure => exact execRoundClosure_leaves h ..
  | staggeredCompletion => exact execStaggeredCompletion_leaves h
  | homeWaitDeadline => exact execHomeWaitDeadline_leaves h ..
  | waitDeadlineAtHart => exact execWaitDeadlineAtHart_leaves h
  | stripClaimExpiry => exact execStripClaimExpiry_leaves h ..
  | copyPerform => exact execCopyPerform_leaves h ..
  | copyDataLands => exact execCopyDataLands_leaves h ..
  | copyRetire => exact execCopyRetire_leaves h ..
  | replayBackoffExpiry => exact execReplayBackoffExpiry_leaves h ..
  | ackReceived => exact execAckReceived_leaves h ..
  | endpointDownReport => exact execEndpointDownReport_leaves h ..
  | flitArrival => exact execFlitArrival_leaves h ..
  | ageBoundExceeded => exact execAgeBoundExceeded_leaves h ..
  | injectionPriority => exact execInjectionPriority_leaves h ..
  | injectionStarved => exact execInjectionStarved_leaves h ..
  | injthrWindow => exact execInjthrWindow_leaves h ..
  | frameReceive => exact execFrameReceive_leaves h ..
  | linkNack => exact execLinkNack_leaves h ..
  | keySwitchover => exact execKeySwitchover_leaves h ..
  | linkKeyExhausted => exact execLinkKeyExhausted_leaves h ..
  | migrationDone => exact execMigrationDone_leaves h ..
  | leaseOfferExpiry => exact execLeaseOfferExpiry_leaves h ..
  | rackGranuleMove => exact execRackGranuleMove_leaves h ..
  | riskUpdate => exact execRiskUpdate_leaves h ..
  | failureDetectionWindow => exact execFailureDetectionWindow_leaves h ..
  | spareFilled => exact execSpareFilled_leaves h
  | lcrOverflow => exact execLcrOverflow_leaves h
  | traceSample => exact execTraceSample_leaves h
  | powerGood => exact execPowerGood_leaves h ..
  | attestationRequest => exact execAttestationRequest_leaves h ..
  | timeBaseLost => exact execTimeBaseLost_leaves h
  | slewLimit => exact execSlewLimit_leaves h ..
  | thermal => exact execThermal_leaves h ..
  | thermalLimitLift => exact execThermalLimitLift_leaves h
  | partitionReset => exact execPartitionReset_leaves h
  | machineCheck => exact execMachineCheck_leaves h ..
  | caskRequest => exact execCaskRequest_leaves h ..
  | readRequest => exact execReadRequest_leaves h ..
  | atomicRequest => exact execAtomicRequest_leaves h ..
  | timeBaseLock => exact execTimeBaseLock_leaves h

end Sys2Proof.Machine
end

section
/-! SUPPORT. No convoy, no turn and no move leaves the canonical form. -/

namespace Sys2Proof.Machine

variable {s : State}

/-! ### Convoys -/

/-- The state that an attempt ends in is canonical. -/
def Attempt.canonical : Attempt → Prop
  | .done t | .waits t _ | .stop t .. => t.canonical
  | .trim _ => True

def Outcome.canonical : Outcome → Prop
  | .completes t _ | .waits t .. | .stops t .. => t.canonical

theorem memberEnd_canonical (h : s.canonical) (t : State) (late : Bool) (a : Attempt) (ha : memberEnd t s late = some a) :
    a.canonical := by
  unfold memberEnd at ha
  dsimp only at ha
  split at ha
  · cases ha
    exact h
  · split at ha
    · cases ha
    · cases ha
      trivial

section
variable {ex : Exec} (hex : ∀ i t, t.canonical → (runOn ex i t).canonical)
include hex

theorem runMember_canonical (h : s.canonical) (s0 : State) (f : Fetched) : (runMember ex s0 f s).canonical := hex _ _ h

theorem runLate_canonical (s0 : State) (l : List (Fetched × State)) (h : s.canonical) :
    (runLate ex s0 l s).canonical := by
  induction l generalizing s with
  | nil => exact h
  | cons p fs ih =>
    obtain ⟨f, at_⟩ := p
    unfold runLate
    dsimp only
    have hu := fun x => (runMember_canonical hex (h.withHart x) s0 f).withHart
    split
    · next e he => exact memberEnd_canonical (hu _ _) _ _ _ he
    · exact ih (hu _ _)

theorem runMembers_canonical (s0 : State) (whole : Results) (stops : Bool) (fs : List Fetched)
    (later : List (Fetched × State))
    (h : s.canonical) : (runMembers ex s0 whole stops fs later s).canonical := by
  induction fs generalizing s later with
  | nil =>
    unfold runMembers
    split
    · exact h
    · dsimp only
      split
      · exact runLate_canonical hex s0 _ h.ackTrains
      · exact h.ackTrains
  | cons f fs ih =>
    have ht := runMember_canonical hex h s0 f
    unfold runMembers
    split
    · exact ih _ h
    · split
      · exact ih _ h
      · split
        · exact ih _ (h.adopt ..)
        · dsimp only
          split
          · next e he => exact memberEnd_canonical ht _ _ _ he
          · refine ih _ ?_
            split
            · exact ht.keepResults ..
            · exact ht

theorem attempts_canonical (s0 : State) (c : Convoy) (ms : List Fetched) (whole : Results) (n : Nat) (stop : Option Found)
    (trim : Option Nat) (h : s0.canonical) : (attempts ex s0 c ms whole n stop trim).canonical := by
  have found : ∀ {stop : Option Found} {t : State} {tr : Option Nat}, t.canonical →
      (stop.elim (.completes t tr) fun q => q.outcome t : Outcome).canonical := by
    intro stop t tr ht
    cases stop with
    | none => exact ht
    | some q => exact ht.keepFinding ..
  induction n generalizing stop trim with
  | zero => exact found h
  | succ n ih =>
    have hm := runMembers_canonical hex s0 (if stop.isSome then whole else []) stop.isSome ms [] (s := s0.opened c (stop.map (·.1)) trim) h
    unfold attempts
    dsimp only
    split
    · next e => rw [e] at hm; exact found hm
    · next e => rw [e] at hm; exact hm
    · exact ih _ _
    · next e =>
      rw [e] at hm
      split
      · exact hm
      · split
        · exact found h
        · exact ih _ _

theorem closeConvoy_canonical (h : s.canonical) (un : Option Undo) (trim : Option Nat) (fs : List Fetched) :
    (s.closeConvoy ex un trim fs).canonical := by
  unfold State.closeConvoy
  dsimp only
  split
  · exact h
  · split
    · exact hex _ _ h
    · exact h

theorem runConvoy_canonical (h : s.canonical) (fs : List Fetched) (split : Option Trap) (cut : Option (Nat × Trap))
    (outstanding : Nat) : (runConvoy ex s fs split cut outstanding).canonical := by
  unfold runConvoy
  dsimp only
  split
  · exact h.stopConvoy ..
  · generalize hsec : (if s.hart.secured = [] then _ else _ : List (Nat × Nat × Nat)) = secured
    have hs : { s with hart.secured := secured }.canonical := h
    split
    · exact (hs.keepFinding ..).stopConvoy ..
    · next rs _ =>
      generalize hc : (Convoy.mk ..) = c
      have ha := attempts_canonical hex { s with hart.secured := secured } c (fs.filter fun f => f.instr.kind.vector) rs
        (State.fuel { s with hart.secured := secured }) (cut.map fun q => (q.1, .trap q.2, { s with hart.secured := secured })) none hs
      split
      · next e => rw [e] at ha; exact closeConvoy_canonical hex ha ..
      · next e => rw [e] at ha; exact ha.noteResults _
      · next e =>
        rw [e] at ha
        split
        · split
          · exact hs.stopConvoy ..
          · exact (ha.noteResults _).stopConvoy ..
        · exact (ha.noteResults _).stopConvoy ..

theorem redoConvoy_canonical (h : s.canonical) (st : Stall) (un : Undo) (fs : List Fetched) (p : Nat) (cause : Trap) :
    (s.redoConvoy ex st un fs p cause).canonical := by
  have h0 : (s.loosen.restore un fs).canonical := h.loosen
  have land : ∀ (t : State) (p : Nat) (cause : Trap), t.canonical →
      (((((t.landStop (t.hart.cv.elim [] (·.toLand))).atStop (s.loosen.restore un fs) p none).unpost cause).loosen).enterTrap cause
        (s.loosen.restore un fs).hart.pc (decide (st.start < p) || st.committed)).canonical := by
    intro t p cause ht
    have hu : ((t.landStop (t.hart.cv.elim [] (·.toLand))).atStop (s.loosen.restore un fs) p none).canonical := ht.landStop _
    exact ((hu.unpost _).loosen).enterTrap ..
  have ha := attempts_canonical hex (s.loosen.restore un fs)
    { head := s.hart.pc, start := st.start, committed := st.committed, sent := true }
    (fs.filter fun f => f.instr.kind.vector) [] (s.loosen.restore un fs).fuel
    (some (p, .trap cause, s.loosen.restore un fs)) un.trim h0
  unfold State.redoConvoy
  dsimp only
  split
  all_goals
    next e =>
      rw [e] at ha
      exact land _ _ _ ha

theorem finishSent_canonical (h : s.canonical) (st : Stall) (un : Undo) (fs : List Fetched) :
    (s.finishSent ex st un fs).canonical := by
  unfold State.finishSent
  dsimp only
  generalize hl : lateOrder _ = l
  generalize hc : (Convoy.mk ..) = c
  have hr := runLate_canonical hex { s with hart.srseed := un.srseed, hart.vl := un.vl } l (s := { s with hart.cv := some c }) h
  split
  · next e => rw [e] at hr; exact closeConvoy_canonical hex hr ..
  · next e => rw [e] at hr; exact State.canonical.stopConvoy hr ..
  · next e => rw [e] at hr; exact closeConvoy_canonical hex hr ..
  · exact closeConvoy_canonical hex h ..

theorem sentTurn_canonical (h : s.canonical) (st : Stall) (un : Undo) (fs : List Fetched) :
    (s.sentTurn ex st un fs).canonical := by
  have hu := h.ackTrains
  unfold State.sentTurn
  dsimp only
  split
  · exact redoConvoy_canonical hex hu ..
  · split
    · split
      · exact redoConvoy_canonical hex hu ..
      · exact hu
    · split
      · next p cause _ => exact State.canonical.enterTrap (s := { s.ackTrains.unpost cause with hart.vstart := p }) (hu.unpost cause) ..
      · exact finishSent_canonical hex hu ..

omit hex in
theorem countStep_canonical (h : s.canonical) (t : State) (ms : List Fetched) (hi : Option Nat) :
    (s.countStep ex t ms hi).canonical := by
  unfold State.countStep
  split <;> exact h

theorem runFetched_canonical (h : s.canonical) (fs : List Fetched) (split : Option Trap) (cut : Option (Nat × Trap))
    (outstanding : Nat) : (s.runFetched ex fs split cut outstanding).canonical := by
  unfold State.runFetched
  split
  · split
    · exact sentTurn_canonical hex h ..
    · exact runConvoy_canonical hex h ..
  · exact h.drainSplit ..
  · split
    · exact hex _ _ h
    · exact runConvoy_canonical hex h ..

/-! ### Turns -/

theorem convoyTurn_canonical (h : s.canonical) (split : Option Trap) (cut : Option (Nat × Trap)) (outstanding : Nat) :
    (s.convoyTurn ex split cut outstanding).1.canonical := by
  unfold State.convoyTurn
  split
  · next e => exact State.canonical.halt (((fetchConvoy_keeps h _).left e).withHart _) _
  · next ws u e =>
    have hu := ((fetchConvoy_keeps h _).left e).withHart { u.hart with words := min 8 (max 1 ws.length) }
    extract_lets src u' hit v
    have hv : v.canonical := by
      unfold v
      split
      · exact State.canonical.post hu ..
      · exact hu
    split
    · split
      · exact hv.settleOwn
      · exact hv.settleOwn.takeAsync _
    · split
      · exact hv.raise _
      · split
        · exact hv
        · exact (runFetched_canonical hex (hv.openLoad _) ..).finish ..

theorem boundaryTurn_canonical (h : s.canonical) : (s.boundaryTurn ex).1.canonical := by
  unfold State.boundaryTurn
  extract_lets _ vec _ cut go u
  have hu : u.canonical := by
    unfold u
    split
    · exact h.settleOwn
    · split
      · exact h.ackTrains.landOwn
      · exact h
  split
  · exact hu.holdBoundary ..
  · clear_value go cut
    split
    · exact State.canonical.landAsync (hu.withHart _) _
    · exact convoyTurn_canonical hex (hu.passBoundary _) ..
    · exact convoyTurn_canonical hex (hu.passBoundary _) ..

theorem runningTurn_canonical (h : s.canonical) : (s.runningTurn ex).1.canonical := by
  unfold State.runningTurn
  dsimp only
  split
  · split
    · exact h.landAsync _
    · exact convoyTurn_canonical hex h ..
  · split
    · exact convoyTurn_canonical hex h ..
    · split
      · exact boundaryTurn_canonical hex h
      · split
        · exact h.landAsync _
        · exact convoyTurn_canonical hex h ..
  · exact boundaryTurn_canonical hex h

theorem turn_canonical (h : s.canonical) : (s.turn ex).1.canonical := by
  unfold State.turn
  split
  · exact h
  · exact h
  · extract_lets u
    have hu : u.canonical := by
      refine State.canonical.keepUp ?_
      split
      · exact h.engine
      · exact h
    split
    · exact hu.settleOwn.hartEnd
    · exact runningTurn_canonical hex hu

theorem takeTurn_canonical (h : s.canonical) : (s.takeTurn ex).canonical := by
  have ht := turn_canonical hex h
  unfold State.takeTurn
  split
  all_goals
    next e =>
      rw [e] at ht
      exact countStep_canonical ht ..

theorem perform_canonical (h : s.canonical) (m : Move) : (s.perform ex m).canonical := by
  unfold State.perform
  split
  · dsimp only
    split
    · split
      · exact (hex _ _ h).finish ..
      · exact hex _ _ h
    · exact h
  · split
    · exact (takeTurn_canonical hex (h.switchTo _)).switchTo _
    · exact h
  · exact h.withHart _
  · exact h.cacheLeaf _
  · exact h.of_same rfl rfl rfl rfl rfl rfl rfl rfl
  · exact h.serveEngine
  · exact h.allot _
  · exact h.askInject ..
  · split
    · exact h.switchTo _
    · exact h
  · exact h.withHart _
  · exact h.pass _
  · exact h.apply _

theorem stepWith_leaves (h : s.canonical) : Leaves (stepWith ex s) := by
  unfold stepWith
  split
  · trivial
  · split
    · next m rest _ =>
      have hs : { s with agenda := rest }.canonical := h.of_same rfl rfl rfl rfl rfl rfl rfl rfl
      exact perform_canonical hex hs m
    · exact (takeTurn_canonical hex h).lapse
end

theorem runOn_exec_canonical (i : Instr) (t : State) (h : t.canonical) : (runOn exec i t).canonical := by
  have hl := exec_leaves h i
  unfold runOn
  split
  · next e => rwa [e] at hl
  · exact h

/-- Settles O4: each operation of the model writes the memories and the tables through operations that keep their form. -/
theorem stepKeepsCanonical : Obligations.StepKeepsCanonical := by
  intro s t h hst
  have hl := stepWith_leaves runOn_exec_canonical h
  rw [show stepWith exec s = .next t from hst] at hl
  exact hl

end Sys2Proof.Machine
end

section
/-! SUPPORT. Computations one step at a time. -/

namespace Sys2Proof.Machine

section
variable {α β : Type} {s t : State}

theorem M.go_get_bind (f : State → M α) : (get >>= f).go s = (f s).go s := rfl

theorem M.go_modify_bind (g : State → State) (f : PUnit → M α) : (modify g >>= f).go s = (f ⟨⟩).go (g s) := rfl

theorem M.go_set_bind (f : PUnit → M α) : (set t >>= f).go s = (f ⟨⟩).go t := rfl

theorem M.go_bind_ok {m : M β} {b : β} (f : β → M α) (h : m.go s = (.ok b, t)) : (m >>= f).go s = (f b).go t := by
  simp [h]

theorem M.go_bind_error {m : M β} {e : Halt} (f : β → M α) (h : m.go s = (.error e, t)) : (m >>= f).go s = (.error e, t) := by
  simp [h]

theorem M.go_check_pass {ok : Bool} (e : Halt) (f : Unit → M α) (h : ok = true) : (checkM ok e >>= f).go s = (f ()).go s := by
  simp [h]

theorem M.go_check_fail {ok : Bool} (e : Halt) (f : Unit → M α) (h : ok = false) : (checkM ok e >>= f).go s = (.error e, s) := by
  simp [h]

/-- A sequence that gives a result: its first part gives one, and the second goes on from there. -/
theorem M.bind_ok {m : M β} {f : β → M α} {a : α} (h : (m >>= f).go s = (.ok a, t)) :
    ∃ b u, m.go s = (.ok b, u) ∧ (f b).go u = (.ok a, t) := by
  rw [M.go_bind] at h
  split at h
  · next b u e => exact ⟨b, u, e, h⟩
  · cases h

end

end Sys2Proof.Machine
end

section
/-! SUPPORT. The checks of a pointer: alignment, translation, scratchpad addresses (R56, R59, R67, R360, R361). -/

namespace Sys2Proof.Machine

/-! ### Pointers (R56, R67) -/

/-- A pointer that is not aligned stops the access before anything else (R67, R343). -/
theorem resolve_misaligned (s : State) (c : Ctx) (k : Acc) (p : Word) (n al : Nat) (way : Way) (h : p.toNat % al ≠ 0) :
    (resolve c k p n al way).go s = (.error (.trap ⟨cMisaligned, p, 0⟩), s) := by
  simp [resolve, h]

theorem State.load_misaligned (s : State) (d a : SReg) (i : BitVec 12) (n : Nat) (sx : Bool)
    (h : (s.pointer a i).toNat % n ≠ 0) : s.load d a i n sx = s.raise ⟨cMisaligned, s.pointer a i, 0⟩ :=
  State.runM_trap _ _ _ _ _ (by simp [scalarPlace, resolve_misaligned _ _ _ _ _ _ _ h])

theorem State.store_misaligned (s : State) (r a : SReg) (i : BitVec 12) (n : Nat) (h : (s.pointer a i).toNat % n ≠ 0) :
    s.store r a i n = s.raise ⟨cMisaligned, s.pointer a i, 0⟩ :=
  State.runM_trap _ _ _ _ _ (by simp [scalarStore, resolve_misaligned _ _ _ _ _ _ _ h])

theorem State.samo_misaligned (s : State) (d a b : SReg) (w : Bool) (sc : Scope) (op : AtomicOp)
    (h : (s.x a).toNat % (if w then 8 else 4) ≠ 0) : s.samo d a b w sc .none op = s.raise ⟨cMisaligned, s.x a, 0⟩ :=
  State.runM_trap _ _ _ _ _ (by simp [scalarAtomic, Order.releases, resolve_misaligned _ _ _ _ _ _ _ h])

/-! ### Translation (R360, R361) -/

theorem translate_off_ok (s : State) (k : Acc) (va : Nat) (hen : bitOf s.hart.ptb 0 = false) (hva : va < 2 ^ 44) :
    (translate s.ctx k va).go s = (.ok (s.endpt.toNat * 2 ^ 44 + va, false), s) := by
  have hoff : bitOf s.ctx.ptb 0 = false := hen
  rw [translate, M.go_get_bind, hoff, if_neg Bool.false_ne_true, M.go_check_pass _ _ (decide_eq_true hva), M.go_pure, paOf,
    Nat.mod_eq_of_lt hva]

theorem translate_off_beyond (s : State) (k : Acc) (va : Nat) (hen : bitOf s.hart.ptb 0 = false) (hva : 2 ^ 44 ≤ va) :
    (translate s.ctx k va).go s = (.error (.trap ⟨k.accessCause, word va, 0⟩), s) := by
  have hoff : bitOf s.ctx.ptb 0 = false := hen
  rw [translate, M.go_get_bind, hoff, if_neg Bool.false_ne_true, M.go_check_fail _ _ (decide_eq_false (Nat.not_lt.mpr hva))]

/-- With no translation cached, translation walks from the root table (R360). -/
theorem translate_walks (s : State) (k : Acc) (va : Nat) (hen : bitOf s.hart.ptb 0 = true)
    (hc : s.cachedFor s.ctx k va = none) :
    (translate s.ctx k va).go s = (walk s.ctx k va 2 (bits s.hart.ptb 56 16 * 65536)).go s := by
  have hon : bitOf s.ctx.ptb 0 = true := hen
  rw [translate, M.go_get_bind, hon, if_pos rfl, hc]
  rfl

theorem walk_elsewhere (s : State) (c : Ctx) (k : Acc) (va level base : Nat) (h : epOf base ≠ s.endpt) :
    (walk c k va level base).go s = (.error (.trap ⟨k.accessCause, word va, 0⟩), s) := by
  rw [walk, M.go_get_bind, M.go_check_fail _ _ (by simp [h])]

/-- Where a walk finds its entry of a table (R360). -/
def tableEntry (va level base : Nat) : Nat := base + va / 2 ^ (16 + 13 * level) % 8192 * 8

/-- An entry that is not valid, or whose reserved bits are not 0, is a page fault; all that the walk leaves is what it has
learnt of tagged pages. -/
theorem walk_notValid (s : State) (c : Ctx) (k : Acc) (va level base : Nat) (hep : epOf base = s.endpt)
    (hb : s.backed (offOf base) = true) (hbad : s.isBad (.glob (tableEntry va level base)) 8 = false)
    (he : (bit (s.home64 (.glob (tableEntry va level base))) 0
      && decide (field (s.home64 (.glob (tableEntry va level base))) 15 13 = 0)) = false) :
    (walk c k va level base).go s
      = (.error (.trap ⟨k.pageCause, word va, 0⟩), s.dropTagged (tableEntry va level base)) := by
  rw [walk, M.go_get_bind, M.go_check_pass _ _ (by simp [hep, hb])]
  dsimp only
  rw [M.go_check_pass _ _ (by rw [← tableEntry, hbad]; rfl), M.go_modify_bind]
  exact M.go_check_fail _ _ he

/-! ### Scratchpad pointers (R59, R62) -/

/-- A scratchpad pointer that names the hart's own core. -/
theorem ownScratch_bits (o : Nat) (ho : o < 2 ^ 21) :
    (word (2 ^ 63 + 15 * 2 ^ 21 + o)).toNat = 2 ^ 63 + 15 * 2 ^ 21 + o := by
  simp only [word, BitVec.toNat_ofNat]
  omega

theorem scratch_own (s : State) (hart o n : Nat) (tv : Word) (ho : o < 2 ^ 21)
    (hcore : s.part.cores.contains (hart / 4) = true) :
    (scratch hart (15 * 2 ^ 21 + o) n tv).go s
      = (if o + n ≤ 0x180000 then .ok (.spad (hart / 4) o) else .error (.trap ⟨cScratchRange, tv, 0⟩), s) := by
  have hf : (15 * 2 ^ 21 + o) / 2 ^ 21 % 16 = 15 := by omega
  have hr : (15 * 2 ^ 21 + o) % 2 ^ 21 = o := by omega
  rw [scratch, M.go_get_bind]
  simp only [hf, hr, if_true]
  rw [M.go_check_pass _ _ (by simpa using hcore)]
  split
  · next h => rw [M.go_check_pass _ _ (decide_eq_true h), M.go_pure]
  · next h => rw [M.go_check_fail _ _ (decide_eq_false h)]

theorem resolve_ownScratch (s : State) (k : Acc) (o n : Nat) (way : Way) (ho : o < 2 ^ 21) (hk : k ≠ .fetch)
    (hcore : s.part.cores.contains (s.hart.id / 4) = true) (hal : (2 ^ 63 + 15 * 2 ^ 21 + o) % n = 0) :
    (resolve s.ctx k (word (2 ^ 63 + 15 * 2 ^ 21 + o)) n n way).go s
      = (if o + n ≤ 0x180000 then .ok ⟨.spad (s.hart.id / 4) o, word (15 * 2 ^ 21 + o), false, 0⟩
          else .error (.trap ⟨cScratchRange, word (15 * 2 ^ 21 + o), 0⟩), s) := by
  have hn := ownScratch_bits o ho
  have hform : bitOf (word (2 ^ 63 + 15 * 2 ^ 21 + o)) 63 = true := by
    rw [bitOf_eq_getLsbD, BitVec.getLsbD, hn, Nat.testBit_eq_decide_div_mod_eq]
    exact decide_eq_true (by omega)
  have hhigh : bits (word (2 ^ 63 + 15 * 2 ^ 21 + o)) 62 25 = 0 := by
    rw [bits, hn]
    omega
  have hlow : bits (word (2 ^ 63 + 15 * 2 ^ 21 + o)) 24 0 = 15 * 2 ^ 21 + o := by
    rw [bits, hn]
    omega
  rw [resolve, M.go_check_pass _ _ (decide_eq_true (by rwa [hn])), hform, if_pos rfl, M.go_check_pass _ _ (decide_eq_true hhigh),
    M.go_check_pass _ _ (decide_eq_true hk)]
  dsimp only
  have hs := scratch_own s s.hart.id o n (word (15 * 2 ^ 21 + o)) ho hcore
  rw [hlow]
  by_cases h : o + n ≤ 0x180000
  · rw [if_pos h] at hs ⊢
    exact M.go_bind_ok _ hs
  · rw [if_neg h] at hs ⊢
    exact M.go_bind_error _ hs

/-- Settles O21. -/
theorem addressChecks : Obligations.AddressChecks := by
  refine ⟨fun s d a b imm wide sc => ⟨fun i hi hmis => ?_, fun hmis => ?_⟩, fun s k va => ⟨?_, ?_, ?_⟩, ?_, ?_⟩
  · have loads (n : Nat) (sx : Bool) (h : (s.pointer a imm).toNat % n ≠ 0) :
        s.traps (s.load d a imm n sx) 22 (s.pointer a imm) 0 := s.load_misaligned d a imm n sx h ▸ s.raise_traps _ _ _
    have stores (n : Nat) (h : (s.pointer a imm).toNat % n ≠ 0) : s.traps (s.store d a imm n) 22 (s.pointer a imm) 0 :=
      s.store_misaligned d a imm n h ▸ s.raise_traps _ _ _
    simp only [List.mem_cons, List.not_mem_nil, or_false] at hi
    rcases hi with rfl | rfl | rfl | rfl | rfl | rfl | rfl | rfl
    · exact ⟨_, rfl, loads 2 true hmis⟩
    · exact ⟨_, rfl, loads 2 false hmis⟩
    · exact ⟨_, rfl, stores 2 hmis⟩
    · exact ⟨_, rfl, loads 4 true hmis⟩
    · exact ⟨_, rfl, loads 4 false hmis⟩
    · exact ⟨_, rfl, stores 4 hmis⟩
    · exact ⟨_, rfl, loads 8 false hmis⟩
    · exact ⟨_, rfl, stores 8 hmis⟩
  · exact ⟨_, rfl, s.samo_misaligned d a b wide sc .add hmis ▸ s.raise_traps _ _ _⟩
  · exact translate_off_ok s k va
  · exact translate_off_beyond s k va
  · intro hen hc hep
    rw [translate_walks s k va hen hc, walk_elsewhere s _ k va _ _ hep]
  · intro s k va root at_ e hen hc hep hb hbad he
    refine ⟨s.dropTagged at_, ?_, rfl⟩
    have hv : (bit e 0 && decide (field e 15 13 = 0)) = false := by
      rw [Bool.and_eq_false_iff, decide_eq_false_iff_not]
      simpa [bit, field] using he
    rw [translate_walks s k va hen hc, walk_notValid s _ k va 2 root hep hb hbad hv]
    cases k <;> rfl
  · intro s k o n way ho _ hk hcore p hal
    have hr := resolve_ownScratch s k o n way ho hk hcore hal
    exact ⟨fun hin => by rw [hr, if_pos hin], fun hout => by rw [hr, if_neg (Nat.not_le.mpr hout)]⟩

end Sys2Proof.Machine
end

section
/-! SUPPORT. Where an element access goes (R56, R57, R225, R226). -/

namespace Sys2Proof.Machine

/-! ### Home addresses (R359, R361) -/

theorem offOf_paOf (ep : Endpoint) (off : Nat) (h : off < 2 ^ 44) : offOf (ep.toNat * 2 ^ 44 + off) = off := by
  simp only [offOf]
  omega

theorem epOf_paOf (ep : Endpoint) (off : Nat) (h : off < 2 ^ 44) : epOf (ep.toNat * 2 ^ 44 + off) = ep := by
  apply BitVec.eq_of_toNat_eq
  simp only [epOf, BitVec.toNat_ofNat]
  omega

/-- A byte of the hart's own endpoint, within the partition's bounds, can be reached (R361, R434). -/
theorem reachable_own (s : State) (k : Acc) (off : Nat) (va : Word) (way : Way) (h : off < 2 ^ 44)
    (hb : s.backed off = true) (hr : holds s.part.regions off = true) :
    (reachable k (s.endpt.toNat * 2 ^ 44 + off) va way).go s = (.ok (), s) := by
  rw [reachable, M.go_get_bind, epOf_paOf _ _ h, offOf_paOf _ _ h]
  dsimp only
  rw [if_pos rfl, M.go_checkM, hb, hr]
  rfl

/-- With translation off, a pointer below 2^44 names its offset on the hart's own endpoint (R361). -/
theorem resolveVirtual_own (s : State) (k : Acc) (p : Word) (way : Way) (hp : p.toNat < 2 ^ 44)
    (hen : bitOf s.hart.ptb 0 = false) (hb : s.backed p.toNat = true) (hr : holds s.part.regions p.toNat = true) :
    (resolveVirtual s.ctx k p way).go s = (.ok ⟨.glob (s.endpt.toNat * 2 ^ 44 + p.toNat), p, false, 0⟩, s) := by
  have hform : bits p 63 59 = 0 := by
    rw [bits]
    omega
  have hva : bits p 54 0 = p.toNat := by
    rw [bits]
    omega
  have hkey : bits p 58 55 = 0 := by
    rw [bits]
    omega
  have hword : word p.toNat = p := by
    rw [word_toNat]
    simp
  rw [resolveVirtual, M.go_check_pass _ _ (decide_eq_true hform), hva, hkey]
  dsimp only
  rw [hword, M.go_bind_ok _ (translate_off_ok s k _ hen hp), M.go_bind_ok _ (reachable_own s k _ p way hp hb hr), M.go_pure]

theorem watch_none (s : State) (q : Phys) (n : Nat) (hd : s.hart.dcmp = []) : (watch q n).go s = (.ok (), s) := by
  have unchanged : ∀ hits : List (Word × Word), hits = [] →
      { s with hart.watched := s.hart.watched ++ hits.filter fun x => !s.hart.watched.contains x } = s := by
    rintro _ rfl
    rw [List.filter_nil, List.append_nil]
  exact congrArg (Except.ok (), ·) (unchanged _ (by rw [hd]; rfl))

/-- An access to an untagged page, with no copy in flight and no comparator set, meets nothing more (R66, R78, R426). -/
theorem allow_untagged (s : State) (k : Acc) (pa : Nat) (p : Word) (n key : Nat) (hcopies : s.copies = [])
    (hd : s.hart.dcmp = []) : (allow s.ctx k ⟨.glob pa, p, false, key⟩ n).go s = (.ok (), s) := by
  have htag : (tagCheck s.ctx ⟨.glob pa, p, false, key⟩ n).go s = (.ok (), s) := by
    simp [tagCheck]
  have hcopy : (copyCheck s.ctx k.isStore ⟨.glob pa, p, false, key⟩ n).go s = (.ok (), s) := by
    simp [copyCheck, copyStop, hcopies]
  rw [allow, M.go_bind_ok _ htag, M.go_bind_ok _ hcopy, watch_none _ _ _ hd]

theorem vectorData_good (s : State) (q : Phys) (n : Nat) (h : s.isBad q.loc n = false) :
    (vectorData q n).go s = (.ok (), s) := by
  simp [vectorData, State.badBut, h]

/-! ### Element accesses (R226) -/

section
variable (s : State) (k : Acc) (a : SReg) (n : Nat) (off laneOff : Int) (lane : Nat)

theorem spotAt_global_misaligned (h : (s.x a + wordI off).toNat % n ≠ 0) :
    (spotAt k .global a n off lane laneOff).go s = (.error (.trap ⟨cMisaligned, s.x a + wordI off, 0⟩), s) := by
  rw [spotAt, M.go_get_bind]
  exact M.go_check_fail _ _ (decide_eq_false h)

theorem spotAt_global_own (h : (s.x a + wordI off).toNat % n = 0) (hp : (s.x a + wordI off).toNat < 2 ^ 44)
    (hen : bitOf s.hart.ptb 0 = false) (hb : s.backed (s.x a + wordI off).toNat = true)
    (hr : holds s.part.regions (s.x a + wordI off).toNat = true) (hcopies : s.copies = []) (hd : s.hart.dcmp = [])
    (hgood : k.reads = true → s.isBad (.glob (s.endpt.toNat * 2 ^ 44 + (s.x a + wordI off).toNat)) n = false) :
    (spotAt k .global a n off lane laneOff).go s
      = (.ok (.home ⟨.glob (s.endpt.toNat * 2 ^ 44 + (s.x a + wordI off).toNat), s.x a + wordI off, false, 0⟩), s) := by
  rw [spotAt, M.go_get_bind]
  dsimp only
  rw [M.go_check_pass _ _ (decide_eq_true h), M.go_bind_ok _ (resolveVirtual_own s k _ _ hp hen hb hr),
    M.go_bind_ok _ (allow_untagged s k _ _ n 0 hcopies hd)]
  split
  · next hk => rw [M.go_bind_ok _ (vectorData_good s _ n (hgood hk)), M.go_pure]
  · rfl

theorem spotAt_spad_misaligned (h : ((bits (s.x a) 24 0 : Int) + off) % n ≠ 0) :
    (spotAt k .spad a n off lane laneOff).go s
      = (.error (.trap ⟨cMisaligned, wordI ((bits (s.x a) 24 0 : Int) + off), 0⟩), s) := by
  rw [spotAt, M.go_get_bind]
  exact M.go_check_fail _ _ (decide_eq_false h)

theorem spotAt_lane_misaligned (h : (s.x a + wordI laneOff).toNat % n ≠ 0) :
    (spotAt k .lane a n off lane laneOff).go s = (.error (.trap ⟨cMisaligned, s.x a + wordI laneOff, 0⟩), s) := by
  rw [spotAt, M.go_get_bind]
  exact M.go_check_fail _ _ (decide_eq_false h)

theorem spotAt_lane (h : (s.x a + wordI laneOff).toNat % n = 0) :
    (spotAt k .lane a n off lane laneOff).go s
      = (if (s.x a + wordI laneOff).toNat + n ≤ 0x2000 then .ok (.lane (laneKey s.hart.core lane (s.x a + wordI laneOff).toNat))
          else .error (.trap ⟨cLaneRange, s.x a + wordI laneOff, 0⟩), s) := by
  rw [spotAt, M.go_get_bind]
  dsimp only
  rw [M.go_check_pass _ _ (decide_eq_true h)]
  split
  · next hin => rw [M.go_check_pass _ _ (decide_eq_true hin), M.go_pure]
  · next hout => rw [M.go_check_fail _ _ (decide_eq_false hout)]

end

/-! ### Offsets (R225) -/

theorem scaleOffset_bytes {w : Nat} (h : w ≠ 4) (x : Int) : scaleOffset w x = (x * (max 1 (w / 8) : Nat), none) := by
  rw [scaleOffset, if_neg h]
  rfl

theorem scaleOffset_nibbles (x : Int) : scaleOffset 4 x = (x / 2, some (x % 2 == 1)) := rfl

/-- Settles O32. -/
theorem elementAddresses : Obligations.ElementAddresses := by
  refine ⟨fun s k a n off laneOff lane _ => ⟨?_, ?_, ?_, ?_, fun h hin => ?_, fun h hout => ?_⟩, fun s b c w r e => ⟨?_, ?_, rfl, ?_, rfl⟩⟩
  · exact spotAt_global_misaligned s k a n off laneOff lane
  · exact spotAt_global_own s k a n off laneOff lane
  · have hlow : bits (s.x a) 24 0 = (s.x a).toNat % 2 ^ 25 := bits_low _ _
    have hmis := spotAt_spad_misaligned s k a n off laneOff lane
    rw [hlow] at hmis
    exact hmis
  · exact spotAt_lane_misaligned s k a n off laneOff lane
  · exact (spotAt_lane s k a n off laneOff lane h).trans (by rw [if_pos hin]; rfl)
  · exact (spotAt_lane s k a n off laneOff lane h).trans (by rw [if_neg (Nat.not_le.mpr hout)])
  · intro hw
    simp [State.offset, scaleOffset_bytes hw]
  · generalize hn : r * s.hart.vl + e = n
    have hodd : ((n : Int) % 2 == 1) = decide (n % 2 = 1) := decide_eq_decide.mpr (by omega)
    rw [State.offset, hn, scaleOffset_nibbles, hodd]
    norm_cast
  · exact fun hw => scaleOffset_bytes hw _

end Sys2Proof.Machine
end

section
/-! SUPPORT. Copy channels and `cwait` (R76, R77, R113, R263, R264). -/

namespace Sys2Proof.Machine

/-! ### Members without positions (R436) -/

theorem State.stepLfsr_zero (s : State) : s.stepLfsr 0 = s := by
  simp [State.stepLfsr, lfsrSteps]

/-- A copy-class member whose checks pass acts once, and the instruction completes (R436). -/
theorem State.copyMember_done (s : State) (checks : M Unit) (act : State → State) (ha : s.alone)
    (hr : s.vectorReady fun _ => true) (hc : checks.go s = (.ok (), s)) :
    s.copyMember checks act = ({ act s with hart.vstart := 0 } : State).advance := by
  obtain ⟨hcv, -, -, hfly, -⟩ := ha
  have hchecks : ((do vectorCheck fun _ => true; checks) : M Unit).go s = (.ok (), s) :=
    (M.go_bind_ok _ (s.vectorCheck_ok _ hr)).trans hc
  unfold State.copyMember State.member
  rw [hchecks]
  simp only [hcv, Option.elim_none, Option.bind_none, Option.getD_none, Nat.min_self, Bool.false_and, Bool.false_eq_true,
    if_false, s.landedStop_none _ _ _ _ hfly, Option.map_none, Bool.or_false, Bool.not_false, if_true, Nat.not_lt_zero,
    decide_false, ite_self, s.stepLfsr_zero]

/-! ### Channels (R76) -/

theorem State.coreAt_modCore (s : State) (c : Nat) (f : Core → Core) (h : s.canonical) :
    (s.modCore c f).coreAt c = f (s.coreAt c) := by
  obtain ⟨-, -, -, -, -, hcores, -⟩ := h
  exact Tbl.get_set_same _ _ _ _ 0 hcores

/-- A channel changed, and the others of the core as they were. -/
theorem State.channel_modChannel (s : State) (ch j : BitVec 3) (f : Channel → Channel) (h : s.canonical) :
    (s.modChannel s.hart.core ch.toNat f).channel j = if j = ch then f (s.channel j) else s.channel j := by
  have hj : j.toNat = ch.toNat ↔ j = ch := BitVec.toNat_inj
  show ((s.modChannel s.hart.core ch.toNat f).coreAt s.hart.core).ch[j.toNat]'j.isLt = _
  simp only [State.modChannel, s.coreAt_modCore _ _ h, Vector.getElem_ofFn, hj]
  rfl

/-- What a member of one channel leaves when all it does is to change the channel. -/
theorem State.modChannel_done (s : State) (ch : BitVec 3) (f : Channel → Channel) :
    ∃ t, ({ s.modChannel s.hart.core ch.toNat f with hart.vstart := 0 } : State).advance = t
      ∧ t = { s.vectorNext s.hart.v 0 false 0 with cores := t.cores }
      ∧ (s.canonical → t.channel ch = f (s.channel ch) ∧ ∀ j, j ≠ ch → t.channel j = s.channel j) := by
  refine ⟨_, rfl, ?_, fun hs => ⟨?_, fun j hj => ?_⟩⟩
  · have hnext := s.vectorNext_idle 0
    rw [s.stepLfsr_zero] at hnext
    rw [← hnext]
    rfl
  · exact (s.channel_modChannel ch ch f hs).trans (if_pos rfl)
  · exact (s.channel_modChannel ch j f hs).trans (if_neg hj)

section
variable (s : State) (ch : BitVec 3) (a : SReg) (ha : s.alone) (hr : s.vectorReady fun _ => true)
include ha hr

theorem State.cexp_done :
    exec (.cexp ch a) s = .next ({ s.modChannel s.hart.core ch.toNat fun k =>
      { k with exp := bits (s.x a) 31 0, ep := true }.latch with hart.vstart := 0 } : State).advance :=
  congrArg Host.Outcome.next (s.copyMember_done (pure ()) _ ha hr rfl)

theorem State.cwm_done :
    exec (.cwm ch a) s = .next { s.wroteNext a (word (if (s.channel ch).counts then (s.channel ch).wm else 0)) with
      hart.vstart := 0 } := by
  refine (congrArg Host.Outcome.next (s.copyMember_done (pure ()) _ ha hr rfl)).trans ?_
  dsimp only
  rw [s.setX_eq]
  rfl

theorem State.cfree_done (hb : s.busyOf ch.toNat = 0) :
    exec (.cfree ch) s = .next ({ s.modChannel s.hart.core ch.toNat fun _ => {} with hart.vstart := 0 } : State).advance :=
  congrArg Host.Outcome.next (s.copyMember_done _ _ ha hr (by rw [M.go_checkM, hb]; simp))

end

/-! ### Acquires and deadlines (R92, R95, R113) -/

/-- With no store of another hart under way that comes before a release, an acquire changes the L1 alone (R95). -/
theorem State.acquire_noneReleased (s : State) (sc : Scope) (h : s.noneReleased) :
    s.acquire sc = { s with hart.l1 := if sc = .hart then s.hart.l1 else [] } := by
  unfold State.acquire
  split
  · rfl
  · unfold State.takeReleased State.dropL1
    dsimp only
    rw [List.filter_eq_nil_iff.mpr, List.filter_eq_self.mpr]
    · rfl
    · intro p hp
      rcases h p hp with h | h <;> simp [h]
    · intro p hp
      rcases h p hp with h | h <;> simp [h]

/-- A wait that carries no absentee set and no round, and acquires at CORE scope or not at all, ends (R264, R270). -/
theorem State.endWait_plain (s : State) (d : SReg) (status : Word) (scope : Nat) (h : scope = 0 ∨ scope = 1 ∧ s.noneReleased) :
    s.endWait d 0 ⟨status, none, none, scope⟩ = s.waitEnded d 0 status none none scope := by
  have hacq : s.acquireAt scope = { s with hart.l1 := s.l1Acquired scope } := by
    rcases h with rfl | ⟨rfl, hnone⟩
    · rfl
    · exact s.acquire_noneReleased .core hnone
  unfold State.endWait
  dsimp only
  rw [hacq, State.setX_eq]
  rfl

theorem fixDeadline_past (s : State) (d : Word) (h : d.toNat ≤ s.now.toNat) : (fixDeadline d).go s = (.ok none, s) := by
  rw [fixDeadline, M.go_get_bind]
  dsimp only
  rw [if_pos h, M.go_pure]

theorem fixDeadline_ahead (s : State) (d : Word) (h : s.ahead d) : (fixDeadline d).go s = (.ok (some d.toNat), s) := by
  obtain ⟨hnow, hmax⟩ := h
  rw [fixDeadline, M.go_get_bind]
  dsimp only
  rw [if_neg (Nat.not_le.mpr hnow), if_neg (Nat.not_lt.mpr hmax), M.go_pure]

theorem fixDeadline_clamped (s : State) (d : Word) (h : s.now.toNat + s.hart.maxwait.toNat < d.toNat) :
    (fixDeadline d).go s = (.ok (some (s.now.toNat + s.hart.maxwait.toNat)), { s with hart.flags := s.hart.flags ||| 0x40 }) := by
  rw [fixDeadline, M.go_get_bind]
  dsimp only
  rw [if_neg (Nat.not_le.mpr (by omega)), if_pos h]
  rfl

/-! ### `cwait` (R77, R264) -/

theorem channelEnd_fault (s : State) (ch : BitVec 3) (f : CopyFault) (h : (s.channel ch).flt = some f) :
    (channelEnd ch).go s
      = (.error (.trap ⟨if f.dest then cCopyDest else cCopySource, f.addr, word (f.cause + ch.toNat * 2 ^ 8)⟩), s) := by
  rw [channelEnd, M.go_get_bind]
  dsimp only
  rw [h, M.go_trapM]

theorem channelEnd_overfill (s : State) (ch : BitVec 3) (hf : (s.channel ch).flt = none) (h : (s.channel ch).ovf = true) :
    (channelEnd ch).go s
      = (.error (.trap ⟨cCopyOverfill, word ch.toNat, word (s.channel ch).cnt - word (s.channel ch).exp⟩), s) := by
  rw [channelEnd, M.go_get_bind]
  dsimp only
  rw [hf, M.go_check_fail _ _ (by rw [h]; rfl)]

theorem channelEnd_ok (s : State) (ch : BitVec 3) (hf : (s.channel ch).flt = none) (h : (s.channel ch).ovf = false) :
    (channelEnd ch).go s = (.ok (s.channel ch).complete, s) := by
  rw [channelEnd, M.go_get_bind]
  dsimp only
  rw [hf, M.go_check_pass _ _ (by rw [h]; rfl), M.go_pure]

/-- The end of a `cwait` with a code: an acquire comes with completion alone (R264). -/
theorem State.endChannel_eq (s : State) (d : SReg) (ch : BitVec 3) (code : Nat) (h : code = 0 → s.noneReleased) :
    s.endChannel d ch code
      = s.waitEnded d 0 (statusWord code 0 0 (s.channel ch).busy) none none (if code = 0 then 1 else 0) := by
  refine s.endWait_plain d _ _ ?_
  split
  · next hc => exact .inr ⟨rfl, h hc⟩
  · exact .inl rfl

section
variable (s : State) (ch : BitVec 3) (a b : SReg)

/-- Whatever ends a `cwait` in a trap does so on entry as while the hart waits (R264). -/
theorem State.cwait_traps (q : Trap) (hw : s.hart.wait = none ∧ s.locked = true ∨ s.hart.wait ≠ none)
    (he : (channelEnd ch).go s = (.error (.trap q), s)) : exec (.cwait ch a b) s = .next (s.raise q) := by
  refine congrArg Host.Outcome.next ?_
  rcases hw with ⟨hw, hl⟩ | hw
  · rw [hw]
    exact s.runM_trap _ _ _ _ ((M.go_check_pass _ _ hl).trans (M.go_bind_error _ he))
  · obtain ⟨w, hw⟩ := Option.ne_none_iff_exists'.mp hw
    rw [hw]
    exact s.runM_trap _ _ _ _ he

theorem State.cwait_unlocked (hw : s.hart.wait = none) (hl : s.locked = false) :
    exec (.cwait ch a b) s = .next (s.raise ⟨cTimeBaseLost, word ch.toNat, 0⟩) := by
  refine congrArg Host.Outcome.next ?_
  rw [hw]
  exact s.runM_trap _ _ _ _ (M.go_check_fail _ _ hl)

section
variable {s ch} (hf : (s.channel ch).flt = none) (ho : (s.channel ch).ovf = false)
include hf ho

/-- A `cwait` on entry, once its deadline is known: completion ends it, a deadline in the past does, and else the hart waits
(R113, R264). -/
theorem State.cwait_enters (t : State) (dl : Option Nat) (hw : s.hart.wait = none) (hl : s.locked = true)
    (hd : (fixDeadline (s.x a)).go s = (.ok dl, t)) :
    exec (.cwait ch a b) s = .next (if (s.channel ch).complete then t.endChannel b ch 0
      else dl.elim (t.endChannel b ch 3) fun n => { t with
        hart.stall := none
        hart.wait := some { cask := none, deadline := n } }) := by
  refine congrArg Host.Outcome.next ?_
  rw [hw]
  refine (s.runM_ok _ _ (if (s.channel ch).complete then some 0 else dl.elim (some 3) fun _ => none)
    (if (s.channel ch).complete then t else dl.elim t fun n => { t with hart.wait := some { cask := none, deadline := n } }) ?_).trans ?_
  · rw [M.go_check_pass _ _ hl, M.go_bind_ok _ (channelEnd_ok s ch hf ho), M.go_bind_ok _ hd]
    cases (s.channel ch).complete <;> cases dl <;> rfl
  · cases (s.channel ch).complete <;> cases dl <;> rfl

theorem State.cwait_waits (w : Wait) (hw : s.hart.wait = some w) :
    exec (.cwait ch a b) s = .next (if (s.channel ch).complete then s.endChannel b ch 0
      else if w.deadline ≤ s.now.toNat then s.endChannel b ch 1 else s) := by
  refine congrArg Host.Outcome.next ?_
  rw [hw]
  exact s.runM_ok _ _ _ _ (channelEnd_ok s ch hf ho)

end

end

/-- Settles O45. -/
theorem channelInstructions : Obligations.ChannelInstructions := by
  constructor
  · intro s ch a k exp ha hr
    refine ⟨?_, s.cwm_done ch a ha hr, fun hb => ?_⟩
    · obtain ⟨t, ht, hcores, hch⟩ := s.modChannel_done ch fun k => { k with exp := bits (s.x a) 31 0, ep := true }.latch
      refine ⟨t, (s.cexp_done ch a ha hr).trans (congrArg _ ht), hcores, ?_⟩
      have hexp : bits (s.x a) 31 0 = exp := bits_low _ _
      rw [hexp] at hch
      exact hch
    · obtain ⟨t, ht, hcores, hch⟩ := s.modChannel_done ch fun _ => {}
      exact ⟨t, (s.cfree_done ch ha hr hb).trans (congrArg _ ht), hcores, hch⟩
  · intro s ch a b k ended limit clamped done entry
    refine ⟨fun f hf hw => ?_, fun hf ho hw => ?_, fun hf ho => ?_, fun hw hl => ?_⟩
    · refine ⟨_, s.cwait_traps ch a b _ hw (channelEnd_fault s ch f hf), ?_⟩
      cases f.dest <;> exact s.raise_traps _ _ _
    · exact ⟨_, s.cwait_traps ch a b _ hw (channelEnd_overfill s ch hf ho), s.raise_traps _ _ _⟩
    · refine ⟨?_, ?_, ?_, ?_, ?_, ?_, ?_⟩
      · rintro hdone hnone hle ⟨hw, hl⟩
        have hend : Host.Outcome.next (φ := Fault) (ρ := Refusal) (s.endChannel b ch 0) = ended s 0 :=
          congrArg _ (s.endChannel_eq b ch 0 fun _ => hnone)
        by_cases hpast : (s.x a).toNat ≤ s.now.toNat
        · rwa [State.cwait_enters a b hf ho _ _ hw hl (fixDeadline_past s _ hpast), if_pos hdone]
        · rwa [State.cwait_enters a b hf ho _ _ hw hl (fixDeadline_ahead s _ ⟨Nat.not_le.mp hpast, hle⟩), if_pos hdone]
      · rintro hdone hnone hgt ⟨hw, hl⟩
        rw [State.cwait_enters a b hf ho _ _ hw hl (fixDeadline_clamped s _ hgt), if_pos hdone]
        exact congrArg _ (State.endChannel_eq _ b ch 0 fun _ => hnone)
      · intro hdone hnone hw
        obtain ⟨w, hw⟩ := Option.ne_none_iff_exists'.mp hw
        rw [State.cwait_waits a b hf ho w hw, if_pos hdone]
        exact congrArg _ (State.endChannel_eq _ b ch 0 fun _ => hnone)
      · rintro hdone hle ⟨hw, hl⟩
        rw [State.cwait_enters a b hf ho _ _ hw hl (fixDeadline_past s _ hle), if_neg hdone]
        exact congrArg _ (State.endChannel_eq _ b ch 3 (by simp))
      · rintro hdone hahead ⟨hw, hl⟩
        rw [State.cwait_enters a b hf ho _ _ hw hl (fixDeadline_ahead s _ hahead), if_neg hdone]
        rfl
      · rintro hdone hgt ⟨hw, hl⟩
        rw [State.cwait_enters a b hf ho _ _ hw hl (fixDeadline_clamped s _ hgt), if_neg hdone]
        rfl
      · intro w hw hdone
        rw [State.cwait_waits a b hf ho w hw, if_neg hdone]
        split
        · exact congrArg _ (State.endChannel_eq _ b ch 1 (by simp))
        · rfl
    · exact ⟨_, s.cwait_unlocked ch a b hw hl, s.raise_traps _ _ _⟩

end Sys2Proof.Machine
end

section
/-! SUPPORT. What homes leave of a hart, and scalar stores (R86, R164). -/

namespace Sys2Proof.Machine

/-! ### What a home changes of a hart

A home that serves a store may answer waits and post causes; the registers, `pc`, the store buffer and the L1 of a hart are its
own. -/

/-- The part of a hart that no home changes. -/
def Hart.own (h : Hart) : Vector Word 32 × Word × List Buffered × List Line := (h.x, h.pc, h.buffer, h.l1)

theorem State.modHart_own (s : State) (n : Nat) (f : Hart → Hart) (hf : ∀ h, (f h).own = h.own) :
    (s.modHart n f).hart.own = s.hart.own := by
  unfold State.modHart
  split
  · exact hf _
  · rfl

theorem foldl_own {α : Type} {f : State → α → State} (hf : ∀ t x, (f t x).hart.own = t.hart.own) (l : List α) (s : State) :
    (l.foldl f s).hart.own = s.hart.own :=
  List.foldlRecOn (motive := fun t : State => t.hart.own = s.hart.own) l f rfl fun t ht x _ => (hf t x).trans ht

theorem State.post_own (s : State) (n : Nat) (t : Trap) : (s.post n t).hart.own = s.hart.own :=
  s.modHart_own _ _ fun h => by split <;> rfl

theorem State.homeSet_own (s : State) (l : Loc) (bs : List Byte) : (s.homeSet l bs).hart.own = s.hart.own := by
  cases l <;> rfl

theorem State.answerHart_own (s : State) (id : Nat) (l : Loc) (a : Answer) : (s.answerHart id l a).hart.own = s.hart.own :=
  s.modHart_own _ _ fun h => by
    split
    · split <;> rfl
    · rfl

theorem State.answerWaiter_own (s : State) (w : HomeWaiter) (a : Answer) : (s.answerWaiter w a).hart.own = s.hart.own := by
  unfold State.answerWaiter
  split
  · exact s.answerHart_own ..
  · dsimp only
    split
    · rfl
    · split <;> rfl
    · rfl

theorem State.damage_own (s : State) (l : Loc) : (s.damage l).hart.own = s.hart.own := by
  unfold State.damage State.answerAll
  dsimp only
  rw [foldl_own fun t _ => t.answerHart_own .., foldl_own fun t _ => t.answerWaiter_own ..]
  split
  · rfl
  · exact s.homeSet_own ..

theorem State.homeDeadlines_own (s : State) (l : Loc) : (s.homeDeadlines l).hart.own = s.hart.own := by
  unfold State.homeDeadlines
  refine foldl_own (fun t w => ?_) _ s
  dsimp only
  split
  all_goals first | rfl | exact State.answerWaiter_own ..

theorem State.endDue_own (s : State) (l : Loc) : (s.endDue l).hart.own = s.hart.own := by
  unfold State.endDue
  split
  · exact s.damage_own l
  · exact s.homeDeadlines_own l

theorem State.dequeue_own (s : State) (l : Loc) : (s.dequeue l).1.hart.own = s.hart.own := by
  rw [State.dequeue, State.setHome64, State.homeSet_own]

theorem State.recheck_own (s : State) (ep : Endpoint) (q : Nat) (explicit : Bool) :
    (s.recheck ep q explicit).hart.own = s.hart.own := by
  unfold State.recheck
  dsimp only
  refine (foldl_own (fun t w => ?_) _ _).trans (foldl_own (fun t w => ?_) _ s)
  · split
    · rfl
    · split
      · exact (State.answerWaiter_own ..).trans (State.dequeue_own ..)
      · split
        · exact State.answerWaiter_own ..
        · rfl
  · split
    · exact t.endDue_own _
    · rfl

theorem State.wakeQueue_own (s : State) (q : Nat) (explicit : Bool) : (s.wakeQueue q explicit).hart.own = s.hart.own := by
  unfold State.wakeQueue
  dsimp only
  rw [State.recheck_own]
  split
  · exact State.post_own ..
  · rfl

theorem State.hubStore_own (s : State) (off : Nat) (bs : List Byte) (src : WakeSource) :
    (s.hubStore off bs src).hart.own = s.hart.own := by
  unfold State.hubStore
  dsimp only
  split
  · split
    · exact s.wakeQueue_own ..
    · rfl
  · rw [State.modQueue]

theorem State.homeStore_own (s : State) (l : Loc) (bs : List Byte) (src : WakeSource) :
    (s.homeStore l bs src).hart.own = s.hart.own := by
  unfold State.homeStore
  split
  · split
    · exact s.hubStore_own ..
    · exact s.homeSet_own ..
  · exact s.homeSet_own ..

/-! ### What a store that leaves the buffer changes of its hart -/

theorem State.applyLine_own (s : State) (hart line : Nat) : (s.applyLine hart line).hart.own = s.hart.own :=
  foldl_own (fun t _ => t.homeStore_own ..) _ s

theorem State.flushed_own (s : State) (q : Endpoint × Die) : (s.flushed q).hart.own = s.hart.own :=
  foldl_own (fun t _ => t.homeStore_own ..) _ s

theorem State.flushOverflow_own (s : State) : s.flushOverflow.hart.own = s.hart.own := by
  refine foldl_own (fun t q => ?_) _ s
  split
  · exact t.flushed_own _
  · split <;> rfl

theorem State.windowRoom_own (s : State) (ep : Endpoint) : (s.windowRoom ep).1.hart.own = s.hart.own := by
  unfold State.windowRoom
  split
  · rfl
  · split
    · rfl
    · split
      · exact s.applyLine_own ..
      · rfl

theorem State.sendStore_own (s : State) (b : Buffered) : (s.sendStore b).1.hart.own = s.hart.own := by
  have hflush := s.flushOverflow_own
  unfold State.sendStore
  extract_lets q f u r
  split
  · exact s.homeStore_own ..
  · have hown : u.hart.own = s.hart.own := by
      unfold u
      split
      · exact hflush
      · exact (State.flushOverflow_own _).trans hflush
    split
    · exact (u.windowRoom_own _).trans hown
    · exact (u.windowRoom_own _).trans hown

/-- The four parts of `Hart.own`. -/
theorem Hart.own_parts {h k : Hart} (e : h.own = k.own) : h.x = k.x ∧ h.pc = k.pc ∧ h.buffer = k.buffer ∧ h.l1 = k.l1 := by
  simpa only [Hart.own, Prod.mk.injEq] using e

/-! ### Room in the store buffer (R86) -/

theorem State.makeRoom_short (s : State) (h : s.hart.buffer.length < 16) : s.makeRoom = (s, true) := by
  unfold State.makeRoom
  split
  · rfl
  · rw [if_pos h]

theorem State.makeRoom_own (s : State) (h : s.makeRoom.2 = true) :
    s.makeRoom.1.hart.x = s.hart.x ∧ s.makeRoom.1.hart.pc = s.hart.pc
      ∧ s.makeRoom.1.hart.buffer = if s.hart.buffer.length < 16 then s.hart.buffer else s.hart.buffer.drop 1 := by
  by_cases hlen : s.hart.buffer.length < 16
  · rw [s.makeRoom_short hlen, if_pos hlen]
    exact ⟨rfl, rfl, rfl⟩
  · unfold State.makeRoom at h ⊢
    rw [if_neg hlen]
    split at h
    · next hb => simp [hb] at hlen
    · next o rest hb =>
      obtain ⟨hx, hpc, -⟩ := Hart.own_parts (s.sendStore_own o)
      rw [if_neg hlen] at h ⊢
      dsimp only at h ⊢
      split
      · exact ⟨hx, hpc, by rw [hb]; rfl⟩
      · next hr => simp [hr] at h

/-! ### Scalar stores (R164) -/

theorem State.accessOk_parts {s u : State} {k : Acc} {p : Word} {n al : Nat} {q : Phys} (h : s.accessOk k p n al q u) :
    ∃ w, (resolve s.ctx k p n al (if k = .store then .posted else .answered)).go s = (.ok q, w)
      ∧ (allow s.ctx k q n).go w = (.ok (), u) := by
  obtain ⟨q', w, hres, h⟩ := M.bind_ok h
  obtain ⟨⟨⟩, w', hallow, h⟩ := M.bind_ok h
  cases h
  exact ⟨w, hres, hallow⟩

theorem State.lateFirst_none (s : State) (l : Loc) (h : s.hart.late = none) : s.lateFirst l = s := by
  unfold State.lateFirst
  rw [h]
  split
  · next hq => cases hq
  · rfl

section
variable {s u : State} {r a : SReg} {i : BitVec 12} {n : Nat} {q : Phys}

theorem State.store_glob {pa : Nat} (h : s.accessOk .store (s.pointer a i) n n q u) (hl : u.hart.late = none)
    (hq : q.loc = .glob pa) (hr : u.makeRoom.2 = true) :
    s.store r a i n = (u.makeRoom.1.scalarWrite pa (leBytes (s.x r).toNat n)).advance := by
  obtain ⟨w, hres, hallow⟩ := State.accessOk_parts h
  rw [if_pos rfl] at hres
  refine s.runM_ok _ _ () _ ?_
  rw [scalarStore, M.go_get_bind, M.go_bind_ok _ hres, M.go_bind_ok _ hallow, hq]
  rw [M.go_modify_bind, u.lateFirst_none _ hl, M.go_get_bind]
  dsimp only
  rw [M.go_set_bind, M.go_check_pass _ _ hr, M.go_modify]

theorem State.store_spad {c o : Nat} (h : s.accessOk .store (s.pointer a i) n n q u) (hq : q.loc = .spad c o) :
    s.store r a i n = (u.homeSet (.spad c o) (leBytes (s.x r).toNat n)).advance := by
  obtain ⟨w, hres, hallow⟩ := State.accessOk_parts h
  rw [if_pos rfl] at hres
  refine s.runM_ok _ _ () _ ?_
  rw [scalarStore, M.go_get_bind, M.go_bind_ok _ hres, M.go_bind_ok _ hallow, hq]
  rfl

end

/-! ### Bytes at their homes -/

theorem State.homeRead_congr {s t : State} (h : ∀ l, s.homeByte l = t.homeByte l) (l : Loc) (n : Nat) :
    s.homeRead l n = t.homeRead l n := by
  induction n generalizing l with
  | zero => rfl
  | succ n ih => rw [State.homeRead, State.homeRead, h, ih]

theorem State.homeRead_length (s : State) (l : Loc) (n : Nat) : (s.homeRead l n).length = n := by
  induction n generalizing l with
  | zero => rfl
  | succ n ih => rw [State.homeRead, List.length_cons, ih]

theorem Loc.plus_plus (l : Loc) (a b : Nat) : (l.plus a).plus b = l.plus (a + b) := by
  cases l <;> simp only [Loc.plus, Nat.add_assoc]

theorem Loc.plus_zero (l : Loc) : l.plus 0 = l := by
  cases l <;> rfl

theorem State.homeRead_take (s : State) (l : Loc) (n m : Nat) (h : n ≤ m) : (s.homeRead l m).take n = s.homeRead l n := by
  induction n generalizing l m with
  | zero => rfl
  | succ n ih =>
    obtain ⟨m, rfl⟩ : ∃ k, m = k + 1 := ⟨m - 1, by omega⟩
    rw [State.homeRead, State.homeRead, List.take_succ_cons, ih _ _ (by omega)]

theorem State.homeRead_drop (s : State) (l : Loc) (k m : Nat) : (s.homeRead l (k + m)).drop k = s.homeRead (l.plus k) m := by
  induction k generalizing l with
  | zero => rw [Nat.zero_add, List.drop_zero, Loc.plus_zero]
  | succ k ih => rw [Nat.add_right_comm, State.homeRead, List.drop_succ_cons, ih, Loc.plus_plus, Nat.add_comm 1]

/-- Bytes out of a longer run at a home. -/
theorem State.homeRead_within (s : State) (pa n : Nat) (h : pa % 64 + n ≤ 64) :
    ((s.homeRead (.glob (pa / 64 * 64)) 64).drop (pa - pa / 64 * 64)).take n = s.homeRead (.glob pa) n := by
  have hoff : pa - pa / 64 * 64 = pa % 64 := by omega
  have hplus : Loc.plus (.glob (pa / 64 * 64)) (pa % 64) = .glob pa := congrArg Loc.glob (by omega)
  have hdrop := s.homeRead_drop (.glob (pa / 64 * 64)) (pa % 64) (64 - pa % 64)
  rw [show pa % 64 + (64 - pa % 64) = 64 by omega, hplus] at hdrop
  rw [hoff, hdrop, s.homeRead_take _ _ _ (by omega)]

/-! ### Scalar loads through store buffer and L1 (R86) -/

theorem State.applyLine_none (s : State) (hart line : Nat) (h : ∀ p ∈ s.posted, ¬ (p.hart = hart ∧ p.pa / 64 = line)) :
    s.applyLine hart line = s := by
  unfold State.applyLine
  dsimp only
  rw [List.filter_eq_nil_iff.mpr, List.filter_eq_self.mpr]
  · rfl
  · intro p hp
    simpa [imp_iff_not_or] using h p hp
  · intro p hp
    simpa using h p hp

theorem State.drain_empty (s : State) (h : s.hart.buffer = []) : s.drain = s := by
  unfold State.drain
  rw [h, State.sendStores, ← h]

/-- A line at the end of a list that holds no other of its address is the one that is found. -/
theorem find_last (ls : List Line) (x : Line) (b : Nat) (hx : x.base = b) (h : ∀ l ∈ ls, l.base ≠ b) :
    (ls ++ [x]).find? (fun l => decide (l.base = b)) = some x := by
  rw [List.find?_append, List.find?_eq_none.mpr (by simpa using h)]
  simp [hx]

/-- The line that a fill brings is the one that the L1 then holds. -/
theorem State.cachedLine_fillLine (s : State) (pa : Nat) (h : ∀ l ∈ s.hart.l1, l.base ≠ pa / 64 * 64) :
    let u := s.applyLine s.hart.id (pa / 64)
    (s.fillLine (pa / 64 * 64)).cachedLine pa
      = some ⟨pa / 64 * 64, s.hart.buffer.foldl (overlay (pa / 64 * 64)) (u.homeRead (.glob (pa / 64 * 64)) 64)⟩ := by
  intro u
  obtain ⟨-, -, hbuf, hl1⟩ := Hart.own_parts (s.applyLine_own s.hart.id (pa / 64))
  have hline : pa / 64 * 64 / 64 = pa / 64 := Nat.mul_div_cancel _ (by omega)
  unfold State.fillLine State.cachedLine
  dsimp only
  rw [hline]
  split
  · rw [hbuf, hl1]
    exact find_last _ _ _ rfl h
  · rw [hbuf, hl1]
    exact find_last _ _ _ rfl fun l hl => h l (List.mem_of_mem_eraseIdx hl)

theorem State.fillLine_buffer (s : State) (pa : Nat) : (s.fillLine (pa / 64 * 64)).hart.buffer = s.hart.buffer := by
  obtain ⟨-, -, hbuf, -⟩ := Hart.own_parts (s.applyLine_own s.hart.id (pa / 64 * 64 / 64))
  unfold State.fillLine
  dsimp only
  split
  · exact hbuf
  · exact hbuf

theorem State.cachedLine_none (s : State) (pa : Nat) (h : ∀ l ∈ s.hart.l1, l.base ≠ pa / 64 * 64) : s.cachedLine pa = none := by
  unfold State.cachedLine
  exact List.find?_eq_none.mpr (by simpa using h)

/-- A load whose line the L1 does not hold, with nothing buffered or posted to it, reads as its home does (R86). -/
theorem State.scalarRead_home (u : State) (pa n : Nat) (hn : pa % 64 + n ≤ 64) (hb : u.hart.buffer = [])
    (hl : ∀ l ∈ u.hart.l1, l.base ≠ pa / 64 * 64)
    (hp : ∀ p ∈ u.posted, ¬ (p.hart = u.hart.id ∧ p.pa / 64 = pa / 64)) :
    (u.scalarRead pa n).2 = u.homeRead (.glob pa) n := by
  have happly := u.applyLine_none u.hart.id (pa / 64) hp
  unfold State.scalarRead
  split
  · dsimp only
    rw [u.drain_empty hb, happly]
  · have hfill := u.cachedLine_fillLine pa hl
    have hbuf : (u.fillLine (pa / 64 * 64)).hart.buffer = [] := (u.fillLine_buffer pa).trans hb
    dsimp only at hfill ⊢
    rw [u.cachedLine_none pa hl]
    rw [happly, hb] at hfill
    simp only [Option.isSome_none, Bool.false_eq_true, if_false, hfill, hbuf, List.foldl_nil, Option.elim_some]
    exact u.homeRead_within pa n hn

/-! ### A store and its own hart's loads (R86) -/

theorem overlay_length (base : Nat) (bs : List Byte) (b : Buffered) : (overlay base bs b).length = bs.length := by
  simp [overlay, enum]

/-- A store laid over just its own bytes gives what it stores. -/
theorem overlay_own (pa : Nat) (xs bs : List Byte) (h : xs.length = bs.length) : overlay pa xs ⟨pa, bs⟩ = bs := by
  apply List.ext_getElem
  · rw [overlay_length, h]
  · intro i hi hbs
    simp [overlay, enum, hbs]

theorem foldl_overlay_length (base : Nat) (l : List Buffered) (bs : List Byte) : (l.foldl (overlay base) bs).length = bs.length :=
  List.foldlRecOn (motive := fun xs : List Byte => xs.length = bs.length) l _ rfl fun xs h b _ => (overlay_length base xs b).trans h

/-- A load that finds a whole line sees the newest store of its hart to the very bytes that it reads. -/
theorem overlay_newest (pa n : Nat) (buffer : List Buffered) (line bs : List Byte) (hn : pa % 64 + n ≤ 64) (hline : line.length = 64)
    (hbs : bs.length = n) :
    (buffer ++ [(⟨pa, bs⟩ : Buffered)]).foldl (overlay pa) ((line.drop (pa - pa / 64 * 64)).take n) = bs := by
  rw [List.foldl_append]
  refine overlay_own pa _ _ ?_
  rw [foldl_overlay_length, List.length_take, List.length_drop, hline, hbs]
  omega

theorem State.scalarRead_own (u : State) (pa n : Nat) (bs : List Byte) (hn : pa % 64 + n ≤ 64) (hbs : bs.length = n)
    (hl : ∀ l ∈ u.hart.l1, l.data.length = 64) (hhub : inHub (offOf pa) = false) :
    ((u.scalarWrite pa bs).scalarRead pa n).2 = bs := by
  have hlines : ∀ l ∈ (u.scalarWrite pa bs).hart.l1, l.data.length = 64 := by
    intro l hmem
    unfold State.scalarWrite at hmem
    rw [hhub] at hmem
    obtain ⟨k, hk, rfl⟩ := List.mem_map.mp hmem
    split
    · exact (overlay_length _ _ _).trans (hl k hk)
    · exact hl k hk
  have hbuf : (u.scalarWrite pa bs).hart.buffer = u.hart.buffer ++ [⟨pa, bs⟩] := rfl
  generalize u.scalarWrite pa bs = z at hlines hbuf ⊢
  unfold State.scalarRead
  rw [hhub, if_neg Bool.false_ne_true]
  dsimp only
  cases hc : z.cachedLine pa with
  | some l =>
    have hlen := hlines l (List.mem_of_find?_eq_some hc)
    simp only [Option.isSome_some, if_true, hc, Option.elim_some, hbuf]
    exact overlay_newest pa n _ _ bs hn hlen hbs
  | none =>
    have hnone : ∀ l ∈ z.hart.l1, l.base ≠ pa / 64 * 64 := by
      intro l hmem
      simpa using List.find?_eq_none.mp hc l hmem
    simp only [Option.isSome_none, Bool.false_eq_true, if_false, z.cachedLine_fillLine pa hnone, Option.elim_some, z.fillLine_buffer pa, hbuf]
    exact overlay_newest pa n _ _ bs hn ((foldl_overlay_length _ _ _).trans (State.homeRead_length _ _ _)) hbs

/-- Settles O19. -/
theorem scalarStores : Obligations.ScalarStores := by
  constructor
  · intro s u r a imm q p w hw hok hlate hroom
    have hexec : exec w.1 s = .next (s.store r a imm w.2) := by
      simp only [List.mem_cons, List.not_mem_nil, or_false] at hw
      rcases hw with rfl | rfl | rfl | rfl <;> rfl
    refine ⟨_, hexec, ?_⟩
    cases hq : q.loc with
    | glob pa =>
      obtain ⟨hx, hpc, hbuf⟩ := u.makeRoom_own (hroom pa hq)
      rw [State.store_glob hok hlate hq (hroom pa hq)]
      refine ⟨hx, congrArg (· + 4) hpc, congrArg (· ++ _) hbuf, fun hlen => ?_⟩
      rw [u.makeRoom_short hlen]
      rfl
    | spad c o =>
      rw [State.store_spad hok hq]
      exact ⟨rfl, rfl, rfl⟩
  · intro u pa n hn
    exact ⟨u.scalarRead_home pa n hn, fun bs hbs hl hhub => u.scalarRead_own pa n bs hn hbs hl hhub⟩

end Sys2Proof.Machine
end

section
/-! SUPPORT. The scratchpad tag table (R63, R64, R240, R241). -/

namespace Sys2Proof.Machine

theorem State.result_eq (s : State) (d : SReg) (v : Word) : s.result d v = s.wroteNext d v := by
  rw [State.result, State.setX_eq]
  rfl

/-! ### Fields of words -/

theorem bits_eq_extract (v : Word) (hi lo : Nat) : bits v hi lo = (v.extractLsb' lo (hi + 1 - lo)).toNat := by
  rw [bits, BitVec.extractLsb'_toNat, Nat.shiftRight_eq_div_pow]

/-- The low bits of a word are what a mask of ones leaves. -/
theorem word_bits_masked (v : Word) (n : Nat) (h : n < 64) : word (bits v n 0) = v &&& word (2 ^ (n + 1) - 1) := by
  have hpow : 2 ^ (n + 1) ≤ 2 ^ 64 := Nat.pow_le_pow_right (by omega) h
  have hpos : 0 < 2 ^ (n + 1) := Nat.two_pow_pos _
  apply BitVec.eq_of_toNat_eq
  rw [BitVec.toNat_and, BitVec.toNat_ofNat, BitVec.toNat_ofNat, Nat.mod_eq_of_lt (a := 2 ^ (n + 1) - 1) (by omega),
    Nat.and_two_pow_sub_one_eq_mod, bits_low, Nat.mod_eq_of_lt]
  have := Nat.mod_lt v.toNat hpos
  omega

/-- Bit 62 of a word set or cleared. -/
theorem word_splice_bit62 (v : Word) (b : Bool) :
    word (splice v.toNat 62 1 b.toNat) = if b = true then v ||| 0x4000000000000000 else v &&& 0xBFFFFFFFFFFFFFFF := by
  have hset : ∀ i, i < 64 → (0x4000000000000000 : Word).getLsbD i = decide (i = 62) := by decide
  have hclear : ∀ i, i < 64 → (0xBFFFFFFFFFFFFFFF : Word).getLsbD i = decide (i ≠ 62) := by decide
  apply BitVec.eq_of_getLsbD_eq
  intro i hi
  rw [BitVec.getLsbD_ofNat, splice_testBit, decide_eq_true hi, Bool.true_and]
  by_cases h : i = 62
  · subst h
    cases b <;> simp
  · rw [if_neg (by omega), BitVec.testBit_toNat]
    cases b
    · rw [if_neg Bool.false_ne_true, BitVec.getLsbD_and, hclear i hi, decide_eq_true h, Bool.and_true]
    · rw [if_pos rfl, BitVec.getLsbD_or, hset i hi, decide_eq_false h, Bool.or_false]

/-! ### Slots -/

theorem slotKey_inj (core k n : Nat) : slotKey core k = slotKey core n ↔ k = n := by
  simp only [slotKey]
  omega

theorem State.slot_setSlot (s : State) (n m : Nat) (v : Word) (h : Tbl.wfFrom 0 0 s.spt = true) :
    (s.setSlot n v).slot m = if m = n then v else s.slot m := by
  unfold State.slot State.setSlot
  split
  · next hm => exact hm ▸ Tbl.get_set_same _ _ _ _ 0 h
  · next hm => exact Tbl.get_set_other _ _ _ _ _ fun hk => hm ((slotKey_inj _ _ _).mp hk)

theorem State.setSlot_wf (s : State) (n : Nat) (v : Word) (h : Tbl.wfFrom 0 0 s.spt = true) :
    Tbl.wfFrom 0 0 (s.setSlot n v).spt = true := Tbl.set_wfFrom _ _ _ _ 0 (Nat.zero_le _) h

theorem State.slotHits_iff (s : State) (v a : Word) : s.slotHits v a = true ↔
    v.getLsbD 63 = true ∧ v.extractLsb' 48 13 = s.hart.asid ∧ v.extractLsb' 0 44 = a.extractLsb' 11 44 := by
  rw [State.slotHits, bits_eq_extract, bits_eq_extract, bits_eq_extract, bitOf_eq_getLsbD, Bool.and_eq_true, Bool.and_eq_true,
    decide_eq_true_eq, decide_eq_true_eq, ← BitVec.toNat_inj, ← BitVec.toNat_inj, and_assoc]

theorem State.slotSeen_eq (s : State) (v : Word) :
    s.slotSeen v = if s.hart.priv = .user ∧ v.getLsbD 63 = true ∧ v.extractLsb' 48 13 ≠ s.hart.asid then 0 else v := by
  have hasid : bits v 60 48 ≠ s.hart.asid.toNat ↔ v.extractLsb' 48 13 ≠ s.hart.asid := by
    rw [bits_eq_extract, Ne, Ne, ← BitVec.toNat_inj]
  simp only [State.slotSeen, Bool.and_eq_true, decide_eq_true_eq, bitOf_eq_getLsbD, hasid, and_assoc]

/-- The step of `spti` at a slot: an older entry for the address loses V (R241). -/
def State.yieldSlot (a : Word) (n : Nat) (t : State) (k : Nat) : State :=
  if k ≠ n && t.slotHits (t.slot k) a then t.setSlot k (word (bits (t.slot k) 62 0)) else t

theorem State.yieldSlot_slot (s : State) (a : Word) (n k m : Nat) (h : Tbl.wfFrom 0 0 s.spt = true) :
    (s.yieldSlot a n k).slot m
      = if m = k ∧ k ≠ n ∧ s.slotHits (s.slot k) a = true then word (bits (s.slot m) 62 0) else s.slot m := by
  unfold State.yieldSlot
  by_cases hk : k ≠ n ∧ s.slotHits (s.slot k) a = true
  · rw [if_pos (by simpa using hk), s.slot_setSlot _ _ _ h]
    by_cases hm : m = k
    · rw [if_pos hm, if_pos ⟨hm, hk⟩, hm]
    · rw [if_neg hm, if_neg fun hc => hm hc.1]
  · rw [if_neg (by simpa using hk), if_neg fun hc => hk hc.2]

theorem State.yieldSlot_frame (s : State) (a : Word) (n k : Nat) :
    s.yieldSlot a n k = { s with spt := (s.yieldSlot a n k).spt } := by
  unfold State.yieldSlot
  split <;> rfl

theorem State.yieldSlot_wf (s : State) (a : Word) (n k : Nat) (h : Tbl.wfFrom 0 0 s.spt = true) :
    Tbl.wfFrom 0 0 (s.yieldSlot a n k).spt = true := by
  unfold State.yieldSlot
  split
  · exact s.setSlot_wf _ _ h
  · exact h

/-- Every older entry for the address loses V; nothing else changes. -/
theorem State.yieldSlots (a : Word) (n : Nat) (l : List Nat) (hl : l.Nodup) (s : State) (h : Tbl.wfFrom 0 0 s.spt = true) :
    let t := l.foldl (State.yieldSlot a n) s
    t = { s with spt := t.spt } ∧ Tbl.wfFrom 0 0 t.spt = true
      ∧ ∀ m, t.slot m = if m ∈ l ∧ m ≠ n ∧ s.slotHits (s.slot m) a = true then word (bits (s.slot m) 62 0) else s.slot m := by
  induction l generalizing s with
  | nil => exact ⟨rfl, h, fun m => by simp⟩
  | cons k l ih =>
    obtain ⟨hk, hl⟩ := List.nodup_cons.mp hl
    obtain ⟨hframe, hwf, hslot⟩ := ih hl (s.yieldSlot a n k) (s.yieldSlot_wf a n k h)
    refine ⟨?_, hwf, fun m => ?_⟩
    · rw [List.foldl_cons, hframe, s.yieldSlot_frame a n k]
    · have hhits : ∀ v, (s.yieldSlot a n k).slotHits v a = s.slotHits v a := by
        rw [s.yieldSlot_frame a n k]
        exact fun v => rfl
      rw [List.foldl_cons, hslot m, hhits, s.yieldSlot_slot a n k m h]
      by_cases hm : m = k
      · subst hm
        simp [hk]
      · simp [hm]

/-! ### The instructions of the table -/

theorem slotCheck_ok (v : Word) (s : State) (h : v.toNat < 768) : (slotCheck v).go s = (.ok v.toNat, s) := by
  rw [slotCheck, M.go_check_pass _ _ (decide_eq_true h)]
  rfl

theorem slotCheck_traps (v : Word) (s : State) (h : 768 ≤ v.toNat) :
    (slotCheck v).go s = (.error (.trap ⟨cScratchRange, v, 0⟩), s) := by
  rw [slotCheck, M.go_check_fail _ _ (decide_eq_false (by omega))]

/-- A slot from 768 on raises `SCRATCH_RANGE` (R240). -/
theorem State.slotCheck_raises (s : State) (v : Word) (f : Nat → State → State) (h : 768 ≤ v.toNat) :
    s.traps (s.runM (slotCheck v) f) 24 v 0 := by
  rw [s.runM_trap _ _ _ _ (slotCheck_traps v s h)]
  exact s.raise_traps cScratchRange v 0

theorem State.slotFind_none (s : State) (a : Word) (h : ∀ k, k < 768 → ¬ s.slotHits (s.slot k) a = true) :
    s.slotFind a = none :=
  List.find?_eq_none.mpr fun k hk => h k (List.mem_range.mp hk)

/-- The lowest slot that hits is found. -/
theorem State.slotFind_some (s : State) (a : Word) (k : Nat) (hk : k < 768) (hit : s.slotHits (s.slot k) a = true)
    (hlow : ∀ j, j < k → ¬ s.slotHits (s.slot j) a = true) : s.slotFind a = some k :=
  List.find?_range_eq_some.mpr ⟨hit, List.mem_range.mpr hk, fun j hj => by simpa using hlow j hj⟩

theorem exec_sptl (s : State) (d a : SReg) :
    exec (.sptl d a) s = .next (s.wroteNext d ((s.slotFind (s.x a)).elim (-1) word)) := by
  rw [← s.result_eq]
  rfl

/-- `spti` (R241): the older entries yield, then the slot takes the new one. -/
theorem exec_spti (s : State) (d a b : SReg) (h : (s.x b).toNat < 768) (hwf : Tbl.wfFrom 0 0 s.spt = true) :
    let n := (s.x b).toNat
    ∃ t, exec (.spti d a b) s = .next t ∧ t = { s.wroteNext d (s.slotSeen (s.slot n)) with spt := t.spt }
      ∧ t.slot n = s.newEntry (s.x a)
      ∧ ∀ k, k < 768 → k ≠ n →
        t.slot k = if s.slotHits (s.slot k) (s.x a) = true then word (bits (s.slot k) 62 0) else s.slot k := by
  intro n
  obtain ⟨hframe, hw, hslot⟩ := State.yieldSlots (s.x a) n (List.range 768) List.nodup_range s hwf
  have hexec : exec (.spti d a b) s = .next (s.runM (slotCheck (s.x b)) fun n t =>
      (((List.range 768).foldl (State.yieldSlot (s.x a) n) t).setSlot n
        (((List.range 768).foldl (State.yieldSlot (s.x a) n) t).newEntry (s.x a))).result d
        (((List.range 768).foldl (State.yieldSlot (s.x a) n) t).slotSeen (t.slot n))) := rfl
  rw [s.runM_ok _ _ _ _ (slotCheck_ok _ _ h), State.result_eq] at hexec
  generalize hu : (List.range 768).foldl (State.yieldSlot (s.x a) (s.x b).toNat) s = u at hexec
  rw [show (List.range 768).foldl (State.yieldSlot (s.x a) n) s = u from hu] at hframe hw hslot
  have hself := u.slot_setSlot n n (u.newEntry (s.x a)) hw
  have hother := fun k => u.slot_setSlot n k (u.newEntry (s.x a)) hw
  refine ⟨_, hexec, ?_, ?_, fun k hk hn => ?_⟩
  · rw [hframe]
    rfl
  · rw [if_pos rfl] at hself
    rw [hframe] at hself ⊢
    exact hself
  · have hslots : (u.setSlot n (u.newEntry (s.x a))).slot k
        = if s.slotHits (s.slot k) (s.x a) = true then word (bits (s.slot k) 62 0) else s.slot k := by
      rw [hother, if_neg hn, hslot]
      simp only [List.mem_range, hk, hn, ne_eq, not_false_eq_true, true_and]
    exact hslots

/-- `spte` (R241): V and D are cleared. -/
theorem exec_spte (s : State) (d a : SReg) (h : (s.x a).toNat < 768) (hwf : Tbl.wfFrom 0 0 s.spt = true) :
    let n := (s.x a).toNat
    ∃ t, exec (.spte d a) s = .next t ∧ t = { s.wroteNext d (s.slotSeen (s.slot n)) with spt := t.spt }
      ∧ ∀ k, t.slot k = if k = n then word (bits (s.slot n) 61 0) else s.slot k := by
  intro n
  have hexec : exec (.spte d a) s = .next (s.runM (slotCheck (s.x a)) fun n t =>
    (t.setSlot n (word (bits (t.slot n) 61 0))).result d (t.slotSeen (t.slot n))) := rfl
  rw [s.runM_ok _ _ _ _ (slotCheck_ok _ _ h), State.result_eq] at hexec
  exact ⟨_, hexec, rfl, fun k => s.slot_setSlot n k _ hwf⟩

/-- `sptc` (R241): D of a valid entry is set to bit 0 of the operand. -/
theorem exec_sptc (s : State) (a b : SReg) (h : (s.x a).toNat < 768) (hwf : Tbl.wfFrom 0 0 s.spt = true) :
    let n := (s.x a).toNat
    ∃ t, exec (.sptc a b) s = .next t ∧ t = { s.wroteNext 0 0 with spt := t.spt }
      ∧ ∀ k, t.slot k = if k = n ∧ (s.slot n).getLsbD 63 = true
          then word (splice (s.slot n).toNat 62 1 ((s.x b).getLsbD 0).toNat) else s.slot k := by
  intro n
  have hexec : exec (.sptc a b) s = .next (s.runM (slotCheck (s.x a)) fun n t =>
    (if bitOf (t.slot n) 63 then t.setSlot n (word (splice (t.slot n).toNat 62 1 (bitOf (s.x b) 0).toNat)) else t).advance) := rfl
  rw [s.runM_ok _ _ _ _ (slotCheck_ok _ _ h), bitOf_eq_getLsbD, bitOf_eq_getLsbD] at hexec
  refine ⟨_, hexec, ?_, fun k => ?_⟩
  · split <;> rfl
  · by_cases hv : (s.slot n).getLsbD 63 = true
    · rw [if_pos hv]
      simp only [hv, and_true]
      exact s.slot_setSlot n k _ hwf
    · rw [if_neg hv, if_neg fun hc => hv hc.2]
      rfl

/-- `sptr` (R241). -/
theorem exec_sptr (s : State) (d a : SReg) (h : (s.x a).toNat < 768) :
    exec (.sptr d a) s = .next (s.wroteNext d (s.slotSeen (s.slot (s.x a).toNat))) := by
  have hexec : exec (.sptr d a) s = .next (s.runM (slotCheck (s.x a)) fun n t => t.result d (t.slotSeen (t.slot n))) := rfl
  rw [hexec, s.runM_ok _ _ _ _ (slotCheck_ok _ _ h), State.result_eq]

/-- What `spti` enters. -/
theorem State.newEntry_eq (s : State) (a : Word) :
    s.newEntry a = .ofNat 64 (2 ^ 63 + s.hart.asid.toNat * 2 ^ 48 + a.toNat / 2 ^ 11 % 2 ^ 44) := rfl

/-- Each instruction of the table traps at a slot from 768 on (R240). -/
theorem exec_slot_raises (s : State) (d a b : SReg) (h : 768 ≤ (s.x a).toNat) :
    ∀ i ∈ [Instr.spte d a, .sptc a b, .sptr d a], ∃ t, exec i s = .next t ∧ s.traps t 24 (s.x a) 0 := by
  intro i hi
  simp only [List.mem_cons, List.not_mem_nil, or_false] at hi
  obtain rfl | rfl | rfl := hi
  all_goals exact ⟨_, rfl, s.slotCheck_raises _ _ h⟩

end Sys2Proof.Machine
end

section
/-! SUPPORT. Memory-tag locks (R242 to R244), and the obligation on both tables. -/

namespace Sys2Proof.Machine

theorem withPointer_ok {α : Type} {m : M α} {s u : State} {a : α} (p : Word) (h : m.go s = (.ok a, u)) :
    (withPointer p m).go s = (.ok a, u) := by
  simp [withPointer, h]

/-- A pointer with another value in its key (bits 58:55). -/
theorem splice_key (p l : Nat) (h : l < 16) : splice p 55 4 l = p % 2 ^ 55 + p / 2 ^ 59 * 2 ^ 59 + l * 2 ^ 55 := by
  rw [splice, Nat.mod_eq_of_lt (show l < 2 ^ 4 from h)]
  omega

/-- `ltag` (R243). -/
theorem exec_ltag {s u : State} (d a : SReg) (pa : Nat) (tagged : Bool)
    (h : (lockPlace .load (s.x a)).go s = (.ok (pa, tagged), u)) :
    exec (.ltag d a) s = .next (u.wroteNext d (.ofNat 64 ((s.x a).toNat % 2 ^ 55 + (s.x a).toNat / 2 ^ 59 * 2 ^ 59
      + (if tagged then (u.lockOf pa).toNat else 0) * 2 ^ 55))) := by
  have hexec : exec (.ltag d a) s = .next (s.runM (withPointer (s.x a) (lockPlace .load (s.x a))) fun q t =>
    t.result d (word (splice (s.x a).toNat 55 4 (if q.2 then (t.lockOf q.1).toNat else 0)))) := rfl
  have hlock : (if tagged = true then (u.lockOf pa).toNat else 0) < 16 := by
    split
    · exact (u.lockOf pa).isLt
    · exact Nat.succ_pos 15
  rw [hexec, s.runM_ok _ _ _ _ (withPointer_ok _ h), State.result_eq, splice_key _ _ hlock]

/-- The computation of `stag` after the check of the pointer (R242). -/
def stagBody (s : State) (p w : Word) : M Unit := do
  drainAll
  ((List.range (bits w 15 8 + 1)).drop (s.granulesSet p)).forM fun g => setLock (p + word (32 * g)) (bits w 3 0)

theorem exec_stag (s : State) (a b : SReg) :
    exec (.stag a b) s = .next (s.runM (checkM ((s.x a).toNat % 32 = 0) (.trap ⟨cMisaligned, s.x a, 0⟩) >>= fun _ =>
      stagBody s (s.x a) (s.x b)) fun _ t => t.advance) := rfl

theorem exec_stag_misaligned (s : State) (a b : SReg) (h : (s.x a).toNat % 32 ≠ 0) :
    ∃ t, exec (.stag a b) s = .next t ∧ s.traps t 22 (s.x a) 0 := by
  refine ⟨_, exec_stag s a b, ?_⟩
  rw [s.runM_trap _ _ _ _ (M.go_check_fail _ _ (decide_eq_false h))]
  exact s.raise_traps cMisaligned (s.x a) 0

/-- With the pointer aligned, nothing set before and the buffer drained, `stag` sets its granules one by one. -/
theorem stagBody_go (s : State) (p w : Word) (hstall : s.hart.stall = none) (hbuf : s.drain.hart.buffer = []) :
    (stagBody s p w).go s
      = ((List.range (w.toNat / 2 ^ 8 % 2 ^ 8 + 1)).forM fun g =>
        setLock (p + .ofNat 64 (32 * g)) (w.toNat % 16)).go s.drain := by
  have hcount : bits w 15 8 = w.toNat / 2 ^ 8 % 2 ^ 8 := rfl
  have hval : bits w 3 0 = w.toNat % 16 := bits_low w 3
  have hdrain : drainAll.go s = (.ok (), s.drain) := by
    rw [drainAll, M.go_modify_bind, M.go_get_bind]
    simp [hbuf]
  have hset : s.granulesSet p = 0 := by
    rw [State.granulesSet, hstall]
    rfl
  rw [stagBody, M.go_bind_ok _ hdrain, hset, List.drop_zero, hcount, hval]

theorem exec_stag_sets {s u : State} (a b : SReg) (hp : (s.x a).toNat % 32 = 0)
    (hstall : s.hart.stall = none) (hbuf : s.drain.hart.buffer = [])
    (h : ((List.range ((s.x b).toNat / 2 ^ 8 % 2 ^ 8 + 1)).forM fun g =>
      setLock (s.x a + .ofNat 64 (32 * g)) ((s.x b).toNat % 16)).go s.drain = (.ok (), u)) :
    exec (.stag a b) s = .next u.advance := by
  rw [← stagBody_go s (s.x a) (s.x b) hstall hbuf] at h
  rw [exec_stag, s.runM_ok _ _ _ _ ((M.go_check_pass _ _ (decide_eq_true hp)).trans h)]

theorem exec_stag_traps {s u : State} {q : Trap} (a b : SReg) (hp : (s.x a).toNat % 32 = 0)
    (hstall : s.hart.stall = none) (hbuf : s.drain.hart.buffer = [])
    (h : ((List.range ((s.x b).toNat / 2 ^ 8 % 2 ^ 8 + 1)).forM fun g =>
      setLock (s.x a + .ofNat 64 (32 * g)) ((s.x b).toNat % 16)).go s.drain = (.error (.trap q), u)) :
    exec (.stag a b) s = .next (u.raise q) := by
  rw [← stagBody_go s (s.x a) (s.x b) hstall hbuf] at h
  rw [exec_stag, s.runM_trap _ _ _ _ ((M.go_check_pass _ _ (decide_eq_true hp)).trans h)]

/-- What `setLock` does to a granule of a tagged page (R242, R424). -/
def State.locked1 (s : State) (pa v : Nat) : State :=
  let z := s.beforeLock (pa / 32 * 32)
  { z with locks := Tbl.set 0 z.locks (pa / 32) (.ofNat 4 v) }.tagRecord z.hart.id (pa / 32 * 32) 0 v (z.lockOf pa).toNat

theorem setLock_tagged {s u : State} (p : Word) (v pa : Nat) (h : (lockPlace .store p).go s = (.ok (pa, true), u)) :
    (setLock p v).go s = (.ok (), u.locked1 pa v) := by
  rw [setLock, M.go_bind_ok _ (withPointer_ok p h), M.go_check_pass _ _ rfl]
  rfl

theorem setLock_untagged {s u : State} (p : Word) (v pa : Nat) (h : (lockPlace .store p).go s = (.ok (pa, false), u)) :
    (setLock p v).go s = (.error (.trap ⟨21, p, 0⟩), u) := by
  rw [setLock, M.go_bind_ok _ (withPointer_ok p h), M.go_check_fail _ _ rfl]

theorem State.setHome64_parts (s : State) (l : Loc) (v : Nat) :
    (s.setHome64 l v).locks = s.locks ∧ (s.setHome64 l v).hart = s.hart := by
  rw [State.setHome64]
  cases l <;> exact ⟨rfl, rfl⟩

/-- The ring of R423 stands in memory: what it records changes no lock and no hart. -/
theorem State.tagRecord_parts (s : State) (hart pa kind a b : Nat) :
    (s.tagRecord hart pa kind a b).locks = s.locks ∧ (s.tagRecord hart pa kind a b).hart = s.hart := by
  unfold State.tagRecord
  split
  · exact ⟨rfl, rfl⟩
  · simp only [State.setHome64_parts, and_self]

theorem State.tagRecord_off (s : State) (hart pa kind a b : Nat) (h : bitOf s.taghist 0 = false) :
    s.tagRecord hart pa kind a b = s := if_pos (by rw [State.tagOn, h]; rfl)

/-- Without the ring, only the locks change. -/
theorem State.locked1_off (s : State) (pa v : Nat) (h : bitOf (s.beforeLock (pa / 32 * 32)).taghist 0 = false) :
    s.locked1 pa v = { s.beforeLock (pa / 32 * 32) with locks := (s.locked1 pa v).locks } := by
  have hset : s.locked1 pa v = { s.beforeLock (pa / 32 * 32) with
      locks := Tbl.set 0 (s.beforeLock (pa / 32 * 32)).locks (pa / 32) (.ofNat 4 v) } := State.tagRecord_off _ _ _ _ _ _ h
  rw [hset]

theorem State.advance_hart_congr {s t : State} (h : s.hart = t.hart) : s.advance.hart = t.advance.hart := by
  rw [State.advance, State.advance, h]

theorem State.locked1_lockOf (s : State) (pa v q : Nat) (h : (s.beforeLock (pa / 32 * 32)).canonical) :
    (s.locked1 pa v).lockOf q = if q / 32 = pa / 32 then .ofNat 4 v else (s.beforeLock (pa / 32 * 32)).lockOf q := by
  obtain ⟨-, -, -, -, hlocks, -⟩ := h
  rw [State.locked1, State.lockOf, (State.tagRecord_parts ..).1]
  split
  · next hq => exact hq.symm ▸ Tbl.get_set_same _ _ _ _ 0 hlocks
  · next hq => exact Tbl.get_set_other _ _ _ _ _ hq

/-- The granules after the first, and the first. -/
theorem granules_cons (p : Word) (n v : Nat) : ((List.range (n + 1)).forM fun g => setLock (p + .ofNat 64 (32 * g)) v)
    = (setLock p v >>= fun _ => ((List.range n).map Nat.succ).forM fun g => setLock (p + .ofNat 64 (32 * g)) v) := by
  have hp : p + .ofNat 64 (32 * 0) = p := BitVec.add_zero p
  rw [List.range_succ_eq_map]
  change (setLock (p + .ofNat 64 (32 * 0)) v >>= fun _ => _) = _
  rw [hp]

/-- One granule (R242). -/
theorem granule_one {s t : State} (p : Word) (v : Nat) (h : (setLock p v).go s = (.ok (), t)) :
    ((List.range 1).forM fun g => setLock (p + .ofNat 64 (32 * g)) v).go s = (.ok (), t) := by
  rw [granules_cons p 0 v, M.go_bind_ok _ h]
  rfl

theorem lock_setWidth (w : Word) : BitVec.ofNat 4 (w.toNat % 16) = w.setWidth 4 := by
  apply BitVec.eq_of_toNat_eq
  rw [BitVec.toNat_ofNat, BitVec.toNat_setWidth, Nat.mod_mod]

/-- Settles O40: each instruction of the table reads or sets its slot, by the laws of the table; `stag` on one granule is
`setLock`, and the ring of R423 changes no lock. -/
theorem tagTables : Obligations.TagTables := by
  unfold Obligations.TagTables
  refine ⟨?_, ?_⟩
  · intro s d a b key slot hit seen n hs
    obtain ⟨-, -, -, hwf, -⟩ := hs
    have hhit : ∀ k, hit k ↔ s.slotHits (s.slot k) (s.x a) = true := fun k => (s.slotHits_iff _ _).symm
    have hseen : ∀ v, s.slotSeen v = seen v := s.slotSeen_eq
    refine ⟨⟨_, exec_sptl s d a, fun h => ?_, fun k hk h hj => ?_⟩, fun hb => ?_, fun ha => ⟨?_, ?_, ?_⟩,
      fun ha => exec_slot_raises s d a b ha, fun hb => ⟨_, rfl, s.slotCheck_raises _ _ hb⟩⟩
    · rw [s.slotFind_none _ fun k hk => mt (hhit k).mpr (h k hk)]
      rfl
    · rw [s.slotFind_some _ k hk ((hhit k).mp h) fun j hjk => mt (hhit j).mpr (hj j hjk)]
      rfl
    · obtain ⟨t, ht, hframe, hnew, hold⟩ := exec_spti s d a b hb hwf
      have hcore : ∀ k, slot t k = t.slot k := fun k => by rw [hframe]; rfl
      refine ⟨t, ht, hseen _ ▸ hframe, (hcore _).trans (hnew.trans (s.newEntry_eq _)), fun k hk hkn => ⟨fun h => ?_, fun h => ?_⟩⟩
      · rw [hcore, hold k hk hkn, if_pos ((hhit k).mp h), word_bits_masked _ 62 (by decide)]
        rfl
      · rw [hcore, hold k hk hkn, if_neg (mt (hhit k).mpr h)]
        rfl
    · obtain ⟨t, ht, hframe, hslot⟩ := exec_spte s d a ha hwf
      have hcore : ∀ k, slot t k = t.slot k := fun k => by rw [hframe]; rfl
      refine ⟨t, ht, hseen _ ▸ hframe, ?_, fun k hk => ?_⟩
      · rw [hcore, hslot, if_pos rfl, word_bits_masked _ 61 (by decide)]
        rfl
      · rw [hcore, hslot, if_neg hk]
        rfl
    · obtain ⟨t, ht, hframe, hslot⟩ := exec_sptc s a b ha hwf
      have hcore : ∀ k, slot t k = t.slot k := fun k => by rw [hframe]; rfl
      refine ⟨t, ht, hframe, ?_, fun k hk => ?_⟩
      · rw [hcore, hslot, word_splice_bit62]
        simp only [true_and, n]
        rfl
      · rw [hcore, hslot, if_neg fun h => hk h.1]
        rfl
    · rw [exec_sptr s d a ha, hseen]
      rfl
  · intro s u d a b pa tagged p
    refine ⟨fun h => exec_ltag d a pa tagged h, fun h => exec_stag_misaligned s a b h, fun hp hstall hbuf hplace => ?_,
      fun hp hstall hbuf hgo => ?_⟩
    · intro z
      refine ⟨fun htag hone hz => ?_, fun htag => ?_⟩
      · subst htag
        have hgo := granule_one p ((s.x b).toNat % 16) (setLock_tagged p _ pa hplace)
        rw [← Nat.zero_add 1, ← hone] at hgo
        refine ⟨_, exec_stag_sets a b hp hstall hbuf hgo, ?_, fun q hq => ?_, ?_, fun hoff => ?_⟩
        · have hlock := u.locked1_lockOf pa ((s.x b).toNat % 16) pa hz
          rw [if_pos rfl, lock_setWidth] at hlock
          exact hlock
        · exact (u.locked1_lockOf pa _ q hz).trans (if_neg hq)
        · rw [State.wroteNext_zero]
          exact State.advance_hart_congr (State.tagRecord_parts ..).2
        · rw [State.wroteNext_zero, u.locked1_off pa _ hoff]
          rfl
      · subst htag
        have hgo := M.go_bind_error (fun _ => ((List.range ((s.x b).toNat / 2 ^ 8 % 2 ^ 8)).map Nat.succ).forM fun g =>
          setLock (p + .ofNat 64 (32 * g)) ((s.x b).toNat % 16)) (setLock_untagged p ((s.x b).toNat % 16) pa hplace)
        rw [← granules_cons] at hgo
        exact ⟨_, exec_stag_traps a b hp hstall hbuf hgo, u.raise_traps 21 p 0⟩
    · rw [exec_stag_sets a b hp hstall hbuf hgo]
      rfl

end Sys2Proof.Machine
end

section
/-! SUPPORT. Copies in the engine (R76, R107, R261, R262). -/

namespace Sys2Proof.Machine

/-! ### One byte -/

theorem scratch_offset {hart a n : Nat} {tv : Word} {s t : State} {l : Loc} (h : (scratch hart a n tv).go s = (.ok l, t)) :
    ∃ c o, l = .spad c o ∧ o < 2 ^ 21 := by
  rw [scratch, M.go_get_bind] at h
  obtain ⟨-, u, -, h⟩ := M.bind_ok h
  obtain ⟨-, v, -, h⟩ := M.bind_ok h
  cases h
  exact ⟨_, _, rfl, Nat.mod_lt _ (Nat.two_pow_pos 21)⟩

theorem resolveVirtual_glob {c : Ctx} {k : Acc} {p : Word} {way : Way} {s t : State} {q : Phys}
    (h : (resolveVirtual c k p way).go s = (.ok q, t)) : ∃ pa, q.loc = .glob pa := by
  obtain ⟨-, u, -, h⟩ := M.bind_ok h
  obtain ⟨r, v, -, h⟩ := M.bind_ok h
  obtain ⟨-, w, -, h⟩ := M.bind_ok h
  cases h
  exact ⟨_, rfl⟩

/-- A place in a scratchpad lies within its 2 MiB of addresses (R59, R62). -/
theorem resolve_offset {c : Ctx} {k : Acc} {p : Word} {n al : Nat} {way : Way} {s t : State} {q : Phys}
    (h : (resolve c k p n al way).go s = (.ok q, t)) (core o : Nat) (hq : q.loc = .spad core o) : o < 2 ^ 21 := by
  obtain ⟨-, u, -, h⟩ := M.bind_ok h
  rw [M.go_ite] at h
  split at h
  · obtain ⟨-, v, -, h⟩ := M.bind_ok h
    obtain ⟨-, w, -, h⟩ := M.bind_ok h
    obtain ⟨l, x, hl, h⟩ := M.bind_ok h
    obtain ⟨c', o', rfl, ho⟩ := scratch_offset hl
    cases h
    cases hq
    exact ho
  · obtain ⟨pa, hpa⟩ := resolveVirtual_glob h
    rw [hpa] at hq
    cases hq

theorem engineByte_offset {c : Copy} {k : Acc} {p : Word} {s t : State} {q : Phys}
    (h : (engineByte c k p).go s = (.ok q, t)) (core o : Nat) (hq : q.loc = .spad core o) : o < 2 ^ 21 := by
  obtain ⟨r, u, hr, h⟩ := M.bind_ok h
  obtain ⟨-, v, -, h⟩ := M.bind_ok h
  have hsame : r = q := by
    split at h
    · obtain ⟨_, w, -, h⟩ := M.bind_ok h
      obtain ⟨-, x, -, h⟩ := M.bind_ok h
      obtain ⟨-, y, -, h⟩ := M.bind_ok h
      cases h
      rfl
    · obtain ⟨-, x, -, h⟩ := M.bind_ok h
      obtain ⟨-, y, -, h⟩ := M.bind_ok h
      cases h
      rfl
  exact resolve_offset hr core o (hsame ▸ hq)

/-- A byte written outside the hub window is the only one that changes. -/
theorem State.homeStore_byte (u : State) (l : Loc) (b : Byte) (src : WakeSource) (hl : u.plainPlace l) (hu : u.canonical)
    (ho : ∀ c o, l = .spad c o → o < 2 ^ 21) :
    (u.homeStore l [b] src).homeByte l = b ∧ sameBytesBut u (u.homeStore l [b] src) l 1
      ∧ (u.homeStore l [b] src).hart = u.hart := by
  obtain ⟨hmem, hspad, -⟩ := hu
  cases l with
  | glob pa =>
    have hout : ¬ (decide (epOf pa = u.endpt) && inHub (offOf pa)) = true := by simpa [State.plainPlace] using hl
    have hw : u.homeStore (.glob pa) [b] src = u.homeSet (.glob pa) [b] := if_neg hout
    rw [hw]
    refine ⟨?_, ⟨fun a ha => ?_, fun _ _ _ _ => rfl, rfl⟩, rfl⟩
    · have hhome : (u.homeSet (.glob pa) [b]).homeByte (.glob pa) = (u.homeSet (.glob pa) [b]).mem.read pa :=
        if_neg hout
      rw [hhome]
      exact Memory.read_write_same _ _ _ hmem
    · exact Memory.read_write_other _ _ _ _ fun h => ha 0 Nat.one_pos (h ▸ rfl)
  | spad c o =>
    refine ⟨Memory.read_write_same _ _ _ hspad, ⟨fun _ _ => rfl, fun c' o' h' ho' => ?_, rfl⟩, rfl⟩
    refine Memory.read_write_other _ _ _ _ fun h => h' 0 Nat.one_pos ?_
    have := ho c o rfl
    simp only [spadKey] at h
    obtain ⟨rfl, rfl⟩ : c' = c ∧ o' = o := by omega
    rfl

theorem State.moveByte_plain {s t u : State} {c : Copy} {i : Nat} {p q : Phys} (hk : c.kind = .plain)
    (hp : (engineByte c .load (c.src + .ofNat 64 i)).go s = (.ok p, t))
    (hq : (engineByte c .store (c.dst + .ofNat 64 i)).go t = (.ok q, u)) :
    s.moveByte c i = (u.homeStore q.loc [t.homeByte p.loc] (.hart c.hart), .ok (u.homeDie q.loc).1) := by
  have hread : (do let q ← engineByte c .load (c.sourceByte i); pure ((← get).homeByte q.loc) : M Byte).go s
      = (.ok (t.homeByte p.loc), t) := by
    rw [Copy.sourceByte, hk, M.go_bind_ok _ hp]
    rfl
  rw [State.moveByte, hk]
  dsimp only
  rw [hread]
  dsimp only
  rw [show c.dst + word i = c.dst + .ofNat 64 i from rfl, hq]

/-! ### A copy of one byte as the only one -/

section
variable {s v : State} {c : Copy}

theorem State.find_copy (hc : s.copies = [c]) : s.copies.find? (fun d => d.id = c.id) = some c := by
  simp [hc]

theorem State.copyId_zero (hc : s.copies = [c]) : s.copyId 0 = some c.id := by
  simp [State.copyId, hc]

theorem State.startCopy_ready (hc : s.copies = [c]) (hr : c.ready = true) : s.startCopy c.id = s := by
  rw [State.startCopy, State.find_copy hc]
  exact if_pos hr

/-- The copy once its byte has landed. -/
def Copy.moved (c : Copy) (ep : Endpoint) : Copy := { c with done := [(0, 1)], eps := [ep] }

theorem State.moveBytes_one {ep : Endpoint} (hc : s.copies = [c]) (hr : c.ready = true) (hd : c.done = []) (hl : c.len = 1)
    (he : c.eps = []) (hdst : bitOf c.dst 63 = false) (hm : s.moveByte c 0 = (v, .ok ep)) (hv : v.copies = s.copies) :
    s.moveBytes c.id [0] = { v with copies := [c.moved ep] } := by
  have hopen : ¬ (!c.ready || decide (c.len ≤ 0) || inRanges 0 c.done) = true := by
    simp [hr, hl, hd, inRanges]
  have hput : v.putCopy { c with
      done := addRange (0, 0 + 1) c.done
      eps := if c.eps.contains ep then c.eps else c.eps ++ [ep] } = { v with copies := [c.moved ep] } := by
    simp [State.putCopy, hv, hc, hd, he, addRange, Copy.moved]
  rw [State.moveBytes, State.find_copy hc]
  dsimp only
  rw [if_neg hopen, hm]
  dsimp only
  rw [hput, hdst, Bool.false_and, if_neg Bool.false_ne_true, State.moveBytes]

theorem State.retire_only (hc : s.copies = [c]) :
    s.retire c = { s.modChannel (c.hart / 4) c.ch fun k => { k with busy := k.busy - 1 } with copies := [] } := by
  have hnone :
      (s.modChannel (c.hart / 4) c.ch fun k => { k with busy := k.busy - 1 }).copies.filter (fun d => d.id ≠ c.id) = [] := by
    rw [show (s.modChannel (c.hart / 4) c.ch fun k => { k with busy := k.busy - 1 }).copies = [c] from hc]
    simp
  rw [State.retire, hnone]

/-- The byte has landed, and the release, if there is one, is answered. -/
theorem State.finishCopy_retires (hc : s.copies = [c]) (hr : c.ready = true) (hd : c.done = [(0, 1)]) (hl : c.len = 1)
    (h : c.rel = true → c.scope = .domain → ∀ e ∈ c.eps, s.answering e = true) :
    s.finishCopy c.id = s.retire c := by
  have hdone : ¬ (!c.ready || decide (newBytes (0, c.len) c.done ≠ 0)) = true := by
    simp [hr, hl, hd, newBytes]
  have hnone : (if c.rel && decide (c.scope = .domain) then c.eps.filterMap s.flushFails else []) = [] := by
    split
    · next hs =>
      rw [Bool.and_eq_true, decide_eq_true_eq] at hs
      exact List.filterMap_eq_nil_iff.mpr fun e he => Option.isNone_iff_eq_none.mp (h hs.1 hs.2 e he)
    · rfl
  rw [State.finishCopy, State.find_copy hc]
  dsimp only
  rw [if_neg hdone, hnone]

theorem State.finishCopy_stays {ep : Endpoint} (hc : s.copies = [c]) (hrel : c.rel = true) (hscope : c.scope = .domain)
    (he : c.eps = [ep]) (h : s.flushFails ep = some cFlushTimeout) : s.finishCopy c.id = s := by
  rw [State.finishCopy, State.find_copy hc]
  dsimp only
  split
  · rfl
  · simp [hrel, hscope, he, h]

/-- BUSY of the channel of the copy that retires. -/
theorem State.busy_modChannel (core ch : Nat) (hs : Tbl.wfFrom {} 0 s.cores = true) (hch : ch < 8) :
    (((s.modChannel core ch fun k => { k with busy := k.busy - 1 }).coreAt core).ch.toList.getD ch {}).busy
      = ((s.coreAt core).ch.toList.getD ch {}).busy - 1 := by
  rw [State.modChannel, State.modCore, State.coreAt, Tbl.get_set_same _ _ _ _ 0 hs]
  simp [List.getD_eq_getElem?_getD, hch]

/-- A copy whose byte has landed retires, and only its channel's BUSY changes. -/
theorem State.finishCopy_done (hc : s.copies = [c]) (hr : c.ready = true) (hd : c.done = [(0, 1)]) (hl : c.len = 1)
    (h : c.rel = true → c.scope = .domain → ∀ e ∈ c.eps, s.answering e = true) (hs : Tbl.wfFrom {} 0 s.cores = true)
    (hch : c.ch < 8) :
    ∃ t, s.finishCopy c.id = t ∧ t = { s with copies := [], cores := t.cores }
      ∧ ((t.coreAt (c.hart / 4)).ch.toList.getD c.ch {}).busy = ((s.coreAt (c.hart / 4)).ch.toList.getD c.ch {}).busy - 1 :=
  ⟨_, (State.finishCopy_retires hc hr hd hl h).trans (State.retire_only hc), rfl, State.busy_modChannel _ _ hs hch⟩

theorem exec_copyDataLands (hc : s.copies = [c]) (hr : c.ready = true) :
    exec (.copyDataLands 0 0 1) s = .next (s.moveBytes c.id [0]) := by
  have harm : exec (.copyDataLands 0 0 1) s = execCopyDataLands 0 0 1 s := rfl
  rw [harm, execCopyDataLands, State.copyId_zero hc]
  dsimp only
  rw [State.startCopy_ready hc hr]
  rfl

theorem exec_copyPerform (hc : s.copies = [c]) (hr : c.ready = true) (hl : c.len = 1) :
    exec (.copyPerform 0) s = .next ((s.moveBytes c.id [0]).finishCopy c.id) := by
  have harm : exec (.copyPerform 0) s = execCopyPerform 0 s := rfl
  rw [harm, execCopyPerform, State.copyId_zero hc]
  dsimp only
  rw [State.performCopy, State.startCopy_ready hc hr]
  rw [State.find_copy hc]
  dsimp only
  rw [hl]
  rfl

theorem exec_copyRetire (hc : s.copies = [c]) : exec (.copyRetire 0) s = .next (s.finishCopy c.id) := by
  have harm : exec (.copyRetire 0) s = execCopyRetire 0 s := rfl
  rw [harm, execCopyRetire, State.copyId_zero hc]

end

/-- Settles O44: the list holds the one copy, so each event finds it; a byte goes to its place outside the hub window alone. -/
theorem copyEvents : Obligations.CopyEvents := by
  unfold Obligations.CopyEvents
  refine ⟨?_, ?_⟩
  · intro s c v ep ch released moved hc hr hd hl hch hs
    obtain ⟨-, -, -, -, -, hs, -⟩ := hs
    have hmc : moved.copies = [{ c with done := [(0, 1)] }] := rfl
    refine ⟨fun hm hdst hv hcores he => ?_, fun hrel => ?_, fun hrel hscope he hsil hdown hex => ?_⟩
    · have hone := State.moveBytes_one hc hr hd hl he hdst hm hv
      have hwf : Tbl.wfFrom {} 0 v.cores = true := hcores ▸ hs
      refine ⟨?_, fun hrel => ?_⟩
      · rw [exec_copyDataLands hc hr, hone]
        rfl
      · obtain ⟨t, ht, hframe, hb⟩ :=
          State.finishCopy_done (s := { v with copies := [c.moved ep] }) (c := c.moved ep) rfl hr rfl hl hrel hwf hch
        have hcore : ∀ n, ({ v with copies := [c.moved ep] } : State).coreAt n = s.coreAt n := fun n => by
          rw [State.coreAt, State.coreAt, hcores]
        rw [hcore] at hb
        exact ⟨t, by rw [exec_copyPerform hc hr hl, hone]; exact congrArg _ ht, hframe, hb⟩
    · obtain ⟨t, ht, hframe, hb⟩ := State.finishCopy_done hmc hr rfl hl hrel hs hch
      exact ⟨t, by rw [exec_copyRetire hmc]; exact congrArg _ ht, hframe, hb⟩
    · have hfails : moved.flushFails ep = some cFlushTimeout := by
        simp [moved, State.flushFails, hsil, hdown, hex]
      rw [exec_copyRetire hmc, State.finishCopy_stays hmc hrel hscope he hfails]
  · intro s t u c i p q hk hp hq hplain hu
    obtain ⟨hbyte, hrest, hhart⟩ := u.homeStore_byte q.loc (t.homeByte p.loc) (.hart c.hart) hplain hu (engineByte_offset hq)
    exact ⟨_, State.moveByte_plain hk hp hq, hbyte, hrest, hhart⟩

end Sys2Proof.Machine
end

section
/-! SUPPORT. A faulting store whose trap waits for a train that is never acknowledged (R69, R104, R345). -/

namespace Sys2Proof.Machine

/-! ### A store that does not land

A store that stops at an element lands once the trains of the elements below are acknowledged (R345). As in `ownDown`, the train of
the element at another die of the hart's own endpoint is not acknowledged while that endpoint is listed as down: the store is
held and no trap is taken yet. -/

/-- `ownDown` with two FP32 elements, of which only the first lies in a region of the partition. -/
def ownDownStore : State :=
  { ownDown with
    hart.vl := 2
    part.regions := [(0x2400000000, 4)] }

/-- CAUSE after an instruction. -/
def causeAfter : Result → Option Word
  | .next t => some t.hart.cause
  | _ => none

/-- The store is held: `CAUSE` keeps its old value 0. -/
theorem ownDownStore_held : causeAfter (exec (.vst false 6 1 .global .hart .none) ownDownStore) = some 0 := by decide +kernel

theorem ownDownStore_ready : ownDownStore.alone ∧ ownDownStore.vectorReady tyAny ∧ ownDownStore.tileOk 6 1 ∧ ownDownStore.settled := by
  unfold State.alone State.vectorReady State.vectorOn State.tileOk State.settled
  decide +kernel

/-- Its second element raises the store's access cause. -/
theorem ownDownStore_resolves : resolveElems (ownDownStore.active false) (List.range 1)
    (fun k => placeElem k .global 1 .unit 6 32) .store (spanList 0 2) ownDownStore []
    = (ownDownStore, [ownDownAccess], some (1, .trap ⟨21, 0x2400000004, 0⟩)) := by
  decide +kernel

/-- Refutes O36: nothing in the statement keeps the hart's own endpoint out of the list of those that are down, and then a store that
faults above an element on another die of that endpoint is held for its train: in `ownDownStore` no trap with cause 21 is
taken. -/
theorem not_faultingElements : ¬ Obligations.FaultingElements := by
  unfold Obligations.FaultingElements
  intro h
  obtain ⟨halone, hready, htile, hsettled⟩ := ownDownStore_ready
  obtain ⟨-, -, hstore⟩ := h ownDownStore ownDownStore false 6 1 .global .hart [ownDownAccess] 1 ⟨21, 0x2400000004, 0⟩
    halone hready (fun hlane => nomatch hlane) htile hsettled
  obtain ⟨t, hexec, hcause, -⟩ := hstore ownDownStore_resolves
  have hkept := ownDownStore_held
  rw [hexec] at hkept
  exact absurd ((Option.some.inj hkept).symm.trans hcause) (by decide)

end Sys2Proof.Machine
end

section
/-! SUPPORT. The ends of implicit stalls (R70, R74, R76, R78, R79), and grant changes (R337). -/

namespace Sys2Proof.Machine

/-! ### Stalls -/

section
variable {s : State} {st : Stall}

/-- What a stall leaves when what it waits for has come (R344). -/
def Stall.over (st : Stall) : Option Stall :=
  if st.vec = true ∨ st.kind = 4 then
    some { st with kind := 13, object := if st.vec then 0 else st.object, deadline := 2 ^ 64 }
  else none

theorem State.endStall_over (ends : Nat → Bool) (hst : s.hart.stall = some st) (h : ends st.object = true) :
    s.endStall st.kind ends = { s with hart.stall := st.over } := by
  unfold State.endStall Stall.over
  rw [hst]
  dsimp only
  rw [if_pos (by rw [h, decide_eq_true rfl, Bool.and_self])]
  cases hv : st.vec
  · simp only [Bool.false_eq_true, if_false, false_or]
  · simp only [if_true, true_or]

theorem State.parks_false (va : Nat) (h : ∀ o u, (translate s.ctx .load va).go s ≠ (.error (.stall 4 o), u)) :
    s.parks va = false := by
  unfold State.parks
  split
  · next o u e => exact absurd e (h o u)
  · rfl

/-- Time that has come brings nothing. -/
theorem State.passUntil_past (s : State) (t : Nat) (h : t ≤ s.now.toNat) : s.passUntil t = s := if_neg (Nat.not_lt.mpr h)

theorem Hart.due_keeps (h : Hart) (now : Nat) : (h.due now).pc = h.pc ∧ (h.due now).stall = h.stall := by
  unfold Hart.due overflowDue sliceDue
  repeat' split
  all_goals exact ⟨rfl, rfl⟩

/-- Time goes on until `t`. -/
theorem State.passUntil_ahead (s : State) (t : Nat) (h : s.now.toNat < t) (ht : t < 2 ^ 64) :
    (s.passUntil t).now.toNat = t ∧ (s.passUntil t).hart.pc = s.hart.pc ∧ (s.passUntil t).hart.stall = s.hart.stall
      ∧ (s.passUntil t).mem = s.mem := by
  have hnow : (s.now + word (t - s.now.toNat)).toNat = t := by
    rw [BitVec.toNat_add, BitVec.toNat_ofNat]
    omega
  rw [State.passUntil, if_pos h]
  exact ⟨hnow, (s.hart.due_keeps _).1, (s.hart.due_keeps _).2, rfl⟩

/-- A stall whose deadline has come raises its cause (R74). -/
theorem State.stallAt_due (o : Nat) (hst : s.hart.stall = some st) (hd : st.deadline ≤ s.now.toNat)
    (hsame : st.same st.kind o = true) : s.stallAt st.kind o = s.raise (stallTrap { st with object := o }) := by
  have hheld : s.stallHeld st.kind o = some st := by
    rw [State.stallHeld, hst, Option.filter_some, if_pos hsame]
  have hof : s.stallOf st.kind o = { st with object := o } := by
    rw [State.stallOf, hheld]
  have hclamp : s.stallClamp st.kind o = s := by
    rw [State.stallClamp, hheld]
    rfl
  rw [State.stallAt, hof, hclamp]
  exact if_pos hd

/-- The cause of a stall, by its kind (R74, R102; log 100). -/
theorem State.raise_stall (s : State) (st : Stall) :
    s.traps (s.raise (stallTrap st)) (if st.kind = 0 then 62 else 48)
      (if st.kind = 0 then word st.object else if st.kind = 12 then Config.responseTval st.object
        else word (st.kind * 2 ^ 56 + st.object % 2 ^ 56)) (word st.deadline) := by
  unfold stallTrap
  by_cases h0 : st.kind = 0
  · rw [if_pos h0, if_pos h0, if_pos h0]
    exact s.raise_traps ..
  · rw [if_neg h0, if_neg h0, if_neg h0]
    by_cases h12 : st.kind = 12
    · rw [if_pos h12, if_pos h12]
      exact s.raise_traps ..
    · rw [if_neg h12, if_neg h12]
      exact s.raise_traps ..

theorem exec_waitExpiredImplicit (hst : s.hart.stall = some st) :
    exec .waitExpiredImplicit s = .next (if st.kind = 13 then s else s.passUntil st.deadline) := by
  have harm : exec .waitExpiredImplicit s = execWaitExpiredImplicit s := rfl
  rw [harm, execWaitExpiredImplicit, hst]

/-- Every byte that a channel has been promised has landed (R76). -/
theorem Channel.landedAll_of {k : Channel} (hb : k.busy = 0) (hw : k.counts = true → k.dbase + k.len ≤ k.wm) :
    k.landedAll = true := by
  rw [Channel.landedAll, hb]
  cases hc : k.counts
  · rfl
  · simp [hw hc]

end

/-! ### Grants -/

/-- What a change of grants keeps. -/
def State.sameScalar (s t : State) : Prop :=
  t.hart.pc = s.hart.pc ∧ t.hart.x = s.hart.x ∧ t.mem = s.mem ∧ t.spad = s.spad

/-- A hart that changes neither `pc` nor S changes nothing of that, nor a core's shared state. -/
theorem State.modHart_scalar (s : State) (n : Nat) (f : Hart → Hart) (hf : (f s.hart).pc = s.hart.pc ∧ (f s.hart).x = s.hart.x) :
    s.sameScalar (s.modHart n f) ∧ (s.modHart n f).cores = s.cores := by
  unfold State.modHart State.sameScalar
  split
  · exact ⟨⟨hf.1, hf.2, rfl, rfl⟩, rfl⟩
  · exact ⟨⟨rfl, rfl, rfl, rfl⟩, rfl⟩

theorem State.sameScalar.trans {s t u : State} (h : s.sameScalar t) (h' : t.sameScalar u) : s.sameScalar u := by
  obtain ⟨h1, h2, h3, h4⟩ := h
  obtain ⟨h1', h2', h3', h4'⟩ := h'
  exact ⟨h1'.trans h1, h2'.trans h2, h3'.trans h3, h4'.trans h4⟩

/-- A hart of a core whose count of groups changes is told. -/
def State.grantsChanged (c : Nat) (old new : Vector (Option (BitVec 2)) 8) (t : State) (k : Nat) : State :=
  if (groupsOf new k).length = (groupsOf old k).length then t
  else t.modHart (4 * c + k) (grantChanged (groupsOf new k).length)

theorem State.grantsChanged_all (s : State) (c : Nat) (old new : Vector (Option (BitVec 2)) 8) (l : List Nat) :
    s.sameScalar (l.foldl (State.grantsChanged c old new) s) ∧ (l.foldl (State.grantsChanged c old new) s).cores = s.cores := by
  refine List.foldlRecOn (motive := fun t : State => s.sameScalar t ∧ t.cores = s.cores) _ _ ⟨⟨rfl, rfl, rfl, rfl⟩, rfl⟩
    fun t ht k _ => ?_
  unfold State.grantsChanged
  split
  · exact ht
  · obtain ⟨h1, h2⟩ := t.modHart_scalar (4 * c + k) (grantChanged (groupsOf new k).length) ⟨rfl, rfl⟩
    exact ⟨ht.1.trans h1, h2.trans ht.2⟩

theorem State.setLat_keeps (s : State) (c : Nat) (new : Vector (Option (BitVec 2)) 8) (hs : s.canonical) :
    s.sameScalar (s.setLat c new) ∧ ((s.setLat c new).coreAt c).lat = new ∧ Tbl.wfFrom {} 0 (s.setLat c new).cores = true := by
  obtain ⟨-, -, -, -, -, hcores, -⟩ := hs
  unfold State.setLat
  dsimp only
  generalize hz : State.modCore _ c _ = z
  have hwf : Tbl.wfFrom {} 0 z.cores = true := hz ▸ Tbl.set_wfFrom _ _ _ _ 0 (Nat.zero_le _) hcores
  have hlat : (z.coreAt c).lat = new := by
    rw [← hz, State.coreAt, State.modCore, Tbl.get_set_same _ _ _ _ 0 hcores]
  have hscalar : s.sameScalar z := hz ▸ ⟨rfl, rfl, rfl, rfl⟩
  obtain ⟨hsame, heq⟩ := z.grantsChanged_all c (s.coreAt c).lat new (List.range 4)
  exact ⟨hscalar.trans hsame, (congrArg (fun t => (Tbl.get {} t c).lat) heq).trans hlat, heq ▸ hwf⟩

/-- With no vector convoy held, a change of grants comes into force as a whole (R337). -/
theorem State.stepGrants_done (s : State) (c : Nat) (new : Vector (Option (BitVec 2)) 8) (hnew : (s.coreAt c).latNew = some new)
    (hs : s.canonical) (hheld : ∀ j, j < 4 → (s.hartAt (4 * c + j)).vectorHeld = false) :
    s.sameScalar (s.stepGrants c) ∧ ((s.stepGrants c).coreAt c).lat = new ∧ ((s.stepGrants c).coreAt c).latNew = none := by
  have hall : s.grantSoFar c (s.coreAt c).lat new = new := by
    have hfree : ∀ o : Option (BitVec 2), (o.elim false fun k => (s.hartAt (4 * c + k.toNat)).vectorHeld) = false := by
      intro o
      cases o with
      | none => rfl
      | some k => exact hheld k.toNat k.isLt
    ext g hg : 1
    simp only [State.grantSoFar, hfree, Bool.or_false, Bool.false_eq_true, if_false, Vector.getElem_ofFn, Fin.getElem_fin,
      decide_eq_true_eq]
    split
    · next h => exact h
    · rfl
  obtain ⟨hsame, hlat, hwf⟩ := s.setLat_keeps c new hs
  rw [State.stepGrants, hnew]
  dsimp only
  rw [hall, if_pos rfl]
  have hcore : ((s.setLat c new).modCore c fun q => { q with latNew := none }).coreAt c
      = { (s.setLat c new).coreAt c with latNew := none } := Tbl.get_set_same _ _ _ _ 0 hwf
  refine ⟨hsame, ?_, ?_⟩
  · rw [hcore]
    exact hlat
  · rw [hcore]

end Sys2Proof.Machine
end

section
/-! SUPPORT. Answers to a wait and waits that end (R123, R264, R267, R269, R431, R435). -/

namespace Sys2Proof.Machine

/-! ### Ends of waits -/

theorem scopeOfCode_hart (n : Nat) : scopeOfCode n = .hart ↔ n = 0 := by
  unfold scopeOfCode
  split <;> simp_all

/-- `CROUND` takes the round's tag, if there is one (R116). -/
def State.noteRound (s : State) (round : Option Nat) : State :=
  { s with hart.cround := round.elim s.hart.cround (.ofNat 48) }

/-- v(c) takes an absentee set, if there is one (R116). -/
def State.noteAbsent (s : State) (c : VReg) (absent : Option Nat) : State :=
  { s with
    hart.v := absent.elim s.hart.v fun v => if c = 0 then s.hart.v else s.hart.v.set c.toNat v c.isLt
    hart.status.vs := if absent.isSome && decide (c ≠ 0) then .dirty else s.hart.status.vs }

theorem State.noteAbsent_zero (s : State) (v : Nat) : s.noteAbsent 0 (some v) = s := rfl

theorem State.noteAbsent_some (s : State) (c : VReg) (v : Nat) (hc : c ≠ 0) :
    s.noteAbsent c (some v) = { s.dirtyV with hart.v := s.hart.v.set c.toNat v c.isLt } := by
  unfold State.noteAbsent
  rw [Option.isSome_some, Bool.true_and, if_pos (decide_eq_true hc), Option.elim_some, if_neg hc]
  rfl

theorem State.endWait_eq (s : State) (d : SReg) (c : VReg) (e : Ending) : s.endWait d c e = ({
      (((s.acquireAt e.scope).noteRound e.round).noteAbsent c e.absent).setX d e.status with
      hart.wait := none } : State).advance := by
  obtain ⟨status, absent, round, scope⟩ := e
  have hround : ∀ t : State, (match round with
      | some r => { t with hart.cround := .ofNat 48 r }
      | none => t) = t.noteRound round := by
    cases round <;> exact fun t => rfl
  have habsent : ∀ t : State, (match absent with
      | some v => if c = 0 then t else { t.dirtyV with hart.v := t.hart.v.set c.toNat v c.isLt }
      | none => t) = t.noteAbsent c absent := by
    intro t
    cases absent with
    | none => rfl
    | some v =>
      dsimp only
      split
      · next hc =>
        subst hc
        rfl
      · next hc => exact (t.noteAbsent_some c v hc).symm
  rw [← habsent, ← hround]
  rfl

/-- A wait ends, with no store of another hart under way that comes before a release (R92, R95, R270). -/
theorem State.endWait_done (s : State) (d : SReg) (c : VReg) (status : Word) (absent round : Option Nat) (scope : Nat)
    (h : s.noneReleased) :
    s.endWait d c ⟨status, absent, round, scope⟩ = s.waitEnded d c status absent round scope := by
  have hacq : s.acquireAt scope = { s with hart.l1 := s.l1Acquired scope } := by
    rw [State.acquireAt, s.acquire_noneReleased _ h, State.l1Acquired]
    simp only [scopeOfCode_hart]
  rw [State.endWait_eq, hacq, State.setX_eq]
  rfl

section
variable {s : State} {l : Loc} {e : Member} {w : Wait}

/-- A wait for a round that a silent home has not answered (R123, R435). -/
theorem State.loseRound_done (d : SReg) (c : VReg) (verb : RoundVerb) (hv : verb ≠ .acq) (he : s.hart.entry l = some e)
    (h : s.noneReleased) :
    s.loseRound d c l verb = s.waitEnded d c (statusWord 1 0xFE e.tag 0xFFFF) none (some e.tag) (verb.scope e.scope) := by
  rw [State.loseRound, State.lostEnding, he]
  dsimp only
  rw [if_neg hv]
  exact s.endWait_done d c _ none (some e.tag) _ h

/-- An `acq` also notes which round it may mend (R277). -/
theorem State.loseRound_acq (d : SReg) (c : VReg) (he : s.hart.entry l = some e) (h : s.noneReleased) :
    s.loseRound d c l .acq = (s.entered l fun m => { m with mend := some m.tag }).waitEnded d c
      (statusWord 1 0xFE e.tag 0xFFFF) none (some e.tag) e.scope := by
  rw [State.loseRound, State.lostEnding, he]
  dsimp only
  rw [if_pos rfl]
  exact State.endWait_done _ d c _ none (some e.tag) _ h

/-- The end of a wait that a silent home has not answered by its deadline is the hart's own. -/
theorem exec_waitDeadlineAtHart_lost {i : Instr} (hw : s.hart.wait = some w) (hl : w.cask = some l) (ha : w.answer = none)
    (hd : w.deadline ≤ s.now.toNat) (hs : s.homeSilent l = true) (hi : s.current = some i) :
    exec .waitDeadlineAtHart s = .next (s.lostWait l i) := by
  have harm : exec .waitDeadlineAtHart s = execWaitDeadlineAtHart s := rfl
  rw [harm, execWaitDeadlineAtHart, hw]
  dsimp only
  rw [if_neg (by rw [ha]; exact Bool.false_ne_true), s.passUntil_past _ hd, hl, hi]
  dsimp only
  rw [if_pos hs, hw, Option.bind_some, ha, if_neg (by exact Bool.false_ne_true)]

/-- A wait without a round's tag that a silent home has not answered (R435; log 94). -/
theorem State.lostEnding_plain (code : Nat) (he : s.hart.entry l = some e) :
    s.lostEnding l code false = ⟨statusWord code 0xFE 0 0xFFFF, none, none, e.scope⟩ := by
  rw [State.lostEnding, he]
  rfl

/-- A `cwait` whose deadline has come ends with what its channel says (R77, R264). -/
theorem exec_waitDeadlineAtHart_cwait (ch : BitVec 3) (a b : SReg) (hw : s.hart.wait = some w) (hl : w.cask = none)
    (ha : w.answer = none) (hd : w.deadline ≤ s.now.toNat) (hi : s.current = some (.cwait ch a b))
    (hf : (s.channel ch).flt = none) (ho : (s.channel ch).ovf = false) (h : s.noneReleased) :
    exec .waitDeadlineAtHart s = .next (s.waitEnded b 0
      (statusWord (if (s.channel ch).complete = true then 0 else 1) 0 0 (s.channel ch).busy) none none
      (if (s.channel ch).complete = true then 1 else 0)) := by
  have harm : exec .waitDeadlineAtHart s = execWaitDeadlineAtHart s := rfl
  rw [harm, execWaitDeadlineAtHart, hw]
  dsimp only
  rw [if_neg (by rw [ha]; exact Bool.false_ne_true), s.passUntil_past _ hd, hl, hi]
  dsimp only
  rw [s.runM_ok _ _ _ _ (channelEnd_ok s ch hf ho), s.endChannel_eq b ch _ fun _ => h]
  by_cases hdone : (s.channel ch).complete = true
  · rw [if_pos hdone, if_pos rfl, if_pos hdone]
  · rw [if_neg hdone, if_neg Nat.one_ne_zero, if_neg hdone]

/-! ### Answers -/

/-- Whether an answer carries an absentee set (R116). -/
theorem State.carriesSet_iff (s : State) (l : Loc) (st : Word) : s.carriesSet l st = true
    ↔ st.toNat / 2 ^ 56 ≤ 2 ∧ ¬ (st.toNat / 2 ^ 56 = 0 ∧ (s.header l).kind = 2) := by
  have hcode : bits st 63 56 = st.toNat / 2 ^ 56 := by
    have hlt := st.isLt
    unfold bits
    omega
  simp only [State.carriesSet, hcode, Bool.and_eq_true, Bool.not_eq_true', decide_eq_true_eq, Bool.and_eq_false_iff,
    decide_eq_false_iff_not, not_and_or]

theorem answerTag_eq (round : Nat) (st : Word) :
    answerTag round st = round + (st.toNat / 2 ^ 16 % 2 ^ 32 + (2 ^ 32 - round % 2 ^ 32)) % 2 ^ 32 := rfl

theorem exec_caskAnswerArrival (st : Word) (c : Carried) (he : s.hart.entry l = some e) (hw : s.hart.wait = some w)
    (hl : w.cask = some l) (ha : w.answer = none) :
    exec (.caskAnswerArrival st c) s = .next { s with hart.wait := some { w with answer := some {
      status := st
      absent := if s.carriesSet l st then some c.absent else none
      n := e.n
      tag := answerTag w.round st
      scope := e.scope
      strip := word (leNat (c.data.take 8))
      data := c.data } } } := by
  have harm : exec (.caskAnswerArrival st c) s = execCaskAnswerArrival st c s := rfl
  rw [harm, execCaskAnswerArrival, hw]
  dsimp only
  rw [hl, ha]
  dsimp only
  rw [he]
  rfl

theorem exec_closureRecordArrival (st : Word) (tag absent : Nat) (he : s.hart.entry l = some e) (hp : s.hart.parked = []) :
    exec (.closureRecordArrival l st tag absent) s
      = .next { s with hart := s.hart.takeRecord l e.index ⟨st, tag, absent⟩ e.n e.scope } := by
  have harm : exec (.closureRecordArrival l st tag absent) s = execClosureRecordArrival l st tag absent s := rfl
  rw [harm, execClosureRecordArrival, he, hp]
  rfl

/-- The entry of a cask is one of the hart's members. -/
theorem Hart.member_of_entry {h : Hart} (he : h.entry l = some e) :
    ∃ m, h.members.find? (fun m => m.cask = l && m.index = e.index) = some m := by
  refine Option.isSome_iff_exists.mp (List.find?_isSome.mpr ⟨e, List.mem_of_find?_eq_some he, ?_⟩)
  have hcask := List.find?_some he
  simp only [decide_eq_true_eq] at hcask
  simp [hcask]

/-- A record goes to the wait that awaits it (R123). -/
theorem Hart.takeRecord_wait {h : Hart} (r : Record) (n sc : Nat) (he : h.entry l = some e) (hw : h.wait = some w)
    (hl : w.cask = some l) (ha : w.answer = none) (hb : w.barr = false) :
    h.takeRecord l e.index r n sc = { h with wait := some { w with
      answer := some { status := r.status, absent := some r.absent, n := n, tag := r.tag, scope := sc } } } := by
  obtain ⟨m, hm⟩ := Hart.member_of_entry he
  rw [Hart.takeRecord, hm]
  dsimp only
  rw [hw]
  dsimp only
  rw [if_pos (by simp [hl, ha, hb])]

/-- A record that finds no wait goes to the slot of its entry (R267). -/
theorem Hart.takeRecord_slot {h : Hart} (r : Record) (n sc : Nat) (he : h.entry l = some e) (hw : h.wait = none)
    (hm : h.members = [e]) : h.takeRecord l e.index r n sc = { h with members := [{ e with slot := some r }] } := by
  obtain ⟨m, hfind⟩ := Hart.member_of_entry he
  have hcask := List.find?_some he
  rw [Hart.takeRecord, hfind]
  dsimp only
  rw [hw, hm]
  dsimp only
  rw [List.map_cons, List.map_nil, if_pos (by simpa using hcask)]

/-! ### A completion that was held back -/

/-- A completion held back by a stagger delay (R431). -/
theorem State.goRound_delayed {x : Answer} {t : Nat} (d : SReg) (c : VReg) (verb : RoundVerb) (hv : verb = .arrive ∨ verb = .wait)
    (hw : s.hart.wait = some w) (hl : w.cask = some l) (ha : w.answer = some x) (hd : w.delay = some t) (ht : t ≤ s.now.toNat)
    (hx : x.status.toNat / 2 ^ 56 ≤ 1) (h : s.noneReleased) :
    s.goRound d c verb = (s.entered l fun m => { m with
      tag := min (x.tag + 1) (2 ^ 48 - 1)
      arrived := false }).waitEnded d c x.status x.absent (some x.tag) x.scope := by
  have hend : s.staggerEnd l w x = t := by
    rw [State.staggerEnd, hd]
  have hcode : bits x.status 63 56 ≤ 1 := by
    have hlt := x.status.isLt
    unfold bits
    omega
  have hmember : ∀ m : Member, m.answered verb (s.lock l).gen x
      = { m with tag := min (x.tag + 1) (2 ^ 48 - 1), arrived := false } := by
    intro m
    rcases hv with rfl | rfl
    all_goals
      unfold Member.answered
      dsimp only
      rw [if_neg (by omega), if_neg (by decide), if_neg (by decide), if_pos hcode]
  have hending : verb.ending x = ⟨x.status, x.absent, some x.tag, x.scope⟩ := by
    rcases hv with rfl | rfl
    all_goals
      unfold RoundVerb.ending
      dsimp only
      rw [if_neg (by omega), if_pos (by simp; omega), if_pos (by simp; omega)]
      rfl
  rw [State.goRound, hw]
  dsimp only
  rw [hl]
  dsimp only
  rw [if_pos (by rw [ha]; rfl), hw, Option.bind_some, ha]
  dsimp only
  rw [hend, if_pos ht, State.takeAnswer, hending]
  simp only [hmember]
  exact State.endWait_done _ d c x.status x.absent (some x.tag) x.scope h

theorem exec_staggeredCompletion {x : Answer} {t : Nat} (d a b : SReg) (c : VReg) (hw : s.hart.wait = some w)
    (hl : w.cask = some l) (ha : w.answer = some x) (hd : w.delay = some t) (ht : t ≤ s.now.toNat)
    (hx : x.status.toNat / 2 ^ 56 ≤ 1) (h : s.noneReleased)
    (hi : s.current = some (.bar d a b c) ∨ s.current = some (.barw d a b c)) :
    exec .staggeredCompletion s = .next ((s.entered l fun m => { m with
      tag := min (x.tag + 1) (2 ^ 48 - 1)
      arrived := false }).waitEnded d c x.status x.absent (some x.tag) x.scope) := by
  have harm : exec .staggeredCompletion s = execStaggeredCompletion s := rfl
  rw [harm, execStaggeredCompletion, hw, Option.bind_some, hd]
  rcases hi with hi | hi
  · rw [hi]
    dsimp only
    rw [s.passUntil_past _ ht, s.goRound_delayed d c .arrive (.inl rfl) hw hl ha hd ht hx h]
  · rw [hi]
    dsimp only
    rw [s.passUntil_past _ ht, s.goRound_delayed d c .wait (.inr rfl) hw hl ha hd ht hx h]

end

end Sys2Proof.Machine
end

section
/-! SUPPORT. The doublewords of a cask (R117 to R120), and a round that closes at its deadline (R123). -/

namespace Sys2Proof.Machine

/-! ### Doublewords at a home -/

section
variable {s t : State}

/-- Outside the hub window bytes are those of the memory or the scratchpad. -/
theorem State.homeByte_congr (hmem : t.mem = s.mem) (hspad : t.spad = s.spad) (hep : t.endpt = s.endpt) {l : Loc}
    (hl : s.plainPlace l) : t.homeByte l = s.homeByte l := by
  cases l with
  | spad c o => exact congrArg (·.read (spadKey c o)) hspad
  | glob pa =>
    have hout : ¬ (decide (epOf pa = s.endpt) && inHub (offOf pa)) = true := by simpa [State.plainPlace] using hl
    rw [State.homeByte, State.homeByte, if_neg hout, hep, if_neg hout, hmem]

theorem State.homeRead_bytes {l : Loc} {n : Nat} (h : ∀ i, i < n → t.homeByte (l.plus i) = s.homeByte (l.plus i)) :
    t.homeRead l n = s.homeRead l n := by
  induction n generalizing l with
  | zero => rfl
  | succ n ih =>
    have h0 := h 0 (Nat.succ_pos n)
    rw [Loc.plus_zero] at h0
    rw [State.homeRead, State.homeRead, h0, ih fun i hi => by rw [Loc.plus_plus]; exact h (1 + i) (by omega)]

theorem State.homeRead_glob (s : State) (pa n : Nat) (h : ∀ i, i < n → s.plainPlace (.glob (pa + i))) :
    s.homeRead (.glob pa) n = s.mem.readN pa n := by
  induction n generalizing pa with
  | zero => rfl
  | succ n ih =>
    have hout : ¬ (decide (epOf pa = s.endpt) && inHub (offOf pa)) = true := by
      simpa [State.plainPlace] using h 0 (Nat.succ_pos n)
    have hrest := ih (pa + 1) fun i hi => by rw [Nat.add_assoc]; exact h (1 + i) (by omega)
    rw [State.homeRead, Memory.readN, State.homeByte, if_neg hout]
    exact congrArg (s.mem.read pa :: ·) hrest

theorem State.homeRead_spad (s : State) (c o n : Nat) : s.homeRead (.spad c o) n = s.spad.readN (spadKey c o) n := by
  induction n generalizing o with
  | zero => rfl
  | succ n ih =>
    have hkey : spadKey c o + 1 = spadKey c (o + 1) := Nat.add_assoc ..
    rw [State.homeRead, Memory.readN, hkey, ← ih (o + 1)]
    rfl

/-- Writing elsewhere leaves a byte. -/
theorem State.homeByte_homeSet_other (s : State) (l : Loc) (o j : Nat) (bs : List Byte) (h : j < o ∨ o + bs.length ≤ j) :
    (s.homeSet (l.plus o) bs).homeByte (l.plus j) = s.homeByte (l.plus j) := by
  cases l with
  | spad c p =>
    exact Memory.read_writeN_other _ _ _ _ (by simp only [spadKey]; omega)
  | glob pa =>
    have hmem : (s.mem.writeN (pa + o) bs).read (pa + j) = s.mem.read (pa + j) := Memory.read_writeN_other _ _ _ _ (by omega)
    simp only [State.homeSet, State.homeByte, Loc.plus, hmem]
    rfl

/-- Bytes read back as they were set. -/
theorem State.homeRead_homeSet_same (s : State) (l : Loc) (bs : List Byte) (hs : s.canonical)
    (h : ∀ i, i < bs.length → s.plainPlace (l.plus i)) : (s.homeSet l bs).homeRead l bs.length = bs := by
  obtain ⟨hmem, hspad, -⟩ := hs
  cases l with
  | glob pa => exact ((s.homeSet (.glob pa) bs).homeRead_glob pa bs.length h).trans (Memory.readN_writeN _ _ _ hmem)
  | spad c o => exact (State.homeRead_spad _ c o bs.length).trans (Memory.readN_writeN _ _ _ hspad)

theorem State.home64_setHome64_same (s : State) (l : Loc) (v : Nat) (hs : s.canonical)
    (h : ∀ i, i < 8 → s.plainPlace (l.plus i)) : (s.setHome64 l v).home64 l = v % 2 ^ 64 := by
  have hread := s.homeRead_homeSet_same l (leBytes v 8) hs (by rwa [leBytes_length])
  rw [leBytes_length] at hread
  rw [State.home64, State.setHome64, hread, leNat_leBytes, show 256 ^ 8 = 2 ^ 64 from rfl]

theorem State.home64_setHome64_other (s : State) (l : Loc) (o j v : Nat) (h : j + 8 ≤ o ∨ o + 8 ≤ j) :
    (s.setHome64 (l.plus o) v).home64 (l.plus j) = s.home64 (l.plus j) := by
  refine congrArg leNat (State.homeRead_bytes fun i hi => ?_)
  rw [Loc.plus_plus]
  exact s.homeByte_homeSet_other l o (j + i) _ (by rw [leBytes_length]; omega)

end

/-! ### A round that closes at its deadline -/

/-- What a delivery of records changes: nothing of the memories, and of the current hart neither S nor `pc`. -/
def State.delivers (s t : State) : Prop :=
  t.mem = s.mem ∧ t.spad = s.spad ∧ t.endpt = s.endpt ∧ t.hart.x = s.hart.x ∧ t.hart.pc = s.hart.pc

theorem State.delivers.trans {s t u : State} (h : s.delivers t) (h' : t.delivers u) : s.delivers u := by
  obtain ⟨h1, h2, h3, h4, h5⟩ := h
  obtain ⟨h1', h2', h3', h4', h5'⟩ := h'
  exact ⟨h1'.trans h1, h2'.trans h2, h3'.trans h3, h4'.trans h4, h5'.trans h5⟩

theorem foldl_delivers {α : Type} {f : State → α → State} (hf : ∀ (t : State) x, t.delivers (f t x)) (l : List α) (s : State) :
    s.delivers (l.foldl f s) :=
  List.foldlRecOn (motive := s.delivers) l f ⟨rfl, rfl, rfl, rfl, rfl⟩ fun t ht x _ => ht.trans (hf t x)

theorem Hart.takeRecord_own (l : Loc) (index : Nat) (r : Record) (n sc : Nat) (h : Hart) :
    (h.takeRecord l index r n sc).own = h.own := by
  unfold Hart.takeRecord
  repeat' split
  all_goals rfl

theorem State.modHart_delivers (s : State) (n : Nat) (f : Hart → Hart) (hf : ∀ h, (f h).own = h.own) :
    s.delivers (s.modHart n f) := by
  obtain ⟨hx, hpc, -⟩ := Hart.own_parts (s.modHart_own n f hf)
  refine ⟨?_, ?_, ?_, hx, hpc⟩
  all_goals
    unfold State.modHart
    split <;> rfl

/-- With no hart parked, a record reaches harts alone. -/
theorem State.deliver_delivers (s : State) (l : Loc) (present : Nat) (r : Record) (n sc : Nat)
    (h : ∀ x ∈ s.harts, x.parked = []) : s.delivers (s.deliver l present r n sc) := by
  unfold State.deliver
  dsimp only
  have hparked : ∀ x ∈ s.harts, x.parked.filter (fun p => p.cask = l) = [] := fun x hx => by rw [h x hx, List.filter_nil]
  generalize hz : s.harts.foldl _ s = z
  have hzs : z = s := hz ▸ foldl_unchanged _ _ _ fun x hx t => by
    rw [hparked x hx, List.foldl_nil]
  rw [hzs]
  refine foldl_delivers (fun t id => ?_) _ s
  exact foldl_delivers (fun u m => u.modHart_delivers _ _ fun h => h.takeRecord_own ..) _ t

theorem State.releaseForeign_delivers (s : State) (l : Loc) (r : Record) : s.delivers (s.releaseForeign l r) := by
  obtain ⟨h1, h2, h3, h4, h5⟩ := foldl_delivers (f := fun t (_ : HomeWaiter) => t.reply (.status r.status r.absent))
    (fun t _ => ⟨rfl, rfl, rfl, rfl, rfl⟩) ((s.waiters.filter fun w => w.cask = l).filter (·.hart.isNone)) s
  exact ⟨h1, h2, h3, h4, h5⟩

theorem State.releaseForeign_harts (s : State) (l : Loc) (r : Record) : (s.releaseForeign l r).harts = s.harts := by
  have hfold := List.foldlRecOn (motive := fun t : State => t.harts = s.harts)
    ((s.waiters.filter fun w => w.cask = l).filter (·.hart.isNone)) (fun t _ => t.reply (.status r.status r.absent)) rfl
    fun t ht _ _ => ht
  exact hfold

theorem State.setHome64_harts (s : State) (l : Loc) (v : Nat) : (s.setHome64 l v).harts = s.harts := by
  rw [State.setHome64]
  cases l <;> rfl

/-- The doublewords of a barrier's cask when its round closes at its deadline, before the record is delivered (R119, R123). -/
def State.closedCask (s : State) (l : Loc) : State :=
  let h := s.header l
  let present := s.bitmap l h 0
  let a := s.setHome64 (l.plus 32) (without (allMembers h.n) present % 2 ^ h.n)
  (((a.setHome64 (l.plus 0) (splice (a.home64 (l.plus 0)) 52 4 1)).setHome64 (l.plus 8)
    (min (s.roundTag l + 1) lastTag + popcount present h.n * 2 ^ 48)).setHome64 (l.plus 16) noDeadline).setHome64 (l.plus 24) 0

/-- The record of such a round. -/
def State.expiredRecord (s : State) (l : Loc) : Record :=
  let h := s.header l
  let absent := without (allMembers h.n) (s.bitmap l h 0)
  ⟨statusWord 1 0 (s.roundTag l) (popcount absent h.n), s.roundTag l, absent⟩

theorem State.closeRound_expired (s : State) (l : Loc) (hk : (s.header l).kind = 1) (hn : (s.header l).n ≤ 64)
    (hc : s.roundTag l < lastTag) :
    s.closeRound l false = ((s.closedCask l).releaseForeign l (s.expiredRecord l)).deliver l (s.bitmap l (s.header l) 0)
      (s.expiredRecord l) (s.header l).n (s.header l).scope := by
  have hopen : s.sealed l = false := by
    rw [State.sealed, decide_eq_false (by omega), Bool.false_and]
  have hlast : s.roundTag l ≠ lastTag := by omega
  have hjoined : s.joined l (s.header l) = allMembers (s.header l).n := by
    rw [State.joined, hk]
    rfl
  have hset : ∀ (t : State) (i v : Nat), t.setBitmap l (s.header l) i v
      = t.setHome64 (l.plus (24 + 8 * i)) (v % 2 ^ (s.header l).n) := by
    intro t i v
    rw [State.setBitmap, State.bitmapLoc, if_pos hn, if_pos hn]
    rfl
  rw [State.closeRound]
  dsimp only
  rw [if_neg (by rw [hopen]; exact Bool.false_ne_true), hjoined]
  simp only [hk, hset, lastAbsIndex, if_neg hlast, Bool.false_eq_true, if_false, Bool.false_and, decide_false, Bool.or_false,
    Nat.reduceEqDiff]
  rw [State.closedCask, Loc.plus_zero]
  rfl

theorem State.plainPlace_setHome64 (s : State) (l : Loc) (v : Nat) : (s.setHome64 l v).plainPlace = s.plainPlace := by
  rw [State.setHome64]
  cases l <;> rfl

theorem State.plainCask_at {s : State} {l : Loc} (h : s.plainCask l) (o : Nat) (ho : o + 8 ≤ 64) :
    ∀ i, i < 8 → s.plainPlace ((l.plus o).plus i) := fun i hi => Loc.plus_plus l o i ▸ h (o + i) (by omega)

theorem State.plainCask_setHome64 {s : State} {l : Loc} (h : s.plainCask l) (k : Loc) (v : Nat) :
    (s.setHome64 k v).plainCask l := by
  unfold State.plainCask
  rw [State.plainPlace_setHome64]
  exact h

/-- A doubleword of a cask set, at an offset `o`. -/
theorem State.home64_setHome64 {s : State} {l : Loc} (hs : s.canonical) (h : s.plainCask l) (o v : Nat) (ho : o + 8 ≤ 64)
    (j : Nat) (hoj : o = j ∨ o + 8 ≤ j ∨ j + 8 ≤ o) :
    (s.setHome64 (l.plus o) v).home64 (l.plus j) = if j = o then v % 2 ^ 64 else s.home64 (l.plus j) := by
  split
  · next hj =>
    subst hj
    exact s.home64_setHome64_same _ v hs (State.plainCask_at h j ho)
  · next hj => exact s.home64_setHome64_other l o j v (by omega)

/-- The doublewords that the closure sets. -/
theorem State.closedCask_home64 (s : State) (l : Loc) (hs : s.canonical) (h : s.plainCask l) :
    (s.closedCask l).home64 (l.plus 0) = splice (s.home64 (l.plus 0)) 52 4 1 % 2 ^ 64
      ∧ (s.closedCask l).home64 (l.plus 8)
        = (min (s.roundTag l + 1) lastTag + popcount (s.bitmap l (s.header l) 0) (s.header l).n * 2 ^ 48) % 2 ^ 64
      ∧ (s.closedCask l).home64 (l.plus 16) = noDeadline
      ∧ (s.closedCask l).home64 (l.plus 24) = 0
      ∧ (s.closedCask l).home64 (l.plus 32)
        = without (allMembers (s.header l).n) (s.bitmap l (s.header l) 0) % 2 ^ (s.header l).n % 2 ^ 64 := by
  unfold State.closedCask
  dsimp only
  generalize without (allMembers (s.header l).n) (s.bitmap l (s.header l) 0) % 2 ^ (s.header l).n = absent
  generalize min (s.roundTag l + 1) lastTag + popcount (s.bitmap l (s.header l) 0) (s.header l).n * 2 ^ 48 = round
  have ha := State.home64_setHome64 hs h 32 absent (by decide)
  have hac := hs.setHome64 (l.plus 32) absent
  have hap := State.plainCask_setHome64 h (l.plus 32) absent
  rw [ha 0 (by decide), if_neg (by decide)]
  generalize s.setHome64 (l.plus 32) absent = a at ha hac hap ⊢
  have hb := State.home64_setHome64 hac hap 0 (splice (s.home64 (l.plus 0)) 52 4 1) (by decide)
  have hbc := hac.setHome64 (l.plus 0) (splice (s.home64 (l.plus 0)) 52 4 1)
  have hbp := State.plainCask_setHome64 hap (l.plus 0) (splice (s.home64 (l.plus 0)) 52 4 1)
  generalize a.setHome64 (l.plus 0) (splice (s.home64 (l.plus 0)) 52 4 1) = b at hb hbc hbp ⊢
  have hc := State.home64_setHome64 hbc hbp 8 round (by decide)
  have hcc := hbc.setHome64 (l.plus 8) round
  have hcp := State.plainCask_setHome64 hbp (l.plus 8) round
  generalize b.setHome64 (l.plus 8) round = c at hc hcc hcp ⊢
  have hd := State.home64_setHome64 hcc hcp 16 noDeadline (by decide)
  have hdc := hcc.setHome64 (l.plus 16) noDeadline
  have hdp := State.plainCask_setHome64 hcp (l.plus 16) noDeadline
  generalize c.setHome64 (l.plus 16) noDeadline = d at hd hdc hdp ⊢
  have he := State.home64_setHome64 hdc hdp 24 0 (by decide)
  refine ⟨?_, ?_, ?_, ?_, ?_⟩
  · rw [he 0 (by decide), if_neg (by decide), hd 0 (by decide), if_neg (by decide), hc 0 (by decide), if_neg (by decide),
      hb 0 (by decide), if_pos rfl]
  · rw [he 8 (by decide), if_neg (by decide), hd 8 (by decide), if_neg (by decide), hc 8 (by decide), if_pos rfl]
  · rw [he 16 (by decide), if_neg (by decide), hd 16 (by decide), if_pos rfl,
      Nat.mod_eq_of_lt (by decide)]
  · rw [he 24 (by decide), if_pos rfl, Nat.zero_mod]
  · rw [he 32 (by decide), if_neg (by decide), hd 32 (by decide), if_neg (by decide), hc 32 (by decide), if_neg (by decide),
      hb 32 (by decide), if_neg (by decide), ha 32 (by decide), if_pos rfl]

theorem State.closedCask_harts (s : State) (l : Loc) : (s.closedCask l).harts = s.harts := by
  unfold State.closedCask
  simp only [State.setHome64_harts]

theorem State.setHome64_hart (s : State) (l : Loc) (v : Nat) : (s.setHome64 l v).hart = s.hart := (s.setHome64_parts l v).2

theorem State.closedCask_hart (s : State) (l : Loc) : (s.closedCask l).hart = s.hart := by
  unfold State.closedCask
  simp only [State.setHome64_hart]

theorem State.closedCask_plain {s : State} {l : Loc} (h : s.plainCask l) : (s.closedCask l).plainCask l := by
  unfold State.closedCask
  dsimp only
  exact State.plainCask_setHome64 (State.plainCask_setHome64 (State.plainCask_setHome64 (State.plainCask_setHome64
    (State.plainCask_setHome64 h _ _) _ _) _ _) _ _) _ _

theorem State.home64_delivers {s t : State} {l : Loc} (h : s.delivers t) (hp : ∀ i, i < 8 → s.plainPlace (l.plus i)) :
    t.home64 l = s.home64 l := by
  obtain ⟨hmem, hspad, hep, -⟩ := h
  exact congrArg leNat (State.homeRead_bytes fun i hi => State.homeByte_congr hmem hspad hep (hp i hi))

/-- Members of a bitmap that are absent (R123). -/
theorem without_present (n present : Nat) (h : present < 2 ^ n) : without (allMembers n) present = 2 ^ n - 1 - present := by
  rw [without, allMembers, Nat.and_comm, Nat.and_two_pow_sub_one_eq_mod, Nat.mod_eq_of_lt h]

/-- The header after a closure: LAST takes the code, and N stays (R118, R119). -/
theorem splice_last (x : Nat) :
    field (splice x 52 4 1 % 2 ^ 64) 55 52 = 1 ∧ field (splice x 52 4 1 % 2 ^ 64) 23 8 = field x 23 8 := by
  unfold field splice
  omega

theorem State.header_last (s : State) (l : Loc) : (s.header l).last = field (s.home64 l) 55 52 := rfl

theorem State.header_n (s : State) (l : Loc) : (s.header l).n = field (s.home64 l) 23 8 := rfl

theorem State.bitmap_inline (s : State) (l : Loc) (h : Header) (i : Nat) (hn : h.n ≤ 64) :
    s.bitmap l h i = s.home64 (l.plus (24 + 8 * i)) % 2 ^ h.n := by
  rw [State.bitmap, State.bitmapLoc, if_pos hn, if_pos hn]
  rfl

/-- The round of a barrier closes at its deadline (R123). -/
theorem State.closeRounds_expired (s : State) (l : Loc) (hs : s.canonical) (hp : s.plainCask l) (hk : (s.header l).kind = 1)
    (hn : (s.header l).n ≤ 64) (hc : s.roundTag l < lastTag) (hparked : ∀ x ∈ s.harts, x.parked = []) :
    let t := s.closeRounds l false
    t.roundTag l = s.roundTag l + 1 ∧ t.bitmap l (s.header l) 0 = 0
      ∧ t.bitmap l (s.header l) 1 = 2 ^ (s.header l).n - 1 - s.bitmap l (s.header l) 0
      ∧ t.roundDeadline l = noDeadline ∧ (t.header l).last = 1 ∧ t.hart.pc = s.hart.pc ∧ t.hart.x = s.hart.x := by
  have hpresent : s.bitmap l (s.header l) 0 < 2 ^ (s.header l).n := Nat.mod_lt _ (Nat.two_pow_pos _)
  have hclose := s.closeRound_expired l hk hn hc
  obtain ⟨h0, h8, h16, h24, h32⟩ := s.closedCask_home64 l hs hp
  have hdel : (s.closedCask l).delivers (s.closeRound l false) := by
    rw [hclose]
    refine ((s.closedCask l).releaseForeign_delivers l _).trans (State.deliver_delivers _ l _ _ _ _ ?_)
    rw [State.releaseForeign_harts, State.closedCask_harts]
    exact hparked
  have hword := fun o ho => State.home64_delivers hdel (State.plainCask_at (State.closedCask_plain hp) o ho)
  obtain ⟨-, -, -, hx, hpc⟩ := hdel
  rw [s.closedCask_hart] at hx hpc
  generalize hu : s.closeRound l false = u at hword hx hpc
  have hheader : u.home64 l = splice (s.home64 l) 52 4 1 % 2 ^ 64 := by
    have := (hword 0 (by decide)).trans h0
    rwa [Loc.plus_zero] at this
  have hlast : (u.header l).last = 1 := by
    rw [State.header_last, hheader, (splice_last _).1]
  have hsize : (u.header l).n = (s.header l).n := by
    rw [State.header_n, State.header_n, hheader, (splice_last _).2]
  have hsmall : (u.header l).n ≤ 64 := by rwa [hsize]
  have hzero : u.bitmap l (u.header l) 0 = 0 := by
    rw [u.bitmap_inline l _ 0 hsmall, hword 24 (by decide), h24, Nat.zero_mod]
  have hone : s.closeRounds l false = u := by
    rw [State.closeRounds, hu, hzero, if_neg (by simp)]
  intro t
  have ht : t = u := hone
  rw [ht]
  refine ⟨?_, ?_, ?_, ?_, hlast, hpc, hx⟩
  · have hlt : s.roundTag l + 1 < 2 ^ 48 := Nat.lt_of_lt_of_le (Nat.succ_lt_succ hc) (by decide)
    rw [State.roundTag, hword 8 (by decide), h8, Nat.min_eq_left (Nat.succ_le_of_lt hc)]
    omega
  · rw [u.bitmap_inline l _ 0 hn, hword 24 (by decide), h24, Nat.zero_mod]
  · rw [u.bitmap_inline l _ 1 hn, hword 32 (by decide), h32, without_present _ _ hpresent,
      Nat.mod_eq_of_lt (a := _ % _) (b := 2 ^ 64), Nat.mod_mod, Nat.mod_eq_of_lt]
    · omega
    · exact (Nat.mod_lt _ (Nat.two_pow_pos _)).trans_le (Nat.pow_le_pow_right (by decide) hn)
  · rw [State.roundDeadline, hword 16 (by decide), h16]

end Sys2Proof.Machine
end

section
/-! SUPPORT. What happens at a cask by itself (R123, R132, R435): rounds, waits of a queue, and claims of a farm. -/

namespace Sys2Proof.Machine

section
variable {s : State} {l : Loc}

/-- A cask without errors records none. -/
theorem State.noteDamage_good (h : s.caskBad l = false) : s.noteDamage l = s := by
  rw [State.caskBad, Bool.or_eq_false_iff] at h
  rw [State.noteDamage, h.2]
  rfl

theorem State.dmg_good (h : s.caskBad l = false) : (s.header l).dmg = false := by
  rw [State.caskBad, Bool.or_eq_false_iff] at h
  exact h.1

/-! ### The closure of a round -/

/-- At DEADLINE − G the round of an incomplete barrier closes (R123). -/
theorem exec_roundClosure_expired (hbad : s.caskBad l = false) (hk : (s.header l).kind = 1)
    (hopen : s.bitmap l (s.header l) 0 < 2 ^ (s.header l).n - 1) (hd : s.roundDeadline l ≠ noDeadline)
    (hdue : s.roundDeadline l ≤ s.now.toNat + guard (s.header l).scope) :
    exec (.roundClosure l) s = .next (s.closeRounds l false) := by
  have harm : exec (.roundClosure l) s = execRoundClosure l s := rfl
  have hcomplete : s.complete l (s.header l) = false := by
    rw [State.complete, hk]
    exact decide_eq_false hopen.ne
  have hsettle : s.settle l = s.closeRounds l false := by
    rw [State.settle, hk, State.dmg_good hbad, hcomplete, if_neg (by decide), if_neg (by decide), if_pos (by simp [hd, hdue])]
    rfl
  rw [harm, execRoundClosure, if_neg hd, s.passUntil_past _ (by omega), State.noteDamage_good hbad, hsettle]

/-! ### The deadline of a `recv` -/

/-- The home answers a waiting `recv` EMPTY at its deadline (R435). -/
theorem exec_homeWaitDeadline_recv {x : HomeWaiter} {w : Wait} (hbad : s.caskBad l = false) (hk : (s.header l).kind = 5)
    (hx : s.waiters = [x]) (hxl : x.cask = l) (hv : x.verb = .recv) (hh : x.hart = some s.hart.id)
    (hdue : x.deadline ≤ s.now.toNat + guard (s.header l).scope) (hw : s.hart.wait = some w) (hwl : w.cask = some l)
    (ha : w.answer = none) :
    exec (.homeWaitDeadline l) s = .next { s with
      waiters := []
      hart.wait := some { w with answer := some ⟨statusWord 8 0 0 0, none, 0, 0, (s.header l).scope, 0, []⟩ } } := by
  have harm : exec (.homeWaitDeadline l) s = execHomeWaitDeadline l s := rfl
  have hone : (s.waiters.filter fun w => w.cask = l).map (·.deadline) = [x.deadline] := by
    simp [hx, hxl]
  have hnow : (s.waiters.filter fun w => w.cask = l && w.deadline ≤ s.now.toNat + guard (s.header l).scope) = [x] := by
    simp [hx, hxl, hdue]
  have herase : s.waiters.erase x = [] := by
    rw [hx]
    exact List.erase_cons_head ..
  have hanswer : ∀ a : Answer, ({ s with waiters := [] } : State).answerWaiter x a
      = { s with waiters := [], hart.wait := some { w with answer := some a } } := by
    intro a
    rw [State.answerWaiter, hh]
    dsimp only
    rw [State.answerHart, State.modHart]
    dsimp only
    rw [if_pos rfl, hw]
    dsimp only
    rw [if_pos (by simp [hwl, hxl, ha])]
  rw [harm, execHomeWaitDeadline, hone]
  dsimp only
  rw [List.foldl_nil, s.passUntil_past _ (by omega), State.dueAt, hbad, hk, if_neg Bool.false_ne_true,
    State.homeDeadlines, hnow, List.foldl_cons, List.foldl_nil, hv]
  dsimp only
  rw [herase, hanswer]
  rfl

end

/-! ### Claims that expire -/

/-- A farm some of whose claims have expired since `s`: the count, the area and the deadlines are those of `s`, and a strip is
as it was, or was claimed and is free under the next generation (R132). -/
structure State.FarmAfter (s : State) (l : Loc) (u : State) : Prop where
  canonical : u.canonical
  endpt : u.endpt = s.endpt
  hart : u.hart = s.hart
  waiters : u.waiters = []
  count : u.home64 (l.plus 8) = s.home64 (l.plus 8)
  area : u.home64 (l.plus 40) = s.home64 (l.plus 40)
  due : ∀ i, i < s.farmCount l → u.home64 ((s.stripLoc l i).plus 8) = s.home64 ((s.stripLoc l i).plus 8)
  strip : ∀ i, i < s.farmCount l → u.home64 (s.stripLoc l i) = s.home64 (s.stripLoc l i)
    ∨ s.stripSt l i = 1 ∧ u.home64 (s.stripLoc l i) = (s.stripGen l i + 1) % 2 ^ 32

theorem State.setHome64_rest (s : State) (l : Loc) (v : Nat) : (s.setHome64 l v).endpt = s.endpt
    ∧ (s.setHome64 l v).waiters = s.waiters ∧ (s.setHome64 l v).now = s.now := by
  rw [State.setHome64]
  cases l <;> exact ⟨rfl, rfl, rfl⟩

/-- With nobody waiting, what happens at a farm is the expiry of claims. -/
theorem State.FarmAfter.unattended {s : State} {l : Loc} {u : State} (h : s.FarmAfter l u) :
    u.serveWaiting l = u ∧ u.homeDeadlines l = u := by
  unfold State.serveWaiting State.homeDeadlines
  rw [h.waiters]
  exact ⟨rfl, rfl⟩

section
variable {s : State} {l : Loc} (harea : 64 ≤ s.home64 (l.plus 40) % 2 ^ 32)
  (hplain : ∀ i, i < s.farmCount l → s.stripSt l i ≠ 3 ∧ ∀ j, j < 16 → s.plainPlace ((s.stripLoc l i).plus j))
include harea hplain

/-- A strip set frees or claims that strip alone. -/
theorem State.home64_setStrip {u : State} (hu : u.canonical) (hep : u.endpt = s.endpt) (k v : Nat) (hk : k < s.farmCount l) :
    (∀ o, o + 8 ≤ 64 → (u.setHome64 (s.stripLoc l k) v).home64 (l.plus o) = u.home64 (l.plus o))
      ∧ (∀ i, (u.setHome64 (s.stripLoc l k) v).home64 ((s.stripLoc l i).plus 8) = u.home64 ((s.stripLoc l i).plus 8))
      ∧ ∀ i, (u.setHome64 (s.stripLoc l k) v).home64 (s.stripLoc l i)
        = if i = k then v % 2 ^ 64 else u.home64 (s.stripLoc l i) := by
  refine ⟨fun o ho => u.home64_setHome64_other l _ o v (by omega), fun i => ?_, fun i => ?_⟩
  · rw [State.stripLoc, State.stripLoc, Loc.plus_plus]
    exact u.home64_setHome64_other l _ _ v (by omega)
  · split
    · next hik =>
      subst hik
      refine u.home64_setHome64_same _ v hu fun j hj => ?_
      have hs := (hplain i hk).2 j (by omega)
      generalize (s.stripLoc l i).plus j = q at hs ⊢
      cases q with
      | glob pa =>
        unfold State.plainPlace at hs ⊢
        rw [hep]
        exact hs
      | spad c o => trivial
    · next hik => exact u.home64_setHome64_other l _ _ v (by omega)

/-- One strip whose time may have come (R132). -/
theorem State.FarmAfter.expireStrip {u : State} (h : s.FarmAfter l u) (k : Nat) (hk : k < s.farmCount l) :
    s.FarmAfter l (u.expireStrip l k) ∧ (u.expireStrip l k).now = u.now
      ∧ ∀ i, i < s.farmCount l → u.home64 (s.stripLoc l i) = (s.stripGen l i + 1) % 2 ^ 32 →
        (u.expireStrip l k).home64 (s.stripLoc l i) = (s.stripGen l i + 1) % 2 ^ 32 := by
  have hloc : ∀ i, u.stripLoc l i = s.stripLoc l i := fun i => by rw [State.stripLoc, State.stripLoc, h.area]
  have hst : u.stripSt l k ≠ 3 := by
    rw [State.stripSt, hloc]
    rcases h.strip k hk with e | ⟨-, e⟩
    · rw [e]
      exact (hplain k hk).1
    · rw [e]
      omega
  rw [State.expireStrip, if_neg hst]
  split
  · next hcome =>
    rw [Bool.and_eq_true, decide_eq_true_eq, decide_eq_true_eq] at hcome
    have hold : u.home64 (s.stripLoc l k) = s.home64 (s.stripLoc l k) := by
      rcases h.strip k hk with e | ⟨-, e⟩
      · exact e
      · have hst1 := hcome.1
        rw [State.stripSt, hloc, e] at hst1
        omega
    have hclaimed : s.stripSt l k = 1 := by
      have hst1 := hcome.1
      rwa [State.stripSt, hloc, hold] at hst1
    have hgen : u.stripGen l k = s.stripGen l k := by
      rw [State.stripGen, State.stripGen, hloc, hold]
    rw [hloc, hgen]
    obtain ⟨hhead, hdue, hstrip⟩ := State.home64_setStrip harea hplain h.canonical h.endpt k ((s.stripGen l k + 1) % 2 ^ 32) hk
    refine ⟨⟨h.canonical.setHome64 _ _, ?_, ?_, ?_, ?_, ?_, fun i hi => ?_, fun i hi => ?_⟩, ?_, fun i hi hfree => ?_⟩
    · exact (u.setHome64_rest _ _).1.trans h.endpt
    · exact (u.setHome64_hart _ _).trans h.hart
    · exact (u.setHome64_rest _ _).2.1.trans h.waiters
    · exact (hhead 8 (by decide)).trans h.count
    · exact (hhead 40 (by decide)).trans h.area
    · exact (hdue i).trans (h.due i hi)
    · rw [hstrip]
      split
      · next hik =>
        subst hik
        exact .inr ⟨hclaimed, by omega⟩
      · exact h.strip i hi
    · exact (u.setHome64_rest _ _).2.2
    · rw [hstrip]
      split
      · next hik =>
        subst hik
        omega
      · exact hfree
  · exact ⟨h, rfl, fun _ _ hfree => hfree⟩

/-- Strips looked at one after another. -/
theorem State.FarmAfter.expireStrips (ks : List Nat) (hks : ∀ k ∈ ks, k < s.farmCount l) {u : State} (h : s.FarmAfter l u) :
    s.FarmAfter l (ks.foldl (fun t k => t.expireStrip l k) u) ∧ (ks.foldl (fun t k => t.expireStrip l k) u).now = u.now
      ∧ ∀ i, i < s.farmCount l → u.home64 (s.stripLoc l i) = (s.stripGen l i + 1) % 2 ^ 32 →
        (ks.foldl (fun t k => t.expireStrip l k) u).home64 (s.stripLoc l i) = (s.stripGen l i + 1) % 2 ^ 32 := by
  induction ks generalizing u with
  | nil => exact ⟨h, rfl, fun _ _ hfree => hfree⟩
  | cons k ks ih =>
    obtain ⟨h1, hnow1, hfree1⟩ := h.expireStrip harea hplain k (hks k List.mem_cons_self)
    obtain ⟨h2, hnow2, hfree2⟩ := ih (fun j hj => hks j (List.mem_cons_of_mem k hj)) h1
    exact ⟨h2, hnow2.trans hnow1, fun i hi hfree => hfree2 i hi (hfree1 i hi hfree)⟩

/-- A claimed strip whose time has come is free under the next generation. -/
theorem State.FarmAfter.expireStrip_due {u : State} (h : s.FarmAfter l u) (k : Nat) (hk : k < s.farmCount l)
    (hst : s.stripSt l k = 1) (hdue : s.home64 ((s.stripLoc l k).plus 8) ≤ u.now.toNat) :
    (u.expireStrip l k).home64 (s.stripLoc l k) = (s.stripGen l k + 1) % 2 ^ 32 := by
  have hloc : u.stripLoc l k = s.stripLoc l k := by rw [State.stripLoc, State.stripLoc, h.area]
  rcases h.strip k hk with e | ⟨-, e⟩
  · have hold : u.stripSt l k = 1 := by
      rw [State.stripSt, hloc, e]
      exact hst
    have hgen : u.stripGen l k = s.stripGen l k := by rw [State.stripGen, State.stripGen, hloc, e]
    have hcome : u.home64 ((s.stripLoc l k).plus 8) ≤ u.now.toNat := by rwa [h.due k hk]
    obtain ⟨-, -, hstrip⟩ := State.home64_setStrip harea hplain h.canonical h.endpt k ((s.stripGen l k + 1) % 2 ^ 32) hk
    rw [State.expireStrip, if_neg (by omega), hloc, hgen, if_pos (by simp [hold, hcome]), hstrip, if_pos rfl]
    omega
  · exact (h.expireStrip harea hplain k hk).2.2 k hk e

theorem State.FarmAfter.expireAll {u : State} (h : s.FarmAfter l u) :
    s.FarmAfter l (u.expireAll l) ∧ (u.expireAll l).now = u.now
      ∧ ∀ k, k < s.farmCount l → s.stripSt l k = 1 → s.home64 ((s.stripLoc l k).plus 8) ≤ u.now.toNat →
        (u.expireAll l).home64 (s.stripLoc l k) = (s.stripGen l k + 1) % 2 ^ 32 := by
  have hcount : u.farmCount l = s.farmCount l := by rw [State.farmCount, State.farmCount, h.count]
  rw [State.expireAll, hcount]
  obtain ⟨h1, hnow1, -⟩ := h.expireStrips harea hplain (List.range (s.farmCount l)) fun k hk => List.mem_range.mp hk
  refine ⟨h1, hnow1, fun k hk hst hdue => ?_⟩
  obtain ⟨before, after, hsplit⟩ := List.append_of_mem (List.mem_range.mpr hk)
  have hin : ∀ j, j ∈ before ∨ j ∈ after → j < s.farmCount l := fun j hj =>
    List.mem_range.mp (hsplit ▸ List.mem_append.mpr (hj.imp id (List.mem_cons_of_mem k)))
  obtain ⟨hb, hnowb, -⟩ := h.expireStrips harea hplain before fun j hj => hin j (.inl hj)
  have hfree := hb.expireStrip_due harea hplain k hk hst (by rwa [hnowb])
  obtain ⟨hk1, -, -⟩ := hb.expireStrip harea hplain k hk
  obtain ⟨-, -, hkeep⟩ := hk1.expireStrips harea hplain after fun j hj => hin j (.inr hj)
  rw [hsplit, List.foldl_append, List.foldl_cons]
  exact hkeep k hk hfree

omit harea in
/-- The clock at a farm set for what has happened at a time. -/
theorem State.FarmAfter.atTime (hp : s.plainCask l) {u : State} (h : s.FarmAfter l u) (n : Word) :
    s.FarmAfter l { u with now := n } := by
  have hplace : ∀ q, s.plainPlace q → u.plainPlace q := fun q hq => by
    cases q with
    | glob pa =>
      unfold State.plainPlace at hq ⊢
      rw [h.endpt]
      exact hq
    | spad c o => trivial
  have hsame : ∀ q, (∀ i, i < 8 → s.plainPlace (q.plus i)) → ({ u with now := n } : State).home64 q = u.home64 q := fun q hq =>
    State.home64_delivers ⟨rfl, rfl, rfl, rfl, rfl⟩ fun i hi => hplace _ (hq i hi)
  have hcask := fun o ho => hsame _ (State.plainCask_at hp o ho)
  refine ⟨h.canonical, h.endpt, h.hart, h.waiters, (hcask 8 (by decide)).trans h.count, (hcask 40 (by decide)).trans h.area,
    fun i hi => ?_, fun i hi => ?_⟩
  · refine (hsame _ fun j hj => ?_).trans (h.due i hi)
    rw [Loc.plus_plus]
    exact (hplain i hi).2 (8 + j) (by omega)
  · rw [hsame _ fun j hj => (hplain i hi).2 j (by omega)]
    exact h.strip i hi

theorem State.FarmAfter.farmInstant (hp : s.plainCask l) {u : State} (h : s.FarmAfter l u) (t : Nat) :
    s.FarmAfter l (u.farmInstant l t) ∧ (u.farmInstant l t).now = u.now := by
  obtain ⟨h1, -, -⟩ := (h.atTime hplain hp (word t)).expireAll harea hplain
  rw [State.farmInstant]
  dsimp only
  rw [h1.unattended.1, h1.unattended.2]
  exact ⟨h1.atTime hplain hp u.now, rfl⟩

theorem State.FarmAfter.farmUpTo (hp : s.plainCask l) (n : Nat) {u : State} (h : s.FarmAfter l u) :
    s.FarmAfter l (State.farmUpTo l n u) ∧ (State.farmUpTo l n u).now = u.now := by
  induction n generalizing u with
  | zero => exact ⟨h, rfl⟩
  | succ n ih =>
    rw [State.farmUpTo]
    split
    · exact ⟨h, rfl⟩
    · next t _ =>
      obtain ⟨h1, hnow⟩ := h.farmInstant harea hplain hp t
      obtain ⟨h2, hnow2⟩ := ih h1
      exact ⟨h2, hnow2.trans hnow⟩

/-- A claim that is not renewed expires (R132). -/
theorem exec_stripClaimExpiry_due (hs : s.canonical) (hp : s.plainCask l) (hbad : s.caskBad l = false)
    (hk : (s.header l).kind = 4) (strip : Nat) (hstrip : strip < s.farmCount l) (hst : s.stripSt l strip = 1)
    (hw : s.waiters = []) (hdue : s.home64 ((s.stripLoc l strip).plus 8) ≤ s.now.toNat) :
    ∃ t, exec (.stripClaimExpiry l strip) s = .next t ∧ t.stripSt l strip = 0
      ∧ t.stripGen l strip = (s.stripGen l strip + 1) % 2 ^ 32 ∧ t.hart = s.hart := by
  have harm : exec (.stripClaimExpiry l strip) s = execStripClaimExpiry l strip s := rfl
  have hself : s.FarmAfter l s := ⟨hs, rfl, rfl, hw, rfl, rfl, fun _ _ => rfl, fun _ _ => .inl rfl⟩
  obtain ⟨h1, hnow1⟩ := hself.farmUpTo harea hplain hp (s.farmCount l + 2 * s.waiters.length + 1)
  obtain ⟨h2, -, hfree⟩ := h1.expireAll harea hplain
  have hserve : s.serveFarm l = (State.farmUpTo l (s.farmCount l + 2 * s.waiters.length + 1) s).expireAll l := by
    rw [State.serveFarm, hbad, if_neg Bool.false_ne_true, State.farmNow]
    exact h2.unattended.1
  have hexec : exec (.stripClaimExpiry l strip) s = .next (s.serveFarm l) := by
    rw [harm, execStripClaimExpiry, if_pos (by simp [hk, hstrip, hst]), s.passUntil_past _ hdue]
  have hval := hfree strip hstrip hst (by rwa [hnow1])
  rw [hserve] at hexec
  generalize (State.farmUpTo l (s.farmCount l + 2 * s.waiters.length + 1) s).expireAll l = t at h2 hval hexec
  have hloc : t.stripLoc l strip = s.stripLoc l strip := by rw [State.stripLoc, State.stripLoc, h2.area]
  refine ⟨t, hexec, ?_, ?_, h2.hart⟩
  · rw [State.stripSt, hloc, hval]
    omega
  · rw [State.stripGen, hloc, hval]
    omega

end

/-- Settles O55: the ends of stalls are `State.endStall`'s, an answer goes to the wait or the slot, and the events at a cask are
those of its home. -/
theorem stallsAndWaits : Obligations.StallsAndWaits := by
  unfold Obligations.StallsAndWaits
  refine ⟨?_, ?_, ?_⟩
  · intro s st o again resumes core
    have hover : ∀ ends : Nat → Bool, s.hart.stall = some st → ends st.object = true →
        Host.Outcome.next (φ := Fault) (ρ := Refusal) (s.endStall st.kind ends) = resumes := fun ends hst h =>
      congrArg _ (State.endStall_over ends hst h)
    refine ⟨fun hst => ⟨fun hk hmoved => ?_, fun hk hpassed => ?_, fun hk hretired => ?_, fun hk hlanded => ?_, fun hd => ?_,
      fun hk hnow hd => ?_, fun hd hsame => ?_⟩, fun new hnew hs hheld => ?_⟩
    · rw [← hover (fun va => !s.parks va) hst (by simp [s.parks_false _ hmoved]), hk]
      rfl
    · rw [← hover (fun n => ((s.coreAt s.hart.core).ch.toList.getD n {}).landedAll) hst ?_, hk]
      · rfl
      · exact Channel.landedAll_of hpassed.1 hpassed.2
    · rw [← hover (fun _ => !s.copies.any fun c => c.hart / 4 = s.hart.core) hst ?_, hk]
      · rfl
      · rw [List.any_eq_false.mpr fun c hc => by rw [decide_eq_true_eq]; exact hretired c hc]
        rfl
    · rw [← hover (fun n => s.hart.flying.toList.getD n 0 = 0) hst (decide_eq_true hlanded), hk]
      rfl
    · rw [exec_waitExpiredImplicit hst, s.passUntil_past _ hd, ite_self]
    · obtain ⟨hnow', hpc, hstall, hmem⟩ := s.passUntil_ahead st.deadline hnow hd
      exact ⟨_, (exec_waitExpiredImplicit hst).trans (congrArg _ (if_neg hk)), hnow', hpc, hstall, hmem⟩
    · have hraise := s.raise_stall { st with object := o }
      rw [State.stallAt_due o hst hd hsame]
      exact hraise
    · obtain ⟨⟨hpc, hx, hmem, hspad⟩, hlat, hnone⟩ := s.stepGrants_done s.hart.core new hnew hs hheld
      exact ⟨_, rfl, hlat, hnone, hpc, hx, hmem, hspad⟩
  · intro s w l e st absent tag data d a b c ch answered code k lost ends he
    refine ⟨fun hw hl => ⟨fun ha => ?_, fun ha hb hparked => ?_, fun i hi hcur ha hd hs hnone => ?_,
      fun hcur ha hd hs hnone => ?_, fun hcur ha hd hs hnone => ?_, fun hcur ha hd hs hnone => ?_,
      fun hcur ha hd hs hnone => ?_, fun hcur ha hd hs hnone => ?_,
      fun x t ha hdelay ht hx hnone hcur => ?_⟩, fun hw hparked hm => ?_, fun hw hl ha hd hcur hf ho hnone => ?_⟩
    · rw [exec_caskAnswerArrival st ⟨absent, data⟩ he hw hl ha, answerTag_eq]
      simp only [State.carriesSet_iff]
      rfl
    · rw [exec_closureRecordArrival st tag absent he hparked, Hart.takeRecord_wait _ _ _ he hw hl ha hb]
    · rw [exec_waitDeadlineAtHart_lost hw hl ha hd hs hcur]
      simp only [List.mem_cons, List.not_mem_nil, or_false] at hi
      obtain rfl | rfl | rfl | rfl := hi
      · exact congrArg _ (State.loseRound_done d c .arrive (by decide) he hnone)
      · exact congrArg _ (State.loseRound_done d c .wait (by decide) he hnone)
      · exact congrArg _ (State.loseRound_done d c .arrive (by decide) he hnone)
      · exact congrArg _ (State.loseRound_done d c .wait (by decide) he hnone)
    · rw [exec_waitDeadlineAtHart_lost hw hl ha hd hs hcur]
      exact congrArg _ (State.loseRound_done d 0 .barr (by decide) he hnone)
    · rw [exec_waitDeadlineAtHart_lost hw hl ha hd hs hcur]
      exact congrArg _ (State.loseRound_acq d c he hnone)
    · rw [exec_waitDeadlineAtHart_lost hw hl ha hd hs hcur, State.lostWait, State.lostEnding_plain 8 he]
      exact congrArg _ (s.endWait_done d 0 _ none none e.scope hnone)
    · rw [exec_waitDeadlineAtHart_lost hw hl ha hd hs hcur, State.lostWait, State.lostEnding_plain 1 he]
      refine congrArg _ ((s.setX b (-1)).endWait_done d 0 _ none none e.scope ?_)
      rw [State.setX_eq]
      exact hnone
    · rw [exec_waitDeadlineAtHart_lost hw hl ha hd hs hcur, State.lostWait, State.lostEnding_plain 1 he]
      exact congrArg _ (s.endWait_done d c _ none none e.scope hnone)
    · exact exec_staggeredCompletion d a b c hw hl ha hdelay ht hx hnone hcur
    · rw [exec_closureRecordArrival st tag absent he hparked, Hart.takeRecord_slot _ _ _ he hw hm]
    · exact exec_waitDeadlineAtHart_cwait ch a b hw hl ha hd hcur hf ho hnone
  · intro s l strip x h c hs hp hbad
    refine ⟨fun hk hn1 hn hc hparked hopen hd hdue => ?_, fun hk hw hxl hv hh hdue w hw' hwl ha => ?_,
      fun hk hok harea hstrip hst hw hdue hplain => ?_⟩
    · exact ⟨_, exec_roundClosure_expired hbad hk hopen hd hdue, s.closeRounds_expired l hs hp hk hn hc hparked⟩
    · exact exec_homeWaitDeadline_recv hbad hk hw hxl hv hh hdue hw' hwl ha
    · exact exec_stripClaimExpiry_due harea hplain hs hp hbad hk strip hstrip hst hw hdue

end Sys2Proof.Machine
end

section
/-! SUPPORT. A load from another endpoint's hub window, which drains the store buffer (R83, R164, R434). -/

namespace Sys2Proof.Machine

/-! ### A store that a load sends on its way -/

/-- A hart with one byte of a store in its buffer, and a translation of address 0 to the hub window of endpoint 1, which exports
that page. -/
def remoteHub : State :=
  { State.reset with
    hart.ptb := 1
    hart.buffer := [⟨0x2000, [1]⟩]
    cached := [⟨0, 0, 0, 65536, 2 ^ 44 + 0xF0000000000 + 3⟩]
    exports := [⟨(2 ^ 44 + 0xF0000000000) / 65536, true, false⟩] }

/-- Where its loads from address 0 go. -/
def remotePlace : Phys := ⟨.glob (2 ^ 44 + 0xF0000000000), 0, false, 0⟩

theorem remoteHub_accessOk : remoteHub.accessOk .load (remoteHub.x 0 + (0 : BitVec 12).signExtend 64) 8 8 remotePlace remoteHub := by
  unfold State.accessOk
  decide +kernel

theorem remoteHub_plainPlace : remoteHub.plainPlace remotePlace.loc := by
  unfold remotePlace State.plainPlace
  decide +kernel

theorem remoteHub_readable : remoteHub.readable remotePlace 8 := by
  unfold remotePlace State.readable
  decide +kernel

/-- The store buffer after an instruction. -/
def bufferAfter : Result → Option (List Buffered)
  | .next t => some t.hart.buffer
  | _ => none

/-- The load drains the buffer, as every load from a hub window does. -/
theorem remoteHub_drains : bufferAfter (exec (.ld 3 0 0) remoteHub) = some [] := by decide +kernel

/-- Refutes O18: a place is plain when it lies outside the hub window of the hart's own endpoint, but a load from the hub window of
another endpoint drains the store buffer as well, so that in `remoteHub` more changes than the statement allows. -/
theorem not_scalarLoads : ¬ Obligations.ScalarLoads := by
  unfold Obligations.ScalarLoads
  intro h
  obtain ⟨hplain, -⟩ := h remoteHub remoteHub 3 0 0 remotePlace (.ld 3 0 0, 8, false) (by simp) remoteHub_accessOk rfl
  obtain ⟨t, hexec, -, -, hframe⟩ := hplain (by decide +kernel) remoteHub_readable
  have hkept : t.hart.buffer = [⟨0x2000, [1]⟩] := congrArg (·.hart.buffer) (hframe rfl (.inr remoteHub_plainPlace))
  have hdrained := remoteHub_drains
  rw [hexec] at hdrained
  exact absurd (hkept.symm.trans (Option.some.inj hdrained)) (by decide)

end Sys2Proof.Machine
end

section
/-! SUPPORT. Computations that leave what an access is made under, and scalar atomics (R96, R171, R172). -/

namespace Sys2Proof.Machine

/-! ### What a translation leaves alone -/

section
variable {α β γ : Type} {s t : State} {g : State → β}

/-- Run from any state, the computation leaves what `g` reads of it, with a result or a halt. -/
def M.fixes (g : State → β) (m : M α) : Prop := ∀ s, g (m.go s).2 = g s

theorem M.fixes.left {m : M α} {r : Except Halt α} (h : m.fixes g) (e : m.go s = (r, t)) : g t = g s := by
  have hs := h s
  rwa [e] at hs

theorem M.fixes_pure (a : α) : (pure a : M α).fixes g := fun _ => rfl

theorem M.fixes_throw (e : Halt) : (throw e : M α).fixes g := fun _ => rfl

theorem M.fixes_checkM (c : Bool) (e : Halt) : (checkM c e).fixes g := fun s => by rw [M.go_checkM]

theorem M.fixes_modify {f : State → State} (h : ∀ s, g (f s) = g s) : (modify f : M PUnit).fixes g := h

theorem M.fixes_get_bind {f : State → M γ} (h : ∀ s, (f s).fixes g) : (get >>= f).fixes g := fun s => h s s

theorem M.fixes_bind {m : M α} {f : α → M γ} (hm : m.fixes g) (hf : ∀ a, (f a).fixes g) : (m >>= f).fixes g := by
  intro s
  rw [M.go_bind]
  split
  · next a t e => exact (hf a t).trans (hm.left e)
  · next e t e' => exact hm.left e'

theorem M.fixes_ite {c : Prop} [Decidable c] {m n : M α} (hm : m.fixes g) (hn : n.fixes g) :
    (if c then m else n).fixes g := by
  split
  · exact hm
  · exact hn

end

theorem State.modHart_ctx (s : State) (n : Nat) (f : Hart → Hart)
    (hf : ∀ h : Hart, (f h).id = h.id ∧ (f h).priv = h.priv ∧ (f h).ptb = h.ptb ∧ (f h).asid = h.asid
      ∧ (f h).status = h.status) : (s.modHart n f).ctx = s.ctx := by
  obtain ⟨hid, hpriv, hptb, hasid, hstatus⟩ := hf s.hart
  unfold State.modHart
  split
  · simp only [State.ctx, hid, hpriv, hptb, hasid, hstatus]
  · rfl

theorem State.reportGranule_ctx (s : State) (l : Lease) (g : Nat) (who : Option (Nat × Nat)) :
    (s.reportGranule l g who).ctx = s.ctx := by
  unfold State.reportGranule
  split
  · exact s.modHart_ctx _ _ fun h => by split <;> exact ⟨rfl, rfl, rfl, rfl, rfl⟩
  · rfl

theorem leaseCheck_ctx {c : Ctx} {k : Acc} {va size pte : Nat} : (leaseCheck c k va size pte).fixes State.ctx := by
  refine M.fixes_get_bind fun s => ?_
  dsimp only
  split
  · exact M.fixes_throw _
  · refine M.fixes_ite (M.fixes_pure _) (M.fixes_ite (M.fixes_pure _) (M.fixes_ite ?_ (M.fixes_throw _)))
    exact M.fixes_bind (M.fixes_modify fun s => s.reportGranule_ctx ..) fun _ => M.fixes_pure _

theorem State.noteTagged_ctx (s : State) (leafAt page : Nat) (on : Bool) : (s.noteTagged leafAt page on).ctx = s.ctx := by
  unfold State.noteTagged State.mapTagged
  repeat' split
  all_goals rfl

theorem leaf_ctx {c : Ctx} {k : Acc} {va leafAt level pte : Nat} : (leaf c k va leafAt level pte).fixes State.ctx := by
  unfold leaf
  refine M.fixes_bind (M.fixes_checkM _ _) fun _ => ?_
  extract_lets found
  have hfound (held : Nat) : (found held).fixes State.ctx := by
    unfold found
    extract_lets used new pa noted marked
    have hnoted (x : PUnit) : (noted x).fixes State.ctx :=
      M.fixes_bind (M.fixes_modify fun s => s.noteTagged_ctx ..) fun _ => M.fixes_pure _
    have hmarked (x : PUnit) : (marked x).fixes State.ctx :=
      M.fixes_ite (M.fixes_ite (M.fixes_bind (M.fixes_throw _) hnoted) (M.fixes_bind (M.fixes_throw _) hnoted)) (hnoted ⟨⟩)
    exact M.fixes_ite (M.fixes_bind (M.fixes_modify fun _ => rfl) hmarked) (hmarked ⟨⟩)
  exact M.fixes_ite (M.fixes_bind leaseCheck_ctx hfound) (M.fixes_bind (M.fixes_pure _) hfound)

theorem walk_ctx {c : Ctx} {k : Acc} {va level base : Nat} : (walk c k va level base).fixes State.ctx := by
  induction level generalizing base with
  | zero =>
    unfold walk
    refine M.fixes_get_bind fun s => M.fixes_bind (M.fixes_checkM _ _) fun _ => M.fixes_bind (M.fixes_checkM _ _) fun _ =>
      M.fixes_bind (M.fixes_modify fun _ => rfl) fun _ => M.fixes_bind (M.fixes_checkM _ _) fun _ => M.fixes_ite ?_ leaf_ctx
    exact M.fixes_bind (M.fixes_checkM _ _) fun _ => M.fixes_throw _
  | succ n ih =>
    unfold walk
    refine M.fixes_get_bind fun s => M.fixes_bind (M.fixes_checkM _ _) fun _ => M.fixes_bind (M.fixes_checkM _ _) fun _ =>
      M.fixes_bind (M.fixes_modify fun _ => rfl) fun _ => M.fixes_bind (M.fixes_checkM _ _) fun _ => M.fixes_ite ?_ leaf_ctx
    exact M.fixes_bind (M.fixes_checkM _ _) fun _ => ih

/-- A translation changes nothing of what accesses are made under. -/
theorem translate_ctx {c : Ctx} {k : Acc} {va : Nat} : (translate c k va).fixes State.ctx := by
  refine M.fixes_get_bind fun s => M.fixes_ite ?_ (M.fixes_bind (M.fixes_checkM _ _) fun _ => M.fixes_pure _)
  split
  · exact M.fixes_pure _
  · exact walk_ctx

theorem reachable_ctx {k : Acc} {pa : Nat} {va : Word} {way : Way} : (reachable k pa va way).fixes State.ctx := by
  refine M.fixes_get_bind fun s => M.fixes_ite (M.fixes_checkM _ _) ?_
  refine M.fixes_bind (M.fixes_checkM _ _) fun _ => M.fixes_bind (M.fixes_checkM _ _) fun _ => ?_
  dsimp only
  split
  · exact M.fixes_bind (M.fixes_checkM _ _) fun _ => M.fixes_checkM _ _
  · exact M.fixes_checkM _ _

theorem scratch_ctx {hart a n : Nat} {tv : Word} : (scratch hart a n tv).fixes State.ctx :=
  M.fixes_get_bind fun _ => M.fixes_bind (M.fixes_checkM _ _) fun _ => M.fixes_bind (M.fixes_checkM _ _) fun _ => M.fixes_pure _

theorem resolve_ctx {c : Ctx} {k : Acc} {p : Word} {n al : Nat} {way : Way} : (resolve c k p n al way).fixes State.ctx := by
  refine M.fixes_bind (M.fixes_checkM _ _) fun _ => M.fixes_ite ?_ ?_
  · exact M.fixes_bind (M.fixes_checkM _ _) fun _ => M.fixes_bind (M.fixes_checkM _ _) fun _ =>
      M.fixes_bind scratch_ctx fun _ => M.fixes_pure _
  · exact M.fixes_bind (M.fixes_checkM _ _) fun _ => M.fixes_bind translate_ctx fun r =>
      M.fixes_bind reachable_ctx fun _ => M.fixes_pure _

/-! ### Places in a scratchpad (R59) -/

theorem scratch_fits {hart a n : Nat} {tv : Word} {s t : State} {l : Loc} (h : (scratch hart a n tv).go s = (.ok l, t)) :
    ∃ c o, l = .spad c o ∧ o + n ≤ 0x180000 := by
  rw [scratch, M.go_get_bind] at h
  obtain ⟨-, u, -, h⟩ := M.bind_ok h
  obtain ⟨⟨⟩, v, hcheck, h⟩ := M.bind_ok h
  rw [M.go_checkM] at hcheck
  split at hcheck
  · next hfits =>
    cases h
    exact ⟨_, _, rfl, of_decide_eq_true hfits⟩
  · cases hcheck

/-- An access to a scratchpad lies within its 1.5 MiB (R59). -/
theorem resolve_fits {c : Ctx} {k : Acc} {p : Word} {n al : Nat} {way : Way} {s t : State} {q : Phys}
    (h : (resolve c k p n al way).go s = (.ok q, t)) (core o : Nat) (hq : q.loc = .spad core o) : o + n ≤ 0x180000 := by
  obtain ⟨-, u, -, h⟩ := M.bind_ok h
  rw [M.go_ite] at h
  split at h
  · obtain ⟨-, v, -, h⟩ := M.bind_ok h
    obtain ⟨-, w, -, h⟩ := M.bind_ok h
    obtain ⟨l, x, hl, h⟩ := M.bind_ok h
    obtain ⟨c', o', rfl, hfits⟩ := scratch_fits hl
    cases h
    cases hq
    exact hfits
  · obtain ⟨pa, hpa⟩ := resolveVirtual_glob h
    rw [hpa] at hq
    cases hq

/-! ### Bytes stored at a plain place -/

/-- Outside the hub window a store only sets bytes of memory or scratchpad. -/
theorem State.homeStore_plain (s : State) (l : Loc) (bs : List Byte) (src : WakeSource) (h : s.plainPlace l) :
    s.homeStore l bs src = s.homeSet l bs := by
  cases l with
  | spad c o => rfl
  | glob pa =>
    have hout : ¬ (decide (epOf pa = s.endpt) && inHub (offOf pa)) = true := by simpa [State.plainPlace] using h
    exact if_neg hout

/-- No other byte changes. -/
theorem State.homeSet_sameBytesBut (s : State) (l : Loc) (bs : List Byte)
    (h : ∀ c o, l = .spad c o → o + bs.length ≤ 0x180000) : sameBytesBut s (s.homeSet l bs) l bs.length := by
  cases l with
  | glob pa =>
    refine ⟨fun a ha => Memory.read_writeN_other _ _ _ _ ?_, fun _ _ _ _ => rfl, rfl⟩
    by_contra hin
    exact ha (a - pa) (by omega) (congrArg Loc.glob (by omega))
  | spad c o =>
    have hfits := h c o rfl
    refine ⟨fun _ _ => rfl, fun c' o' ha ho => Memory.read_writeN_other _ _ _ _ ?_, rfl⟩
    by_contra hin
    simp only [spadKey] at hin
    obtain rfl : c' = c := by omega
    exact ha (o' - o) (by omega) (congrArg (Loc.spad c') (by omega))

/-! ### The atomic at its home (R96, R171) -/

/-- What an atomic leaves at a plain place: the new value, if it stores one. -/
def State.stored (s : State) (l : Loc) (n : Nat) (new : Option Nat) : State :=
  match new with
  | some v => s.homeSet l (leBytes v n)
  | none => s

theorem State.atomicAt_plain (s : State) (l : Loc) (n : Nat) (op : AtomicOp) (y expected : Nat) (src : WakeSource)
    (h : s.plainPlace l) : s.atomicAt l n op y expected src
      = (s.stored l n (atomicNew op (8 * n) (leNat (s.homeRead l n)) y expected), leNat (s.homeRead l n)) := by
  unfold State.atomicAt State.stored
  dsimp only
  cases atomicNew op (8 * n) (leNat (s.homeRead l n)) y expected with
  | none => rfl
  | some v => exact congrArg (·, _) (s.homeStore_plain _ _ _ h)

/-- Of the hart an atomic changes nothing, and of the rest of the machine no more than bytes at its place. -/
theorem State.stored_parts (s : State) (l : Loc) (n : Nat) (new : Option Nat) (h : ∀ c o, l = .spad c o → o + n ≤ 0x180000) :
    (s.stored l n new).hart = s.hart ∧ (s.stored l n new).posted = s.posted ∧ sameBytesBut s (s.stored l n new) l n := by
  cases new with
  | none => exact ⟨rfl, rfl, fun _ _ => rfl, fun _ _ _ _ => rfl, rfl⟩
  | some v =>
    have hbut := s.homeSet_sameBytesBut l (leBytes v n) (by rwa [leBytes_length])
    rw [leBytes_length] at hbut
    cases l <;> exact ⟨rfl, rfl, hbut⟩

/-- A step that is taken on a condition, before what follows either way. -/
theorem M.go_when {α : Type} {s t : State} {c : Prop} [Decidable c] {m : M PUnit} (f : PUnit → M α)
    (h : if c then m.go s = (.ok ⟨⟩, t) else t = s) : (if c then m >>= f else f ⟨⟩).go s = (f ⟨⟩).go t := by
  split at h
  · next hc => rw [if_pos hc, M.go_bind_ok _ h]
  · next hc => rw [if_neg hc, h]

theorem drainAll_go (s : State) (h : s.drain.hart.buffer = []) : drainAll.go s = (.ok (), s.drain) := by
  rw [drainAll, M.go_modify_bind, M.go_get_bind, M.go_checkM, if_pos (decide_eq_true h)]

/-- The acquire side of an atomic. -/
def State.acquiredBy (s : State) (o : Order) (sc : Scope) : State := if o.acquires = true then s.acquire sc else s

section
variable {s u w : State} {a b d : SReg} {p : Word} {wide : Bool} {n : Nat} {sc : Scope} {o : Order} {q : Phys}

theorem scalarAtomic_go (op : AtomicOp) (y expected : Nat) (hlatch : o.releases = true → s.hart.latch = none)
    (hok : s.accessOk .atomic p n n q u) (hrel : if o.releases = true then (release sc).go u = (.ok (), w) else w = u)
    (hsilent : w.homeSilent q.loc = false) (hbuf : w.drain.hart.buffer = [])
    (hgood : (w.drain.dropLine q.loc).isBad q.loc n = false) (hplain : (w.drain.dropLine q.loc).plainPlace q.loc) :
    let z := w.drain.dropLine q.loc
    let old := leNat (z.homeRead q.loc n)
    (scalarAtomic p n op y expected sc o).go s
      = (.ok old, (z.stored q.loc n (atomicNew op (8 * n) old y expected)).acquiredBy o sc) := by
  intro z old
  obtain ⟨v, hres, hallow⟩ := State.accessOk_parts hok
  rw [if_neg (by decide)] at hres
  rw [← M.fixes.left resolve_ctx hres] at hallow
  have hcheck : if (o.releases && (decide (sc = .device) || decide (sc = .domain))) = true
      then latchCheck.go s = (.ok (), s) else s = s := by
    split
    · next h =>
      rw [latchCheck, M.go_get_bind, hlatch (Bool.and_eq_true_iff.mp h).1, M.go_pure]
    · rfl
  have hanswered : (answered q.loc).go w = (.ok (), w) := by
    rw [answered, M.go_get_bind, M.go_checkM, hsilent]
    rfl
  have hdata : (dataCheck q n).go z = (.ok (), z) := by
    rw [dataCheck, M.go_get_bind, M.go_checkM, hgood]
    rfl
  unfold scalarAtomic
  extract_lets checked
  refine (M.go_when checked hcheck).trans ?_
  unfold checked
  rw [M.go_get_bind, M.go_bind_ok _ hres, M.go_get_bind, M.go_bind_ok _ hallow]
  extract_lets released
  refine (M.go_when released hrel).trans ?_
  unfold released
  rw [M.go_bind_ok _ hanswered, M.go_bind_ok _ (drainAll_go w hbuf), M.go_modify_bind, M.go_bind_ok _ hdata, M.go_get_bind,
    M.go_get_bind]
  rw [z.atomicAt_plain _ _ _ _ _ _ hplain]
  extract_lets r acquired
  refine (M.go_set_bind _).trans ?_
  unfold State.acquiredBy
  split
  · rfl
  · rfl

/-- A scalar atomic that meets no fault and no stall: its register, and what it leaves. -/
theorem State.samo_done (op : AtomicOp) (hlatch : o.releases = true → s.hart.latch = none)
    (hok : s.accessOk .atomic (s.x a) (if wide then 8 else 4) (if wide then 8 else 4) q u)
    (hrel : if o.releases = true then (release sc).go u = (.ok (), w) else w = u)
    (hsilent : w.homeSilent q.loc = false) (hbuf : w.drain.hart.buffer = [])
    (hgood : (w.drain.dropLine q.loc).isBad q.loc (if wide then 8 else 4) = false)
    (hplain : (w.drain.dropLine q.loc).plainPlace q.loc) (hnone : o.acquires = true → (w.drain.dropLine q.loc).noneReleased) :
    let n := if wide then 8 else 4
    let z := w.drain.dropLine q.loc
    let old := leNat (z.homeRead q.loc n)
    let t := s.samo d a b wide sc o op
    let y := z.stored q.loc n (atomicNew op (8 * n) old ((s.x b).toNat % 2 ^ (8 * n)) ((s.x d).toNat % 2 ^ (8 * n)))
    t.hart.x = (z.wroteNext d (sextBytes n old)).hart.x ∧ t.hart.pc = z.hart.pc + 4
      ∧ t.mem = y.mem ∧ t.spad = y.spad ∧ sameBytesBut z t q.loc n
      ∧ t.hart.l1 = if o.acquires = true ∧ sc ≠ .hart then [] else z.hart.l1 := by
  intro n z old t y
  obtain ⟨v, hres, -⟩ := State.accessOk_parts hok
  obtain ⟨hhart, hposted, hbut⟩ : y.hart = z.hart ∧ y.posted = z.posted ∧ sameBytesBut z y q.loc n :=
    z.stored_parts _ _ _ (resolve_fits hres)
  have hacq : y.acquiredBy o sc = { y with hart.l1 := if o.acquires = true ∧ sc ≠ .hart then [] else z.hart.l1 } := by
    unfold State.acquiredBy
    split
    · next h =>
      have hnone' : y.noneReleased := by
        unfold State.noneReleased
        rw [hposted, hhart]
        exact hnone h
      rw [y.acquire_noneReleased sc hnone', hhart]
      by_cases hsc : sc = .hart
      · simp only [hsc, if_true, ne_eq, not_true_eq_false, and_false, if_false]
      · simp only [hsc, if_false, h, ne_eq, not_false_eq_true, and_self, if_true]
    · next h => rw [if_neg (fun hc => h hc.1), ← hhart]
  have ht : t = ((y.acquiredBy o sc).result d (sextBytes n old)) :=
    s.runM_ok _ _ _ _ (scalarAtomic_go op _ _ hlatch hok hrel hsilent hbuf hgood hplain)
  rw [ht, hacq, State.result, State.setX_eq]
  refine ⟨?_, congrArg (·.pc + 4) hhart, rfl, rfl, hbut, rfl⟩
  show (if d = 0 then y.hart.x else y.hart.x.set d.toNat (sextBytes n old) d.isLt) = _
  rw [hhart]
  rfl

end

/-- The old value with its sign, as the statement writes it. -/
theorem signed_of_lt (w x : Nat) (h : x < 2 ^ w) : signed w x = if 2 * x < 2 ^ w then (x : Int) else (x : Int) - 2 ^ w := by
  unfold signed
  rw [Nat.mod_eq_of_lt h]
  split
  · rfl
  · exact congrArg ((x : Int) - ·) (Nat.cast_pow 2 w)

theorem State.homeRead_lt (s : State) (l : Loc) (n : Nat) : leNat (s.homeRead l n) < 2 ^ (8 * n) := by
  have h := leNat_lt (s.homeRead l n)
  rwa [s.homeRead_length, show 256 = 2 ^ 8 from rfl, ← Nat.pow_mul] at h

/-- Settles O20: each instruction is `State.samo` with its operation. -/
theorem scalarAtomics : Obligations.ScalarAtomics := by
  intro s u w d a b wide sc o q n y old sg hlatch hok hlate hrel z hsilent hbuf hgood hplain hnone r hr
  have hold : old z < 2 ^ (8 * n) := z.homeRead_lt q.loc n
  have hy : y < 2 ^ (8 * n) := Nat.mod_lt _ (Nat.two_pow_pos _)
  have hsg (x : Nat) (hx : x < 2 ^ (8 * n)) : signed (8 * n) x = sg x := signed_of_lt _ x hx
  have done (op : AtomicOp) (hop : exec r.1 s = .next (s.samo d a b wide sc o op))
      (hnew : atomicNew op (8 * n) (old z) y ((s.x d).toNat % 2 ^ (8 * n)) = r.2 (old z)) :
      ∃ t, exec r.1 s = .next t
        ∧ t.hart.x = (z.wroteNext d (.ofInt 64 (sg (old z)))).hart.x ∧ t.hart.pc = z.hart.pc + 4
        ∧ (match r.2 (old z) with
          | some v => t.mem = (z.homeSet q.loc (leBytes v n)).mem ∧ t.spad = (z.homeSet q.loc (leBytes v n)).spad
          | none => t.mem = z.mem ∧ t.spad = z.spad)
        ∧ sameBytesBut z t q.loc n
        ∧ t.hart.l1 = (if o.acquires = true ∧ sc ≠ .hart then [] else z.hart.l1) := by
    obtain ⟨hx, hpc, hmem, hspad, hbut, hl1⟩ := State.samo_done (b := b) (d := d) op hlatch hok hrel hsilent hbuf hgood hplain hnone
    refine ⟨_, hop, ?_, hpc, ?_, hbut, hl1⟩
    · rw [hx, ← hsg _ hold]
      rfl
    · rw [← hnew, hmem, hspad]
      cases atomicNew op (8 * n) (old z) y ((s.x d).toNat % 2 ^ (8 * n)) <;> exact ⟨rfl, rfl⟩
  simp only [List.mem_cons, List.not_mem_nil, or_false] at hr
  rcases hr with rfl | rfl | rfl | rfl | rfl | rfl | rfl | rfl | rfl | rfl
  · exact done .swap rfl rfl
  · exact done .add rfl rfl
  · exact done .and rfl rfl
  · exact done .or rfl rfl
  · exact done .xor rfl rfl
  · exact done .min rfl (show some (if signed _ (old z) ≤ signed _ y then old z else y) = some (if sg (old z) ≤ sg y then old z else y)
      by rw [hsg _ hold, hsg _ hy])
  · exact done .max rfl (show some (if signed _ (old z) ≤ signed _ y then y else old z) = some (if sg (old z) ≤ sg y then y else old z)
      by rw [hsg _ hold, hsg _ hy])
  · exact done .minu rfl rfl
  · exact done .maxu rfl rfl
  · exact done .cas rfl rfl

end Sys2Proof.Machine
end

section
/-! SUPPORT. A `tlbi` on a table of harts that holds one of them twice (R332). -/

namespace Sys2Proof.Machine

/-! ### Settling the other harts -/

/-- A copy that hart 1 has under way. -/
def copyOfOther : Copy where
  id := 0
  hart := 1
  ch := 0
  kind := .plain
  src := 0
  dst := 0
  len := 1
  width := 1
  acq := false
  rel := false
  scope := .hart
  asid := 0
  ptb := 0
  priv := .super
  tage := false
  ctx := 0
  launch := none

/-- Hart 0 as at reset, and a table of the other harts in which key 0 stands twice, for another hart. -/
def doubled : State :=
  { State.reset with
    others := [(0, { id := 1 }), (0, { id := 1 }), (2, { id := 2, pc := 4 })]
    copies := [copyOfOther] }

/-- What `tlbi` waits for in it. While hart 2 is settled, hart 0 is put away as the absence of an entry, and the second entry for
its number comes back in its place: hart 1 is current. -/
def doubledSettled : State := doubled.settleOthers.forget (doubled.x 0)

theorem doubledSettled_latch : doubledSettled.flushOverflow.hart.latch = none := by decide +kernel

theorem doubledSettled_buffer : doubledSettled.flushOverflow.drain.hart.buffer = [] := by decide +kernel

theorem doubledSettled_toFlush : doubledSettled.flushOverflow.drain.hart.toFlush = [] := by decide +kernel

theorem doubledSettled_idle : doubledSettled.ownTrains = [] ∧ doubledSettled.hart.reassembly = [] ∧ doubledSettled.copiesOf doubled.hart.id = [] := by
  decide +kernel

theorem doubledSettled_nonePending : doubledSettled.othersPending = 0 := by decide +kernel

/-- Where a hart stands after an instruction. -/
def pcAfter : Result → Option Word
  | .next t => some t.hart.pc
  | _ => none

/-- The `tlbi` waits for the copy of hart 1. -/
theorem doubled_stalls : pcAfter (exec (.tlbi 0) doubled) = some 0 := by decide +kernel

theorem doubledSettled_pc : doubledSettled.flushOverflow.drain.hart.pc = 0 := by decide +kernel

/-- Refutes O51: the statement takes every state, also one whose table of the other harts holds a number twice, which no step
makes. Settling the others then leaves another hart in the place of the one that executes `tlbi`, so that the fence waits for
copies of that one, while the statement asks for those of the executing hart alone. -/
theorem not_fences : ¬ Obligations.Fences := by
  intro h
  obtain ⟨-, -, -, htlbi, -⟩ := h doubled .hart 0
  dsimp only at htlbi
  rw [show doubled.settleOthers.forget (doubled.x 0) = doubledSettled from rfl] at htlbi
  obtain ⟨t, hexec, ⟨⟨-, -, -, hpc, -⟩, -⟩, -⟩ :=
    htlbi ⟨⟨doubledSettled_latch, doubledSettled_buffer, by simp only [doubledSettled_toFlush, List.not_mem_nil, false_imp_iff, implies_true]⟩,
      doubledSettled_idle, doubledSettled_nonePending⟩
  have hstall : some t.hart.pc = some 0 := (congrArg pcAfter hexec).symm.trans doubled_stalls
  rw [hpc, doubledSettled_pc] at hstall
  exact absurd hstall (by decide)

end Sys2Proof.Machine
end

section
/-! SUPPORT. Stores, flushes, trains and responses on their way (R86, R98 to R104, R335, R401, R402). -/

namespace Sys2Proof.Machine

/-! ### What a store at its home may change -/

/-- A predicate that each step of a home keeps: bytes set, a hart's wait answered or a cause posted to it, and the queues, the
waiters and the replies changed. -/
structure HomeKept (P : State → Prop) : Prop where
  homeSet {s : State} (l : Loc) (bs : List Byte) : P s → P (s.homeSet l bs)
  modHart {s : State} (n : Nat) (f : Hart → Hart) (hf : ∀ h, ∃ w p, f h = { h with wait := w, pending := p }) :
    P s → P (s.modHart n f)
  parts {s : State} (q : Tbl Queue) (w : List HomeWaiter) (r : List Reply) :
    P s → P { s with queues := q, waiters := w, replies := r }

theorem foldl_kept {α : Type} {P : State → Prop} {f : State → α → State} (hf : ∀ t x, P t → P (f t x)) (l : List α) {s : State}
    (h : P s) : P (l.foldl f s) :=
  List.foldlRecOn (motive := P) l f h fun t ht x _ => hf t x ht

namespace HomeKept

variable {P : State → Prop} (c : HomeKept P) {s : State}
include c

theorem waiters (w : List HomeWaiter) (h : P s) : P { s with waiters := w } := c.parts s.queues w s.replies h

theorem reply (r : Reply) (h : P s) : P (s.reply r) := c.parts s.queues s.waiters _ h

theorem post (n : Nat) (t : Trap) (h : P s) : P (s.post n t) :=
  c.modHart _ _ (fun k => by split <;> exact ⟨_, _, rfl⟩) h

theorem answerHart (id : Nat) (l : Loc) (a : Answer) (h : P s) : P (s.answerHart id l a) := by
  refine c.modHart _ _ (fun k => ?_) h
  split
  · split <;> exact ⟨_, _, rfl⟩
  · exact ⟨_, _, rfl⟩

theorem answerWaiter (w : HomeWaiter) (a : Answer) (h : P s) : P (s.answerWaiter w a) := by
  have hstatus := c.reply (.status a.status (a.absent.getD 0)) h
  unfold State.answerWaiter
  split
  · exact c.answerHart _ _ _ h
  · dsimp only
    split
    · exact c.reply _ hstatus
    · split
      · exact hstatus
      · exact c.reply _ hstatus
    · exact hstatus

theorem damage (l : Loc) (h : P s) : P (s.damage l) := by
  unfold State.damage State.answerAll
  refine foldl_kept (fun t id ht => c.answerHart _ _ _ ht) _
    (foldl_kept (fun t w ht => c.answerWaiter _ _ ht) _ (c.waiters _ ?_))
  split
  · exact h
  · exact c.homeSet _ _ h

theorem homeDeadlines (l : Loc) (h : P s) : P (s.homeDeadlines l) := by
  refine foldl_kept (fun t w ht => ?_) _ h
  split
  · exact c.answerWaiter _ _ (c.waiters _ ht)
  · exact c.answerWaiter _ _ (c.waiters _ ht)
  · exact c.answerWaiter _ _ (c.waiters _ ht)
  · exact ht

theorem endDue (l : Loc) (h : P s) : P (s.endDue l) := by
  unfold State.endDue
  split
  · exact c.damage l h
  · exact c.homeDeadlines l h

theorem recheck (ep : Endpoint) (q : Nat) (explicit : Bool) (h : P s) : P (s.recheck ep q explicit) := by
  refine foldl_kept (fun t w ht => ?_) _ (foldl_kept (fun t w ht => ?_) _ h)
  · split
    · exact ht
    · extract_lets drop scope d
      have hdrop : P drop := c.waiters _ ht
      split
      · exact c.answerWaiter _ _ (c.homeSet _ _ hdrop)
      · split
        · exact c.answerWaiter _ _ hdrop
        · exact ht
  · split
    · exact c.endDue _ ht
    · exact ht

theorem modQueue (q : Nat) (f : Queue → Queue) (h : P s) : P (s.modQueue q f) := c.parts _ s.waiters s.replies h

theorem wakeQueue (q : Nat) (explicit : Bool) (h : P s) : P (s.wakeQueue q explicit) := by
  unfold State.wakeQueue
  extract_lets d woken noted
  have hwoken : P woken := c.modQueue _ _ h
  refine c.recheck _ _ _ ?_
  unfold noted
  split
  · exact c.post _ _ hwoken
  · exact hwoken

theorem hubStore (off : Nat) (bs : List Byte) (src : WakeSource) (h : P s) : P (s.hubStore off bs src) := by
  unfold State.hubStore
  split
  · dsimp only
    split
    · exact c.wakeQueue _ _ h
    · exact h
  · exact c.modQueue _ _ h

theorem homeStore (l : Loc) (bs : List Byte) (src : WakeSource) (h : P s) : P (s.homeStore l bs src) := by
  unfold State.homeStore
  split
  · split
    · exact c.hubStore _ _ _ h
    · exact c.homeSet _ _ h
  · exact c.homeSet _ _ h

end HomeKept

/-! ### Buffered and posted stores (R86, R98 to R100) -/

section
variable {s : State} {i : Nat} {b : Buffered} {p : Posted}

/-- A store of the buffer that no earlier one holds back is sent. -/
theorem State.storeBufferDrain_free (hb : s.hart.buffer[i]? = some b) (hfree : ∀ c ∈ s.hart.buffer.take i, c.meets b = false)
    {r : State × Bool} (hr : ({ s with hart.buffer := s.hart.buffer.eraseIdx i } : State).sendStore b = r) :
    exec (.storeBufferDrain i) s = .next (if r.2 then r.1 else { r.1 with hart.buffer := s.hart.buffer }) := by
  have hnone : (s.hart.buffer.take i).any (fun c => c.meets b) = false := List.any_eq_false.mpr fun c hc => by
    rw [hfree c hc]
    exact Bool.false_ne_true
  refine congrArg Host.Outcome.next ?_
  simp only [hb, hnone, hr, Bool.false_eq_true, if_false]

/-- A store to the hart's own die is performed (R98). -/
theorem State.sendStore_ownDie (h : (epOf b.pa, dieOf (offOf b.pa)) = (s.endpt, BitVec.ofNat 3 (dieOfCore s.hart.core)))
    (hplain : s.plainPlace (.glob b.pa)) : s.sendStore b = (s.homeSet (.glob b.pa) b.data, true) := by
  unfold State.sendStore
  rw [if_pos h, s.homeStore_plain _ _ _ hplain]

/-- With room in the replay window nothing is acknowledged first. -/
theorem State.windowRoom_free {ep : Endpoint} (h : ep = s.endpt ∨ (s.posted.filter fun q => epOf q.pa = ep).length < 64) :
    s.windowRoom ep = (s, true) := by
  unfold State.windowRoom
  split
  · rfl
  · next p ps hps =>
    rw [hps, List.length_cons, Nat.succ_lt_succ_iff] at h
    rw [if_pos (by simpa using h)]

theorem State.flushOverflow_none (h : s.hart.overflow = []) : s.flushOverflow = s := by
  rw [State.flushOverflow, h, List.foldl_nil]

/-- Flushes that nobody has answered go on (R100). -/
theorem State.flushOverflow_silent (h : ∀ q ∈ s.hart.overflow, s.pairFails (q.1, q.2.1) = some cFlushTimeout) :
    s.flushOverflow = s := by
  unfold State.flushOverflow
  refine List.foldlRecOn (motive := fun t : State => t = s) _ _ rfl fun t ht q hq => ?_
  rw [ht, h q hq]
  exact if_pos rfl

/-- A store to another die, whose destination has room among the recorded ones. -/
theorem State.sendStore_away (h : (epOf b.pa, dieOf (offOf b.pa)) ≠ (s.endpt, BitVec.ofNat 3 (dieOfCore s.hart.core)))
    (hpair : (epOf b.pa, dieOf (offOf b.pa)) ∈ s.hart.pairs ∨ s.hart.pairs.length < 64)
    (hroom : epOf b.pa = s.endpt ∨ (s.posted.filter fun q => epOf q.pa = epOf b.pa).length < 64) (hflush : s.flushOverflow = s) :
    s.sendStore b = if s.hart.overflow = [] then (s.postStore b, true) else (s, false) := by
  have hset : (decide ((epOf b.pa, dieOf (offOf b.pa)) ∈ s.hart.pairs) || decide (s.hart.pairs.length < 64)) = true := by
    simpa using hpair
  unfold State.sendStore
  rw [if_neg h, hflush]
  dsimp only
  rw [if_pos hset, State.windowRoom_free hroom]
  dsimp only
  rw [Bool.true_and]
  by_cases ho : s.hart.overflow = []
  · rw [if_pos (decide_eq_true ho), if_pos ho]
  · rw [if_neg (by simpa using ho), if_neg ho]

theorem State.storeApply_free (hp : s.posted[i]? = some p)
    (hfree : ∀ q ∈ s.posted.take i, ¬ (q.hart = p.hart ∧ q.pa / 64 = p.pa / 64)) (hplain : s.plainPlace (.glob p.pa)) :
    exec (.storeApply i) s = .next (({ s with posted := s.posted.eraseIdx i } : State).homeSet (.glob p.pa) p.data) := by
  have hnone : (s.posted.take i).any (fun q => q.hart = p.hart && q.pa / 64 = p.pa / 64) = false :=
    List.any_eq_false.mpr fun q hq => by simpa using hfree q hq
  refine congrArg Host.Outcome.next ?_
  rw [hp]
  dsimp only
  rw [hnone, if_neg Bool.false_ne_true, State.applyPosted]
  exact State.homeStore_plain _ _ _ _ hplain

end

/-! ### Flushes (R100 to R102) -/

/-- Posted stores to plain places set bytes in their order. -/
theorem State.applyPosted_plain {s : State} {l : List Posted} (h : ∀ q ∈ l, s.plainPlace (.glob q.pa)) :
    l.foldl (fun s q => s.applyPosted q) s = l.foldl (fun (t : State) q => t.homeSet (.glob q.pa) q.data) s := by
  induction l generalizing s with
  | nil => rfl
  | cons q l ih =>
    have hq : s.applyPosted q = s.homeSet (.glob q.pa) q.data := s.homeStore_plain _ _ _ (h q List.mem_cons_self)
    rw [List.foldl_cons, List.foldl_cons, hq]
    exact ih fun r hr => h r (List.mem_cons_of_mem q hr)

theorem State.homeSets_hart (s : State) (l : List Posted) :
    (l.foldl (fun (t : State) q => t.homeSet (.glob q.pa) q.data) s).hart = s.hart :=
  List.foldlRecOn (motive := fun t : State => t.hart = s.hart) l _ rfl fun _ ht _ _ => ht

theorem State.applyTo_plain {s : State} (h : ∀ q ∈ s.posted, s.plainPlace (.glob q.pa)) (src : Nat) (die : Die) :
    let toward := fun (q : Posted) => decide (q.hart = src ∧ (epOf q.pa, dieOf (offOf q.pa)) = (s.endpt, die))
    s.applyTo src s.endpt die
      = { (s.posted.filter toward).foldl (fun (t : State) q => t.homeSet (.glob q.pa) q.data) s with
        posted := s.posted.filter fun q => !toward q } := by
  intro toward
  unfold State.applyTo
  extract_lets mine s'
  have hmine : mine = toward := by
    funext p
    simp only [mine, toward, Prod.mk.injEq, ← Bool.decide_and, and_assoc]
  unfold s'
  rw [hmine, State.applyPosted_plain fun q hq => h q (List.mem_filter.mp hq).1]

theorem State.flushAnswer_done {s : State} (h : ∀ q ∈ s.posted, s.plainPlace (.glob q.pa)) (die : Die) :
    let toward := fun (q : Posted) => decide (q.hart = s.hart.id ∧ (epOf q.pa, dieOf (offOf q.pa)) = (s.endpt, die))
    let flush := decide (∃ st, s.hart.stall = some st ∧ st.kind = 0)
    exec (.flushAnswer s.endpt die) s
      = .next { (s.posted.filter toward).foldl (fun (t : State) q => t.homeSet (.glob q.pa) q.data) s with
         posted := s.posted.filter fun q => !toward q
         hart.pairs := s.hart.pairs.filter fun q => q ≠ (s.endpt, die)
         hart.overflow := s.hart.overflow.filter fun q => !(q.1 = s.endpt && q.2.1 = die)
         hart.sent := s.hart.sent.filter fun q => q.1 ≠ (s.endpt, die)
         hart.answered := if flush && !s.hart.answered.contains (s.endpt, die) then s.hart.answered ++ [(s.endpt, die)]
           else s.hart.answered } := by
  intro toward flush
  have hflush : s.hart.stall.elim false (fun st => decide (st.kind = 0)) = flush := by
    unfold flush
    cases s.hart.stall <;> simp
  refine congrArg Host.Outcome.next ?_
  rw [State.flushed, State.applyTo_plain h]
  simp only [State.homeSets_hart, hflush]
  rfl

theorem sliceDue_keeps (now : Nat) (h : Hart) : (sliceDue now h).overflow = h.overflow ∧ (sliceDue now h).latch = h.latch := by
  unfold sliceDue
  split <;> exact ⟨rfl, rfl⟩

/-- A flush whose deadline has come is latched. -/
theorem Hart.due_latches {h : Hart} {ep : Endpoint} {die : Die} {dl now : Nat} (ho : h.overflow = [(ep, die, dl)]) (hnow : dl ≤ now) :
    (h.due now).overflow = [] ∧ (h.due now).latch = h.latch.orElse fun _ => some ⟨cFlushTimeout, ep, die, dl⟩ := by
  obtain ⟨hover, hlatch⟩ := sliceDue_keeps now h
  have hfind : (sliceDue now h).overflow.find? (fun q => decide (q.2.2 ≤ now)) = some (ep, die, dl) := by
    rw [hover, ho]
    exact List.find?_cons_of_pos (decide_eq_true hnow)
  rw [Hart.due, overflowDue, hfind]
  refine ⟨?_, congrArg (Option.orElse · _) hlatch⟩
  rw [hover, ho]
  simpa using hnow

/-- The deadline of a flush that a 65th pair brought about (R100). -/
theorem State.flushTimeout_latches {s : State} {ep : Endpoint} {die : Die} {dl : Nat} (hstall : s.hart.stall = none)
    (hlatch : s.hart.latch = none) (hover : s.hart.overflow = [(ep, die, dl)]) (hnow : s.now.toNat < dl) (hdl : dl < 2 ^ 64) :
    ∃ t, exec (.flushTimeout ep die) s = .next t ∧ t.now.toNat = dl ∧ t.hart.latch = some ⟨62, ep, die, dl⟩
      ∧ t.hart.overflow = [] ∧ t.mem = s.mem := by
  obtain ⟨htime, -, -, hmem⟩ := s.passUntil_ahead dl hnow hdl
  have hexec : exec (.flushTimeout ep die) s = .next (s.passUntil dl) := by
    refine congrArg Host.Outcome.next ?_
    rw [hstall, hover, List.find?_cons_of_pos (by simp)]
    rfl
  have hsum : (s.now + word (dl - s.now.toNat)).toNat = dl := by rwa [State.passUntil, if_pos hnow] at htime
  have hdue : (s.passUntil dl).hart = s.hart.due dl := by
    rw [State.passUntil, if_pos hnow]
    exact congrArg s.hart.due hsum
  refine ⟨_, hexec, htime, ?_, ?_, hmem⟩
  · rw [hdue, (Hart.due_latches hover (Nat.le_refl dl)).2, hlatch]
    rfl
  · rw [hdue, (Hart.due_latches hover (Nat.le_refl dl)).1]

/-! ### Element trains (R104, R237) -/

/-- With no train of another endpoint complete, none is acknowledged. -/
theorem State.ackForeign_none {s : State} (h : ∀ u ∈ s.trains, u.hart = none → u.complete = false) : s.ackForeign = s := by
  have hgone : ∀ u ∈ s.trains, (u.hart.isNone && u.complete) = false := fun u hu => by
    by_cases hn : u.hart = none
    · rw [h u hu hn, Bool.and_false]
    · rw [Option.isNone_eq_false_iff.mpr (Option.isSome_iff_ne_none.mpr hn), Bool.false_and]
  have hnone : s.trains.filter (fun t => t.hart.isNone && t.complete) = [] := List.filter_eq_nil_iff.mpr fun u hu => by
    rw [hgone u hu]
    exact Bool.false_ne_true
  have hall : s.trains.filter (fun t => !(t.hart.isNone && t.complete)) = s.trains := List.filter_eq_self.mpr fun u hu => by
    rw [hgone u hu]
    rfl
  unfold State.ackForeign
  dsimp only
  rw [hnone, hall, List.foldl_nil]

/-- A train of another endpoint that is complete and alone is acknowledged. -/
theorem State.ackForeign_last {s : State} {u : Train} (ht : s.trains = [u]) (hn : u.hart = none) (hc : u.complete = true) :
    s.ackForeign = { s with trains := [], replies := s.replies ++ [.data []] } := by
  have hgone : (u.hart.isNone && u.complete) = true := by rw [hn, hc]; rfl
  unfold State.ackForeign
  dsimp only
  have hall : [u].filter (fun t => t.hart.isNone && t.complete) = [u] := List.filter_cons_of_pos hgone
  have hrest : [u].filter (fun t => !(t.hart.isNone && t.complete)) = [] :=
    List.filter_cons_of_neg (by rw [hgone]; exact Bool.false_ne_true)
  rw [ht, hall, hrest]
  rfl

theorem Train.complete_eq_false {t : Train} (h : t.tail ≠ some t.applied ∨ t.items ≠ []) : t.complete = false := by
  unfold Train.complete
  rcases h with h | h
  · rw [decide_eq_false h, Bool.false_and]
  · rw [List.isEmpty_eq_false_iff.mpr h, Bool.and_false]

section
variable {s : State} {i pa n h : Nat} {tr : Train} {x : TrainItem} {data : List Byte}

/-- Of trains changed at one place none of another endpoint is complete, if the new one is not. -/
theorem trains_set_incomplete {l : List Train} {u : Train} (hl : ∀ t ∈ l, t.hart = none → t.complete = false)
    (hu : u.complete = false) : ∀ t ∈ l.set i u, t.hart = none → t.complete = false := fun t ht hn => by
  rcases List.mem_or_eq_of_mem_set ht with ht | rfl
  · exact hl t ht hn
  · exact hu

theorem trains_modify (hi : s.trains[i]? = some tr) (f : Train → Train) : s.trains.modify i f = s.trains.set i (f tr) := by
  rw [List.modify_eq_set_getElem?, hi]
  rfl

/-- An arrival at a train that stands, as far as the kind of the train and of the arrival is known. -/
theorem State.trainElement_refused {c : Nat} (hi : s.trains[i]? = some tr) (hn : tr.hart = none)
    (hstop : s.exportStop pa data.length true = some c) : exec (.trainElement i (.element pa data)) s
      = .next (({ s with trains := s.trains.set i { tr with die := dieOf (offOf pa), applied := tr.applied + 1 } } : State).reply
        (.cause c)).ackForeign := by
  obtain ⟨hlt, -⟩ := List.getElem?_eq_some_iff.mp hi
  have hmin : min i (s.trains.length - 1) = i := by omega
  unfold exec execTrainElement
  simp only [hlt, if_true, hmin, hi, Option.bind_some, hn, hstop, trains_modify hi]

theorem State.trainElement_taken (hi : s.trains[i]? = some tr) (hn : tr.hart = none)
    (hstop : s.exportStop pa data.length true = none) : exec (.trainElement i (.element pa data)) s
      = .next (({ s with trains := s.trains.set i { tr with die := dieOf (offOf pa), applied := tr.applied + 1 } } : State).homeStore
        (.glob pa) data .peer).ackForeign := by
  obtain ⟨hlt, -⟩ := List.getElem?_eq_some_iff.mp hi
  have hmin : min i (s.trains.length - 1) = i := by omega
  unfold exec execTrainElement
  simp only [hlt, if_true, hmin, hi, Option.bind_some, hn, hstop, trains_modify hi]

theorem State.trainElement_tail (hi : s.trains[i]? = some tr) (hn : tr.hart = none) : exec (.trainElement i (.tail n)) s
      = .next ({ s with trains := s.trains.set i { tr with tail := some n } } : State).ackForeign := by
  obtain ⟨hlt, -⟩ := List.getElem?_eq_some_iff.mp hi
  have hmin : min i (s.trains.length - 1) = i := by omega
  unfold exec execTrainElement
  simp only [hlt, if_true, hmin, hi, Option.bind_some, hn, trains_modify hi]

theorem State.trainElement_own (hi : s.trains[i]? = some tr) (hn : tr.hart = some h) :
    exec (.trainElement i (.element pa data)) s = .next (s.itemArrives i pa) := by
  obtain ⟨hlt, -⟩ := List.getElem?_eq_some_iff.mp hi
  have hmin : min i (s.trains.length - 1) = i := by omega
  unfold exec execTrainElement
  simp only [hlt, if_true, hmin, hi, Option.bind_some, hn]

/-- An element of another endpoint's train that is not complete with it changes the bytes of its place, or is answered. -/
theorem State.trainElement_foreign (hi : s.trains[i]? = some tr) (hn : tr.hart = none) (htail : tr.tail = none)
    (hall : ∀ u ∈ s.trains, u.hart = none → u.complete = false) :
    let came : State := { s with trains := s.trains.set i { tr with die := dieOf (offOf pa), applied := tr.applied + 1 } }
    (s.exportStop pa data.length true = none → s.plainPlace (.glob pa) →
      exec (.trainElement i (.element pa data)) s = .next (came.homeSet (.glob pa) data))
    ∧ ∀ c, s.exportStop pa data.length true = some c →
      exec (.trainElement i (.element pa data)) s = .next { came with replies := s.replies ++ [.cause c] } := by
  intro came
  have hinc : ∀ u ∈ came.trains, u.hart = none → u.complete = false :=
    trains_set_incomplete hall (Train.complete_eq_false (.inl (by simp [htail])))
  refine ⟨fun hstop hplain => ?_, fun c hstop => ?_⟩
  · rw [State.trainElement_taken hi hn hstop]
    refine congrArg Host.Outcome.next ((congrArg State.ackForeign (came.homeStore_plain (.glob pa) data .peer hplain)).trans ?_)
    exact State.ackForeign_none hinc
  · rw [State.trainElement_refused hi hn hstop]
    exact congrArg Host.Outcome.next (State.ackForeign_none hinc)

/-- The tail of a train that has elements still to come. -/
theorem State.trainTail_early (hi : s.trains[i]? = some tr) (hn : tr.hart = none)
    (hall : ∀ u ∈ s.trains, u.hart = none → u.complete = false) (h : n ≠ tr.applied ∨ tr.items ≠ []) :
    exec (.trainElement i (.tail n)) s = .next { s with trains := s.trains.set i { tr with tail := some n } } := by
  rw [State.trainElement_tail hi hn]
  refine congrArg Host.Outcome.next (State.ackForeign_none (trains_set_incomplete hall (Train.complete_eq_false ?_)))
  exact h.imp_left fun h => by simpa using h

/-- The tail of a train whose elements have all come. -/
theorem State.trainTail_last (ht : s.trains = [tr]) (hn : tr.hart = none) (hitems : tr.items = []) :
    exec (.trainElement 0 (.tail tr.applied)) s = .next { s with trains := [], replies := s.replies ++ [.data []] } := by
  have hi : s.trains[0]? = some tr := by rw [ht]; rfl
  have hcomplete : ({ tr with tail := some tr.applied } : Train).complete = true := by
    simp [Train.complete, hitems]
  rw [State.trainElement_tail hi hn, ht]
  exact congrArg Host.Outcome.next (State.ackForeign_last rfl hn hcomplete)

/-- What an element does where it is applied changes no train. -/
theorem State.applyItem_trains (s : State) (o : Option Nat) (x : TrainItem) : (s.applyItem o x).1.trains = s.trains := by
  have c : HomeKept fun t => t.trains = s.trains :=
    { homeSet := fun l bs h => by cases l <;> exact h
      modHart := fun n f _ h => by unfold State.modHart; split <;> exact h
      parts := fun _ _ _ h => h }
  have happly (t : State) (src : WakeSource) (l : Loc) (h : t.trains = s.trains) : (t.applyAt src x l).1.trains = s.trains :=
    c.homeStore _ _ _ h
  unfold State.applyItem
  extract_lets src old r
  have hr : r.1.trains = s.trains := by
    unfold r
    split
    · exact foldl_kept (P := fun t => t.trains = s.trains) (fun t l ht => happly t src l ht) _ rfl
    · exact happly s src _ rfl
  split
  · unfold State.giveOld State.modHart
    dsimp only
    split <;> exact hr
  · exact hr

/-- The one element of a train of this module's hart. -/
theorem State.trainElement_single (ht : s.trains = [tr]) (hn : tr.hart = some h) (hitems : tr.items = [x]) (hx : x.loc = .glob pa) :
    let z : State := { s with trains := [{ tr with items := [], applied := tr.applied + 1 }] }
    let r := z.applyItem (some h) x
    exec (.trainElement 0 (.element pa data)) s
      = .next { r.1 with trains := [{ tr with items := [], applied := tr.applied + 1, fl := tr.fl ||| r.2 }] } := by
  intro z r
  have hi : s.trains[0]? = some tr := by rw [ht]; rfl
  have hlist : itemList s.trains = [((0, 0), some h, x)] := by
    rw [ht]
    simp [itemList, enum, hitems, hn]
  have hfind : (enum tr.items).find? (fun r => r.2.loc = .glob pa) = some (0, x) := by
    rw [hitems]
    exact List.find?_cons_of_pos (decide_eq_true hx)
  have hz : ({ s with trains := s.trains.modify 0 fun u => { u with items := u.items.erase x, applied := u.applied + 1 } } : State)
      = z := by
    rw [ht, List.modify_zero_cons, hitems, List.erase_cons_head]
  rw [State.trainElement_own hi hn]
  refine congrArg Host.Outcome.next ?_
  unfold State.itemArrives
  rw [hi]
  dsimp only
  rw [hfind]
  dsimp only
  rw [State.landItems, hlist]
  have hchosen : withEarlier (fun y => y.2.1 = tr.hart && lineOf y.2.2.loc = pa / 64
      && (decide (y.1.1 < 0) || (y.1.1 == 0 && decide (y.1.2 ≤ 0)))) [((0, 0), some h, x)] = [((0, 0), some h, x)] := by
    have hline : lineOf x.loc = pa / 64 := by rw [hx]; rfl
    simp [withEarlier, hn, hline]
  rw [hchosen, State.applyItems, List.foldl_cons, List.foldl_nil]
  dsimp only
  rw [hz]
  have hr : r.1.trains = z.trains := z.applyItem_trains _ _
  show ({ r.1 with trains := r.1.trains.modify 0 fun u => { u with fl := u.fl ||| r.2 } } : State) = _
  rw [hr]
  rfl

/-- The acknowledgement of the hart's only train, complete, gives its flags to who issued it (R104, R237, R393). -/
theorem State.trainAck_own (ht : s.trains = [tr]) (hn : tr.hart = some s.hart.id) (htail : tr.tail = some tr.applied)
    (hitems : tr.items = []) : exec (.trainAck tr.ep tr.die) s
      = .next (({ s with trains := [] } : State).flagsTo (some s.hart.id) tr.ctx tr.fl) := by
  have hfind : s.trains.find? (fun t => t.hart = some s.hart.id && t.ep = tr.ep && t.die = tr.die && t.complete) = some tr := by
    rw [ht]
    exact List.find?_cons_of_pos (by simp [hn, Train.complete, htail, hitems])
  refine congrArg Host.Outcome.next ?_
  rw [hfind]
  dsimp only
  rw [ht, List.erase_cons_head, hn]

theorem State.flagsTo_here {ctx : Word} {fl : Nat} (h : bitOf ctx 0 = false ∨ s.hart.ctxarea = ctx) :
    s.flagsTo (some s.hart.id) ctx fl = { s with hart.flags := s.hart.flags ||| .ofNat 7 fl } := by
  unfold State.flagsTo
  dsimp only
  split
  · next h0 =>
    rw [h0, show BitVec.ofNat 7 0 = 0#7 from rfl, BitVec.or_zero]
  · rw [if_pos (by simpa [State.hartAt] using h), State.modHart_self _ _ _ rfl]
    rfl

theorem State.flagsTo_away {ctx : Word} {fl : Nat} (h : ¬ (bitOf ctx 0 = false ∨ s.hart.ctxarea = ctx)) (hfl : fl ≠ 0) :
    s.flagsTo (some s.hart.id) ctx fl = s.setHome64 (.glob (bits ctx 56 13 * 8192))
      (s.home64 (.glob (bits ctx 56 13 * 8192)) ||| fl) := by
  unfold State.flagsTo
  dsimp only
  rw [if_neg hfl, if_neg (by simpa [State.hartAt] using h)]

end

end Sys2Proof.Machine
end

section
/-! SUPPORT. Responses to a hart's requests, and to those of a parked context (R68, R327, R335, R345, R401, R402). -/

namespace Sys2Proof.Machine

/-! ### One position of an entry (R401) -/

section
variable {s : State} {r : Reassembly} {j : Nat} {mask : BitVec 64}

/-- A request that shares no byte with an earlier one is answered alone. -/
theorem requestsUpTo_alone {l : List Reassembly} (h : ∀ x ∈ l, x.place ≠ r.place → x.shares r = false) : requestsUpTo l r = [r] := by
  unfold requestsUpTo
  refine List.foldrRecOn (motive := fun acc => acc = [r]) _ _ rfl fun acc hacc q hq => ?_
  have hshare : q.shares r = false := h q ((List.takeWhile_sublist _).subset hq) (by simpa using List.mem_takeWhile_imp hq)
  rw [hacc, List.any_cons, hshare]
  rfl

/-- A hart without trains has none to wait for before it reads. -/
theorem State.agreeTrains_none (h : s.ownTrains = []) (l : Loc) (n : Nat) : s.agreeTrains s.hart.id l n = s := by
  have hnone : (s.trains.any fun t => t.hart = some s.hart.id && t.items.any fun i => i.reaches l n) = false :=
    List.any_eq_false.mpr fun t ht => by
      have hown : ¬ decide (t.hart = some s.hart.id) = true := List.filter_eq_nil_iff.mp h t ht
      simp only [hown, Bool.false_and, Bool.false_eq_true, not_false_eq_true]
  rw [State.agreeTrains, hnone, if_neg Bool.false_ne_true]

theorem State.answer_alone (ht : s.ownTrains = []) (h : ∀ x ∈ s.hart.reassembly, x.place ≠ r.place → x.shares r = false) :
    s.answer r mask = s.respond r mask := by
  unfold State.answer
  rw [requestsUpTo_alone h, List.foldl_cons, List.foldl_nil]
  dsimp only
  rw [if_pos rfl]
  refine congrArg (fun u : State => u.respond r mask) ?_
  refine List.foldlRecOn (motive := fun u : State => u = s) _ _ rfl fun u hu q _ => ?_
  rw [hu, State.agreeTrains_none ht]

/-- The mask of one position. -/
theorem getLsbD_single (i j : Nat) (hi : i < 64) : (1#64 <<< j).getLsbD i = decide (i = j) := by
  rw [Bool.eq_iff_iff]
  simp only [BitVec.getLsbD_shiftLeft, BitVec.getLsbD_one, Bool.and_eq_true, Bool.not_eq_true', decide_eq_true_iff,
    decide_eq_false_iff_not]
  omega

/-- The positions of a mask of one bit. -/
theorem Reassembly.positions_single (r : Reassembly) (hj : j < 64) : ({ r with mask := 1#64 <<< j } : Reassembly).positions
    = [r.first + j] := by
  have hbit : (List.range 64).filter (fun i => (1#64 <<< j).getLsbD i) = (List.range 64).filter (· == j) := by
    refine List.filter_congr fun i hi => ?_
    rw [getLsbD_single i j (List.mem_range.mp hi), beq_eq_decide]
  unfold Reassembly.positions
  rw [hbit, List.filter_beq, List.count_eq_one_of_mem List.nodup_range (List.mem_range.mpr hj)]
  exact congrArg (fun n => [n]) (Nat.add_comm j r.first)

theorem widthOfCode_pos (c : Nat) : 0 < widthOfCode c := by
  unfold widthOfCode
  split
  · exact Nat.succ_pos _
  · exact Nat.mul_pos (Nat.succ_pos _) (Nat.two_pow_pos _)

/-- A position of a vector register within its width. -/
theorem State.putPosition_vector (v n : Nat) (hw : r.width ≠ 6) (hn : (n + 1) * widthOfCode r.width ≤ s.maxBits) :
    s.putPosition r n v = s.dirtyV.setElem r.reg (widthOfCode r.width) n v := by
  have hcap : n + 1 ≤ s.maxBits / widthOfCode r.width := (Nat.le_div_iff_mul_le (widthOfCode_pos _)).mpr hn
  rw [State.putPosition, if_neg hw]
  dsimp only
  rw [Nat.mod_eq_of_lt (by omega)]

theorem State.landEntry_flying (s : State) (r : Reassembly) : ∃ f, s.landEntry r = { s with hart.flying := f } := by
  unfold State.landEntry
  split
  · exact ⟨s.hart.flying, rfl⟩
  · refine List.foldlRecOn (motive := fun t : State => ∃ f, t = { s with hart.flying := f }) _ _ ⟨s.hart.flying, rfl⟩
      fun t ht g _ => ?_
    obtain ⟨f, rfl⟩ := ht
    dsimp only
    split
    · exact ⟨f, rfl⟩
    · unfold State.markLanded
      split
      · exact ⟨_, rfl⟩
      · exact ⟨f, rfl⟩

/-- The entry after a response to some of its positions. -/
def Reassembly.after (r : Reassembly) (mask : BitVec 64) (l : List Reassembly) : List Reassembly :=
  if r.mask &&& ~~~mask = 0 then l.filter fun q => q.place ≠ r.place
  else l.map fun q => if q.place = r.place then { r with mask := r.mask &&& ~~~mask } else q

theorem State.respond_single {src : Source} (hj : j < 64) (hw : r.width ≠ 6) (hreg : r.reg < 32)
    (hfit : (r.first + j + 1) * widthOfCode r.width ≤ s.maxBits) (hsrc : (r.src.find? fun q => q.pos = r.first + j) = some src) :
    ∃ f, s.respond r (1#64 <<< j) = { s with
      hart.v := (s.setElem r.reg (widthOfCode r.width) (r.first + j) (s.sourceValue (widthOfCode r.width) src)).hart.v
      hart.flying := f
      hart.status.vs := .dirty
      hart.reassembly := r.after (1#64 <<< j) s.hart.reassembly } := by
  unfold State.respond
  dsimp only
  rw [r.positions_single hj, List.foldl_cons, List.foldl_nil, hsrc]
  dsimp only
  rw [State.putPosition_vector _ _ hw hfit]
  obtain ⟨f, hf⟩ := State.landEntry_flying { s.dirtyV.setElem r.reg (widthOfCode r.width) (r.first + j)
    (s.sourceValue (widthOfCode r.width) src) with hart.reassembly := r.after (1#64 <<< j) s.hart.reassembly }
    { r with mask := 1#64 <<< j }
  refine ⟨f, Eq.trans ?_ (hf.trans ?_)⟩
  · simp only [State.setElem, State.setReg, hreg, dif_pos, State.dirtyV, Reassembly.after]
  · simp only [State.setElem, State.setReg, hreg, dif_pos, State.dirtyV]
    rfl

theorem State.elem_setElem_same (w e v n : Nat) (hn : n < 32) : (s.setElem n w e v).elem n w e = v % 2 ^ w := by
  rw [State.elem, State.setElem, State.reg_setReg_same _ _ _ hn, elemOf_setElemOf_same]

theorem State.elem_setElem_other (w e k v n : Nat) (hn : n < 32) (h : e ≠ k) : (s.setElem n w k v).elem n w e = s.elem n w e := by
  rw [State.elem, State.setElem, State.reg_setReg_same _ _ _ hn, elemOf_setElemOf_other _ _ _ _ _ h, State.elem]

/-- What is left of a mask of which one bit has come. -/
theorem mask_without_bit {m : BitVec 64} (hj : m.getLsbD j = true) : m &&& ~~~(1#64 <<< j) = 0 ↔ m = 1#64 <<< j := by
  constructor
  · intro h
    refine BitVec.eq_of_getLsbD_eq fun i hi => ?_
    have hbit : (m &&& ~~~(1#64 <<< j)).getLsbD i = false := by
      rw [h]
      exact BitVec.getLsbD_zero
    rw [BitVec.getLsbD_and, BitVec.getLsbD_not, getLsbD_single i j hi] at hbit
    rw [getLsbD_single i j hi]
    by_cases hij : i = j
    · rw [hij, hj, decide_eq_true rfl]
    · simpa [hij, hi] using hbit
  · intro h
    rw [h]
    refine BitVec.eq_of_getLsbD_eq fun i hi => ?_
    simp [hi]

/-- A response that names a position that its entry awaits. -/
theorem State.responseArrival_single {src : Source}
    (hr : (s.hart.reassembly.find? fun x => x.seq % 32768 = r.seq % 32768) = some r) (ht : s.ownTrains = [])
    (hshare : ∀ x ∈ s.hart.reassembly, x.place ≠ r.place → x.shares r = false) (hj : j < 64) (hmask : r.mask.getLsbD j = true)
    (hw : r.width ≠ 6) (hreg : r.reg < 32) (hfit : (r.first + j + 1) * widthOfCode r.width ≤ s.maxBits)
    (hsrc : (r.src.find? fun q => q.pos = r.first + j) = some src) :
    ∃ f, exec (.responseArrival r.seq (1#64 <<< j) 0) s = .next { s with
      hart.v := (s.setElem r.reg (widthOfCode r.width) (r.first + j) (s.sourceValue (widthOfCode r.width) src)).hart.v
      hart.flying := f
      hart.status.vs := .dirty
      hart.reassembly := r.after (1#64 <<< j) s.hart.reassembly } := by
  have hasked : 1#64 <<< j &&& ~~~r.mask = 0 := by
    refine BitVec.eq_of_getLsbD_eq fun i hi => ?_
    rw [BitVec.getLsbD_and, BitVec.getLsbD_not, getLsbD_single i j hi]
    by_cases hij : i = j
    · simp [hij, hmask]
    · simp [hij]
  obtain ⟨f, hf⟩ := State.respond_single (s := s) hj hw hreg hfit hsrc
  refine ⟨f, congrArg Host.Outcome.next ?_⟩
  rw [hr]
  dsimp only
  rw [hasked, ← hf]
  exact State.answer_alone ht hshare

/-! ### A response that carries what was not asked for (R402) -/

/-- Such a response fails its load. -/
theorem State.responseArrival_excess {excess : Nat}
    (hr : (s.hart.reassembly.find? fun x => x.seq % 32768 = r.seq % 32768) = some r) (h : mask &&& ~~~r.mask ≠ 0 ∨ excess ≠ 0) :
    exec (.responseArrival r.seq mask excess) s = .next (s.failLoad s.hart.id r ⟨70, epDie r.ep r.die, 0⟩) := by
  refine congrArg Host.Outcome.next ?_
  rw [hr]
  dsimp only
  rw [if_neg]
  simpa only [Bool.and_eq_true, decide_eq_true_iff, not_and_or] using h

theorem State.switchTo_self (s : State) (n : Nat) (h : n = s.hart.id) : s.switchTo n = s := if_pos h

/-- Of a load that a split has left outstanding the request alone goes. -/
theorem State.failLoad_left (cause : Trap) (h : r.left = true) :
    s.failLoad s.hart.id r cause = { s with hart.reassembly := s.hart.reassembly.filter fun x => x.place ≠ r.place } := by
  unfold State.failLoad
  dsimp only
  rw [s.switchTo_self _ rfl, if_pos h]
  refine (State.switchTo_self _ _ rfl).trans ?_
  simp only [decide_not]

/-- A load whose only request fails at its first position stops, or trims, there. -/
theorem State.failLoad_only (cause : Trap) (h : r.left = false) (hr : s.hart.reassembly = [r]) (ht : s.trains = [])
    (hsrc : ∀ x ∈ r.src, r.first ≤ x.pos) :
    let y : State := { s with hart.reassembly := [] }
    let stopped := y.failConvoy r.head r.lcnt r.start r.first r.committed cause
    s.failLoad s.hart.id r cause
      = (r.tile.elim stopped fun d => if r.start < r.first then y.trimLoad d r.first else stopped).switchTo s.hart.id := by
  intro y stopped
  have hown : s.ownTrains = [] := by rw [State.ownTrains, ht]; rfl
  have hlow : ((r.src.map (·.pos)).foldl min r.first) = r.first := by
    refine List.foldlRecOn (motive := fun n => n = r.first) _ _ rfl fun n hn x hx => ?_
    obtain ⟨q, hq, rfl⟩ := List.mem_map.mp hx
    rw [hn]
    exact Nat.min_eq_left (hsrc q hq)
  unfold State.failLoad
  extract_lets me u drop mine t low p v
  have hu : u = s := s.switchTo_self _ rfl
  rw [h, if_neg Bool.false_ne_true]
  have ht' : t = s := by
    unfold t
    rw [hu, s.ackTrains_none hown, hr, List.filter_cons_of_neg (by simp)]
    rfl
  have hmine : [r].filter mine = [r] := List.filter_cons_of_pos (by simp [mine, h])
  have hp : p = r.first := by
    unfold p low
    rw [ht', hr, hmine, State.unacked, hown]
    simpa using hlow
  have hv : v = { s with hart.reassembly := [] } := by
    unfold v drop
    rw [ht', hr]
    simp [mine, h]
  rw [hp, hv]
  cases r.tile <;> rfl

/-- A fault-only-first load trims: its hart stays the one that steps. -/
theorem State.trimLoad_id (s : State) (d p : Nat) : (s.trimLoad d p).hart.id = s.hart.id := by
  have hset (t : State) (n v : Nat) : (t.setReg n v).hart.id = t.hart.id := by
    unfold State.setReg
    split <;> rfl
  unfold State.trimLoad
  extract_lets landed
  have hlanded : landed.hart.id = s.hart.id :=
    List.foldlRecOn (motive := fun t : State => t.hart.id = s.hart.id) _ _ rfl fun t ht i _ => by split <;> exact ht
  show (landed.zeroTail d s.hart.vrow (etWidth s.hart.et) p).hart.id = s.hart.id
  unfold State.zeroTail State.dirtyVIf
  have hzeroed : ((List.range s.hart.vrow).foldl (fun t r => t.zeroFrom (d + r) (p * etWidth s.hart.et)) landed).hart.id
      = s.hart.id :=
    List.foldlRecOn (motive := fun t : State => t.hart.id = s.hart.id) _ _ hlanded fun t ht i _ => (hset t _ _).trans ht
  split
  · split <;> exact hzeroed
  · exact hlanded

/-- A convoy that fails at a position traps there (R345). -/
theorem State.failConvoy_traps (s : State) (head lcnt : Word) (start p : Nat) (committed : Bool) (cause : Trap)
    (hrun : s.hart.run = .running) : ∃ words, ({ s with
      hart.pc := head
      hart.vstart := p
      hart.lcnt := lcnt
      hart.words := words } : State).trapsAt (s.failConvoy head lcnt start p committed cause) cause.code cause.tval cause.tval2 head
        (decide (start < p) || committed) := by
  unfold State.failConvoy
  dsimp only
  rw [if_pos hrun]
  exact ⟨_, State.enterTrap_trapsAt _ cause head _⟩

theorem State.trapsAt_id {s t : State} {code : Nat} {tval tval2 epc : Word} {cvr : Bool} (h : s.trapsAt t code tval tval2 epc cvr) :
    t.hart.id = s.hart.id := by
  obtain ⟨ht, -⟩ := h
  have hid := congrArg (fun u : State => u.hart.id) ht
  exact hid

/-- The load trims, or its convoy stops with the cause. -/
theorem State.failLoad_trims {d : Nat} (cause : Trap) (h : r.left = false) (hr : s.hart.reassembly = [r]) (ht : s.trains = [])
    (hsrc : ∀ x ∈ r.src, r.first ≤ x.pos) (htile : r.tile = some d) (hstart : r.start < r.first) :
    s.failLoad s.hart.id r cause = ({ s with hart.reassembly := [] } : State).trimLoad d r.first := by
  refine (State.failLoad_only cause h hr ht hsrc).trans ?_
  have hid : (({ s with hart.reassembly := [] } : State).trimLoad d r.first).hart.id = s.hart.id := State.trimLoad_id _ d r.first
  generalize ({ s with hart.reassembly := [] } : State) = y at hid ⊢
  rw [htile, Option.elim_some, if_pos hstart]
  exact State.switchTo_self _ _ hid.symm

theorem State.failLoad_stops (cause : Trap) (h : r.left = false) (hr : s.hart.reassembly = [r]) (ht : s.trains = [])
    (hsrc : ∀ x ∈ r.src, r.first ≤ x.pos) (hstop : r.tile = none ∨ r.first ≤ r.start) (hrun : s.hart.run = .running) :
    ∃ words, ({ s with
      hart.reassembly := []
      hart.pc := r.head
      hart.vstart := r.first
      hart.lcnt := r.lcnt
      hart.words := words } : State).trapsAt (s.failLoad s.hart.id r cause) cause.code cause.tval cause.tval2 r.head
        (decide (r.start < r.first) || r.committed) := by
  obtain ⟨words, hw⟩ := State.failConvoy_traps { s with hart.reassembly := [] } r.head r.lcnt r.start r.first r.committed cause hrun
  refine ⟨words, ?_⟩
  have hfail : s.failLoad s.hart.id r cause
      = ({ s with hart.reassembly := [] } : State).failConvoy r.head r.lcnt r.start r.first r.committed cause := by
    refine (State.failLoad_only cause h hr ht hsrc).trans ?_
    refine Eq.trans (congrArg (State.switchTo · s.hart.id) ?_) (State.switchTo_self _ _ (State.trapsAt_id hw).symm)
    rcases hstop with hnone | hle
    · rw [hnone, Option.elim_none]
    · cases r.tile with
      | none => rfl
      | some d => exact if_neg (Nat.not_lt.mpr hle)
  rw [hfail]
  exact hw

end

/-! ### A response to a parked request (R335) -/

section
variable {s : State} {q : Redirect} {k n : Nat}

/-- What the response writes in the context area. -/
def State.redirected (s : State) (q : Redirect) : State :=
  let t := s.homeSet (.glob (slotAt q.area q.slot)) (s.responseData q.request)
  let t := t.setHome64 (.glob (descAt q.area q.slot)) (splice (t.areaDw (descAt q.area q.slot)) 62 1 1)
  t.setHome64 (.glob (q.area + 8)) (splice (t.areaDw (q.area + 8)) (16 + q.slot) 1 1)

theorem State.redirectedResponse_done (hq : (s.hartAt n).redirects[k]? = some q) : exec (.redirectedResponse n k) s
    = .next ((s.redirected q).modHart n fun h => { h with redirects := h.redirects.eraseIdx k }) := by
  refine congrArg Host.Outcome.next ?_
  rw [hq]
  rfl

/-- Bytes set in memory change no more than they did before. -/
theorem State.homeSet_memOnly {t : State} (h : ∃ m bad, t = { s with mem := m, badMem := bad }) (a : Nat) (bs : List Byte) :
    ∃ m bad, t.homeSet (.glob a) bs = { s with mem := m, badMem := bad } := by
  obtain ⟨m, bad, rfl⟩ := h
  exact ⟨m.writeN a bs, goodRange bad a bs.length, rfl⟩

theorem State.redirected_memOnly (s : State) (q : Redirect) : ∃ m bad, s.redirected q = { s with mem := m, badMem := bad } := by
  unfold State.redirected
  extract_lets t u
  have ht := State.homeSet_memOnly (s := s) (t := s) ⟨s.mem, s.badMem, rfl⟩ (slotAt q.area q.slot) (s.responseData q.request)
  have hu := State.homeSet_memOnly ht (descAt q.area q.slot) (leBytes (splice (t.areaDw (descAt q.area q.slot)) 62 1 1) 8)
  exact State.homeSet_memOnly hu (q.area + 8) _

/-- A hart changed after bytes of memory have been set. -/
theorem State.modHart_mem (s : State) (m : Memory) (bad : List Nat) (n : Nat) (f : Hart → Hart) :
    let t := ({ s with mem := m, badMem := bad } : State).modHart n f
    t = { s.modHart n f with mem := t.mem, badMem := t.badMem } := by
  by_cases h : n = s.hart.id
  · simp only [State.modHart, h, if_true]
  · simp only [State.modHart, h, if_false]

theorem State.homeByte_modHart (s : State) (n : Nat) (f : Hart → Hart) (l : Loc) : (s.modHart n f).homeByte l = s.homeByte l := by
  unfold State.modHart
  split <;> rfl

theorem bit_eq_testBit (x i : Nat) : bit x i = x.testBit i := by
  rw [Nat.testBit_eq_decide_div_mod_eq, bit, beq_eq_decide]

/-- A doubleword in which bit `i` is set. -/
theorem bit_splice_one (x : Nat) {i : Nat} (hi : i < 64) : bit (splice x i 1 1 % 2 ^ 64) i = true := by
  rw [bit_eq_testBit, Nat.testBit_mod_two_pow, splice_testBit, if_pos ⟨Nat.le_refl i, Nat.lt_succ_self i⟩, Nat.sub_self,
    decide_eq_true hi]
  rfl

/-- Bytes elsewhere are read as they were. -/
theorem State.homeRead_setHome64_other (s : State) (l : Loc) (o j v n : Nat) (h : j + n ≤ o ∨ o + 8 ≤ j) :
    (s.setHome64 (l.plus o) v).homeRead (l.plus j) n = s.homeRead (l.plus j) n := by
  refine State.homeRead_bytes fun i hi => ?_
  rw [Loc.plus_plus]
  exact s.homeByte_homeSet_other l o (j + i) _ (by rw [leBytes_length]; omega)

/-- What the response leaves at its data slot, in the descriptor and in the bitmap of the arrivals (R327). -/
theorem State.redirected_reads (hs : s.canonical) (hslot : q.slot < 16) (hlen : (s.responseData q.request).length ≤ 256)
    (hplain : ∀ i, i < 8192 → s.plainPlace (.glob (q.area + i))) :
    let t := s.redirected q
    t.homeRead (.glob (q.area + 0x800 + 256 * q.slot)) (s.responseData q.request).length = s.responseData q.request
      ∧ bit (t.home64 (.glob (q.area + 0x240 + 32 * q.slot))) 62 = true
      ∧ bit (t.home64 (.glob (q.area + 8))) (16 + q.slot) = true := by
  let base := Loc.glob q.area
  have hdata : Loc.glob (q.area + 0x800 + 256 * q.slot) = base.plus (0x800 + 256 * q.slot) :=
    congrArg Loc.glob (Nat.add_assoc ..)
  have hdesc : Loc.glob (q.area + 0x240 + 32 * q.slot) = base.plus (0x240 + 32 * q.slot) := congrArg Loc.glob (Nat.add_assoc ..)
  have hfree (o n : Nat) (h : o + n ≤ 8192) : ∀ i, i < n → s.plainPlace ((base.plus o).plus i) := fun i hi =>
    Loc.plus_plus base o i ▸ hplain (o + i) (by omega)
  unfold State.redirected
  extract_lets t1 t2 t3
  have hc1 : t1.canonical := hs.homeSet _ _
  have hp1 : t1.plainPlace = s.plainPlace := rfl
  have hp2 : t2.plainPlace = s.plainPlace := t1.plainPlace_setHome64 _ _
  have hread (n : Nat) (hn : n ≤ 256) : t3.homeRead (base.plus (0x800 + 256 * q.slot)) n
      = t1.homeRead (base.plus (0x800 + 256 * q.slot)) n := by
    refine (t2.homeRead_setHome64_other base 8 _ _ n (by omega)).trans ?_
    have hd : Loc.glob (descAt q.area q.slot) = base.plus (0x240 + 32 * q.slot) := hdesc
    unfold t2
    rw [hd]
    exact t1.homeRead_setHome64_other base _ _ _ n (by omega)
  rw [hdata, hdesc]
  refine ⟨?_, ?_, ?_⟩
  · rw [hread _ hlen]
    unfold t1
    rw [show Loc.glob (slotAt q.area q.slot) = base.plus (0x800 + 256 * q.slot) from hdata]
    exact s.homeRead_homeSet_same _ _ hs (hfree _ _ (by omega))
  · have hset : t2.home64 (base.plus (0x240 + 32 * q.slot)) = splice (t1.areaDw (descAt q.area q.slot)) 62 1 1 % 2 ^ 64 := by
      unfold t2
      rw [show Loc.glob (descAt q.area q.slot) = base.plus (0x240 + 32 * q.slot) from hdesc]
      exact t1.home64_setHome64_same _ _ hc1 (hp1 ▸ hfree _ 8 (by omega))
    rw [show t3.home64 (base.plus (0x240 + 32 * q.slot)) = t2.home64 (base.plus (0x240 + 32 * q.slot)) from
      t2.home64_setHome64_other base 8 _ _ (by omega), hset]
    exact bit_splice_one _ (by decide)
  · have hset := t2.home64_setHome64_same (base.plus 8) (splice (t2.areaDw (q.area + 8)) (16 + q.slot) 1 1) (hc1.setHome64 _ _)
      (hp2 ▸ hfree 8 8 (by decide))
    have hbit := bit_splice_one (t2.areaDw (q.area + 8)) (i := 16 + q.slot) (by omega)
    rw [← hset] at hbit
    exact hbit

/-- A response to a parked request, the hart that awaited it included. -/
theorem State.redirectedResponse_reads (hq : (s.hartAt n).redirects[k]? = some q) (hslot : q.slot < 16)
    (hlen : (s.responseData q.request).length ≤ 256) (hs : s.canonical)
    (hplain : ∀ i, i < 8192 → s.plainPlace (.glob (q.area + i))) :
    ∃ t, exec (.redirectedResponse n k) s = .next t
      ∧ t = { s.modHart n fun h => { h with redirects := h.redirects.eraseIdx k } with mem := t.mem, badMem := t.badMem }
      ∧ t.homeRead (.glob (q.area + 0x800 + 256 * q.slot)) (s.responseData q.request).length = s.responseData q.request
      ∧ bit (t.home64 (.glob (q.area + 0x240 + 32 * q.slot))) 62 = true
      ∧ bit (t.home64 (.glob (q.area + 8))) (16 + q.slot) = true := by
  obtain ⟨hdata, hdesc, harr⟩ := State.redirected_reads hs hslot hlen hplain
  have hread (f : Hart → Hart) (l : Loc) (m : Nat) : ((s.redirected q).modHart n f).homeRead l m = (s.redirected q).homeRead l m :=
    State.homeRead_bytes fun i _ => (s.redirected q).homeByte_modHart n f (l.plus i)
  refine ⟨_, State.redirectedResponse_done hq, ?_, (hread _ _ _).trans hdata, ?_, ?_⟩
  · obtain ⟨m, bad, he⟩ := s.redirected_memOnly q
    rw [he]
    exact s.modHart_mem m bad n _
  · rw [State.home64, hread]
    exact hdesc
  · rw [State.home64, hread]
    exact harr

end

/-- Settles O56, event by event. -/
theorem storeAndResponseEvents : Obligations.StoreAndResponseEvents := by
  refine ⟨?_, ?_, ?_⟩
  · intro s i b p src ep die dl plain here own without toward applied flush
    refine ⟨fun hb hfree => ⟨fun hown hplain => ?_, fun haway hpair hroom => ⟨fun hover => ?_, fun hover hsilent => ?_⟩⟩,
      fun hp hfree hplain => State.storeApply_free hp hfree hplain, fun hplain => ⟨?_, State.flushAnswer_done hplain die⟩,
      fun hstall hlatch hover hnow hdl => State.flushTimeout_latches hstall hlatch hover hnow hdl⟩
    · rw [State.storeBufferDrain_free hb hfree (State.sendStore_ownDie hown hplain)]
      rfl
    · rw [State.storeBufferDrain_free hb hfree (State.sendStore_away haway hpair hroom (State.flushOverflow_none hover))]
      rw [if_pos hover]
      rfl
    · rw [State.storeBufferDrain_free hb hfree (State.sendStore_away haway hpair hroom (State.flushOverflow_silent hsilent))]
      rw [if_neg hover]
      rfl
    · exact congrArg Host.Outcome.next (State.applyTo_plain hplain src die)
  · intro s i tr x pa n h c data z r none_ slot
    refine ⟨fun hi hn htail hall => ?_, fun ht hn hitems => State.trainTail_last ht hn hitems,
      fun ht hn hitems hx => State.trainElement_single ht hn hitems hx, fun ht hn htail hitems => ?_⟩
    · obtain ⟨htaken, hrefused⟩ := State.trainElement_foreign (pa := pa) (data := data) hi hn htail hall
      exact ⟨htaken, hrefused c, fun h => State.trainTail_early hi hn hall h⟩
    · rw [State.trainAck_own ht hn htail hitems]
      exact ⟨fun hhere => congrArg Host.Outcome.next (State.flagsTo_here (s := none_) hhere),
        fun hhere hfl => congrArg Host.Outcome.next (State.flagsTo_away (s := none_) hhere hfl)⟩
  · intro s r j n mask excess k d q src w rest data
    refine ⟨fun hr => ⟨fun ht hshare hj hmask hw hreg hfit hsrc => ?_, fun h => ?_⟩,
      fun hq hslot hlen hs hplain => State.redirectedResponse_reads hq hslot hlen hs hplain⟩
    · obtain ⟨f, hf⟩ := State.responseArrival_single hr ht hshare hj hmask hw hreg hfit hsrc
      refine ⟨_, hf, rfl, State.elem_setElem_same _ _ _ _ hreg, fun e he _ => State.elem_setElem_other _ _ _ _ _ hreg he,
        fun m hm => State.reg_setReg_other _ _ _ _ hm, fun hone => if_pos ((mask_without_bit hmask).mpr hone),
        fun hone => if_neg (hone ∘ (mask_without_bit hmask).mp)⟩
    · rw [State.responseArrival_excess hr h]
      refine ⟨fun hleft => congrArg Host.Outcome.next (State.failLoad_left _ hleft), fun hleft hreq htr hpos => ⟨?_, ?_⟩⟩
      · exact fun htile hstart => congrArg Host.Outcome.next (State.failLoad_trims _ hleft hreq htr hpos htile hstart)
      · intro hstop hrun
        obtain ⟨words, hw⟩ := State.failLoad_stops ⟨70, epDie r.ep r.die, 0⟩ hleft hreq htr hpos hstop hrun
        exact ⟨_, words, rfl, hw⟩

end Sys2Proof.Machine
end

section
/-! SUPPORT. Requests of other endpoints, and the commands of the memory engine (R82, R96, R117, R366 to R377). -/

namespace Sys2Proof.Machine

/-! ### Requests of other endpoints (R82, R96, R377, R404) -/

section
variable {s : State} {pa n : Nat} {x : Export} {r : AtomicRequest}

/-- A page of this endpoint that is exported. -/
structure State.Exported (s : State) (pa n : Nat) (x : Export) : Prop where
  home : epOf pa = s.endpt
  backed : s.backed (offOf pa) = true
  good : s.isBad (.glob pa) n = false
  found : (s.exports.find? fun e => e.page = pa / 65536) = some x

theorem State.Exported.exportStop (h : s.Exported pa n x) (store : Bool) : s.exportStop pa n store
    = if x.withdrawn then some 68 else if store && !x.writable then some 69 else none := by
  obtain ⟨hep, hbacked, -, hfound⟩ := h
  simp only [State.exportStop, hep, hbacked, hfound, ne_eq, not_true_eq_false, decide_false, Bool.not_true, Bool.or_self,
    Bool.false_eq_true, if_false]

theorem State.Exported.foreignStop (h : s.Exported pa n x) (store : Bool) : s.foreignStop pa n store
    = if x.withdrawn then some 68 else if store && !x.writable then some 69 else none := by
  rw [State.foreignStop, h.exportStop, h.good]
  split
  · rfl
  · split <;> rfl

theorem State.foreignStop_outside (h : epOf pa ≠ s.endpt ∨ s.backed (offOf pa) = false) (store : Bool) :
    s.foreignStop pa n store = some 69 := by
  have hout : (decide (epOf pa ≠ s.endpt) || !s.backed (offOf pa)) = true := by simpa using h
  unfold State.foreignStop State.exportStop
  dsimp only
  rw [if_pos hout]
  rfl

theorem State.ingress_full (h : s.ingressFull = true) (f : State → State) : s.ingress f = s.reply (.nack 0) := if_pos h

theorem State.ingress_free (h : s.ingressFull = false) (f : State → State) : s.ingress f = f s := if_neg (by simp [h])

theorem execReadRequest_refused {c : Nat} (hi : s.ingressFull = false) (h : s.foreignStop pa n false = some c) :
    exec (.readRequest pa n) s = .next (s.reply (.cause c)) := by
  refine congrArg Host.Outcome.next ((State.ingress_free hi _).trans ?_)
  rw [h]

theorem execReadRequest_read (hi : s.ingressFull = false) (h : s.foreignStop pa n false = none) :
    exec (.readRequest pa n) s = .next (s.reply (.data (s.homeRead (.glob pa) n))) := by
  refine congrArg Host.Outcome.next ((State.ingress_free hi _).trans ?_)
  rw [h]

theorem execAtomicRequest_refused {c : Nat} (hi : s.ingressFull = false) (h : s.foreignStop r.pa r.bytes true = some c) :
    exec (.atomicRequest r) s = .next (s.reply (.cause c)) := by
  refine congrArg Host.Outcome.next ((State.ingress_free hi _).trans ?_)
  rw [h]

/-- An atomic at a plain place: it stores as its operation says, and answers with the old value. -/
theorem execAtomicRequest_done (hi : s.ingressFull = false) (h : s.foreignStop r.pa r.bytes true = none)
    (hplain : s.plainPlace (.glob r.pa)) :
    let old := leNat (s.homeRead (.glob r.pa) r.bytes)
    let w := 2 ^ (8 * r.bytes)
    exec (.atomicRequest r) s
      = .next ((s.stored (.glob r.pa) r.bytes (atomicNew r.op (8 * r.bytes) old (r.operand.toNat % w) (r.expected.toNat % w))).reply
        (.data (leBytes old r.bytes))) := by
  refine congrArg Host.Outcome.next ((State.ingress_free hi _).trans ?_)
  rw [h]
  dsimp only
  rw [s.atomicAt_plain _ _ _ _ _ _ hplain]

end

/-! ### Cask requests (R117, R126, R137) -/

section
variable {s : State} {q : CaskRequest} {d : Nat}

/-- A request for a cask that is whole and of a kind that the request is for is served. -/
theorem execCaskRequest_served (hstop : ∀ a, q.cask = .glob a → s.exportStop a 64 true = none) (hbad : s.caskBad q.cask = false)
    (hok : s.configOk q.cask (s.header q.cask) = true) (hkind : q.kinds.contains (s.header q.cask).kind = true)
    (hfarm : (s.header q.cask).kind ≠ 4) (hstrip : s.meetsBadStrip q = false) :
    exec (.caskRequest q) s = .next ((s.tidy q.cask).serveCask q) := by
  show execCaskRequest q s = _
  unfold execCaskRequest
  extract_lets l stop t h
  have ht : t = s := State.noteDamage_good hbad
  have hh : h = s.header q.cask := congrArg (State.header · q.cask) ht
  have hnone : stop = none := by
    unfold stop l
    split
    · next pa hpa => exact hstop pa hpa
    · rfl
  refine congrArg Host.Outcome.next ?_
  rw [hnone]
  dsimp only
  rw [hh, ht]
  simp only [l, hbad, hkind, hok, hstrip, hfarm, Bool.and_self, Bool.not_true, decide_false, Bool.false_and, Bool.false_eq_true,
    if_false]

/-- A free lock is handed to the request (R126). -/
theorem State.serveCask_acquire {z : State} (hkind : (z.header q.cask).kind = 2) (hverb : q.verb = .acquire d)
    (hfree : (z.lock q.cask).held = false) : z.serveCask q = (z.setLock q.cask { z.lock q.cask with
      holder := q.index
      held := true
      suspect := false }).reply (.status (statusWord 0 (z.lock q.cask).repaired.toNat (z.lock q.cask).gen 0) 0) := by
  have hcatch : z.catchUp q.cask = z := by
    have hbit : bit (z.home64 (q.cask.plus 32)) 48 = false := hfree
    unfold State.catchUp
    dsimp only
    rw [hkind, hbit]
    exact if_neg (by simp)
  unfold State.serveCask
  rw [hverb]
  dsimp only
  rw [hcatch, hfree]
  rfl

/-- The entry at the head of a ring is taken (R137). -/
theorem State.serveCask_poll {z : State} (hverb : q.verb = .poll) (hring : z.ringCount q.cask ≠ 0) : z.serveCask q
    = ((z.setHome64 (q.cask.plus 24) ((z.ringHead q.cask + 1) % 2 ^ 32)).reply (.status (statusWord 0 0 0 0) 0)).reply
      (.data (z.homeRead (z.ringSlot q.cask (z.ringHead q.cask)) 64)) := by
  unfold State.serveCask
  rw [hverb]
  dsimp only
  rw [if_neg hring]
  rfl

end

/-! ### A quiet module -/

section
variable {s : State}

/-- Without other harts and posted stores there is nothing of others to settle. -/
theorem State.settleOthers_none (ho : s.others = []) (hp : s.posted = []) : s.settleOthers = s := by
  unfold State.settleOthers
  extract_lets me settled live t
  have hsettled : settled = s := by
    unfold settled
    rw [ho]
    rfl
  have ht : t = s := by
    unfold t
    rw [hsettled, hp]
    rfl
  rw [ht, hsettled, hp]
  show ({ s with posted := [] } : State) = s
  rw [← hp]

/-- Nothing is under way, so that nothing is settled. -/
theorem State.quiet.settleAll (h : s.quiet) : s.settleAll = s := by
  obtain ⟨hothers, hposted, htrains, hbuffer, hlate, hreq⟩ := h
  have hown : s.ownTrains = [] := by rw [State.ownTrains, htrains]; rfl
  rw [State.settleAll, s.drain_empty hbuffer, s.settleOwn_upToDate ⟨hlate, hown, hreq⟩, State.settleOthers_none hothers hposted]

theorem State.quiet.busyIn (h : s.quiet) (lo n : Nat) : s.busyIn lo n = false := by
  obtain ⟨hothers, hposted, htrains, hbuffer, hlate, hreq⟩ := h
  rw [State.busyIn, State.harts, hothers, hposted, htrains, List.map_nil, List.any_cons, hlate, hbuffer, hreq]
  rfl

/-! ### Words and causes of the engine (R343, R367) -/

/-- A cause as it stands with a hart's pending ones. -/
def Hart.told (h : Hart) (t : Trap) : List Trap := if t ∈ h.pending then h.pending else h.pending ++ [t]

theorem State.complete'_mine {a code detail : Nat} (h : s.allotted a 8 = true) :
    s.complete' a code detail = s.setHome64 (.glob a) (statusWord code detail 0 0).toNat := if_pos h

/-- The hart that steps is told. -/
theorem State.notifyHart_self {ep : Endpoint} {n : Nat} (t : Trap) (hep : ep = s.endpt) (hn : n = s.hart.id) (hlt : n < 1536) :
    s.notifyHart ep n t = { s with hart.pending := s.hart.told t } := by
  have hself : (decide (ep = s.endpt) && decide (n < Config.harts)) = true := by simp [hep, hlt]
  rw [State.notifyHart, if_pos hself, hn, s.post_self]
  rfl

/-- A command that is no MIGRATE and fails gets its completion word alone. -/
theorem State.refuse_mine {c : EngineCommand} {detail : Nat} (hop : bits c.dw[0] 3 0 ≠ 1) (h : s.allotted c.completion 8 = true) :
    s.refuse c detail = s.setHome64 (.glob c.completion) (statusWord 5 detail 0 0).toNat := by
  unfold State.refuse
  dsimp only
  rw [decide_eq_false hop, Bool.false_and, if_neg Bool.false_ne_true, State.complete'_mine h]

end

end Sys2Proof.Machine
end

section
/-! SUPPORT. Commands to the memory engine (R366 to R375). -/

namespace Sys2Proof.Machine

/-! ### What a command may write (R367) -/

section
variable {s : State}

/-- What may be written goes by the endpoint and the partition. -/
theorem State.allotted_of {t : State} (he : t.endpt = s.endpt) (hp : t.part = s.part) : t.allotted = s.allotted := by
  funext a n
  rw [State.allotted, State.allotted, he, hp]

theorem State.allotted_homeSet (s : State) (l : Loc) (bs : List Byte) : (s.homeSet l bs).allotted = s.allotted := by
  cases l <;> exact State.allotted_of rfl rfl

theorem State.allotted_writeLease (s : State) (y : Lease) : (s.writeLease y).allotted = s.allotted := s.allotted_homeSet _ _

theorem State.allotted_moveRange (s : State) (src dst n : Nat) : (s.moveRange src dst n).allotted = s.allotted :=
  State.allotted_of rfl rfl

end

/-! ### Migration (R368) -/

section
variable {s : State} {c : EngineCommand} {asid leaf pte size : Nat} {table : Word} {m : Migration}

/-- What a walk gives for a leaf is what stands at its place. -/
theorem State.leafOf_value {va level base : Nat} (h : s.leafOf va level base = some (leaf, pte, size)) : pte = s.home64 (.glob leaf) := by
  induction level generalizing base with
  | zero =>
    unfold State.leafOf at h
    grind
  | succ n ih =>
    unfold State.leafOf at h
    grind

/-- MIG set in a leaf in which it is clear. -/
theorem marked_leaf (hlt : pte < 2 ^ 64) (hclear : bit pte 10 = false) : splice pte 10 1 1 % 2 ^ 64 = pte + 2 ^ 10 := by
  have heven : ¬ pte / 2 ^ 10 % 2 = 1 := by simpa [bit] using hclear
  unfold splice
  omega

/-- Racking goes by the leases of the endpoint. -/
theorem State.racked_of {t : State} (hl : t.leases = s.leases) (he : t.endpt = s.endpt) : t.racked = s.racked := by
  funext pte size
  rw [State.racked, State.racked, State.leaseOf, State.leaseOf, hl, he]

/-- The migration that a command begins. -/
def migrationOf (c : EngineCommand) (leaf pte size : Nat) : Migration where
  va := bits c.dw[1] 54 0 / size * size
  leaf := leaf
  value := word (splice pte 10 1 1)
  dest := bits c.dw[2] 56 16 * 65536
  tier := bits c.dw[2] 1 0
  size := size
  notify := c.notify
  completion := c.completion

theorem State.homeSet_quiet (h : s.quiet) (l : Loc) (bs : List Byte) : (s.homeSet l bs).quiet := by
  cases l <;> exact h

theorem State.markLeaf_quiet (s : State) (leaf pte va size asid : Nat) (h : s.quiet) : (s.markLeaf leaf pte va size asid).quiet :=
  State.homeSet_quiet h (.glob leaf) (leBytes (splice pte 10 1 1) 8)

theorem State.homeSet_migrations (s : State) (l : Loc) (bs : List Byte) : (s.homeSet l bs).migrations = s.migrations := by
  cases l <;> rfl

theorem State.markLeaf_migrations (s : State) (leaf pte va size asid : Nat) :
    (s.markLeaf leaf pte va size asid).migrations = s.migrations := s.homeSet_migrations _ _

theorem State.migrate_begins (hop : bits c.dw[0] 3 0 = 1) (htier : bits c.dw[2] 1 0 ≤ 1) (hmine : s.allotted c.completion 8 = true)
    (hhart : s.hartOk c.endpt c.notify = true) (hcount : bits c.dw[0] 28 16 < s.part.asidCount)
    (htable : s.tableOf (bits c.dw[0] 28 16) = some table)
    (hleaf : s.leafOf (bits c.dw[1] 54 0) 2 (bits table 56 16 * 65536) = some (leaf, pte, size))
    (hmig : bit pte 10 = false) (hrack : bit pte 11 = false) (hdest : bits c.dw[2] 56 16 * 65536 % size = 0)
    (hregion : s.regionOk (epOf (bits c.dw[2] 56 16 * 65536)) (offOf (bits c.dw[2] 56 16 * 65536)) size = true)
    (hracked : s.racked pte size = false) (hq : s.quiet) : s.migrate c
      = { s.markLeaf leaf pte (bits c.dw[1] 54 0) size (bits c.dw[0] 28 16) with
        migrations := s.migrations ++ [migrationOf c leaf pte size] } := by
  have hformed : (decide (bits c.dw[0] 3 0 ≠ 1) || decide (1 < bits c.dw[2] 1 0)) = false := by simp [hop, htier]
  have hallowed : (!s.hartOk c.endpt c.notify || decide (s.part.asidCount ≤ bits c.dw[0] 28 16) || !s.allotted c.completion 8) = false := by
    simp [hhart, hmine, hcount]
  have hq' := s.markLeaf_quiet leaf pte (bits c.dw[1] 54 0) size (bits c.dw[0] 28 16) hq
  have hracked' : (s.markLeaf leaf pte (bits c.dw[1] 54 0) size (bits c.dw[0] 28 16)).racked pte size = false := by
    rw [State.racked_of rfl rfl]
    exact hracked
  have hfound : ((s.tableOf (bits c.dw[0] 28 16)).bind fun p => s.leafOf (bits c.dw[1] 54 0) 2 (bits p 56 16 * 65536))
      = some (leaf, pte, size) := Option.bind_eq_some_iff.mpr ⟨table, htable, hleaf⟩
  unfold State.migrate
  dsimp only
  rw [hformed, if_neg Bool.false_ne_true, hallowed, if_neg Bool.false_ne_true, hfound]
  dsimp only
  rw [hmig, hrack, hq'.settleAll, hracked', hregion, Bool.or_self, if_neg Bool.false_ne_true, if_neg (not_not_intro hdest),
    Bool.not_true, if_neg Bool.false_ne_true, if_neg Bool.false_ne_true, State.markLeaf_migrations]
  rfl

/-- The leaf is marked, and the translations of its page are gone. -/
theorem State.markLeaf_cached (va : Nat) (y : Cached) : y ∈ (s.markLeaf leaf pte va size asid).cached ↔ y ∈ s.cached
    ∧ ¬ ((y.asid = s.part.asidBase + asid ∨ bit y.leaf 5 = true) ∧ y.page < va / size * size + size
      ∧ va / size * size < y.page + y.size) := by
  show y ∈ s.cached.filter _ ↔ _
  simp only [List.mem_filter, rangesMeet, Bool.not_eq_true', ← Bool.not_eq_true, Bool.and_eq_true, Bool.or_eq_true,
    decide_eq_true_iff]

/-- A migration ends, and the hart that it names is told. -/
theorem State.endMigration_self {code detail : Nat} (hm : s.migrations = [m]) (hmine : s.allotted m.completion 8 = true)
    (hn : m.notify = s.hart.id) (hlt : s.hart.id < 1536) : s.endMigration m code detail
      = { s.setHome64 (.glob m.completion) (statusWord code detail 0 0).toNat with
        hart.pending := s.hart.told ⟨76, word m.va, 0⟩
        migrations := [] } := by
  have hnotify := State.notifyHart_self (s := s.setHome64 (.glob m.completion) (statusWord code detail 0 0).toNat) (ep := s.endpt)
    ⟨76, word m.va, 0⟩ rfl hn (hn ▸ hlt)
  have herase : s.migrations.erase m = [] := by rw [hm, List.erase_cons_head]
  unfold State.endMigration
  rw [State.complete'_mine hmine, hnotify, ← herase]
  rfl

/-- The copy of a migration that nothing hinders completes. -/
theorem State.migrationDone_done (hq : s.quiet) (hm : s.migrations = [m]) (hleaf : s.home64 (.glob m.leaf) = m.value.toNat)
    (hev : m.evicted = false) (hracked : s.racked m.value.toNat m.size = false)
    (hgood : s.isBad (.glob (bits m.value 56 16 * 65536)) m.size = false) (hmine : s.allotted m.completion 8 = true)
    (hn : m.notify = s.hart.id) (hlt : s.hart.id < 1536) :
    let t := (s.moveRange (bits m.value 56 16 * 65536) m.dest m.size).setHome64 (.glob m.leaf)
      (splice (splice (splice m.value.toNat 16 41 (m.dest / 65536)) 8 2 m.tier) 10 1 0)
    exec (.migrationDone 0) s = .next { t.setHome64 (.glob m.completion) (statusWord 0 0 0 0).toNat with
      hart.pending := s.hart.told ⟨76, word m.va, 0⟩
      migrations := [] } := by
  intro t
  have hi : s.migrations[0]? = some m := by rw [hm]; rfl
  have hallot : t.allotted = s.allotted := (State.allotted_homeSet _ _ _).trans (s.allotted_moveRange _ _ _)
  have hend := State.endMigration_self (s := t) (code := 0) (detail := 0) hm (by rw [hallot]; exact hmine) hn hlt
  have hgood' : s.isBad (.glob (field m.value.toNat 56 16 * 65536)) m.size = false := hgood
  show execMigrationDone 0 s = _
  unfold execMigrationDone
  rw [hi]
  dsimp only
  rw [hq.settleAll, hleaf, hev, hracked, Bool.and_false, Bool.or_self, if_neg Bool.false_ne_true, hq.busyIn,
    if_neg Bool.false_ne_true, hgood', if_neg Bool.false_ne_true, if_neg (by simp)]
  exact congrArg Host.Outcome.next hend

end

/-! ### Leases (R370 to R375) -/

section
variable {s : State} {c : EngineCommand} {x : Lease}

theorem State.expireOffers_none (h : ∀ l ∈ s.leases, ¬ (l.state = .offered ∧ l.offerEnd ≤ s.now.toNat)) : s.expireOffers = s := by
  have hnone : s.leases.filter (fun l => l.state = .offered && l.offerEnd ≤ s.now.toNat) = [] :=
    List.filter_eq_nil_iff.mpr fun l hl => by simpa using h l hl
  have hall : s.leases.filter (fun l => !(l.state = .offered && l.offerEnd ≤ s.now.toNat)) = s.leases :=
    List.filter_eq_self.mpr fun l hl => by
      simpa only [Bool.not_eq_true', ← Bool.not_eq_true, Bool.and_eq_true, decide_eq_true_iff] using h l hl
  unfold State.expireOffers
  dsimp only
  rw [hnone, hall, List.foldl_nil]

theorem State.expireOffers_nil (h : s.leases = []) : s.expireOffers = s :=
  State.expireOffers_none fun l hl => by simp [h] at hl

/-- Two completion words, one after the other. -/
theorem State.complete'_twice {a b k d m e : Nat} (ha : s.allotted a 8 = true) (hb : s.allotted b 8 = true) :
    (s.complete' a k d).complete' b m e
      = (s.setHome64 (.glob a) (statusWord k d 0 0).toNat).setHome64 (.glob b) (statusWord m e 0 0).toNat := by
  rw [State.complete'_mine ha]
  exact State.complete'_mine hb

/-- The only lease, replaced. -/
theorem State.putLease_only {y : Lease} (h : s.leases = [x]) (hlive : x.live = true) (hid : y.id = x.id)
    (hlender : y.lender = x.lender) (hborrower : y.borrower = x.borrower) :
    s.putLease y = ({ s with leases := [y] } : State).writeLease y := by
  have hsame : (x.live && decide (x.id = y.id) && decide (x.lender = y.lender) && decide (x.borrower = y.borrower)) = true := by
    simp [hlive, hid, hlender, hborrower]
  unfold State.putLease
  dsimp only
  rw [h, List.map_cons, List.map_nil, if_pos hsame]

/-- The lease that LEND offers. -/
def offerOf (c : EngineCommand) : Lease where
  id := c.id
  lender := c.endpt
  borrower := c.peer
  state := .offered
  base := paOf c.endpt (bits c.dw[1] 56 0)
  units := bits c.dw[2] 56 0
  notice := bits c.dw[4] 47 0
  bw := bits c.dw[5] 31 0
  fallback := 0
  tier := 0
  record := 0
  notify := 0
  lendDone := c.completion
  offerEnd := bits c.dw[6] 56 0

theorem formed_of {op : Nat} (hop : bits c.dw[0] 3 0 = op) (hid : c.id ≠ 0) : c.formed op = true := by
  simp [EngineCommand.formed, hop, hid]

theorem not_formed_of {op : Nat} (h : bits c.dw[0] 3 0 ≠ op ∨ c.id = 0) : c.formed op = false := by
  rw [EngineCommand.formed]
  rcases h with h | h <;> simp [h]

/-- A region in order lies below 2^44, the range of an endpoint. -/
theorem State.regionOk_lt {ep : Endpoint} {off len : Nat} (h : s.regionOk ep off len = true) : off + len ≤ 2 ^ 44 := by
  unfold State.regionOk at h
  simp only [Bool.and_eq_true, decide_eq_true_iff] at h
  exact h.1.1.1

theorem State.lend_offers (hop : bits c.dw[0] 3 0 = 2) (hid : c.id ≠ 0) (hoff : bits c.dw[1] 56 0 % 2 ^ 29 = 0)
    (hunits : bits c.dw[2] 56 0 ≠ 0) (hnames : s.namesOk c true = true)
    (hregion : s.regionOk c.endpt (bits c.dw[1] 56 0) (bits c.dw[2] 56 0 * 2 ^ 29) = true) (hl : s.leases = []) :
    s.lend c = { s with leases := [offerOf c] } := by
  have hform : (!c.formed 2 || decide (bits c.dw[1] 56 0 % 2 ^ 29 ≠ 0) || decide (bits c.dw[2] 56 0 = 0)) = false := by
    simp only [formed_of hop hid, hoff, hunits, ne_eq, not_true_eq_false, decide_false, Bool.not_true, Bool.or_self]
  have huse : s.idInUse c.endpt c.id none = false := by rw [State.idInUse, hl]; rfl
  unfold State.lend
  dsimp only
  rw [State.expireOffers_nil hl, hform, hnames, hregion, huse, hl]
  rfl

/-- The offer that ACCEPT matches, as it stands then. -/
def acceptedOf (c : EngineCommand) (x : Lease) : Lease :=
  { x with
    state := .active
    fallback := paOf c.endpt (bits c.dw[1] 56 0)
    tier := bits c.dw[2] 1 0
    record := bits c.dw[6] 56 0
    notify := c.notify
    acceptDone := c.completion }

theorem State.takeOffer_matches (hl : s.leases = [x]) (hid : x.id = c.id) (hne : c.id ≠ 0) (hop : bits c.dw[0] 3 0 = 3)
    (hoff : bits c.dw[1] 56 0 % 2 ^ 29 = 0) (htier : bits c.dw[2] 1 0 ≤ 1) (hlender : x.lender = c.peer)
    (hborrower : x.borrower = c.endpt) (hstate : x.state = .offered) (hnow : s.now.toNat < x.offerEnd)
    (hnames : s.namesOk c true = true) (hregion : s.regionOk c.endpt (bits c.dw[1] 56 0) (x.units * 2 ^ 29) = true)
    (hrecord : s.allotted (bits c.dw[6] 56 0) 64 = true) (hlend : s.allotted x.lendDone 8 = true)
    (hmine : s.allotted c.completion 8 = true) :
    let done := fun (t : State) (a code detail : Nat) => t.setHome64 (.glob a) (statusWord code detail 0 0).toNat
    s.takeOffer c = if s.grants (acceptedOf c x) = true
      then done (done (({ s with leases := [acceptedOf c x] } : State).writeLease (acceptedOf c x)) x.lendDone 0 0) c.completion 0 0
      else done (done { s with leases := [] } x.lendDone 5 5) c.completion 5 5 := by
  intro done
  have hexpire : s.expireOffers = s := State.expireOffers_none fun l h => by
    rw [hl, List.mem_singleton] at h
    rw [h]
    omega
  have hform : (!c.formed 3 || decide (bits c.dw[1] 56 0 % 2 ^ 29 ≠ 0) || decide (1 < bits c.dw[2] 1 0)) = false := by
    simp only [formed_of hop hne, hoff, Nat.not_lt.mpr htier, ne_eq, not_true_eq_false, decide_false, Bool.not_true, Bool.or_self]
  have hfind : (s.leases.find? fun l => l.id = c.id && l.lender = c.peer && l.borrower = c.endpt && l.state = .offered) = some x := by
    rw [hl]
    exact List.find?_cons_of_pos (by simp [hid, hlender, hborrower, hstate])
  have huse : s.idInUse c.endpt c.id (some x) = false := by
    rw [State.idInUse, hl]
    simp
  have hput := State.putLease_only (y := acceptedOf c x) hl (by simp [Lease.live, hstate]) rfl rfl rfl
  unfold State.takeOffer
  dsimp only
  rw [hexpire, hform, if_neg Bool.false_ne_true, hfind]
  dsimp only
  rw [hnames, hregion, hrecord, huse, Bool.not_true, Bool.or_self, Bool.or_self, if_neg Bool.false_ne_true,
    if_neg Bool.false_ne_true]
  show (if s.grants (acceptedOf c x) = true then ((s.putLease (acceptedOf c x)).complete' x.lendDone 0 0).complete' c.completion 0 0
    else (({ s with leases := s.leases.erase x } : State).complete' x.lendDone 5 5).complete' c.completion 5 5) = _
  rw [hput, hl, List.erase_cons_head]
  split
  · have hrec := State.allotted_writeLease { s with leases := [acceptedOf c x] } (acceptedOf c x)
    exact State.complete'_twice (by rw [hrec]; exact hlend) (by rw [hrec]; exact hmine)
  · exact State.complete'_twice (s := { s with leases := [] }) hlend hmine

/-- The lease once RECLAIM has its racking begin. -/
def reclaimedOf (s : State) (c : EngineCommand) (x : Lease) : Lease :=
  { x with
    state := .racking
    noticeEnd := s.now.toNat + x.notice
    reclaimDone := c.completion }

/-- A lease replaced and recorded, and the hart that it names told, when that hart steps. -/
theorem State.notify_recorded {t : State} {z : Trap} (hb : x.borrower = s.endpt) (hn : x.notify = s.hart.id)
    (hlt : s.hart.id < 1536) (he : t.endpt = s.endpt) (hh : t.hart = s.hart) :
    t.notifyHart x.borrower x.notify z = { t with hart.pending := s.hart.told z } := by
  rw [State.notifyHart_self z (hb.trans he.symm) (hn.trans (congrArg Hart.id hh).symm) (hn ▸ hlt), hh]

theorem State.homeSet_hart (s : State) (l : Loc) (bs : List Byte) : (s.homeSet l bs).hart = s.hart := by cases l <;> rfl

theorem State.homeSet_endpt (s : State) (l : Loc) (bs : List Byte) : (s.homeSet l bs).endpt = s.endpt := by cases l <;> rfl

theorem State.reclaim_racks (hl : s.leases = [x]) (hid : x.id = c.id) (hne : c.id ≠ 0) (hop : bits c.dw[0] 3 0 = 4)
    (hlender : x.lender = c.endpt) (hborrower : x.borrower = c.peer) (hstate : x.state = .active)
    (hnames : s.namesOk c true = true) (hq : s.quiet) (hb : x.borrower = s.endpt) (hn : x.notify = s.hart.id)
    (hlt : s.hart.id < 1536) :
    let kept := s.cached.filter fun t => !(field t.leaf 9 8 = 2 && field t.leaf 63 57 = x.id)
    s.reclaim c = { ({ s with cached := kept, leases := [reclaimedOf s c x] } : State).writeLease (reclaimedOf s c x) with
      hart.pending := s.hart.told ⟨74, word x.id, word (s.now.toNat + x.notice)⟩ } := by
  intro kept
  have hfind : (s.leases.find? fun l => l.id = c.id && l.lender = c.endpt && l.borrower = c.peer && l.state = .active) = some x := by
    rw [hl]
    exact List.find?_cons_of_pos (by simp [hid, hlender, hborrower, hstate])
  have hq' : ({ s with cached := kept } : State).quiet := hq
  have hput := State.putLease_only (s := { s with cached := kept }) (y := reclaimedOf s c x) hl (by simp [Lease.live, hstate]) rfl
    rfl rfl
  unfold State.reclaim
  dsimp only
  rw [formed_of hop hne, hnames, hfind]
  dsimp only
  rw [hq'.settleAll, Bool.not_true, if_neg Bool.false_ne_true, if_neg Bool.false_ne_true]
  refine (congrArg (State.notifyHart · x.borrower x.notify _) hput).trans ?_
  exact State.notify_recorded hb hn hlt (State.homeSet_endpt _ _ _) (State.homeSet_hart _ _ _)

theorem State.giveBack_found (hl : s.leases = [x]) (hid : x.id = c.id) (hne : c.id ≠ 0) (hop : bits c.dw[0] 3 0 = 5)
    (hborrower : x.borrower = c.endpt) (hnames : s.namesOk c false = true) (hmine : s.allotted c.completion 8 = true) :
    (x.state = .active → s.giveBack c
      = (({ s with leases := [{ x with state := .ended }] } : State).writeLease { x with state := .ended }).setHome64
        (.glob c.completion) (statusWord 0 0 0 0).toNat)
    ∧ (x.state = .racking → s.giveBack c = s.setHome64 (.glob c.completion) (statusWord 4 0 0 0).toNat) := by
  have hfind (h : x.takes = true) : (s.leases.find? fun l => l.id = c.id && l.borrower = c.endpt && l.takes) = some x := by
    rw [hl]
    exact List.find?_cons_of_pos (by simp [hid, hborrower, h])
  unfold State.giveBack
  constructor
  · intro hstate
    rw [formed_of hop hne, hnames, hfind (by simp [Lease.takes, hstate]), Bool.not_true, if_neg Bool.false_ne_true,
      if_neg Bool.false_ne_true]
    dsimp only
    rw [if_neg (by simp [hstate])]
    have hput := State.putLease_only (y := { x with state := .ended }) hl (by simp [Lease.live, hstate]) rfl rfl rfl
    refine (congrArg (State.complete' · c.completion 0 0) hput).trans (State.complete'_mine ?_)
    rw [State.allotted_writeLease]
    exact hmine
  · intro hstate
    rw [formed_of hop hne, hnames, hfind (by simp [Lease.takes, hstate]), Bool.not_true, if_neg Bool.false_ne_true,
      if_neg Bool.false_ne_true]
    dsimp only
    rw [if_pos hstate, State.complete'_mine hmine]

/-- An offer whose deadline has come is gone (R372). -/
theorem State.leaseOfferExpiry_due (hl : s.leases = [x]) (hstate : x.state = .offered) (hdue : x.offerEnd ≤ s.now.toNat)
    (hmine : s.allotted x.lendDone 8 = true) : exec (.leaseOfferExpiry 0) s
      = .next (({ s with leases := [] } : State).setHome64 (.glob x.lendDone) (statusWord 1 0 0 0).toNat) := by
  have hi : s.leases[0]? = some x := by rw [hl]; rfl
  show execLeaseOfferExpiry 0 s = _
  unfold execLeaseOfferExpiry
  rw [hi]
  dsimp only
  rw [if_pos hstate, s.passUntil_past _ hdue, hl, List.erase_cons_head]
  exact congrArg Host.Outcome.next (State.complete'_mine (s := { s with leases := [] }) hmine)

/-- The first granule moves, and others are left (R374). -/
theorem State.rackGranuleMove_first (hl : s.leases = [x]) (hstate : x.state = .racking) (hmoved : x.moved = []) (hurgent : x.urgent = [])
    (hunits : 1 ≤ x.units) (hq : s.quiet) :
    exec (.rackGranuleMove 0) s = .next { s.moveRange x.base x.fallback 65536 with leases := [{ x with moved := [0] }] } := by
  have hi : s.leases[0]? = some x := by rw [hl]; rfl
  have hnext : x.nextGranule = some 0 := by
    obtain ⟨k, hk⟩ : ∃ k, x.units * 8192 = k + 1 := ⟨x.units * 8192 - 1, by omega⟩
    rw [Lease.nextGranule, hurgent, hmoved, hk, List.range_succ_eq_map]
    rfl
  show execRackGranuleMove 0 s = _
  unfold execRackGranuleMove
  rw [hi]
  dsimp only
  rw [if_pos hstate, hnext]
  dsimp only
  have hmore : ¬ ([] ++ [0] : List Nat).length = x.units * 8192 := by
    rw [List.nil_append, List.length_singleton]
    omega
  rw [hmoved, if_pos rfl, hq.settleAll, hq.busyIn, hurgent, Bool.and_false, if_neg Bool.false_ne_true, if_neg hmore, Nat.zero_mul,
    Nat.add_zero, Nat.add_zero]
  refine congrArg (fun l => Host.Outcome.next { s.moveRange x.base x.fallback 65536 with leases := l }) ?_
  show s.leases.map _ = _
  rw [hl, List.map_cons, List.map_nil, if_pos rfl]
  rfl

/-- The last granule moves, and the lease ends (R374). -/
theorem State.rackGranuleMove_last {g : Nat} (hl : s.leases = [x]) (hstate : x.state = .racking) (hnext : x.nextGranule = some g)
    (hurgent : x.urgent = []) (hlast : x.moved.length + 1 = x.units * 8192) (hmine : s.allotted x.reclaimDone 8 = true)
    (hb : x.borrower = s.endpt) (hn : x.notify = s.hart.id) (hlt : s.hart.id < 1536) :
    let y := { x with
      moved := x.moved ++ [g]
      state := .ended }
    let t := s.moveRange (x.base + g * 65536) (x.fallback + g * 65536) 65536
    exec (.rackGranuleMove 0) s = .next { (({ t with leases := [y] } : State).writeLease y).setHome64 (.glob x.reclaimDone)
        (statusWord 0 (if x.noticeEnd < s.now.toNat then 1 else 0) 0 0).toNat with
      hart.pending := s.hart.told ⟨75, word x.id, 0⟩ } := by
  intro y t
  have hi : s.leases[0]? = some x := by rw [hl]; rfl
  have hmoved : x.moved ≠ [] := fun h => by
    rw [h, List.length_nil] at hlast
    omega
  have hlen : (x.moved ++ [g]).length = x.units * 8192 := by rw [List.length_append, List.length_singleton, hlast]
  have hnone : (x.urgent.filter fun u => u.1 = g) = [] := by rw [hurgent]; rfl
  have hkept : (x.urgent.filter fun u => u.1 ≠ g) = x.urgent := by rw [hurgent]; rfl
  have hput := State.putLease_only (s := t) (x := x) (y := y) hl (by simp [Lease.live, hstate]) rfl rfl rfl
  have hallot : (t.putLease y).allotted = s.allotted := by
    rw [hput]
    exact (State.allotted_writeLease { t with leases := [y] } y).trans
      (s.allotted_moveRange (x.base + g * 65536) (x.fallback + g * 65536) 65536)
  show execRackGranuleMove 0 s = _
  unfold execRackGranuleMove
  rw [hi]
  dsimp only
  rw [if_pos hstate, hnext]
  dsimp only
  rw [if_neg hmoved, decide_eq_false hmoved, Bool.false_and, if_neg Bool.false_ne_true, hnone, hkept,
    List.foldl_nil, if_pos hlen]
  have hword := State.complete'_mine (s := t.putLease y) (code := 0) (detail := if x.noticeEnd < s.now.toNat then 1 else 0)
    (by rw [hallot]; exact hmine)
  refine congrArg Host.Outcome.next ?_
  refine (congrArg (State.notifyHart · x.borrower x.notify _) hword).trans ?_
  rw [hput]
  exact State.notify_recorded hb hn hlt ((State.homeSet_endpt _ _ _).trans (State.homeSet_endpt _ _ _))
    ((State.homeSet_hart _ _ _).trans (State.homeSet_hart _ _ _))

end

end Sys2Proof.Machine
end

section
/-! PROOF. Requests of other endpoints, the memory engine, migration and leases. -/

namespace Sys2Proof.Machine

/-! ### Requests of other endpoints -/

section
variable {s : State} {pa n d : Nat} {x : Export} {r : AtomicRequest} {q : CaskRequest}

/-- An atomic on an exported page: one that is not for writing refuses it; else an add stores the sum, and a compare-and-swap
that finds another value stores nothing (R96, R377). -/
theorem execAtomicRequest_exported (hi : s.ingressFull = false) (h : s.Exported r.pa r.bytes x) (hw : x.withdrawn = false)
    (hplain : s.plainPlace (.glob r.pa)) :
    let old := leNat (s.homeRead (.glob r.pa) r.bytes)
    let y := r.operand.toNat % 2 ^ (8 * r.bytes)
    (x.writable = false → exec (.atomicRequest r) s = .next (s.reply (.cause 69)))
    ∧ (x.writable = true →
      (r.op = .add → exec (.atomicRequest r) s = .next
        ((s.homeSet (.glob r.pa) (leBytes ((old + y) % 2 ^ (8 * r.bytes)) r.bytes)).reply (.data (leBytes old r.bytes))))
      ∧ (r.op = .cas → old ≠ r.expected.toNat % 2 ^ (8 * r.bytes) →
        exec (.atomicRequest r) s = .next (s.reply (.data (leBytes old r.bytes))))) := by
  have hstop := h.foreignStop true
  intro old y
  refine ⟨fun hro => execAtomicRequest_refused hi (by simpa [hw, hro] using hstop), fun hrw => ?_⟩
  have hdone := execAtomicRequest_done hi (by simpa [hw, hrw] using hstop) hplain
  refine ⟨fun hop => ?_, fun hop hne => ?_⟩
  · rw [hop] at hdone
    exact hdone
  · have hnew : atomicNew r.op (8 * r.bytes) old y (r.expected.toNat % 2 ^ (8 * r.bytes)) = none := by
      rw [hop]
      exact if_neg hne
    refine hdone.trans ?_
    rw [hnew]
    rfl

/-- Read and atomic requests, by whether their page is exported (R82, R377, R404). -/
theorem foreign_requests (s : State) (pa n : Nat) (r : AtomicRequest) (x : Export) :
    let old := leNat (s.homeRead (.glob r.pa) r.bytes)
    let y := r.operand.toNat % 2 ^ (8 * r.bytes)
    (s.ingressFull = true → exec (.readRequest pa n) s = .next (s.reply (.nack 0))
       ∧ exec (.atomicRequest r) s = .next (s.reply (.nack 0)))
    ∧ (s.ingressFull = false →
      (s.Exported pa n x → x.withdrawn = false → exec (.readRequest pa n) s = .next (s.reply (.data (s.homeRead (.glob pa) n))))
      ∧ (s.Exported pa n x → x.withdrawn = true → exec (.readRequest pa n) s = .next (s.reply (.cause 68)))
      ∧ (epOf pa ≠ s.endpt ∨ s.backed (offOf pa) = false → exec (.readRequest pa n) s = .next (s.reply (.cause 69)))
      ∧ (s.Exported r.pa r.bytes x → x.withdrawn = false → s.plainPlace (.glob r.pa) →
        (x.writable = false → exec (.atomicRequest r) s = .next (s.reply (.cause 69)))
        ∧ (x.writable = true →
          (r.op = .add → exec (.atomicRequest r) s = .next
            ((s.homeSet (.glob r.pa) (leBytes ((old + y) % 2 ^ (8 * r.bytes)) r.bytes)).reply (.data (leBytes old r.bytes))))
          ∧ (r.op = .cas → old ≠ r.expected.toNat % 2 ^ (8 * r.bytes) →
            exec (.atomicRequest r) s = .next (s.reply (.data (leBytes old r.bytes))))))) := by
  refine ⟨fun hf => ⟨congrArg Host.Outcome.next (State.ingress_full hf _), congrArg Host.Outcome.next (State.ingress_full hf _)⟩,
    fun hi => ⟨fun h hw => execReadRequest_read hi ?_, fun h hw => execReadRequest_refused hi ?_,
      fun h => execReadRequest_refused hi (State.foreignStop_outside h false), fun h hw => execAtomicRequest_exported hi h hw⟩⟩
  · rw [h.foreignStop, hw]
    rfl
  · rw [h.foreignStop, hw]
    rfl

/-- An acquire of a free lock, and an entry taken from a ring (R117, R126, R137). -/
theorem execCaskRequest_cases (hstop : ∀ a, q.cask = .glob a → s.exportStop a 64 true = none) (hbad : s.caskBad q.cask = false)
    (hok : s.configOk q.cask (s.header q.cask) = true) (hhead : (s.tidy q.cask).header q.cask = s.header q.cask) :
    let z := s.tidy q.cask
    let k := z.lock q.cask
    ((z.header q.cask).kind = 2 → q.group = .sync → q.verb = .acquire d → k.held = false →
      exec (.caskRequest q) s = .next ((z.setLock q.cask { k with
        holder := q.index
        held := true
        suspect := false }).reply (.status (statusWord 0 k.repaired.toNat k.gen 0) 0)))
    ∧ ((z.header q.cask).kind = 5 → q.group = .que → q.verb = .poll → z.ringCount q.cask ≠ 0 →
      exec (.caskRequest q) s = .next (((z.setHome64 (q.cask.plus 24) ((z.ringHead q.cask + 1) % 2 ^ 32)).reply
        (.status (statusWord 0 0 0 0) 0)).reply (.data (z.homeRead (z.ringSlot q.cask (z.ringHead q.cask)) 64)))) := by
  intro z k
  have hserved (kind : Nat) (hkind : (z.header q.cask).kind = kind) (hin : q.kinds.contains kind = true) (hne : kind ≠ 4)
      (hstrip : s.meetsBadStrip q = false) : exec (.caskRequest q) s = .next (z.serveCask q) := by
    have hk : (s.header q.cask).kind = kind := hhead ▸ hkind
    exact execCaskRequest_served hstop hbad hok (hk ▸ hin) (hk ▸ hne) hstrip
  refine ⟨fun hkind hgroup hverb hfree => ?_, fun hkind hgroup hverb hring => ?_⟩
  · rw [hserved 2 hkind (by simp [CaskRequest.kinds, hgroup, hverb]) (by decide) (by simp [State.meetsBadStrip, hverb]),
      State.serveCask_acquire hkind hverb hfree]
  · rw [hserved 5 hkind (by simp [CaskRequest.kinds, hgroup, hverb]) (by decide) (by simp [State.meetsBadStrip, hverb]),
      State.serveCask_poll hverb hring]

end

/-! ### The memory engine -/

section
variable {s : State} {c : EngineCommand} {x : Lease} {l : Loc}

/-- The engine takes the command at the head of its queue (R366). -/
theorem State.serveEngine_takes (hl : s.part.engine = some l) (hbad : (s.visit l).caskBad l = false)
    (hkind : ((s.visit l).header l).kind = 5) (hok : (s.visit l).configOk l ((s.visit l).header l) = true)
    (hring : (s.visit l).ringCount l ≠ 0) :
    let e := s.visit l
    s.serveEngine = (e.setHome64 (l.plus 24) ((e.ringHead l + 1) % 2 ^ 32)).command
      ⟨s.endpt, Vector.ofFn fun i => word (dwordAt (e.homeRead (e.ringSlot l (e.ringHead l)) 64) i.val)⟩ := by
  intro e
  unfold State.serveEngine
  rw [hl]
  dsimp only
  rw [hbad, hok, decide_eq_false (not_not_intro hkind), decide_eq_false hring, Bool.not_true, Bool.or_self, Bool.or_self, Bool.or_self,
    if_neg Bool.false_ne_true]
  rfl

theorem step_engine {rest : List Move} (hup : s.thermal ≠ .down) (h : s.agenda = .engine :: rest) :
    step s = .next ({ s with agenda := rest } : State).serveEngine := by
  unfold step stepWith
  rw [if_neg hup, h]
  rfl

section
variable {t : State} {leaf pte va size asid : Nat} {ms : List Migration}

/-- Marking a leaf changes bytes of memory and the translations held. -/
theorem State.markLeaf_parts (h : t = { s.markLeaf leaf pte va size asid with migrations := ms }) :
    t = { s with
      mem := t.mem
      badMem := t.badMem
      cached := t.cached
      migrations := ms } := by
  unfold State.markLeaf State.setHome64 at h
  generalize leBytes (splice pte 10 1 1) 8 = bs at h
  rw [h]
  rfl

theorem State.markLeaf_home64 (h : t = { s.markLeaf leaf pte va size asid with migrations := ms }) (l : Loc) :
    t.home64 l = (s.setHome64 (.glob leaf) (splice pte 10 1 1)).home64 l := by
  unfold State.markLeaf at h
  generalize s.setHome64 (.glob leaf) (splice pte 10 1 1) = u at h ⊢
  rw [h]
  rfl

end

/-- MIGRATE marks the leaf, drops the page's translations and notes the move (R368). -/
theorem State.migrate_marks {asid leaf pte size : Nat} {table : Word} (hop : bits c.dw[0] 3 0 = 1) (htier : bits c.dw[2] 1 0 ≤ 1)
    (hmine : s.allotted c.completion 8 = true) (hhart : s.hartOk c.endpt c.notify = true) (hasid : bits c.dw[0] 28 16 = asid)
    (hcount : asid < s.part.asidCount) (htable : s.tableOf asid = some table)
    (hleaf : s.leafOf (bits c.dw[1] 54 0) 2 (bits table 56 16 * 65536) = some (leaf, pte, size))
    (hmig : bit pte 10 = false) (hrack : bit pte 11 = false) (hdest : bits c.dw[2] 56 16 * 65536 % size = 0)
    (hregion : s.regionOk (epOf (bits c.dw[2] 56 16 * 65536)) (offOf (bits c.dw[2] 56 16 * 65536)) size = true)
    (hracked : s.racked pte size = false) (hs : s.canonical) (hq : s.quiet) (hplain : ∀ i, i < 8 → s.plainPlace (.glob (leaf + i))) :
    (s.migrate c).home64 (.glob leaf) = pte + 2 ^ 10
    ∧ s.migrate c = { s with
      mem := (s.migrate c).mem
      badMem := (s.migrate c).badMem
      cached := (s.migrate c).cached
      migrations := s.migrations ++ [migrationOf c leaf pte size] }
    ∧ ∀ y, y ∈ (s.migrate c).cached ↔ y ∈ s.cached ∧ ¬ ((y.asid = s.part.asidBase + asid ∨ bit y.leaf 5 = true)
      ∧ y.page < bits c.dw[1] 54 0 / size * size + size ∧ bits c.dw[1] 54 0 / size * size < y.page + y.size) := by
  subst hasid
  have hlt : pte < 2 ^ 64 := by
    rw [State.leafOf_value hleaf]
    exact s.homeRead_lt (.glob leaf) 8
  have ht := State.migrate_begins hop htier hmine hhart hcount htable hleaf hmig hrack hdest hregion hracked hq
  have hcached : (s.migrate c).cached = (s.markLeaf leaf pte (bits c.dw[1] 54 0) size (bits c.dw[0] 28 16)).cached := by rw [ht]
  refine ⟨?_, State.markLeaf_parts ht, ?_⟩
  · exact (State.markLeaf_home64 ht _).trans ((s.home64_setHome64_same (.glob leaf) _ hs hplain).trans (marked_leaf hlt hmig))
  · rw [hcached]
    exact State.markLeaf_cached _

/-- Without a lease, a command for leases that is not formed gets its completion word (R366). -/
theorem lease_refused (hl : s.leases = []) (hmine : s.allotted c.completion 8 = true) :
    let word := s.setHome64 (.glob c.completion) (statusWord 5 1 0 0).toNat
    (bits c.dw[0] 3 0 ≠ 2 ∨ c.id = 0 → bits c.dw[0] 3 0 ≠ 1 → s.lend c = word)
    ∧ (bits c.dw[0] 3 0 ≠ 3 ∨ c.id = 0 → bits c.dw[0] 3 0 ≠ 1 → s.takeOffer c = word)
    ∧ (bits c.dw[0] 3 0 ≠ 4 ∨ c.id = 0 → bits c.dw[0] 3 0 ≠ 1 → s.reclaim c = word)
    ∧ (bits c.dw[0] 3 0 ≠ 5 ∨ c.id = 0 → bits c.dw[0] 3 0 ≠ 1 → s.giveBack c = word) := by
  refine ⟨fun h hop => ?_, fun h hop => ?_, fun h hop => ?_, fun h hop => ?_⟩
  · unfold State.lend
    dsimp only
    rw [State.expireOffers_nil hl, not_formed_of h, Bool.not_false, Bool.true_or, Bool.true_or, if_pos rfl]
    exact State.refuse_mine hop hmine
  · unfold State.takeOffer
    dsimp only
    rw [State.expireOffers_nil hl, not_formed_of h, Bool.not_false, Bool.true_or, Bool.true_or, if_pos rfl]
    exact State.refuse_mine hop hmine
  · unfold State.reclaim
    rw [not_formed_of h, Bool.not_false, if_pos rfl]
    exact State.refuse_mine hop hmine
  · unfold State.giveBack
    rw [not_formed_of h, Bool.not_false, if_pos rfl]
    exact State.refuse_mine hop hmine

/-- The base of an offer is the offset that LEND gives, which is within the endpoint. -/
theorem offerOf_base (hunits : bits c.dw[2] 56 0 ≠ 0)
    (hregion : s.regionOk c.endpt (bits c.dw[1] 56 0) (bits c.dw[2] 56 0 * 2 ^ 29) = true) :
    (offerOf c).base = c.endpt.toNat * 2 ^ 44 + bits c.dw[1] 56 0 := by
  have hle := State.regionOk_lt hregion
  have hlt : bits c.dw[1] 56 0 < 2 ^ 44 := by omega
  exact congrArg (c.endpt.toNat * 2 ^ 44 + ·) (Nat.mod_eq_of_lt hlt)

/-- The translations under a lease, by the bits of the leaf as a word. -/
theorem kept_leaves {cached : List Cached} (h : ∀ t ∈ cached, t.leaf < 2 ^ 64) (id : Nat) :
    (cached.filter fun t => !(bits (word t.leaf) 9 8 = 2 && bits (word t.leaf) 63 57 = id))
      = cached.filter fun t => !(field t.leaf 9 8 = 2 && field t.leaf 63 57 = id) := by
  refine List.filter_congr fun t ht => ?_
  have hword : (word t.leaf).toNat = t.leaf := (BitVec.toNat_ofNat _ _).trans (Nat.mod_eq_of_lt (h t ht))
  simp only [bits, field, hword]
  rfl

end

/-- Settles O57: each clause is the lemma of the request, the command or the event. -/
theorem memoryEngine : Obligations.MemoryEngine := by
  unfold Obligations.MemoryEngine
  constructor
  · intro s pa n r x q d
    obtain ⟨hfull, hfree⟩ := foreign_requests s pa n r x
    refine ⟨hfull, fun hi => ?_, execCaskRequest_cases⟩
    obtain ⟨hread, hgone, hout, hatomic⟩ := hfree hi
    exact ⟨fun ⟨h1, h2, h3, h4⟩ => hread ⟨h1, h2, h3, h4⟩, fun ⟨h1, h2, h3, h4⟩ => hgone ⟨h1, h2, h3, h4⟩, hout,
      fun ⟨h1, h2, h3, h4⟩ => hatomic ⟨h1, h2, h3, h4⟩⟩
  · intro s c pte leaf size asid g table m x l rest h field told done record mine e
    refine ⟨?_, ?_, ?_, ?_, ?_, ?_, ?_⟩
    · intro hup hag hl hbad hkind hok hring
      exact (step_engine hup hag).trans (congrArg Host.Outcome.next (State.serveEngine_takes hl hbad hkind hok hring))
    · intro va dest page hop htier hmine hhart hasid hcount htable hleaf hmig hrack hdest hregion hracked hs hq hplain
      obtain ⟨hmarked, hparts, hcached⟩ := State.migrate_marks hop htier hmine hhart hasid hcount htable hleaf hmig hrack hdest
        hregion hracked hs hq hplain
      have hmoves : (s.migrate c).migrations = s.migrations ++ [migrationOf c leaf pte size] := by rw [hparts]
      refine ⟨s.migrate c, rfl, hmarked, ?_, hcached, migrationOf c leaf pte size, hmoves, rfl, rfl, rfl, rfl, rfl, rfl, rfl, rfl⟩
      rw [hmoves]
      exact hparts
    · intro hq hm hleaf hev hracked hgood hmine hn hlt
      exact State.migrationDone_done hq hm hleaf hev hracked hgood hmine hn hlt
    · intro hop hid hoff hunits hnames hregion hl
      exact ⟨offerOf c, congrArg Host.Outcome.next (State.lend_offers hop hid hoff hunits hnames hregion hl), rfl, rfl, rfl, rfl,
        offerOf_base hunits hregion, rfl, rfl, rfl, rfl, rfl⟩
    · intro hl hmine
      obtain ⟨hlend, haccept, hreclaim, hreturn⟩ := lease_refused hl hmine
      exact ⟨fun h hop => congrArg Host.Outcome.next (hlend h hop), fun h hop => congrArg Host.Outcome.next (haccept h hop),
        fun h hop => congrArg Host.Outcome.next (hreclaim h hop), fun h hop => congrArg Host.Outcome.next (hreturn h hop)⟩
    · intro hl hid hne
      refine ⟨?_, ?_, ?_⟩
      · intro y hop hoff htier hlender hborrower hstate hnow hnames hregion hrecord hlend hmine
        have hmatch := State.takeOffer_matches hl hid hne hop hoff htier hlender hborrower hstate hnow hnames hregion hrecord hlend
          hmine
        exact ⟨fun hgrant => congrArg Host.Outcome.next (hmatch.trans (if_pos hgrant)),
          fun hgrant => congrArg Host.Outcome.next (hmatch.trans (if_neg (fun h => Bool.false_ne_true (hgrant.symm.trans h))))⟩
      · intro hop hlender hborrower hstate hnames hq hleaves y kept hb hn hlt
        have hracks := State.reclaim_racks hl hid hne hop hlender hborrower hstate hnames hq hb hn hlt
        rw [← kept_leaves hleaves] at hracks
        exact congrArg Host.Outcome.next hracks
      · intro hop hborrower hnames hmine
        obtain ⟨hactive, hracking⟩ := State.giveBack_found hl hid hne hop hborrower hnames hmine
        exact ⟨fun h => congrArg Host.Outcome.next (hactive h), fun h => congrArg Host.Outcome.next (hracking h)⟩
    · intro hl
      refine ⟨fun hstate hdue hmine => State.leaseOfferExpiry_due hl hstate hdue hmine,
        fun hstate hmoved hurgent hunits hq => State.rackGranuleMove_first hl hstate hmoved hurgent hunits hq, ?_⟩
      intro hstate hnext hurgent hlast hmine hb hn hlt y
      exact State.rackGranuleMove_last hl hstate hnext hurgent hlast hmine hb hn hlt

end Sys2Proof.Machine
end
